-- ==== Sys2Proof/Word.lean ====
section
/-! DEFINITION. The word types of the KV-6416 and the sparse map that memories and register stores are made of. -/

namespace Sys2Proof

/-- One byte of memory or of a frame. -/
abbrev Byte := BitVec 8
/-- One 32-bit register word. -/
abbrev Word := BitVec 32
/-- One 64-bit value: a lane, a swath number, a counter (R4, R107). -/
abbrev DWord := BitVec 64
/-- A run of bytes, the lowest address first. -/
abbrev Bytes := List Byte
/-- A sparse map with natural keys, in ascending key order. -/
abbrev SMap (α : Type) := List (Nat × α)

end Sys2Proof
end

