-- ==== Sys2Proof/Syntax.lean ====
section
/-! DEFINITION. The commands of the KV-6416: one constructor of `Instr` for each row of spec/opcode_table.json.
The table gives no operand fields; an operand here is what reaches the device from outside in that event. -/

namespace Sys2Proof

/-- Who makes a register access (R35, R39, R387, R438). -/
inductive Requester where
  | pf
  | vf (n : Fin 257)
  | cc (c : Fin 12)
  | cm (c : Fin 4)
  | jtag
deriving DecidableEq, Repr

/-- A unit whose slices are cut or whose units end outside the crypto pools (R105, R110, R248). -/
inductive UnitRef where
  | field (f : Fin 16)
  | amu (u : Fin 4)
deriving DecidableEq, Repr

/-- The crypto pools of Table 3.4 that are made of cores. -/
inductive CorePool where
  | lattice
  | hashsig
  | code
  | bignum
deriving DecidableEq, Repr

/-- The health test that tripped (Table 14.2). -/
inductive HealthTest where
  | rct
  | apt
deriving DecidableEq, Repr

/-- A report at a fault source: UNIT code and details of Table 18.3. -/
structure FaultReport where
  source : Fin 512
  unit : BitVec 16
  detail0 : DWord
  detail1 : DWord
deriving DecidableEq, Repr

/-- A disturbance that no other command carries: an upset bit of a register word (R47), a cell of a key slot that fails its check (R344),
or takings of the next key policy or bundle decision that disagree (R426). -/
inductive Upset where
  | word (addr : Nat) (b : Fin 32)
  | cell (slot : Fin 16384)
  | keyDecision
  | bundleDecision
deriving DecidableEq, Repr

/-- A match unit, and the bits of its array that are upset between this scrub step and the next, by entry and bit (R30, R261). -/
structure ScrubAt where
  amu : Fin 4
  flips : List (Fin 65536 × Fin 272)
deriving DecidableEq, Repr

/-- The bytes that a register read names (R31). -/
structure ReadAt where
  addr : Nat
  size : Nat
deriving DecidableEq, Repr

/-- How an MCTP message reaches the device (R512): over SMBus, with the address that it bears, or over PCIe VDM. -/
inductive MctpVia where
  | smbus (addr : BitVec 7)
  | pcie
deriving DecidableEq, Repr

/-- Why Fallow is entered (R419). -/
inductive FallowCause where
  | guard (source : Fin 512)
  | logic
deriving DecidableEq, Repr

/-- The main rails of Table 24.5 whose loss the device sees (R506). -/
inductive Rail where
  | vddW
  | vddE
  | vddHub
  | vddSram
  | vddqHbm
  | vddqlHbm
  | vddio18
deriving DecidableEq, Repr

/-- What the world shows the device at a start edge, and what the fuse and journal reads find (R460, R461, R443). -/
structure StartEnv where
  railsOk : Bool
  perstHigh : Bool
  refclkRuns : Bool
  fusesCorrected : BitVec 16
  fusesLost : Bool
  journalA : Bool
  journalB : Bool
deriving DecidableEq, Repr

/-- What a DBG_CORE access does to a core (R444). -/
inductive DbgCoreOp where
  | halt
  | resume
  | step
  | read (addr : Nat) (len : Nat)
  | write (addr : Nat) (data : Bytes)
deriving DecidableEq, Repr

/-- One received Commons frame: header of Table 23.1, payload, and whether its FCS and EtherType pass (R475). -/
structure Frame where
  port : Fin 4
  fcsOk : Bool
  etherType : BitVec 16
  src : BitVec 10
  dst : BitVec 10
  slot : Fin 64
  swn : DWord
  cjob : DWord
  offset : Word
  version : Byte
  payload : Bytes
deriving DecidableEq, Repr

/-- Why signals are held (R375): the function's power state or the link's. -/
inductive LowPower where
  | d3hot
  | d3cold
  | linkL1
deriving DecidableEq, Repr

/-- The commands, in the order of spec/opcode_table.json. -/
inductive Instr where
  | swathBoundary (offNs : Word)
  | tickOutPulse
  | replanStep
  | commitStep
  | drainComplete
  | planeSwitch (ecc : List (Fin 16))
  | admissionStep
  | mirrorRefresh (skew : List (BitVec 16))
  | editPass (u : Fin 4)
  | editPassEnd (u : Fin 4)
  | planeLoad (f : Fin 16)
  | planeLoadEnd (f : Fin 16) (eccFail : Bool)
  | fieldStoreClear (f : Fin 16)
  | seedbankAllotment
  | latePlaneSwitch (ecc : List (Fin 16))
  | lookaheadStart
  | workWindowBegins
  | tailBegins
  | psEntryAtSwathEnd
  | unitEnd (u : UnitRef)
  | sliceCut (u : UnitRef)
  | operationEnd (pool : CorePool) (core : Nat)
  | digestUnitEnd (p : Fin 12)
  | splitHandover (pool : Fin 5) (core : Nat)
  | jobEnd (job : Nat)
  | highWaterDurable (slot : Fin 16384)
  | nvCommitDurable
  | slotReload (slot : Fin 16384)
  | remaskComplete (bad : List (Fin 16384))
  | amuScrubStep (u : ScrubAt)
  | probeTagWrite (u : Fin 4) (tag : BitVec 16)
  | probeAnswer (u : Fin 4)
  | conditionedBlock (src : Fin 8) (samples : Bytes)
  | seedAlarm (src : Fin 8) (test : HealthTest)
  | seedStartupTestEnd
  | seedFloorReached
  | intcEvent (src : Fin 1024)
  | intcReassign (src : Fin 1024)
  | claim (who : Requester) (t : Fin 16)
  | complete (who : Requester) (t : Fin 16) (src : BitVec 10)
  | swiSetC (who : Requester) (k : Fin 32)
  | swiSetM (who : Requester) (k : Fin 32)
  | timerWrite (t : Fin 16) (cycles : Word)
  | timerExpiry (t : Fin 16)
  | taskArm (who : Requester) (task : BitVec 13) (count : BitVec 16)
  | taskSignal (who : Requester) (task : BitVec 13)
  | taskCancel (who : Requester) (task : BitVec 13)
  | taskInletEvent
  | taskOffer
  | offerTimeout (c : Fin 12)
  | faultGroupSampled (off : BitVec 22) (n : Nat) (ext : List FaultReport)
  | reactionPin
  | reactionFence
  | reactionBlockReset
  | reactionInt
  | reactionNmi
  | reactionChipReset
  | faultPinTimer
  | faultPinHoldWrite (who : Requester) (hold : Bool)
  | fallowEntry (cause : FallowCause)
  | registerVote (addr : Nat) (mask : Word) (liveTriple : Bool) (c0 c1 c2 : Word)
  | paritySweep (upsets : List Upset)
  | busTimeout (who : Requester)
  | counterLowRead (who : Requester) (at_ : ReadAt)
  | registerWrite (who : Requester) (addr : Nat) (size : Nat) (value : DWord)
  | cfgHoldWrite (who : Requester) (hold : Bool)
  | slowWriteApply
  | resetReq (who : Requester) (key : BitVec 16) (kind : BitVec 2)
  | perstAssert
  | startEdge (env : StartEnv)
  | firmwareVerify (bankA bankB : Bool) (images : List Bytes) (kernels : List (Bytes × Bool))
  | hbmTrainingEnd (failed : List (Fin 128))
  | keystoreReloadEnd (corrupt : Bool)
  | pldmFirmwareUpdate (image : Bytes)
  | mctpMessage (via : MctpVia) (msg : Bytes)
  | spdmGetMeasurements (index : Byte) (nonce : Bytes)
  | heldStatusRequest
  | mainRailLoss (rail : Rail)
  | thermtrip
  | tamperAlarm (src : Fin 11) (detA detB : Bool)
  | backupTamperAlarm (src : Fin 3) (detA detB : Bool)
  | auxRailFall
  | backupSupplyChange (aux : Option (BitVec 2)) (vbat : Bool)
  | fuseReq (who : Requester) (key : BitVec 16) (sources : BitVec 16) (agree : Bool)
  | tamperEnableWrite (who : Requester) (backup : Bool) (value : BitVec 16) (agree : Bool)
  | rtcLoad (who : Requester)
  | rtcAlarm
  | lcClose (who : Requester) (agree : Bool)
  | lcOpen (who : Requester) (agree : Bool)
  | finalReq (who : Requester) (key : BitVec 16) (blow : Bool) (agree : Bool)
  | dbgCore (t : Fin 16) (op : DbgCoreOp)
  | dbgReg (write : Bool) (addr : Nat) (value : Word)
  | ageingMeasurementEnd (degrade : List (BitVec 16))
  | marginPlan
  | avsCommand (east : Bool) (acks : List Bool)
  | instEnable (who : Requester) (n : Fin 257)
  | instReset (who : Requester) (n : Fin 257)
  | instRemove (who : Requester) (n : Fin 257)
  | instFreeze (who : Requester) (n : Fin 257)
  | instThaw (who : Requester) (n : Fin 257)
  | instVfReset (n : Fin 257)
  | numvfsLowered (k : Fin 257)
  | sqTailDoorbell (n : Fin 257) (q : Fin 8) (value : Word)
  | cqHeadDoorbell (n : Fin 257) (q : Fin 8) (value : Word)
  | queueEnable (who : Requester) (n : Fin 257) (cq : Bool) (q : Fin 8) (en : Bool)
  | descriptorArrives
  | cqTimer (n : Fin 257) (q : Fin 8)
  | hostD0Return (n : Fin 257)
  | mbxUpProd (n : Fin 257) (index : BitVec 5)
  | mbxDnProd (n : Fin 257) (index : BitVec 5)
  | bar2Access (write : Bool) (addr : Nat) (len : Nat) (data : Bytes)
  | dmaErrorCompletion (write : Bool) (addr : Nat) (len : Nat)
  | pcieLinkDown
  | pcieLinkUp
  | exchange (fr : Frame)
  | end_ (fr : Frame)
  | reserve (fr : Frame)
  | ack (fr : Frame)
  | commit (fr : Frame)
  | abandon (fr : Frame)
  | partDone (fr : Frame)
  | alive (fr : Frame)
  | aliveSend
  | peerTimeout (m : BitVec 10)
  | ptpSync (ns : DWord)
  | tickInEdge
  | referenceLost
  | holdoverTimeout
  | portLinkDrop (k : Fin 4)
  | portRetrained (k : Fin 4)
  | openingStepEnd
  | tamperMonitorArmed (src : Fin 16)
  | risingSclkEdge
  | d3hotOrL1Entry (n : Fin 257) (kind : LowPower)
  | numvfsRaised (k : Fin 257)
  | vbatLowChange (mv : BitVec 13)
deriving DecidableEq, Repr

end Sys2Proof
end

