-- ==== Sys2Proof/Decode.lean ====
section
/-! DEFINITION. The words that spell a command. spec/opcode_table.json gives no row any bits, so no word spells one. -/

namespace Sys2Proof

/-- The command that the low `nbits` bits of `w` spell: none, as the table gives its rows no encoding. -/
def decodeTableWord (_nbits _w : Nat) : Option Instr := none

end Sys2Proof
end

