-- ==== Sys2Proof/Machine/Data.lean ====
section
/-! DEFINITION. Sparse maps in canonical form, byte strings, and small arithmetic used by every unit. -/

namespace Sys2Proof.Machine

/-! ## Sparse maps -/

/-- The value of key `k`; a key that is not listed reads as `d k`. -/
def mget {α : Type} (d : Nat → α) : SMap α → Nat → α
  | [], k => d k
  | (j, v) :: m, k => if k = j then v else if k < j then d k else mget d m k

/-- `m` without key `k`. -/
def mdel {α : Type} : SMap α → Nat → SMap α
  | [], _ => []
  | (j, v) :: m, k => if k = j then m else if k < j then (j, v) :: m else (j, v) :: mdel m k

/-- `m` with key `k` listed as `v`, whatever the default. -/
def mins {α : Type} : SMap α → Nat → α → SMap α
  | [], k, v => [(k, v)]
  | (j, w) :: m, k, v =>
    if k = j then (k, v) :: m else if k < j then (k, v) :: (j, w) :: m else (j, w) :: mins m k v

/-- Write `v` at `k`, in canonical form: writing the default removes the entry. -/
def mput {α : Type} [DecidableEq α] (d : Nat → α) (m : SMap α) (k : Nat) (v : α) : SMap α :=
  if v = d k then mdel m k else mins m k v

/-- Change every listed value, in canonical form. -/
def mmap {α : Type} [DecidableEq α] (d : Nat → α) (f : Nat → α → α) : SMap α → SMap α
  | [] => []
  | (k, v) :: m => if f k v = d k then mmap d f m else (k, f k v) :: mmap d f m

/-- Keys strictly rising from `lo` on, and no entry that equals its default. -/
def mwfFrom {α : Type} [DecidableEq α] (d : Nat → α) : Nat → SMap α → Bool
  | _, [] => true
  | lo, (k, v) :: m => decide (lo ≤ k) && decide (v ≠ d k) && mwfFrom d (k + 1) m

/-- The canonical form of a sparse map. -/
def mwf {α : Type} [DecidableEq α] (d : Nat → α) (m : SMap α) : Bool := mwfFrom d 0 m

/-- Counters by key, absent ones zero. -/
def cget (m : SMap Nat) (k : Nat) : Nat := mget (fun _ => 0) m k
def cput (m : SMap Nat) (k v : Nat) : SMap Nat := mput (fun _ => 0) m k v
def cadd (m : SMap Nat) (k n : Nat) : SMap Nat := cput m k (cget m k + n)

/-! ## Bytes -/

/-- Little-endian number of a byte string. -/
def leNat : Bytes → Nat
  | [] => 0
  | b :: bs => b.toNat + 256 * leNat bs

/-- `n` bytes of `v`, lowest first. -/
def toLe : Nat → Nat → Bytes
  | 0, _ => []
  | n + 1, v => BitVec.ofNat 8 v :: toLe n (v / 256)

/-- Big-endian number of a byte string. -/
def beNat (b : Bytes) : Nat := b.foldl (fun a x => a * 256 + x.toNat) 0

/-- `n` bytes of `v`, highest first. -/
def toBe (n v : Nat) : Bytes := (toLe n v).reverse

/-- `n` zero bytes. -/
def zeros (n : Nat) : Bytes := List.replicate n 0#8

/-- `n` bytes of `b` from offset `off`, with zeros beyond its end. -/
def slice (b : Bytes) (off n : Nat) : Bytes :=
  let x := (b.drop off).take n
  x ++ zeros (n - x.length)

/-- Little-endian field of `n` bytes at offset `off`. -/
def rd (b : Bytes) (off n : Nat) : Nat := leNat (slice b off n)

/-- `b` with `x` written over it from offset `off`. -/
def wr (b : Bytes) (off : Nat) (x : Bytes) : Bytes :=
  slice b 0 off ++ x ++ b.drop (off + x.length)

/-- Pad with zeros, or cut, to `n` bytes. -/
def fitB (b : Bytes) (n : Nat) : Bytes := slice b 0 n

def xorBytes (a b : Bytes) : Bytes := List.zipWith (· ^^^ ·) a b

/-! ## Numbers -/

/-- Bits [lo + n - 1 : lo] of `w`. -/
def fld (w lo n : Nat) : Nat := w / 2 ^ lo % 2 ^ n
def bit (w i : Nat) : Bool := w / 2 ^ i % 2 == 1
def b2n (b : Bool) : Nat := if b then 1 else 0

/-- ⌈a / b⌉. -/
def cdiv (a b : Nat) : Nat := (a + b - 1) / b

/-- Saturating increment at an all-ones value of `bits` bits. -/
def satInc (bits n : Nat) : Nat := if n + 1 < 2 ^ bits then n + 1 else 2 ^ bits - 1
def satAdd (bits n k : Nat) : Nat := if n + k < 2 ^ bits then n + k else 2 ^ bits - 1

/-- ⌊√n⌋, by halving from bit `i`. -/
def isqrtAux (n : Nat) : Nat → Nat → Nat
  | 0, r => r
  | i + 1, r => let t := r + 2 ^ i; isqrtAux n i (if t * t ≤ n then t else r)

/-- ⌊√n⌋ for n below 2^128. -/
def isqrt (n : Nat) : Nat := isqrtAux n 64 0

/-- ⌈√n⌉. -/
def csqrt (n : Nat) : Nat := let r := isqrt n; if r * r = n then r else r + 1

/-- ⌈log₁₆ n⌉ for n ≥ 1, at most `fuel`. -/
def clog16 : Nat → Nat → Nat
  | 0, _ => 0
  | f + 1, n => if n ≤ 1 then 0 else 1 + clog16 f (cdiv n 16)

/-- Number of set bits among the low `n`. -/
def popc : Nat → Nat → Nat
  | 0, _ => 0
  | n + 1, w => b2n (bit w n) + popc n w

/-- Signed value of an `n`-bit field. -/
def sext (n w : Nat) : Int := if w % 2 ^ n < 2 ^ (n - 1) then (w % 2 ^ n : Int) else (w % 2 ^ n : Int) - 2 ^ n

/-! ## Lists -/

/-- The element at `i`, or `d`. -/
def nth {α : Type} (l : List α) (i : Nat) (d : α) : α := (l[i]?).getD d

/-- `l` with element `i` changed by `f`. -/
def modNth {α : Type} : List α → Nat → (α → α) → List α
  | [], _, _ => []
  | x :: xs, 0, f => f x :: xs
  | x :: xs, n + 1, f => x :: modNth xs n f

def sumL (l : List Nat) : Nat := l.foldl (· + ·) 0

/-- Fold a state through a list. -/
def each {α σ : Type} (l : List α) (s : σ) (f : σ → α → σ) : σ := l.foldl f s

/-- `l` in pieces of `n` (n > 0); `fuel` bounds their number. -/
def chunks {α : Type} (n : Nat) : Nat → List α → List (List α)
  | 0, _ => []
  | _, [] => []
  | f + 1, l => l.take n :: chunks n f (l.drop n)

/-- Insert keeping an order `lt`, after equals (stable). -/
def insBy {α : Type} (lt : α → α → Bool) (x : α) : List α → List α
  | [] => [x]
  | y :: ys => if lt x y then x :: y :: ys else y :: insBy lt x ys

/-- Stable sort. -/
def sortBy {α : Type} (lt : α → α → Bool) (l : List α) : List α := l.foldl (fun acc x => insBy lt x acc) []

/-- The first `n` numbers. -/
def upTo (n : Nat) : List Nat := List.range n

end Sys2Proof.Machine
end

