-- ==== Sys2Proof/Machine/Aes.lean ====
section
/-! DEFINITION. AES-256 and its Galois/counter mode (FIPS 197, SP 800-38D), PRESUMED from those standards (log entry 8). -/

namespace Sys2Proof.Machine

def xtime (x : Byte) : Byte := (x <<< 1) ^^^ (if x.getLsbD 7 then 0x1B#8 else 0#8)
def gmulAux : Nat → Byte → Byte → Byte
  | 0, _, _ => 0#8
  | n + 1, a, b => (if b.getLsbD 0 then a else 0#8) ^^^ gmulAux n (xtime a) (b >>> 1)
/-- Product in GF(2^8). -/
def gmul (a b : Byte) : Byte := gmulAux 8 a b
/-- x^254, the inverse (0 for 0). -/
def ginv (x : Byte) : Byte :=
  let x2 := gmul x x
  let x3 := gmul x2 x
  let x6 := gmul x3 x3
  let x12 := gmul x6 x6
  let x15 := gmul x12 x3
  let x30 := gmul x15 x15
  let x60 := gmul x30 x30
  let x120 := gmul x60 x60
  let x126 := gmul x120 x6
  let x127 := gmul x126 x
  gmul x127 x127
def sbox (x : Byte) : Byte :=
  let i := ginv x
  i ^^^ i.rotateLeft 1 ^^^ i.rotateLeft 2 ^^^ i.rotateLeft 3 ^^^ i.rotateLeft 4 ^^^ 0x63#8

def rconAux : Nat → Byte → Byte
  | 0, x => x
  | n + 1, x => rconAux n (xtime x)

/-- Key schedule of AES-256, newest word first. -/
def aesExpand : Nat → Nat → List Bytes → List Bytes
  | 0, _, ws => ws
  | n + 1, i, ws =>
    let p := nth ws 0 []
    let t :=
      if i % 8 = 0 then xorBytes ((p.drop 1 ++ p.take 1).map sbox) [rconAux (i / 8 - 1) 1#8, 0#8, 0#8, 0#8]
      else if i % 8 = 4 then p.map sbox else p
    aesExpand n (i + 1) (xorBytes (nth ws 7 []) t :: ws)

/-- The 15 round keys of a 32-byte key. -/
def aesKeys (key : Bytes) : List Bytes :=
  let ws := (aesExpand 52 8 (chunks 4 9 (fitB key 32)).reverse).reverse
  (chunks 4 16 ws).map (fun g => g.flatten)

def shiftRows (b : Bytes) : Bytes := (upTo 16).map (fun i => nth b ((i + 4 * (i % 4)) % 16) 0#8)
def mixColumn (c : Bytes) : Bytes :=
  (upTo 4).map (fun i =>
    gmul 2#8 (nth c i 0#8) ^^^ gmul 3#8 (nth c ((i + 1) % 4) 0#8) ^^^ nth c ((i + 2) % 4) 0#8 ^^^ nth c ((i + 3) % 4) 0#8)
def mixColumns (b : Bytes) : Bytes := (chunks 4 5 b).flatMap mixColumn

def aesRounds : List Bytes → Bytes → Bytes
  | [], b => b
  | [k], b => xorBytes (shiftRows (b.map sbox)) k
  | k :: ks, b => aesRounds ks (xorBytes (mixColumns (shiftRows (b.map sbox))) k)

/-- One AES-256 block. -/
def aesBlock (key b : Bytes) : Bytes :=
  match aesKeys key with
  | [] => b
  | k :: ks => aesRounds ks (xorBytes b k)

/-- Product in GF(2^128) of SP 800-38D, bit 0 the leftmost. -/
def ghMulAux : Nat → BitVec 128 → BitVec 128 → BitVec 128 → BitVec 128
  | 0, _, _, z => z
  | n + 1, x, v, z =>
    let z := if x.getMsbD 0 then z ^^^ v else z
    let v := (v >>> 1) ^^^ (if v.getLsbD 0 then 0xE1000000000000000000000000000000#128 else 0)
    ghMulAux n (x <<< 1) v z
def ghMul (x y : BitVec 128) : BitVec 128 := ghMulAux 128 x y 0
def toBlock (b : Bytes) : BitVec 128 := BitVec.ofNat 128 (beNat (fitB b 16))
def ghash (h : BitVec 128) (b : Bytes) : BitVec 128 :=
  (chunks 16 (b.length + 1) b).foldl (fun y c => ghMul (y ^^^ toBlock c) h) 0
def pad16 (b : Bytes) : Bytes := b ++ zeros ((16 - b.length % 16) % 16)

/-- Counter-mode keystream applied to `b`, from counter value `n` after a 12-byte IV. -/
def gcmCtr (key iv : Bytes) : Nat → Nat → Bytes → Bytes
  | 0, _, _ => []
  | _, _, [] => []
  | f + 1, n, b => xorBytes (b.take 16) (aesBlock key (iv ++ toBe 4 n)) ++ gcmCtr key iv f (n + 1) (b.drop 16)

def gcmTag (key iv aad ct : Bytes) : Bytes :=
  let h := toBlock (aesBlock key (zeros 16))
  let y := ghash h (pad16 aad ++ pad16 ct ++ toBe 8 (8 * aad.length) ++ toBe 8 (8 * ct.length))
  xorBytes (toBe 16 y.toNat) (aesBlock key (iv ++ toBe 4 1))

/-- AES-256-GCM with a 12-byte IV and a 16-byte tag: ciphertext and tag. -/
def gcmSeal (key iv aad pt : Bytes) : Bytes × Bytes :=
  let ct := gcmCtr key iv (pt.length + 1) 2 pt
  (ct, gcmTag key iv aad ct)
/-- Plaintext where the tag verifies. -/
def gcmOpen (key iv aad ct tag : Bytes) : Option Bytes :=
  if gcmTag key iv aad ct = tag then some (gcmCtr key iv (ct.length + 1) 2 ct) else none
/-- GMAC: the tag over additional data alone. -/
def gmac (key iv aad : Bytes) : Bytes := gcmTag key iv aad []

end Sys2Proof.Machine
end

