-- ==== Sys2Proof/Machine/Hash.lean ====
section
/-! DEFINITION. The hash functions of the device: SHA-2, Keccak with SHA-3, SHAKE and cSHAKE, HMAC, KMAC256 and
SipHash-2-4. The spec names the functions by their standards (FIPS 180-4, FIPS 202, SP 800-185); their arithmetic is
PRESUMED from those standards (log entry 8). -/

namespace Sys2Proof.Machine

/-- An ASCII string as bytes. -/
def ascii (x : String) : Bytes := x.toList.map (fun c => BitVec.ofNat 8 c.toNat)

/-! ## SHA-2 (FIPS 180-4) -/

/-- Round constants of SHA-512; SHA-256 takes the high halves of the first 64. -/
def sha2K0 : List Nat :=
  [0x428A2F98D728AE22, 0x7137449123EF65CD, 0xB5C0FBCFEC4D3B2F, 0xE9B5DBA58189DBBC,
   0x3956C25BF348B538, 0x59F111F1B605D019, 0x923F82A4AF194F9B, 0xAB1C5ED5DA6D8118,
   0xD807AA98A3030242, 0x12835B0145706FBE, 0x243185BE4EE4B28C, 0x550C7DC3D5FFB4E2,
   0x72BE5D74F27B896F, 0x80DEB1FE3B1696B1, 0x9BDC06A725C71235, 0xC19BF174CF692694,
   0xE49B69C19EF14AD2, 0xEFBE4786384F25E3, 0x0FC19DC68B8CD5B5, 0x240CA1CC77AC9C65]
def sha2K1 : List Nat :=
  [0x2DE92C6F592B0275, 0x4A7484AA6EA6E483, 0x5CB0A9DCBD41FBD4, 0x76F988DA831153B5,
   0x983E5152EE66DFAB, 0xA831C66D2DB43210, 0xB00327C898FB213F, 0xBF597FC7BEEF0EE4,
   0xC6E00BF33DA88FC2, 0xD5A79147930AA725, 0x06CA6351E003826F, 0x142929670A0E6E70,
   0x27B70A8546D22FFC, 0x2E1B21385C26C926, 0x4D2C6DFC5AC42AED, 0x53380D139D95B3DF,
   0x650A73548BAF63DE, 0x766A0ABB3C77B2A8, 0x81C2C92E47EDAEE6, 0x92722C851482353B]
def sha2K2 : List Nat :=
  [0xA2BFE8A14CF10364, 0xA81A664BBC423001, 0xC24B8B70D0F89791, 0xC76C51A30654BE30,
   0xD192E819D6EF5218, 0xD69906245565A910, 0xF40E35855771202A, 0x106AA07032BBD1B8,
   0x19A4C116B8D2D0C8, 0x1E376C085141AB53, 0x2748774CDF8EEB99, 0x34B0BCB5E19B48A8,
   0x391C0CB3C5C95A63, 0x4ED8AA4AE3418ACB, 0x5B9CCA4F7763E373, 0x682E6FF3D6B2B8A3,
   0x748F82EE5DEFB2FC, 0x78A5636F43172F60, 0x84C87814A1F0AB72, 0x8CC702081A6439EC]
def sha2K3 : List Nat :=
  [0x90BEFFFA23631E28, 0xA4506CEBDE82BDE9, 0xBEF9A3F7B2C67915, 0xC67178F2E372532B,
   0xCA273ECEEA26619C, 0xD186B8C721C0C207, 0xEADA7DD6CDE0EB1E, 0xF57D4F7FEE6ED178,
   0x06F067AA72176FBA, 0x0A637DC5A2C898A6, 0x113F9804BEF90DAE, 0x1B710B35131C471B,
   0x28DB77F523047D84, 0x32CAAB7B40C72493, 0x3C9EBE0A15C9BEBC, 0x431D67C49C100D4C,
   0x4CC5D4BECB3E42B6, 0x597F299CFC657E2A, 0x5FCB6FAB3AD6FAEC, 0x6C44198C4A475817]
def sha2K : List Nat := sha2K0 ++ sha2K1 ++ sha2K2 ++ sha2K3

def sha512Iv : List Nat :=
  [0x6A09E667F3BCC908, 0xBB67AE8584CAA73B, 0x3C6EF372FE94F82B, 0xA54FF53A5F1D36F1,
   0x510E527FADE682D1, 0x9B05688C2B3E6C1F, 0x1F83D9ABFB41BD6B, 0x5BE0CD19137E2179]
def sha384Iv : List Nat :=
  [0xCBBB9D5DC1059ED8, 0x629A292A367CD507, 0x9159015A3070DD17, 0x152FECD8F70E5939,
   0x67332667FFC00B31, 0x8EB44A8768581511, 0xDB0C2E0D64F98FA7, 0x47B5481DBEFA4FA4]

/-- The figures of one SHA-2 family member: word width, rounds, rotations of Σ0, Σ1, σ0, σ1. -/
structure Sha2Fam (w : Nat) where
  rounds : Nat
  s0 : Nat × Nat × Nat
  s1 : Nat × Nat × Nat
  t0 : Nat × Nat × Nat
  t1 : Nat × Nat × Nat
  k : List (BitVec w)

def sha256Fam : Sha2Fam 32 :=
  { rounds := 64, s0 := (2, 13, 22), s1 := (6, 11, 25), t0 := (7, 18, 3), t1 := (17, 19, 10),
    k := (sha2K.take 64).map (fun x => BitVec.ofNat 32 (x / 2 ^ 32)) }
def sha512Fam : Sha2Fam 64 :=
  { rounds := 80, s0 := (28, 34, 39), s1 := (14, 18, 41), t0 := (1, 8, 7), t1 := (19, 61, 6),
    k := sha2K.map (BitVec.ofNat 64) }

variable {w : Nat}

def bigSigma (r : Nat × Nat × Nat) (x : BitVec w) : BitVec w :=
  x.rotateRight r.1 ^^^ x.rotateRight r.2.1 ^^^ x.rotateRight r.2.2
def smallSigma (r : Nat × Nat × Nat) (x : BitVec w) : BitVec w :=
  x.rotateRight r.1 ^^^ x.rotateRight r.2.1 ^^^ x >>> r.2.2

/-- Message schedule, newest word first: `n` further words. -/
def sha2Sched (f : Sha2Fam w) : Nat → List (BitVec w) → List (BitVec w)
  | 0, ws => ws
  | n + 1, ws =>
    sha2Sched f n
      ((smallSigma f.t1 (nth ws 1 0) + nth ws 6 0 + smallSigma f.t0 (nth ws 14 0) + nth ws 15 0) :: ws)

def sha2Round (f : Sha2Fam w) (h : List (BitVec w)) (kw : BitVec w) : List (BitVec w) :=
  match h with
  | [a, b, c, d, e, g, i, j] =>
    let t1 := j + bigSigma f.s1 e + ((e &&& g) ^^^ (~~~e &&& i)) + kw
    let t2 := bigSigma f.s0 a + ((a &&& b) ^^^ (a &&& c) ^^^ (b &&& c))
    [t1 + t2, a, b, c, d + t1, e, g, i]
  | h => h

/-- Compress one block of 16 words. -/
def sha2Block (f : Sha2Fam w) (h ws : List (BitVec w)) : List (BitVec w) :=
  let sched := (sha2Sched f (f.rounds - 16) ws.reverse).reverse
  List.zipWith (· + ·) h ((List.zipWith (· + ·) f.k sched).foldl (sha2Round f) h)

def toWords (w n : Nat) (b : Bytes) : List (BitVec w) :=
  (upTo n).map (fun i => BitVec.ofNat w (beNat (slice b (i * (w / 8)) (w / 8))))

/-- Absorb whole blocks into a chaining value. -/
def sha2Absorb (f : Sha2Fam w) (h : List (BitVec w)) (b : Bytes) : List (BitVec w) :=
  (chunks (2 * w) (b.length + 1) b).foldl (fun h c => sha2Block f h (toWords w 16 c)) h

/-- Padding for a message of `len` bytes in blocks of `bs` bytes. -/
def sha2Pad (bs len : Nat) : Bytes :=
  let l := bs / 8
  let z := (bs - (len + 1 + l) % bs) % bs
  0x80#8 :: zeros z ++ toBe l (8 * len)

/-- Finish from chaining value `h` after `done` absorbed bytes, with the last bytes `b`. -/
def sha2Finish (f : Sha2Fam w) (h : List (BitVec w)) (done : Nat) (b : Bytes) : Bytes :=
  (sha2Absorb f h (b ++ sha2Pad (2 * w) (done + b.length))).flatMap (fun x => toBe (w / 8) x.toNat)

def sha256Init : List (BitVec 32) := sha512Iv.map (fun x => BitVec.ofNat 32 (x / 2 ^ 32))
def sha512Init : List (BitVec 64) := sha512Iv.map (BitVec.ofNat 64)
def sha384Init : List (BitVec 64) := sha384Iv.map (BitVec.ofNat 64)

def sha256 (b : Bytes) : Bytes := sha2Finish sha256Fam sha256Init 0 b
def sha512 (b : Bytes) : Bytes := sha2Finish sha512Fam sha512Init 0 b
def sha384 (b : Bytes) : Bytes := (sha2Finish sha512Fam sha384Init 0 b).take 48

/-- HMAC with a hash of block size `bs`. -/
def hmac (hash : Bytes → Bytes) (bs : Nat) (key msg : Bytes) : Bytes :=
  let k := fitB (if key.length > bs then hash key else key) bs
  hash (k.map (· ^^^ 0x5C#8) ++ hash (k.map (· ^^^ 0x36#8) ++ msg))
def hmacSha384 := hmac sha384 128

/-- MGF1 (RFC 8017). -/
def mgf1 (hash : Bytes → Bytes) (hlen : Nat) (seed : Bytes) (n : Nat) : Bytes :=
  ((upTo (cdiv n hlen)).flatMap (fun i => hash (seed ++ toBe 4 i))).take n

/-! ## Keccak (FIPS 202, SP 800-185) -/

def keccakRot : List Nat :=
  [0, 1, 62, 28, 27, 36, 44, 6, 55, 20, 3, 10, 43, 25, 39, 41, 45, 15, 21, 8, 18, 2, 61, 56, 14]

/-- One bit of the round-constant register after `n` steps. -/
def keccakRc : Nat → BitVec 8 → BitVec 8
  | 0, r => r
  | n + 1, r => keccakRc n ((r <<< 1) ^^^ (if r.getLsbD 7 then 0x71#8 else 0#8))

def keccakConst (round : Nat) : BitVec 64 :=
  BitVec.ofNat 64 (sumL ((upTo 7).map (fun j =>
    if (keccakRc (j + 7 * round) 1#8).getLsbD 0 then 2 ^ (2 ^ j - 1) else 0)))

def keccakRound (a : List (BitVec 64)) (round : Nat) : List (BitVec 64) :=
  let at' := fun (l : List (BitVec 64)) (x y : Nat) => nth l (x % 5 + 5 * (y % 5)) 0
  let c := (upTo 5).map (fun x => at' a x 0 ^^^ at' a x 1 ^^^ at' a x 2 ^^^ at' a x 3 ^^^ at' a x 4)
  let d := (upTo 5).map (fun x => nth c ((x + 4) % 5) 0 ^^^ (nth c ((x + 1) % 5) 0).rotateLeft 1)
  let t := (upTo 25).map (fun i => (nth a i 0 ^^^ nth d (i % 5) 0).rotateLeft (nth keccakRot i 0))
  let b := (upTo 25).map (fun i => let x := i % 5; let y := i / 5; at' t (x + 3 * y) x)
  (upTo 25).map (fun i =>
    let x := i % 5
    let y := i / 5
    (at' b x y ^^^ (~~~(at' b (x + 1) y) &&& at' b (x + 2) y)) ^^^ (if i = 0 then keccakConst round else 0))

def keccakF (a : List (BitVec 64)) : List (BitVec 64) := (upTo 24).foldl keccakRound a

def keccakXor (a : List (BitVec 64)) (b : Bytes) : List (BitVec 64) :=
  List.zipWith (· ^^^ ·) a ((upTo 25).map (fun i => BitVec.ofNat 64 (rd b (8 * i) 8)))

def keccakBytes (a : List (BitVec 64)) : Bytes := a.flatMap (fun x => toLe 8 x.toNat)
def keccakZero : List (BitVec 64) := List.replicate 25 0

/-- Absorb whole blocks of `rate` bytes. -/
def keccakAbsorb (rate : Nat) (a : List (BitVec 64)) (b : Bytes) : List (BitVec 64) :=
  (chunks rate (b.length + 1) b).foldl (fun a c => keccakF (keccakXor a c)) a

def keccakSqueeze (rate : Nat) : Nat → List (BitVec 64) → Nat → Bytes
  | 0, _, _ => []
  | f + 1, a, n => if n ≤ rate then (keccakBytes a).take n else (keccakBytes a).take rate ++ keccakSqueeze rate f (keccakF a) (n - rate)

/-- The last block: `suffix` byte after the message, 0x80 in the last byte of the block. -/
def keccakPad (rate len : Nat) (suffix : Byte) : Bytes :=
  let z := rate - len % rate
  if z = 1 then [suffix ^^^ 0x80#8] else suffix :: zeros (z - 2) ++ [0x80#8]

def keccakFinish (rate : Nat) (suffix : Byte) (a : List (BitVec 64)) (b : Bytes) (out : Nat) : Bytes :=
  keccakSqueeze rate (out + 1) (keccakAbsorb rate a (b ++ keccakPad rate b.length suffix)) out

def keccak (rate : Nat) (suffix : Byte) (b : Bytes) (out : Nat) : Bytes := keccakFinish rate suffix keccakZero b out
def sha3x256 (b : Bytes) : Bytes := keccak 136 0x06#8 b 32
def sha3x512 (b : Bytes) : Bytes := keccak 72 0x06#8 b 64

/-- Big-endian bytes of `n` without leading zeros, at least one. -/
def minBe : Nat → Nat → Bytes
  | 0, _ => [0#8]
  | f + 1, n => if n < 256 then [BitVec.ofNat 8 n] else minBe f (n / 256) ++ [BitVec.ofNat 8 n]

def leftEncode (n : Nat) : Bytes := let b := minBe 8 n; BitVec.ofNat 8 b.length :: b
def rightEncode (n : Nat) : Bytes := let b := minBe 8 n; b ++ [BitVec.ofNat 8 b.length]
def encodeString (b : Bytes) : Bytes := leftEncode (8 * b.length) ++ b
def bytepad (b : Bytes) (w : Nat) : Bytes :=
  let x := leftEncode w ++ b
  x ++ zeros ((w - x.length % w) % w)

/-- KMAC256 (SP 800-185) with key, message, output bytes and customisation. -/
def kmac256 (key msg : Bytes) (out : Nat) (custom : Bytes) : Bytes :=
  keccak 136 0x04#8
    (bytepad (encodeString [0x4B#8, 0x4D#8, 0x41#8, 0x43#8] ++ encodeString custom) 136 ++
      bytepad (encodeString key) 136 ++ msg ++ rightEncode (8 * out)) out

/-! ## SipHash-2-4 -/

structure Sip where
  v0 : BitVec 64
  v1 : BitVec 64
  v2 : BitVec 64
  v3 : BitVec 64

def sipRound (v : Sip) : Sip :=
  let v0 := v.v0 + v.v1
  let v1 := v.v1.rotateLeft 13 ^^^ v0
  let v0 := v0.rotateLeft 32
  let v2 := v.v2 + v.v3
  let v3 := v.v3.rotateLeft 16 ^^^ v2
  let v0 := v0 + v3
  let v3 := v3.rotateLeft 21 ^^^ v0
  let v2 := v2 + v1
  let v1 := v1.rotateLeft 17 ^^^ v2
  let v2 := v2.rotateLeft 32
  { v0, v1, v2, v3 }

def sipWord (v : Sip) (m : BitVec 64) : Sip :=
  let v := sipRound (sipRound { v with v3 := v.v3 ^^^ m })
  { v with v0 := v.v0 ^^^ m }

/-- SipHash-2-4 of a message under a 16-byte key. -/
def sipHash (key msg : Bytes) : BitVec 64 :=
  let k0 := BitVec.ofNat 64 (rd key 0 8)
  let k1 := BitVec.ofNat 64 (rd key 8 8)
  let v : Sip := { v0 := k0 ^^^ 0x736F6D6570736575, v1 := k1 ^^^ 0x646F72616E646F6D,
                   v2 := k0 ^^^ 0x6C7967656E657261, v3 := k1 ^^^ 0x7465646279746573 }
  let n := msg.length / 8
  let v := (upTo n).foldl (fun v i => sipWord v (BitVec.ofNat 64 (rd msg (8 * i) 8))) v
  let v := sipWord v (BitVec.ofNat 64 (leNat (msg.drop (8 * n)) + 2 ^ 56 * (msg.length % 256)))
  let v := sipRound (sipRound (sipRound (sipRound { v with v2 := v.v2 ^^^ 0xFF })))
  v.v0 ^^^ v.v1 ^^^ v.v2 ^^^ v.v3

end Sys2Proof.Machine
end

