-- ==== Sys2Proof/Config.lean ====
section
/-! DEFINITION. What one part fixes at manufacture, and the values the spec leaves free. Every constant here is
opaque: nothing in Lean can evaluate it, so a statement about it holds for every value. -/

namespace Sys2Proof.Config

/-- DESIGN CHOICE (log entry 1). The n-th free value of `bits` bits: every value the spec leaves open and every random
byte (DRBG, noise) is drawn here with a fresh n. -/
opaque freeNat : Nat → Nat → Nat

/-- PART_ID.GRADE (Table 2.5), a fuse: 0x43 or 0x58. Log entry 3. -/
opaque gradeFuse : Word
/-- DEVID[127:0] (Table 2.5), a fuse. Log entry 3. -/
opaque devid : BitVec 128
/-- PORT_MAC, the fused address of Commons port 0 (R473). Log entry 3. -/
opaque portMac : BitVec 48
/-- Owner-authority digests: presence, revocation and the fused SHA-384 (Table 15.6, check 3). Log entry 3. -/
opaque authPresent : BitVec 4
opaque authRevoked : BitVec 4
opaque authDigest : Nat → Bytes
/-- Identity secret (R346, R358). Log entry 3. -/
opaque identitySecret : Bytes
/-- The fuse-held root material (R346). -/
opaque rootMaterial : Bytes
/-- V_new(d, k) in mV, gain G(d) in mV per 0.01 %, hub limit A(k) (R457); die 0 West, 1 East. Log entry 3. -/
opaque vNew : Nat → Nat → Nat
opaque ageGain : Nat → Nat
opaque hubLimit : Nat → Nat
/-- Identity certificate chains in the manufacturing region of the user store (R358). Log entry 3. -/
opaque certChains : Bytes

/-! HQC and Classic McEliece (R267): other documents define them; the spec gives their inputs, their lengths and what the device does with
the result. Log entry 4. -/

/-- Public key and secret key that a seed gives for a set. -/
opaque keygenPub : Nat → Bytes → Bytes
opaque keygenSec : Nat → Bytes → Bytes
/-- Encapsulation: set, public key, random bytes give ciphertext and secret. -/
opaque encapsCt : Nat → Bytes → Bytes → Bytes
opaque encapsKey : Nat → Bytes → Bytes → Bytes
/-- Decapsulation: set, secret key, ciphertext, with the implicit rejection of the scheme. -/
opaque decaps : Nat → Bytes → Bytes → Bytes
/-- Keccak blocks of the fixed squeeze of a rejection sampler (R278): 0 SampleNTT and ExpandA, 1 ExpandS, 2 SampleInBall. Log entry 4. -/
opaque squeezeBlocks : Nat → Nat
/-- The arrangement of a carry buffer's bytes is internal (R282): the plain form of a state, and the buffer that IV, tag and encrypted
state make. Log entry 39. -/
opaque carryPlain : List Bytes → Bytes
opaque carryArrange : Bytes → Bytes → Bytes → Bytes
/-- Per-boot carry key (R91), by boot number. -/
opaque carryKey : Nat → Bytes

/-- Bytes that an egress engine writes for a list from row groups, outside encoding 4: the layout is the image's and no table
gives it. Engine, list, beats as V, N, K and data of each lane. Log entry 45. -/
opaque egressLayout : Nat → Nat → List (List (Option (Nat × Bool × Bool))) → Bytes
/-- Stream that entry `l` of an egress engine's address list takes, of the streams that reach it. Log entry 45. -/
opaque egressStream : Nat → Nat → Nat → Nat
/-- Stream that the kind area of a SEAL tile names as its block-ID source: Table 6.5 names the field and no table places it. Log
entry 45. -/
opaque sealIdStream : Bytes → Nat
/-- HBM address of a unit's pending rows (R205): OVF_ADDR, o, bytes of a slot, u. Log entry 99. -/
opaque pendingAddr : Nat → Nat → Nat → Nat → Nat
/-- What a byte of the reserved ledger range or of the job table reads as (R65): number of the read, address. Log entry 108. -/
opaque internalByte : Nat → Nat → BitVec 8
/-- Arrangement of the frames in the exchange buffer of R113: payloads in order of sending. Log entry 101. -/
opaque exchangeBuffer : List Bytes → Bytes

/-- Bytes above the least that a derived HMAC key of a type takes: Table 15.1 gives a range (R356). Log entry 1. -/
opaque hmacDeriveExtra : Nat → Nat
/-- The 16 raw bytes of measurement block 4 for a life-cycle state, LC_FINAL and the blown tamper fuses (Table 15.9): the
spec gives no layout. Log entry 28. -/
opaque lifeFuseBlock : Bool → Bool → Nat → Bytes
/-- The byte form of the slot metadata that measurement block 5 digests (Table 15.9). Log entry 28. -/
opaque slotMetaBytes : List (List Nat) → Bytes

end Sys2Proof.Config
end

