-- ==== Sys2Proof/Machine/State.lean ====
section
/-! DEFINITION. The state of the KV-6416 as plain data, one structure per unit, and the state after power-up. -/

namespace Sys2Proof.Machine

/-- Why the model stops with a fault. Nothing of the spec stops this block: an unchecked condition leaves it with a state that is free
within the condition's scope (Table 25.3), so no command raises a fault. -/
inductive Fault where
deriving DecidableEq, Repr

/-- Why the model gives a command no meaning. -/
inductive Refusal where
  /-- Raised by an arm of `exec` that has no meaning yet. Safe: nothing is proved of it. -/
  | notModelled (mnemonic : String)
deriving DecidableEq, Repr

/-- A stage record (Table 4.1), with the first image section of the stage (Table 6.1). -/
structure StageRec where
  u : Nat
  nfields : Nat
  edit : Nat
  fieldCc : Nat
  pool : List Nat
  amu : List Nat
  hbm : Nat
  commons : Nat
  seed : Nat
  first : Nat
deriving DecidableEq, Repr

/-- Units of one stage placed in one row (R69). `done` counts ended units per chosen field, or in its one entry for a
stage without fields; `gone` lists the units that became lost units. -/
structure Placement where
  stage : Nat
  row : Nat
  start : Nat
  count : Nat
  fields : List Nat
  replaced : Bool
  seq : Nat
  recUnits : Bool
  done : List Nat
  gone : List Nat
deriving DecidableEq, Repr

/-- Lost units of a stage awaiting the re-plan step (R78). -/
structure Lost where
  stage : Nat
  start : Nat
  count : Nat
  fields : List Nat
deriving DecidableEq, Repr

/-- One signature of a pooled signing batch (R280): status 255 while undecided. -/
structure SigSt where
  status : Nat
  attempts : Nat
deriving DecidableEq, Repr

/-- What a handle holds of a staged image (R146). -/
structure HandleC where
  addr : Nat
  len : Nat
  nstage : Nat
  nsect : Nat
  digest : Bytes
deriving DecidableEq, Repr

/-- An image handle (R144): 0 EMPTY, 1 STAGING, 2 READY. `ready` tells that a staging job has ended OK: the handle is READY from the next
admission step onwards (R146). -/
structure Handle where
  state : Nat
  ready : Bool
  c : HandleC
deriving DecidableEq, Repr

/-- A part of a Commons job that this member holds (R485) or coordinates for itself (R484). -/
structure Part where
  coord : Nat
  cjob : DWord
  s0 : Nat
  wins : List (Nat × Nat)
  members : List Nat
  cert : Nat
  committed : Bool
  abandoned : Bool
  planBad : Bool
deriving DecidableEq, Repr

/-- What an operation has read, loaded and drawn at its start (R275, R294), as the operand RAM of its core or the context of its
pipeline holds it (R264, R289, R304): `fail` is the status that its key load or its randomness has decided, 0 for none; the key stands as
two shares, the second one all zeros where the operation is not masked (R277). An operation that has not begun holds nothing. -/
structure OpHeld where
  fail : Nat
  entry : Bytes
  in0 : Bytes
  in1 : Bytes
  ctx : Bytes
  pub : Bytes
  share0 : Bytes
  share1 : Bytes
  rnd : Bytes
deriving DecidableEq, Repr

/-- A carry buffer that stage `stage` of operation `op` has written, with its IV and the state it holds (R282). -/
structure Carry where
  op : Nat
  stage : Nat
  iv : Bytes
  state : OpHeld
deriving DecidableEq, Repr

/-- An accepted or held job (R68). `work` is the working state of operations that last over several units: ML-DSA signatures (R99, R102)
and layered verifications; `carries` what the job's carry buffers hold. `dest` and `scratch` list the destination and scratch ranges that its query units have written
(R105, R172). -/
structure Job where
  id : Nat
  inst : Nat
  sq : Nat
  cq : Nat
  gen : BitVec 16
  tag : DWord
  opcode : Nat
  desc : Bytes
  param : Bytes
  image : HandleC
  a : Nat
  deadline : Nat
  stages : List StageRec
  pls : List Placement
  lost : List Lost
  status : Option Nat
  finish : Nat
  trunc : Bool
  sat : Bool
  rows : List Nat
  recorded : Bool
  relPend : Bool
  held : Option Nat
  tent : Bool
  part : Option Part
  carryId : Nat
  carryKey : Bytes
  worst : Option (Nat × Nat)
  budgetOut : Bool
  signs : SMap SigSt
  dealt : Nat
  cursor : Nat
  levels : SMap Nat
  work : SMap OpHeld
  carries : List Carry
  overflow : Bool
  sent : SMap Nat
  dest : List (Nat × Nat)
  scratch : List (Nat × Nat)
deriving DecidableEq, Repr

/-- A descriptor in the admission inlet (R66). -/
structure InletEntry where
  inst : Nat
  sq : Nat
  gen : BitVec 16
  desc : Bytes
deriving DecidableEq, Repr

/-- One calendar row (Table 3.3): counters by resource number of Table 3.6. EDIT and TENT follow from the placements. -/
structure Row where
  cnt : SMap Nat
deriving DecidableEq, Repr

/-- Units of one placement running on a field or AMU in this swath (R59). -/
structure Slice where
  job : Nat
  stage : Nat
  start : Nat
  count : Nat
  pos : Nat
  done : Nat
  seq : Nat
deriving DecidableEq, Repr

/-- A unit laid out on a core or pipeline (R90): part 0 whole, 1 first part, 2 remainder of a split unit. -/
structure Piece where
  job : Nat
  stage : Nat
  unit : Nat
  part : Nat
  seq : Nat
  inst : Nat
deriving DecidableEq, Repr

/-- GLOBAL and the swath timebase (Tables 2.5, 3.2). -/
structure Glob where
  swn : DWord
  timer : Bool
  inHeadland : Bool
  offset : Nat
  cclkStep : Nat
  busTimeout : Bool
  admitOpen : Bool
  devState : Nat
  voteCount : Nat
  cfgSkip : BitVec 15
  relPend : Bool
deriving DecidableEq, Repr

/-- Start-up (Table 22.3) and the pins that hold the device in reset. -/
structure Startup where
  up : Bool
  phase : Nat
  stopPhase : Nat
  bank : Bool
  active : Bool
  sc : Nat
  cause : BitVec 7
  fuseLost : Bool
  fuseCorrected : BitVec 16
  trainFailed : Nat
  trained : Bool
  fwOk : Bool
  startPlan : Bool
  measured : List Bytes
  perstLow : Bool
  thermLow : Bool
  wakeLow : Bool
  boot : Nat
deriving DecidableEq, Repr

/-- ADMIT (Table 3.6): counters since chip reset, and the tables behind them; `turn` is the place of the fetch in its turn
(R369). -/
structure Admit where
  inlet : List InletEntry
  turn : Nat
  jobs : List Job
  nextJob : Nat
  nextSeq : Nat
  cal : SMap Row
  stepLast : Nat
  decided : Nat
  carried : Nat
  replanLast : Nat
  accepted : DWord
  refused : DWord
  lostN : DWord
  capC : SMap Nat
  capT : SMap Nat
  hbmGross : Nat
  instRefused : SMap Nat
deriving DecidableEq, Repr

/-- A configuration plane (R151): 0 EMPTY, 1 LOADING, 2 RESIDENT. `need` is the TILE_NEED of the built-in ingest section, whose load
reads no image (R231). -/
structure Plane where
  state : Nat
  handle : Nat
  section_ : Nat
  inst : Nat
  digest : Bytes
  src : Nat
  len : Nat
  row : Nat
  need : List Nat
  data : SMap Byte
deriving DecidableEq, Repr

/-- A SEAL tile's loaded key (R111, R175). -/
structure SealTile where
  tile : Nat
  slot : Nat
  use : Nat
  key : Bytes
  refused : Bool
deriving DecidableEq, Repr

/-- The lookahead buffers of a field's ingress engines (R125): the job and unit they were read for, and pieces of HBM by
address. -/
structure Ahead where
  job : Nat
  unit : Nat
  data : List (Nat × Bytes)
deriving DecidableEq, Repr

/-- One field of the Meadow (Table 5.5) with its planes. A bank of the field store (R116) that is listed in `banks` holds the
131,072 bytes that the free value of that number stands for; one that is not listed holds zeros. `ringDest` holds the field
that each enabled ring route leads to, resolved at the plane switch (R140). -/
structure Field where
  owner : Nat
  activePlane : Nat
  active : Bool
  powered : Bool
  fenced : Bool
  tileFence : BitVec 40
  tileMap : List Word
  ing : DWord
  egr : DWord
  ring : DWord
  ingNow : Nat
  egrNow : Nat
  ringNow : Nat
  waitHbm : BitVec 22
  waitRing : BitVec 22
  busy : Nat
  busyNow : Nat
  cuts : Nat
  planes : SMap Plane
  loading : Option Nat
  slices : List Slice
  clean : Bool
  seals : List SealTile
  lookahead : Bool
  ahead : Ahead
  banks : SMap Nat
  ringDest : SMap Nat
deriving DecidableEq, Repr

/-- An AMU entry (R243); tag 0 is empty. -/
structure AmuEntry where
  key : BitVec 128
  mask : BitVec 128
  tag : BitVec 16
deriving DecidableEq, Repr

/-- An edit list in a unit's edit store (R251). -/
structure EditList where
  job : Nat
  inst : Nat
  row : Nat
  bytes : Bytes
deriving DecidableEq, Repr

/-- An edit pass in progress (R254). -/
structure AmuPass where
  job : Nat
  full : Bool
  p0 : Nat
  oldCount : Nat
deriving DecidableEq, Repr

/-- One associative match unit (Table 10.2). -/
structure Amu where
  table : SMap AmuEntry
  upsets : SMap (List Nat)
  count : Nat
  fenced : Bool
  pass : Option AmuPass
  scrubPos : Nat
  scrubFix : Nat
  passEdits : Nat
  passCycles : Nat
  lists : List EditList
  keys : DWord
  keysNow : Nat
  probe : Option (BitVec 128 × BitVec 16)
  probeDone : Bool
  probeHit : Bool
  probeAddr : Nat
  slices : List Slice
deriving DecidableEq, Repr

/-- A crypto core or a digest pipeline (Tables 11.9, 12.6, 13.7). Its operand RAM (R264, R289) or contexts (R304): `ram` holds the running
operation once it has begun, `out` a state that leaves over the exchange path, `got` one that has arrived (R90); every other word is zero. -/
structure Core where
  fenced : Bool
  busy : Bool
  moving : Bool
  inst : Nat
  opsLast : Nat
  opsNow : Nat
  pieces : List Piece
  begun : Bool
  ram : OpHeld
  out : Option (Piece × OpHeld)
  got : Option (Piece × OpHeld)
deriving DecidableEq, Repr

/-- Counters of a crypto pool since chip reset (Tables 11.9, 12.6). -/
structure PoolCnt where
  ops : DWord
  attempts : DWord
  inputErr : Nat
  budgetOut : Nat
  selfFail : Nat
  wipes : Nat
  carryFail : Nat
deriving DecidableEq, Repr

/-- Counters of the digest engine since chip reset (Table 13.7). -/
structure DigestCnt where
  done : DWord
  bytes : DWord
  truncN : Nat
  shortN : Nat
  inputErr : Nat
  recFail : Nat
  wipes : Nat
deriving DecidableEq, Repr

/-- A DRBG stream (R264, R266): `due` is the row of an unserved reseed; `key` and `v` are the state of AES-256 CTR_DRBG. -/
structure Stream where
  running : Bool
  due : Option Nat
  key : Bytes
  v : Bytes
deriving DecidableEq, Repr

/-- The seedbank (Table 14.5). -/
structure Seedbank where
  phase : Nat
  openOk : Bool
  fenced : BitVec 8
  startFail : BitVec 8
  queue : Bytes
  allot : Bytes
  rct : SMap Nat
  apt : SMap Nat
  recent : SMap (List Nat)
  delivered : DWord
  noEntropy : Nat
  streams : SMap Stream
  waiting : List (Nat × Nat × Nat)
  served : List (Nat × Nat)
deriving DecidableEq, Repr

/-- A key slot (R337): 0 EMPTY, 1 ARMED, 2 LIVE, with its seal counter and durable high-water mark (R166, R167). `markFirst` is the
mark that its first commit carries, 0 once that is durable; `markPend` are later marks on their way, oldest first; `bad` tells that a
cell fails its check (R344). -/
structure KSlot where
  state : Nat
  type : Nat
  policy : BitVec 7
  owner : Nat
  migratable : Bool
  cipher : Bool
  kmac : Bool
  generated : Bool
  derived : Bool
  parent : Nat
  depth : Nat
  reload : Bool
  bad : Bool
  secret : Bytes
  pub : Bytes
  ctr : Nat
  mark : Nat
  markFirst : Nat
  markPend : List Nat
  half : Bool
  sealOff : Bool
deriving DecidableEq, Repr

/-- What a change does to one slot: new contents, or cleared policy bits (Table 15.3). -/
inductive KEdit where
  | put (k : KSlot)
  | restrict (policy : BitVec 7)
deriving DecidableEq, Repr

/-- Key-store changes produced together (R341): one edit for each slot in order, and the bundle counter they set. -/
structure KChange where
  sets : List (Nat × KEdit)
  counter : Option DWord
deriving DecidableEq, Repr

/-- A commit not yet durable: its swath, the slots it changed as they became live, and the counter (R346, R348). -/
structure KCommit where
  swn : Nat
  sets : List (Nat × KSlot)
  counter : Option DWord
deriving DecidableEq, Repr

/-- The key store (Table 15.10) and the non-volatile partition (R346), with the device root under which it was formatted. -/
structure KeyStore where
  slots : SMap KSlot
  pend : List KChange
  nv : SMap KSlot
  nvRoot : Bytes
  nvCounter : DWord
  commits : List KCommit
  nvDone : DWord
  rootLost : Bool
  phase : Nat
  counter : DWord
  bundlesOk : Nat
  bundlesFail : Nat
  failEntry : Nat
  failReason : Nat
  cellErr : Nat
  maskEpoch : Nat
  remask : Bool
  sealerSet : Bool
deriving DecidableEq, Repr

/-- A submission queue's indices (Table 16.7). -/
structure Sq where
  head : Nat
  tail : Nat
deriving DecidableEq, Repr

/-- A completion queue's indices, phase and moderation (Table 16.7, R374). -/
structure Cq where
  tail : Nat
  head : Nat
  phase : Bool
  count : Nat
  intPend : Bool
deriving DecidableEq, Repr

/-- A receipt claim (R178). -/
structure Claim where
  tag : DWord
  gen : BitVec 16
  digest : Bytes
  cert : Nat
  a : Nat
  deadline : Nat
  finish : Nat
  resAddr : Nat
  resLen : Nat
  blAddr : Nat
  blLen : Nat
deriving DecidableEq, Repr

/-- An instance of R361: 0 ABSENT, 1 ENABLED, 2 RESETTING, 3 FREEZING, 4 FROZEN. -/
structure Inst where
  state : Nat
  absentNext : Bool
  gen : BitVec 16
  thawFail : Bool
  thawReq : Bool
  frozenAt : DWord
  thawedAt : DWord
  sqs : SMap Sq
  cqs : SMap Cq
  mbox : SMap Byte
  upProd : BitVec 5
  upCons : BitVec 5
  dnProd : BitVec 5
  dnCons : BitVec 5
  claims : List Claim
  low : Bool
deriving DecidableEq, Repr

/-- The INTC (Table 17.5). -/
structure Intc where
  pend : List Nat
  active : SMap Nat
  assigned : SMap Nat
  last : SMap Nat
  stk : SMap (List (Nat × Nat))
  claims : SMap Nat
  timers : SMap Nat
  nmi : List Nat
deriving DecidableEq, Repr

/-- A task's dynamic state (Table 17.3): 0 IDLE, 1 WAITING, 2 READY, 3 RUNNING. -/
structure Td where
  state : Nat
  count : Nat
  early : Nat
  cancel : Bool
  deferred : Bool
  core : Nat
deriving DecidableEq, Repr

/-- An event in the task inlet (R403). -/
inductive TEvent where
  | arm (task count : Nat)
  | signal (task : Nat)
  | cancel (task : Nat)
deriving DecidableEq, Repr

/-- The task scheduler (Table 17.6). -/
structure Tasks where
  inlet : List TEvent
  stalled : List (Nat × TEvent)
  prodNext : Nat
  admBuf : List Nat
  succ : List Nat
  tds : SMap Td
  lists : SMap (List Nat)
  events : DWord
  stray : Nat
  offerTo : Nat
  jobEnds : Nat
  stalls : Nat
  offers : SMap (Nat × Nat)
  running : SMap (List Nat)
  rr : Nat
deriving DecidableEq, Repr

/-- The control and management cores as targets (R384): halted or in reset, halted by debug, and their memories. -/
structure Cores where
  halted : List Nat
  dbgHalted : List Nat
  mem : SMap Byte
deriving DecidableEq, Repr

/-- A group of events taking its reactions (R410): the reactions still to take, in Table 18.2 order, by REACT bit. -/
structure FGroup where
  reports : List FaultReport
  todo : List Nat
deriving DecidableEq, Repr

/-- The fault collector (Table 18.6). -/
structure Faults where
  sticky : BitVec 512
  live : BitVec 512
  cause : BitVec 512
  causeSwn : DWord
  count : SMap Nat
  fq : SMap Bytes
  prod : BitVec 9
  dropped : Nat
  fallow : Bool
  fallowDone : Bool
  fallowCause : BitVec 10
  pinLow : Bool
  pulse : Bool
  reports : List FaultReport
  groups : List FGroup
deriving DecidableEq, Repr

/-- The tamper monitors in the hub (Table 19.5) and the tamper fuses (R431, R432). `keySplit` and `bundleSplit` tell that a disturbance
makes the takings of the next decision k = 2 or k = 3 disagree (R426). -/
structure Tamper where
  armed : BitVec 16
  /-- Monitors that have been armed since chip reset: their DET registers show a measurement, a free value (log entry 19). -/
  measured : BitVec 16
  mismatch : SMap Nat
  raw : Bool
  keySplit : Bool
  bundleSplit : Bool
  blown : BitVec 16
  eff : BitVec 16
deriving DecidableEq, Repr

/-- The registers of the backup domain that RO-M mirrors show (Table 19.6). -/
structure BkRegs where
  vbatLow : Bool
  powerLost : Bool
  tamperBk : Bool
  last : Word
  lastRtc : DWord
  hist : List DWord
  rtc : DWord
  ctrMirror : DWord
  vbatMv : BitVec 13
deriving DecidableEq, Repr

/-- The backup domain (Table 19.4): the SMBus address sampled when the auxiliary rail rose (R501), the BBRAM key that `root` tells is
held (R346), present values, mirrors, write buffers. -/
structure Backup where
  aux : Bool
  smbAddr : Option (BitVec 7)
  vbat : Bool
  held : Bool
  root : Bool
  bbram : Bytes
  now : BkRegs
  mirror : BkRegs
  slow : SMap Word
deriving DecidableEq, Repr

/-- A journal record (R441). -/
structure JRec where
  valid : Bool
  seq : Word
  mark : Nat
  target : Nat
deriving DecidableEq, Repr

/-- The life cycle (Table 20.4) and the JTAG port. -/
structure Life where
  closed : Bool
  final : Bool
  result : Nat
  resumed : Nat
  lost : Bool
  slotA : JRec
  slotB : JRec
  mark : Nat
  seq : Word
  session : Bool
  usersErased : Bool
deriving DecidableEq, Repr

/-- A planned point of the margin planner (R457). -/
structure Plan where
  step : Nat
  vw : Nat
  ve : Nat
deriving DecidableEq, Repr

/-- POWER (Table 21.3). -/
structure Power where
  state : Nat
  fieldsOn : BitVec 16
  ps4Ready : Bool
  drain : Option Word
  entering : Option Nat
  leaving : Bool
  addPend : BitVec 16
  cmdSwn : DWord
  plans : Nat
  nextStep : Nat
  planned : Option Plan
  marginOut : Bool
  vddW : Nat
  vddE : Nat
  measSwn : DWord
  measuring : Bool
  measured : Bool
  falls : List (Bool × Nat)
  mons : SMap Nat
deriving DecidableEq, Repr

/-- A peer (R492): 0 unknown, 1 UP, 2 DOWN. -/
structure Peer where
  state : Nat
  lastAlive : Nat
deriving DecidableEq, Repr

/-- An inbound slot (R488, R489): bytes received and END counts by sender. -/
structure SlotSt where
  got : SMap Nat
  ends : SMap Nat
  overflow : Bool
  incomplete : Bool
deriving DecidableEq, Repr

/-- A Commons job that this member coordinates (R483–R487). -/
structure CJob where
  job : Nat
  cjob : DWord
  a : Nat
  d : Nat
  members : List Nat
  acks : SMap (Nat × Nat)
  dones : SMap (Nat × Nat)
  admitted : Bool
  finished : Bool
deriving DecidableEq, Repr

/-- A frame that waits on a port (R476): its port, whether a member that is not joined sends it, and what it carries. -/
structure WaitFrame where
  port : Nat
  any : Bool
  kind : Nat
  dst : Nat
  cjob : DWord
  slot : Nat
  off : Nat
  payload : Bytes
deriving DecidableEq, Repr

/-- COMMONS (Table 23.5). -/
structure Commons where
  ctrlNow : SMap Nat
  waiting : List WaitFrame
  align : Nat
  offset : Word
  within : Nat
  beyond : Nat
  refSwn : DWord
  refPresent : Bool
  holdSwaths : Nat
  linkUp : BitVec 4
  fenced : BitVec 4
  retrained : BitVec 4
  tx : SMap Nat
  txNow : SMap Nat
  drop : SMap Nat
  peers : SMap Peer
  slots : SMap SlotSt
  cjobs : List CJob
  nextCjob : Nat
  rsv : List Frame
  rot : Nat
deriving DecidableEq, Repr

/-- HBMC (Table 5.6). -/
structure Hbmc where
  pcFenced : BitVec 128
  served : DWord
  servedNow : Nat
  waitB : BitVec 22
  fencedReads : Nat
deriving DecidableEq, Repr

/-- The host interface: link, host window, vectors, erroring DMA ranges, link power state, and records waiting for
the link: instance, CQ, deadline, record (R28, R85, R374, R375, R468, R517). -/
structure HostIf where
  linkUp : Bool
  numvfs : Nat
  winUsed : Nat
  bar2Held : List (Bool × Nat × Nat × Bytes)
  vfMsix : SMap Word
  msixPend : SMap Bool
  dmaErr : List (Nat × Nat)
  linkLow : Bool
  latePost : List (Nat × Nat × Nat × Bytes)
deriving DecidableEq, Repr

/-- The state mirror (R418): the last copy, and consecutive differences per unit. -/
structure Mirror where
  swn : DWord
  fenced : List Nat
  fieldsOn : BitVec 16
  planes : List Nat
  occupancy : SMap Nat
  cclkStep : Nat
  reserve : Nat
  skew : SMap Nat
deriving DecidableEq, Repr

/-- What the last access returned to its requester. The model's own field (log entry 1). -/
inductive Resp where
  | none
  | word (w : Word)
  | dword (w : DWord)
  | bytes (b : Bytes)
  | held
deriving DecidableEq, Repr

/-- What left the package. The model's own field (log entry 1). -/
inductive Out where
  | msix (fn vector : Nat)
  | frame (port kind dst : Nat) (cjob : DWord) (slot : Nat) (offset : Nat) (payload : Bytes)
  | avs (east : Bool) (mv : Nat)
  | tick
  | spdm (index : Nat) (value signature : Bytes)
  | held (status : Bytes)
  | mctp (pcie : Bool) (msg : Bytes)
  | wake
deriving DecidableEq, Repr

/-- The whole machine. -/
structure State where
  glob : Glob
  start : Startup
  cfg : SMap Word
  live : SMap Word
  parBad : List Nat
  voteBad : List (Nat × Bool)
  hold : SMap Word
  adm : Admit
  fields : SMap Field
  hbmc : Hbmc
  handles : SMap Handle
  loadsLast : Nat
  lateLast : Nat
  loads : DWord
  amus : SMap Amu
  cores : SMap Core
  pools : SMap PoolCnt
  pipes : SMap Core
  digest : DigestCnt
  seed : Seedbank
  keys : KeyStore
  insts : SMap Inst
  intc : Intc
  tasks : Tasks
  ctrl : Cores
  faults : Faults
  tamper : Tamper
  backup : Backup
  life : Life
  power : Power
  commons : Commons
  hostif : HostIf
  mirror : Mirror
  hbm : SMap Byte
  host : SMap Byte
  free : Nat
  resp : Resp
  outbox : List Out
  pending : List Instr
deriving DecidableEq, Repr

/-! Default contents: what an unlisted key of each sparse map stands for. -/

def Plane.empty : Plane :=
  { state := 0, handle := 0, section_ := 0, inst := 0, digest := [], src := 0, len := 0, row := 0, need := [],
    data := [] }

/-- TILE_MAP identity (Table 5.5): three bits per logical tile. -/
def Field.tileIdentity : List Word :=
  [0xFAC688#32, 0xFAC688#32, 0x688#32, 0x688#32, 0x688#32, 0x688#32, 0x688#32, 0x688#32]

def Ahead.none : Ahead := { job := 0, unit := 0, data := [] }

def Field.init : Field :=
  { owner := 0, activePlane := 0, active := false, powered := true, fenced := false, tileFence := 0,
    tileMap := Field.tileIdentity, ing := 0, egr := 0, ring := 0, ingNow := 0, egrNow := 0, ringNow := 0,
    waitHbm := 0, waitRing := 0, busy := 0, busyNow := 0, cuts := 0, planes := [], loading := none, slices := [],
    clean := true, seals := [], lookahead := false, ahead := Ahead.none, banks := [], ringDest := [] }

def Amu.init : Amu :=
  { table := [], upsets := [], count := 0, fenced := false, pass := none, scrubPos := 0, scrubFix := 0,
    passEdits := 0, passCycles := 0, lists := [], keys := 0, keysNow := 0, probe := none, probeDone := false,
    probeHit := false, probeAddr := 0, slices := [] }

def AmuEntry.empty : AmuEntry := { key := 0, mask := 0, tag := 0 }

def OpHeld.empty : OpHeld :=
  { fail := 0, entry := [], in0 := [], in1 := [], ctx := [], pub := [], share0 := [], share1 := [], rnd := [] }
def Core.init : Core :=
  { fenced := false, busy := false, moving := false, inst := 0, opsLast := 0, opsNow := 0,
    pieces := [], begun := false, ram := OpHeld.empty, out := none, got := none }

def PoolCnt.init : PoolCnt :=
  { ops := 0, attempts := 0, inputErr := 0, budgetOut := 0, selfFail := 0, wipes := 0, carryFail := 0 }

def DigestCnt.init : DigestCnt :=
  { done := 0, bytes := 0, truncN := 0, shortN := 0, inputErr := 0, recFail := 0, wipes := 0 }

def Stream.init : Stream := { running := false, due := none, key := [], v := [] }

def KSlot.empty : KSlot :=
  { state := 0, type := 0, policy := 0, owner := 0, migratable := false, cipher := false, kmac := false,
    generated := false, derived := false, parent := 0, depth := 0, reload := false, bad := false, secret := [], pub := [],
    ctr := 0, mark := 0, markFirst := 0, markPend := [], half := false, sealOff := false }

def HandleC.empty : HandleC := { addr := 0, len := 0, nstage := 0, nsect := 0, digest := [] }

def Handle.empty : Handle := { state := 0, ready := false, c := HandleC.empty }

def Sq.init : Sq := { head := 0, tail := 0 }

def Cq.init : Cq := { tail := 0, head := 0, phase := true, count := 0, intPend := false }

/-- Instance n after chip reset: the manager ENABLED, the others ABSENT with GEN 0 (R361, R364). -/
def Inst.init (n : Nat) : Inst :=
  { state := if n = 0 then 1 else 0, absentNext := false, gen := 0, thawFail := false, thawReq := false,
    frozenAt := 0, thawedAt := 0, sqs := [], cqs := [], mbox := [], upProd := 0, upCons := 0, dnProd := 0, dnCons := 0,
    claims := [], low := false }

def Td.init : Td := { state := 0, count := 0, early := 0, cancel := false, deferred := false, core := 0 }

def Peer.init : Peer := { state := 0, lastAlive := 0 }

def SlotSt.init : SlotSt := { got := [], ends := [], overflow := false, incomplete := false }

/-- Row r as it takes its place in the calendar: zero but the DRBG reseed of R101 (stream r mod 1,024, 48 bytes). -/
def Row.init (r : Nat) : Row :=
  { cnt := if r % 1024 ≤ 48 then [(27, 48)] else [] }

def Glob.reset : Glob :=
  { swn := 0, timer := false, inHeadland := false, offset := 0, cclkStep := 24, busTimeout := false,
    admitOpen := false, devState := 0, voteCount := 0, cfgSkip := 0, relPend := false }

def Startup.reset : Startup :=
  { up := false, phase := 0, stopPhase := 0, bank := false, active := false, sc := 0, cause := 1, fuseLost := false,
    fuseCorrected := 0, trainFailed := 0, trained := false, fwOk := false, startPlan := false, measured := [],
    perstLow := false, thermLow := false, wakeLow := false, boot := 0 }

def Admit.reset : Admit :=
  { inlet := [], turn := 0, jobs := [], nextJob := 0, nextSeq := 0, cal := [], stepLast := 0, decided := 0, carried := 0,
    replanLast := 0, accepted := 0, refused := 0, lostN := 0, capC := [], capT := [], hbmGross := 0, instRefused := [] }

def Hbmc.reset : Hbmc := { pcFenced := 0, served := 0, servedNow := 0, waitB := 0, fencedReads := 0 }

def Seedbank.reset : Seedbank :=
  { phase := 0, openOk := false, fenced := 0, startFail := 0, queue := [], allot := [], rct := [], apt := [],
    recent := [], delivered := 0, noEntropy := 0, streams := [], waiting := [], served := [] }

def KeyStore.reset : KeyStore :=
  { slots := [], pend := [], nv := [], nvRoot := [], nvCounter := 0, commits := [], nvDone := 0, rootLost := false, phase := 0, counter := 0,
    bundlesOk := 0, bundlesFail := 0, failEntry := 0, failReason := 0, cellErr := 0, maskEpoch := 0, remask := false,
    sealerSet := false }

def Intc.reset : Intc :=
  { pend := [], active := [], assigned := [], last := [], stk := [], claims := [], timers := [], nmi := [] }

def Tasks.reset : Tasks :=
  { inlet := [], stalled := [], prodNext := 0, admBuf := [], succ := [], tds := [], lists := [], events := 0, stray := 0,
    offerTo := 0, jobEnds := 0, stalls := 0, offers := [], running := [], rr := 0 }

def Cores.reset : Cores := { halted := [], dbgHalted := [], mem := [] }

def Faults.reset : Faults :=
  { sticky := 0, live := 0, cause := 0, causeSwn := 0, count := [], fq := [], prod := 0, dropped := 0, fallow := false,
    fallowDone := false, fallowCause := 0, pinLow := false, pulse := false, reports := [], groups := [] }

def Tamper.reset : Tamper := { armed := 0, measured := 0, mismatch := [], raw := true, keySplit := false, bundleSplit := false, blown := 0, eff := 0 }

/-- The backup registers when the well is first powered: POWER_LOST is 1 (Table 19.6). -/
def BkRegs.reset : BkRegs :=
  { vbatLow := false, powerLost := true, tamperBk := false, last := 0, lastRtc := 0, hist := [], rtc := 0,
    ctrMirror := 0, vbatMv := 0 }

def Backup.reset : Backup :=
  { aux := true, smbAddr := some 0x60, vbat := true, held := false, root := false, bbram := [], now := BkRegs.reset, mirror := BkRegs.reset, slow := [] }

def JRec.none : JRec := { valid := false, seq := 0, mark := 0, target := 0 }

/-- A device as it leaves the factory is Open with an empty key store (chapter 20). -/
def Life.reset : Life :=
  { closed := false, final := false, result := 0, resumed := 0, lost := false,
    slotA := { valid := true, seq := 0, mark := 0, target := 2 }, slotB := JRec.none, mark := 0, seq := 0,
    session := false, usersErased := false }

def Power.reset : Power :=
  { state := 0, fieldsOn := 0xFFFF, ps4Ready := false, drain := none, entering := none, leaving := false, addPend := 0,
    cmdSwn := 0, plans := 0, nextStep := 24, planned := none, marginOut := false, vddW := 900,
    vddE := 900, measSwn := 0, measuring := false, measured := false, falls := [],
    mons := [] }

def Commons.reset : Commons :=
  { align := 0, offset := 0, within := 0, beyond := 0, refSwn := 0, refPresent := false, holdSwaths := 0, linkUp := 0,
    fenced := 0, retrained := 0, ctrlNow := [], waiting := [], tx := [], txNow := [], drop := [], peers := [], slots := [], cjobs := [],
    nextCjob := 0, rsv := [], rot := 0 }

def HostIf.reset : HostIf :=
  { linkUp := true, numvfs := 0, winUsed := 0, bar2Held := [], vfMsix := [], msixPend := [], dmaErr := [],
    linkLow := false, latePost := [] }

def Mirror.reset : Mirror :=
  { swn := 0, fenced := [], fieldsOn := 0xFFFF, planes := [], occupancy := [], cclkStep := 24, reserve := 6, skew := [] }

/-- The machine at power-up, before its first start edge (R460, Table 22.2). Values the spec does not give are those
of log entries 2, 5 and 6. -/
def State.reset : State :=
  { glob := Glob.reset, start := Startup.reset, cfg := [], live := [], parBad := [], voteBad := [], hold := [], adm := Admit.reset,
    fields := [], hbmc := Hbmc.reset, handles := [], loadsLast := 0, lateLast := 0, loads := 0, amus := [], cores := [],
    pools := [], pipes := [], digest := DigestCnt.init, seed := Seedbank.reset, keys := KeyStore.reset, insts := [],
    intc := Intc.reset, tasks := Tasks.reset, ctrl := Cores.reset, faults := Faults.reset, tamper := Tamper.reset,
    backup := Backup.reset, life := Life.reset, power := Power.reset, commons := Commons.reset,
    hostif := HostIf.reset, mirror := Mirror.reset, hbm := [], host := [], free := 0, resp := Resp.none, outbox := [],
    pending := [] }

end Sys2Proof.Machine
end

