-- ==== Sys2Proof/Machine/RegMap.lean ====
section
/-! DEFINITION. The register maps of the PF BAR0 space (Tables 2.2, 2.5, 3.6, 5.5, 5.6, 6.8, 10.2, 11.9, 12.6, 13.7, 14.5,
15.10, 16.7, 17.5, 17.6, 18.6, 19.5, 19.6, 20.4, 21.3, 22.3, 23.5 and R36, R361): where each register stands, which bits
are defined, which are writable, its guard, whether it is shadowed, and its reset value. -/

namespace Sys2Proof.Machine

/-- The registers, one name for each register-map entry. -/
inductive RegId where
  | partId | devid | swn | phase | clock | status | ctl | cfgPend | cfgSkip | voteCount | scratch | resetReq | start
  | startSc | resetCause | fuseVote | hbmTrain | reserve | hostWin | stepLast | stepCount | inletDepth | replanLast
  | accepted | refused | lost | jobsCount | cap | rowSel | rowData | share | lend | instRefused | fieldState
  | tileFence | tileAvail | tileMap | fieldCtl | ing | egr | ringBytes | waitHbm | waitRing | busyLast | cuts
  | pcFenced | pcCount | served | waitClassB | fencedReads | loader | loads | regOn | regOnLast | regCount
  | regDigest | regInst | handle0 | handleLen | handleAddr | handleDig | plane0 | planeHolders | amuState | amuShadow
  | amuCtl | scrubPos | scrubFix | passLast | passCycles | editStore | amuKeys | probeKey | probeTag | probeResult
  | latPool | latCtl | latOps | latAttempts | latCnt | latCoreState | latCoreInst | latCoreOps | latCoreStreams
  | hsgPool | hsgCtl | hsgOps | hsgAttempts | hsgCnt | hsgCoreState | hsgCoreInst | hsgCoreOps | hsgCoreStreams
  | codPool | codOps | codAttempts | codCnt | codCoreState | codCoreInst | codCoreOps | codCoreStreams | bnPool
  | bnCtl | bnOps | bnCnt | bnCoreState | bnCoreInst | bnCoreOps | bnCoreStreams | digPool | digUnits | digDone
  | digBytes | digCnt | pipeState | pipeCtx | pipeInst | pipeUnits | seedState | seedSources | seedQueue | seedAllot
  | rngWait | seedAlarms | seedDelivered | noEntropy | stream | ksStatus | ksSlots | ksCells | ksCounter | ksSealer
  | nvDone | bundles | lastFail | cellErr | maskEpoch | ksAuth | slotMeta | slotPolicy | sealCtr | instState
  | instCtl | instVfReset | instJobs | mbxVec | frozenAt | sqBaseLo | sqBaseHi | sqCfg | sqHead | sqTail | cqBaseLo
  | cqBaseHi | cqCfg | cqMod | cqTail | cqPend | mbxIndex | thawedAt | mbxSlot | srcPrio | srcTargets | srcState
  | swiSet | targetCtl | claim | complete | level | stackEntry | timerReg | claims | sched | taskArm | taskSignal
  | taskCancel | list | events | taskCnt | offerLimit | coreCtl | coreTask | coreOffer | bind | tdState | tdCount
  | tdCfg | tdEntry | tdArg | tdSucc | faultState | fallowCause | faultPinCtl | fqProd | fqCons | fqDropped | sticky
  | liveBits | react | faultCount | fqEntry | cause | causeSwn | tamperStatus | tamperEnable | fuseDis | fuseReq
  | fusePend | delaySrc | det | mismatch | bkStatus | bkEnable | tamperLast | lastRtc | hist | resetRtc | rtc
  | rtcSet | rtcCtl | rtcAlarmReg | ctrMirror | vbat | lcState | lcRequest | lcResult | finalReq | lcResumed | jseq
  | debug | psState | pwrCmd | cmdSwn | ageCtl | ageStatus | vdd | measSwn | mon | comCtl | member | etype | ptp
  | tickDelay | migSlot | commonsInst | align | comOffset | epoch | portCfg | portMac | portState | portTx | portDrop
  | peerLo | peerHi | peerState | slotBaseLo | slotBaseHi | slotCap | slotState | doorbell | msix | pba
deriving DecidableEq, Repr

/-- The guard of Table 0.4. -/
inductive Guard where
  | none
  | parity
  | triple
deriving DecidableEq, Repr

/-- One row of a register map: `n1` units at stride `s1` (numbered from `first`), `n2` words at stride `s2`. `known` are
the bits the map defines, `rw` those it makes writable. -/
structure RegRow where
  id : RegId
  base : Nat
  first : Nat
  s1 : Nat
  n1 : Nat
  s2 : Nat
  n2 : Nat
  known : Nat
  rw : Nat
  guard : Guard
  shadow : Bool
  wide : Bool
  reset : Nat
deriving DecidableEq, Repr

/-- A row of 32-bit read-only or write-only registers. -/
def rowRo (id : RegId) (base first s1 n1 s2 n2 known reset : Nat) : RegRow :=
  { id, base, first, s1, n1, s2, n2, known, rw := 0, guard := .none, shadow := false, wide := false, reset }
/-- A row of 64-bit read-only counters, read as R39 states. -/
def rowWide (id : RegId) (base first s1 n1 : Nat) : RegRow :=
  { id, base, first, s1, n1, s2 := 4, n2 := 2, known := 0xFFFFFFFF, rw := 0, guard := .none, shadow := false,
    wide := true, reset := 0 }
/-- A row of writable registers that are not shadowed. -/
def rowRw (id : RegId) (base first s1 n1 s2 n2 known rw reset : Nat) (guard : Guard) : RegRow :=
  { id, base, first, s1, n1, s2, n2, known, rw, guard, shadow := false, wide := false, reset }
/-- A row of shadowed registers (R40). -/
def rowSh (id : RegId) (base first s1 n1 s2 n2 rw reset : Nat) (guard : Guard) : RegRow :=
  { id, base, first, s1, n1, s2, n2, known := rw, rw, guard, shadow := true, wide := false, reset }

def rowsGlobal : List RegRow :=
  [ rowRo .partId 0 0 0 1 0 1 0xffffffff 0,
    rowRo .devid 8 0 4 4 0 1 0xffffffff 0,
    rowWide .swn 0x20 0 0 1,
    rowRo .phase 0x28 0 0 1 0 1 0x803fffff 0,
    rowRo .clock 0x30 0 0 1 0 1 0xff 0x18,
    rowRo .status 0x38 0 0 1 0 1 0x3b 0,
    rowRw .ctl 0x40 0 0 1 0 1 1 1 0 .parity,
    rowRo .cfgPend 0x44 0 0 1 0 1 0x7fff 0,
    rowRo .cfgSkip 0x48 0 0 1 0 1 0x7fff 0,
    rowRo .voteCount 0x50 0 0 1 0 1 0xffff 0,
    rowRw .scratch 0x80 0 4 4 0 1 0xffffffff 0xffffffff 0 .parity,
    rowRo .resetReq 0xc0 0 0 1 0 1 0xffff0003 0,
    rowRo .start 0x100 0 0 1 0 1 0xf10f 0,
    rowRo .startSc 0x104 0 0 1 0 1 0xffff 0,
    rowRo .resetCause 0x108 0 0 1 0 1 0x7f 0,
    rowRo .fuseVote 0x10c 0 0 1 0 1 0x8000ffff 0,
    rowRo .hbmTrain 0x110 0 0 1 0 1 0xff 0 ]

def rowsAdmit : List RegRow :=
  [ rowSh .reserve 0x100000 0 0 1 0 1 0x1f 6 .parity,
    rowSh .hostWin 0x100004 0 0 1 0 1 0xffff 0x80 .parity,
    rowRo .stepLast 0x100010 0 0 1 0 1 0xffff 0,
    rowRo .stepCount 0x100014 0 0 1 0 1 0x7ff07ff 0,
    rowRo .inletDepth 0x100018 0 0 1 0 1 0x7ff 0,
    rowRo .replanLast 0x10001c 0 0 1 0 1 0x3fff 0,
    rowWide .accepted 0x100020 0 0 1,
    rowWide .refused 0x100028 0 0 1,
    rowWide .lost 0x100030 0 0 1,
    rowRo .jobsCount 0x100038 0 0 1 0 1 0x1fffff 0,
    rowRo .cap 0x100100 0 8 28 4 2 0xffffffff 0,
    rowRw .rowSel 0x100200 0 0 1 0 1 0xffff 0xffff 0 .none,
    rowRo .rowData 0x100240 0 4 24 0 1 0xffffffff 0,
    rowSh .share 0x110000 0 0x40 257 4 10 0x7ff 0 .triple,
    rowSh .lend 0x110028 0 0x40 257 0 1 1 0 .triple,
    rowRo .instRefused 0x11002c 0 0x40 257 0 1 0xffffffff 0 ]

def rowsMeadow : List RegRow :=
  [ rowRo .fieldState 0x200000 0 0x10000 16 0 1 0x1ff0037 0,
    rowRo .tileFence 0x200008 0 0x10000 16 4 2 0xffffffff 0,
    rowRo .tileAvail 0x200010 0 0x10000 16 0 1 0xffffffff 0,
    rowRo .tileMap 0x200020 0 0x10000 16 4 8 0xffffff 0,
    rowSh .fieldCtl 0x200040 0 0x10000 16 0 1 1 1 .parity,
    rowWide .ing 0x200050 0 0x10000 16,
    rowWide .egr 0x200058 0 0x10000 16,
    rowWide .ringBytes 0x200060 0 0x10000 16,
    rowRo .waitHbm 0x200068 0 0x10000 16 0 1 0x3fffff 0,
    rowRo .waitRing 0x20006c 0 0x10000 16 0 1 0x3fffff 0,
    rowRo .busyLast 0x200070 0 0x10000 16 0 1 0x3fffff 0,
    rowRo .cuts 0x200074 0 0x10000 16 0 1 0xffffffff 0 ]

def rowsSward : List RegRow :=
  [ rowRo .loader 0x400000 0 0 1 0 1 0xffffffff 0,
    rowWide .loads 0x400008 0 0 1,
    rowSh .regOn 0x400010 0 4 8 0 1 0xffffffff 0 .parity,
    rowSh .regOnLast 0x400030 0 0 1 0 1 1 0 .parity,
    rowRo .regCount 0x400040 0 0 1 0 1 0x7ff 0,
    rowSh .regDigest 0x410000 0 0x40 1024 4 12 0xffffffff 0 .parity,
    rowSh .regInst 0x410030 0 0x40 1024 0 1 0x800001ff 0 .parity,
    rowRo .handle0 0x420000 0 0x40 4112 0 1 0xfff03 0,
    rowRo .handleLen 0x420004 0 0x40 4112 0 1 0xffffffff 0,
    rowRo .handleAddr 0x420008 0 0x40 4112 4 2 0xffffffff 0,
    rowRo .handleDig 0x420010 0 0x40 4112 4 12 0xffffffff 0,
    rowRo .plane0 0x480000 0 0x40 16 0x10 4 0x1fffff 0,
    rowRo .planeHolders 0x480004 0 0x40 16 0x10 4 0xffff 0 ]

def rowsAmu : List RegRow :=
  [ rowRo .amuState 0x500000 0 0x1000 4 0 1 0x71ffff 0,
    rowSh .amuShadow 0x500008 0 0x1000 4 0 1 0x7fff 0 .parity,
    rowSh .amuCtl 0x500010 0 0x1000 4 0 1 1 0 .parity,
    rowRo .scrubPos 0x500018 0 0x1000 4 0 1 0xffff 0,
    rowRo .scrubFix 0x50001c 0 0x1000 4 0 1 0xffffffff 0,
    rowRo .passLast 0x500020 0 0x1000 4 0 1 0x7f0000 0,
    rowRo .passCycles 0x500024 0 0x1000 4 0 1 0x1ffff 0,
    rowRo .editStore 0x500028 0 0x1000 4 0 1 0x1f 0,
    rowWide .amuKeys 0x500030 0 0x1000 4,
    rowRw .probeKey 0x500100 0 0x1000 4 4 4 0xffffffff 0xffffffff 0 .none,
    rowRw .probeTag 0x500110 0 0x1000 4 0 1 0xffff 0xffff 0 .none,
    rowRo .probeResult 0x500114 0 0x1000 4 0 1 0xc000ffff 0 ]

def rowsPoolsA : List RegRow :=
  [ rowRo .latPool 0x600000 0 0 1 0 1 0x1f001f 0,
    rowSh .latCtl 0x600004 0 0 1 0 1 1 0 .parity,
    rowWide .latOps 0x600010 0 0 1,
    rowWide .latAttempts 0x600018 0 0 1,
    rowRo .latCnt 0x600020 0 4 4 0 1 0xffffffff 0,
    rowRo .latCoreState 0x600100 0 0x20 16 0 1 0xf 0,
    rowRo .latCoreInst 0x600104 0 0x20 16 0 1 0x1ff 0,
    rowRo .latCoreOps 0x600108 0 0x20 16 0 1 0xffffffff 0,
    rowRo .latCoreStreams 0x60010c 0 0x20 16 0 1 0xffff0003 0,
    rowRo .hsgPool 0x680000 0 0 1 0 1 0x1f001f 0,
    rowSh .hsgCtl 0x680004 0 0 1 0 1 1 0 .parity,
    rowWide .hsgOps 0x680010 0 0 1,
    rowWide .hsgAttempts 0x680018 0 0 1,
    rowRo .hsgCnt 0x680020 0 4 4 0 1 0xffffffff 0,
    rowRo .hsgCoreState 0x680100 0 0x20 4 0 1 0xf 0,
    rowRo .hsgCoreInst 0x680104 0 0x20 4 0 1 0x1ff 0,
    rowRo .hsgCoreOps 0x680108 0 0x20 4 0 1 0xffffffff 0,
    rowRo .hsgCoreStreams 0x68010c 0 0x20 4 0 1 0xffff0003 0 ]

def rowsPoolsB : List RegRow :=
  [ rowRo .codPool 0x6c0000 0 0 1 0 1 0x1f001f 0,
    rowWide .codOps 0x6c0010 0 0 1,
    rowWide .codAttempts 0x6c0018 0 0 1,
    rowRo .codCnt 0x6c0020 0 4 4 0 1 0xffffffff 0,
    rowRo .codCoreState 0x6c0100 0 0x20 2 0 1 0xf 0,
    rowRo .codCoreInst 0x6c0104 0 0x20 2 0 1 0x1ff 0,
    rowRo .codCoreOps 0x6c0108 0 0x20 2 0 1 0xffffffff 0,
    rowRo .codCoreStreams 0x6c010c 0 0x20 2 0 1 0xffff0003 0,
    rowRo .bnPool 0x700000 0 0 1 0 1 0x1f001f 0,
    rowSh .bnCtl 0x700004 0 0 1 0 1 1 0 .parity,
    rowWide .bnOps 0x700010 0 0 1,
    rowRo .bnCnt 0x700020 0 4 4 0 1 0xffffffff 0,
    rowRo .bnCoreState 0x700100 0 0x20 8 0 1 0xf 0,
    rowRo .bnCoreInst 0x700104 0 0x20 8 0 1 0x1ff 0,
    rowRo .bnCoreOps 0x700108 0 0x20 8 0 1 0xffffffff 0,
    rowRo .bnCoreStreams 0x70010c 0 0x20 8 0 1 0xffff0002 0 ]

def rowsDigestSeed : List RegRow :=
  [ rowRo .digPool 0x780000 0 0 1 0 1 0xf0f0f0f 0,
    rowRo .digUnits 0x780004 0 0 1 0 1 0x1f 0,
    rowWide .digDone 0x780010 0 0 1,
    rowWide .digBytes 0x780018 0 0 1,
    rowRo .digCnt 0x780020 0 4 5 0 1 0xffffffff 0,
    rowRo .pipeState 0x780100 0 0x20 12 0 1 0xf 0,
    rowRo .pipeCtx 0x780104 0 0x20 12 0 1 0xf 0,
    rowRo .pipeInst 0x780108 0 0x20 12 0 1 0x1ff 0,
    rowRo .pipeUnits 0x78010c 0 0x20 12 0 1 0xffffffff 0,
    rowRo .seedState 0x7c0000 0 0 1 0 1 7 0,
    rowRo .seedSources 0x7c0004 0 0 1 0 1 0xffff 0,
    rowRo .seedQueue 0x7c0008 0 0 1 0 1 0x1ffff 0,
    rowRo .seedAllot 0x7c000c 0 0 1 0 1 0x3fff 0,
    rowSh .rngWait 0x7c0010 0 0 1 0 1 0xffff 0xc8 .parity,
    rowRo .seedAlarms 0x7c0020 0 4 8 0 1 0xffffffff 0,
    rowWide .seedDelivered 0x7c0040 0 0 1,
    rowRo .noEntropy 0x7c0048 0 0 1 0 1 0xffffffff 0,
    rowRo .stream 0x7c0100 0 4 49 0 1 0xffff0001 0 ]

def rowsKeystore : List RegRow :=
  [ rowRo .ksStatus 0x800000 0 0 1 0 1 0x1b 0,
    rowRo .ksSlots 0x800004 0 0 1 0 1 0x7fff7fff 0,
    rowRo .ksCells 0x800008 0 0 1 0 1 0x1ffff 0,
    rowWide .ksCounter 0x800010 0 0 1,
    rowSh .ksSealer 0x800018 0 0 1 0 1 0xffff 0 .parity,
    rowRo .nvDone 0x80001c 0 0 1 0 1 0xffffffff 0,
    rowRo .bundles 0x800020 0 4 2 0 1 0xffffffff 0,
    rowRo .lastFail 0x800028 0 0 1 0 1 0xffffff00 0,
    rowRo .cellErr 0x80002c 0 0 1 0 1 0xffffffff 0,
    rowRo .maskEpoch 0x800030 0 0 1 0 1 0xffffffff 0,
    rowRo .ksAuth 0x800034 0 0 1 0 1 0xff 0,
    rowRo .slotMeta 0x810000 0 0x10 16384 0 1 0xff3fffff 0,
    rowRo .slotPolicy 0x810004 0 0x10 16384 0 1 0xe1ff007f 0,
    rowWide .sealCtr 0x810008 0 0x10 16384 ]

def rowsInstance : List RegRow :=
  [ rowRo .instState 0x900000 1 0x1000 256 0 1 0xffff0107 0,
    rowRo .instCtl 0x900004 1 0x1000 256 0 1 7 0,
    rowRo .instVfReset 0x900008 1 0x1000 256 0 1 1 0,
    rowRo .instJobs 0x900010 1 0x1000 256 0 1 0xffffffff 0,
    rowRw .mbxVec 0x900014 1 0x1000 256 0 1 0x3ff003f 0x3ff003f 0 .parity,
    rowWide .frozenAt 0x900018 1 0x1000 256,
    rowRw .sqBaseLo 0x900020 1 0x1000 256 0x40 8 0xffffffff 0xffffffff 0 .parity,
    rowRw .sqBaseHi 0x900024 1 0x1000 256 0x40 8 0xffffffff 0xffffffff 0 .parity,
    rowRw .sqCfg 0x900028 1 0x1000 256 0x40 8 0x8071000f 0x8071000f 0 .parity,
    rowRo .sqHead 0x90002c 1 0x1000 256 0x40 8 0xfff 0,
    rowRo .sqTail 0x900030 1 0x1000 256 0x40 8 0xfff 0,
    rowRw .cqBaseLo 0x900220 1 0x1000 256 0x40 8 0xffffffff 0xffffffff 0 .parity,
    rowRw .cqBaseHi 0x900224 1 0x1000 256 0x40 8 0xffffffff 0xffffffff 0 .parity,
    rowRw .cqCfg 0x900228 1 0x1000 256 0x40 8 0x83ff071f 0x83ff071f 0 .parity,
    rowRw .cqMod 0x90022c 1 0x1000 256 0x40 8 0xffff00ff 0xffff00ff 1 .parity,
    rowRo .cqTail 0x900230 1 0x1000 256 0x40 8 0x1ffff 0,
    rowRo .cqPend 0x900234 1 0x1000 256 0x40 8 0x8001ffff 0,
    rowRo .mbxIndex 0x900400 1 0x1000 256 4 4 0x1f 0,
    rowWide .thawedAt 0x900410 1 0x1000 256,
    rowRo .mbxSlot 0x900800 1 0x1000 256 4 512 0xffffffff 0 ]

def rowsIntc : List RegRow :=
  [ rowRw .srcPrio 0xa00000 0 4 1024 0 1 0xf 0xf 0 .parity,
    rowRw .srcTargets 0xa01000 0 4 1024 0 1 0xffff 0xffff 0 .parity,
    rowRo .srcState 0xa02000 0 4 1024 0 1 0xf0007 0,
    rowRo .swiSet 0xa03000 0 4 2 0 1 0x1f 0,
    rowRw .targetCtl 0xa04000 0 0x100 16 0 1 0xf0001 0xf0001 0 .parity,
    rowRo .claim 0xa04004 0 0x100 16 0 1 0x800f03ff 0,
    rowRo .complete 0xa04008 0 0x100 16 0 1 0x3ff 0,
    rowRo .level 0xa0400c 0 0x100 16 0 1 0xf0f 0,
    rowRo .stackEntry 0xa04010 0 0x100 16 4 15 0xf03ff 0,
    rowRo .timerReg 0xa04050 0 0x100 16 0 1 0xffffffff 0,
    rowRo .claims 0xa04054 0 0x100 16 0 1 0xffffffff 0 ]

def rowsTasks : List RegRow :=
  [ rowRo .sched 0xa80000 0 0 1 0 1 0x3fff01ff 0,
    rowRo .taskArm 0xa80004 0 0 1 0 1 0xffff1fff 0,
    rowRo .taskSignal 0xa80008 0 0 1 0 1 0x1fff 0,
    rowRo .taskCancel 0xa8000c 0 0 1 0 1 0x1fff 0,
    rowRo .list 0xa80010 0 4 8 0 1 0x7ff 0,
    rowWide .events 0xa80040 0 0 1,
    rowRo .taskCnt 0xa80048 0 4 4 0 1 0xffffffff 0,
    rowRw .offerLimit 0xa80060 0 0 1 0 1 0xffff 0xffff 0x1000 .parity,
    rowRw .coreCtl 0xa80100 0 0x10 12 0 1 3 3 0 .parity,
    rowRo .coreTask 0xa80104 0 0x10 12 0 1 0x80071fff 0,
    rowRo .coreOffer 0xa80108 0 0x10 12 0 1 0x80071fff 0,
    rowRw .bind 0xa80200 0 4 8 0 1 1 1 0 .parity,
    rowRo .tdState 0xa90000 0 0x20 8192 0 1 0xff0f0303 0,
    rowRw .tdCount 0xa90004 0 0x20 8192 0 1 0xffffffff 0xffff0000 0 .parity,
    rowRw .tdCfg 0xa90008 0 0x20 8192 0 1 0xfff007 0xfff007 0 .parity,
    rowRw .tdEntry 0xa9000c 0 0x20 8192 0 1 0xffffffff 0xffffffff 0 .parity,
    rowRw .tdArg 0xa90010 0 0x20 8192 4 2 0xffffffff 0xffffffff 0 .parity,
    rowRw .tdSucc 0xa90018 0 0x20 8192 4 2 0x9fff9fff 0x9fff9fff 0 .parity ]

def rowsFault : List RegRow :=
  [ rowRo .faultState 0xb00000 0 0 1 0 1 0xd 0,
    rowRo .fallowCause 0xb00004 0 0 1 0 1 0x3ff 0,
    rowRw .faultPinCtl 0xb00008 0 0 1 0 1 1 1 1 .parity,
    rowRo .fqProd 0xb00010 0 0 1 0 1 0x1ff 0,
    rowRw .fqCons 0xb00014 0 0 1 0 1 0x1ff 0x1ff 0 .parity,
    rowRo .fqDropped 0xb00018 0 0 1 0 1 0xffffffff 0,
    rowRo .sticky 0xb00020 0 4 16 0 1 0xffffffff 0,
    rowRo .liveBits 0xb00060 0 4 16 0 1 0xffffffff 0,
    rowRw .react 0xb00100 0 4 512 0 1 0x3f 0x3f 0 .triple,
    rowRo .faultCount 0xb01000 0 4 512 0 1 0xffff 0,
    rowRo .fqEntry 0xb04000 0 0x20 256 4 8 0xffffffff 0,
    rowRo .cause 0xb06000 0 4 16 0 1 0xffffffff 0,
    rowWide .causeSwn 0xb06040 0 0 1 ]

def rowsTamperPower : List RegRow :=
  [ rowRo .tamperStatus 0xb80000 0 0 1 0 1 0xffff 0,
    rowRw .tamperEnable 0xb80004 0 0 1 0 1 0x7ff 0x7ff 0x7ff .triple,
    rowRo .fuseDis 0xb80008 0 0 1 0 1 0xffff 0,
    rowRo .fuseReq 0xb8000c 0 0 1 0 1 0xffffffff 0,
    rowRo .fusePend 0xb80010 0 0 1 0 1 0xffff 0,
    rowRo .delaySrc 0xb80014 0 0 1 0 1 1 0,
    rowRo .det 0xb80020 0 4 11 0 1 0xff00ffff 0,
    rowRo .mismatch 0xb80060 0 4 4 0 1 0xffffffff 0,
    rowRo .bkStatus 0xbc0000 0 0 1 0 1 7 0,
    rowRw .bkEnable 0xbc0004 0 0 1 0 1 7 7 7 .triple,
    rowRo .tamperLast 0xbc0008 0 0 1 0 1 0x8038000f 0,
    rowWide .lastRtc 0xbc000c 0 0 1,
    rowRo .hist 0xbc0014 0 0 1 0 1 3 0,
    rowWide .resetRtc 0xbc0018 0 8 3,
    rowWide .rtc 0xbc0030 0 0 1,
    rowRw .rtcSet 0xbc0038 0 4 2 0 1 0xffffffff 0xffffffff 0 .parity,
    rowRo .rtcCtl 0xbc0040 0 0 1 0 1 1 0,
    rowRw .rtcAlarmReg 0xbc0048 0 4 2 0 1 0xffffffff 0xffffffff 0xffffffff .parity,
    rowWide .ctrMirror 0xbc0050 0 0 1,
    rowRo .vbat 0xbc0058 0 0 1 0 1 0x1fff 0,
    rowRo .psState 0xc00000 0 0 1 0 1 0xffff0117 0,
    rowSh .pwrCmd 0xc00004 0 0 1 0 1 0xffff0017 0xffff0000 .parity,
    rowWide .cmdSwn 0xc00008 0 0 1,
    rowRw .ageCtl 0xc00010 0 0 1 0 1 0x3ff0003 0x3ff0003 0x2ee0000 .parity,
    rowRo .ageStatus 0xc00014 0 0 1 0 1 0xffffff03 0,
    rowRo .vdd 0xc00018 0 4 2 0 1 0x3ff 0,
    rowWide .measSwn 0xc00020 0 0 1,
    rowRo .mon 0xc00100 0 4 96 0 1 0x300ffff 0 ]

def rowsLife : List RegRow :=
  [ rowRo .lcState 0xc80000 0 0 1 0 1 0x733 0,
    rowRo .lcRequest 0xc80004 0 0 1 0 1 3 0,
    rowRo .lcResult 0xc80008 0 0 1 0 1 3 0,
    rowRo .finalReq 0xc8000c 0 0 1 0 1 0xffff0001 0,
    rowRo .lcResumed 0xc80010 0 0 1 0 1 7 0,
    rowRo .jseq 0xc80014 0 0 1 0 1 0xffffffff 0,
    rowRo .debug 0xc80018 0 0 1 0 1 3 0 ]

def rowsCommons : List RegRow :=
  [ rowSh .comCtl 0xd00000 0 0 1 0 1 0x80000311 0 .parity,
    rowSh .member 0xd00004 0 0 1 0 1 0x3ff 0 .parity,
    rowSh .etype 0xd00008 0 0 1 0 1 0xffff 0x88b5 .parity,
    rowSh .ptp 0xd0000c 0 0 1 0 1 0xff000007 4 .parity,
    rowSh .tickDelay 0xd00010 0 0 1 0 1 0x3ff 0 .parity,
    rowSh .migSlot 0xd00014 0 0 1 0 1 0x3fff 0 .parity,
    rowSh .commonsInst 0xd00018 0 0 1 0 1 0x1ff 0 .parity,
    rowRo .align 0xd00020 0 0 1 0 1 7 0,
    rowRo .comOffset 0xd00024 0 0 1 0 1 0xffffffff 0,
    rowSh .epoch 0xd00028 0 4 2 0 1 0xffffffff 0 .parity,
    rowSh .portCfg 0xd00030 0 0 1 0 1 0xf 0 .parity,
    rowRo .portMac 0xd00034 0 4 2 0 1 0xffffffff 0,
    rowRo .portState 0xd00040 0 0x20 4 0 1 7 0,
    rowRo .portTx 0xd00044 0 0x20 4 0 1 0xffffffff 0,
    rowRo .portDrop 0xd00048 0 0x20 4 0 1 0xffffffff 0,
    rowSh .peerLo 0xd10000 0 8 1024 0 1 0xffffffff 0 .parity,
    rowSh .peerHi 0xd10004 0 8 1024 0 1 0x8000ffff 0 .parity,
    rowRo .peerState 0xd20000 0 4 1024 0 1 3 0,
    rowSh .slotBaseLo 0xd30000 0 0x10 64 0 1 0xffffffff 0 .parity,
    rowSh .slotBaseHi 0xd30004 0 0x10 64 0 1 0x1f 0 .parity,
    rowSh .slotCap 0xd30008 0 0x10 64 0 1 0xffffffff 0 .parity,
    rowRo .slotState 0xd3000c 0 0x10 64 0 1 3 0 ]

def rowsHbm : List RegRow :=
  [ rowRo .pcFenced 0xe00000 0 4 4 0 1 0xffffffff 0,
    rowRo .pcCount 0xe00010 0 0 1 0 1 0xff 0,
    rowWide .served 0xe00020 0 0 1,
    rowRo .waitClassB 0xe00028 0 0 1 0 1 0x3fffff 0,
    rowRo .fencedReads 0xe00030 0 0 1 0 1 0xffffffff 0,
    rowRo .instState 0xf00000 0 0x1000 1 0 1 0xffff0107 0,
    rowRo .instCtl 0xf00004 0 0x1000 1 0 1 7 0,
    rowRo .instVfReset 0xf00008 0 0x1000 1 0 1 1 0,
    rowRo .instJobs 0xf00010 0 0x1000 1 0 1 0xffffffff 0,
    rowWide .frozenAt 0xf00018 0 0x1000 1,
    rowRw .sqBaseLo 0xf00020 0 0x1000 1 0x40 8 0xffffffff 0xffffffff 0 .parity,
    rowRw .sqBaseHi 0xf00024 0 0x1000 1 0x40 8 0xffffffff 0xffffffff 0 .parity,
    rowRw .sqCfg 0xf00028 0 0x1000 1 0x40 8 0x8071000f 0x8071000f 0 .parity,
    rowRo .sqHead 0xf0002c 0 0x1000 1 0x40 8 0xfff 0,
    rowRo .sqTail 0xf00030 0 0x1000 1 0x40 8 0xfff 0,
    rowRw .cqBaseLo 0xf00220 0 0x1000 1 0x40 8 0xffffffff 0xffffffff 0 .parity,
    rowRw .cqBaseHi 0xf00224 0 0x1000 1 0x40 8 0xffffffff 0xffffffff 0 .parity,
    rowRw .cqCfg 0xf00228 0 0x1000 1 0x40 8 0x83ff071f 0x83ff071f 0 .parity,
    rowRw .cqMod 0xf0022c 0 0x1000 1 0x40 8 0xffff00ff 0xffff00ff 1 .parity,
    rowRo .cqTail 0xf00230 0 0x1000 1 0x40 8 0x1ffff 0,
    rowRo .cqPend 0xf00234 0 0x1000 1 0x40 8 0x8001ffff 0,
    rowWide .thawedAt 0xf00410 0 0x1000 1,
    rowRo .doorbell 0xf01000 0 8 24 0 1 0xffffffff 0,
    rowRw .msix 0xf80000 0 0x10 1024 4 4 0xffffffff 0xffffffff 0 .none,
    rowRo .pba 0xf84000 0 4 32 0 1 0xffffffff 0 ]

/-- The rows of the block that holds address `a`, in the order of Table 2.2. -/
def rowsAt (a : Nat) : List RegRow :=
  if a < 0x100000 then rowsGlobal else
  if a < 0x200000 then rowsAdmit else
  if a < 0x400000 then rowsMeadow else
  if a < 0x500000 then rowsSward else
  if a < 0x600000 then rowsAmu else
  if a < 0x6c0000 then rowsPoolsA else
  if a < 0x780000 then rowsPoolsB else
  if a < 0x800000 then rowsDigestSeed else
  if a < 0x900000 then rowsKeystore else
  if a < 0xa00000 then rowsInstance else
  if a < 0xa80000 then rowsIntc else
  if a < 0xb00000 then rowsTasks else
  if a < 0xb80000 then rowsFault else
  if a < 0xc80000 then rowsTamperPower else
  if a < 0xd00000 then rowsLife else
  if a < 0xe00000 then rowsCommons else
  rowsHbm

/-- The row and the indices of address `a`, where one row names it. -/
def RegRow.hit (r : RegRow) (a : Nat) : Option (RegRow × Nat × Nat) :=
  if a < r.base then none else
  let d := a - r.base
  let i := if r.s1 = 0 then 0 else d / r.s1
  let e := d - i * r.s1
  let j := if r.s2 = 0 then 0 else e / r.s2
  if i < r.n1 ∧ j < r.n2 ∧ i * r.s1 + j * r.s2 = d then some (r, i + r.first, j) else none

/-- The register at PF BAR0 byte address `a`; none is an unassigned offset (R33). -/
def regAt (a : Nat) : Option (RegRow × Nat × Nat) := (rowsAt a).findSome? (fun r => r.hit a)

/-- Position of the register block of address `a` in Table 2.2. -/
def blockOf (a : Nat) : Nat :=
  if a < 0x100000 then 0 else if a < 0x200000 then 1 else if a < 0x400000 then 2 else if a < 0x500000 then 3 else
  if a < 0x600000 then 4 else if a < 0x680000 then 5 else if a < 0x6C0000 then 6 else if a < 0x700000 then 7 else
  if a < 0x780000 then 8 else if a < 0x7C0000 then 9 else if a < 0x800000 then 10 else if a < 0x900000 then 11 else
  if a < 0xA00000 then 12 else if a < 0xA80000 then 13 else if a < 0xB00000 then 14 else if a < 0xB80000 then 15 else
  if a < 0xBC0000 then 16 else if a < 0xC00000 then 17 else if a < 0xC80000 then 18 else if a < 0xD00000 then 19 else
  if a < 0xE00000 then 20 else if a < 0xF00000 then 21 else 22

/-- The bit of CFG_PEND and CFG_SKIP of a block (Table 2.5); 15 where the block has no shadowed field. -/
def cfgBit (block : Nat) : Nat :=
  nth [15, 0, 1, 14, 2, 3, 4, 5, 6, 7, 8, 9, 15, 15, 15, 15, 15, 15, 10, 15, 11, 12, 13] block 15

/-! ## Values fixed per source -/

/-- Fence unit and reset domain of a fault source (Table 18.1). -/
structure FaultKind where
  cls : Nat
  fence : Bool
  domain : Bool
  mask : Nat
  fixed : Nat
deriving DecidableEq, Repr

def fk (cls : Nat) (fence domain : Bool) (mask fixed : Nat) : Option FaultKind :=
  some { cls, fence, domain, mask, fixed }

/-- Blocks that are reset domains of REG_VOTE_LOST and REG_PARITY (R409). -/
def blockDomain (b : Nat) : Bool := [2, 4, 5, 6, 7, 8, 9, 20].contains b

/-- Class, fence unit, reset domain, default mask and fixed bits of source `n` (Table 18.1); none is reserved. REACT bits:
0 INT, 1 NMI, 2 BLOCK_RESET, 3 CHIP_RESET, 4 PIN, 5 FENCE (R408). -/
def faultKind (n : Nat) : Option FaultKind :=
  if n < 69 then
    match n % 3 with
    | 0 => fk 0 false false 0x01 0
    | 1 => fk 2 false (blockDomain (n / 3)) 0x18 0
    | _ => fk 1 false (blockDomain (n / 3)) 0x01 0
  else if n < 72 then none
  else if n < 168 then
    match (n - 72) % 6 with
    | 0 => fk 0 false true 0x01 0
    | 1 => fk 1 true true 0x01 0
    | 2 => fk 1 true true 0x21 0
    | 3 => fk 1 true true 0x31 0
    | 4 => fk 1 false false 0x01 0
    | _ => fk 1 true true 0x01 0
  else if n = 168 then fk 0 false false 0x01 0
  else if n = 169 then fk 1 false false 0x01 0
  else if n < 176 then none
  else if n < 192 then
    match (n - 176) % 4 with
    | 0 => fk 0 false true 0x01 0
    | 1 => fk 1 true true 0x01 0
    | 2 => fk 1 true true 0x21 0
    | _ => none
  else if n < 236 then (if n % 2 = 0 then fk 0 false true 0x01 0 else fk 1 true true 0x21 0)
  else if n < 260 then
    match (n - 236) % 3 with
    | 0 => fk 0 false true 0x01 0
    | _ => fk 1 true true 0x21 0
  else if n < 284 then (if n % 2 = 0 then fk 0 false true 0x01 0 else fk 1 true true 0x21 0)
  else if n < 292 then fk 0 false false 0x01 0
  else if n < 300 then fk 1 true false 0x21 0x20
  else if n = 300 then fk 1 false false 0x11 0
  else if n < 304 then none
  else if n = 304 then fk 1 false false 0x01 0
  else if n = 305 then fk 1 false false 0x11 0
  else if n = 306 then fk 0 false false 0x01 0
  else if n = 307 then fk 1 false false 0x11 0
  else if n < 436 then fk 1 true false 0x01 0
  else if n < 440 then fk 0 false false 0x01 0
  else if n = 440 then fk 1 false false 0x01 0
  else if n < 445 then fk 0 false true 0x01 0
  else if n < 449 then fk 1 true true 0x21 0
  else if n < 451 then fk 0 false false 0x01 0
  else if n = 451 then fk 2 false false 0x18 0
  else if n < 468 then fk 1 false true 0x05 0
  else if n = 468 then fk 2 false false 0x18 0x08
  else if n = 469 then fk 1 false false 0x01 0
  else if n = 470 then fk 2 false false 0x18 0
  else if n = 471 then fk 0 false false 0x01 0
  else if n < 474 then fk 1 false false 0x01 0
  else if n = 474 then fk 2 false false 0 0
  else if n < 480 then none
  else if n < 496 then fk 2 false false 0x08 0x08
  else none

/-- The mask a write of `v` to REACT(n) leaves (R408): absent bits read 0, fixed bits read 1, reserved sources read 0. -/
def reactMask (n v : Nat) : Nat :=
  match faultKind n with
  | none => 0
  | some k =>
    (v % 4 + (if k.domain then v / 4 % 2 * 4 else 0) + v / 8 % 4 * 8 + (if k.fence then v / 32 % 2 * 32 else 0)) ||| k.fixed

/-- The reset value of word (i, j) of a register row. -/
def RegRow.resetAt (r : RegRow) (i j : Nat) : Nat :=
  match r.id with
  | .share => if i = 0 then 1024 else 0
  | .react => match faultKind i with | some k => k.mask | none => 0
  | .msix => if j = 3 then 1 else 0
  | _ => r.reset

/-- The reset value of the word at address `a`, as the register store's default. -/
def regReset (a : Nat) : Word :=
  match regAt a with
  | some (r, i, j) => BitVec.ofNat 32 (r.resetAt i j)
  | none => 0

end Sys2Proof.Machine
end

