-- ==== Sys2Proof/Machine/Ops.lean ====
section
/-! DEFINITION. The named operations that every unit's meaning is made of: access to the units of State, free values, register
values, swath figures and capacities, HBM and host memory with their fences, fault reports, interrupts, the calendar and
the ledgers, completion records and the end of a job. -/

namespace Sys2Proof.Machine

/-! ## Units of State -/

def State.field (s : State) (f : Nat) : Field := mget (fun _ => Field.init) s.fields f
def State.setField (s : State) (f : Nat) (x : Field) : State :=
  { s with fields := mput (fun _ => Field.init) s.fields f x }
def State.modField (s : State) (f : Nat) (g : Field → Field) : State := s.setField f (g (s.field f))

def State.amu (s : State) (u : Nat) : Amu := mget (fun _ => Amu.init) s.amus u
def State.setAmu (s : State) (u : Nat) (x : Amu) : State := { s with amus := mput (fun _ => Amu.init) s.amus u x }
def State.modAmu (s : State) (u : Nat) (g : Amu → Amu) : State := s.setAmu u (g (s.amu u))

/-- Cores of the four core pools, one key each: lattice 0–15, hash-signature 16–19, code 20–21, big-number 22–29. -/
def coreBase (pool : Nat) : Nat := nth [0, 16, 20, 22] pool 0
def coreCount (pool : Nat) : Nat := nth [16, 4, 2, 8] pool 0
def State.core (s : State) (k : Nat) : Core := mget (fun _ => Core.init) s.cores k
def State.setCore (s : State) (k : Nat) (x : Core) : State := { s with cores := mput (fun _ => Core.init) s.cores k x }
def State.modCore (s : State) (k : Nat) (g : Core → Core) : State := s.setCore k (g (s.core k))

def State.pipe (s : State) (p : Nat) : Core := mget (fun _ => Core.init) s.pipes p
def State.setPipe (s : State) (p : Nat) (x : Core) : State := { s with pipes := mput (fun _ => Core.init) s.pipes p x }
def State.modPipe (s : State) (p : Nat) (g : Core → Core) : State := s.setPipe p (g (s.pipe p))

def State.pool (s : State) (p : Nat) : PoolCnt := mget (fun _ => PoolCnt.init) s.pools p
def State.modPool (s : State) (p : Nat) (g : PoolCnt → PoolCnt) : State :=
  { s with pools := mput (fun _ => PoolCnt.init) s.pools p (g (s.pool p)) }

def State.inst (s : State) (n : Nat) : Inst := mget Inst.init s.insts n
def State.setInst (s : State) (n : Nat) (x : Inst) : State := { s with insts := mput Inst.init s.insts n x }
def State.modInst (s : State) (n : Nat) (g : Inst → Inst) : State := s.setInst n (g (s.inst n))

def Inst.sq (i : Inst) (q : Nat) : Sq := mget (fun _ => Sq.init) i.sqs q
def Inst.setSq (i : Inst) (q : Nat) (x : Sq) : Inst := { i with sqs := mput (fun _ => Sq.init) i.sqs q x }
def Inst.cq (i : Inst) (q : Nat) : Cq := mget (fun _ => Cq.init) i.cqs q
def Inst.setCq (i : Inst) (q : Nat) (x : Cq) : Inst := { i with cqs := mput (fun _ => Cq.init) i.cqs q x }

def State.handle (s : State) (h : Nat) : Handle := mget (fun _ => Handle.empty) s.handles h
def State.setHandle (s : State) (h : Nat) (x : Handle) : State :=
  { s with handles := mput (fun _ => Handle.empty) s.handles h x }

def Field.plane (f : Field) (p : Nat) : Plane := mget (fun _ => Plane.empty) f.planes p
def Field.setPlane (f : Field) (p : Nat) (x : Plane) : Field :=
  { f with planes := mput (fun _ => Plane.empty) f.planes p x }

def State.slot (s : State) (k : Nat) : KSlot := mget (fun _ => KSlot.empty) s.keys.slots k
def State.setSlot (s : State) (k : Nat) (x : KSlot) : State :=
  { s with keys := { s.keys with slots := mput (fun _ => KSlot.empty) s.keys.slots k x } }
def State.modSlot (s : State) (k : Nat) (g : KSlot → KSlot) : State := s.setSlot k (g (s.slot k))

def State.stream (s : State) (k : Nat) : Stream := mget (fun _ => Stream.init) s.seed.streams k
def State.setStream (s : State) (k : Nat) (x : Stream) : State :=
  { s with seed := { s.seed with streams := mput (fun _ => Stream.init) s.seed.streams k x } }

def State.td (s : State) (t : Nat) : Td := mget (fun _ => Td.init) s.tasks.tds t
def State.setTd (s : State) (t : Nat) (x : Td) : State :=
  { s with tasks := { s.tasks with tds := mput (fun _ => Td.init) s.tasks.tds t x } }

def State.peer (s : State) (m : Nat) : Peer := mget (fun _ => Peer.init) s.commons.peers m
def State.setPeer (s : State) (m : Nat) (x : Peer) : State :=
  { s with commons := { s.commons with peers := mput (fun _ => Peer.init) s.commons.peers m x } }

def State.inSlot (s : State) (k : Nat) : SlotSt := mget (fun _ => SlotSt.init) s.commons.slots k
def State.setInSlot (s : State) (k : Nat) (x : SlotSt) : State :=
  { s with commons := { s.commons with slots := mput (fun _ => SlotSt.init) s.commons.slots k x } }

def State.job? (s : State) (id : Nat) : Option Job := s.adm.jobs.find? (fun j => j.id == id)
def State.modJob (s : State) (id : Nat) (g : Job → Job) : State :=
  { s with adm := { s.adm with jobs := s.adm.jobs.map (fun j => if j.id = id then g j else j) } }
def State.modJobs (s : State) (g : Job → Job) : State :=
  { s with adm := { s.adm with jobs := s.adm.jobs.map g } }

def State.swnN (s : State) : Nat := s.glob.swn.toNat
def State.emit (s : State) (o : Out) : State := { s with outbox := s.outbox ++ [o] }
def State.setResp (s : State) (r : Resp) : State := { s with resp := r }
def State.setOffset (s : State) (o : Nat) : State := { s with glob := { s.glob with offset := o } }

/-- Out of reset, not stopped and not powered down under PS4: the device's clocks run (R452, R460, R467). -/
def State.up (s : State) : Bool := s.start.up && s.start.phase != 15 && !s.power.ps4Ready
/-- Out of reset, not stopped and not in Fallow (R420). -/
def State.running (s : State) : Bool := s.up && !s.faults.fallow

/-! ## Free values (log entry 1) -/

/-- Next free value of `bits` bits. -/
def State.draw (s : State) (bits : Nat) : Nat × State :=
  (Config.freeNat s.free bits % 2 ^ bits, { s with free := s.free + 1 })

/-- `n` free bytes: random bytes, and bytes the spec leaves unpredictable. -/
def State.drawBytes (s : State) (n : Nat) : Bytes × State :=
  let (v, s) := s.draw (8 * n)
  (toLe n v, s)

/-! ## Register values -/

/-- Stored word of a register: the shadow copy of a shadowed one (R40). -/
def State.cfgW (s : State) (a : Nat) : Word := mget regReset s.cfg a
def State.cfgN (s : State) (a : Nat) : Nat := (s.cfgW a).toNat
def State.setCfg (s : State) (a : Nat) (w : Word) : State := { s with cfg := mput regReset s.cfg a w }
/-- Live word of a shadowed register (R22). -/
def State.liveW (s : State) (a : Nat) : Word := mget regReset s.live a
def State.liveN (s : State) (a : Nat) : Nat := (s.liveW a).toNat
def State.setLive (s : State) (a : Nat) (w : Word) : State := { s with live := mput regReset s.live a w }

/-- Page of an instance's registers (R36, R361). -/
def instPage (n : Nat) : Nat := if n = 0 then 0xF00000 else 0x900000 + (n - 1) * 0x1000
def sqCfgA (n q : Nat) : Nat := instPage n + 0x28 + 0x40 * q
def cqCfgA (n q : Nat) : Nat := instPage n + 0x228 + 0x40 * q
def shareA (n p : Nat) : Nat := 0x110000 + 0x40 * n + 4 * p
def lendA (n : Nat) : Nat := 0x110028 + 0x40 * n
def reactA (n : Nat) : Nat := 0xB00100 + 4 * n
def tdA (t : Nat) : Nat := 0xA90000 + 0x20 * t

/-- SEALER: the stored value, or the live member index until it is first written (Tables 15.10, 23.5; log entry 7). -/
def State.sealer (s : State) : Nat := if s.keys.sealerSet then s.liveN 0x800018 else s.liveN 0xD00004

/-! ## The swath (R54, R55) -/

def State.nCc (s : State) : Nat := 2700000 + 12500 * s.glob.cclkStep
def State.hCc (s : State) : Nat := 108000 + 500 * s.glob.cclkStep
/-- Repair reserve R of one unit. -/
def State.rCc (s : State) : Nat := s.liveN 0x100000 * s.nCc / 100
/-- Slice budget C and re-plan limit T of one unit. -/
def State.cCc (s : State) : Nat := s.nCc - s.hCc - max s.rCc 2048
def State.tCc (s : State) : Nat := s.nCc - s.hCc - 2048

/-! ## Capacities (R62) -/

/-- Power states in which the crypto pools, AMUs, HBM and seedbank run (Table 21.1). -/
def State.poolsOn (s : State) : Bool := s.power.state < 3 && !s.power.leaving
def State.fieldOn (s : State) (f : Nat) : Bool := (s.field f).powered && !(s.field f).fenced
/-- Cores of pool `p` in service. -/
def State.coresIn (s : State) (p : Nat) : List Nat :=
  if s.poolsOn then (upTo (coreCount p)).filter (fun c => !(s.core (coreBase p + c)).fenced) else []
/-- Digest pipelines in service: SHA-2 are 0–7, Keccak 8–11 (Table 13.7). -/
def State.pipesIn (s : State) (lo n : Nat) : List Nat :=
  if s.poolsOn then ((upTo n).map (· + lo)).filter (fun p => !(s.pipe p).fenced) else []
/-- Digest units in service: min(3 ⌊K / ... ⌋) as R302 states. -/
def State.digestUnits (s : State) : Nat :=
  min ((s.pipesIn 0 8).length * 3 / 2) ((s.pipesIn 8 4).length * 3)
/-- Pseudo-channels in service P. -/
def State.pcCount (s : State) : Nat := 128 - popc 128 s.hbmc.pcFenced.toNat
/-- Noise sources in service; none when HALTED. -/
def State.sourcesIn (s : State) : Nat := if s.seed.phase = 3 then 0 else 8 - popc 8 s.seed.fenced.toNat
/-- A member counts as joined in ALIGNED and HOLDOVER (R477, R482). -/
def State.joined (s : State) : Bool :=
  bit (s.liveN 0xD00000) 31 && (s.commons.align == 2 || s.commons.align == 3)
/-- This member's index. -/
def State.memberIx (s : State) : Nat := s.liveN 0xD00004 % 1024
/-- Port k in service: link up, not fenced, member joined (Table 23.5, R491). -/
def State.portIn (s : State) (k : Nat) : Bool :=
  s.commons.linkUp.getLsbD k && !s.commons.fenced.getLsbD k && !s.commons.retrained.getLsbD k && s.joined
def State.portsIn (s : State) : Nat := ((upTo 4).filter s.portIn).length

/-- HBM units of a row before the host window and the ledger traffic are taken off (Table 3.4). -/
def State.hbmGrossNow (s : State) : Nat := if s.poolsOn then 4400000000 * s.pcCount / 8192 else 0
/-- What the live HOST_WIN and the ledger traffic leave of `gross` HBM units (Table 3.4). -/
def State.hbmRoom (s : State) (gross : Nat) : Nat := gross - s.liveN 0x100004 * 15625 - 125000
/-- C[x] and T[x] of Table 3.4; x = 0–15 FIELD, 16–19 core pools, 20 DIGEST, 21–24 AMU, 25 HBM, 26 COMMONS,
27 SEEDBANK (Table 3.6). `perUnit` is C or T of Table 3.1. -/
def State.capWith (s : State) (perUnit : Nat) (x : Nat) : Nat :=
  if x < 16 then (if s.fieldOn x && s.poolsOn then perUnit else 0)
  else if x < 20 then (s.coresIn (x - 16)).length * perUnit
  else if x = 20 then s.digestUnits * perUnit
  else if x < 25 then (if (s.amu (x - 21)).fenced || !s.poolsOn then 0 else s.nCc - s.hCc - 2048)
  else if x = 25 then s.hbmRoom s.hbmGrossNow
  else if x = 26 then (if s.joined && s.poolsOn then 781250 * s.portsIn else 0)
  else if x = 27 then (if s.poolsOn then 1000 * s.sourcesIn else 0)
  else 0
def State.capCNow (s : State) (x : Nat) : Nat := s.capWith s.cCc x
def State.capTNow (s : State) (x : Nat) : Nat := s.capWith s.tCc x
/-- C[x] and T[x] as the last re-plan and commit steps left them (CAP_C, CAP_T): the figures that admission uses (R23,
R416). -/
def State.capC (s : State) (x : Nat) : Nat := cget s.adm.capC x
def State.capT (s : State) (x : Nat) : Nat := cget s.adm.capT x
def State.setCaps (s : State) (c t : Nat → Nat) : State :=
  { s with adm := { s.adm with
      capC := (upTo 28).foldl (fun m x => cput m x (c x)) s.adm.capC
      capT := (upTo 28).foldl (fun m x => cput m x (t x)) s.adm.capT } }

/-- Share pool of a resource (R74). -/
def poolOf (x : Nat) : Nat :=
  if x < 16 then 0 else if x < 21 then x - 15 else if x < 25 then 6 else x - 18
/-- Resources of a share pool. -/
def resOf (p : Nat) : List Nat :=
  if p = 0 then upTo 16 else if p < 6 then [p + 15] else if p = 6 then [21, 22, 23, 24] else [p + 18]

/-! ## HBM (R123, R129, R517) -/

def ledgerBase : Nat := 0x17C0000000

/-- What an HBM byte nothing has written reads as: zero, but the manager's SEEDBANK ledger entries of the rows in which
a DRBG reseed is due, which read 48 (R65, R101; log entry 2). -/
def hbmDefault (a : Nat) : Byte :=
  if a < ledgerBase then 0 else
  let o := a - ledgerBase
  if o < 65536 * 40 ∧ o % 40 = 36 ∧ o / 40 % 1024 ≤ 48 then 48#8 else 0#8

def pcOf (a : Nat) : Nat := a / 256 % 128
/-- The byte of a device address names no HBM, or lies in a fenced pseudo-channel. -/
def State.hbmGone (s : State) (a : Nat) : Bool :=
  a % 2 ^ 37 ≥ 0x1800000000 || s.hbmc.pcFenced.getLsbD (pcOf a)
/-- The reserved bytes of the ledger range and the job table, whose bytes have no meaning to a reader (R65). -/
def internalA (a : Nat) : Bool := decide (0x17E8280000 ≤ a % 2 ^ 37)
def State.hbmByte (s : State) (a : Nat) : Byte :=
  if s.hbmGone a then 0#8
  else if internalA a then Config.internalByte s.free (a % 2 ^ 37)
  else mget hbmDefault s.hbm (a % 2 ^ 37)
/-- The bytes at a device address, without the counts of a request. -/
def State.hbmPeek (s : State) (a n : Nat) : Bytes := (upTo n).map (fun i => s.hbmByte (a + i))
def State.hbmPut (s : State) (a : Nat) (b : Byte) : State :=
  if s.hbmGone a then s else { s with hbm := mput hbmDefault s.hbm (a % 2 ^ 37) b }
/-- Bytes written from an address upwards, without the counts of a request. -/
def State.hbmPoke (s : State) : Nat → Bytes → State
  | _, [] => s
  | a, b :: bs => (s.hbmPut a b).hbmPoke (a + 1) bs

/-- 64-byte requests of a transfer. -/
def reqs (a n : Nat) : Nat := if n = 0 then 0 else (a + n - 1) / 64 - a / 64 + 1

/-! ## Fault reports -/

def unitCode (kind idx : Nat) : BitVec 16 := BitVec.ofNat 16 (kind * 4096 + idx)

/-- Key of the core that a core source names. -/
def srcCore (n : Nat) : Option Nat :=
  if 192 ≤ n ∧ n < 236 then some ((n - 192) / 2) else if 236 ≤ n ∧ n < 260 then some (22 + (n - 236) / 3) else none
/-- The fence unit of a source is already fenced (R411). -/
def State.fencedAlready (s : State) (n : Nat) (unit : BitVec 16) : Bool :=
  match faultKind n with
  | none => false
  | some k =>
    if !k.fence then false
    else if n < 168 then
      let x := s.field ((n - 72) / 6)
      if (n - 72) % 6 = 2 then x.tileFence.getLsbD (unit.toNat % 4096 % 40) else x.fenced
    else if n < 192 then (s.amu ((n - 176) / 4)).fenced
    else if n < 260 then (match srcCore n with | some c => (s.core c).fenced | none => false)
    else if n < 284 then (s.pipe ((n - 260) / 2)).fenced
    else if n < 300 then s.seed.fenced.getLsbD (n - 292)
    else if n < 436 then s.hbmc.pcFenced.getLsbD (n - 308)
    else s.commons.fenced.getLsbD (n - 445)

/-- Raise a fault source at its collector input (R405); a reserved source raises nothing, nor does one whose fence unit is
already fenced (R411). -/
def State.raise (s : State) (src : Nat) (unit : BitVec 16) (d0 d1 : Nat) : State :=
  match faultKind src with
  | none => s
  | some _ =>
    if s.fencedAlready src unit then s else
    { s with faults := { s.faults with
        reports := s.faults.reports ++
          [{ source := Fin.ofNat 512 src, unit, detail0 := BitVec.ofNat 64 d0, detail1 := BitVec.ofNat 64 d1 }] } }

/-- LIVE(n): the cause of a source with a lasting condition (R412). -/
def State.setCause (s : State) (n : Nat) (v : Bool) : State :=
  let m : BitVec 512 := BitVec.ofNat 512 (2 ^ n)
  { s with faults := { s.faults with live := if v then s.faults.live ||| m else s.faults.live &&& ~~~m } }

/-- The causes of REG_VOTE_LOST and REG_PARITY of the block of address `a` fall once no word of it is bad (R412, R46, R48). -/
def State.settleCause (s : State) (b : Nat) : State :=
  let s := if s.voteBad.any (fun e => blockOf e.1 == b) then s else s.setCause (3 * b + 1) false
  if s.parBad.any (fun a => blockOf a == b) then s else s.setCause (3 * b + 2) false
/-- A parity check of a word (R47, R48). -/
def State.checkParity (s : State) (a : Nat) : State :=
  if s.parBad.contains a then (s.raise (3 * blockOf a + 2) 0 a 0).setCause (3 * blockOf a + 2) true else s
/-- A block uses stored words: each is checked (R47; log entry 73 names the uses). -/
def State.uses (s : State) (as : List Nat) : State := if s.parBad.isEmpty then s else as.foldl State.checkParity s
/-- A word is rewritten: its stored copies agree again, and its parity is right (R46, R47). -/
def State.rewritten (s : State) (a : Nat) : State :=
  if !s.parBad.contains a && !s.voteBad.any (fun e => e.1 == a) then s else
  ({ s with parBad := s.parBad.filter (· != a), voteBad := s.voteBad.filter (fun e => e.1 != a || e.2) }).settleCause (blockOf a)
/-- A shadow word reaches live use: its live copies agree again (R46). -/
def State.liveAgain (s : State) (a : Nat) : State :=
  if !s.voteBad.contains (a, true) then s else
  ({ s with voteBad := s.voteBad.filter (· != (a, true)) }).settleCause (blockOf a)

/-- One FENCED_READ for each 64-byte request that falls in a fenced granule (R129). -/
def State.fencedReads (s : State) : Nat → Nat → State
  | _, 0 => s
  | q, n + 1 =>
    let s := if s.hbmc.pcFenced.getLsbD (pcOf (q * 64)) && q * 64 % 2 ^ 37 < 0x1800000000 then
        let s := { s with hbmc := { s.hbmc with fencedReads := satInc 32 s.hbmc.fencedReads } }
        s.raise 440 0 (q * 64 % 2 ^ 37) 0
      else s
    s.fencedReads (q + 1) n

def State.countReqs (s : State) (n : Nat) : State :=
  { s with hbmc := { s.hbmc with servedNow := s.hbmc.servedNow + n } }

/-- Read `n` bytes of HBM by requests. -/
def State.hbmRead (s : State) (a n : Nat) : Bytes × State :=
  (s.hbmPeek a n, ((s.countReqs (reqs a n)).fencedReads (a / 64) (reqs a n)))
/-- Write bytes to HBM by requests. -/
def State.hbmWrite (s : State) (a : Nat) (b : Bytes) : State :=
  (s.countReqs (reqs a b.length)).hbmPoke a b

/-! ## Host memory (R28, R517) -/

def overlaps (a n b m : Nat) : Bool := decide (a < b + m) && decide (b < a + n)

/-- Requests that end in an error completion, as armed by DMA_ERROR_COMPLETION; a write's base has bit 64 set. -/
def State.errHits (s : State) (write : Bool) (a n : Nat) : List (Nat × Nat) :=
  s.hostif.dmaErr.filter (fun r => overlaps (a + b2n write * 2 ^ 64) n r.1 r.2)
def State.dropErrs (s : State) (hits : List (Nat × Nat)) : State :=
  if hits.isEmpty then s else
  { s with hostif := { s.hostif with dmaErr := s.hostif.dmaErr.filter (fun r => !hits.contains r) } }
def hostDefault (_ : Nat) : Byte := 0#8
def State.hostPut (s : State) (a : Nat) (b : Byte) : State :=
  { s with host := mput hostDefault s.host (a % 2 ^ 64) b }
def State.hostPoke (s : State) : Nat → Bytes → State
  | _, [] => s
  | a, b :: bs => (s.hostPut a b).hostPoke (a + 1) bs
def State.hostPeek (s : State) (a n : Nat) : Bytes :=
  (upTo n).map (fun i => mget hostDefault s.host ((a + i) % 2 ^ 64))
/-- A job DMA read: an error completion supplies 0xFF for every byte of its request and raises PCIE_UE (R517); so does a
link that is down. -/
def State.hostRead (s : State) (a n : Nat) : Bytes × State :=
  if !s.hostif.linkUp then (List.replicate n 0xFF#8, s.raise 472 0 0 0) else
  let hits := s.errHits false a n
  let bytes := (upTo n).map (fun i =>
    if hits.any (fun r => overlaps (a + i) 1 r.1 r.2) then 0xFF#8 else mget hostDefault s.host ((a + i) % 2 ^ 64))
  (bytes, hits.foldl (fun s _ => s.raise 472 0 0 0) (s.dropErrs hits))
/-- A job DMA write: the bytes of a request that ends in error are dropped (R517). -/
def State.hostWrite (s : State) (a : Nat) (b : Bytes) : State :=
  if !s.hostif.linkUp then s else
  let hits := s.errHits true a b.length
  (b.zipIdx.foldl (fun s e =>
    if hits.any (fun r => overlaps (a + e.2 + 2 ^ 64) 1 r.1 r.2) then s else s.hostPut (a + e.2) e.1) s).dropErrs hits

/-- Operand memory: host memory when `host`, else HBM. -/
def State.memRead (s : State) (host : Bool) (a n : Nat) : Bytes × State :=
  if host then s.hostRead a n else s.hbmRead a n
/-- The bytes that such a read supplies. -/
def State.memPeek (s : State) (host : Bool) (a n : Nat) : Bytes := (s.memRead host a n).1
def State.memWrite (s : State) (host : Bool) (a : Nat) (b : Bytes) : State :=
  if host then s.hostWrite a b else s.hbmWrite a b

/-! ## Interrupts -/

/-- Sources that Table 17.2 reserves never become pending. -/
def intcReserved (n : Nat) : Bool := (883 ≤ n && n < 896) || (904 ≤ n && n < 960) || n ≥ 1024

/-- An event at INTC source `n` sets PENDING or merges into it (R386). -/
def State.pendSrc (s : State) (n : Nat) : State :=
  if intcReserved n || s.intc.pend.contains n then s
  else { s with intc := { s.intc with pend := s.intc.pend ++ [n] } }

/-- MSI-X vector `v` of function `fn`: sent, or pending while its vector is masked (R374, log entry 6). -/
def msixMaskA (v : Nat) : Nat := 0xF80000 + 16 * v + 12
def State.msixMasked (s : State) (fn v : Nat) : Bool :=
  if fn = 0 then bit (s.cfgN (msixMaskA v)) 0
  else (mget (fun k => if k % 4 = 3 then 1#32 else 0#32) s.hostif.vfMsix ((fn * 64 + v) * 4 + 3)).getLsbD 0
def State.msix (s : State) (fn v : Nat) : State :=
  if s.msixMasked fn v then
    { s with hostif := { s.hostif with
        msixPend := mput (fun _ => false) s.hostif.msixPend (fn * 1024 + v) true } }
  else s.emit (.msix fn v)

/-! ## The calendar and the ledgers (R61, R65, R74–R76) -/

def State.row (s : State) (r : Nat) : Row := mget Row.init s.adm.cal r
def State.setRow (s : State) (r : Nat) (x : Row) : State :=
  { s with adm := { s.adm with cal := mput Row.init s.adm.cal r x } }
def State.rowCnt (s : State) (r x : Nat) : Nat := cget (s.row r).cnt x
def State.setRowCnt (s : State) (r x v : Nat) : State :=
  s.setRow r { cnt := cput (s.row r).cnt x v }

def ledgerA (i r p : Nat) : Nat := ledgerBase + ((i * 65536 + r % 65536) * 10 + p) * 4
/-- Amount instance `i` has used of pool `p` in row `r`, read from HBM. -/
def State.used (s : State) (i p r : Nat) : Nat := leNat (s.hbmPeek (ledgerA i r p) 4)
def State.setUsed (s : State) (i p r v : Nat) : State := s.hbmPoke (ledgerA i r p) (toLe 4 v)

/-- Row capacity of a share pool (R74). -/
def State.poolCap (s : State) (p : Nat) : Nat := sumL ((resOf p).map s.capC)
/-- Entitlement E[i][p] (R74). -/
def State.entitle (s : State) (i p : Nat) : Nat := s.liveN (shareA i p) * s.poolCap p / 1024
def State.lends (s : State) (i : Nat) : Bool := bit (s.liveN (lendA i)) 0
/-- Own part of the headroom (R75). -/
def State.ownRoom (s : State) (i p r : Nat) : Nat := s.entitle i p - s.used i p r
/-- Instances that lend, other than `i`, ascending: those whose LEND is 1. LEND registers at reset read 0, so only
listed registers can lend. -/
def State.lenders (s : State) (i : Nat) : List Nat :=
  ((s.live.filter (fun e => 0x110028 ≤ e.1 ∧ e.1 < 0x110028 + 0x40 * 257 ∧ (e.1 - 0x110028) % 0x40 = 0)).map
    (fun e => (e.1 - 0x110028) / 0x40)).filter (fun l => l != i && s.lends l)
def State.headroom (s : State) (i p r : Nat) : Nat :=
  s.ownRoom i p r + sumL ((s.lenders i).map (fun l => s.ownRoom l p r))

/-- Charge an excess to lenders in ascending number, each up to its own room (R75). -/
def State.chargeLenders (s : State) (p r : Nat) : List Nat → Nat → State
  | [], _ => s
  | _, 0 => s
  | l :: ls, e + 1 =>
    let t := min (e + 1) (s.ownRoom l p r)
    (if t = 0 then s else s.setUsed l p r (s.used l p r + t)).chargeLenders p r ls (e + 1 - t)

/-- Charge `amt` of pool `p` in row `r` to instance `i`: the whole to its own ledger, the excess over its own room to
lenders as well (R75; the worked example of chapter 3). `lend` is false for re-placed units (R79). -/
def State.chargeLedger (s : State) (i p r amt : Nat) (lend : Bool) : State :=
  if amt = 0 then s else
  let own := s.ownRoom i p r
  let s := if lend && amt > own then s.chargeLenders p r (s.lenders i) (amt - own) else s
  s.setUsed i p r (s.used i p r + amt)

/-! ## Completion records (R370–R375) -/

/-- GEN that the device holds for an instance; the manager's reads 0 (R361). -/
def State.genOf (s : State) (n : Nat) : BitVec 16 := if n = 0 then 0 else (s.inst n).gen

/-- Send a due CQ signal, or hold it while the function or the link is in a low-power state (R374, R375). -/
def State.cqSignal (s : State) (n q : Nat) : State :=
  let i := s.inst n
  let c := i.cq q
  if i.low || s.hostif.linkLow || !s.hostif.linkUp then
    let s := s.setInst n (i.setCq q { c with count := 0, intPend := true })
    if bit (s.cfgN (cqCfgA n q)) 9 then { s.emit .wake with start := { s.start with wakeLow := true } } else s
  else
    (s.setInst n (i.setCq q { c with count := 0 })).msix n (fld (s.cfgN (cqCfgA n q)) 16 10)

/-- The words of a completion queue. -/
def cqWords (n q : Nat) : List Nat := [cqCfgA n q - 8, cqCfgA n q - 4, cqCfgA n q, cqCfgA n q + 4]
/-- Write a record's 32 bytes at the CQ tail with the current phase, and count it towards a signal. -/
def State.cqWrite (s : State) (n q : Nat) (r : Bytes) : State :=
  let s := s.uses (cqWords n q)
  let cfg := s.cfgN (cqCfgA n q)
  if !bit cfg 31 then s else
  let i := s.inst n
  let c := i.cq q
  let size := 2 ^ fld cfg 0 5
  let base := s.cfgN (cqCfgA n q - 8) + 2 ^ 32 * s.cfgN (cqCfgA n q - 4)
  let bytes := wr r 0x18 (toLe 1 (rd r 0x18 1 % 128 + 128 * b2n c.phase))
  let s := s.memWrite (bit cfg 8) (base + 32 * c.tail) bytes
  let wrap := decide (c.tail + 1 ≥ size)
  let c := { c with tail := if wrap then 0 else c.tail + 1, phase := c.phase != wrap, count := c.count + 1 }
  let s := s.setInst n (i.setCq q c)
  if bit cfg 10 && c.count ≥ max 1 (fld (s.cfgN (cqCfgA n q + 4)) 0 8) then s.cqSignal n q else s

/-- Post a record at the host interface: its GEN is compared there (R373); one for host memory waits while the link is
down (R85). -/
def State.post (s : State) (n q deadline : Nat) (r : Bytes) : State :=
  if rd r 0x1C 2 ≠ (s.genOf n).toNat then s
  else if bit (s.cfgN (cqCfgA n q)) 8 && !s.hostif.linkUp then
    { s with hostif := { s.hostif with latePost := s.hostif.latePost ++ [(n, q, deadline, r)] } }
  else s.cqWrite n q r

/-- A completion record without its phase (Table 16.4). -/
def mkRecord (tag deadline finish kind status flags sq gen cost : Nat) : Bytes :=
  toLe 8 tag ++ toLe 8 deadline ++ toLe 8 finish ++ toLe 1 kind ++ toLe 1 status ++ toLe 1 flags ++ toLe 1 sq ++
    toLe 2 gen ++ toLe 2 cost

/-! ## Tasks' ready events (R26, R402, R404) -/

/-- Producers of the task inlet besides the admission unit, by number: CC0–CC11, the PF, CM0–CM3, the debug port. -/
def producerIx : Requester → Nat
  | .cc c => c.val
  | .pf => 12
  | .vf _ => 12
  | .cm c => 13 + c.val
  | .jtag => 17
/-- Freed entries of the inlet go to the stalled producers round robin, each in its own order; `n` is a bound of the turns. -/
def Tasks.fill : Nat → Tasks → Tasks
  | 0, t => t
  | n + 1, t =>
    if t.inlet.length ≥ 256 then t else
    match ((upTo 18).map (fun i => (t.prodNext + i) % 18)).findSome? (fun p => t.stalled.find? (fun e => e.1 == p)) with
    | none => t
    | some e => Tasks.fill n { t with inlet := t.inlet ++ [e.2], stalled := t.stalled.erase e, prodNext := (e.1 + 1) % 18 }
/-- The admission unit's event buffer feeds the inlet ahead of the other producers. -/
def State.taskFill (s : State) : State :=
  let t := s.tasks
  let adm := t.admBuf.take (256 - t.inlet.length)
  { s with tasks := Tasks.fill t.stalled.length { t with
      inlet := t.inlet ++ adm.map TEvent.signal
      admBuf := t.admBuf.drop adm.length } }

/-- The ready event of an ended job. -/
def State.readyEvent (s : State) (j : Job) : State :=
  let s := if j.inst = 0 then s.uses [0xA80200 + 4 * j.sq] else s
  if j.inst = 0 && bit (s.cfgN (0xA80200 + 4 * j.sq)) 0 then
    ({ s with tasks := { s.tasks with admBuf := s.tasks.admBuf ++ [j.tag.toNat % 8192] } }).taskFill
  else { s with tasks := { s.tasks with jobEnds := satInc 32 s.tasks.jobEnds } }

/-! ## Stages and placements -/

def StageRec.empty : StageRec :=
  { u := 0, nfields := 0, edit := 0, fieldCc := 0, pool := [], amu := [], hbm := 0, commons := 0, seed := 0, first := 0 }
def Job.stage (j : Job) (k : Nat) : StageRec := nth j.stages k StageRec.empty

/-- Match units whose edit pass a stage reserves (R58). -/
def StageRec.editUnits (v : StageRec) : List Nat := (upTo 4).filter (bit v.edit)
/-- Demand vector of a stage, per unit, outside FIELD (Table 4.1). -/
def StageRec.flat (v : StageRec) : List (Nat × Nat) :=
  ((upTo 5).map (fun i => (16 + i, nth v.pool i 0)) ++ (upTo 4).map (fun u => (21 + u, nth v.amu u 0)) ++
    [(25, v.hbm), (26, v.commons), (27, v.seed)]).filter (fun e => e.2 > 0)
/-- Demand of one unit on the chosen fields and the other resources. -/
def StageRec.demand (v : StageRec) (fields : List Nat) : List (Nat × Nat) :=
  (if v.fieldCc = 0 then [] else fields.map (fun f => (f, v.fieldCc))) ++ v.flat

/-- Units of a placement that have ended on every field it uses. -/
def Placement.ended (p : Placement) : Nat := p.done.foldl min p.count

/-- Take `n` units of a stage off row `r`: counters and the owner's ledger fall (R76); a lender's entry stays. -/
def State.unplace (s : State) (inst r : Nat) (dem : List (Nat × Nat)) (n : Nat) : State :=
  dem.foldl (fun s e =>
    let s := s.setRowCnt r e.1 (s.rowCnt r e.1 - n * e.2)
    s.setUsed inst (poolOf e.1) r (s.used inst (poolOf e.1) r - n * e.2)) s

/-- Release what a job still holds from the current row on (R26); the units of its records fall with the first row that
holds them, while that row lies ahead. -/
def State.releaseJob (s : State) (j : Job) : State :=
  let s := j.pls.foldl (fun s p =>
    if p.row < s.swnN then s else
    let s := s.unplace j.inst p.row ((j.stage p.stage).demand p.fields) (p.count - p.ended - p.gone.length)
    if p.recUnits && p.row > s.swnN then s.unplace j.inst p.row [(25, 2)] 1 else s) s
  s.modJob j.id (fun j => { j with pls := [], lost := [], relPend := false })

/-- Produce the DONE record of a job (R72, Table 16.4). -/
def State.doneRecord (s : State) (j : Job) (status : Nat) : State :=
  let flags := b2n j.trunc + 2 * b2n j.sat
  let r := mkRecord j.tag.toNat j.deadline (if j.finish = 0 then s.swnN else j.finish) 1 status flags j.sq
    j.gen.toNat (min 0xFFFF j.rows.length)
  s.post j.inst j.cq j.deadline r

/-- The job's reservations stand: it has no record yet, or they are kept until the next re-plan step (R26, R86, R151). -/
def Job.reserves (j : Job) : Bool := !j.recorded || j.relPend
/-- Drop jobs that have their record and hold nothing more (R68). -/
def State.sweepJobs (s : State) : State :=
  { s with adm := { s.adm with jobs := s.adm.jobs.filter Job.reserves } }

/-- The core pool of a core's key. -/
def corePool (k : Nat) : Nat := if k < 16 then 0 else if k < 20 then 1 else if k < 22 then 2 else 3
/-- Two pieces belong to one unit. -/
def Piece.same (a b : Piece) : Bool := a.job == b.job && a.stage == b.stage && a.unit == b.unit && a.seq == b.seq
/-- The operation that runs on a core or pipeline. -/
def Core.head? (x : Core) : Option Piece := if x.busy then x.pieces.head? else none
/-- What is left on a core once its running operation is gone: the next one starts at once (R90). -/
def Core.start (x : Core) (ps : List Piece) : Core :=
  match ps with
  | [] => { x with pieces := [], busy := false, begun := false }
  | e :: _ => { x with pieces := ps, busy := true, begun := false, inst := e.inst, opsNow := x.opsNow + 1 }
/-- Every word of secret content is overwritten with zeros (R285). -/
def OpHeld.wiped (x : OpHeld) : OpHeld :=
  { x with share0 := zeros x.share0.length, share1 := zeros x.share1.length, rnd := zeros x.rnd.length }
/-- The secret that the two shares make. -/
def OpHeld.secret (x : OpHeld) : Bytes := xorBytes x.share0 x.share1
/-- A core holds part of an operation that `q` picks: it runs it, sends its state, or waits to go on with it. -/
def Core.runs (x : Core) (q : Piece → Bool) : Bool :=
  x.head?.any q || x.out.any (fun e => q e.1) || x.got.any (fun e => q e.1)
/-- The pieces of a core without those that `q` picks. Where it holds part of such an operation, that one is aborted and its state
overwritten, on the way between two cores too (R286, R321). -/
def Core.without (x : Core) (q : Piece → Bool) : Core :=
  let ps := x.pieces.filter (fun e => !q e)
  let y := { x with
    out := x.out.filter (fun e => !q e.1)
    got := x.got.filter (fun e => !q e.1)
    moving := x.moving && ps.any (fun e => e.part == 2) }
  if x.head?.any q then { y.start ps with ram := OpHeld.empty } else { y with pieces := ps }
/-- Nothing is left on a core: its memory is overwritten. -/
def Core.clear (x : Core) : Core :=
  { x.start [] with moving := false, ram := OpHeld.empty, out := none, got := none }

/-! ## Tamper alarms -/

/-- Source `src` can alarm: not disabled by fuse (R431), enabled (R433), armed (R425). -/
def State.tamperOn (s : State) (src : Nat) : Bool :=
  !s.tamper.eff.getLsbD src &&
    (if src < 13 then bit (s.cfgN 0xB80004) src && s.tamper.armed.getLsbD src
     else bit (s.cfgN 0xBC0004) (src - 13) && (s.backup.aux || s.backup.vbat))

/-- TAMPER_LAST (Table 19.6). -/
def lastWord (src : Nat) (a b onVbat : Bool) : Word :=
  BitVec.ofNat 32 (2 ^ 31 + b2n b * 2 ^ 21 + b2n a * 2 ^ 20 + b2n onVbat * 2 ^ 19 + src)

/-- An alarm latches TAMPER_LAST and its RTC value; of alarms not yet sampled the lower source stays named (R430). -/
def State.latchTamper (s : State) (src : Nat) (a b : Bool) : State :=
  if s.faults.reports.any (fun r => 480 ≤ r.source.val && decide (r.source.val < 480 + src)) then s else
  { s with backup := { s.backup with now := { s.backup.now with
      last := lastWord src a b (!s.backup.aux), lastRtc := s.backup.now.rtc } } }

/-- An alarm of sources 0–10 (R427): TAMPER_LAST is written and the fault source raised. -/
def State.alarm (s : State) (src : Nat) (a b : Bool) : State :=
  if s.tamperOn src then (s.latchTamper src a b).raise (480 + src) 0 0 0 else s

/-- A permissive decision whose takings disagree is refused: MISMATCH(k) counts and source 10 alarms (R426). -/
def State.mismatch (s : State) (k : Nat) : State :=
  let t := { s.tamper with mismatch := cput s.tamper.mismatch k (satInc 32 (cget s.tamper.mismatch k)) }
  ({ s with tamper := t }).alarm 10 true true

end Sys2Proof.Machine
end

