-- ==== Sys2Proof/Machine/Params.lean ====
section
/-! DEFINITION. The parameter sets of the crypto pools with their sizes and charges (Tables 4.4, 4.5, 11.2, 11.7, 12.1, 12.5),
the digest algorithms (Table 13.3) and the key-slot types (Table 15.1). -/

namespace Sys2Proof.Machine

/-- A parameter set. `ops` bits: 0 keygen, 1 encaps, 2 decaps, 3 sign, 4 verify, 5 raw RSA private, 6 agreement. `out` is the
ciphertext or signature or output length, `ss` the shared secret's; `priv` cycles for each of `stages` stages of the secret
operation, `cb` bytes of its carry buffer. -/
structure PSet where
  pool : Nat
  ops : Nat
  pub : Nat
  sec : Nat
  out : Nat
  ss : Nat
  gen : Nat
  open_ : Nat
  stages : Nat
  priv : Nat
  seed : Nat
  cb : Nat
deriving DecidableEq, Repr

def ps (pool ops pub sec out ss gen open_ stages priv seed cb : Nat) : Option PSet :=
  some { pool, ops, pub, sec, out, ss, gen, open_, stages, priv, seed, cb }

/-- Sets of the lattice, hash-signature and code engines (Table 11.2). -/
def psetPq : Nat → Option PSet
  | 0x01 => ps 0 7 800 1632 768 32 10000 8000 1 13000 64 0
  | 0x02 => ps 0 7 1184 2400 1088 32 16000 12000 1 20000 64 0
  | 0x03 => ps 0 7 1568 3168 1568 32 24000 18000 1 30000 64 0
  | 0x11 => ps 0 25 1312 2560 2420 0 9000 10000 1 0 32 0
  | 0x12 => ps 0 25 1952 4032 3309 0 14000 15000 1 0 32 0
  | 0x13 => ps 0 25 2592 4896 4627 0 22000 24000 1 0 32 0
  | 0x21 => ps 1 24 32 64 7856 0 0 20000 6 1538462 0 8960
  | 0x22 => ps 1 24 32 64 7856 0 0 20000 6 1538462 0 8960
  | 0x23 => ps 1 24 32 64 17088 0 0 48000 1 480000 0 0
  | 0x24 => ps 1 24 32 64 17088 0 0 48000 1 480000 0 0
  | 0x25 => ps 1 24 48 96 16224 0 0 30000 8 1750000 0 17344
  | 0x26 => ps 1 24 48 96 16224 0 0 30000 8 1750000 0 17344
  | 0x27 => ps 1 24 48 96 35664 0 0 72000 1 800000 0 0
  | 0x28 => ps 1 24 48 96 35664 0 0 72000 1 800000 0 0
  | 0x29 => ps 1 24 64 128 29792 0 0 44000 8 1800000 0 30912
  | 0x2A => ps 1 24 64 128 29792 0 0 44000 8 1800000 0 30912
  | 0x2B => ps 1 24 64 128 49856 0 0 96000 1 1600000 0 0
  | 0x2C => ps 1 24 64 128 49856 0 0 96000 1 1600000 0 0
  | 0x31 => ps 1 16 0 0 0 0 0 0 1 0 0 0
  | 0x32 => ps 1 16 0 0 0 0 0 0 1 0 0 0
  | 0x33 => ps 1 16 68 0 0 0 0 0 1 0 0 0
  | 0x34 => ps 1 16 68 0 0 0 0 0 1 0 0 0
  | 0x41 => ps 2 7 2249 2305 4433 64 10000 14000 1 20000 64 0
  | 0x42 => ps 2 7 4522 4586 8978 64 20000 28000 1 40000 64 0
  | 0x43 => ps 2 7 7245 7317 14421 64 34000 46000 1 66000 64 0
  | 0x51 => ps 2 6 261120 6492 96 32 0 8000 1 100000 0 0
  | 0x52 => ps 2 6 524160 13608 156 32 0 14000 1 160000 0 0
  | 0x53 => ps 2 6 1044992 13932 208 32 0 30000 1 320000 0 0
  | 0x54 => ps 2 6 1047319 13948 194 32 0 30000 1 320000 0 0
  | 0x55 => ps 2 6 1357824 14120 208 32 0 34000 1 360000 0 0
  | _ => none
/-- Sets of the big-number engine (Table 12.1). -/
def psetBn : Nat → Option PSet
  | 0x61 => ps 3 56 256 644 256 0 0 12000 1 1200000 0 0
  | 0x62 => ps 3 56 384 964 384 0 0 26667 2 1714286 0 1024
  | 0x63 => ps 3 56 512 1284 512 0 0 46000 5 1600000 0 1536
  | 0x64 => ps 3 16 1024 0 1024 0 0 180000 1 0 0 0
  | 0x71 => ps 3 25 64 32 64 0 160000 200000 1 160000 48 0
  | 0x72 => ps 3 25 96 48 96 0 420000 533334 1 420000 64 0
  | 0x73 => ps 3 25 132 66 132 0 950000 1200000 1 950000 80 0
  | 0x81 => ps 3 25 32 32 64 0 110000 133334 1 110000 32 0
  | 0x82 => ps 3 25 57 57 114 0 320000 400000 1 320000 64 0
  | 0x91 => ps 3 65 32 32 32 0 109091 0 1 109091 32 0
  | 0x92 => ps 3 65 56 56 56 0 330000 0 1 330000 56 0
  | _ => none
def pset (n : Nat) : Option PSet := if n < 0x60 then psetPq n else psetBn n

/-- ML-DSA: Q, F, 100 E and 100 K of Table 4.5. -/
structure SignK where
  q : Nat
  f : Nat
  e : Nat
  k : Nat
deriving DecidableEq, Repr
def signK : Nat → Option SignK
  | 0x11 => some { q := 11200, f := 1600, e := 425, k := 2230 }
  | 0x12 => some { q := 15700, f := 2000, e := 510, k := 2744 }
  | 0x13 => some { q := 22400, f := 2800, e := 385, k := 1988 }
  | _ => none

/-- Attempt budget A = ⌈N × E + K × √N⌉ (R102): the least integer that is not below the sum, found with
100 N E and (100 K √N)² exactly. -/
def SignK.budget (c : SignK) (n : Nat) : Nat := cdiv (n * c.e + csqrt (c.k * c.k * n)) 100
/-- Slots of the fixed parts. -/
def SignK.fixed (c : SignK) (n : Nat) : Nat := cdiv (n * c.f) c.q

/-- A digest algorithm (Table 13.3): block or rate, most blocks in one part, digest length (0 for SHAKE), cycles for a block. -/
structure DigAlg where
  block : Nat
  pmax : Nat
  digest : Nat
  cc : Nat
  keccak : Bool
deriving DecidableEq, Repr
def digAlg : Nat → Option DigAlg
  | 1 => some { block := 64, pmax := 65536, digest := 32, cc := 24, keccak := false }
  | 2 => some { block := 128, pmax := 32768, digest := 48, cc := 30, keccak := false }
  | 3 => some { block := 128, pmax := 32768, digest := 64, cc := 30, keccak := false }
  | 4 => some { block := 136, pmax := 20480, digest := 32, cc := 72, keccak := true }
  | 5 => some { block := 72, pmax := 20480, digest := 64, cc := 72, keccak := true }
  | 6 => some { block := 168, pmax := 20480, digest := 0, cc := 72, keccak := true }
  | 7 => some { block := 136, pmax := 20480, digest := 0, cc := 72, keccak := true }
  | _ => none

/-- A key-slot type (Table 15.1): least and most secret bytes, public bytes, extra bytes. -/
structure KType where
  smin : Nat
  smax : Nat
  pub : Nat
  extra : Nat
deriving DecidableEq, Repr
def kt (smin smax pub extra : Nat) : Option KType := some { smin, smax, pub, extra }
def kType (t : Nat) : Option KType :=
  match t with
  | 0xA1 => kt 32 32 0 0
  | 0xB1 => kt 32 64 0 64
  | 0xB2 => kt 32 128 0 128
  | 0xB3 => kt 32 128 0 128
  | 0xB4 => kt 32 136 0 400
  | 0xB5 => kt 32 72 0 400
  | 0xC1 => kt 32 32 0 0
  | 0xC2 => kt 64 64 0 0
  | _ =>
    if 0x31 ≤ t ∧ t ≤ 0x34 then none else
    match pset t with
    | none => none
    | some p => kt p.sec p.sec (if 0x51 ≤ t ∧ t ≤ 0x55 then 48 else p.pub) 0

/-- The device generates keys of this type (Tables 11.2 and 12.1, G). -/
def canGen (t : Nat) : Bool := match pset t with | some p => bit p.ops 0 | none => false

/-! ## Crypto batches (Tables 11.3, 11.4, 12.2) -/

/-- What an operation does. -/
inductive CryptoOp where
  | keygen | encaps | decaps | sign | verify | rsa | agree
deriving DecidableEq, Repr
def cryptoOp : Nat → Option CryptoOp
  | 0x0200 => some .keygen
  | 0x0201 => some .encaps
  | 0x0202 => some .decaps
  | 0x0203 => some .sign
  | 0x0204 => some .verify
  | 0x0300 => some .keygen
  | 0x0301 => some .sign
  | 0x0302 => some .verify
  | 0x0303 => some .rsa
  | 0x0304 => some .agree
  | _ => none
/-- Bit of `PSet.ops` that offers the operation. -/
def CryptoOp.bitNo : CryptoOp → Nat
  | .keygen => 0
  | .encaps => 1
  | .decaps => 2
  | .sign => 3
  | .verify => 4
  | .rsa => 5
  | .agree => 6

/-- p, w, n and checksum shift of an LM-OTS type, n and h of an LMS type (SP 800-208, PRESUMED, log entry 4). -/
def lmotsP (t : Nat) : Nat := nth [0, 265, 133, 67, 34, 200, 101, 51, 26, 265, 133, 67, 34, 200, 101, 51, 26] t 0
def lmotsW (t : Nat) : Nat := if t = 0 then 0 else nth [1, 2, 4, 8] ((t - 1) % 4) 0
def lmotsN (t : Nat) : Nat := if (5 ≤ t ∧ t ≤ 8) ∨ (13 ≤ t ∧ t ≤ 16) then 24 else 32
def lmotsLs (t : Nat) : Nat := if t = 0 then 0 else nth [if lmotsN t = 24 then 8 else 7, 6, 4, 0] ((t - 1) % 4) 0
def lmsN (t : Nat) : Nat := if (10 ≤ t ∧ t ≤ 14) ∨ (20 ≤ t ∧ t ≤ 24) then 24 else 32
def lmsH (t : Nat) : Nat := if 5 ≤ t ∧ t ≤ 24 then 5 + 5 * ((t - 5) % 5) else 0
/-- Layers and height of one layer of an XMSS or XMSS^MT OID with n = 32 (SP 800-208, PRESUMED, log entry 4). -/
def xmssShape (mt : Bool) (oid : Nat) : Nat × Nat :=
  if mt then
    let k := if 1 ≤ oid ∧ oid ≤ 8 then oid else if 0x29 ≤ oid ∧ oid ≤ 0x30 then oid - 0x28 else 0
    nth [(0, 0), (2, 10), (4, 5), (2, 20), (4, 10), (8, 5), (3, 20), (6, 10), (12, 5)] k (0, 0)
  else
    let k := if 1 ≤ oid ∧ oid ≤ 3 then oid else if 0x10 ≤ oid ∧ oid ≤ 0x12 then oid - 0xF else 0
    nth [(0, 0), (1, 10), (1, 16), (1, 20)] k (0, 0)

/-- Levels, charge of one level, public-key and signature bytes of a stateful hash-signature batch; none where the option
is not offered. The layers of an XMSS^MT key are those of its OID, whatever LEVELS says, 12 of them included (DESIGN CHOICE, log
entry 107). -/
structure Stateful where
  levels : Nat
  cc : Nat
  pub : Nat
  sig : Nat
deriving DecidableEq, Repr
def stateful (set levels param : Nat) : Option Stateful :=
  if set = 0x31 ∨ set = 0x32 then
    let lms := param % 2 ^ 32
    let ots := param / 2 ^ 32
    let n := lmsN lms
    let p := lmotsP ots
    let no := lmotsN ots
    let one := 4 + (4 + no + p * no) + 4 + lmsH lms * n
    let l := if set = 0x31 then 1 else levels
    if lmsH lms = 0 ∨ p = 0 ∨ l = 0 ∨ l > 8 then none else
    some { levels := l, cc := 4000 + 40 * (p * (2 ^ lmotsW ots - 1) + lmsH lms)
           pub := if set = 0x31 then 24 + n else 28 + n
           sig := if set = 0x31 then one else 4 + l * one + (l - 1) * (24 + n) }
  else if set = 0x33 ∨ set = 0x34 then
    let (d, h) := xmssShape (set == 0x34) (param % 2 ^ 32)
    if d = 0 then none else
    some { levels := d, cc := 4000 + 120 * (67 * 15 + h), pub := 68
           sig := if set = 0x33 then 4 + 32 + (67 + h) * 32 else cdiv (d * h) 8 + 32 + (67 * d + d * h) * 32 }
  else none

/-- Fields of the batch block (Table 11.4). -/
def bN (b : Bytes) : Nat := rd b 0 4
def bSet (b : Bytes) : Nat := rd b 4 1
def bHost (b : Bytes) : Bool := bit (rd b 5 1) 0
def bLevels (b : Bytes) : Nat := rd b 6 1
def bParam (b : Bytes) : Nat := rd b 8 8
def bEntries (b : Bytes) : Nat := rd b 0x10 8
def bResult (b : Bytes) : Nat := rd b 0x18 8
def bCarry (b : Bytes) : Nat := rd b 0x20 8
def bMax0 (b : Bytes) : Nat := rd b 0x28 4
def bMax1 (b : Bytes) : Nat := rd b 0x2C 4

/-! ## Operation entries (Table 11.5) -/

def eIn0 (e : Bytes) : Nat := rd e 0 8
def eIn1 (e : Bytes) : Nat := rd e 8 8
def ePk (e : Bytes) : Nat := rd e 0x10 8
def eOut (e : Bytes) : Nat := rd e 0x18 8
def eLen0 (e : Bytes) : Nat := rd e 0x20 4
def eLen1 (e : Bytes) : Nat := rd e 0x24 4
def eSlot (e : Bytes) : Nat := rd e 0x28 2
def eForm (e : Bytes) : Nat := rd e 0x2A 1
def eHash (e : Bytes) : Nat := fld (eForm e) 4 2
def eCtxLen (e : Bytes) : Nat := rd e 0x2B 1
def eCtx (e : Bytes) : Nat := rd e 0x30 8

def isMlKem (set : Nat) : Bool := decide (1 ≤ set) && decide (set ≤ 3)
def isMlDsa (set : Nat) : Bool := decide (0x11 ≤ set) && decide (set ≤ 0x13)
def isSlh (set : Nat) : Bool := decide (0x21 ≤ set) && decide (set ≤ 0x2C)
def isLayered (set : Nat) : Bool := decide (0x31 ≤ set) && decide (set ≤ 0x34)
def isRsa (set : Nat) : Bool := decide (0x61 ≤ set) && decide (set ≤ 0x64)
def isEcdsa (set : Nat) : Bool := decide (0x71 ≤ set) && decide (set ≤ 0x73)
def isEddsa (set : Nat) : Bool := set == 0x81 || set == 0x82

/-- Fields of the digest batch block (Table 13.1). -/
def gAlg (b : Bytes) : Nat := rd b 4 1
def gHost (b : Bytes) : Bool := bit (rd b 5 1) 0
def gKey (b : Bytes) : Nat := rd b 6 1
def gMaxLen (b : Bytes) : Nat := rd b 0x20 8
def gMaxFrag (b : Bytes) : Nat := rd b 0x28 4
def gOutLen (b : Bytes) : Nat := rd b 0x2C 4
def gSlot (b : Bytes) : Nat := rd b 0x30 2

/-- Fields of a message entry (Table 13.2). -/
def mFrags (e : Bytes) : Nat := rd e 0 8
def mNfrag (e : Bytes) : Nat := rd e 8 4
def mMode (e : Bytes) : Nat := rd e 0xC 1
def mLen (e : Bytes) : Nat := rd e 0x10 8
def mStateIn (e : Bytes) : Nat := rd e 0x18 8
def mStateOut (e : Bytes) : Nat := rd e 0x20 8
def mOut (e : Bytes) : Nat := rd e 0x28 8

end Sys2Proof.Machine
end

