-- ==== Sys2Proof/Machine/Begin.lean ====
section
/-! DEFINITION. How an operation begins on a core or a unit on a digest pipeline: the random streams, the uses of key slots, the inputs, and
what the operand RAM or the context then holds (R264–R266, R275, R277, R282, R294, R297, R315, R331, R338, R339, R341). -/

namespace Sys2Proof.Machine

/-! ## AES-256 CTR_DRBG without derivation function (R264; SP 800-90A, PRESUMED, log entry 114) -/

/-- `n` blocks of key stream after counter `v`, and the counter. -/
def drbgBlocks (key : Bytes) : Nat → Bytes → Bytes × Bytes
  | 0, v => ([], v)
  | n + 1, v =>
    let v := toBe 16 (beNat v + 1)
    let r := drbgBlocks key n v
    (aesBlock key v ++ r.1, r.2)
/-- Mix 48 bytes into the state. -/
def Stream.update (x : Stream) (seed : Bytes) : Stream :=
  let t := xorBytes (drbgBlocks (fitB x.key 32) 3 (fitB x.v 16)).1 (fitB seed 48)
  { x with key := t.take 32, v := t.drop 32 }
/-- One request for `n` bytes. -/
def Stream.generate (x : Stream) (n : Nat) : Bytes × Stream :=
  let r := drbgBlocks (fitB x.key 32) (cdiv n 16) (fitB x.v 16)
  (r.1.take n, { x with v := r.2 }.update [])
/-- `n` bytes of stream `k`, in one request. -/
def State.streamBytes (s : State) (k n : Nat) : Bytes × State :=
  let r := (s.stream k).generate n
  (r.1, s.setStream k r.2)
/-- Stream `k` has given an amount of bytes that the spec does not state: where it stands is free (log entry 114). -/
def State.streamMoved (s : State) (k : Nat) : State :=
  let (b, s) := s.drawBytes 48
  s.setStream k { s.stream k with key := b.take 32, v := b.drop 32 }
/-- A stream's reseed is served with 48 bytes: it runs, nothing is overdue. -/
def State.reseeded (s : State) (k : Nat) (seed : Bytes) : State :=
  s.setStream k { (s.stream k).update seed with running := true, due := none }

/-! ## The allotment -/

def State.modSeed (s : State) (g : Seedbank → Seedbank) : State := { s with seed := g s.seed }
/-- Take `n` bytes of the allotment, when it holds them. -/
def State.takeAllot (s : State) (n : Nat) : Option (Bytes × State) :=
  if s.seed.allot.length < n then none else
  some (s.seed.allot.take n, s.modSeed (fun b => { b with
    allot := b.allot.drop n, delivered := b.delivered + BitVec.ofNat 64 n }))

/-! ## Uses of key slots -/

def State.modKeys (s : State) (g : KeyStore → KeyStore) : State := { s with keys := g s.keys }
/-- Policy bits (R338). -/
def polSign : Nat := 1
def polVerify : Nat := 2
def polKem : Nat := 4
def polSeal : Nat := 16
def polHmac : Nat := 32
def polWrap : Nat := 64

/-- The owner rule of R339. -/
def KSlot.ownedBy (k : KSlot) (inst : Nat) : Bool := k.owner == inst || k.owner == 511 || inst == 0

/-- A use of slot `n` by instance `inst` that needs the policy bits `need`: owner first, then policy, then the cells (R339,
R338, R344). Only a LIVE slot that is not waiting for a reload serves it. -/
def State.keyFor (s : State) (n inst need : Nat) : Option KSlot :=
  let k := s.slot n
  if decide (n < 16384) && k.state = 2 && k.ownedBy inst && k.policy.toNat &&& need = need && !k.reload && !k.bad &&
      !s.tamper.keySplit then some k
  else none
/-- A cell check failed: KS_CELL, and the slot waits for a reload (R344). -/
def State.cellFails (s : State) (n : Nat) : State :=
  if (s.slot n).state = 0 then s else
  ((s.modSlot n (fun k => { k with reload := true })).modKeys (fun k =>
    { k with cellErr := satInc 32 k.cellErr })).raise 304 0 0 0
/-- What such a use does besides: a decision whose takings disagree is counted and alarms (R426); the cells it reads are checked once owner
and policy have passed (R344). -/
def State.cellCheck (s : State) (n inst need : Nat) : State :=
  let k := s.slot n
  if s.tamper.keySplit then ({ s with tamper := { s.tamper with keySplit := false } }).mismatch 2
  else if decide (n < 16384) && k.state = 2 && k.ownedBy inst && k.policy.toNat &&& need = need && !k.reload && k.bad then s.cellFails n else s

/-- A change of a slot. -/
def applyEdit (m : SMap KSlot) (e : Nat × KEdit) : SMap KSlot :=
  let d := fun _ => KSlot.empty
  match e.2 with
  | .put k => mput d m e.1 k
  | .restrict p => mput d m e.1 { mget d m e.1 with policy := (mget d m e.1).policy &&& p }

/-- The live table with every pending change applied. -/
def State.projected (s : State) : SMap KSlot :=
  s.keys.pend.foldl (fun m c => c.sets.foldl applyEdit m) s.keys.slots

/-- A keygen of type `t` by instance `inst` may fill slot `n` of a table (Table 15.2). -/
def armedIn (m : SMap KSlot) (n t inst : Nat) : Bool :=
  let k := mget (fun _ => KSlot.empty) m n
  decide (n < 16384) && k.state = 1 && k.type = t && k.ownedBy inst
/-- The same in the projected table (R341). -/
def State.armedFor (s : State) (n t inst : Nat) : Bool := armedIn s.projected n t inst
def keyNeed : CryptoOp → Nat
  | .sign => polSign
  | .verify => polVerify
  | _ => polKem
/-- The slot that a secret operation, or a verify from a slot, loads; none where the load is refused. -/
def State.opKey (s : State) (inst set slot : Nat) (op : CryptoOp) : Option KSlot :=
  match s.keyFor slot inst (keyNeed op) with
  | some k => if k.type = set then some k else none
  | none => none
/-- The key slot of a message: KEY = 2 only for the manager; HMAC policy and a key of ALG (R314, R315). -/
def State.hmacKey (s : State) (b : Bytes) (inst : Nat) : Option Bytes :=
  if gKey b % 4 = 0 then some []
  else if gKey b % 4 = 2 ∧ inst ≠ 0 then none
  else match s.keyFor (gSlot b) inst polHmac with
    | some k => if k.type = 0xB0 + gAlg b then some k.secret else none
    | none => none

/-! ## Operations of the batch opcodes (Tables 11.5, 11.6, 12.3) -/

/-- Address of CTL of a pool (Tables 11.9, 12.6). -/
def poolBase (pool : Nat) : Nat := nth [0x600000, 0x680000, 0x6C0000, 0x700000] pool 0
/-- DETERMINISTIC, unless HEDGE_ONLY (R279, R292). -/
def State.isDet (s : State) (pool : Nat) (e : Bytes) : Bool := bit (eForm e) 2 && !bit (s.liveN (poolBase pool + 4)) 0
/-- DRBG streams that an operation needs on core `c` of its pool (Tables 11.1 and 11.6). -/
def streamsFor (pool c : Nat) (op : CryptoOp) (det : Bool) : List Nat :=
  match pool with
  | 0 => (if op == .keygen || op == .decaps || op == .sign then [c] else []) ++
      (if op == .encaps || (op == .sign && !det) then [16 + c] else [])
  | 1 => if op == .sign && !det then [32 + c] else []
  | 2 => if op == .encaps then [36 + c] else []
  | _ => if op == .verify then [] else [38 + c]
def State.streamsOk (s : State) (ks : List Nat) : Bool := ks.all (fun k => (s.stream k).running)
/-- The value stream of a core. -/
def valueStream (pool c : Nat) : Nat := nth [16, 32, 36, 38] pool 0 + c
/-- Bytes of the hash that bits [5:4] of FORM name. -/
def hashLen (h : Nat) : Nat := nth [32, 48, 64, 0] h 0
/-- Blinding of an RSA operation: r of modulus length, and two 8-byte exponent multiples (R297, Table 12.3). -/
def State.rsaBlind (s : State) (k n : Nat) : State := (((s.streamBytes k n).2.streamBytes k 8).2.streamBytes k 8).2
/-- `n` bytes of stream `v` where `on`. -/
def State.streamIf (s : State) (on : Bool) (v n : Nat) : Bytes × State := if on then s.streamBytes v n else ([], s)
/-- `n` random bytes, where the spec does not state how many its stream gives in all. -/
def State.freeRandom (s : State) (v n : Nat) : Bytes × State := ((s.drawBytes n).1, (s.drawBytes n).2.streamMoved v)
/-- Random bytes of a signature; `sec` gives SLH-DSA its PK.seed. -/
def State.signRandom (s : State) (set : Nat) (p : PSet) (v : Nat) (det : Bool) (e sec : Bytes) : Bytes × State :=
  if isMlDsa set then (if det then (zeros 32, s) else s.streamBytes v 32)
  else if isSlh set then (if det then (slice sec (p.sec / 2) (p.sec / 4), s) else s.streamBytes v (p.sec / 4))
  else if isRsa set then
    let r := s.streamIf (eForm e % 4 == 1) v (hashLen (eHash e))
    (r.1, r.2.rsaBlind v p.pub)
  else if isEcdsa set then (if det then ([], s.streamMoved v) else s.freeRandom v (p.sec + 8))
  else ([], s.streamMoved v)
/-- Random bytes that an operation draws from its value stream `v` at its start (Tables 11.6 and 12.3); amounts that the spec does not
state leave the stream at a free place. -/
def State.opRandom (s : State) (op : CryptoOp) (set : Nat) (p : PSet) (v : Nat) (det : Bool) (e sec : Bytes) : Bytes × State :=
  match op with
  | .keygen => if p.pool = 3 then ([], s.streamMoved v) else ([], s)
  | .encaps => if isMlKem set then s.streamBytes v 32 else s.freeRandom v 64
  | .sign => s.signRandom set p v det e sec
  | .rsa => ([], s.rsaBlind v p.pub)
  | .agree => ([], s.streamMoved v)
  | _ => ([], s)
/-- Masking order 1 (Table 11.6). -/
def masked (pool : Nat) (op : CryptoOp) : Bool := pool == 0 && (op == .keygen || op == .decaps || op == .sign)

/-- An operand of `n` bytes, read where `on`. -/
def State.readIf (s : State) (on host : Bool) (a n : Nat) : Bytes × State := if on then s.memRead host a n else ([], s)
/-- A verify whose public key stands in memory. -/
def pubInMem (op : CryptoOp) (e : Bytes) : Bool := op == .verify && eSlot e == 0xFFFF
/-- Operation `i` of a batch reads its entry and its inputs (R294, Table 11.5); a length above its limit is not read. -/
def State.opReads (s : State) (j : Job) (op : CryptoOp) (pub i : Nat) : OpHeld × State :=
  let b := j.param
  let h := bHost b
  let r := s.hbmRead (bEntries b + 64 * i) 64
  let e := r.1
  let r0 := r.2.readIf (op != .keygen && op != .encaps && decide (eLen0 e ≤ bMax0 b)) h (eIn0 e) (eLen0 e)
  let r1 := r0.2.readIf ((op == .encaps || op == .verify) && decide (eLen1 e ≤ bMax1 b)) h (eIn1 e) (eLen1 e)
  let r2 := r1.2.readIf (op == .sign || op == .verify) h (eCtx e) (eCtxLen e)
  let r3 := r2.2.readIf (pubInMem op e) h (ePk e) pub
  ({ OpHeld.empty with entry := e, in0 := r0.1, in1 := r1.1, ctx := r2.1, pub := r3.1 }, r3.2)
/-- The seed of a keygen, from the allotment; none where it does not hold it. Another operation takes none. -/
def State.seedFor (s : State) (op : CryptoOp) (n : Nat) : Option Bytes × State :=
  if op != .keygen then (some [], s) else
  match s.takeAllot n with
  | some (b, t) => (some b, t)
  | none => (none, s)
/-- The mask of a secret that is held in two shares (R277); its stream gives an amount that the spec does not state. -/
def State.maskFor (s : State) (on : Bool) (c n : Nat) : Bytes × State :=
  if on then ((s.drawBytes n).1, (s.drawBytes n).2.streamMoved c) else (zeros n, s)
/-- Operation `i` of a batch begins on core `c`: it reads its entry and its inputs, loads its key and draws its randomness (R275, R277,
R294, R331). A keygen takes its seed from the allotment; its secret is the seed. -/
def State.opBegin (s : State) (j : Job) (op : CryptoOp) (set : Nat) (p : PSet) (pub c i : Nat) : OpHeld × State :=
  let x := (s.opReads j op pub i).1
  let s := (s.opReads j op pub i).2
  let e := x.entry
  let fromMem := op == .encaps || pubInMem op e
  let det := s.isDet p.pool e
  let key := if fromMem then some { KSlot.empty with pub := x.pub }
    else if op == .keygen then (if armedIn s.keys.slots (eSlot e) set j.inst then some KSlot.empty else none)
    else s.opKey j.inst set (eSlot e) op
  let runs := s.streamsOk (streamsFor p.pool c op det)
  let fed := s.seedFor op p.seed
  let s := if fromMem || op == .keygen then fed.2 else fed.2.cellCheck (eSlot e) j.inst (keyNeed op)
  let k := key.getD KSlot.empty
  let sec := if op == .keygen then fed.1.getD [] else if op == .verify then [] else k.secret
  let r := if runs then s.opRandom op set p (valueStream p.pool c) det e k.secret else ([], s)
  let m := r.2.maskFor (masked p.pool op && runs) c sec.length
  ({ x with
      fail := if key.isNone then 0x21 else if !(runs && fed.1.isSome) then 0x13 else 0
      pub := k.pub
      share0 := xorBytes sec m.1
      share1 := m.1
      rnd := r.1 }, m.2)

/-! ## Carry buffers (R282, R283) -/

/-- The bytes of a carry buffer of `cb` bytes: the state under AES-256-GCM with the job's carry key, bound to the job's carry identifier, the
operation and the stage. -/
def Carry.bytes (x : Carry) (key : Bytes) (carryId cb : Nat) : Bytes :=
  let h := x.state
  let plain := fitB (Config.carryPlain [toLe 1 h.fail, h.entry, h.in0, h.in1, h.ctx, h.pub, h.share0, h.share1, h.rnd]) (cb - 28)
  let (ct, tag) := gcmSeal key x.iv (toLe 8 carryId ++ toLe 4 x.op ++ toLe 1 x.stage) plain
  fitB (Config.carryArrange x.iv tag ct) cb
/-- Stage `k` of operation `i` writes its carry buffer at `a`, under a fresh IV. -/
def State.carryOut (s : State) (j : Job) (a cb i k : Nat) (x : OpHeld) : State :=
  let c : Carry := { op := i, stage := k, iv := (s.drawBytes 12).1, state := x }
  ((s.drawBytes 12).2.hbmWrite a (c.bytes j.carryKey j.carryId cb)).modJob j.id (fun j => { j with carries := j.carries ++ [c] })
/-- Read the carry buffer that stage `k` of operation `i` wrote: any run of that unit may have written it; none where it fails. -/
def State.carryIn (s : State) (j : Job) (a cb i k : Nat) : Option OpHeld × State :=
  let fits := fun (c : Carry) => c.op == i && c.stage == k && !j.carryKey.isEmpty && c.bytes j.carryKey j.carryId cb == (s.hbmRead a cb).1
  ((j.carries.find? fits).map (·.state), (s.hbmRead a cb).2)
/-- An operation whose carry buffer failed runs on zero state. -/
def OpHeld.lost : OpHeld := { OpHeld.empty with fail := 0x20 }

/-! ## State records of the digest engine (R310, R311) -/

/-- A chaining value as bytes: SHA-2 words big-endian, Keccak lanes little-endian. -/
def digestInit (alg : Nat) : Bytes :=
  match alg with
  | 1 => sha256Init.flatMap (fun x => toBe 4 x.toNat)
  | 2 => sha384Init.flatMap (fun x => toBe 8 x.toNat)
  | 3 => sha512Init.flatMap (fun x => toBe 8 x.toNat)
  | _ => zeros 200

def recSlot (b : Bytes) : Nat := if gKey b % 4 = 0 then 0xFFFF else gSlot b
/-- Head of a record: its additional data. -/
def recHead (b : Bytes) (bytes inst : Nat) (iv : Bytes) : Bytes :=
  toLe 4 0x4B564453 ++ toLe 1 (gAlg b) ++ toLe 1 (gKey b % 4) ++ toLe 2 (recSlot b) ++ toLe 8 bytes ++ fitB iv 12 ++ toLe 2 inst ++ zeros 2
def recWrite (key b : Bytes) (bytes inst : Nat) (iv st : Bytes) : Bytes :=
  let head := recHead b bytes inst iv
  let (ct, tag) := gcmSeal key (fitB iv 12) head (fitB st 256)
  head ++ tag ++ zeros 16 ++ ct
/-- BYTES and chaining value of a record that passes. -/
def recRead (key b r : Bytes) (inst : Nat) : Option (Nat × Bytes) :=
  let head := r.take 32
  if key.isEmpty || rd head 4 1 != gAlg b || rd head 5 1 != gKey b % 4 || rd head 6 2 != recSlot b || rd head 0x1C 2 != inst then none
  else (gcmOpen key (slice head 0x10 12) head (slice r 0x40 256) (slice r 0x20 16)).map (fun st => (rd head 8 8, st))

/-- Last part of a message (R307); a declared length above MAXLEN ends with the last stage. -/
def mLast (a : DigAlg) (n : Nat) (e : Bytes) : Nat := min (n - 1) (cdiv (mLen e) (a.pmax * a.block) - 1)
/-- Part `k` of message `i` begins on a pipeline: the first reads the entry and a state record, every later one its carry buffer; each loads
the slot again (R315, R321). The context's `in0` is the record, `in1` the chaining value, `rnd` the count of bytes absorbed. -/
def State.partReads (s : State) (j : Job) (a : DigAlg) (k i : Nat) : OpHeld × State :=
  let b := j.param
  let e := s.memPeek (gHost b) (rd b 8 8 + 64 * i) 64
  if k = 0 then
    let r := s.memRead (gHost b) (rd b 8 8 + 64 * i) 64
    let r0 := r.2.readIf (mMode r.1 == 2 || mMode r.1 == 3) (gHost b) (mStateIn r.1) 320
    ({ OpHeld.empty with entry := r.1, in0 := r0.1 }, r0.2)
  else if k > mLast a j.stages.length e then (OpHeld.empty, s)
  else
    let r := s.carryIn j (rd b 0x18 8 + 320 * i) 320 i (k - 1)
    match r.1 with
    | some x => (x, r.2)
    | none => ({ OpHeld.lost with entry := e }, { r.2 with digest := { r.2.digest with recFail := satInc 32 r.2.digest.recFail } })
/-- The same with the slot's key loaded. -/
def State.partBegin (s : State) (j : Job) (a : DigAlg) (k i : Nat) : OpHeld × State :=
  let b := j.param
  let x := (s.partReads j a k i).1
  let s := (s.partReads j a k i).2
  let t := if gKey b % 4 = 0 then s else s.cellCheck (gSlot b) j.inst polHmac
  match s.hmacKey b j.inst with
  | some key => ({ x with share0 := key, share1 := zeros key.length }, t)
  | none => ({ x with fail := if x.fail = 0 ∨ x.fail = 0x22 then 0x21 else x.fail }, t)

/-! ## What begins -/

def Job.working (j : Job) (i : Nat) : OpHeld := mget (fun _ => OpHeld.empty) j.work i
def State.setWork (s : State) (id i : Nat) (x : OpHeld) : State :=
  s.modJob id (fun j => { j with work := mput (fun _ => OpHeld.empty) j.work i x })

/-- Layers that the units of a batch stand for, one operation after the other. -/
def layersOf (j : Job) : Nat := match stateful (bSet j.param) (bLevels j.param) (bParam j.param) with | some st => st.levels | none => 1
/-- What unit `u` of stage `k` of a job holds at its start on core `c` of a pool. A layered verification and a staged operation begin once;
their later units go on with what the first has left. The parts of an ML-DSA signature begin where its fixed part runs (R280). -/
def State.unitBegins (s : State) (j : Job) (pool c k u : Nat) : OpHeld × State :=
  let set := bSet j.param
  match cryptoOp j.opcode, pset set with
  | some op, some p =>
    if p.pool ≠ pool ∨ (op = .sign ∧ isMlDsa set = true) then (OpHeld.empty, s)
    else if isLayered set then
      let i := u / layersOf j
      let x := j.working i
      if !x.entry.isEmpty then (x, s) else
      let pub := match stateful set (bLevels j.param) (bParam j.param) with | some st => st.pub | none => 0
      let r := s.opBegin j op set p pub c i
      (r.1, r.2.setWork j.id i r.1)
    else if (op = .sign ∨ op = .rsa) ∧ p.stages > 1 ∧ k > 0 then
      let r := s.carryIn j (bCarry j.param + u * p.cb) p.cb u (k - 1)
      match r.1 with
      | some x => (x, r.2)
      | none => (OpHeld.lost, r.2.modPool p.pool (fun x => { x with carryFail := satInc 32 x.carryFail }))
    else s.opBegin j op set p p.pub c u
  | _, _ => (OpHeld.empty, s)
/-- What the operation on core `k` starts with; the remainder of a split unit goes on with the state that has arrived (R90). -/
def State.coreHolds (s : State) (k : Nat) (e : Piece) : OpHeld × State :=
  if e.part = 2 then (((s.core k).got.map (·.2)).getD OpHeld.empty, s)
  else match s.job? e.job with
    | some j => s.unitBegins j (corePool k) (k - coreBase (corePool k)) e.stage e.unit
    | none => (OpHeld.empty, s)
/-- The operation that runs on core `k` begins, unless it has begun. -/
def State.coreBegins (s : State) (k : Nat) : State :=
  match (s.core k).head?, (s.core k).begun with
  | some e, false =>
    (s.coreHolds k e).2.modCore k (fun x => { x with begun := true, ram := (s.coreHolds k e).1, got := if e.part = 2 then none else x.got })
  | _, _ => s
/-- What the message part on pipeline `p` of a DIGEST job starts with. -/
def State.pipeHolds (s : State) (p : Nat) (e : Piece) : OpHeld × State :=
  if e.part = 2 then (((s.pipe p).got.map (·.2)).getD OpHeld.empty, s)
  else match s.job? e.job with
    | some j => (match (if j.opcode = 0x0400 then digAlg (gAlg j.param) else none) with
      | some a => s.partBegin j a e.stage e.unit
      | none => (OpHeld.empty, s))
    | none => (OpHeld.empty, s)
/-- The unit that runs on pipeline `p` begins, unless it has begun. -/
def State.pipeBegins (s : State) (p : Nat) : State :=
  match (s.pipe p).head?, (s.pipe p).begun with
  | some e, false =>
    (s.pipeHolds p e).2.modPipe p (fun x => { x with begun := true, ram := (s.pipeHolds p e).1, got := if e.part = 2 then none else x.got })
  | _, _ => s
/-- Whatever has come to run begins, core by core, then pipeline by pipeline (log entry 115). -/
def State.begins (s : State) : State :=
  (upTo 12).foldl State.pipeBegins ((upTo 30).foldl State.coreBegins s)

end Sys2Proof.Machine
end

