-- ==== Sys2Proof/Machine/Jobs.lean ====
section
/-! DEFINITION. The end of a job and what it takes with it, frames, unchecked conditions of the whole device (R26, R86, R100, R146, R174,
R238, R487, Table 25.1). -/

namespace Sys2Proof.Machine

/-- Take pieces off every core and pipeline, counting the wipes; the next operations begin. -/
def State.dropPieces (s : State) (q : Piece → Bool) : State :=
  let s := s.cores.foldl (fun s e =>
    if e.2.runs q then s.modPool (corePool e.1) (fun c => { c with wipes := satInc 32 c.wipes }) else s) s
  let n := (s.pipes.filter (fun e => e.2.runs q)).length
  { s with
    cores := mmap (fun _ => Core.init) (fun _ x => x.without q) s.cores
    pipes := mmap (fun _ => Core.init) (fun _ x => x.without q) s.pipes
    digest := { s.digest with wipes := satAdd 32 s.digest.wipes n } }.begins
/-- Stop a job's units everywhere: its slices and crypto pieces leave the sequencers. -/
def State.stopJob (s : State) (id : Nat) : State :=
  let s := s.dropPieces (fun e => e.job == id)
  { s with
    fields := mmap (fun _ => Field.init)
      (fun _ x => { x with slices := x.slices.filter (fun e => e.job != id) }) s.fields
    amus := mmap (fun _ => Amu.init) (fun _ x => { x with slices := x.slices.filter (fun e => e.job != id) }) s.amus }

def State.modCommons (s : State) (g : Commons → Commons) : State := { s with commons := g s.commons }
/-- Planes in service; `any` lets a member that is not joined send (R482). -/
def State.planesOut (s : State) (any : Bool) : List Nat :=
  (upTo 4).filter (fun k => s.commons.linkUp.getLsbD k && !s.commons.fenced.getLsbD k && !s.commons.retrained.getLsbD k &&
    (any || s.joined))
/-- COMMONS units of a frame (R100). -/
def WaitFrame.units (w : WaitFrame) : Nat := cdiv (w.payload.length + 70) 64
/-- Control and management frames (Table 23.2). -/
def WaitFrame.control (w : WaitFrame) : Bool := decide (3 ≤ w.kind)
/-- The port still has room for the frame in this swath: 781,250 units in all, 512 of control and management frames (R62, R476). -/
def Commons.room (c : Commons) (w : WaitFrame) : Bool :=
  decide (cget c.txNow w.port + w.units ≤ 781250) && (!w.control || decide (cget c.ctrlNow w.port + w.units ≤ 512)) &&
  !c.waiting.any (fun x => x.port == w.port && x.control == w.control)
/-- A frame leaves its port, or waits behind those that wait there. -/
def State.sendOn (s : State) (w : WaitFrame) : State :=
  let c := s.commons
  if c.room w then
    { s.emit (.frame w.port w.kind w.dst w.cjob w.slot w.off w.payload) with
      commons := { c with
        txNow := cadd c.txNow w.port w.units
        ctrlNow := if w.control then cadd c.ctrlNow w.port w.units else c.ctrlNow } }
  else { s with commons := { c with waiting := c.waiting ++ [w] } }
/-- A frame to member `dst` on the next plane in service, counted on its port (R100, R476, R489). A frame with no port to leave by
is lost. -/
def State.sendFrame (s : State) (any : Bool) (kind dst : Nat) (cjob : DWord) (slot off : Nat) (payload : Bytes) :
    State :=
  let ports := s.planesOut any
  match ports[s.commons.rot % max 1 ports.length]? with
  | none => s
  | some k => (s.modCommons (fun c => { c with rot := (c.rot + 1) % 4 })).sendOn { port := k, any, kind, dst, cjob, slot, off, payload }
/-- A frame that waited goes on by its port, or by another plane when that port has left service (R491). -/
def State.resend (s : State) (w : WaitFrame) : State :=
  let ports := s.planesOut w.any
  if ports.contains w.port then s.sendOn w
  else match ports[s.commons.rot % max 1 ports.length]? with
    | none => s
    | some k => (s.modCommons (fun c => { c with rot := (c.rot + 1) % 4 })).sendOn { w with port := k }
/-- Frames that wait on a port that is out of service move to the others (R491). -/
def State.movePlanes (s : State) : State :=
  let out := fun (w : WaitFrame) => !(s.planesOut w.any).contains w.port
  (s.commons.waiting.filter out).foldl State.resend
    (s.modCommons (fun c => { c with waiting := c.waiting.filter (fun w => !out w) }))
/-- A new swath frees the ports: control and management frames go ahead of the others, each kind in its order (R476). -/
def State.resendAll (s : State) : State :=
  let ws := s.commons.waiting
  let s := s.modCommons (fun c => { c with waiting := [], tx := c.txNow, txNow := [], ctrlNow := [] })
  (ws.filter WaitFrame.control ++ ws.filter (fun w => !w.control)).foldl State.resend s

/-- A receipt claim of a query that ended with OK (R178, R494): the spec gives the descriptor no place for the addresses and
lengths of the result region and the block list, so they are free values (log entry 1). The oldest of 16 is replaced. -/
def State.recordClaim (s : State) (j : Job) : State :=
  let (ra, s) := s.draw 37
  let (rl, s) := s.draw 32
  let (ba, s) := s.draw 37
  let (bl, s) := s.draw 32
  let c : Claim :=
    { tag := j.tag, gen := j.gen, digest := j.image.digest
      cert := match j.part with | some p => p.cert | none => rd j.desc 0x10 8
      a := j.a, deadline := j.deadline, finish := if j.finish = 0 then s.swnN else j.finish
      resAddr := ra, resLen := rl, blAddr := ba, blLen := bl }
  s.modInst j.inst (fun i => { i with claims := (if i.claims.length ≥ 16 then i.claims.drop 1 else i.claims) ++ [c] })

/-- Free bytes in every range of a list. -/
def State.blur (s : State) (rs : List (Nat × Nat)) : State :=
  rs.foldl (fun s r => let (b, s) := s.drawBytes r.2; s.hbmPoke r.1 b) s

/-! Fields of the ingest parameter block (Table 9.1) and of the schema behind it (R229). -/

def iBatch (b : Bytes) : Nat := rd b 0 8
def iOffsets (b : Bytes) : Nat := rd b 8 8
def iBlen (b : Bytes) : Nat := rd b 0x10 4
def iE (b : Bytes) : Nat := rd b 0x14 4
def iHost (b : Bytes) : Bool := bit (rd b 0x18 1) 0
def iScheme (b : Bytes) : Nat := rd b 0x19 1
def iMaxp (b : Bytes) : Nat := rd b 0x1A 2
def iAmu (b : Bytes) : Nat := rd b 0x1C 1 % 4
def iNfields (b : Bytes) : Nat := rd b 0x1D 1
def iListTag (b : Bytes) : Nat := rd b 0x1E 2
def iTable (b : Bytes) : Nat := rd b 0x20 8
def iTableN (b : Bytes) : Nat := rd b 0x28 4
def iWrapSlot (b : Bytes) : Nat := rd b 0x2C 2
def iKeySlot (b : Bytes) : Nat := rd b 0x2E 2
def iResult (b : Bytes) : Nat := rd b 0x30 8
def iWork (b : Bytes) : Nat := rd b 0x38 8
def iSchema (b : Bytes) : Nat := rd b 0x40 8
def iOut (b : Bytes) : Nat := rd b 0x48 8
def iBlist (b : Bytes) : Nat := rd b 0x50 8
def iBlockId0 (b : Bytes) : Nat := rd b 0x58 8
/-- The schema stands after the parameter block in what the decision read. -/
def iC (b : Bytes) : Nat := rd b 128 1
def iBrows (b : Bytes) : Nat := rd b 132 4
/-- Group size G (R230). -/
def iG (b : Bytes) : Nat := min (iBrows b) (iE b)
/-- 64-byte units of a work record. -/
def iW (b : Bytes) : Nat := cdiv (48 + iMaxp b) 64

/-- An ingest job that ends with a status other than OK leaves unpredictable contents in its result vector, work area, output blocks
and block list (R238). -/
def State.ingestEnd (s : State) (j : Job) (status : Nat) : State :=
  let b := j.param
  if status = 0 then s
  else if j.opcode = 0x0701 then s.blur [(iResult b, 16 * iE b)]
  else if j.opcode = 0x0700 then
    let n := cdiv (iE b) (max 1 (iG b)) * iC b
    s.blur ([(iResult b, 8 * iE b), (iWork b, 64 * iW b * iE b), (iBlist b, 32 * n)] ++
      (upTo n).map (fun i => (iOut b + 65600 * i, 65568)))
  else s

/-- What a job's end does beside its record: a staged handle (R146), an edit list (R251), a receipt claim (R178), the areas of an
ingest job (R238). A staging job's last unit leaves the image digest in its parameter bytes. -/
def State.jobCleanup (s : State) (j : Job) (status : Nat) : State :=
  if j.opcode = 0x0101 then
    let h := 16 * j.inst + rd j.desc 6 1 % 16
    let x := s.handle h
    if status = 0 then
      let addr := rd j.desc 0x18 8
      s.setHandle h { state := if x.state = 2 then 2 else 1, ready := true, c :=
        { addr, len := rd j.desc 0x58 4, nstage := rd (s.hbmPeek (addr + 7) 1) 0 1, nsect := rd (s.hbmPeek (addr + 12) 1) 0 1
          digest := j.param } }
    else if x.state = 1 && !x.ready && !s.adm.jobs.any (fun k => k.id != j.id && k.opcode == 0x0101 && !k.recorded && k.inst == j.inst &&
        rd k.desc 6 1 % 16 == rd j.desc 6 1 % 16) then s.setHandle h Handle.empty
    else s
  else if j.opcode = 0x0801 then
    { s with amus := mmap (fun _ => Amu.init) (fun _ u => { u with lists := u.lists.filter (fun l => l.job != j.id) }) s.amus }
  else if j.opcode = 0x0100 ∧ status = 0 ∧ bit (rd j.desc 2 2) 0 then s.recordClaim j
  else if j.opcode = 0x0700 ∨ j.opcode = 0x0701 then s.ingestEnd j status
  else s

/-- Index of the part that member `m` holds. -/
def partIx (members : List Nat) (m : Nat) : Nat := members.findIdx (· == m)
def State.modCJobs (s : State) (g : CJob → CJob) : State :=
  { s with commons := { s.commons with cjobs := s.commons.cjobs.map g } }

/-- The end of this member's part of a Commons job (R487): the coordinator keeps the status of its own part; another
member sends PART_DONE and drops the part. -/
def State.closePart (s : State) (j : Job) (p : Part) (status : Nat) (later : Bool) : State :=
  let flags := b2n j.trunc + 2 * b2n j.sat
  let s := if later then s else s.releaseJob j
  let s := s.stopJob j.id
  if s.commons.cjobs.any (fun c => c.job == j.id) then
    let s := s.modJob j.id (fun j => { j with status := some status, relPend := later })
    s.modCJobs (fun c => if c.job = j.id then
      { c with dones := mput (fun _ => (256, 0)) c.dones (partIx c.members p.coord) (status, flags) } else c)
  else
    let s := s.sendFrame false 7 p.coord p.cjob 0 0
      (toLe 1 status ++ toLe 1 flags ++ toLe 2 (min 0xFFFF j.rows.length) ++ zeros 4 ++
        toLe 8 (if j.finish = 0 then s.swnN else j.finish) ++ zeros 48)
    (s.modJob j.id (fun j => { j with recorded := true, relPend := later, status := some status })).sweepJobs

/-- A job ends with `status` (R26): its reservations fall, its DONE record is written and its ready event passed on. With `later` the
reservations fall at the next re-plan step, which passes the ready event on. -/
def State.closeJob (s : State) (id status : Nat) (later : Bool) : State :=
  match s.job? id with
  | none => s
  | some j =>
    if j.recorded then s else
    match j.part with
    | some p => s.closePart j p status later
    | none =>
      let s := s.jobCleanup j status
      let s := if status = 0x10 then { s with adm := { s.adm with lostN := s.adm.lostN + 1 } } else s
      let s := if later then s else s.releaseJob j
      let s := s.doneRecord j status
      let s := s.modJob id (fun j => { j with recorded := true, relPend := later, status := some status })
      let s := s.stopJob id
      (if later then s else s.readyEvent j).sweepJobs

/-- The first event that ends a job sets its status (R174). -/
def State.setStatus (s : State) (id status : Nat) : State :=
  s.modJob id (fun j => match j.status with | none => { j with status := some status, finish := s.swnN } | some _ => j)

/-- Units of a placement that have neither ended nor been lost. Units of one field run in order; the units of a stage with
no field are counted. -/
def Placement.openUnits (p : Placement) : List Nat :=
  ((upTo p.count).drop p.ended).map (· + p.start) |>.filter (fun u => !p.gone.contains u)

/-! ## Unchecked conditions of the whole device (Table 25.1) -/

/-- The memories are in canonical form: HBM, host memory, and the memories of the cores. -/
def Memory.wf (s : State) : Bool := mwf hbmDefault s.hbm && mwf hostDefault s.host && mwf hostDefault s.ctrl.mem

/-- The register stores and the unit tables that statements read through are in canonical form. -/
def State.tablesWf (s : State) : Bool :=
  mwf regReset s.cfg && mwf regReset s.live && mwf (fun _ => Field.init) s.fields && mwf (fun _ => Amu.init) s.amus &&
    mwf (fun _ => Core.init) s.cores && mwf (fun _ => Core.init) s.pipes && mwf Inst.init s.insts

end Sys2Proof.Machine

namespace Sys2Proof.Config
/-- What an unchecked condition of scope X or Q leaves (Table 25.1): number of the condition, state before. Log entry 25. -/
opaque anyState : Nat → Machine.State → Option Machine.State
end Sys2Proof.Config

namespace Sys2Proof.Machine

/-- Any behaviour (scope X of Table 25.1): the state after is free, but for the queue of commands, which is not the device's, and the
canonical form of the memories and tables (log entry 25). -/
def State.anything (s : State) : State :=
  let s1 := { s with free := s.free + 1 }
  match Config.anyState s.free s with
  | none => s1
  | some t => if Memory.wf t && t.tablesWf then { t with pending := s.pending, free := s1.free } else s1
/-- The registers, queues, mailbox and completion records of instance `n` are free (scope Q of Table 25.1). -/
def State.queueAnything (s : State) (n : Nat) : State :=
  let s1 := { s with free := s.free + 1 }
  match Config.anyState s.free s with
  | none => s1
  | some t =>
    let y := t.inst n
    let s := (upTo 8).foldl (fun s q =>
      let cfg := s.cfgN (cqCfgA n q)
      if !bit cfg 31 then s else
      let (b, s) := s.drawBytes (32 * 2 ^ fld cfg 0 5)
      s.memWrite (bit cfg 8) (s.cfgN (cqCfgA n q - 8) + 2 ^ 32 * s.cfgN (cqCfgA n q - 4)) b) s1
    let s := s.setInst n { s.inst n with
      sqs := y.sqs, cqs := y.cqs, mbox := y.mbox, upProd := y.upProd, upCons := y.upCons, dnProd := y.dnProd, dnCons := y.dnCons }
    ((upTo 512).map (fun i => instPage n + 4 * i)).foldl (fun s a =>
      match regAt a with
      | some (r, _, _) => if r.rw = 0 then s else s.setCfg a (t.cfgW a &&& BitVec.ofNat 32 r.rw)
      | none => s) s
/-- The control and management cores with their interrupts and tasks are free (scope C of Table 25.1). -/
def State.controlAnything (s : State) : State :=
  let s1 := { s with free := s.free + 1 }
  match Config.anyState s.free s with
  | none => s1
  | some t => if mwf hostDefault t.ctrl.mem then { s1 with intc := t.intc, tasks := t.tasks, ctrl := t.ctrl } else s1
/-- Scopes of a condition that a register access shows (Table 25.3): an instance's queues, the control cores, any behaviour. -/
inductive Scope where
  | inst (n : Nat)
  | control
  | all
deriving DecidableEq, Repr
/-- The state after an unchecked condition of that scope. -/
def State.unchecked (s : State) : Scope → State
  | .inst n => s.queueAnything n
  | .control => s.controlAnything
  | .all => s.anything

end Sys2Proof.Machine
end

