-- ==== Sys2Proof/Machine/Tasks.lean ====
section
/-! DEFINITION. The interrupt controller's presenting rules and the task scheduler (R383–R404): the commands of the task inlet,
the offers, and what a claim, a completion and a core halt do to tasks. -/

namespace Sys2Proof.Machine

/-! ## Interrupt sources and targets -/

/-- Outcome of a command that acts while the device is out of reset. -/
def whenUp (s t : State) : Host.Outcome State Fault Refusal := .next (if s.up then t else s)
/-- Outcome of a command that acts while the device is out of reset and not in Fallow. -/
def whenRun (s t : State) : Host.Outcome State Fault Refusal := .next (if s.running then t else s)

/-- Targets of a source's plane (R20, R385, Table 17.2). -/
def planeTargets (n : Nat) : Nat :=
  if n < 512 then 0xFFFF else if n < 864 then 0x0FFF
  else if n < 880 then (if n < 876 then 0x0FFF else 0xF000)
  else if n < 896 then 0x0FFF else if n < 960 then 0xF000 else if n < 992 then 0x0FFF else 0xF000
/-- PRIO(n): fixed at p + 1 for the dispatch sources. -/
def State.srcPrio (s : State) (n : Nat) : Nat :=
  if 768 ≤ n ∧ n < 864 then (n - 768) % 8 + 1 else s.cfgN (0xA00000 + 4 * n) % 16
/-- TARGETS(n): fixed for the dispatch sources and the timers. -/
def State.srcTargets (s : State) (n : Nat) : Nat :=
  if 768 ≤ n ∧ n < 864 then 2 ^ ((n - 768) / 8)
  else if 864 ≤ n ∧ n < 880 then 2 ^ (n - 864)
  else s.cfgN (0xA01000 + 4 * n) &&& planeTargets n

def targetCtlA (t : Nat) : Nat := 0xA04000 + 0x100 * t
/-- A core halted under PS3 or held in reset counts as a disabled target (R384). -/
def State.targetOn (s : State) (t : Nat) : Bool := bit (s.cfgN (targetCtlA t)) 0 && !s.ctrl.halted.contains t
def State.threshold (s : State) (t : Nat) : Nat := fld (s.cfgN (targetCtlA t)) 16 4
/-- The priority stack of a target, top first. -/
def State.stack (s : State) (t : Nat) : List (Nat × Nat) := mget (fun _ => []) s.intc.stk t
def State.setStack (s : State) (t : Nat) (l : List (Nat × Nat)) : State :=
  { s with intc := { s.intc with stk := mput (fun _ => []) s.intc.stk t l } }
def State.cur (s : State) (t : Nat) : Nat := match s.stack t with | [] => 0 | e :: _ => e.2
def State.bar (s : State) (t : Nat) : Nat := max (s.threshold t) (s.cur t)
def State.isActive (s : State) (n : Nat) : Bool := cget s.intc.active n != 0
/-- Source `n` is eligible at target `t` (R388). -/
def State.eligible (s : State) (n t : Nat) : Bool :=
  s.intc.pend.contains n && s.targetOn t && bit (s.srcTargets n) t && !s.isActive n && decide (s.srcPrio n > s.bar t)

def State.unpend (s : State) (n : Nat) : State :=
  { s with intc := { s.intc with pend := s.intc.pend.filter (· != n), assigned := cput s.intc.assigned n 0 } }

/-- The requester is core `t` (R384). -/
def isCore (who : Requester) (t : Nat) : Bool :=
  match who with
  | .cc c => c.val == t
  | .cm c => c.val + 12 == t
  | _ => false

/-! ## Ready lists -/

def State.readyList (s : State) (p : Nat) : List Nat := mget (fun _ => []) s.tasks.lists p
def State.setList (s : State) (p : Nat) (l : List Nat) : State :=
  { s with tasks := { s.tasks with lists := mput (fun _ => []) s.tasks.lists p l } }
def State.tdPrio (s : State) (t : Nat) : Nat := fld (s.cfgN (tdA t + 8)) 0 3
def State.tdTarget (s : State) (t : Nat) : Nat := fld (s.cfgN (tdA t + 8)) 12 12
def State.tdReload (s : State) (t : Nat) : Nat := fld (s.cfgN (tdA t + 4)) 16 16
def State.stray (s : State) : State := { s with tasks := { s.tasks with stray := satInc 32 s.tasks.stray } }

/-- A task becomes READY: appended to its list, or DEFERRED while that is full (R399). -/
def State.makeReady (s : State) (t : Nat) : State :=
  let s := s.uses [tdA t + 8]
  let p := s.tdPrio t
  let l := s.readyList p
  if l.length < 1024 then
    (s.setTd t { s.td t with state := 2, count := 0, deferred := false }).setList p (l ++ [t])
  else s.setTd t { s.td t with state := 2, count := 0, deferred := true }

/-- An entry of list `p` freed: the lowest-numbered deferred task of that priority is appended (R399). -/
def State.refill (s : State) (p : Nat) : State :=
  if (s.readyList p).length ≥ 1024 then s else
  match s.tasks.tds.find? (fun e => e.2.deferred && s.tdPrio e.1 == p) with
  | none => s
  | some e => (s.setTd e.1 { e.2 with deferred := false }).setList p (s.readyList p ++ [e.1])

/-- A task goes back to the head of its list. -/
def State.requeue (s : State) (t : Nat) : State :=
  let p := s.tdPrio t
  (s.setTd t { s.td t with state := 2, core := 0 }).setList p (t :: s.readyList p)

/-! ## Offers -/

/-- The offer at core `c`: task and priority. -/
def State.offer? (s : State) (c : Nat) : Option (Nat × Nat) :=
  match mget (fun _ => (0, 0)) s.tasks.offers c with
  | (0, _) => none
  | (t + 1, p) => some (t, p)
def State.clearOffer (s : State) (c : Nat) : State :=
  { s with tasks := { s.tasks with offers := mput (fun _ => (0, 0)) s.tasks.offers c (0, 0) } }
def dispatchSrc (c p : Nat) : Nat := 768 + 8 * c + p

/-- Take the offer at core `c` back: its source stops pending and its task returns to the head of its list (R400). -/
def State.takeBack (s : State) (c : Nat) : State :=
  match s.offer? c with
  | none => s
  | some (t, p) => ((s.clearOffer c).unpend (dispatchSrc c p)).requeue t
/-- A withdrawal also counts in OFFER_TIMEOUT. -/
def State.withdraw (s : State) (c : Nat) : State :=
  match s.offer? c with
  | none => s
  | some _ =>
    let s := s.takeBack c
    { s with tasks := { s.tasks with offerTo := satInc 32 s.tasks.offerTo } }

/-- Core `c` is open to priority `p` (R400). -/
def State.openTo (s : State) (c p : Nat) : Bool :=
  let ctl := s.cfgN (0xA80100 + 0x10 * c)
  bit ctl 0 && s.targetOn c && decide (p + 1 > s.threshold c) &&
    (if bit ctl 1 then decide (p + 1 > s.cur c) else s.cur c == 0)
/-- Core `c` can take an offer at `p` now: open, and with no offer at `p` or above. -/
def State.canTake (s : State) (c p : Nat) : Bool :=
  s.openTo c p && (match s.offer? c with | none => true | some (_, q) => decide (q < p))
/-- Cores 0–11 from the round-robin pointer on. -/
def State.coreOrder (s : State) : List Nat := (upTo 12).map (fun i => (s.tasks.rr + i) % 12)

/-- The task and core of the next offer at priority `p`, among the first 16 entries. -/
def State.pick (s : State) (p : Nat) : Option (Nat × Nat) :=
  ((s.readyList p).take 16).findSome? (fun t =>
    (s.coreOrder.find? (fun c => bit (s.tdTarget t) c && s.canTake c p)).map (fun c => (t, c)))

/-- Offer task `t` at priority `p` to core `c`. -/
def State.makeOffer (s : State) (p t c : Nat) : State :=
  let s := s.uses [tdA t + 8, 0xA80100 + 0x10 * c, targetCtlA c]
  let s := s.takeBack c
  let s := s.setList p ((s.readyList p).filter (· != t))
  let s := { s with tasks := { s.tasks with
    offers := mput (fun _ => (0, 0)) s.tasks.offers c (t + 1, p), rr := (c + 1) % 12 } }
  (s.refill p).pendSrc (dispatchSrc c p)

/-- The highest of priorities below `n` at which an offer can be made. -/
def State.bestOffer (s : State) : Nat → Option (Nat × Nat × Nat)
  | 0 => none
  | n + 1 => match s.pick n with | some (t, c) => some (n, t, c) | none => s.bestOffer n

/-! ## Claims, completions and halts -/

def State.running? (s : State) (c : Nat) : List Nat := mget (fun _ => []) s.tasks.running c
def State.setRunning (s : State) (c : Nat) (l : List Nat) : State :=
  { s with tasks := { s.tasks with running := mput (fun _ => []) s.tasks.running c l } }

/-- A claimed dispatch source makes its task RUNNING (R401). -/
def State.startTask (s : State) (n : Nat) : State :=
  if 768 ≤ n ∧ n < 864 then
    let c := (n - 768) / 8
    match s.offer? c with
    | none => s
    | some (t, _) =>
      ((s.clearOffer c).setTd t { s.td t with state := 3, core := c }).setRunning c (t :: s.running? c)
  else s

/-- Enabled successors of a task (Table 17.6). -/
def State.successors (s : State) (t : Nat) : List Nat :=
  let a := s.cfgN (tdA t + 0x18)
  let b := s.cfgN (tdA t + 0x1C)
  (if bit a 15 then [fld a 0 13] else []) ++ (if bit a 31 then [fld a 16 13] else []) ++
    (if bit b 15 then [fld b 0 13] else []) ++ (if bit b 31 then [fld b 16 13] else [])

/-- COMPLETE of a dispatch source ends its task (Table 17.3). -/
def State.endTask (s : State) (n : Nat) : State :=
  if 768 ≤ n ∧ n < 864 then
    let c := (n - 768) / 8
    match s.running? c with
    | [] => s
    | t :: rest =>
      let s := (s.uses [tdA t + 4, tdA t + 0x18, tdA t + 0x1C]).setRunning c rest
      let d := s.td t
      let s := { s with tasks := { s.tasks with succ := s.tasks.succ ++ s.successors t } }
      let reload := s.tdReload t
      if reload > 0 && !d.cancel then
        let n := reload - d.early
        if n = 0 then (s.setTd t { d with early := 0, core := 0 }).makeReady t
        else s.setTd t { d with state := 1, count := n, early := 0, core := 0 }
      else s.setTd t { d with state := 0, cancel := false, core := 0 }
  else s

/-- A halt or reset of core `t`: its stack empties, its sources leave ACTIVE, and its tasks return to the heads of their
lists (R394). -/
def State.dropStack (s : State) (t : Nat) : State :=
  let s := (s.stack t).foldl (fun s e => { s with intc := { s.intc with active := cput s.intc.active e.1 0 } }) s
  let s := s.setStack t []
  let s := (s.running? t).foldl (fun s k => s.requeue k) s
  s.setRunning t []
def State.haltCore (s : State) (t : Nat) : State :=
  if s.ctrl.halted.contains t then s
  else { s.dropStack t with ctrl := { s.ctrl with halted := s.ctrl.halted ++ [t] } }

/-! ## The task inlet -/

/-- The requester may write TASK_ARM, TASK_SIGNAL and TASK_CANCEL (R35, R37, R403). -/
def mayTask : Requester → Bool
  | .vf _ => false
  | _ => true

/-- An event enters the inlet, or its producer stalls while the inlet is full (R404). -/
def State.taskPush (s : State) (who : Requester) (e : TEvent) : State :=
  if s.tasks.inlet.length < 256 && s.tasks.stalled.isEmpty then
    { s with tasks := { s.tasks with inlet := s.tasks.inlet ++ [e] } }
  else { s with tasks := { s.tasks with stalled := s.tasks.stalled ++ [(producerIx who, e)], stalls := satInc 32 s.tasks.stalls } }

/-- An event for task `t` (Table 17.3). -/
def State.taskEvent (s : State) (t : Nat) : State :=
  let d := s.td t
  match d.state with
  | 0 => s.stray
  | 1 => if d.count > 1 then s.setTd t { d with count := d.count - 1 } else s.makeReady t
  | _ => s.setTd t { d with early := min (d.early + 1) 255 }
def State.armTask (s : State) (t n : Nat) : State :=
  if (s.td t).state ≠ 0 then s.stray
  else if n = 0 then (s.setTd t { s.td t with early := 0 }).makeReady t
  else s.setTd t { s.td t with state := 1, count := n, early := 0 }
/-- Remove a task from the scheduler's lists and offers. -/
def State.unlist (s : State) (t : Nat) : State :=
  let p := s.tdPrio t
  let s := (upTo 12).foldl (fun s c =>
    match s.offer? c with
    | some (k, q) => if k = t then (s.clearOffer c).unpend (dispatchSrc c q) else s
    | none => s) s
  (s.setList p ((s.readyList p).filter (· != t))).refill p
def State.cancelTask (s : State) (t : Nat) : State :=
  let d := s.td t
  match d.state with
  | 1 => s.setTd t { d with state := 0, count := 0 }
  | 2 => (s.setTd t { d with state := 0, deferred := false }).unlist t
  | 3 => s.setTd t { d with cancel := true }
  | _ => s
def State.applyEvent (s : State) (e : TEvent) : State :=
  match e with
  | .arm t n => s.armTask t n
  | .signal t => s.taskEvent t
  | .cancel t => s.cancelTask t

/-- The scheduler takes one event: a successor's first, else the inlet's oldest (R403). -/
def State.takeEvent (s : State) : State :=
  let count := fun (s : State) => { s with tasks := { s.tasks with events := s.tasks.events + 1 } }
  match s.tasks.succ, s.tasks.inlet with
  | t :: ts, _ => (count { s with tasks := { s.tasks with succ := ts } }).taskEvent t
  | [], e :: es => ((count { s with tasks := { s.tasks with inlet := es } }).taskFill).applyEvent e
  | [], [] => s

/-! ## Meanings -/

/-- TASK_ARM (R398, R403). -/
def execTaskArm (who : Requester) (task : BitVec 13) (count : BitVec 16) (s : State) :
    Host.Outcome State Fault Refusal :=
  whenRun s (if mayTask who then s.taskPush who (.arm task.toNat count.toNat) else s)
/-- TASK_SIGNAL (R398, R403). -/
def execTaskSignal (who : Requester) (task : BitVec 13) (s : State) : Host.Outcome State Fault Refusal :=
  whenRun s (if mayTask who then s.taskPush who (.signal task.toNat) else s)
/-- TASK_CANCEL (R398, R403). -/
def execTaskCancel (who : Requester) (task : BitVec 13) (s : State) : Host.Outcome State Fault Refusal :=
  whenRun s (if mayTask who then s.taskPush who (.cancel task.toNat) else s)
/-- TASK_INLET_EVENT (R403). -/
def execTaskInletEvent (s : State) : Host.Outcome State Fault Refusal := whenRun s s.takeEvent

/-- TASK_OFFER (R400): offers at cores no longer open are withdrawn, then the best offer is made. -/
def execTaskOffer (s : State) : Host.Outcome State Fault Refusal :=
  let s' := (upTo 12).foldl (fun s c =>
    match s.offer? c with
    | some (_, p) => if s.openTo c p then s else s.withdraw c
    | none => s) s
  whenRun s (match s'.bestOffer 8 with | some (p, t, c) => s'.makeOffer p t c | none => s')

/-- OFFER_TIMEOUT (R400). -/
def execOfferTimeout (c : Fin 12) (s : State) : Host.Outcome State Fault Refusal := whenRun s (s.withdraw c.val)

end Sys2Proof.Machine
end

