-- ==== Sys2Proof/Machine/Reset.lean ====
section
/-! DEFINITION. What each kind of reset clears and keeps (Table 22.2), the tamper alarm (R426–R430), and the commands that ask
for a chip reset. -/

namespace Sys2Proof.Machine

/-- RESET_CAUSE bits (Table 22.3). -/
def causePowerUp : BitVec 7 := 1
def causeRequest : BitVec 7 := 2
def causePerst : BitVec 7 := 4
def causeFault : BitVec 7 := 8
def causeTamper : BitVec 7 := 16
def causeOpening : BitVec 7 := 32
def causePs4 : BitVec 7 := 64

/-- Registers of the backup domain, which a chip reset keeps. -/
def isBackupReg (a : Nat) : Bool := decide (0xBC0000 ≤ a) && decide (a < 0xC00000)
/-- Device addresses of the ledger range (R65), which is written to zero before admission opens (R464). -/
def isLedger (a : Nat) : Bool := decide (ledgerBase ≤ a) && decide (a < 0x17F0000000)

/-! ## High-water marks (R167) -/

/-- The copies of a slot's key in the partition and in the commits on their way there take its mark. -/
def State.markCopies (s : State) (n mark : Nat) : State :=
  let k := s.slot n
  let up := fun (x : KSlot) => if x.state = 2 ∧ x.secret = k.secret then { x with mark, markFirst := 0 } else x
  { s with keys := { s.keys with
      nv := mput (fun _ => KSlot.empty) s.keys.nv n (up (mget (fun _ => KSlot.empty) s.keys.nv n))
      commits := s.keys.commits.map (fun c => { c with sets := c.sets.map (fun e => if e.1 = n then (n, up e.2) else e) }) } }
/-- The oldest mark of slot `n` that is on its way becomes durable. -/
def State.markDurable (s : State) (n : Nat) : State :=
  match (s.slot n).markPend with
  | [] => s
  | m :: rest => (s.modSlot n (fun k => { k with mark := m, markPend := rest })).markCopies n m
/-- The `k` oldest marks of slot `n` become durable. -/
def State.marksDurable (s : State) (n : Nat) : Nat → State
  | 0 => s
  | k + 1 => (s.markDurable n).marksDurable n k
/-- Every mark on its way becomes durable: mark writes go ahead of every other write. -/
def State.allMarks (s : State) : State :=
  s.keys.slots.foldl (fun s e => s.marksDurable e.1 e.2.markPend.length) s
/-- The mark that came with a slot's first commit is durable. -/
def KSlot.firm (k : KSlot) : KSlot := if k.markFirst = 0 then k else { k with mark := k.markFirst, markFirst := 0 }
/-- A commit of slot `n` is durable: so is its first mark. -/
def State.firstMark (s : State) (e : Nat × KSlot) : State :=
  if e.2.markFirst = 0 then s else
  let s := s.markCopies e.1 e.2.markFirst
  s.modSlot e.1 (fun k => if k.state = 2 ∧ k.secret = e.2.secret then k.firm else k)

/-- The oldest commit becomes durable: its slots stand in the partition, and the counter record and its mirror take its
counter (R346, R348, R354). -/
def State.durableOne (s : State) : State :=
  match s.keys.commits with
  | [] => s
  | c :: _ =>
    let s := c.sets.foldl State.firstMark s
    let s := { s with keys := { s.keys with
      commits := s.keys.commits.drop 1
      nv := c.sets.foldl (fun nv e => mput (fun _ => KSlot.empty) nv e.1 e.2.firm) s.keys.nv
      nvCounter := c.counter.getD s.keys.nvCounter } }
    match c.counter with
    | none => s
    | some v => { s with backup := { s.backup with now := { s.backup.now with ctrMirror := v } } }
/-- The `n` oldest commits become durable. -/
def State.durableN (s : State) : Nat → State
  | 0 => s
  | n + 1 => s.durableOne.durableN n
/-- How many waiting marks and commits a reset finds durable is open (R167, R348): a free number of them, the marks first. -/
def State.settleCommits (s : State) : State :=
  let waiting := s.keys.slots.filter (fun e => !e.2.markPend.isEmpty)
  if s.keys.commits.isEmpty && waiting.isEmpty then s else
  let n := (s.draw 16).1 % (s.keys.commits.length + 1)
  if n > 0 then (s.draw 16).2.allMarks.durableN n
  else waiting.foldl (fun s e => (s.draw 32).2.marksDurable e.1 ((s.draw 32).1 % (e.2.markPend.length + 1))) (s.draw 16).2

/-- A chip reset (R468, Table 22.2): registers and volatile state go to their reset values; HBM but for the ledger range,
the user store (key partition, counter record, journal, firmware banks), the backup domain, CAUSE and blown fuses stay.
Out of PS4 the HBM contents are gone (R452). The device waits for a start edge. -/
def State.chipReset (s : State) (cause : BitVec 7) : State :=
  let s := s.settleCommits
  { State.reset with
    start := { Startup.reset with
      cause := if s.power.ps4Ready then cause ||| causePs4 else cause
      active := s.start.active
      perstLow := s.start.perstLow
      thermLow := s.start.thermLow
      boot := s.start.boot + 1 }
    cfg := s.cfg.filter (fun e => isBackupReg e.1)
    faults := { Faults.reset with cause := s.faults.cause, causeSwn := s.faults.causeSwn }
    keys := { KeyStore.reset with
      nv := s.keys.nv
      nvRoot := s.keys.nvRoot
      nvCounter := s.keys.nvCounter
      counter := s.keys.nvCounter
      rootLost := s.keys.rootLost }
    tamper := { Tamper.reset with blown := s.tamper.blown, eff := s.tamper.blown }
    backup := s.backup
    life := { s.life with session := false, result := 0, resumed := 0, lost := false }
    hostif := { HostIf.reset with linkUp := s.hostif.linkUp, dmaErr := s.hostif.dmaErr }
    hbm := if s.power.ps4Ready then [] else s.hbm.filter (fun e => !isLedger e.1)
    host := s.host, free := s.free, resp := s.resp, outbox := s.outbox, pending := s.pending }

/-- The collector's copy of STICKY at a reaction chip reset or a Fallow entry (R414). -/
def State.copyCause (s : State) : State :=
  { s with faults := { s.faults with cause := s.faults.sticky, causeSwn := s.glob.swn } }

/-- A tamper reset (R427, R429): a chip reset that the backup domain records; a third within 327,680 sc of the first of
the last three makes the device HELD. -/
def State.tamperReset (s : State) : State :=
  let hist := s.backup.now.hist ++ [s.backup.now.rtc]
  let hist := hist.drop (hist.length - 3)
  let held := match hist with
    | [a, _, c] => decide (c.toNat - a.toNat ≤ 327680)
    | _ => false
  let s := s.copyCause.chipReset causeTamper
  { s with backup := { s.backup with held := s.backup.held || held, now := { s.backup.now with hist } } }

/-! ## Meanings -/

/-- The requester reaches the PF BAR0 map (R35, R37). -/
def reachesPf : Requester → Bool
  | .vf _ => false
  | _ => true

/-- A write of RESET_REQ by a requester (Table 2.5, R422). -/
def State.resetWrite (s : State) (who : Requester) (key : Nat) (kind : Nat) : State :=
  let may := match who with
    | .pf => true
    | .cm _ => true
    | .cc _ => !s.faults.fallow
    | .jtag => !s.faults.fallow
    | .vf _ => false
  if s.start.up && !s.power.ps4Ready && may && key = 0x5EED && kind = 1 then s.chipReset causeRequest else s

/-- RESET_REQ (R468). -/
def execResetReq (who : Requester) (key : BitVec 16) (kind : BitVec 2) (s : State) : Host.Outcome State Fault Refusal :=
  .next (s.resetWrite who key.toNat kind.toNat)

/-- PERST_ASSERT (R468): a chip reset, in which the device is held until PERST_N rises; source 1 is disarmed (R425). -/
def execPerstAssert (s : State) : Host.Outcome State Fault Refusal :=
  let s' := if s.start.up then s.chipReset causePerst else s
  .next { s' with start := { s'.start with perstLow := true } }

end Sys2Proof.Machine
end

