-- ==== Sys2Proof/Machine/Tamper.lean ====
section
/-! DEFINITION. The tamper monitors, the tamper fuses, the backup domain and its clock (R423–R436, R50, R51, R506, R514). -/

namespace Sys2Proof.Machine

def State.modBk (s : State) (g : Backup → Backup) : State := { s with backup := g s.backup }
def State.modNow (s : State) (g : BkRegs → BkRegs) : State := s.modBk (fun b => { b with now := g b.now })

/-- The main rails are up: the hub can act on a backup alarm (R428, Table 19.3). -/
def State.hubOn (s : State) : Bool := s.start.up && !s.power.ps4Ready && !s.backup.held

/-- TAMPER_ALARM (R427). -/
def execTamperAlarm (src : Fin 11) (detA detB : Bool) (s : State) : Host.Outcome State Fault Refusal :=
  .next (if s.hubOn then s.alarm src.val detA detB else s)

/-- BACKUP_TAMPER_ALARM (R428): the root is zeroized and TAMPER_BK latched in every power state. -/
def execBackupTamperAlarm (s3 : Fin 3) (detA detB : Bool) (s : State) : Host.Outcome State Fault Refusal :=
  let src := 13 + s3.val
  .next (if s.tamperOn src then
    let s := s.latchTamper src detA detB
    let s := s.modBk (fun b => { b with root := false, bbram := [], now := { b.now with tamperBk := true } })
    if s.hubOn then s.raise (480 + src) 0 0 0 else s
  else s)

/-- TAMPER_MONITOR_ARMED (R425): sources 11 and 12 do not exist; 13–15 are armed whenever the well is powered. -/
def execTamperMonitorArmed (src : Fin 16) (s : State) : Host.Outcome State Fault Refusal :=
  .next (if s.hubOn && decide (src.val ≤ 10) then
    let m := BitVec.ofNat 16 (2 ^ src.val)
    { s with tamper := { s.tamper with armed := s.tamper.armed ||| m, measured := s.tamper.measured ||| m } }
  else s)

/-- FUSE_REQ (R432): key, Open, doubled check k = 1. -/
def State.fuseWrite (s : State) (who : Requester) (key : Nat) (sources : BitVec 16) (agree : Bool) : State :=
  if !reachesPf who || key ≠ 0xF05E then s
  else if !agree then s.mismatch 1
  else if s.life.closed then s
  else { s with tamper := { s.tamper with blown := s.tamper.blown ||| sources } }
def execFuseReq (who : Requester) (key : BitVec 16) (sources : BitVec 16) (agree : Bool) (s : State) :
    Host.Outcome State Fault Refusal :=
  whenRun s (s.fuseWrite who key.toNat sources agree)

/-- A write to a slow or backup register waits in that register's one-entry buffer (R51). -/
def State.slowWrite (s : State) (a : Nat) (w : Word) : State :=
  s.modBk (fun b => { b with slow := mins b.slow a w })

/-- A write of the tamper enables (R433): in Closed bits can be set but not cleared; fused bits read 0 (R431). -/
def State.enableWrite (s : State) (who : Requester) (backup : Bool) (value : BitVec 16) (agree : Bool) : State :=
  if !reachesPf who then s
  else if !agree then s.mismatch 1
  else
    let a := if backup then 0xBC0004 else 0xB80004
    let old := s.cfgW a
    let want := value.setWidth 32 &&& (if backup then 7#32 else 0x7FF#32)
    let v := if s.life.closed then old ||| want else want
    let v := v &&& ~~~(if backup then (s.tamper.eff.setWidth 32 >>> 13) else s.tamper.eff.setWidth 32)
    if backup then s.slowWrite a v else (s.setCfg a v).rewritten a
def execTamperEnableWrite (who : Requester) (backup : Bool) (value : BitVec 16) (agree : Bool) (s : State) :
    Host.Outcome State Fault Refusal :=
  whenRun s (s.enableWrite who backup value agree)

/-- AUX_RAIL_FALL (R429, R514): HELD and its times clear; THERMTRIP_N is released; without VBAT the well is lost. -/
def State.wellLost (s : State) : State :=
  { s with
    backup := { Backup.reset with aux := false, smbAddr := none, vbat := false, mirror := s.backup.mirror }
    cfg := s.cfg.filter (fun e => !isBackupReg e.1) }
def execAuxRailFall (s : State) : Host.Outcome State Fault Refusal :=
  let s := { s with start := { s.start with thermLow := false, wakeLow := false } }
  .next (if s.backup.vbat then
      s.modBk (fun b => { b with aux := false, smbAddr := none, held := false, now := { b.now with hist := [] } })
    else s.wellLost)

/-- The 7-bit SMBus address that the straps set (R501). -/
def smbAddress (straps : BitVec 2) : BitVec 7 := 0x60#7 + straps.setWidth 7
/-- BACKUP_SUPPLY_CHANGE (R434): the auxiliary rail out of its range, or in it with these levels on the straps, and VBAT. A switch-over
loses nothing; without both supplies the contents are lost and POWER_LOST is 1 when the well is powered again. A fall of the auxiliary rail also ends HELD (R429); its rise samples the SMBus address
straps, bit 1 SMB_ADDR1 and bit 0 SMB_ADDR0 (R501). -/
def execBackupSupplyChange (aux : Option (BitVec 2)) (vbat : Bool) (s : State) : Host.Outcome State Fault Refusal :=
  .next (match aux with
  | none =>
    if !vbat then s.wellLost
    else if s.backup.aux then
      s.modBk (fun b => { b with aux := false, smbAddr := none, vbat, held := false, now := { b.now with hist := [] } })
    else s.modBk (fun b => { b with vbat })
  | some straps =>
    s.modBk (fun b => { b with aux := true, vbat, smbAddr := if b.aux then b.smbAddr else some (smbAddress straps) }))

/-- VBAT_LOW_CHANGE (R434): measured while the auxiliary rail is present. -/
def execVbatLowChange (mv : BitVec 13) (s : State) : Host.Outcome State Fault Refusal :=
  .next (s.modNow (fun n => { n with
    vbatLow := decide (mv.toNat < 2600), vbatMv := if s.backup.aux then mv else n.vbatMv }))

/-- RISING_SCLK_EDGE (R50): the RTC advances, the mirrors take the RO-M fields, and START_SC counts (Table 22.3). -/
def execRisingSclkEdge (s : State) : Host.Outcome State Fault Refusal :=
  let s := if s.backup.aux || s.backup.vbat then s.modNow (fun n => { n with rtc := n.rtc + 1 }) else s
  let s := if s.start.up then s.modBk (fun b => { b with mirror := b.now }) else s
  .next (if s.start.up && !s.glob.admitOpen then
    { s with start := { s.start with sc := satInc 16 s.start.sc } } else s)

/-- RTC_LOAD (R436): the write of RTC_CTL.LOAD waits for its SCLK edge. -/
def execRtcLoad (who : Requester) (s : State) : Host.Outcome State Fault Refusal :=
  whenRun s (if reachesPf who then s.slowWrite 0xBC0040 1#32 else s)

/-- The buffered writes take effect (R51): LOAD uses RTC_SET after every write of the same edge (R436). -/
def State.applySlow (s : State) : State :=
  if s.backup.slow.isEmpty then s else
  let load := s.backup.slow.any (fun e => e.1 = 0xBC0040 && e.2.getLsbD 0)
  let s := (s.backup.slow.filter (fun e => e.1 ≠ 0xBC0040)).foldl (fun s e => (s.setCfg e.1 e.2).rewritten e.1) s
  let s := if load then
      (s.uses [0xBC0038, 0xBC003C]).modNow (fun n => { n with rtc := BitVec.ofNat 64 (s.cfgN 0xBC0038 + 2 ^ 32 * s.cfgN 0xBC003C) }) else s
  (s.modBk (fun b => { b with slow := [] })).pendSrc 902
/-- SLOW_WRITE_APPLY (R51): source 902 becomes pending as SLOW_WR_PEND falls. -/
def execSlowWriteApply (s : State) : Host.Outcome State Fault Refusal :=
  .next (if s.backup.aux || s.backup.vbat then s.applySlow else s)

/-- RTC_ALARM (R436): the RTC equals RTC_ALARM. -/
def execRtcAlarm (s : State) : Host.Outcome State Fault Refusal :=
  whenUp s (let s := s.uses [0xBC0048, 0xBC004C]
    if s.backup.now.rtc.toNat = s.cfgN 0xBC0048 + 2 ^ 32 * s.cfgN 0xBC004C then s.pendSrc 903 else s)

/-- HELD_STATUS_REQUEST (R429), which bears the device's address (R501): HELD, TAMPER_LAST and the three reset times (layout: log entry 22). -/
def execHeldStatusRequest (s : State) : Host.Outcome State Fault Refusal :=
  let n := s.backup.now
  .next (if s.backup.held && s.backup.smbAddr.isSome then
    s.emit (.held (toLe 1 1 ++ toLe 4 n.last.toNat ++ (upTo 3).flatMap (fun i => toLe 8 (nth n.hist i 0).toNat)))
  else s)

/-- THERMTRIP (R514): the pin acts in every state; the fatal source is raised while the hub runs. -/
def execThermtrip (s : State) : Host.Outcome State Fault Refusal :=
  let s := { s with start := { s.start with thermLow := true } }
  .next (if s.hubOn then s.raise 468 0 0 0 else s)

/-- Supply tamper source of a rail (Table 19.1). -/
def railSource : Rail → Option Nat
  | .vddW => some 3
  | .vddE => some 4
  | .vddHub => some 5
  | .vddSram => some 6
  | _ => none

/-- MAIN_RAIL_LOSS (R506): after PS4_READY the rails may fall; in reset the next start is a power-up; at any other time
PWR_RAIL and the supply tamper source are raised together. -/
def execMainRailLoss (rail : Rail) (s : State) : Host.Outcome State Fault Refusal :=
  .next (if s.power.ps4Ready then s.chipReset 0
    else if !s.start.up then
      { s with start := { s.start with cause := s.start.cause ||| causePowerUp }, hbm := [],
               faults := { s.faults with cause := 0, causeSwn := 0 } }
    else
      let s := s.raise 470 0 0 0
      match railSource rail with
      | some src => s.alarm src true true
      | none => s)

end Sys2Proof.Machine
end

