-- ==== Sys2Proof/Machine/Life.lean ====
section
/-! DEFINITION. The life cycle and its journal, and the debug access to cores (R437–R446). -/

namespace Sys2Proof.Machine

def State.modLife (s : State) (g : Life → Life) : State := { s with life := g s.life }

/-- Write a journal record with the next sequence number into the slot that does not hold the record in force; source 901
becomes pending while CM0–CM3 run (R441). -/
def State.writeMark (s : State) (mark target : Nat) : State :=
  let l := s.life
  let r : JRec := { valid := true, seq := l.seq + 1, mark, target }
  let inA := l.slotA.valid && l.slotA.seq == l.seq
  (s.modLife (fun l => { l with
    slotA := if inA then l.slotA else r
    slotB := if inA then r else l.slotB
    mark, seq := l.seq + 1 })).pendSrc 901

/-- Only the PF and CM0–CM3 may write LC_REQUEST and FINAL_REQ (R438). -/
def mayLife : Requester → Bool
  | .pf => true
  | .cm _ => true
  | _ => false

/-- End debug access at once (R445). -/
def State.endDebug (s : State) : State :=
  { s.modLife (fun l => { l with session := false }) with ctrl := { s.ctrl with dbgHalted := [] } }

/-- LC_REQUEST with TARGET 1 (Table 20.2). -/
def State.closeReq (s : State) (who : Requester) (agree : Bool) : State :=
  if !mayLife who || s.life.mark ≠ 0 then s
  else if !agree then (s.modLife (fun l => { l with result := 3 })).mismatch 1
  else if s.life.closed then s.modLife (fun l => { l with result := 1 })
  else
    let s := s.modLife (fun l => { l with result := 1, closed := true })
    (s.endDebug.writeMark 1 1).writeMark 0 1

/-- LC_REQUEST with TARGET 2 (Table 20.2): OPENING is written, then a chip reset is taken. -/
def State.openReq (s : State) (who : Requester) (agree : Bool) : State :=
  if !mayLife who || s.life.mark ≠ 0 then s
  else if !agree then (s.modLife (fun l => { l with result := 3 })).mismatch 1
  else if !s.life.closed then s.modLife (fun l => { l with result := 1 })
  else if s.life.final then s.modLife (fun l => { l with result := 2 })
  else ((s.modLife (fun l => { l with result := 1 })).writeMark 2 2).chipReset causeOpening

/-- FINAL_REQ (R439). -/
def State.finalReq (s : State) (who : Requester) (key : Nat) (blow agree : Bool) : State :=
  if !mayLife who || s.life.mark ≠ 0 || key ≠ 0xF17A || !blow then s
  else if !agree then s.mismatch 1
  else if s.life.closed then s.modLife (fun l => { l with final := true })
  else s

def execLcClose (who : Requester) (agree : Bool) (s : State) : Host.Outcome State Fault Refusal :=
  whenRun s (s.closeReq who agree)
def execLcOpen (who : Requester) (agree : Bool) (s : State) : Host.Outcome State Fault Refusal :=
  whenRun s (s.openReq who agree)
def execFinalReq (who : Requester) (key : BitVec 16) (blow agree : Bool) (s : State) :
    Host.Outcome State Fault Refusal :=
  whenRun s (s.finalReq who key.toNat blow agree)

/-- OPENING_STEP_END (Table 20.3): the step after the journal's mark completes and writes its mark; after ROOT_CLEARED
the state is Open and NONE is written. -/
def execOpeningStepEnd (s : State) : Host.Outcome State Fault Refusal :=
  whenUp s (match s.life.mark with
    | 2 => ({ s with keys := { s.keys with nv := [], commits := [] } }).writeMark 3 2
    | 3 => (s.modLife (fun l => { l with usersErased := true })).writeMark 4 2
    | 4 =>
      let s := (s.modBk (fun b => { b with root := false, bbram := [] })).writeMark 5 2
      (s.modLife (fun l => { l with closed := false })).writeMark 0 2
    | _ => s)

/-- The journal read at a start (R441–R443): the valid record with the higher sequence number is in force, an unfinished
transition resumes, and without a valid record the device is Closed. -/
def State.readJournal (s : State) (a b : Bool) : State :=
  let l := s.life
  let ra := if a && l.slotA.valid then some l.slotA else none
  let rb := if b && l.slotB.valid then some l.slotB else none
  let best := match ra, rb with
    | some x, some y => if x.seq.toNat < y.seq.toNat then some y else some x
    | some x, none => some x
    | none, y => y
  match best with
  | none =>
    s.modLife (fun l => { l with
      closed := true, lost := true, mark := 0, seq := 1, resumed := 0
      slotA := { valid := true, seq := 1, mark := 0, target := 1 }, slotB := JRec.none })
  | some r =>
    let s := s.modLife (fun l => { l with
      mark := r.mark, seq := r.seq, resumed := r.mark
      slotA := if a then l.slotA else { l.slotA with valid := false }
      slotB := if b then l.slotB else { l.slotB with valid := false }
      closed := if r.mark = 0 then r.target == 1 else true })
    match r.mark with
    | 1 => s.writeMark 0 1
    | 5 => (s.modLife (fun l => { l with closed := false })).writeMark 0 2
    | _ => s

/-- Debug instructions work only in Open, outside an opening (R444). -/
def State.tapDebug (s : State) : Bool := s.start.up && !s.life.closed && s.life.mark = 0

def coreMemA (t addr : Nat) : Nat := t * 262144 + addr % 262144
def State.corePoke (s : State) (t : Nat) : Nat → Bytes → State
  | _, [] => s
  | a, b :: bs =>
    ({ s with ctrl := { s.ctrl with mem := mput hostDefault s.ctrl.mem (coreMemA t a) b } }).corePoke t (a + 1) bs

/-- DBG_CORE (R444): in Closed it selects the bypass register. A step runs one instruction of the core's own program, which
the spec does not give (log entry 23). -/
def execDbgCore (t : Fin 16) (op : DbgCoreOp) (s : State) : Host.Outcome State Fault Refusal :=
  .next (if !s.tapDebug then s else
    let s := s.modLife (fun l => { l with session := true })
    match op with
    | .halt =>
      if s.ctrl.dbgHalted.contains t.val then s
      else { s.dropStack t.val with ctrl := { s.ctrl with dbgHalted := s.ctrl.dbgHalted ++ [t.val] } }
    | .resume => { s with ctrl := { s.ctrl with dbgHalted := s.ctrl.dbgHalted.filter (· != t.val) } }
    | .step => s
    | .read addr len =>
      s.setResp (.bytes ((upTo len).map (fun i => mget hostDefault s.ctrl.mem (coreMemA t.val (addr + i)))))
    | .write addr data => s.corePoke t.val addr data)

end Sys2Proof.Machine
end

