-- ==== Sys2Proof/Machine/Power.lean ====
section
/-! DEFINITION. Power states and commands, the ageing monitors and the margin planner (R447–R459, R507, R508). -/

namespace Sys2Proof.Machine

def State.modPower (s : State) (g : Power → Power) : State := { s with power := g s.power }

/-- Fields of PWR_CMD (Table 21.3). -/
def pwrTarget (w : Word) : Nat := fld w.toNat 0 3
def pwrNow (w : Word) : Bool := w.getLsbD 4
def pwrFields (w : Word) : Nat := fld w.toNat 16 16

/-- Resources a command takes away (R449): all for PS3 and PS4, the fields for PS2, the fields absent from FIELDS for PS1. -/
def pwrNames (w : Word) : List Nat :=
  match pwrTarget w with
  | 0 => []
  | 1 => (upTo 16).filter (fun f => !bit (pwrFields w) f)
  | 2 => upTo 16
  | _ => upTo 28
/-- Resources a pending DRAIN names (R81). -/
def State.drained (s : State) : List Nat := match s.power.drain with | some w => pwrNames w | none => []

/-- Resource `x` is powered now. -/
def State.resOn (s : State) (x : Nat) : Bool := s.poolsOn && (x ≥ 16 || (s.field x).powered)

/-- A job holds units on a resource from the current row on. -/
def State.jobUses (s : State) (j : Job) (xs : List Nat) : Bool :=
  j.pls.any (fun p => decide (p.row ≥ s.swnN) && decide (p.ended < p.count) &&
    ((j.stage p.stage).demand p.fields).any (fun e => xs.contains e.1)) ||
  j.lost.any (fun l => ((j.stage l.stage).demand l.fields).any (fun e => xs.contains e.1))

/-- Power down fields: those that lose their power lose their planes (R156, R451), and their store
holds free bytes afterwards; clock-gated ones keep both. -/
def State.fieldsDown (s : State) (off gate : List Nat) : State :=
  let s := off.foldl (fun s f => s.modField f (fun x => { x with
    powered := false, planes := [], loading := none, slices := [], clean := false, active := false, seals := [], ringDest := []
    lookahead := false, ahead := Ahead.none, banks := (upTo 40).foldl (fun m b => cput m b (1024 * s.free + 1023)) x.banks })) s
  let s := gate.foldl (fun s f => s.modField f (fun x => { x with powered := false })) s
  s.modPower (fun p => { p with
    fieldsOn := p.fieldsOn &&& BitVec.ofNat 16 (65535 - sumL ((off ++ gate).eraseDups.map (2 ^ ·)))
    addPend := p.addPend &&& BitVec.ofNat 16 (65535 - sumL ((off ++ gate).eraseDups.map (2 ^ ·))) })
/-- Fields that come back: they count from the next headland's re-plan step (R451). -/
def State.fieldsUp (s : State) (fs : List Nat) : State :=
  let fs := fs.filter (fun f => !(s.field f).powered)
  s.modPower (fun p => { p with
    fieldsOn := p.fieldsOn ||| BitVec.ofNat 16 (sumL (fs.map (2 ^ ·)))
    addPend := p.addPend ||| BitVec.ofNat 16 (sumL (fs.map (2 ^ ·))) })

/-- A command takes effect (R449–R453): source 899 becomes pending. -/
def State.pwrEffect (s : State) (w : Word) : State :=
  let all := upTo 16
  let from3 := s.power.state ≥ 3
  let s := match pwrTarget w with
    | 0 => s.fieldsUp all
    | 1 => (s.fieldsUp (all.filter (fun f => bit (pwrFields w) f))).fieldsDown (pwrNames w) []
    | 2 => s.fieldsDown [] all
    | _ => s.fieldsDown [] all
  let t := min 4 (pwrTarget w)
  let s := s.modPower (fun p => { p with
    state := t, drain := none, cmdSwn := s.glob.swn
    entering := if t ≥ 3 then some t else none
    leaving := (from3 && decide (t < 3)) || (p.leaving && decide (t < 3)) })
  let s := if from3 && t < 3 then
      { s with ctrl := { s.ctrl with halted := s.ctrl.halted.filter (fun c => decide (c ≥ 12)) } } else s
  s.pendSrc 899

/-- Jobs with units on removed capacity complete with POWER_CUT (R81). -/
def State.powerCut (s : State) (xs : List Nat) : State :=
  (s.adm.jobs.filter (fun j => !j.recorded && j.held.isNone && s.jobUses j xs)).foldl
    (fun s j => s.closeJob j.id 0x11 false) s

/-- A PWR_CMD becomes live at the commit step (R449, R450). In PS3 a command to PS3 is an event that Table 21.2 does not list (R9). -/
def State.pwrLive (s : State) (w : Word) : State :=
  if s.power.state = 3 ∧ pwrTarget w = 3 then s else
  let s := s.modPower (fun p => { p with drain := none })
  let cut := (pwrNames w).filter (fun x => s.resOn x)
  if cut.isEmpty then s.pwrEffect w
  else if pwrNow w then (s.powerCut cut).pwrEffect w
  else s.modPower (fun p => { p with drain := some w })

/-- No row holds a reservation on the capacity a DRAIN names; reseeds and the host window do not count (R449). -/
def State.drainMet (s : State) (w : Word) : Bool :=
  !s.adm.jobs.any (fun j => j.reserves && s.jobUses j (pwrNames w))

/-- PS_ENTRY_AT_SWATH_END (R452): CC0–CC11 halt; for PS4 every key-store commit is made durable, the working array is
zeroed and the device powers down. -/
def execPsEntryAtSwathEnd (s : State) : Host.Outcome State Fault Refusal :=
  whenRun s (match s.power.entering with
    | none => s
    | some t =>
      let s := (upTo 12).foldl (fun s c => s.haltCore c) s
      let s := s.modPower (fun p => { p with entering := none })
      let disarm := fun (s : State) (m : BitVec 16) => { s with tamper := { s.tamper with armed := s.tamper.armed &&& ~~~m } }
      if t < 4 then disarm s 1
      else
        let s := s.allMarks.durableN s.keys.commits.length
        let s := { s with keys := { s.keys with slots := [], pend := [], phase := 2 } }
        disarm (s.modPower (fun p => { p with ps4Ready := true })) 0x7FF)

/-! ## Ageing -/

/-- Largest degradation of die `d` (R457). -/
def State.dieAge (s : State) (d : Nat) : Nat :=
  (upTo 32).foldl (fun m i => max m (cget s.power.mons (32 * d + i))) 0

/-- V_need(d, k), rounded up to 5 mV. -/
def State.vNeed (s : State) (d k : Nat) : Nat := cdiv (Config.vNew d k + Config.ageGain d * s.dieAge d) 5 * 5
def State.ageOk (s : State) (k lim : Nat) : Bool :=
  decide (s.vNeed 0 k ≤ lim) && decide (s.vNeed 1 k ≤ lim) && decide (s.dieAge 2 ≤ Config.hubLimit k)

/-- The loop of `plan`: lower the step while it is not within `lim`. -/
def State.ageStep (s : State) (lim : Nat) : Nat → Nat
  | 0 => 0
  | k + 1 => if s.ageOk (k + 1) lim then k + 1 else s.ageStep lim k

/-- The point that `plan` chooses (R457): step, voltages, and whether AGE_MARGIN is raised. Under HOLD beyond its margin
there is no new point. -/
def State.plan (s : State) : Option Plan × Bool :=
  let k := s.glob.cclkStep
  let pol := fld (s.cfgN 0xC00010) 0 2
  let mk := fun k => some { step := k, vw := max (s.vNeed 0 k) 650, ve := max (s.vNeed 1 k) 650 }
  if pol = 2 then (if s.ageOk k 900 then (mk k, false) else (none, true))
  else
    let k := s.ageStep (if pol = 0 then 900 else fld (s.cfgN 0xC00010) 16 10) k
    if s.ageOk k 900 then (mk k, false) else (some { step := k, vw := 900, ve := 900 }, true)

/-- AGEING_MEASUREMENT_END (R456). -/
def execAgeingMeasurementEnd (degrade : List (BitVec 16)) (s : State) : Host.Outcome State Fault Refusal :=
  whenRun s (if s.power.measuring then
    s.modPower (fun p => { p with
      measuring := false, measured := true
      mons := (upTo 96).foldl (fun m i => cput m i (nth degrade i 0).toNat) p.mons })
  else s)

/-- MARGIN_PLAN (R457, R466): once for each measurement; source 900 becomes pending. -/
def execMarginPlan (s : State) : Host.Outcome State Fault Refusal :=
  whenRun s (if !s.power.measured then s else
    let (pt, bad) := s.plan
    let s := (s.uses [0xC00010]).modPower (fun p => { p with
      measured := false, planned := pt, plans := satInc 16 p.plans, marginOut := bad
      nextStep := match pt with | some x => x.step | none => s.glob.cclkStep })
    let s := if bad then s.raise 469 0 0 0 else s
    let s := if pt.isNone then { s with start := { s.start with startPlan := true } } else s
    s.pendSrc 900)

/-- The voltage of a rail, and its planned value. -/
def State.railV (s : State) (east : Bool) : Nat := if east then s.power.vddE else s.power.vddW
def Plan.rail (p : Plan) (east : Bool) : Nat := if east then p.ve else p.vw

/-- A voltage transaction that failed four times: no step is applied and AGE_MARGIN is raised (R508). -/
def State.avsFail (s : State) : State :=
  let s := s.modPower (fun p => { p with planned := none, falls := [], marginOut := true })
  ({ s with start := { s.start with startPlan := true } }).raise 469 0 0 0
/-- A transaction that one of its four attempts completes. -/
def State.avsDone (s : State) (east : Bool) (mv : Nat) : State :=
  (s.modPower (fun p => { p with
    vddW := if east then p.vddW else mv, vddE := if east then mv else p.vddE
    falls := p.falls.filter (fun f => f.1 != east) })).emit (.avs east mv)

/-- AVS_COMMAND (R507, R508): the rise of a planned point, or the fall of an applied one. -/
def execAvsCommand (east : Bool) (acks : List Bool) (s : State) : Host.Outcome State Fault Refusal :=
  let rise := match s.power.planned with
    | some p => if p.rail east > s.railV east then some (p.rail east) else none
    | none => none
  let want := match rise with
    | some mv => some mv
    | none => (s.power.falls.find? (fun f => f.1 == east)).map (fun f => f.2)
  whenRun s (match want with
    | none => s
    | some mv => if (acks.take 4).any id then s.avsDone east mv else s.avsFail)

/-- A planned step takes effect at offset 0 (R56, R458, R466), once every rise it needs is complete; falls follow. -/
def State.applyPlan (s : State) : State :=
  match s.power.planned with
  | none => s
  | some p =>
    if !(s.start.startPlan = false || s.swnN % 65536 = 4) then s
    else if p.vw > s.power.vddW || p.ve > s.power.vddE then s
    else
      let falls := (if p.vw < s.power.vddW then [(false, p.vw)] else []) ++
        (if p.ve < s.power.vddE then [(true, p.ve)] else [])
      let s := s.modPower (fun x => { x with planned := none, falls })
      { s with glob := { s.glob with cclkStep := p.step }, start := { s.start with startPlan := true } }

end Sys2Proof.Machine
end

