-- ==== Sys2Proof/Machine/Curves.lean ====
section
/-! DEFINITION. The classical public-key schemes of the big-number engine (R290, R292, R295, R297, R299): RSA with PKCS#1 v1.5 and PSS,
ECDSA on the NIST prime curves with the nonce of RFC 6979, Ed25519 and Ed448, X25519 and X448. The spec names them by their standards
(RFC 8017, FIPS 186-5, RFC 6979, RFC 8032, RFC 7748); their arithmetic is PRESUMED from those standards (log entry 4). -/

namespace Sys2Proof.Machine

/-! ## Modular arithmetic -/

/-- b^e mod m, over the low `n` bits of e. -/
def powModAux (b e m : Nat) : Nat → Nat
  | 0 => 1 % m
  | n + 1 =>
    let r := powModAux b (e / 2) m n
    if e % 2 = 1 then r * r % m * b % m else r * r % m
def powMod (b e m : Nat) : Nat := powModAux b e m (e.log2 + 1)
/-- Inverse modulo a prime. -/
def invMod (a p : Nat) : Nat := powMod a (p - 2) p
def subMod (a b p : Nat) : Nat := (a + (p - b % p)) % p
/-- A square root modulo a prime p with p % 4 = 3, or p % 8 = 5; a candidate when there is none. -/
def sqrtMod (a p : Nat) : Nat :=
  if p % 4 = 3 then powMod a ((p + 1) / 4) p
  else
    let r := powMod a ((p + 3) / 8) p
    if r * r % p = a % p then r else r * powMod 2 ((p - 1) / 4) p % p

/-! ## RSA (RFC 8017) -/

/-- The hash that bits [5:4] of FORM name (R292): function, digest bytes, block bytes, DER prefix of a DigestInfo. -/
def formHash (h : Nat) : (Bytes → Bytes) × Nat × Nat × Nat :=
  match h with
  | 0 => (sha256, 32, 64, 0x3031300d060960864801650304020105000420)
  | 1 => (sha384, 48, 128, 0x3041300d060960864801650304020205000430)
  | _ => (sha512, 64, 128, 0x3051300d060960864801650304020305000440)
/-- EMSA-PKCS1-v1_5 of a digest in `k` bytes. -/
def emsaPkcs1 (h : Nat) (digest : Bytes) (k : Nat) : Bytes :=
  let t := toBe 19 (formHash h).2.2.2 ++ digest
  [0#8, 1#8] ++ List.replicate (k - t.length - 3) 0xFF#8 ++ [0#8] ++ t
/-- EMSA-PSS of a digest with a salt, for a modulus of `k` whole bytes. -/
def emsaPss (h : Nat) (digest salt : Bytes) (k : Nat) : Bytes :=
  let (hash, hl, _, _) := formHash h
  let hh := hash (zeros 8 ++ digest ++ salt)
  let db := zeros (k - salt.length - hl - 2) ++ [1#8] ++ salt
  let masked := xorBytes db (mgf1 hash hl hh (k - hl - 1))
  (masked.modifyHead (· &&& 0x7F#8)) ++ hh ++ [0xBC#8]
/-- The salt of a PSS encoding of a digest, of any length; none where it is no encoding of it. -/
def pssSalt (h : Nat) (digest em : Bytes) : Option Bytes :=
  let (hash, hl, _, _) := formHash h
  let k := em.length
  let hh := slice em (k - hl - 1) hl
  let db := (xorBytes (em.take (k - hl - 1)) (mgf1 hash hl hh (k - hl - 1))).modifyHead (· &&& 0x7F#8)
  let salt := (db.dropWhile (· == 0#8)).drop 1
  if emsaPss h digest salt k == em then some salt else none
/-- RSA keys in a slot (R290): p, q, dp, dq, qInv at half the modulus length, then e. -/
def rsaPart (half : Nat) (sec : Bytes) (i : Nat) : Nat := beNat (slice sec (half * i) half)
def rsaE (half : Nat) (sec : Bytes) : Nat := beNat (slice sec (5 * half) 4)
/-- Recombination of the half-results by Garner's formula. -/
def rsaJoin (half : Nat) (sec : Bytes) (m1 m2 : Nat) : Nat :=
  let f := rsaPart half sec
  m2 + f 1 * (f 4 * (m1 + f 0 * (m2 / f 0 + 1) - m2) % f 0)
/-- c^d mod n by the CRT form of a slot. -/
def rsaPrivate (half : Nat) (sec : Bytes) (c : Nat) : Nat :=
  let f := rsaPart half sec
  rsaJoin half sec (powMod c (f 2) (f 0)) (powMod c (f 3) (f 1))
/-- Verification under the public exponent 65,537 (R290, Table 12.4). -/
def rsaVerify (form h : Nat) (n digest sig : Bytes) : Bool :=
  let k := n.length
  let s := beNat sig
  if sig.length ≠ k ∨ s = 0 ∨ s ≥ beNat n then false else
  let em := toBe k (powMod s 65537 (beNat n))
  if form = 0 then em == emsaPkcs1 h digest k
  else (em.getLast? == some 0xBC#8) && !(em.headD 0#8).getLsbD 7 && (pssSalt h digest em).isSome

/-! ## Short Weierstrass curves (FIPS 186-5) -/

structure Curve where
  /-- Bytes of a field element and of a scalar. -/
  len : Nat
  p : Nat
  b : Nat
  n : Nat
  gx : Nat
  gy : Nat
deriving DecidableEq, Repr
def p256 : Curve :=
  { len := 32
    p := 0xFFFFFFFF00000001000000000000000000000000FFFFFFFFFFFFFFFFFFFFFFFF
    b := 0x5AC635D8AA3A93E7B3EBBD55769886BC651D06B0CC53B0F63BCE3C3E27D2604B
    n := 0xFFFFFFFF00000000FFFFFFFFFFFFFFFFBCE6FAADA7179E84F3B9CAC2FC632551
    gx := 0x6B17D1F2E12C4247F8BCE6E563A440F277037D812DEB33A0F4A13945D898C296
    gy := 0x4FE342E2FE1A7F9B8EE7EB4A7C0F9E162BCE33576B315ECECBB6406837BF51F5 }
def p384 : Curve :=
  { len := 48
    p := 2 ^ 384 - 2 ^ 128 - 2 ^ 96 + 2 ^ 32 - 1
    b := 0xB3312FA7E23EE7E4988E056BE3F82D19181D9C6EFE8141120314088F5013875AC656398D8A2ED19D2A85C8EDD3EC2AEF
    n := 0xFFFFFFFFFFFFFFFFFFFFFFFFFFFFFFFFFFFFFFFFFFFFFFFFC7634D81F4372DDF581A0DB248B0A77AECEC196ACCC52973
    gx := 0xAA87CA22BE8B05378EB1C71EF320AD746E1D3B628BA79B9859F741E082542A385502F25DBF55296C3A545E3872760AB7
    gy := 0x3617DE4A96262C6F5D9E98BF9292DC29F8F41DBD289A147CE9DA3113B5F0B8C00A60B1CE1D7E819D7A431D7C90EA0E5F }
def p521 : Curve :=
  { len := 66
    p := 2 ^ 521 - 1
    b := 0x51953EB9618E1C9A1F929A21A0B68540EEA2DA725B99B315F3B8B489918EF109E156193951EC7E937B1652C0BD3BB1BF073573DF883D2C34F1EF451FD46B503F00
    n := 0x1FFFFFFFFFFFFFFFFFFFFFFFFFFFFFFFFFFFFFFFFFFFFFFFFFFFFFFFFFFFFFFFFFA51868783BF2F966B7FCC0148F709A5D03BB5C9B8899C47AEBB6FB71E91386409
    gx := 0xC6858E06B70404E9CD9E3ECB662395B4429C648139053FB521F828AF606B4D3DBAA14B5E77EFE75928FE1DC127A2FFA8DE3348B3C1856A429BF97E7E31C2E5BD66
    gy := 0x11839296A789A3BC0045C8A5FB42C7D1BD998F54449579B446817AFBD17273E662C97EE72995EF42640C550B9013FAD0761353C7086A272C24088BE94769FD16650 }
def curveOf (set : Nat) : Curve := if set = 0x71 then p256 else if set = 0x72 then p384 else p521

/-- A point: none is the point at infinity. -/
abbrev Pt := Option (Nat × Nat)
def Curve.add (c : Curve) : Pt → Pt → Pt
  | none, q => q
  | q, none => q
  | some (x1, y1), some (x2, y2) =>
    if x1 = x2 ∧ (y1 + y2) % c.p = 0 then none else
    let l := if x1 = x2 then (3 * x1 * x1 + (c.p - 3)) * invMod (2 * y1) c.p % c.p
      else subMod y2 y1 c.p * invMod (subMod x2 x1 c.p) c.p % c.p
    let x := subMod (l * l) (x1 + x2) c.p
    some (x, subMod (l * subMod x1 x c.p) y1 c.p)
/-- k P, over the low `n` bits of k. -/
def Curve.mulAux (c : Curve) (q : Pt) (k : Nat) : Nat → Pt
  | 0 => none
  | n + 1 =>
    let r := c.mulAux q (k / 2) n
    let r := c.add r r
    if k % 2 = 1 then c.add r q else r
def Curve.mul (c : Curve) (k : Nat) (q : Pt) : Pt := c.mulAux q k (k.log2 + 1)
def Curve.gen (c : Curve) : Pt := some (c.gx, c.gy)
def Curve.onCurve (c : Curve) (x y : Nat) : Bool :=
  decide (x < c.p) && decide (y < c.p) && y * y % c.p == (x * x * x + (c.p - 3) * x + c.b) % c.p
/-- x ‖ y, big-endian (R290). -/
def Curve.enc (c : Curve) : Pt → Bytes
  | none => zeros (2 * c.len)
  | some (x, y) => toBe c.len x ++ toBe c.len y
def Curve.dec (c : Curve) (b : Bytes) : Nat × Nat := (beNat (b.take c.len), beNat (b.drop c.len))

/-- A digest reduced to the bit length of the group order (FIPS 186-5). -/
def Curve.bits2int (c : Curve) (b : Bytes) : Nat := beNat b / 2 ^ (8 * b.length - (c.n.log2 + 1))
/-- Private key that the extra-bits method gives for seed bytes (R295). -/
def Curve.keygen (c : Curve) (seed : Bytes) : Bytes := toBe c.len (beNat seed % (c.n - 1) + 1)
/-- Candidate nonces of RFC 6979: K, V, bytes of T so far; the first in range is taken. -/
def rfc6979Loop (c : Curve) (mac : Bytes → Bytes → Bytes) (hl : Nat) : Nat → Bytes → Bytes → Nat
  | 0, _, _ => 1
  | n + 1, k, v =>
    let gen := (upTo (cdiv c.len hl)).foldl (fun (a : Bytes × Bytes) _ => let v := mac k a.1; (v, a.2 ++ v)) (v, [])
    let t := c.bits2int (gen.2.take (cdiv (c.n.log2 + 1) 8))
    if 1 ≤ t ∧ t < c.n then t else
    let k' := mac k (gen.1 ++ [0#8])
    rfc6979Loop c mac hl n k' (mac k' gen.1)
/-- The nonce of RFC 6979 with the hash that FORM names. -/
def rfc6979 (c : Curve) (h d : Nat) (digest : Bytes) : Nat :=
  let (hash, hl, bl, _) := formHash h
  let mac := hmac hash bl
  let x := toBe c.len d ++ toBe c.len (c.bits2int digest % c.n)
  let v := List.replicate hl 1#8
  let k := mac (zeros hl) (v ++ [0#8] ++ x)
  let v := mac k v
  let k := mac k (v ++ [1#8] ++ x)
  rfc6979Loop c mac hl 64 k (mac k v)
/-- r ‖ s for a nonce; none where the self-check of Table 12.3 fails: R is off the curve, or s = 0. An r of 0 makes s = e/k, and the
check does not look at it. -/
def ecdsaSign (c : Curve) (d k : Nat) (digest : Bytes) : Option Bytes :=
  match c.mul k c.gen with
  | none => none
  | some (x, y) =>
    let r := x % c.n
    let s := invMod k c.n * ((c.bits2int digest + r * d) % c.n) % c.n
    if c.onCurve x y && s != 0 then some (toBe c.len r ++ toBe c.len s) else none
def ecdsaVerify (c : Curve) (pub digest sig : Bytes) : Bool :=
  let (r, s) := c.dec sig
  if sig.length ≠ 2 * c.len ∨ r = 0 ∨ r ≥ c.n ∨ s = 0 ∨ s ≥ c.n then false else
  let w := invMod s c.n
  match c.add (c.mul (c.bits2int digest * w % c.n) c.gen) (c.mul (r * w % c.n) (some (c.dec pub))) with
  | none => false
  | some (x, _) => x % c.n == r

/-! ## Edwards curves (RFC 8032) -/

structure EdCurve where
  len : Nat
  p : Nat
  /-- a of a x² + y² = 1 + d x² y². -/
  a : Nat
  d : Nat
  order : Nat
  gx : Nat
  gy : Nat
  cofactor : Nat
deriving DecidableEq, Repr
def ed25519 : EdCurve :=
  { len := 32
    p := 2 ^ 255 - 19
    a := 2 ^ 255 - 20
    d := 0x52036CEE2B6FFE738CC740797779E89800700A4D4141D8AB75EB4DCA135978A3
    order := 2 ^ 252 + 0x14DEF9DEA2F79CD65812631A5CF5D3ED
    gx := 0x216936D3CD6E53FEC0A4E231FDD6DC5C692CC7609525A7B2C9562D608F25D51A
    gy := 0x6666666666666666666666666666666666666666666666666666666666666658
    cofactor := 8 }
def ed448 : EdCurve :=
  { len := 57
    p := 2 ^ 448 - 2 ^ 224 - 1
    a := 1
    d := 2 ^ 448 - 2 ^ 224 - 1 - 39081
    order := 2 ^ 446 - 0x8335DC163BB124B65129C96FDE933D8D723A70AADC873D6D54A7BB0D
    gx := 0x4F1970C66BED0DED221D15A622BF36DA9E146570470F1767EA6DE324A3D3A46412AE1AF72AB66511433B80E18B00938E2626A82BC70CC05E
    gy := 0x693F46716EB6BC248876203756C9C7624BEA73736CA3984087789C1E05A0C2D73AD3FF1CE67C39C4FDBD132C4ED7C8AD9808795BF230FA14
    cofactor := 4 }
def edOf (set : Nat) : EdCurve := if set = 0x81 then ed25519 else ed448
def EdCurve.add (c : EdCurve) (u v : Nat × Nat) : Nat × Nat :=
  let t := c.d * (u.1 * v.1 % c.p) % c.p * (u.2 * v.2 % c.p) % c.p
  ((u.1 * v.2 + u.2 * v.1) * invMod (1 + t) c.p % c.p,
   subMod (u.2 * v.2) (c.a * (u.1 * v.1 % c.p)) c.p * invMod (subMod 1 t c.p) c.p % c.p)
def EdCurve.mulAux (c : EdCurve) (q : Nat × Nat) (k : Nat) : Nat → Nat × Nat
  | 0 => (0, 1)
  | n + 1 =>
    let r := c.mulAux q (k / 2) n
    let r := c.add r r
    if k % 2 = 1 then c.add r q else r
def EdCurve.mul (c : EdCurve) (k : Nat) (q : Nat × Nat) : Nat × Nat := c.mulAux q k (k.log2 + 1)
def EdCurve.onCurve (c : EdCurve) (q : Nat × Nat) : Bool :=
  (c.a * (q.1 * q.1 % c.p) + q.2 * q.2) % c.p == (1 + c.d * (q.1 * q.1 % c.p) % c.p * (q.2 * q.2 % c.p)) % c.p
/-- Little-endian y with the sign of x in the top bit. -/
def EdCurve.enc (c : EdCurve) (q : Nat × Nat) : Bytes := toLe c.len (q.2 + 2 ^ (8 * c.len - 1) * (q.1 % 2))
/-- A point of a canonical encoding; none where there is none. -/
def EdCurve.dec (c : EdCurve) (b : Bytes) : Option (Nat × Nat) :=
  let w := leNat b
  let y := w % 2 ^ (8 * c.len - 1)
  let sign := w / 2 ^ (8 * c.len - 1)
  if b.length ≠ c.len ∨ y ≥ c.p then none else
  let x := sqrtMod (subMod (y * y) 1 c.p * invMod (subMod (c.d * (y * y % c.p)) c.a c.p) c.p) c.p
  if !c.onCurve (x, y) then none
  else if x = 0 ∧ sign = 1 then none
  else some (if x % 2 = sign then x else c.p - x, y)
/-- A public key that Table 12.4 accepts: canonical, decodable, of no small order. -/
def EdCurve.keyOk (c : EdCurve) (b : Bytes) : Bool :=
  match c.dec b with
  | none => false
  | some q => c.mul c.cofactor q != (0, 1)
/-- The hash with its domain string: Ed25519 (pure, no context) takes none. `ph` is the pre-hash form. -/
def EdCurve.hash (c : EdCurve) (ph : Bool) (ctx m : Bytes) : Bytes :=
  let head := [BitVec.ofNat 8 (b2n ph), BitVec.ofNat 8 ctx.length] ++ ctx
  if c.len = 32 then
    sha512 ((if ph || !ctx.isEmpty then ascii "SigEd25519 no Ed25519 collisions" ++ head else []) ++ m)
  else keccak 136 0x1F#8 (ascii "SigEd448" ++ head ++ m) 114
/-- The hash of a secret key, and its pruned scalar. -/
def EdCurve.expand (c : EdCurve) (sec : Bytes) : Nat × Bytes :=
  let h := if c.len = 32 then sha512 sec else keccak 136 0x1F#8 sec 114
  let w := leNat (h.take c.len)
  (if c.len = 32 then 2 ^ 254 + w % 2 ^ 254 / 8 * 8 else 2 ^ 447 + w % 2 ^ 447 / 4 * 4, h.drop c.len)
def EdCurve.pub (c : EdCurve) (sec : Bytes) : Bytes := c.enc (c.mul (c.expand sec).1 (c.gx, c.gy))
/-- Signing; none where R is off the curve (Table 12.3). -/
def EdCurve.sign (c : EdCurve) (sec : Bytes) (ph : Bool) (ctx m : Bytes) : Option Bytes :=
  let (s, pre) := c.expand sec
  let r := leNat (c.hash ph ctx (pre ++ m)) % c.order
  let q := c.mul r (c.gx, c.gy)
  let k := leNat (c.hash ph ctx (c.enc q ++ c.pub sec ++ m)) % c.order
  if c.onCurve q then some (c.enc q ++ toLe c.len ((r + k * s) % c.order)) else none
/-- [S]B = R + [k]A, with no cofactor (R299). -/
def EdCurve.verify (c : EdCurve) (pub : Bytes) (ph : Bool) (ctx m sig : Bytes) : Bool :=
  let s := leNat (sig.drop c.len)
  match c.dec pub, c.dec (sig.take c.len) with
  | some a, some r =>
    sig.length == 2 * c.len && decide (s < c.order) &&
      c.mul s (c.gx, c.gy) == c.add r (c.mul (leNat (c.hash ph ctx (sig.take c.len ++ pub ++ m)) % c.order) a)
  | _, _ => false

/-! ## X25519 and X448 (RFC 7748) -/

/-- Field prime, (A − 2)/4, scalar bits, bytes and base u of a set. -/
def montOf (set : Nat) : Nat × Nat × Nat × Nat × Nat :=
  if set = 0x91 then (2 ^ 255 - 19, 121665, 255, 32, 9) else (2 ^ 448 - 2 ^ 224 - 1, 39081, 448, 56, 5)
/-- One ladder step: (x2, z2), (x3, z3) with bit `b` of the scalar. -/
def montStep (p a24 x1 : Nat) (b : Bool) (v : (Nat × Nat) × (Nat × Nat)) : (Nat × Nat) × (Nat × Nat) :=
  let ((x2, z2), (x3, z3)) := if b then (v.2, v.1) else v
  let a := (x2 + z2) % p
  let bb := subMod x2 z2 p
  let aa := a * a % p
  let bb2 := bb * bb % p
  let e := subMod aa bb2 p
  let da := subMod x3 z3 p * a % p
  let cb := (x3 + z3) * bb % p
  let t := subMod da cb p
  let r := ((aa * bb2 % p, e * (aa + a24 * e) % p), ((da + cb) * (da + cb) % p, x1 * (t * t % p) % p))
  if b then (r.2, r.1) else r
def montLadder (p a24 x1 k : Nat) : Nat → (Nat × Nat) × (Nat × Nat) → (Nat × Nat) × (Nat × Nat)
  | 0, v => v
  | n + 1, v => montLadder p a24 x1 k n (montStep p a24 x1 (bit k n) v)
/-- The function of RFC 7748: a u-coordinate that is not canonical is reduced modulo p (R299). -/
def montMul (set : Nat) (sec u : Bytes) : Bytes :=
  let (p, a24, bits, len, _) := montOf set
  let w := leNat (fitB sec len)
  let k := if set = 0x91 then 2 ^ 254 + w % 2 ^ 254 / 8 * 8 else 2 ^ 447 + w % 2 ^ 447 / 4 * 4
  let x := leNat (fitB u len) % 2 ^ bits % p
  let ((x2, z2), _) := montLadder p a24 x k bits ((1, 0), (x, 1))
  toLe len (x2 * invMod z2 p % p)
def montPub (set : Nat) (sec : Bytes) : Bytes := montMul set sec [BitVec.ofNat 8 (montOf set).2.2.2.2]

end Sys2Proof.Machine
end

