-- ==== Sys2Proof/Machine/Lattice.lean ====
section
/-! DEFINITION. The schemes of the lattice engine: ML-KEM (FIPS 203) and ML-DSA (FIPS 204), which R267 names by their standards; their
arithmetic is PRESUMED from those standards (log entry 4). Every rejection sampler squeezes a fixed number of Keccak blocks and gives
none where they do not suffice (R278); the numbers are the argument `sq`: 0 SampleNTT and ExpandA, 1 ExpandS, 2 SampleInBall. -/

namespace Sys2Proof.Machine

def shake128 (b : Bytes) (n : Nat) : Bytes := keccak 168 0x1F#8 b n
def shake256 (b : Bytes) (n : Nat) : Bytes := keccak 136 0x1F#8 b n

/-! ## Polynomials: 256 coefficients modulo q -/

abbrev Poly := List Nat
def polyAdd (q : Nat) (a b : Poly) : Poly := List.zipWith (fun x y => (x + y) % q) a b
def polySub (q : Nat) (a b : Poly) : Poly := List.zipWith (fun x y => (x + (q - y % q)) % q) a b
def polyZero : Poly := List.replicate 256 0
def vecAdd (q : Nat) (a b : List Poly) : List Poly := List.zipWith (polyAdd q) a b
def vecSub (q : Nat) (a b : List Poly) : List Poly := List.zipWith (polySub q) a b
/-- The low `n` bits of `i` reversed. -/
def bitRev : Nat → Nat → Nat
  | 0, _ => 0
  | n + 1, i => i % 2 * 2 ^ n + bitRev n (i / 2)
/-- Powers of z modulo q: z⁰, …, of number `n`. -/
def powersAux (q z : Nat) : Nat → Nat → List Nat → List Nat
  | 0, _, acc => acc.reverse
  | n + 1, x, acc => powersAux q z n (x * z % q) (x :: acc)
def powers (q z n : Nat) : List Nat := powersAux q z n 1 []
/-- Value at the points zᵉ of the polynomial with coefficients `a`; `pw` holds the powers of z, of order `m`. -/
def evalAt (q m : Nat) (pw : Array Nat) (a : Poly) (e : Nat) : Nat :=
  (a.foldl (fun (s : Nat × Nat) x => (s.1 + x * (pw[s.2]?).getD 0, (s.2 + e) % m)) (0, 0)).1 % q

/-- Little-endian bits of bytes. -/
def bitsOf (b : Bytes) : List Bool := b.flatMap (fun x => (upTo 8).map x.getLsbD)
def bitsNat (l : List Bool) : Nat := l.foldr (fun b n => b2n b + 2 * n) 0
/-- Pack values of `d` bits each (ByteEncode, SimpleBitPack). -/
def packBits (d : Nat) (a : Poly) : Bytes :=
  (chunks 8 (d * a.length) (a.flatMap (fun x => (upTo d).map (bit x)))).map (fun l => BitVec.ofNat 8 (bitsNat l))
/-- Unpack 256 values of `d` bits each. -/
def unpackBits (d : Nat) (b : Bytes) : Poly := (chunks d 256 (bitsOf (b.take (32 * d)))).map bitsNat
/-- Pieces of `n` bytes. -/
def cut (n k : Nat) (b : Bytes) : List Bytes := (upTo k).map (fun i => slice b (n * i) n)
/-- Every member, or none when one is missing. -/
def allSome {α : Type} (l : List (Option α)) : Option (List α) :=
  l.foldr (fun x acc => match x, acc with | some x, some l => some (x :: l) | _, _ => none) (some [])
/-- First 256 values of a stream of candidates. -/
def first256 (l : List Nat) : Option Poly := if l.length < 256 then none else some (l.take 256)

/-! ## ML-KEM (FIPS 203) -/

def kq : Nat := 3329
structure KemSet where
  k : Nat
  eta1 : Nat
  du : Nat
  dv : Nat
deriving DecidableEq, Repr
def kemSet (set : Nat) : KemSet :=
  if set = 1 then { k := 2, eta1 := 3, du := 10, dv := 4 }
  else if set = 2 then { k := 3, eta1 := 2, du := 10, dv := 4 }
  else { k := 4, eta1 := 2, du := 11, dv := 5 }

def kPow : Array Nat := (powers kq 17 256).toArray
def evens (a : Poly) : Poly := (upTo 128).map (fun i => nth a (2 * i) 0)
def odds (a : Poly) : Poly := (upTo 128).map (fun i => nth a (2 * i + 1) 0)
/-- NTT: residues modulo X² − ζ^(2 rev(i) + 1). -/
def kNtt (a : Poly) : Poly :=
  let e := evens a
  let o := odds a
  (upTo 128).flatMap (fun i => let x := 2 * bitRev 7 i + 1; [evalAt kq 256 kPow e x, evalAt kq 256 kPow o x])
def kInv (a : Poly) : Poly :=
  let pick := fun (l : Poly) => let arr := l.toArray; (upTo 128).map (fun i => (arr[bitRev 7 i]?).getD 0)
  let e := pick (evens a)
  let o := pick (odds a)
  let one := fun (l : Poly) j => evalAt kq 256 kPow l ((256 - 2 * j % 256) % 256) * (kPow[(256 - j % 256) % 256]?).getD 0 % kq * 3303 % kq
  (upTo 128).flatMap (fun j => [one e j, one o j])
def kMul (a b : Poly) : Poly :=
  let aa := a.toArray
  let ba := b.toArray
  (upTo 128).flatMap (fun i =>
    let g := fun (x : Array Nat) j => (x[j]?).getD 0
    let a0 := g aa (2 * i)
    let a1 := g aa (2 * i + 1)
    let b0 := g ba (2 * i)
    let b1 := g ba (2 * i + 1)
    [(a0 * b0 + a1 * b1 % kq * g kPow (2 * bitRev 7 i + 1)) % kq, (a0 * b1 + a1 * b0) % kq])
def kDot (a b : List Poly) : Poly := (List.zipWith kMul a b).foldl (polyAdd kq) polyZero
/-- SampleNTT over 168-byte blocks. -/
def kSample (sq : Nat) (seed : Bytes) : Option Poly :=
  first256 ((cut 3 (56 * sq) (shake128 seed (168 * sq))).flatMap (fun b =>
    let w := leNat b
    [w % 4096, w / 4096].filter (fun x => decide (x < kq))))
/-- Row i, column j from ρ ‖ j ‖ i. -/
def kMatrix (sq k : Nat) (rho : Bytes) : Option (List (List Poly)) :=
  allSome ((upTo k).map (fun i => allSome ((upTo k).map (fun j => kSample sq (rho ++ [BitVec.ofNat 8 j, BitVec.ofNat 8 i])))))
/-- SamplePolyCBD of PRF(seed, n). -/
def kCbd (eta : Nat) (seed : Bytes) (n : Nat) : Poly :=
  (chunks (2 * eta) 256 (bitsOf (shake256 (seed ++ [BitVec.ofNat 8 n]) (64 * eta)))).map (fun l =>
    let x := (l.take eta).countP id
    let y := (l.drop eta).countP id
    (x + kq - y) % kq)
def kCompress (d x : Nat) : Nat := (2 ^ d * x + kq / 2) / kq % 2 ^ d
def kDecompress (d y : Nat) : Nat := (kq * y + 2 ^ (d - 1)) / 2 ^ d
def kCols (m : List (List Poly)) (k : Nat) : List (List Poly) := (upTo k).map (fun j => m.map (fun r => nth r j polyZero))

/-- Key pair from d ‖ z: encapsulation key, decapsulation key. -/
def kemKeygen (sq : Nat → Nat) (set : Nat) (seed : Bytes) : Option (Bytes × Bytes) :=
  let p := kemSet set
  let g := sha3x512 (fitB seed 32 ++ [BitVec.ofNat 8 p.k])
  let rho := g.take 32
  let sigma := g.drop 32
  (kMatrix (sq 0) p.k rho).map (fun a =>
    let s := (upTo p.k).map (fun i => kNtt (kCbd p.eta1 sigma i))
    let e := (upTo p.k).map (fun i => kNtt (kCbd p.eta1 sigma (p.k + i)))
    let t := List.zipWith (fun r x => polyAdd kq (kDot r s) x) a e
    let ek := t.flatMap (packBits 12) ++ rho
    (ek, s.flatMap (packBits 12) ++ ek ++ sha3x256 ek ++ slice seed 32 32))
/-- K-PKE encryption of 32 bytes under coins `r`. -/
def kEncrypt (sq : Nat → Nat) (set : Nat) (ek m r : Bytes) : Option Bytes :=
  let p := kemSet set
  let t := (cut 384 p.k ek).map (fun b => (unpackBits 12 b).map (· % kq))
  (kMatrix (sq 0) p.k (slice ek (384 * p.k) 32)).map (fun a =>
    let y := (upTo p.k).map (fun i => kNtt (kCbd p.eta1 r i))
    let e1 := (upTo p.k).map (fun i => kCbd 2 r (p.k + i))
    let u := List.zipWith (fun c e => polyAdd kq (kInv (kDot c y)) e) (kCols a p.k) e1
    let mu := (bitsOf m).map (fun b => kDecompress 1 (b2n b))
    let v := polyAdd kq (polyAdd kq (kInv (kDot t y)) (kCbd 2 r (2 * p.k))) mu
    u.flatMap (fun x => packBits p.du (x.map (kCompress p.du))) ++ packBits p.dv (v.map (kCompress p.dv)))
/-- Ciphertext and secret for 32 random bytes. -/
def kemEncaps (sq : Nat → Nat) (set : Nat) (ek m : Bytes) : Option (Bytes × Bytes) :=
  let g := sha3x512 (fitB m 32 ++ sha3x256 ek)
  (kEncrypt sq set ek (fitB m 32) (g.drop 32)).map (fun c => (c, g.take 32))
/-- Decapsulation with implicit rejection. -/
def kemDecaps (sq : Nat → Nat) (set : Nat) (dk c : Bytes) : Option Bytes :=
  let p := kemSet set
  let u := (cut (32 * p.du) p.k c).map (fun b => (unpackBits p.du b).map (kDecompress p.du))
  let v := (unpackBits p.dv (slice c (32 * p.du * p.k) (32 * p.dv))).map (kDecompress p.dv)
  let s := (cut 384 p.k dk).map (fun b => (unpackBits 12 b).map (· % kq))
  let w := polySub kq v (kInv (kDot s (u.map kNtt)))
  let m := packBits 1 (w.map (kCompress 1))
  let ek := slice dk (384 * p.k) (384 * p.k + 32)
  let g := sha3x512 (m ++ slice dk (768 * p.k + 32) 32)
  (kEncrypt sq set ek m (g.drop 32)).map (fun c' =>
    if c' = c then g.take 32 else shake256 (slice dk (768 * p.k + 64) 32 ++ c) 32)
/-- The modulus check of an encapsulation key. -/
def kemKeyOk (set : Nat) (ek : Bytes) : Bool :=
  (cut 384 (kemSet set).k ek).all (fun b => (unpackBits 12 b).all (fun x => decide (x < kq)))

/-! ## ML-DSA (FIPS 204) -/

def dq : Nat := 8380417
structure DsaSet where
  k : Nat
  l : Nat
  eta : Nat
  tau : Nat
  beta : Nat
  gamma1 : Nat
  gamma2 : Nat
  omega : Nat
  lambda : Nat
deriving DecidableEq, Repr
def dsaSet (set : Nat) : DsaSet :=
  if set = 0x11 then { k := 4, l := 4, eta := 2, tau := 39, beta := 78, gamma1 := 2 ^ 17, gamma2 := 95232, omega := 80, lambda := 128 }
  else if set = 0x12 then
    { k := 6, l := 5, eta := 4, tau := 49, beta := 196, gamma1 := 2 ^ 19, gamma2 := 261888, omega := 55, lambda := 192 }
  else { k := 8, l := 7, eta := 2, tau := 60, beta := 120, gamma1 := 2 ^ 19, gamma2 := 261888, omega := 75, lambda := 256 }

def dPow : Array Nat := (powers dq 1753 512).toArray
/-- NTT: values at ζ^(2 rev(i) + 1). -/
def dNtt (a : Poly) : Poly := (upTo 256).map (fun i => evalAt dq 512 dPow a (2 * bitRev 8 i + 1))
def dInv (a : Poly) : Poly :=
  let arr := a.toArray
  let e := (upTo 256).map (fun i => (arr[bitRev 8 i]?).getD 0)
  (upTo 256).map (fun j =>
    evalAt dq 512 dPow e ((512 - 2 * j % 512) % 512) * (dPow[(512 - j % 512) % 512]?).getD 0 % dq * 8347681 % dq)
def dMul (a b : Poly) : Poly := List.zipWith (fun x y => x * y % dq) a b
def dDot (a b : List Poly) : Poly := (List.zipWith dMul a b).foldl (polyAdd dq) polyZero
/-- Centred residue of x modulo q. -/
def centre (x : Nat) : Int := if x > dq / 2 then (x : Int) - dq else x
def absMax (v : List Poly) : Nat := v.foldl (fun m a => a.foldl (fun m x => max m (centre x).natAbs) m) 0
def ofInt (x : Int) : Nat := (x % (dq : Int)).toNat
/-- BitPack of values in [−a, b]: b − x in the bits of a + b. -/
def packRange (a b : Nat) (p : Poly) : Bytes := packBits ((a + b).log2 + 1) (p.map (fun x => ((b : Int) - centre x).toNat))
def unpackRange (a b : Nat) (x : Bytes) : Poly := (unpackBits ((a + b).log2 + 1) x).map (fun v => ofInt ((b : Int) - v))

/-- ExpandA: row r, column s from ρ ‖ s ‖ r. -/
def dMatrix (sq : Nat) (p : DsaSet) (rho : Bytes) : Option (List (List Poly)) :=
  allSome ((upTo p.k).map (fun r => allSome ((upTo p.l).map (fun s =>
    first256 (((cut 3 (56 * sq) (shake128 (rho ++ [BitVec.ofNat 8 s, BitVec.ofNat 8 r]) (168 * sq))).map (fun b => leNat b % 2 ^ 23)).filter
      (fun x => decide (x < dq)))))))
/-- RejBoundedPoly: coefficients in [−η, η]. -/
def dBounded (sq eta : Nat) (seed : Bytes) (n : Nat) : Option Poly :=
  first256 ((shake256 (seed ++ toLe 2 n) (136 * sq)).flatMap (fun b =>
    [b.toNat % 16, b.toNat / 16].filterMap (fun z =>
      if eta = 2 then (if z < 15 then some ((2 + dq - z % 5) % dq) else none)
      else if z < 9 then some ((4 + dq - z) % dq) else none)))
def dMask (p : DsaSet) (seed : Bytes) (kappa : Nat) : List Poly :=
  (upTo p.l).map (fun r => unpackRange (p.gamma1 - 1) p.gamma1 (shake256 (seed ++ toLe 2 (kappa + r)) (32 * (p.gamma1.log2 + 1))))
/-- Positions of SampleInBall: the next byte not above i. -/
def dBall : Nat → List Byte → List Bool → Nat → Poly → Option Poly
  | 0, _, _, _, c => some c
  | n + 1, bs, signs, i, c =>
    match bs.dropWhile (fun b => decide (b.toNat > i)) with
    | [] => none
    | j :: rest => dBall n rest (signs.drop 1) (i + 1) ((c.set i (nth c j.toNat 0)).set j.toNat (if signs.headD false then dq - 1 else 1))
def dSampleBall (sq : Nat) (p : DsaSet) (seed : Bytes) : Option Poly :=
  let b := shake256 seed (136 * sq)
  dBall p.tau (b.drop 8) (bitsOf (b.take 8)) (256 - p.tau) polyZero
/-- Power2Round: t1, t0. -/
def dRound (x : Nat) : Nat × Nat :=
  let r := x % 8192
  if r > 4096 then ((x + 8192 - r) / 8192, (r + dq - 8192) % dq) else ((x - r) / 8192, r)
/-- Decompose: high part, low part as a signed number. -/
def decomp (g x : Nat) : Nat × Int :=
  let r := x % (2 * g)
  let r0 : Int := if r > g then (r : Int) - 2 * g else r
  if (x : Int) - r0 = dq - 1 then (0, r0 - 1) else ((((x : Int) - r0) / (2 * g)).toNat, r0)
def useHint (g : Nat) (h : Bool) (x : Nat) : Nat :=
  let m := (dq - 1) / (2 * g)
  let (r1, r0) := decomp g x
  if !h then r1 else if r0 > 0 then (r1 + 1) % m else (r1 + m - 1) % m
def encW1 (p : DsaSet) (w : List Poly) : Bytes := w.flatMap (packBits (if p.gamma2 = 95232 then 6 else 4))
def encHint (p : DsaSet) (h : List (List Bool)) : Bytes :=
  let pos := h.map (fun r => (r.zipIdx.filter (·.1)).map (fun x => BitVec.ofNat 8 x.2))
  fitB pos.flatten p.omega ++ (upTo p.k).map (fun i => BitVec.ofNat 8 (sumL ((pos.take (i + 1)).map List.length)))
/-- HintBitUnpack: none where the encoding is malformed. -/
def decHint (p : DsaSet) (y : Bytes) : Option (List (List Bool)) :=
  let ends := (upTo p.k).map (fun i => (nth y (p.omega + i) 0#8).toNat)
  let from_ := 0 :: ends
  let rows := (upTo p.k).map (fun i => ((slice y (nth from_ i 0) (nth ends i 0 - nth from_ i 0)).map BitVec.toNat, nth from_ i 0, nth ends i 0))
  let rising := fun (l : List Nat) => (List.zipWith (fun a b => decide (a < b)) l (l.drop 1)).all id
  if rows.all (fun r => decide (r.2.1 ≤ r.2.2) && decide (r.2.2 ≤ p.omega) && rising r.1) &&
      ((y.take p.omega).drop (nth ends (p.k - 1) 0)).all (· == 0#8) then
    some (rows.map (fun r => (upTo 256).map (fun j => r.1.contains j)))
  else none

def dS1Bytes (p : DsaSet) : Nat := 32 * ((2 * p.eta).log2 + 1)
/-- Key pair from ξ: public key, secret key. -/
def dsaKeygen (sq : Nat → Nat) (set : Nat) (xi : Bytes) : Option (Bytes × Bytes) :=
  let p := dsaSet set
  let g := shake256 (fitB xi 32 ++ [BitVec.ofNat 8 p.k, BitVec.ofNat 8 p.l]) 128
  let rho := g.take 32
  match dMatrix (sq 0) p rho, allSome ((upTo (p.l + p.k)).map (dBounded (sq 1) p.eta (slice g 32 64))) with
  | some a, some s =>
    let s1 := s.take p.l
    let s2 := s.drop p.l
    let n1 := s1.map dNtt
    let t := List.zipWith (fun r e => polyAdd dq (dInv (dDot r n1)) e) a s2
    let pk := rho ++ t.flatMap (fun x => packBits 10 (x.map (fun c => (dRound c).1)))
    some (pk, rho ++ g.drop 96 ++ shake256 pk 64 ++ (s1 ++ s2).flatMap (packRange p.eta p.eta) ++
      t.flatMap (fun x => packRange 4095 4096 (x.map (fun c => (dRound c).2))))
  | _, _ => none
/-- The formatted message of the pure form, the SHA-512 pre-hash form, or none: 2 gives μ itself. -/
def formMsg (form : Nat) (ctx m : Bytes) : Bytes :=
  if form = 2 then m
  else [BitVec.ofNat 8 form, BitVec.ofNat 8 ctx.length] ++ ctx ++ (if form = 1 then toBe 11 0x0609608648016503040203 else []) ++ m
def dsaMu (form : Nat) (tr ctx m : Bytes) : Bytes := if form = 2 then m else shake256 (tr ++ formMsg form ctx m) 64
/-- What one attempt ends with: no sample, rejected, or a signature. -/
inductive Attempt where
  | short
  | rejected
  | signed (sig : Bytes)
deriving DecidableEq, Repr
/-- Attempt `n` (from 1) of a signature with randomness `rnd`: mask vectors from κ = (n − 1) l. -/
def dsaAttempt (sq : Nat → Nat) (set : Nat) (sk : Bytes) (form : Nat) (ctx m rnd : Bytes) (n : Nat) : Attempt :=
  let p := dsaSet set
  let mu := dsaMu form (slice sk 64 64) ctx m
  let es := dS1Bytes p
  let polys := fun off len cnt (f : Bytes → Poly) => (cut len cnt (sk.drop off)).map f
  let s1 := polys 128 es p.l (unpackRange p.eta p.eta)
  let s2 := polys (128 + es * p.l) es p.k (unpackRange p.eta p.eta)
  let t0 := polys (128 + es * (p.l + p.k)) 416 p.k (unpackRange 4095 4096)
  match dMatrix (sq 0) p (sk.take 32) with
  | none => .short
  | some a =>
    let y := dMask p (shake256 (slice sk 32 32 ++ fitB rnd 32 ++ mu) 64) ((n - 1) * p.l)
    let ny := y.map dNtt
    let w := a.map (fun r => dInv (dDot r ny))
    let ct := shake256 (mu ++ encW1 p (w.map (fun x => x.map (fun c => (decomp p.gamma2 c).1)))) (p.lambda / 4)
    match dSampleBall (sq 2) p ct with
    | none => .short
    | some c =>
      let nc := dNtt c
      let times := fun (v : List Poly) => v.map (fun x => dInv (dMul nc (dNtt x)))
      let z := vecAdd dq y (times s1)
      let r := vecSub dq w (times s2)
      let low := r.foldl (fun m x => x.foldl (fun m c => max m (decomp p.gamma2 c).2.natAbs) m) 0
      let ct0 := times t0
      let h := List.zipWith (List.zipWith (fun v t => (decomp p.gamma2 v).1 != (decomp p.gamma2 ((v + t) % dq)).1)) r ct0
      if absMax z ≥ p.gamma1 - p.beta ∨ low ≥ p.gamma2 - p.beta ∨ absMax ct0 ≥ p.gamma2 ∨
          sumL (h.map (fun r => r.countP id)) > p.omega then .rejected
      else .signed (ct ++ z.flatMap (packRange (p.gamma1 - 1) p.gamma1) ++ encHint p h)
/-- Verification; none where a sample does not suffice. A signature of the wrong length or malformed is not valid. -/
def dsaVerify (sq : Nat → Nat) (set : Nat) (pk : Bytes) (form : Nat) (ctx m sig : Bytes) : Option Bool :=
  let p := dsaSet set
  let c0 := p.lambda / 4
  let zl := 32 * (p.gamma1.log2 + 1)
  let ct := sig.take c0
  let z := (cut zl p.l (sig.drop c0)).map (unpackRange (p.gamma1 - 1) p.gamma1)
  let t1 := (cut 320 p.k (pk.drop 32)).map (fun b => (unpackBits 10 b).map (· * 8192 % dq))
  let mu := dsaMu form (shake256 pk 64) ctx m
  match dMatrix (sq 0) p (pk.take 32), dSampleBall (sq 2) p ct with
  | some a, some c =>
    match decHint p (slice sig (c0 + zl * p.l) (p.omega + p.k)) with
    | none => some false
    | some h =>
      let nz := z.map dNtt
      let nc := dNtt c
      let w := List.zipWith (fun r t => dInv (polySub dq (dDot r nz) (dMul nc (dNtt t)))) a t1
      let w1 := List.zipWith (List.zipWith (useHint p.gamma2)) h w
      some (sig.length == c0 + zl * p.l + p.omega + p.k && decide (absMax z < p.gamma1 - p.beta) &&
        ct == shake256 (mu ++ encW1 p w1) c0)
  | _, _ => none

end Sys2Proof.Machine
end

