-- ==== Sys2Proof/Machine/HashSig.lean ====
section
/-! DEFINITION. The schemes of the hash-signature engine: SLH-DSA (FIPS 205), and verification under LMS, HSS, XMSS and XMSS^MT
(SP 800-208 with RFC 8554 and RFC 8391), which R267 names by their standards; their arithmetic is PRESUMED from those standards (log
entry 4). -/

namespace Sys2Proof.Machine

/-- Digits of `w` bits each, most significant first, from the front of a string. -/
def digitsBe (w n : Nat) (b : Bytes) : List Nat :=
  let all := beNat b
  let bits := 8 * b.length
  (upTo n).map (fun i => if (i + 1) * w ≤ bits then all / 2 ^ (bits - (i + 1) * w) % 2 ^ w else 0)
/-- The checksum digits of a Winternitz message in base 16: 3 digits after 4 bits of padding. -/
def wotsDigits (n : Nat) (m : Bytes) : List Nat :=
  let d := digitsBe 4 (2 * n) m
  d ++ digitsBe 4 3 (toBe 2 (sumL (d.map (15 - ·)) * 16))

/-! ## SLH-DSA (FIPS 205) -/

structure SlhSet where
  shake : Bool
  n : Nat
  h : Nat
  d : Nat
  a : Nat
  k : Nat
  m : Nat
deriving DecidableEq, Repr
/-- Sets of Table 11.2: even codes are the SHAKE sets. -/
def slhSet (set : Nat) : SlhSet :=
  let f := nth [(16, 63, 7, 12, 14, 30), (16, 66, 22, 6, 33, 34), (24, 63, 7, 14, 17, 39), (24, 66, 22, 8, 33, 42), (32, 64, 8, 14, 22, 47),
    (32, 68, 17, 9, 35, 49)] ((set - 0x21) / 2) (0, 0, 0, 0, 0, 0)
  { shake := set % 2 == 0, n := f.1, h := f.2.1, d := f.2.2.1, a := f.2.2.2.1, k := f.2.2.2.2.1, m := f.2.2.2.2.2 }
def SlhSet.hp (p : SlhSet) : Nat := p.h / p.d

/-- An address: layer, tree, type and the three words after it. -/
structure SlhAdrs where
  layer : Nat
  tree : Nat
  type : Nat
  w1 : Nat
  w2 : Nat
  w3 : Nat
deriving DecidableEq, Repr
def SlhAdrs.tail (x : SlhAdrs) : Bytes := toBe 4 x.w1 ++ toBe 4 x.w2 ++ toBe 4 x.w3
def SlhAdrs.bytes (x : SlhAdrs) : Bytes := toBe 4 x.layer ++ toBe 12 x.tree ++ toBe 4 x.type ++ x.tail
def SlhAdrs.short (x : SlhAdrs) : Bytes := toBe 1 x.layer ++ toBe 8 x.tree ++ toBe 1 x.type ++ x.tail
/-- The tweakable hash over one input block (F, PRF) and over more (H, T). -/
def SlhSet.f (p : SlhSet) (seed : Bytes) (x : SlhAdrs) (m : Bytes) : Bytes :=
  if p.shake then shake256 (seed ++ x.bytes ++ m) p.n else (sha256 (seed ++ zeros (64 - p.n) ++ x.short ++ m)).take p.n
def SlhSet.t (p : SlhSet) (seed : Bytes) (x : SlhAdrs) (m : Bytes) : Bytes :=
  if p.shake then shake256 (seed ++ x.bytes ++ m) p.n
  else if p.n = 16 then (sha256 (seed ++ zeros 48 ++ x.short ++ m)).take 16
  else (sha512 (seed ++ zeros (128 - p.n) ++ x.short ++ m)).take p.n
def SlhSet.prfMsg (p : SlhSet) (prf rnd m : Bytes) : Bytes :=
  if p.shake then shake256 (prf ++ rnd ++ m) p.n
  else if p.n = 16 then (hmac sha256 64 prf (rnd ++ m)).take 16
  else (hmac sha512 128 prf (rnd ++ m)).take p.n
def SlhSet.hMsg (p : SlhSet) (r seed root m : Bytes) : Bytes :=
  if p.shake then shake256 (r ++ seed ++ root ++ m) p.m
  else if p.n = 16 then mgf1 sha256 32 (r ++ seed ++ sha256 (r ++ seed ++ root ++ m)) p.m
  else mgf1 sha512 64 (r ++ seed ++ sha512 (r ++ seed ++ root ++ m)) p.m

/-- `steps` steps of a chain from position `i`. -/
def SlhSet.chain (p : SlhSet) (seed : Bytes) (x : SlhAdrs) (v : Bytes) (i steps : Nat) : Bytes :=
  (upTo steps).foldl (fun v j => p.f seed { x with w3 := i + j } v) v
def SlhSet.wotsSk (p : SlhSet) (sk seed : Bytes) (x : SlhAdrs) (i : Nat) : Bytes := p.f seed { x with type := 5, w2 := i, w3 := 0 } sk
def SlhSet.wotsPk (p : SlhSet) (seed : Bytes) (x : SlhAdrs) (tops : List Bytes) : Bytes :=
  p.t seed { x with type := 1, w2 := 0, w3 := 0 } tops.flatten
/-- Public key of the leaf that `x` names by its key pair. -/
def SlhSet.wotsGen (p : SlhSet) (sk seed : Bytes) (x : SlhAdrs) : Bytes :=
  p.wotsPk seed x ((upTo (2 * p.n + 3)).map (fun i => p.chain seed { x with w2 := i } (p.wotsSk sk seed x i) 0 15))
def SlhSet.wotsSign (p : SlhSet) (sk seed : Bytes) (x : SlhAdrs) (m : Bytes) : Bytes :=
  (wotsDigits p.n m).zipIdx.flatMap (fun d => p.chain seed { x with w2 := d.2 } (p.wotsSk sk seed x d.2) 0 d.1)
def SlhSet.wotsFromSig (p : SlhSet) (seed : Bytes) (x : SlhAdrs) (sig m : Bytes) : Bytes :=
  p.wotsPk seed x ((wotsDigits p.n m).zipIdx.map (fun d => p.chain seed { x with w2 := d.2 } (slice sig (p.n * d.2) p.n) d.1 (15 - d.1)))
/-- Node `i` at height `z` of a tree whose leaves are `leaf` and whose inner nodes take address `x`. -/
def SlhSet.node (p : SlhSet) (seed : Bytes) (x : SlhAdrs) (leaf : Nat → Bytes) : Nat → Nat → Bytes
  | 0, i => leaf i
  | z + 1, i => p.t seed { x with w2 := z + 1, w3 := i } (SlhSet.node p seed x leaf z (2 * i) ++ SlhSet.node p seed x leaf z (2 * i + 1))
/-- Root from a leaf, its index and its authentication path. -/
def SlhSet.climb (p : SlhSet) (seed : Bytes) (x : SlhAdrs) (z idx : Nat) (v : Bytes) : List Bytes → Bytes
  | [] => v
  | a :: rest =>
    let up := { x with w2 := z + 1, w3 := idx / 2 }
    SlhSet.climb p seed x (z + 1) (idx / 2) (p.t seed up (if idx % 2 = 0 then v ++ a else a ++ v)) rest
/-- Sibling index on the path of leaf `i` at height `z`. -/
def sibling (i z : Nat) : Nat := if i / 2 ^ z % 2 = 0 then i / 2 ^ z + 1 else i / 2 ^ z - 1
def slhLeafAdrs (layer tree leaf : Nat) : SlhAdrs := { layer, tree, type := 0, w1 := leaf, w2 := 0, w3 := 0 }
def slhTreeAdrs (layer tree : Nat) : SlhAdrs := { layer, tree, type := 2, w1 := 0, w2 := 0, w3 := 0 }
/-- Signature of one XMSS layer. -/
def SlhSet.xmssSign (p : SlhSet) (sk seed : Bytes) (layer tree leaf : Nat) (m : Bytes) : Bytes :=
  p.wotsSign sk seed (slhLeafAdrs layer tree leaf) m ++ (upTo p.hp).flatMap (fun z =>
    p.node seed (slhTreeAdrs layer tree) (fun i => p.wotsGen sk seed (slhLeafAdrs layer tree i)) z (sibling leaf z))
def SlhSet.xmssRoot (p : SlhSet) (seed : Bytes) (layer tree leaf : Nat) (sig m : Bytes) : Bytes :=
  let w := (2 * p.n + 3) * p.n
  p.climb seed (slhTreeAdrs layer tree) 0 leaf (p.wotsFromSig seed (slhLeafAdrs layer tree leaf) sig m)
    (cut p.n p.hp (sig.drop w))
/-- Hypertree signature and root, layer by layer. -/
def SlhSet.htSign (p : SlhSet) (sk seed : Bytes) : Nat → Nat → Nat → Nat → Bytes → Bytes
  | 0, _, _, _, _ => []
  | n + 1, layer, tree, leaf, m =>
    let sig := p.xmssSign sk seed layer tree leaf m
    sig ++ SlhSet.htSign p sk seed n (layer + 1) (tree / 2 ^ p.hp) (tree % 2 ^ p.hp) (if n = 0 then [] else p.xmssRoot seed layer tree leaf sig m)
def SlhSet.htRoot (p : SlhSet) (seed : Bytes) : Nat → Nat → Nat → Nat → Bytes → Bytes → Bytes
  | 0, _, _, _, _, m => m
  | n + 1, layer, tree, leaf, sig, m =>
    let one := (2 * p.n + 3 + p.hp) * p.n
    SlhSet.htRoot p seed n (layer + 1) (tree / 2 ^ p.hp) (tree % 2 ^ p.hp) (sig.drop one) (p.xmssRoot seed layer tree leaf sig m)
def SlhSet.forsSk (p : SlhSet) (sk seed : Bytes) (x : SlhAdrs) (i : Nat) : Bytes := p.f seed { x with type := 6, w2 := 0, w3 := i } sk
def SlhSet.forsSign (p : SlhSet) (sk seed : Bytes) (x : SlhAdrs) (md : Bytes) : Bytes :=
  (digitsBe p.a p.k md).zipIdx.flatMap (fun d =>
    p.forsSk sk seed x (d.2 * 2 ^ p.a + d.1) ++ (upTo p.a).flatMap (fun z =>
      p.node seed x (fun i => p.f seed { x with w2 := 0, w3 := i } (p.forsSk sk seed x i)) z (d.2 * 2 ^ (p.a - z) + sibling d.1 z)))
def SlhSet.forsRoot (p : SlhSet) (seed : Bytes) (x : SlhAdrs) (sig md : Bytes) : Bytes :=
  let roots := (digitsBe p.a p.k md).zipIdx.flatMap (fun d =>
    let one := sig.drop (d.2 * (p.a + 1) * p.n)
    let i := d.2 * 2 ^ p.a + d.1
    p.climb seed x 0 i (p.f seed { x with w2 := 0, w3 := i } (one.take p.n)) (cut p.n p.a (one.drop p.n)))
  p.t seed { x with type := 4, w2 := 0, w3 := 0 } roots
/-- FORS message, tree and leaf of a message digest. -/
def SlhSet.split (p : SlhSet) (digest : Bytes) : Bytes × Nat × Nat :=
  let a := cdiv (p.k * p.a) 8
  let b := cdiv (p.h - p.hp) 8
  (digest.take a, beNat (slice digest a b) % 2 ^ (p.h - p.hp), beNat (slice digest (a + b) (cdiv p.hp 8)) % 2 ^ p.hp)
/-- Randomizer and message digest: what a signature depends on beside the key. -/
def slhBegin (set : Nat) (sk m rnd : Bytes) : Bytes × Bytes :=
  let p := slhSet set
  let r := p.prfMsg (slice sk p.n p.n) rnd m
  (r, p.hMsg r (slice sk (2 * p.n) p.n) (slice sk (3 * p.n) p.n) m)
/-- The signature that a randomizer and a digest give. -/
def slhFinish (set : Nat) (sk r digest : Bytes) : Bytes :=
  let p := slhSet set
  let seed := slice sk (2 * p.n) p.n
  let (md, tree, leaf) := p.split digest
  let x := { slhLeafAdrs 0 tree leaf with type := 3 }
  let fors := p.forsSign (sk.take p.n) seed x md
  r ++ fors ++ p.htSign (sk.take p.n) seed p.d 0 tree leaf (p.forsRoot seed x fors md)
def slhSign (set : Nat) (sk : Bytes) (form : Nat) (ctx m rnd : Bytes) : Bytes :=
  let b := slhBegin set sk (formMsg form ctx m) rnd
  slhFinish set sk b.1 b.2
def slhVerify (set : Nat) (pk : Bytes) (form : Nat) (ctx m sig : Bytes) : Bool :=
  let p := slhSet set
  let seed := pk.take p.n
  let root := slice pk p.n p.n
  let r := sig.take p.n
  let (md, tree, leaf) := p.split (p.hMsg r seed root (formMsg form ctx m))
  let x := { slhLeafAdrs 0 tree leaf with type := 3 }
  let fl := p.k * (p.a + 1) * p.n
  sig.length == p.n + fl + (p.d * (2 * p.n + 3) + p.h) * p.n &&
    p.htRoot seed p.d 0 tree leaf (sig.drop (p.n + fl)) (p.forsRoot seed x (slice sig p.n fl) md) == root

/-! ## LMS and HSS (RFC 8554, SP 800-208) -/

/-- Hash of an LMS type: SHA-256 or SHAKE256, cut to n bytes. -/
def lmsHash (shake : Bool) (n : Nat) (b : Bytes) : Bytes := if shake then shake256 b n else (sha256 b).take n
/-- Candidate key of an LM-OTS signature: I, q, message; the signature starts with its type. -/
def lmotsRoot (shake : Bool) (n w p ls : Nat) (i : Bytes) (q : Nat) (m sig : Bytes) : Bytes :=
  let h := lmsHash shake n
  let head := i ++ toBe 4 q
  let d := h (head ++ toBe 2 0x8181 ++ slice sig 4 n ++ m)
  let sum := sumL ((digitsBe w (8 * n / w) d).map (2 ^ w - 1 - ·)) * 2 ^ ls
  let z := (digitsBe w p (d ++ toBe 2 sum)).zipIdx.flatMap (fun a =>
    ((upTo (2 ^ w - 1)).drop a.1).foldl (fun v j => h (head ++ toBe 2 a.2 ++ toBe 1 j ++ v)) (slice sig (4 + n + n * a.2) n))
  h (head ++ toBe 2 0x8080 ++ z)
def lmsClimb (h : Bytes → Bytes) (i : Bytes) (node : Nat) (v : Bytes) : List Bytes → Bytes
  | [] => v
  | a :: rest => lmsClimb h i (node / 2) (h (i ++ toBe 4 (node / 2) ++ toBe 2 0x8383 ++ (if node % 2 = 1 then a ++ v else v ++ a))) rest
/-- Shape of a pair of types: of the LMS type the hash, n and the height; of the LM-OTS type the hash, n, Winternitz bits, chains and
checksum shift. -/
structure LmsShape where
  lms : Nat
  ots : Nat
  shake : Bool
  n : Nat
  h : Nat
  oshake : Bool
  on : Nat
  w : Nat
  p : Nat
  ls : Nat
deriving DecidableEq, Repr
def LmsShape.sigLen (x : LmsShape) : Nat := 12 + x.on * (x.p + 1) + x.n * x.h
/-- One LMS level; a public key of other types than the shape's, or a signature malformed in any way, is not valid. -/
def lmsVerify (x : LmsShape) (pk m sig : Bytes) : Bool :=
  let i := slice pk 8 16
  let q := beNat (sig.take 4)
  let at_ := 8 + x.on * (x.p + 1)
  if beNat (pk.take 4) ≠ x.lms ∨ beNat (slice pk 4 4) ≠ x.ots ∨ sig.length ≠ x.sigLen ∨ beNat (slice sig 4 4) ≠ x.ots ∨
      beNat (slice sig at_ 4) ≠ x.lms ∨ q ≥ 2 ^ x.h then false else
  let h := lmsHash x.shake x.n
  let leaf := h (i ++ toBe 4 (2 ^ x.h + q) ++ toBe 2 0x8282 ++ lmotsRoot x.oshake x.on x.w x.p x.ls i q m (sig.drop 4))
  lmsClimb h i (2 ^ x.h + q) leaf (cut x.n x.h (sig.drop (at_ + 4))) == slice pk 24 x.n
/-- Signature and public key of level `k` of an HSS signature with `l` levels (from 0): the key of level 0 is the batch key's. -/
def hssLevel (x : LmsShape) (pk sig : Bytes) (k : Nat) : Bytes × Bytes :=
  let step := x.sigLen + 24 + x.n
  (if k = 0 then pk.drop 4 else slice sig (4 + step * (k - 1) + x.sigLen) (24 + x.n), slice sig (4 + step * k) x.sigLen)
/-- HSS: every level signs the key of the next, the last one the message. -/
def hssVerify (x : LmsShape) (l : Nat) (pk m sig : Bytes) : Bool :=
  sig.length == 4 + l * x.sigLen + (l - 1) * (24 + x.n) && beNat (sig.take 4) + 1 == l && beNat (pk.take 4) == l &&
  (upTo l).all (fun k =>
    let (key, s) := hssLevel x pk sig k
    lmsVerify x key (if k + 1 < l then (hssLevel x pk sig (k + 1)).1 else m) s)

/-! ## XMSS and XMSS^MT (RFC 8391, SP 800-208), n = 32 -/

/-- A function of RFC 8391 by its number: 0 F, 1 H, 2 H_msg, 3 PRF. -/
def xmssFn (shake : Bool) (fn : Nat) (b : Bytes) : Bytes :=
  let x := toBe 32 fn ++ b
  if shake then shake256 x 32 else sha256 x
/-- An address: layer, tree, type, then three words; the last word is the mask selector. -/
def xmssAdrs (x : SlhAdrs) (sel : Nat) : Bytes := toBe 4 x.layer ++ toBe 8 x.tree ++ toBe 4 x.type ++ x.tail ++ toBe 4 sel
def xmssPrf (shake : Bool) (seed : Bytes) (x : SlhAdrs) (sel : Nat) : Bytes := xmssFn shake 3 (seed ++ xmssAdrs x sel)
def xmssChain (shake : Bool) (seed : Bytes) (x : SlhAdrs) (v : Bytes) (i : Nat) : Bytes :=
  ((upTo 15).drop i).foldl (fun v j =>
    let y := { x with w3 := j }
    xmssFn shake 0 (xmssPrf shake seed y 0 ++ xorBytes v (xmssPrf shake seed y 1))) v
def xmssHash (shake : Bool) (seed : Bytes) (x : SlhAdrs) (l r : Bytes) : Bytes :=
  xmssFn shake 1 (xmssPrf shake seed x 0 ++ xorBytes l (xmssPrf shake seed x 1) ++ xorBytes r (xmssPrf shake seed x 2))
/-- One level of the L-tree: pairs are hashed, an odd node moves up. -/
def xmssPairs (shake : Bool) (seed : Bytes) (x : SlhAdrs) : Nat → List Bytes → List Bytes
  | i, l :: r :: rest => xmssHash shake seed { x with w3 := i } l r :: xmssPairs shake seed x (i + 1) rest
  | _, l => l
/-- The 67 chain ends fall to one node in 7 levels. -/
def xmssLtree (shake : Bool) (seed : Bytes) (x : SlhAdrs) (v : List Bytes) : Bytes :=
  ((upTo 7).foldl (fun v z => xmssPairs shake seed { x with w2 := z } 0 v) v).headD []
def xmssClimb (shake : Bool) (seed : Bytes) (x : SlhAdrs) (z idx : Nat) (v : Bytes) : List Bytes → Bytes
  | [] => v
  | a :: rest =>
    let y := { x with w2 := z, w3 := idx / 2 }
    xmssClimb shake seed x (z + 1) (idx / 2) (if idx % 2 = 0 then xmssHash shake seed y v a else xmssHash shake seed y a v) rest
/-- Root of one layer from its signature: 67 chains, then `h` path nodes. -/
def xmssRoot (shake : Bool) (seed : Bytes) (layer tree leaf h : Nat) (sig m : Bytes) : Bytes :=
  let x : SlhAdrs := { layer, tree, type := 0, w1 := leaf, w2 := 0, w3 := 0 }
  let ends := (wotsDigits 32 m).zipIdx.map (fun d => xmssChain shake seed { x with w2 := d.2 } (slice sig (32 * d.2) 32) d.1)
  xmssClimb shake seed { x with type := 2, w1 := 0 } 0 leaf (xmssLtree shake seed { x with type := 1 } ends) (cut 32 h (sig.drop 2144))
/-- Layers from the lowest. -/
def xmssLayers (shake : Bool) (seed : Bytes) (h : Nat) : Nat → Nat → Nat → Bytes → Bytes → Bytes
  | 0, _, _, _, m => m
  | n + 1, layer, idx, sig, m =>
    xmssLayers shake seed h n (layer + 1) (idx / 2 ^ h) (sig.drop (2144 + 32 * h))
      (xmssRoot shake seed layer (idx / 2 ^ h) (idx % 2 ^ h) h sig m)
/-- Verification with `d` layers of height `h` each; the index takes 4 bytes in XMSS. The public key is OID, root and seed. -/
def xmssVerify (shake mt : Bool) (d h : Nat) (pk m sig : Bytes) : Bool :=
  let il := if mt then cdiv (d * h) 8 else 4
  let idx := beNat (sig.take il)
  let r := slice sig il 32
  let root := slice pk 4 32
  sig.length == il + 32 + d * (2144 + 32 * h) && decide (idx < 2 ^ (d * h)) &&
    xmssLayers shake (slice pk 36 32) h d 0 idx (sig.drop (il + 32)) (xmssFn shake 2 (r ++ root ++ toBe 32 idx ++ m)) == root

end Sys2Proof.Machine
end

