-- ==== Sys2Proof/Machine/PubKey.lean ====
section
/-! DEFINITION. The public-key schemes by parameter set (Tables 11.2, 12.1): key pairs, encapsulation, signatures, verification, and the
checks of keys (Tables 11.8, 12.4). HQC and Classic McEliece are uninterpreted functions of the inputs that the spec gives them (log
entry 4). None as a result is a rejection sampler whose fixed squeeze does not suffice (R278). -/

namespace Sys2Proof.Machine

/-- Keccak blocks that each rejection sampler squeezes (R278): the spec gives a bound on the chance, not the numbers. -/
def squeeze (k : Nat) : Nat := Config.squeezeBlocks k

/-- Public key and secret key that seed bytes give (R277, R295). -/
def pkKeygen (set : Nat) (seed : Bytes) : Option (Bytes × Bytes) :=
  if isMlKem set then kemKeygen squeeze set seed
  else if isMlDsa set then dsaKeygen squeeze set seed
  else if isEcdsa set then
    let c := curveOf set
    let d := c.keygen seed
    some (c.enc (c.mul (beNat d) c.gen), d)
  else if isEddsa set then let sec := fitB seed (edOf set).len; some ((edOf set).pub sec, sec)
  else if set = 0x91 ∨ set = 0x92 then let sec := fitB seed (montOf set).2.2.2.1; some (montPub set sec, sec)
  else some (Config.keygenPub set seed, Config.keygenSec set seed)
def pkPub (set : Nat) (seed : Bytes) : Bytes := ((pkKeygen set seed).map (·.1)).getD []
def pkSec (set : Nat) (seed : Bytes) : Bytes := ((pkKeygen set seed).map (·.2)).getD []
/-- Ciphertext and shared secret. -/
def pkEncaps (set : Nat) (ek rnd : Bytes) : Option (Bytes × Bytes) :=
  if isMlKem set then kemEncaps squeeze set ek rnd else some (Config.encapsCt set ek rnd, Config.encapsKey set ek rnd)
/-- Shared secret, with the implicit rejection of the scheme. -/
def pkDecaps (set : Nat) (dk ct : Bytes) : Option Bytes :=
  if isMlKem set then kemDecaps squeeze set dk ct else some (Config.decaps set dk ct)

/-- Shape of the pair of types that PARAM names (Table 11.4). -/
def lmsShape (param : Nat) : LmsShape :=
  let lms := param % 2 ^ 32
  let ots := param / 2 ^ 32
  { lms, ots, shake := decide (15 ≤ lms), n := lmsN lms, h := lmsH lms, oshake := decide (9 ≤ ots), on := lmotsN ots
    w := lmotsW ots, p := lmotsP ots, ls := lmotsLs ots }
/-- A stateful key, at every level, has the type codes or the OID of PARAM (Table 11.8, R284); embedded keys are looked at where the
signature has its length. -/
def statefulKeyOk (set levels param : Nat) (pub sig : Bytes) : Bool :=
  let codes := fun (k : Bytes) => beNat (k.take 4) == param % 2 ^ 32 && beNat (slice k 4 4) == param / 2 ^ 32
  if set = 0x31 then codes pub
  else if set = 0x32 then
    let x := lmsShape param
    (upTo levels).all (fun k =>
      (decide (k > 0) && sig.length != 4 + levels * x.sigLen + (levels - 1) * (24 + x.n)) || codes (hssLevel x pub sig k).1)
  else beNat (pub.take 4) == param % 2 ^ 32
/-- Verification. The stateful schemes take the pure form with no context (R270). `hash` is bits [5:4] of FORM (R292). -/
def pkVerify (set levels param : Nat) (pub : Bytes) (form hash : Nat) (ctx m sig : Bytes) : Option Bool :=
  if isMlDsa set then dsaVerify squeeze set pub form ctx m sig
  else some (
    if isSlh set then slhVerify set pub form ctx m sig
    else if set = 0x31 then lmsVerify (lmsShape param) pub m sig
    else if set = 0x32 then hssVerify (lmsShape param) levels pub m sig
    else if isLayered set then
      let (d, h) := xmssShape (set == 0x34) (param % 2 ^ 32)
      xmssVerify (decide (0x10 ≤ param % 2 ^ 32)) (set == 0x34) d h pub m sig
    else if isRsa set then rsaVerify form hash pub m sig
    else if isEcdsa set then ecdsaVerify (curveOf set) pub m sig
    else (edOf set).verify pub (form == 1) ctx m sig)
/-- A public key that the arithmetic accepts (Table 12.4). -/
def pointOk (set : Nat) (pub : Bytes) : Bool :=
  if isEcdsa set then let q := (curveOf set).dec pub; (curveOf set).onCurve q.1 q.2
  else if isEddsa set then (edOf set).keyOk pub
  else true
/-- Nonce in [1, n − 1] that random bytes give. -/
def ecNonce (set : Nat) (rnd : Bytes) : Nat := beNat rnd % ((curveOf set).n - 1) + 1
/-- A signature of the big-number engine; none where the self-check of Table 12.3 fails. `rnd` is the PSS salt, or what the ECDSA nonce is
made of; a deterministic ECDSA signature takes the nonce of RFC 6979. -/
def bnSign (set : Nat) (sec pub : Bytes) (form hash : Nat) (det : Bool) (ctx m rnd : Bytes) : Option Bytes :=
  if isRsa set then
    let k := (sec.length - 4) / 5 * 2
    let em := if form = 0 then emsaPkcs1 hash m k else emsaPss hash m rnd k
    let x := rsaPrivate (k / 2) sec (beNat em)
    if powMod x (rsaE (k / 2) sec) (beNat pub) = beNat em then some (toBe k x) else none
  else if isEcdsa set then
    let c := curveOf set
    ecdsaSign c (beNat sec) (if det then rfc6979 c hash (beNat sec) m else ecNonce set rnd) m
  else (edOf set).sign sec (form == 1) ctx m

end Sys2Proof.Machine
end

