-- ==== Sys2Proof/Machine/KeyStore.lean ====
section
/-! DEFINITION. The key store (R337–R360): slots, uses, seal counters and high-water marks, the commit step's part, key update
bundles, derivation, the partition, and the measurements. -/

namespace Sys2Proof.Machine

/-! ## Slots and uses -/

/-- Cells a slot holds (R342). -/
def KSlot.cells (k : KSlot) : Nat :=
  match kType k.type with
  | none => 0
  | some t =>
    if k.state = 0 then 0
    else if k.state = 1 then cdiv (t.smin + t.pub + t.extra) 64
    else cdiv (k.secret.length + k.pub.length + t.extra) 64

/-- The slot's copies in the partition and in the commits on their way remember that SEAL_VER_HALF was raised for it (R169). -/
def State.halfCopies (s : State) (n : Nat) (secret : Bytes) : State :=
  let up := fun (x : KSlot) => if x.state = 2 ∧ x.secret = secret then { x with half := true } else x
  s.modKeys (fun st => { st with
    nv := mput (fun _ => KSlot.empty) st.nv n (up (mget (fun _ => KSlot.empty) st.nv n))
    commits := st.commits.map (fun c => { c with sets := c.sets.map (fun e => if e.1 = n then (n, up e.2) else e) }) })
/-- Draw a seal version's counter value (R166, R167, R169); none while no value remains below the durable mark. Every draw that leaves
fewer than 2^22 values starts a mark write of its own. -/
def State.drawVersion (s : State) (n : Nat) : Option (Nat × State) :=
  let k := s.slot n
  if k.ctr ≥ k.mark then none else
  let v := k.ctr
  let low := decide (k.mark - (v + 1) < 2 ^ 22)
  let half := decide (v ≥ 2 ^ 47)
  let s := s.setSlot n { k with
    ctr := v + 1
    markPend := if low then k.markPend ++ [v + 2 ^ 24] else k.markPend
    half := k.half || half }
  some (v, if half && !k.half then (s.halfCopies n k.secret).raise 306 0 0 0 else s)
/-- Seal counter from which sealing uses are refused (R169). -/
def sealLimit : Nat := 2 ^ 48 - 2 ^ 25
/-- A headland begins: sealing uses of a slot whose counter has reached its limit are unusable from now on (R169). -/
def State.sealLimits (s : State) : State :=
  s.modKeys (fun st => { st with slots := mmap (fun _ => KSlot.empty) (fun _ k =>
    if k.state = 2 ∧ k.type = 0xA1 ∧ k.ctr ≥ sealLimit then { k with sealOff := true } else k) st.slots })

/-! ## Changes (R340, R341) -/

/-- Descendants of the slots `ns`, parents first (R351, R357); DEPTH is at most 4. -/
def descendants (m : SMap KSlot) : Nat → List Nat → List Nat
  | 0, _ => []
  | f + 1, ns =>
    let kids := (m.filter (fun e => decide (e.2.depth > 0) && ns.contains e.2.parent && !ns.contains e.1)).map (·.1)
    if kids.isEmpty then [] else kids ++ descendants m f kids

def emptied (ns : List Nat) : List (Nat × KEdit) := ns.map (fun n => (n, .put KSlot.empty))

/-- Cells in use: those of the live table and those that pending INSTALL, ARM and DERIVE entries have taken (R342). -/
def State.cellsUsed (s : State) : Nat :=
  sumL (s.keys.slots.map (fun e => e.2.cells)) +
    sumL (s.keys.pend.map (fun c => sumL (c.sets.map (fun e =>
      match e.2 with | .put k => if k.generated then 0 else k.cells | .restrict _ => 0))))
def State.cellsFree (s : State) : Nat := 114688 - s.cellsUsed

/-- The commit step's key-store part (R341, R348): pending changes become live in production order and wait to become
durable; with none, NV_DONE follows SWN once nothing waits. -/
def State.keyCommit (s : State) : State :=
  if s.keys.pend.isEmpty then
    (if s.keys.commits.isEmpty then s.modKeys (fun k => { k with nvDone := s.glob.swn }) else s)
  else
    let slots := s.projected
    let names := (s.keys.pend.flatMap (fun c => c.sets.map (·.1))).eraseDups
    let counter := s.keys.pend.foldl (fun a c => match c.counter with | some v => some v | none => a) none
    let sets := names.map (fun n => (n, mget (fun _ => KSlot.empty) slots n))
    s.modKeys (fun k => { k with
      slots, pend := [], counter := counter.getD k.counter
      commits := k.commits ++ [{ swn := s.swnN, sets, counter }] })

/-- The key-store change of a keygen that ends OK (Table 15.3). -/
def State.keygenChange (s : State) (n : Nat) (secret pub : Bytes) : State :=
  let k := mget (fun _ => KSlot.empty) s.projected n
  s.modKeys (fun x => { x with pend := x.pend ++
    [{ sets := [(n, .put { k with state := 2, generated := true, secret, pub })], counter := none }] })

/-! ## Identity keys (R358) -/

def idSeed (bits : Nat) (custom : String) : Bytes := kmac256 Config.identitySecret [] (bits / 8) (ascii custom)
def idmPub : Bytes := pkPub 0x12 (idSeed 256 "KV6416-IDM")
def idmSec : Bytes := pkSec 0x12 (idSeed 256 "KV6416-IDM")
def ideSec : Bytes := pkSec 0x72 (idSeed 448 "KV6416-IDE")
def transportSec : Bytes := pkSec 0x03 (idSeed 512 "KV6416-IDT")

/-! ## Derivation (R356) -/

/-- SP 800-108 counter mode with HMAC-SHA-384: `n` blocks from block `i`. -/
def kdfBlocks (key label ctx : Bytes) (bits : Nat) : Nat → Nat → Bytes
  | _, 0 => []
  | i, n + 1 =>
    hmacSha384 key (toBe 4 i ++ label ++ [0#8] ++ ctx ++ toBe 4 bits) ++ kdfBlocks key label ctx bits (i + 1) n
def kdf (kmac : Bool) (key label ctx : Bytes) (len : Nat) : Bytes :=
  if kmac then kmac256 key ctx len label else (kdfBlocks key label ctx (8 * len) 1 (cdiv len 48)).take len

/-- Bytes derived for a child type: S of Table 15.1; where S is a range (HMAC keys) the length is open (log entry 1). -/
def deriveLen (t : Nat) : Option Nat :=
  if t = 0xA1 ∨ t = 0xC1 ∨ t = 0xC2 ∨ (0xB1 ≤ t ∧ t ≤ 0xB5) then
    (kType t).map (fun k => k.smin + Config.hmacDeriveExtra t % (k.smax - k.smin + 1))
  else none

/-! ## Key update bundles (R351–R354) -/

/-- An entry of a bundle: its 64-byte header and its payload. -/
structure BEntry where
  head : Bytes
  payload : Bytes
deriving DecidableEq, Repr
def BEntry.op (e : BEntry) : Nat := rd e.head 0 1
def BEntry.type (e : BEntry) : Nat := rd e.head 1 1
def BEntry.slot (e : BEntry) : Nat := rd e.head 2 2
def BEntry.policy (e : BEntry) : Nat := rd e.head 4 1
def BEntry.flags (e : BEntry) : Nat := rd e.head 5 1
def BEntry.owner (e : BEntry) : Nat := rd e.head 6 2
def BEntry.parent (e : BEntry) : Nat := rd e.head 8 2
def BEntry.plen (e : BEntry) : Nat := rd e.head 12 4
def BEntry.sealBase (e : BEntry) : Nat := rd e.head 16 6

/-- Entries back to back from `off`, `n` of them, to end exactly at `stop`. -/
def bundleEntries (b : Bytes) (stop : Nat) : Nat → Nat → Option (List BEntry)
  | off, 0 => if off = stop then some [] else none
  | off, n + 1 =>
    let head := slice b off 64
    let plen := rd head 12 4
    let next := off + 64 + cdiv plen 64 * 64
    if plen > 14400 ∨ next > stop then none
    else (bundleEntries b stop next n).map (fun l => { head, payload := slice b (off + 64) plen } :: l)

/-- Check 1 of Table 15.6: the form of Table 15.4, and its entries. -/
def bundleForm (b : Bytes) : Option (List BEntry) :=
  let nent := rd b 6 2
  let len := rd b 8 4
  let sig := rd b 12 4
  if rd b 0 4 = 0x4B564B55 ∧ rd b 4 2 = 1 ∧ 1 ≤ nent ∧ nent ≤ 64 ∧ len % 64 = 0 ∧ len ≤ 1048576 ∧ sig % 64 = 0 ∧
      len = sig + 4736 ∧ sig ≥ 0x6C0 + 2688 then
    bundleEntries b (sig - 2688) 0x6C0 nent
  else none

/-- Check 3: the authority's fuse is programmed and not revoked, and AUTHPK has the fused digest. -/
def authOk (b : Bytes) : Bool :=
  let a := rd b 0x28 1
  decide (a < 4) && Config.authPresent.getLsbD a && !Config.authRevoked.getLsbD a &&
    sha384 (slice b (rd b 12 4 - 2688) 2688) == Config.authDigest a
/-- Check 4: both signatures. -/
def sigsOk (b : Bytes) : Bool :=
  let sig := rd b 12 4
  let msg := slice b 0 sig
  (pkVerify 0x13 0 0 (slice b (sig - 2688) 2592) 1 0 (ascii "KV6416-KUB") (sha512 msg) (slice b sig 4627)).getD false &&
    ecdsaVerify p384 (slice b (sig - 96) 96) (sha384 msg) (slice b (sig + 4640) 96)

/-- The bundle key K_b (R352). -/
def bundleKey (b : Bytes) : Bytes :=
  sha3x256 (ascii "KV6416-KUB" ++ (pkDecaps 0x03 transportSec (slice b 0x80 1568)).getD [] ++ slice b 0x20 8)
/-- The clear payload of INSTALL entry `i`; none where its tag fails. -/
def installOpen (kb : Bytes) (i : Nat) (e : BEntry) : Option Bytes :=
  if e.plen < 16 then none else
  gcmOpen kb (toBe 4 i ++ zeros 8) e.head (e.payload.take (e.plen - 16)) (e.payload.drop (e.plen - 16))

/-- The slot contents that an entry creates, without its key. -/
def BEntry.slotOf (e : BEntry) : KSlot :=
  { KSlot.empty with
    state := 2, type := e.type, policy := BitVec.ofNat 7 e.policy, owner := e.owner, migratable := bit e.flags 0
    cipher := bit e.flags 1, kmac := bit e.flags 2 }
/-- The seal counter of a new AES-256 slot (R349), and its first mark, which is durable with the slot's commit (log entry 27). -/
def KSlot.withCounter (k : KSlot) (base : Nat) : KSlot :=
  if k.type = 0xA1 then { k with ctr := max 1 base, mark := 0, markFirst := max 1 base + 2 ^ 24 } else k

/-- Check 7 for entry `i` against the projected table: the edits it makes, or none where it is not valid (R340, R354). -/
def entryEdits (m : SMap KSlot) (kb : Bytes) (i : Nat) (e : BEntry) : Option (List (Nat × KEdit)) :=
  let cur := mget (fun _ => KSlot.empty) m e.slot
  let ownerOk := decide (e.owner ≤ 256) || e.owner == 511
  let below := emptied (descendants m 4 [e.slot])
  if e.slot ≥ 16384 then none else
  match e.op with
  | 1 => match kType e.type, installOpen kb i e with
    | some t, some pt =>
      let s := pt.length - t.pub
      if ownerOk ∧ t.pub ≤ pt.length ∧ t.smin ≤ s ∧ s ≤ t.smax then
        let k := { e.slotOf with secret := pt.take s, pub := pt.drop s }
        some ((if cur.state = 0 then [] else below) ++ [(e.slot, .put (k.withCounter e.sealBase))])
      else none
    | _, _ => none
  | 2 => if ownerOk ∧ cur.state = 0 ∧ canGen e.type ∧ e.plen = 0 then
      some [(e.slot, .put { e.slotOf with state := 1 })] else none
  | 3 =>
    let p := mget (fun _ => KSlot.empty) m e.parent
    let ll := rd e.payload 0 1
    let cl := rd e.payload 1 1
    match deriveLen e.type with
    | none => none
    | some len =>
      if ownerOk ∧ cur.state = 0 ∧ e.parent < 16384 ∧ p.state = 2 ∧ (p.type = 0xC1 ∨ p.type = 0xC2) ∧
          bit p.policy.toNat 3 ∧ p.depth < 4 ∧ ll ≤ 64 ∧ cl ≤ 128 ∧ e.plen = 2 + ll + cl then
        let key := kdf p.kmac p.secret (slice e.payload 2 ll) (slice e.payload (2 + ll) cl) len
        let k := { e.slotOf with derived := true, parent := e.parent, depth := p.depth + 1, secret := key }
        some [(e.slot, .put (k.withCounter e.sealBase))]
      else none
  | 4 => if cur.state ≠ 0 ∧ e.plen = 0 then some (below ++ [(e.slot, .put KSlot.empty)]) else none
  | 5 => if cur.state = 2 ∧ e.plen = 0 then some [(e.slot, .restrict (BitVec.ofNat 7 e.policy))] else none
  | _ => none

/-- All entries in order: their edits, or the index of the first that fails. -/
def bundleEdits (kb : Bytes) : Nat → SMap KSlot → List BEntry → Except Nat (List (Nat × KEdit))
  | _, _, [] => .ok []
  | i, m, e :: es =>
    match entryEdits m kb i e with
    | none => .error i
    | some ed => (bundleEdits kb (i + 1) (ed.foldl applyEdit m) es).map (fun r => ed ++ r)

/-- Cells that edits allocate. -/
def editCells (ed : List (Nat × KEdit)) : Nat :=
  sumL (ed.map (fun e => match e.2 with | .put k => k.cells | .restrict _ => 0))

def State.storedCounter (s : State) : DWord :=
  s.keys.pend.foldl (fun a c => match c.counter with | some v => v | none => a) s.keys.counter

/-- The checks of Table 15.6 in order: reason, entry and status of the first that fails, or the change. -/
def State.bundleCheck (s : State) (b : Bytes) : Except (Nat × Nat × Nat) KChange :=
  match bundleForm b with
  | none => .error (1, 0, 0x20)
  | some es =>
    if rd b 0x10 16 ≠ Config.devid.toNat then .error (2, 0, 0x20)
    else if !authOk b then .error (3, 0, 0x20)
    else if !sigsOk b then .error (4, 0, 0x20)
    else if rd b 0x20 8 ≤ s.storedCounter.toNat then .error (5, 0, 0x20)
    else
      let kb := bundleKey b
      match (es.zipIdx.find? (fun x => x.1.op == 1 && (installOpen kb x.2 x.1).isNone)) with
      | some x => .error (6, x.2, 0x20)
      | none =>
        match bundleEdits kb 0 s.projected es with
        | .error i => .error (7, i, 0x21)
        | .ok sets =>
          if editCells sets > s.cellsFree then .error (8, 0, 0x21)
          else .ok { sets, counter := some (BitVec.ofNat 64 (rd b 0x20 8)) }

/-- The bytes of the bundle at `addr`. -/
def State.bundleAt (s : State) (addr : Nat) : Bytes := s.hbmPeek addr (min 1048576 (rd (s.hbmPeek addr 16) 8 4))
/-- A reserved bit of the bundle or of one of its entries is set (R7, Tables 15.4 and 15.5). -/
def bundleBad (b : Bytes) : Bool :=
  let clear := fun (b : Bytes) (off n mask : Nat) => rd b off n &&& mask == 0
  !clear b 0x29 87 (256 ^ 87 - 1) || !clear b 0x6A0 32 (256 ^ 32 - 1) ||
  (match bundleForm b with
   | none => false
   | some es => es.any (fun e => !clear e.head 4 1 0x80 || !clear e.head 5 1 0xF8 || !clear e.head 10 2 0xFFFF ||
       !clear e.head 0x16 2 0xFFFF || !clear e.head 0x18 40 (256 ^ 40 - 1)))
/-- Apply the bundle at `addr` and write its result word at `res` (R353): the job's status, and the state after. Where a reserved bit of
it is set, whether a bundle that passes its checks is applied is open (R7, scope J). -/
def State.bundleApply (s : State) (addr res : Nat) : Nat × State :=
  let b := s.bundleAt addr
  let (keep, s) := if bundleBad b then s.draw 1 else (1, s)
  let split := s.tamper.bundleSplit && (bundleForm b).isSome
  let s := if split then ({ s with tamper := { s.tamper with bundleSplit := false } }).mismatch 3 else s
  match if split then .error (4, 0, 0x20) else s.bundleCheck b with
  | .ok c =>
    if keep = 0 then (0, s.hbmWrite res (toLe 4 0)) else
    (0, (s.modKeys (fun k => { k with pend := k.pend ++ [c], bundlesOk := satInc 32 k.bundlesOk })).hbmWrite res (toLe 4 0))
  | .error (reason, entry, status) =>
    (status, (s.modKeys (fun k => { k with
      bundlesFail := satInc 32 k.bundlesFail, failReason := reason, failEntry := entry })).hbmWrite res
        (toLe 4 (status + 256 * reason + 65536 * entry)))

/-! ## Meanings -/

/-- The swath of the last commit step that has run. -/
def State.lastCommitSwn (s : State) : DWord :=
  if s.glob.inHeadland && decide (s.glob.offset < 8192) then s.glob.swn - 1 else s.glob.swn

/-- NV_COMMIT_DURABLE (R167, R348): every mark on its way, which goes first, then the oldest commit; NV_DONE advances to just before
the next one that waits. -/
def execNvCommitDurable (s : State) : Host.Outcome State Fault Refusal :=
  whenRun s (match s.keys.commits with
    | [] => s
    | _ :: rest =>
      let done := match rest with
        | [] => s.lastCommitSwn
        | c :: _ => BitVec.ofNat 64 (c.swn - 1)
      s.allMarks.durableOne.modKeys (fun k => { k with nvDone := done }))

/-- HIGH_WATER_DURABLE (R167). -/
def execHighWaterDurable (slot : Fin 16384) (s : State) : Host.Outcome State Fault Refusal :=
  whenRun s (s.markDurable slot.val)

/-- SLOT_RELOAD (R344). -/
def execSlotReload (slot : Fin 16384) (s : State) : Host.Outcome State Fault Refusal :=
  whenRun s (if (s.slot slot.val).reload then s.modSlot slot.val (fun k => { k with reload := false, bad := false }) else s)

/-- REMASK_COMPLETE (R343, R344): every cell has been rewritten; those of `bad`, and of slots that an upset has met before, fail. -/
def execRemaskComplete (bad : List (Fin 16384)) (s : State) : Host.Outcome State Fault Refusal :=
  whenRun s (if s.keys.remask then
      ((bad.map (·.val) ++ (s.keys.slots.filter (fun e => e.2.bad && !e.2.reload)).map (·.1)).eraseDups.foldl State.cellFails s).modKeys
        (fun k => { k with remask := false })
    else s)

/-- The device root (R346). -/
def State.deviceRoot (s : State) : Bytes := kmac256 s.backup.bbram Config.rootMaterial 32 (ascii "KV6416-ROOT")
/-- Boot empty (R347, R435): a new BBRAM key from the seedbank, a formatted partition, ROOT_LOST. -/
def State.bootEmpty (s : State) : State :=
  let s := (s.modBk (fun b => { b with
    root := true, bbram := s.seed.queue.take 32, now := { b.now with tamperBk := false, powerLost := false } })).modSeed (fun b => { b with
      queue := b.queue.drop 32, delivered := b.delivered + 32 })
  let s := s.modKeys (fun k => { k with slots := [], nv := [], nvRoot := s.deviceRoot, commits := [], rootLost := true, phase := 1 })
  (s.raise 305 0 0 0).setCause 305 true

/-- A slot as a start finds it: its cells are written anew, and one with a seal counter starts at its durable mark M and gets the mark
M + 2^24 (R167). -/
def startMark (k : KSlot) : KSlot :=
  let k := { k with reload := false, bad := false }
  if k.state = 2 ∧ k.type = 0xA1 then { k with ctr := k.mark, mark := k.mark + 2 ^ 24, markFirst := 0, markPend := [] } else k

/-- KEYSTORE_RELOAD_END (R463): once the streams run and the journal mark is NONE. `corrupt`: no commit record verifies; none does under
another device root. -/
def execKeystoreReloadEnd (corrupt : Bool) (s : State) : Host.Outcome State Fault Refusal :=
  let bk := s.backup.now
  whenRun s (if s.keys.phase ≠ 0 || s.seed.phase ≠ 2 || s.life.mark ≠ 0 || !s.start.fwOk then s
    else if corrupt || !s.backup.root || s.keys.nvRoot != s.deviceRoot || bk.tamperBk || bk.powerLost then s.bootEmpty
    else
      let nv := mmap (fun _ => KSlot.empty) (fun _ k => startMark k) s.keys.nv
      (s.modKeys (fun k => { k with slots := nv, nv, rootLost := false, phase := 1 })).setCause 305 false)

/-! ## Measurements (R360) -/

/-- Metadata of the slots that are not EMPTY, in slot order (index 5). -/
def State.slotMetaList (s : State) : List (List Nat) :=
  s.keys.slots.map (fun e => [e.1, e.2.type, e.2.policy.toNat, e.2.owner,
    b2n e.2.migratable + 2 * b2n e.2.cipher + 4 * b2n e.2.kmac, e.2.parent])
/-- Live registration registers in address order (index 8). -/
def State.regBytes (s : State) : Bytes :=
  ((upTo 9).flatMap (fun w => toLe 4 (s.liveN (0x400010 + 4 * w)))) ++
    (upTo 1024).flatMap (fun e => (upTo 13).flatMap (fun w => toLe 4 (s.liveN (0x410000 + 0x40 * e + 4 * w))))

/-- The value of measurement block `i` (Table 15.9); forms the spec leaves open are those of log entry 28. -/
def State.measurement (s : State) (i : Nat) : Bytes :=
  match i with
  | 1 => nth s.start.measured 0 []
  | 2 => nth s.start.measured 1 []
  | 3 => nth s.start.measured 2 []
  | 4 => Config.lifeFuseBlock s.life.closed s.life.final s.tamper.blown.toNat
  | 5 => sha384 (Config.slotMetaBytes s.slotMetaList)
  | 6 => toLe 8 s.keys.counter.toNat
  | 7 => sha384 idmPub
  | 8 => sha384 s.regBytes
  | _ => []

/-- SPDM_GET_MEASUREMENTS (R360): one block, signed with the identity ECDSA P-384 key. -/
def execSpdmGetMeasurements (index : Byte) (nonce : Bytes) (s : State) : Host.Outcome State Fault Refusal :=
  whenUp s (if 1 ≤ index.toNat ∧ index.toNat ≤ 8 then
    let v := s.measurement index.toNat
    let (rnd, s) := s.drawBytes 64
    s.emit (.spdm index.toNat v ((ecdsaSign p384 (beNat ideSec) (ecNonce 0x72 rnd) (sha384 (v ++ nonce))).getD []))
  else s)

end Sys2Proof.Machine
end

