-- ==== Sys2Proof/Machine/Cost.lean ====
section
/-! DEFINITION. The cost model: what the admission unit reads at a decision and the stage records it derives for every opcode
(R87–R104, R145, R179, R230, R248, R250, R273, R293, R305–R309, R334, R355, R359, R378). -/

namespace Sys2Proof.Machine

/-! ## Descriptors (Table 16.2) -/

def dOpcode (d : Bytes) : Nat := rd d 0 2
def dD (d : Bytes) : Nat := rd d 4 2
def dHandle (d : Bytes) : Nat := rd d 6 1 % 16
def dTag (d : Bytes) : Nat := rd d 8 8
def dCost (d : Bytes) : Nat := rd d 0x10 8
def dOp (d : Bytes) (i : Nat) : Nat := rd d (0x18 + 8 * i) 8
def dImm0 (d : Bytes) : Nat := rd d 0x58 8

/-- Opcodes of Table 16.3. -/
def opcodeKnown (o : Nat) : Bool :=
  (decide (0x0100 ≤ o) && decide (o ≤ 0x0102)) || (decide (0x0200 ≤ o) && decide (o ≤ 0x0204)) ||
  (decide (0x0300 ≤ o) && decide (o ≤ 0x0304)) ||
  [0x0400, 0x0500, 0x0600, 0x0602, 0x0700, 0x0701, 0x0800, 0x0801, 0x0900, 0x0901].contains o
def managerOnly (o : Nat) : Bool := o == 0x0900 || o == 0x0901

/-! ## Stage records -/

/-- A stage of `u` units on crypto pool `p` (0–4) at `cc` cycles each, with `hbm` units. -/
def poolStage (u p cc hbm : Nat) : StageRec :=
  { StageRec.empty with u, pool := (upTo 5).map (fun i => if i = p then cc else 0), amu := [0, 0, 0, 0], hbm }
def amuStage (u a cc hbm : Nat) : StageRec :=
  { StageRec.empty with u, pool := [0, 0, 0, 0, 0], amu := (upTo 4).map (fun i => if i = a then cc else 0), hbm }
def flatStage (u hbm seed : Nat) : StageRec :=
  { StageRec.empty with u, pool := [0, 0, 0, 0, 0], amu := [0, 0, 0, 0], hbm, seed }

/-- A stage record of a cost certificate (Table 4.1). -/
def parseStage (b : Bytes) (first : Nat) : StageRec :=
  { u := rd b 0 4, nfields := rd b 4 1, edit := rd b 5 1 % 16, fieldCc := rd b 8 4
    pool := (upTo 5).map (fun i => rd b (12 + 4 * i) 4), amu := (upTo 4).map (fun i => rd b (0x20 + 4 * i) 4)
    hbm := rd b 0x30 4, commons := rd b 0x34 4, seed := rd b 0x38 4, first }

/-! ## Crypto batches (Tables 11.3, 11.4, 12.2) -/

/-- Bytes an operation writes to OUT. -/
def outBytes (op : CryptoOp) (p : PSet) : Nat :=
  match op with
  | .keygen => p.pub
  | .encaps => p.out + p.ss
  | .decaps => p.ss
  | .sign => p.out
  | .verify => 0
  | .rsa => p.out
  | .agree => p.out

/-- h_op of R274; x is 0 for the big-number engine (R293). -/
def hOp (op : CryptoOp) (set : Nat) (p : PSet) (pub : Nat) (b : Bytes) : Nat :=
  let l := if bHost b then 2 else 1
  let x := if (op = .sign ∨ op = .verify) ∧ ((0x11 ≤ set ∧ set ≤ 0x13) ∨ (0x21 ≤ set ∧ set ≤ 0x2C)) then 4 else 0
  2 + l * (cdiv (bMax0 b) 64 + cdiv (bMax1 b) 64 + (if op = .verify then cdiv pub 64 else 0) +
    cdiv (outBytes op p) 64 + x)

/-- Stages of `n` units of `cc` cycles: `h` on each unit of the first, the carry charge on all but the last (R274, R283). -/
def stagedStages (pool n cc h cb s : Nat) : List StageRec :=
  (upTo s).map (fun k => poolStage n pool cc ((if k = 0 then h else 0) + (if k + 1 < s then 2 * cb / 64 else 0)))

/-- Slots U of an ML-DSA batch (R102). -/
def SignK.slots (c : SignK) (n : Nat) : Nat := c.fixed n + c.budget n

/-- Stages of a crypto batch (R273, R293); none where set, operation or option is not offered. -/
def cryptoStages (opcode : Nat) (b : Bytes) : Option (List StageRec) :=
  let set := bSet b
  let bn := decide (opcode ≥ 0x0300)
  match cryptoOp opcode, (if bn then (if set < 0x60 then none else psetBn set) else (if set < 0x60 then psetPq set else none)) with
  | some op, some p =>
    if !bit p.ops op.bitNo then none else
    let n := bN b
    if 0x31 ≤ set ∧ set ≤ 0x34 then
      match stateful set (bLevels b) (bParam b) with
      | none => none
      | some st =>
        let h := hOp op set p st.pub b
        some [poolStage (n * st.levels) p.pool st.cc (cdiv (n * h) (n * st.levels))]
    else
      let h := hOp op set p p.pub b
      match op, signK set with
      | .sign, some k =>
        let u := k.slots n
        some [poolStage u p.pool k.q (cdiv (n * (h + 64)) u)]
      | .keygen, _ => some [{ poolStage n p.pool p.gen h with seed := p.seed }]
      | .encaps, _ => some [poolStage n p.pool p.open_ h]
      | .verify, _ => some [poolStage n p.pool p.open_ h]
      | _, _ => some (stagedStages p.pool n p.priv h p.cb p.stages)
  | _, _ => none

/-! ## Digest batches (R305–R309) -/


/-- NPARTS (R307), at most 8. -/
def nParts (a : DigAlg) (maxLen : Nat) : Nat := min 8 (max 1 (cdiv maxLen (a.pmax * a.block)))

def digestStages (b : Bytes) : Option (List StageRec) :=
  match digAlg (gAlg b) with
  | none => none
  | some a =>
    let key := gKey b % 4
    let out := gOutLen b
    let shake := a.digest == 0
    if key = 3 ∨ (key ≠ 0 ∧ shake) then none
    else if (shake && (out == 0 || decide (out > 65536))) || (!shake && decide (out > a.digest)) then none
    else
      let n := nParts a (gMaxLen b)
      let pb := a.pmax * a.block
      let l := if gHost b then 2 else 1
      some ((upTo n).map (fun k =>
        let part := min ((k + 1) * pb) (gMaxLen b) - k * pb
        let first := k == 0
        let last := k + 1 == n
        let blocks := cdiv part a.block + (if key = 1 ∧ last then 1 else 0) +
          (if key = 2 then b2n first + 2 * b2n last else 0) + (if shake && last then cdiv out a.block - 1 else 0)
        let o := if last then cdiv (if out = 0 then a.digest else out) 64 else 0
        let h := 2 + l * (cdiv part 64 + gMaxFrag b + cdiv (gMaxFrag b) 4 + o) + 5 * (b2n first + b2n last) +
          (if last then 0 else 10)
        poolStage (rd b 0 4) 4 (64 + 8 * gMaxFrag b + a.cc * blocks) h))

/-- An internal SHA-384 unit of `frags` fragments over `len` bytes, padded by the device (R145, R179). -/
def sha384Cc (frags len : Nat) : Nat := 64 + 8 * frags + 30 * cdiv (len + 17) 128

/-- Stages of SWARD_STAGE (R145). -/
def swardStages (len : Nat) : List StageRec :=
  let n := max 1 (min 8 (cdiv len 4194304))
  (upTo n).map (fun k =>
    let r := min ((k + 1) * 4194304) len - k * 4194304
    if k + 1 < n then poolStage 1 4 (72 + 30 * 32768) (cdiv r 64)
    else poolStage 1 4 (72 + 30 * cdiv (r + 17) 128) (cdiv r 64))

/-! ## Receipts and attestation (R179, R359) -/

/-- Receipt stages for `n` records: sign slots for ML-DSA-65, then ECDSA P-384 when `hybrid`; the 58 units of each record
stand in the last stage (log entry 29). -/
def recordStages (n : Nat) (hybrid : Bool) : List StageRec :=
  match signK 0x12 with
  | none => []
  | some k =>
    let u := k.slots n
    [poolStage u 0 k.q (cdiv (n * (64 + (if hybrid then 0 else 58))) u)] ++
      (if hybrid then [poolStage n 3 420000 58] else [])

/-- A claim list entry (Table 16.3): instance and job tag. -/
def claimRef (list : Bytes) (i : Nat) : Nat × Nat := (rd list (16 * i) 2, rd list (16 * i + 8) 8)
/-- The claim that instance `by_` may name (R179). -/
def State.claimFor (s : State) (by_ : Nat) (ref : Nat × Nat) : Option Claim :=
  if by_ ≠ 0 ∧ ref.1 ≠ by_ then none
  else if ref.1 > 256 then none
  else (s.inst ref.1).claims.find? (fun c => c.tag.toNat == ref.2)
/-- A claim beyond the limit of R180 is not charged. -/
def Claim.fits (c : Claim) : Bool := decide (c.blLen + c.resLen ≤ 7600000)

/-! ## Ingest (R223–R231) -/

/-- SIGLEN of a scheme (R226), its pool and its verify charge. -/
def sigLen : Nat → Nat
  | 1 => 2420
  | 2 => 3309
  | _ => 64
def schemeSet : Nat → Nat
  | 1 => 0x11
  | 2 => 0x12
  | 3 => 0x81
  | _ => 0x71

/-- FIELD_CC of the built-in ingest section (R231). -/
def ingestFieldCc (g c maxp : Nat) : Nat :=
  64 + 472 + max (cdiv (192 * g) 128) (max (cdiv (65600 * c + 8 * g) 128)
    (max (cdiv (g * (cdiv maxp 8 + 116)) 16) (max (cdiv (8240 * c) 16) (cdiv (g * c) (8 * cdiv c 2)))))

def ingestStages (b : Bytes) : Option (List StageRec) :=
  let sc := iScheme b
  if sc = 0 ∨ sc > 4 then none else
  match pset (schemeSet sc) with
  | none => none
  | some p =>
    let h := if iHost b then 2 else 1
    let e := iE b
    let g := iG b
    let c := iC b
    let nf := iNfields b
    let w := iW b
    let one := { poolStage e p.pool p.open_ (h * cdiv (32 + iMaxp b + sigLen sc) 64 + h + 32 + w) with
      amu := (upTo 4).map (fun a => if a = iAmu b then 33 else 0) }
    let two := { flatStage (cdiv e (nf * g)) (nf * (g * (w + 1) + 1026 * c + cdiv (8 * g) 64)) 0 with
      nfields := nf, fieldCc := ingestFieldCc g c (iMaxp b) }
    some [one, two]

def sessionStages (b : Bytes) : Option (List StageRec) :=
  let sc := iScheme b
  if sc = 0 ∨ sc > 2 then none else
  let h := if iHost b then 2 else 1
  some [{ poolStage (iE b) 0 32000 (h * cdiv (1120 + sigLen sc) 64 + h + 34) with
    amu := (upTo 4).map (fun a => if a = iAmu b then 33 else 0) }]

/-! ## Key update (R355) -/

/-- The work of a bundle entry needs SHA-2, Keccak: a derivation by its parent's KMAC flag, cached states by type. -/
def entryKinds (m : SMap KSlot) (e : BEntry) : Bool × Bool :=
  let states := (e.op = 1 ∨ e.op = 3)
  let sha := decide (states ∧ (0xB1 ≤ e.type ∧ e.type ≤ 0xB3))
  let kec := decide (states ∧ (e.type = 0xB4 ∨ e.type = 0xB5))
  if e.op = 3 then
    let km := (mget (fun _ => KSlot.empty) m e.parent).kmac
    (sha || !km, kec || km)
  else (sha, kec)
/-- Entry headers of a bundle as the decision reads them, whatever its form. -/
def bundleHeads (s : State) (addr : Nat) : Nat → Nat → List BEntry
  | _, 0 => []
  | off, n + 1 =>
    let head := s.hbmPeek (addr + off) 64
    { head, payload := [] } :: bundleHeads s addr (off + 64 + cdiv (rd head 12 4) 64 * 64) n
/-- The table as the headers of a bundle's earlier entries leave the KMAC flags. -/
def headTable (m : SMap KSlot) (e : BEntry) : SMap KSlot :=
  if e.op = 1 ∨ e.op = 3 then mput (fun _ => KSlot.empty) m e.slot { e.slotOf with state := 2 } else m
/-- The entries of a bundle with the pipeline kinds each needs. -/
def headKinds : SMap KSlot → List BEntry → List (Bool × Bool)
  | _, [] => []
  | m, e :: es => entryKinds m e :: headKinds (headTable m e) es

def updateStages (s : State) (addr : Nat) (head : Bytes) : List StageRec :=
  let nent := min 64 (rd head 6 2)
  let len := rd head 8 4
  let ls := rd head 12 4
  let b := (headKinds s.projected (bundleHeads s addr 0x6C0 nent)).filter (fun k => k.1 && k.2)
  let verify := { poolStage 1 0 54000 (25 + cdiv (len - ls) 64) with pool := [54000, 0, 0, 533334, 0] }
  [poolStage 2 4 (64 + 8 + 30 * cdiv (ls + 17) 128) (cdiv ls 64), verify,
   poolStage (nent + b.length) 4 2048 226]

/-! ## The decision's reads and the stages of every opcode -/

/-- What a decision derives: stage records, or POOL_ABSENT where a named set, algorithm or option is not offered; the bytes
it read; the image it names. -/
structure Derived where
  stages : Option (List StageRec)
  param : Bytes
  image : HandleC
deriving DecidableEq, Repr
def dv (stages : Option (List StageRec)) (param : Bytes) : Derived := { stages, param, image := HandleC.empty }

/-- The stages of a job, and what the decision reads for them (R87). A COST_REF that is not aligned to 64 bytes is read as it stands
(DESIGN CHOICE, log entry 112). -/
def State.derive (s : State) (inst : Nat) (d : Bytes) : Derived × State :=
  let op := dOpcode d
  if op = 0x0100 then
    let img := (s.handle (16 * inst + dHandle d)).c
    let (head, s) := s.hbmRead (dCost d) 128
    let n := min 8 (rd head 6 1)
    let (recs, s) := s.hbmRead (dCost d + 128) (64 * n)
    let (dir, s) := s.hbmRead (img.addr + 0x20) 32
    ({ stages := some ((upTo n).map (fun k => parseStage (slice recs (64 * k) 64) (rd dir (4 * k) 1)))
       param := head ++ recs, image := img }, s)
  else if op = 0x0101 then (dv (some (swardStages (dImm0 d % 2 ^ 32))) [], s)
  else if op = 0x0102 then
    let n := dImm0 d % 65536
    let (list, s) := s.hbmRead (dOp d 0) (16 * n)
    let claims := ((upTo n).filterMap (fun i => s.claimFor inst (claimRef list i))).filter Claim.fits
    let result := claims.foldl (fun m c => max m (8 + c.blLen + c.resLen)) 0
    let certs := claims.map (fun c => 128 + 64 * rd (s.hbmPeek (c.cert + 6) 1) 0 1)
    let longest := certs.foldl max result
    let h := (certs.map (cdiv · 64)).foldl max (claims.foldl (fun m c => max m (cdiv c.blLen 64 + cdiv c.resLen 64)) 0)
    let hybrid := decide (fld (dImm0 d) 32 16 ≠ 0xFFFF)
    (dv (some (poolStage (2 * n) 4 (sha384Cc 3 longest) h :: recordStages n hybrid)) list, s)
  else if (cryptoOp op).isSome then
    let (b, s) := s.hbmRead (dOp d 0) 64
    (dv (cryptoStages op b) b, s)
  else if op = 0x0400 then
    let (b, s) := s.hbmRead (dOp d 0) 64
    (dv (digestStages b) b, s)
  else if op = 0x0500 then
    let (b, s) := s.hbmRead (dOp d 0) 64
    (dv (some [flatStage (cdiv (rd b 8 4) 512) ((if bit (rd b 12 1) 0 then 2 else 1) * 8) 512]) b, s)
  else if op = 0x0600 then
    let (b, s) := s.hbmRead (dOp d 0) 64
    (dv (some (updateStages s (dOp d 0) b)) b, s)
  else if op = 0x0602 then
    let (b, s) := s.hbmRead (dOp d 0) 64
    let n := rd b 16 2
    (dv (some (poolStage n 4 162 0 :: recordStages n true)) b, s)
  else if op = 0x0700 then
    let (b, s) := s.hbmRead (dOp d 0) 128
    let (sch, s) := s.hbmRead (iSchema b) 144
    (dv (ingestStages (b ++ sch)) (b ++ sch), s)
  else if op = 0x0701 then
    let (b, s) := s.hbmRead (dOp d 0) 128
    (dv (sessionStages b) b, s)
  else if op = 0x0800 then
    (dv (some [amuStage (cdiv (dImm0 d / 2 ^ 32) 4096) (dImm0 d % 4) 4128 1280]) [], s)
  else if op = 0x0801 then
    let (h, s) := s.hbmRead (dOp d 0) 16
    let (es, s) := s.hbmRead (dOp d 0 + 16) (48 * min 64 (rd h 1 1))
    let u := rd h 0 1 % 4
    (dv (some [{ amuStage 1 u 32 65536 with edit := 2 ^ u }]) (h ++ es), s)
  else (dv (some [flatStage 768 2048 0]) [], s)

end Sys2Proof.Machine
end

