-- ==== Sys2Proof/Machine/Unchecked.lean ====
section
/-! DEFINITION. Unchecked conditions of job structures (R7, R515–R519, Table 25.3, scopes J, O and P): the job runs, and its status
and every byte it writes are free values (log entry 26). -/

namespace Sys2Proof.Machine

/-! ## Bits that must be zero (R7) -/

/-- Each triple names an offset, a number of bytes and the bits of them that must be zero. -/
def isClear (b : Bytes) (ms : List (Nat × Nat × Nat)) : Bool := ms.all (fun m => rd b m.1 m.2.1 &&& m.2.2 == 0)
/-- All bits of `n` bytes. -/
def allOnes (n : Nat) : Nat := 256 ^ n - 1

/-- Operand pointers that an opcode names (Table 16.3). -/
def opsNamed (op : Nat) : Nat :=
  if op = 0x0100 then 8 else if op = 0x0102 ∨ op = 0x0600 ∨ op = 0x0800 then 2 else 1
/-- Reserved bits of IMM0 (Table 16.3). -/
def imm0Reserved (op : Nat) : Nat :=
  match op with
  | 0x0101 => 0xFFFFFFFF00000000
  | 0x0102 => 0xFFFF000000000000
  | 0x0800 => 0xFFFC
  | 0x0900 => 0xFFFFFFFFFFFFFE00
  | 0x0901 => 0xFFFFFFFFFFFFFE00
  | _ => allOnes 8
/-- A descriptor with a reserved bit set (R365, R366, Table 16.2). -/
def descBad (d : Bytes) : Bool :=
  let op := dOpcode d
  let named := opsNamed op
  !(isClear d [(2, 2, if op = 0x0100 then 0xFFFE else 0xFFFF), (6, 2, if op = 0x0100 ∨ op = 0x0101 then 0xFFF0 else 0xFFFF),
      (0x10, 8, if op = 0x0100 then 0 else allOnes 8), (0x18 + 8 * named, 64 - 8 * named, allOnes (64 - 8 * named)),
      (0x58, 8, imm0Reserved op), (0x60, 8, allOnes 8), (0x68, 24, allOnes 24)])

/-! ## What a decision reads -/

/-- A stage record with a reserved bit set, no unit, or a unit above the limit of R89 (Table 4.1). -/
def stageBad (b : Bytes) : Bool :=
  !(isClear b [(5, 1, 0xF0), (6, 2, 0xFFFF), (0x3C, 4, allOnes 4)]) || rd b 0 4 == 0 || decide (rd b 4 1 > 16) ||
  (upTo 10).any (fun i => decide (rd b (8 + 4 * i) 4 > 1800000))
/-- A cost certificate whose fixed fields are wrong (R104, Table 4.6). -/
def certBad (b : Bytes) : Bool :=
  let n := rd b 6 1
  rd b 0 4 != 0x4B564343 || rd b 4 2 != 1 || decide (n = 0) || decide (n > 8) || rd b 7 1 != 0xA0 || decide (rd b 0x48 1 > 8) ||
  !(isClear b [(0x49, 55, allOnes 55)]) || (upTo (min 8 n)).any (fun k => stageBad (slice b (128 + 64 * k) 64))
/-- Most rows of a plain block with nulls, by width (Table 7.3). -/
def plainNulls (w : Nat) : Nat := if w = 8 then 58240 else if w = 16 then 30816 else if w = 32 then 15872 else 8064
/-- A schema beyond R229: columns 1 to 16, type codes 0 to 10, widths of a column, BROWS within every column's capacity. -/
def schemaBad (b : Bytes) : Bool :=
  let c := rd b 0 1
  decide (c = 0) || decide (c > 16) || !(isClear b [(1, 3, allOnes 3), (8, 8, allOnes 8)]) ||
  (upTo (min 16 c)).any (fun i =>
    let o := 16 + 8 * i
    decide (rd b o 1 > 1) || !([8, 16, 32, 64].contains (rd b (o + 1) 1)) || decide (rd b (o + 2) 1 > 10) || rd b (o + 6) 2 != 0 ||
    decide (rd b 4 4 > plainNulls (rd b (o + 1) 1)))
/-- An edit list outside Table 10.1 (R250). -/
def editsBad (b : Bytes) : Bool :=
  let n := rd b 1 1
  decide (n = 0) || decide (n > 64) || !(isClear b [(0, 1, 0xFC), (2, 14, allOnes 14)]) ||
  (upTo (min 64 n)).any (fun i =>
    let o := 16 + 48 * i
    decide (rd b o 1 = 0) || decide (rd b o 1 > 3) || !(isClear b [(o + 1, 1, 0xFF), (o + 6, 10, allOnes 10)]))
/-- The parameter block that the decision read (Tables 4.6, 9.1, 10.1, 11.4, 13.1, R307, R334). -/
def paramBad (op : Nat) (b : Bytes) : Bool :=
  if op = 0x0100 then certBad b
  else if (cryptoOp op).isSome then !(isClear b [(5, 1, 0xFE), (7, 1, 0xFF), (0x30, 16, allOnes 16)])
  else if op = 0x0400 then
    !(isClear b [(5, 1, 0xFE), (6, 1, 0xFC), (7, 1, 0xFF), (0x32, 14, allOnes 14)]) ||
    (match digAlg (gAlg b) with | some a => decide (gMaxLen b > 8 * (a.pmax * a.block)) | none => false)
  else if op = 0x0500 then !(isClear b [(0xC, 1, 0xFE), (0xD, 51, allOnes 51)])
  else if op = 0x0700 then
    !(isClear b [(0x18, 1, 0xFE), (0x1C, 1, 0xFC), (0x60, 32, allOnes 32)]) || decide (iE b = 0) || decide (iE b > 65536) ||
    decide (iMaxp b > 960) || decide (iNfields b = 0) || decide (iNfields b > 16) || schemaBad (b.drop 128)
  else if op = 0x0701 then
    !(isClear b [(0x18, 1, 0xFE), (0x1C, 1, 0xFC), (0x60, 32, allOnes 32)]) || decide (iE b = 0) || decide (iE b > 65536)
  else if op = 0x0801 then editsBad b
  else false

/-! ## What the units read -/

/-- The operation entry of unit `u` of a crypto batch; pooled signing looks at its entries with its first slot. -/
def entriesOf (j : Job) (u : Nat) : List Nat :=
  let b := j.param
  if j.opcode = 0x0203 ∧ (signK (bSet b)).isSome = true then (if u = 0 then upTo (bN b) else [])
  else match stateful (bSet b) (bLevels b) (bParam b) with
    | some st => [u / st.levels]
    | none => [u]
/-- A fragment descriptor that a message of `len` bytes reads has a reserved bit set; at most `n` of them, from address `a` (R306, R317). -/
def fragsBad (peek : Nat → Nat → Bytes) (len : Nat) : Nat → Nat → Nat → Bool
  | _, _, 0 => false
  | a, pos, n + 1 =>
    if len ≠ 0 ∧ len ≤ pos then false
    else let f := peek a 16
      rd f 12 4 != 0 || fragsBad peek len (a + 16) (pos + rd f 8 4) n
/-- Unit `u` of an engine reads an entry with a reserved bit set (Tables 11.5 and 13.2), a fragment descriptor with one (R306), or a
credential table entry with one (Table 9.3); an entry that the unit holds since its start is looked at as it was read. Reserved FORM bits of the big-number engine are checked by the engine (Table 12.4). -/
def State.entryBad (s : State) (j : Job) (u : Nat) (h : OpHeld) : Bool :=
  let b := j.param
  if (cryptoOp j.opcode).isSome then
    ((entriesOf j u).map (fun i => if h.entry.isEmpty then s.hbmPeek (bEntries b + 64 * i) 64 else h.entry)).any (fun e => !(isClear e
      [(0x2A, 1, if j.opcode < 0x0300 then 0xF8 else 0), (0x2C, 4, allOnes 4), (0x38, 8, allOnes 8)]))
  else if j.opcode = 0x0400 then
    let peek := fun a n => if gHost b then s.hostPeek a n else s.hbmPeek a n
    let e := if h.entry.isEmpty then peek (rd b 8 8 + 64 * u) 64 else h.entry
    !(isClear e [(0xD, 3, allOnes 3), (0x30, 16, allOnes 16)]) ||
      fragsBad peek (rd e 0x10 8) (rd e 0 8) 0 (min (rd e 8 4) (8 * rd b 0x28 4))
  else if j.opcode = 0x0700 ∨ j.opcode = 0x0701 then
    let peek := fun a n => if iHost b then s.hostPeek a n else s.hbmPeek a n
    let i := rd (peek (iBatch b + rd (peek (iOffsets b + 8 * u) 4) 0 4) 4) 0 4
    decide (i < iTableN b) && !(isClear (s.hbmPeek (iTable b + 2048 * i + 0x41) 31) [(0, 31, allOnes 31)])
  else false

/-- A loaded section outside Tables 6.2–6.4 (R138–R141). -/
def sectionBad (p : Plane) : Bool :=
  let get := fun a n => (upTo n).map (fun i => mget (fun _ => 0#8) p.data (a + i))
  let h := get 0 0x400
  rd h 0 4 != 0x4B565345 ||
  !(isClear h [(6, 2, 0xFFFF), (0xC, 8, 0xFFFFFF0000000000), (0x28, 24, allOnes 24), (0x68, 24, allOnes 24), (0xB0, 16, allOnes 16),
    (0xC0, 64, allOnes 64), (0x200, 512, allOnes 512)]) ||
  (upTo 40).any (fun i => bit (rd h (0x40 + i) 1) 6) || (upTo 48).any (fun i => bit (rd h (0x80 + i) 1) 6) ||
  bit (rd h 0xA8 1) 7 || bit (rd h 0xA9 1) 7 || (upTo 64).any (fun q => rd h (0x100 + 4 * q) 3 != 0) ||
  (upTo 40).any (fun l => !(isClear (get (0x400 + 0x800 * l) 64) [(3, 1, 0xFF), (4, 4, allOnes 4), (0x18, 40, allOnes 40)]))
/-- An image for another stepping, or outside Table 6.1 (R2, R134, R135), or field `f` holds a section of it outside its tables. -/
def State.imageBad (s : State) (j : Job) (f : Nat) : Bool :=
  if j.opcode ≠ 0x0100 then false else
  let h := s.hbmPeek j.image.addr 1024
  rd h 0 4 != 0x4B565357 || rd h 4 2 != 1 || rd h 6 1 != 0xA0 || decide (rd h 7 1 = 0) || decide (rd h 7 1 > 8) ||
  decide (rd h 12 1 = 0) || decide (rd h 12 1 > 64) || decide (rd h 13 1 > 8) || decide (rd h 14 1 > 4) ||
  !(isClear h ([(0xF, 1, 0xFF), (0x18, 8, allOnes 8), (0xA0, 96, allOnes 96), (0x300, 256, allOnes 256)] ++
    (upTo 8).map (fun k => (0x20 + 4 * k, 4, 0xFFFF0000)) ++ (upTo 8).map (fun i => (0x40 + 8 * i, 8, 0xFFFFFFFFFF00C000)) ++
    (upTo 4).map (fun i => (0x80 + 8 * i, 8, 0xFFFFFFFFFF0000FC)))) ||
  sectionBad ((s.field f).plane (s.field f).activePlane)

/-- The job is under an unchecked condition that its descriptor, its parameter block or its Commons plan shows. -/
def Job.unchecked (j : Job) : Bool := descBad j.desc || paramBad j.opcode j.param || j.part.any (·.planBad)

/-! ## Its effect (R515, R516) -/

/-- Cells whose byte differs between `a` and `b`. -/
def cellsChanged (d : Nat → Byte) (a b : SMap Byte) : List Nat :=
  (((a ++ b).map (·.1)).eraseDups).filter (fun k => mget d a k != mget d b k)
/-- Status codes of Table 2.6; the device writes no other (R52). -/
def statusCodes : List Nat := [0x00, 0x01, 0x02, 0x03, 0x04, 0x08, 0x10, 0x11, 0x12, 0x13, 0x14, 0x20, 0x21, 0x22, 0x23, 0x24, 0x26]
/-- The job's status is any status of Table 2.6, or the one it has. -/
def State.anyStatus (s : State) (id : Nat) : State :=
  let (v, s) := s.draw 9
  match statusCodes[v]? with
  | some c => s.modJob id (fun j => { j with status := some c, finish := s.swnN })
  | none => s
/-- `t` is the state after a unit of `j` in state `s`; `bad` says that the unit read a structure under an unchecked condition. Then,
or where the job is under one, the bytes it changed outside the ledger range, and its status, are free. -/
def State.settle (s t : State) (j : Job) (bad : Bool) : State :=
  if !(j.unchecked || bad) then t else
  let hbm := (cellsChanged hbmDefault s.hbm t.hbm).filter (fun k => !isLedger k)
  let host := cellsChanged hostDefault s.host t.host
  let (x, t) := t.drawBytes (hbm.length + host.length)
  let t := (hbm.zip x).foldl (fun t e => t.hbmPut e.1 e.2) t
  let t := (host.zip (x.drop hbm.length)).foldl (fun t e => t.hostPut e.1 e.2) t
  t.anyStatus j.id

end Sys2Proof.Machine
end

