-- ==== Sys2Proof/Machine/Calendar.lean ====
section
/-! DEFINITION. Planes and their bookings (R130, R131, R140, R151, R152), claims, the fit of a stage in a row, and placement
(R61–R70, R75, R99). -/

namespace Sys2Proof.Machine

/-! ## Tiles -/

/-- First physical tile and number of tiles of kind `k` (Table 5.1). -/
def kindBase (k : Nat) : Nat := nth [0, 8, 16, 20, 24, 28, 32, 36] k 0
def kindCount (k : Nat) : Nat := nth [8, 8, 4, 4, 4, 4, 4, 4] k 0
def kindOf (t : Nat) : Nat :=
  if t < 8 then 0 else if t < 16 then 1 else if t < 20 then 2 else if t < 24 then 3 else if t < 28 then 4
  else if t < 32 then 5 else if t < 36 then 6 else 7
/-- Physical indices within kind `k` of the tiles in service. -/
def Field.tilesIn (f : Field) (k : Nat) : List Nat :=
  (upTo (kindCount k)).filter (fun i => !f.tileFence.getLsbD (kindBase k + i))

/-! ## The ring (R15, R120) -/

/-- Fields strictly between `f` and `g` around the ring, ascending or descending (R120). -/
def ringPath (f g : Nat) (down : Bool) : List Nat :=
  let n := if down then (f + 16 - g) % 16 else (g + 16 - f) % 16
  ((upTo n).drop 1).map (fun i => if down then (f + 16 - i) % 16 else (f + i) % 16)
/-- A field that passes ring traffic: not fenced, and not powered down under PS1 (R132). -/
def State.ringOn (s : State) (f : Nat) : Bool := !(s.field f).fenced && ((s.field f).powered || s.power.state == 2)
/-! ## Sections -/

/-- A section of a stage as a plane holds it (R151): the built-in ingest section carries no digest and its schema's
address. -/
structure Sect where
  inst : Nat
  handle : Nat
  digest : Bytes
  index : Nat
  src : Nat
  len : Nat
deriving DecidableEq, Repr

/-- Section FIRST + i of stage `v` of job `j` (R136, R231). -/
def State.sectOf (s : State) (j : Job) (v : StageRec) (i : Nat) : Sect :=
  if j.opcode = 0x0700 then
    { inst := j.inst, handle := 4112 + j.inst, digest := [], index := 0, src := iSchema j.param, len := 0 }
  else
    let x := v.first + i
    let e := s.hbmPeek (j.image.addr + 0x100 + 8 * x) 8
    { inst := j.inst, handle := 16 * j.inst + dHandle j.desc, digest := j.image.digest, index := x
      src := j.image.addr + rd e 0 4, len := rd e 4 4 }
def Plane.holds (p : Plane) (x : Sect) : Bool :=
  decide (p.state ≠ 0) && p.inst == x.inst && p.digest == x.digest && p.section_ == x.index &&
    (!x.digest.isEmpty || p.src == x.src)

/-- TILE_NEED of a section by kind (Table 6.3; R231 for the built-in section). -/
def State.tileNeed (s : State) (j : Job) (x : Sect) : List Nat :=
  if j.opcode = 0x0700 then [cdiv (iC j.param) 2, 0, 0, 0, 0, 0, 2, 4]
  else
    let w := leNat (s.hbmPeek (x.src + 8) 4)
    (upTo 8).map (fun k => fld w (4 * k) 4)
def Field.tilesFit (f : Field) (need : List Nat) : Bool :=
  (upTo 8).all (fun k => decide (nth need k 0 ≤ (f.tilesIn k).length))

/-- Units a placement still reserves. -/
def Placement.live (p : Placement) : Nat := p.count - p.gone.length

/-- The stages that hold plane `pl` of field `f` (R151), as job and stage. -/
def State.holders (s : State) (f : Nat) (pl : Plane) : List (Nat × Nat) :=
  if pl.state = 0 then [] else
  (s.adm.jobs.flatMap (fun j =>
    if !j.reserves || j.inst != pl.inst then [] else
    (j.pls.filter (fun p => decide (p.row ≥ s.swnN) && decide (p.live > 0) && p.fields.contains f &&
      pl.holds (s.sectOf j (j.stage p.stage) (p.fields.findIdx (· == f))))).map (fun p => (j.id, p.stage)))).eraseDups

/-- Lowest plane of `f` that is free and not active in this swath. Before the switch at 8,704 that is the plane of the last switch
(DESIGN CHOICE, log entry 106). -/
def State.freePlane (s : State) (f : Nat) : Option Nat :=
  let x := s.field f
  (upTo 4).find? (fun p => !(x.active && x.activePlane == p) && x.loading != some p && (s.holders f (x.plane p)).isEmpty)
/-- A plane of `f` that holds a section, or has a load of it booked. -/
def State.planeOf (s : State) (f : Nat) (x : Sect) : Option Nat := (upTo 4).find? (fun p => ((s.field f).plane p).holds x)

/-- TILE_NEED of the section that a plane holds: from its own header, or that of the built-in section (R131, R231). -/
def Plane.tileNeed (p : Plane) : List Nat :=
  if p.digest.isEmpty then p.need else
  (upTo 8).map (fun k => fld (leNat ((upTo 4).map (fun i => mget (fun _ => 0#8) p.data (8 + i)))) (4 * k) 4)
/-- TILE_NEED of a section on field `f`: that of the section which the field holds, else that of the section which it would receive
(R130). -/
def State.needOn (s : State) (f : Nat) (j : Job) (x : Sect) : List Nat :=
  match s.planeOf f x with
  | some p => if ((s.field f).plane p).state = 2 then ((s.field f).plane p).tileNeed else s.tileNeed j x
  | none => s.tileNeed j x

/-- Field `f` is in service for section `i` of a stage (R130, R152). With `now`, only a RESIDENT plane serves (R80). -/
def State.usable (s : State) (f : Nat) (j : Job) (v : StageRec) (i : Nat) (now : Bool) : Bool :=
  let x := s.sectOf j v i
  s.fieldOn f && (s.field f).tilesFit (s.needOn f j x) &&
    (match s.planeOf f x with
     | some p => !now || ((s.field f).plane p).state == 2
     | none => !now && (s.freePlane f).isSome)

/-- Book a plane of `f` for section `i`, needed from row `r` on (R152). -/
def State.book (s : State) (f : Nat) (j : Job) (v : StageRec) (i r : Nat) : State :=
  let x := s.sectOf j v i
  match s.planeOf f x with
  | some _ => s
  | none =>
    match s.freePlane f with
    | none => s
    | some p =>
      s.modField f (fun y => y.setPlane p
        { state := 1, handle := x.handle, section_ := x.index, inst := x.inst, digest := x.digest, src := x.src
          len := x.len, row := r, need := if x.digest.isEmpty then s.tileNeed j x else [], data := [] })

/-! ## Claims and fit -/

/-- No stage other than `k` of job `id` claims field `f` in row `r` (R64). -/
def State.unclaimed (s : State) (r f id k : Nat) : Bool :=
  s.adm.jobs.all (fun j => !j.reserves || j.pls.all (fun p =>
    p.row != r || p.live == 0 || !p.fields.contains f || (j.id == id && p.stage == k)))

/-- EDIT[3:0] of a row (Table 3.3). -/
def State.rowEdit (s : State) (r : Nat) : Nat :=
  s.adm.jobs.foldl (fun m j => if !j.reserves then m else
    j.pls.foldl (fun m p => if p.row = r ∧ p.live > 0 then m ||| (j.stage p.stage).edit else m) m) 0
/-- TENT of a row (Table 3.3). -/
def State.rowTent (s : State) (r : Nat) : Bool :=
  s.adm.jobs.any (fun j => j.tent && j.reserves && j.pls.any (fun p => p.row == r && decide (p.live > 0)))

/-- Demand of a stage by share pool, per unit (R69). -/
def poolDemand (dem : List (Nat × Nat)) : List (Nat × Nat) :=
  ((upTo 10).map (fun p => (p, sumL ((dem.filter (fun e => poolOf e.1 == p)).map (·.2))))).filter (fun e => e.2 > 0)

/-- Units of stage `k` that fit row `r` on the chosen fields (fit of R69), and whether a share bound narrowed it. `cap` is
C or T; `share` is false for fit_T (R79); `records` adds the two record units of R99. -/
def State.fit (s : State) (cap : Nat → Nat) (j : Job) (k : Nat) (fields : List Nat) (r : Nat) (share records : Bool) :
    Nat × Bool :=
  let v := j.stage k
  let dem := v.demand fields
  let extra := if records then 2 else 0
  let free := fun x => cap x - s.rowCnt r x - (if x = 25 then extra else 0)
  let n := dem.foldl (fun n e =>
    let blocked := decide (e.1 < 16) && !s.unclaimed r e.1 j.id k
    min n (if blocked then 0 else free e.1 / e.2)) (2 ^ 32)
  let n := if v.edit &&& s.rowEdit r ≠ 0 then 0 else n
  let n := if v.editUnits.any (fun u => cap (21 + u) == 0) then 0 else n
  let n := if records && cap 25 - s.rowCnt r 25 < 2 then 0 else n
  if !share then (n, false) else
  let pools := poolDemand dem ++ (if records && v.hbm = 0 then [(7, 0)] else [])
  pools.foldl (fun (a : Nat × Bool) e =>
    let room := s.headroom j.inst e.1 r
    let m := if e.2 = 0 then (if room < 2 then 0 else a.1) else (room - (if e.1 = 7 then extra else 0)) / e.2
    if m < a.1 then (m, true) else a) (n, false)

/-! ## Placement -/

/-- Take `n` units off the front of a list of runs (first unit, count). -/
def takeRuns : Nat → List (Nat × Nat) → List (Nat × Nat) × List (Nat × Nat)
  | _, [] => ([], [])
  | 0, l => ([], l)
  | n + 1, (a, c) :: l =>
    if c ≤ n + 1 then
      let (t, rest) := takeRuns (n + 1 - c) l
      ((a, c) :: t, rest)
    else ([(a, n + 1)], (a + (n + 1), c - (n + 1)) :: l)
def runSum (l : List (Nat × Nat)) : Nat := sumL (l.map (·.2))

/-- Place runs of units of stage `k` of job `id` in row `r`: counters, ledgers and claims (R69, R75, R79). -/
def State.place (s : State) (id k : Nat) (fields : List Nat) (r : Nat) (runs : List (Nat × Nat)) (replaced records : Bool) :
    State :=
  match s.job? id with
  | none => s
  | some j =>
    let n := runSum runs
    if n = 0 then s else
    let dem := (j.stage k).demand fields
    let s := dem.foldl (fun s e => s.setRowCnt r e.1 (s.rowCnt r e.1 + n * e.2)) s
    let s := if records then s.setRowCnt r 25 (s.rowCnt r 25 + 2) else s
    let pools := poolDemand dem
    let charges := (pools.map (fun e => (e.1, n * e.2 + (if e.1 = 7 ∧ records then 2 else 0)))) ++
      (if records ∧ (j.stage k).hbm = 0 then [(7, 2)] else [])
    let s := charges.foldl (fun s e => s.chargeLedger j.inst e.1 r e.2 (!replaced)) s
    runs.foldl (fun s run =>
      let p : Placement :=
        { stage := k, row := r, start := run.1, count := run.2, fields, replaced, seq := s.adm.nextSeq
          recUnits := records && run == (runs.headD (0, 0)), done := if fields.isEmpty then [0] else fields.map (fun _ => 0)
          gone := [] }
      let s := s.modJob id (fun j => { j with pls := j.pls ++ [p] })
      { s with adm := { s.adm with nextSeq := s.adm.nextSeq + 1 } }) s

/-- The n lowest fields in service and unclaimed in row `r`, each with its section (R70, R152); drained fields are not
offered (R81). -/
def State.chooseFrom (s : State) (j : Job) (k r : Nat) (drained : List Nat) : List Nat → List Nat → List Nat
  | [], acc => acc
  | f :: fs, acc =>
    if acc.length ≥ (j.stage k).nfields then acc
    else if s.capT f > 0 && !drained.contains f && s.unclaimed r f j.id k && s.usable f j (j.stage k) acc.length false then
      s.chooseFrom j k r drained fs (acc ++ [f])
    else s.chooseFrom j k r drained fs acc

/-! ## Lost units -/

/-- Runs of consecutive numbers of an ascending list. -/
def runsOf (l : List Nat) : List (Nat × Nat) :=
  (l.foldl (fun (acc : List (Nat × Nat)) u =>
    match acc with
    | (a, c) :: t => if u = a + c then (a, c + 1) :: t else (u, 1) :: (a, c) :: t
    | [] => [(u, 1)]) []).reverse

/-- Units of the placement `seq` of a job become lost units (R24, R78). -/
def State.lose (s : State) (id seq : Nat) (units : List Nat) : State :=
  s.modJob id (fun j =>
    match j.pls.find? (fun p => p.seq == seq) with
    | none => j
    | some p =>
      let units := units.filter (fun u => !p.gone.contains u)
      { j with
        pls := j.pls.map (fun q => if q.seq = seq then { q with gone := q.gone ++ units } else q)
        lost := j.lost ++ (runsOf units).map (fun r =>
          { stage := p.stage, start := r.1, count := r.2, fields := p.fields : Lost }) })

/-- The stage has no unit left: nothing lost, and every placement has ended but for what moved elsewhere. -/
def Job.stageOver (j : Job) (k : Nat) : Bool :=
  !j.lost.any (fun l => l.stage == k && l.count > 0) &&
    j.pls.all (fun p => p.stage != k || decide (p.ended + p.gone.length ≥ p.count))
def Job.allOver (j : Job) : Bool := (upTo j.stages.length).all (fun k => j.stageOver k)

end Sys2Proof.Machine
end

