-- ==== Sys2Proof/Machine/Headland.lean ====
section
/-! DEFINITION. The headland's control steps before admission: the re-plan step (R78–R80, R482, R486, R492, R493), the commit step
(R40–R48, R341, R377, R449, R477), and the mirror refresh (R418). -/

namespace Sys2Proof.Machine

/-! ## Fence and route conditions of a placement -/

/-- Every ring route of the section that a query placement has on its `i`-th field avoids lost fields (R132, R140). -/
def State.routesOk (s : State) (j : Job) (p : Placement) (i : Nat) : Bool :=
  if j.opcode ≠ 0x0100 then true else
  let v := j.stage p.stage
  let x := s.sectOf j v i
  let tab := s.hbmPeek (x.src + 0x100) 256
  (upTo 64).all (fun q =>
    let e := rd tab (4 * q) 4
    if !bit e 31 then true else
    match p.fields[fld e 24 6 - v.first]? with
    | none => true
    | some g => (ringPath (nth p.fields i 0) g (bit e 30)).all s.ringOn)
/-- The fields of a placement are still in service for it: tiles enough, routes whole (R131, R132). -/
def State.fieldsOk (s : State) (j : Job) (p : Placement) : Bool :=
  (upTo p.fields.length).all (fun i =>
    (s.field (nth p.fields i 0)).tilesFit (s.needOn (nth p.fields i 0) j (s.sectOf j (j.stage p.stage) i)) && s.routesOk j p i)

/-! ## Displacement (R78) -/

/-- Take units of one placement off its row and make them lost units. -/
def State.displace (s : State) (j : Job) (p : Placement) (units : List Nat) : State :=
  (s.unplace j.inst p.row ((j.stage p.stage).demand p.fields) units.length).lose j.id p.seq units

/-- Jobs that a re-plan step may touch. -/
def Job.plannable (j : Job) : Bool := !j.recorded && j.status.isNone && j.held.isNone

/-- Placements of rows from `c` on, most recently placed first. -/
def State.future (s : State) (c : Nat) : List (Job × Placement) :=
  sortBy (fun a b => decide (a.2.seq > b.2.seq))
    ((s.adm.jobs.filter Job.plannable).flatMap (fun j =>
      (j.pls.filter (fun p => decide (p.row ≥ c) && decide (p.live > p.ended))).map (fun p => (j, p))))

/-- T of resource `x` can have fallen through a CCLK step or a fence since the last re-plan step. T of HBM falls through HOST_WIN too,
which displaces nothing (R78). -/
def State.fallen (s : State) (x : Nat) : Bool := x != 25 || decide (s.hbmGrossNow < s.adm.hbmGross)
/-- While the counter of `x` in the placement's row exceeds T, its last units leave. -/
def State.displaceOn (s : State) (x : Nat) (e : Job × Placement) : State :=
  match (s.job? e.1.id).bind (fun j => (j.pls.find? (fun p => p.seq == e.2.seq)).map (fun p => (j, p))) with
  | none => s
  | some (j, p) =>
    let per := sumL ((((j.stage p.stage).demand p.fields).filter (fun d => d.1 == x)).map (·.2))
    let extra := s.rowCnt p.row x - s.capTNow x
    if per = 0 ∨ extra = 0 then s else
    let left := p.openUnits
    s.displace j p (left.drop (left.length - min left.length (cdiv extra per)))

/-- Every match unit whose edit pass the placement's stage reserves is in service (R263). -/
def State.editOk (s : State) (e : Job × Placement) : Bool :=
  (e.1.stage e.2.stage).editUnits.all (fun u => decide (s.capTNow (21 + u) > 0))
/-- Units displaced by fenced tiles, lost routes, fenced edit units, and counters above T. -/
def State.displaceAll (s : State) (c : Nat) : State :=
  let s := (s.future c).foldl (fun s e => if s.fieldsOk e.1 e.2 && s.editOk e then s else s.displace e.1 e.2 e.2.openUnits) s
  ((upTo 28).filter s.fallen).foldl (fun s x => (s.future c).foldl (fun s e => s.displaceOn x e) s) s

/-! ## Re-placement (R79, R80) -/

/-- The fields that re-placed units of a stage use in row `r`: each field still in service is kept; a lost one gives its
section to the lowest field that can take it (log entry 30). None where the row offers no such set. -/
def State.refields (s : State) (j : Job) (k r c : Nat) (old : List Nat) : Option (List Nat) :=
  let v := j.stage k
  let now := r == c
  (upTo old.length).foldl (fun acc i =>
    acc.bind (fun out =>
      let f := nth old i 0
      let ok := fun g => s.unclaimed r g j.id k && s.usable g j v i now
      if s.capTNow f > 0 && (s.field f).tilesFit (s.needOn f j (s.sectOf j v i)) then
        (if ok f then some (out ++ [f]) else none)
      else ((upTo 16).find? (fun g => !old.contains g && !out.contains g && decide (s.capTNow g > 0) && ok g)).map
        (fun g => out ++ [g]))) (some [])

/-- Lost units of stage `k`, as runs. -/
def Job.lostRuns (j : Job) (k : Nat) : List (Nat × Nat) := (j.lost.filter (fun l => l.stage == k)).map (fun l => (l.start, l.count))
/-- `j` with the lost units of stage `k` replaced by the given runs on the given fields. -/
def Job.setLost (j : Job) (k : Nat) (fields : List Nat) (runs : List (Nat × Nat)) : Job :=
  { j with lost := j.lost.filter (fun l => l.stage != k) ++
      runs.map (fun r => { stage := k, start := r.1, count := r.2, fields : Lost }) }

/-- Rows from `c` on that hold units of the stages that `q` picks. -/
def Job.rowsOf (j : Job) (c : Nat) (q : Nat → Bool) : List Nat :=
  (j.pls.filter (fun p => decide (p.row ≥ c) && decide (p.live > 0) && q p.stage)).map (·.row)

/-- The inner loop of `replan` for one stage, from row `r` to `last`; the budget rides along. -/
def State.replanRows (c id k last : Nat) : Nat → Nat → State → Nat → State × Nat
  | 0, _, s, b => (s, b)
  | n + 1, r, s, b =>
    match s.job? id with
    | none => (s, b)
    | some j =>
      let runs := j.lostRuns k
      let left := runSum runs
      if left = 0 ∨ r > last ∨ b < 8 then (s, b) else
      let old := match j.lost.find? (fun l => l.stage == k) with | some l => l.fields | none => []
      let s := match s.refields j k r c old with
        | none => s
        | some fields =>
          let m := min left (s.fit s.capTNow j k fields r false false).1
          if m = 0 then s else
          let (take, rest) := takeRuns m runs
          let s := s.modJob id (fun j => j.setLost k fields rest)
          let s := if (j.stage k).fieldCc = 0 then s else
            (upTo fields.length).foldl (fun s i => s.book (nth fields i 0) j (j.stage k) i r) s
          s.place id k fields r take true false
      State.replanRows c id k last n (r + 1) s (b - 8)

/-- The stages of one job in ascending order. -/
def State.replanJob (s : State) (c id b : Nat) : State × Nat :=
  match s.job? id with
  | none => (s, b)
  | some j0 =>
    let n := j0.stages.length
    (upTo n).foldl (fun (a : State × Nat) k =>
      match a.1.job? id with
      | none => a
      | some j =>
        if (j.lostRuns k).isEmpty then a else
        let before := j.rowsOf c (fun m => k ≠ 0 && m + 1 == k)
        let first := max c (before.foldl (fun m r => max m (r + 1)) c)
        let after := j.rowsOf c (fun m => decide (m > k))
        let last := if k + 1 = n then j.deadline
          else match after with
            | [] => j.deadline - (n - (k + 1))
            | r :: rs => rs.foldl min r - 1
        State.replanRows c id k last (last + 1 - first) first a.1 a.2) (s, b)

/-- The outer loop of `replan` (R79); a Commons part is never re-placed (R493). -/
def State.replanAll (c : Nat) : List Nat → State → Nat → State × Nat
  | [], s, b => (s, b)
  | id :: ids, s, b =>
    if b < 16 then State.replanAll c ids (s.closeJob id 0x10 false) b else
    let (s, b) := match s.job? id with
      | none => (s, b)
      | some j => if j.part.isSome then (s, b - 16) else s.replanJob c id (b - 16)
    let s := match s.job? id with
      | none => s
      | some j => if j.lost.any (fun l => decide (l.count > 0)) then s.closeJob id 0x10 false else s
    State.replanAll c ids s b

/-- Jobs with lost units by deadline swath, then admitting swath, then decision order. -/
def State.replanOrder (s : State) : List Nat :=
  (sortBy (fun (a b : Job) => if a.deadline = b.deadline then decide (a.a < b.a) else decide (a.deadline < b.deadline))
    (s.adm.jobs.filter (fun j => j.plannable && j.lost.any (fun l => decide (l.count > 0))))).map (·.id)

/-! ## Releases at a re-plan step -/

/-- A part leaves without any record (R482, R486, R492). -/
def State.dropPart (s : State) (j : Job) : State :=
  ((((s.releaseJob j).stopJob j.id).modJob j.id (fun j => { j with recorded := true })).sweepJobs)

/-- The DONE record of a Commons job at its coordinator, with the flags of every part. -/
def State.finalDone (s : State) (c : CJob) (status : Nat) : State :=
  match s.job? c.job with
  | none => s.modCJobs (fun x => if x.cjob = c.cjob then { x with finished := true } else x)
  | some j =>
    let fl := c.dones.foldl (fun m e => m ||| e.2.2) 0
    let s := s.jobCleanup j status
    let s := if status = 0x10 then { s with adm := { s.adm with lostN := s.adm.lostN + 1 } } else s
    let s := (s.releaseJob j).stopJob j.id
    let j := { j with trunc := bit fl 0 || j.trunc, sat := bit fl 1 || j.sat, part := none, finish := s.swnN }
    let s := s.doneRecord j status
    let s := s.modJob j.id (fun x => { x with recorded := true, status := some status })
    let s := s.modCJobs (fun x => if x.cjob = c.cjob then { x with finished := true } else x)
    (s.readyEvent j).sweepJobs
/-- ABANDON to every other part of a Commons job. -/
def State.sendAbandon (s : State) (c : CJob) : State :=
  (c.members.filter (fun m => m ≠ s.memberIx)).foldl (fun s m => s.sendFrame false 6 m c.cjob 0 0 (zeros 64)) s
/-- A Commons job that its coordinator ends with FENCED_LOST. -/
def State.loseCJob (s : State) (c : CJob) : State := (s.sendAbandon c).finalDone c 0x10
def State.sweepCJobs (s : State) : State :=
  { s with commons := { s.commons with cjobs := s.commons.cjobs.filter (fun c => !c.finished) } }

/-- Commons parts at the re-plan step: firm, released or lost (R482, R486, R492, R493). -/
def State.replanParts (s : State) : State :=
  let now := s.swnN
  let own := s.commons.cjobs.map (·.job)
  let s := (s.commons.cjobs.filter (fun c => !c.finished && (!s.joined || c.members.any (fun m => (s.peer m).state == 2)))).foldl
    (fun s c => s.loseCJob c) s
  let parts := s.adm.jobs.filter (fun j => j.part.isSome && !j.recorded && !own.contains j.id)
  let s := parts.foldl (fun s j =>
    match j.part with
    | none => s
    | some p =>
      if !s.joined || p.abandoned || (s.peer p.coord).state == 2 || (j.tent && !p.committed && decide (now ≥ p.s0)) then s.dropPart j
      else if p.committed then s.modJob j.id (fun j => { j with tent := false }) else s) s
  let s := (s.commons.cjobs.filter (fun c => c.admitted && !c.finished)).foldl (fun s c =>
    s.modJob c.job (fun j => { j with tent := false })) s
  s.sweepCJobs

/-- RESETTING ends (R362, Table 16.1): the instance's registers but GEN and MBX_VEC take their reset values. -/
def State.endResetting (s : State) : State :=
  (s.insts.filter (fun e => e.2.state == 2)).foldl (fun s e =>
    let n := e.1
    let keep := fun (x : Nat × Word) => !(decide (instPage n ≤ x.1) && decide (x.1 < instPage n + 0x1000)) || x.1 == instPage n + 0x14
    let s := { s with cfg := s.cfg.filter keep }
    s.setInst n { Inst.init n with
      state := if e.2.absentNext then 0 else 1
      gen := e.2.gen
      low := e.2.low }) s

/-- REPLAN_STEP (R78–R80). -/
def State.replan (s : State) : State :=
  let c := s.swnN
  let back := s.power.addPend
  let s := { s with
    power := { s.power with leaving := false, addPend := 0 }
    commons := { s.commons with retrained := 0 } }
  let s := (upTo 16).foldl (fun s f => if back.getLsbD f then s.modField f (fun x => { x with powered := true }) else s) s
  let s := (s.adm.jobs.filter (fun j => j.relPend)).foldl (fun s j =>
    let s := s.releaseJob j
    if j.recorded && j.part.isNone then s.readyEvent j else s) s
  let s := s.sweepJobs.replanParts
  let s := s.displaceAll c
  let lost0 := s.adm.lostN
  let (s, b) := State.replanAll c s.replanOrder s 8192
  let s := if s.adm.lostN = lost0 then s else s.pendSrc 881
  let s := s.endResetting
  let s := s.setCaps s.capCNow s.capTNow
  { s with adm := { s.adm with replanLast := 8192 - b, hbmGross := s.hbmGrossNow } }
def execReplanStep (s : State) : Host.Outcome State Fault Refusal := whenRun s (s.replan.setOffset 0)

/-! ## The commit step -/

/-- Addresses of shadowed registers that hold a value other than the reset value, in the shadow or live. -/
def State.shadowAddrs (s : State) : List Nat :=
  ((s.cfg.map (·.1)) ++ (s.live.map (·.1))).eraseDups.filter (fun a =>
    match regAt a with | some (r, _, _) => r.shadow | none => false)
/-- Pending shadow words. -/
def State.pendAddrs (s : State) : List Nat := s.shadowAddrs.filter (fun a => decide (s.cfgW a ≠ s.liveW a))
/-- CFG_PEND (R40): a bit for each block with a pending shadow. -/
def State.cfgPend (s : State) : Nat :=
  s.pendAddrs.foldl (fun m a => m ||| 2 ^ cfgBit (blockOf a)) 0
/-- Shadow words with a parity mismatch. -/
def State.badShadows (s : State) : List Nat :=
  s.parBad.filter (fun a => match regAt a with | some (r, _, _) => r.shadow | none => false)

/-- A live change of JOIN (Table 23.3). -/
def State.joinChange (s : State) (was : Bool) : State :=
  let now := bit (s.liveN 0xD00000) 31
  if was == now then s else
  { s with commons := { s.commons with
      align := if !now then 0 else if bit (s.liveN 0xD00000) 4 then 2 else 1, within := 0, beyond := 0, holdSwaths := 0 } }

/-- Shadow words of the given addresses become live together; PWR_CMD and JOIN act (R449, R477). -/
def State.makeLive (s : State) (as : List Nat) : State :=
  let join := bit (s.liveN 0xD00000) 31
  let s := (s.voteBad.filter (fun e => e.2 && (as.contains e.1 || s.cfgW e.1 == s.liveW e.1))).foldl (fun s e => s.liveAgain e.1) s
  let as := as.filter (fun a => decide (s.cfgW a ≠ s.liveW a))
  let s := as.foldl (fun s a => s.setLive a (s.cfgW a)) s
  let s := if as.contains 0xC00004 then s.pwrLive (s.liveW 0xC00004) else s
  s.joinChange join

/-- The register part of the commit step (R41, R43, R48). A block with a mismatch in a shadow word commits nothing. A
release of a hold waits while such a block has a pending shadow, since all pending shadows go live together. -/
def State.commitRegs (s : State) : State :=
  if bit (s.cfgN 0x40) 0 then s else
  let bad := s.badShadows
  let s := bad.foldl (fun s a => (s.raise (3 * blockOf a + 2) 0 a 0).setCause (3 * blockOf a + 2) true) s
  let skips := fun (l : List Nat) => BitVec.ofNat 15 (l.foldl (fun m a => m ||| 2 ^ cfgBit (blockOf a)) 0)
  if s.glob.relPend then
    if s.pendAddrs.any (fun a => (bad.map blockOf).contains (blockOf a)) then { s with glob := { s.glob with cfgSkip := skips bad } }
    else { s.makeLive s.shadowAddrs with glob := { s.glob with relPend := false, cfgSkip := skips bad } }
  else
    let blocks := (bad.map blockOf).eraseDups
    let s := { s with glob := { s.glob with cfgSkip := skips bad } }
    s.makeLive (s.shadowAddrs.filter (fun a => !blocks.contains (blockOf a)))

/-- C and T after the commit step: what lost its power is gone, the reserve and the host window are the live ones; capacity
that comes back counts from the next re-plan step (R62, R451). -/
def State.commitCaps (s : State) : State :=
  let t := fun x =>
    if !(s.poolsOn && (x ≥ 16 || (s.field x).powered)) then 0
    else if x = 25 then s.hbmRoom s.adm.hbmGross else s.capT x
  let c := fun x => if x < 21 then t x / s.tCc * s.cCc else t x
  s.setCaps c t

/-- Hold an accepted job (R84): its units in rows from `f` on are released and kept as remaining units. -/
def State.holdJob (s : State) (f : Nat) (j : Job) : State :=
  let ahead := j.pls.filter (fun p => decide (p.row ≥ f))
  let s := ahead.foldl (fun s p =>
    let s := s.unplace j.inst p.row ((j.stage p.stage).demand p.fields) (p.live - p.ended)
    if p.recUnits then s.unplace j.inst p.row [(25, 2)] 1 else s) s
  let lost := ahead.flatMap (fun p => (runsOf p.openUnits).map (fun r =>
    { stage := p.stage, start := r.1, count := r.2, fields := p.fields : Lost }))
  s.modJob j.id (fun j => { j with
    pls := j.pls.filter (fun p => decide (p.row < f)), lost := j.lost ++ lost, held := some (j.deadline - f) })

/-- A pending FREEZE takes effect (R377). -/
def State.freezeNow (s : State) : State :=
  let f := s.swnN
  (s.insts.filter (fun e => e.2.state == 3)).foldl (fun s e =>
    let s := s.modInst e.1 (fun i => { i with state := 4, frozenAt := s.glob.swn })
    (s.adm.jobs.filter (fun j => j.inst == e.1 && !j.recorded && j.held.isNone)).foldl (fun s j => s.holdJob f j) s) s

/-- COMMIT_STEP. -/
def State.commitStep (s : State) : State :=
  s.commitRegs.keyCommit.freezeNow.commitCaps
def execCommitStep (s : State) : Host.Outcome State Fault Refusal := whenRun s (s.commitStep.setOffset 8192)

/-- DRAIN_COMPLETE (R81): at the commit step, whose capacities lose what the command removes. -/
def execDrainComplete (s : State) : Host.Outcome State Fault Refusal :=
  whenRun s (match s.power.drain with
    | some w => if s.drainMet w then (s.pwrEffect w).commitCaps else s
    | none => s)

/-! ## The mirror refresh -/

/-- Unit codes of the fenced units (Table 18.4). -/
def State.fencedUnits (s : State) : List Nat :=
  let code := fun k i => (unitCode k i).toNat
  (upTo 16).flatMap (fun f => ((upTo 40).filter (fun t => (s.field f).tileFence.getLsbD t)).map (fun t => code 1 (40 * f + t))) ++
  ((upTo 16).filter (fun f => (s.field f).fenced)).map (code 2) ++
  (upTo 4).flatMap (fun p => ((upTo (coreCount p)).filter (fun c => (s.core (coreBase p + c)).fenced)).map (code (3 + p))) ++
  ((upTo 12).filter (fun p => (s.pipe p).fenced)).map (code 7) ++
  ((upTo 4).filter (fun u => (s.amu u).fenced)).map (code 8) ++
  ((upTo 128).filter (fun i => s.hbmc.pcFenced.getLsbD i)).map (code 9) ++
  ((upTo 4).filter (fun k => s.commons.fenced.getLsbD k)).map (code 10) ++
  ((upTo 8).filter (fun n => s.seed.fenced.getLsbD n)).map (code 11)

/-- MIRROR_REFRESH (R418): the copy, and the units whose record differs from the state it was copied from. Source 896
becomes pending. -/
def execMirrorRefresh (skew : List (BitVec 16)) (s : State) : Host.Outcome State Fault Refusal :=
  let units := (skew.map (·.toNat)).eraseDups
  let counts := units.foldl (fun m u => cput m u (cget s.mirror.skew u + 1)) []
  let t := { s with mirror :=
    { swn := s.glob.swn, fenced := s.fencedUnits, fieldsOn := s.power.fieldsOn
      planes := (upTo 16).map (fun f => (s.field f).activePlane), occupancy := (s.row s.swnN).cnt
      cclkStep := s.glob.cclkStep, reserve := s.liveN 0x100000, skew := counts } }
  let t := (units.filter (fun u => cget counts u == 3)).foldl (fun t u => t.raise 449 (BitVec.ofNat 16 u) 0 0) t
  let t := if units.isEmpty then t.setCause 449 false
    else if units.any (fun u => decide (cget counts u ≥ 3)) then t.setCause 449 true else t
  whenRun s ((t.pendSrc 896).setOffset 41728)

end Sys2Proof.Machine
end

