-- ==== Sys2Proof/Machine/Admission.lean ====
section
/-! DEFINITION. The admission step (R66–R73, R378, R380, R381, R483–R487) and the end of a job (R26). -/

namespace Sys2Proof.Machine

/-! ## The placement loop of R69 -/

/-- A decision under way: the scratch state, the next row, the stage-rows examined, whether a share bound narrowed one. -/
structure Dec where
  s : State
  r : Nat
  examined : Nat
  bound : Bool
/-- Where the loop ends: everything placed, or refused with status and reason. -/
inductive DecEnd where
  | placed (d : Dec)
  | refused (status reason examined : Nat)

/-- Rows of one stage, from `d.r` to `last`. `fields` is none until choose_fields has found enough. -/
def placeRows (id k last : Nat) (drained : List Nat) :
    Nat → List (Nat × Nat) → Option (List Nat) → Dec → DecEnd
  | 0, _, _, d => .refused 1 2 d.examined
  | fuel + 1, runs, fields, d =>
    let left := runSum runs
    if left = 0 then .placed d
    else if d.r > last then (if d.bound then .refused 2 0x10 d.examined else .refused 1 1 d.examined)
    else if d.examined = 4094 then .refused 1 2 d.examined
    else
      match d.s.job? id with
      | none => .refused 1 1 d.examined
      | some j =>
        let v := j.stage k
        let (s, fields) := match fields with
          | some fs => (d.s, some fs)
          | none =>
            let fs := d.s.chooseFrom j k d.r drained (upTo 16) []
            if fs.length < v.nfields then (d.s, none)
            else ((upTo fs.length).foldl (fun s i => s.book (nth fs i 0) j v i d.r) d.s, some fs)
        match fields with
        | none => placeRows id k last drained fuel runs none { d with r := d.r + 1, examined := d.examined + 1 }
        | some fs =>
          let records := j.pls.isEmpty
          let (n, b) := s.fit s.capC j k fs d.r true records
          let (take, rest) := takeRuns (min left n) runs
          let s := s.place id k fs d.r take false records
          placeRows id k last drained fuel rest (some fs)
            { s, r := d.r + 1, examined := d.examined + 1, bound := d.bound || b }

/-- All stages of a job. `runs k` are the units of stage k; `lo k` and `last k` bound its rows. -/
def placeJob (id : Nat) (drained : List Nat) (runs : Nat → List (Nat × Nat)) (lo last : Nat → Nat) :
    List StageRec → Nat → Dec → DecEnd
  | [], _, d => .placed d
  | v :: vs, k, d =>
    let fields := if v.nfields = 0 then some [] else none
    match placeRows id k (last k) drained 4096 (runs k) fields { d with r := max d.r (lo k) } with
    | .refused st re ex => .refused st re ex
    | .placed d => placeJob id drained runs lo last vs (k + 1) d

/-! ## Refusal reasons (R71) -/

def reasonFrozen : Nat := 0x21
def reasonAbsent : Nat := 0x22
def reasonNotJoined : Nat := 0x23
def reasonPending : Nat := 0x24
def reasonOpcode : Nat := 0x25

/-- The reasons of status 0x03 that follow from the stages: NOT_JOINED, POOL_ABSENT, PWR_PENDING. -/
def State.stageReason (s : State) (stages : Option (List StageRec)) (commonsJob : Bool) : Option Nat :=
  match stages with
  | none => some reasonAbsent
  | some vs =>
    let fieldsLeft := fun (no : List Nat) => ((upTo 16).filter (fun f => decide (s.capT f > 0) && !no.contains f)).length
    if (commonsJob && !s.joined) || vs.any (fun v => decide (v.commons > 0) && s.capT 26 == 0) then some reasonNotJoined
    else if s.power.state ≥ 3 || vs.any (fun v =>
        v.flat.any (fun e => e.1 != 26 && s.capT e.1 == 0) || v.editUnits.any (fun u => s.capT (21 + u) == 0) || decide (v.nfields > fieldsLeft [])) then some reasonAbsent
    else if vs.any (fun v => v.flat.any (fun e => s.drained.contains e.1) || v.editUnits.any (fun u => s.drained.contains (21 + u)) || decide (v.nfields > fieldsLeft s.drained)) then
      some reasonPending
    else none

/-- A live registration entry names the digest for the instance (R149). -/
def State.registered (s : State) (inst : Nat) (digest : Bytes) : Bool :=
  (upTo 1024).any (fun e =>
    let w := s.liveN (0x410030 + 0x40 * e)
    bit w 31 && (w % 512 == inst || w % 512 == 511) &&
      (upTo 12).flatMap (fun i => toLe 4 (s.liveN (0x410000 + 0x40 * e + 4 * i))) == fitB digest 48)
def State.regFails (s : State) (inst opcode : Nat) (digest : Bytes) : Bool :=
  opcode == 0x0100 && bit (s.liveN (0x400010 + 4 * (inst / 32))) (inst % 32) && !s.registered inst digest

/-! ## Jobs -/

/-- The job that a decision places, before its placement. -/
def newJob (id inst sq cq : Nat) (gen : BitVec 16) (desc : Bytes) (dv : Derived) (a deadline : Nat) (part : Option Part) : Job :=
  { id, inst, sq, cq, gen, tag := BitVec.ofNat 64 (dTag desc), opcode := dOpcode desc, desc, param := dv.param
    image := dv.image, a, deadline, stages := dv.stages.getD [], pls := [], lost := [], status := none, finish := 0
    trunc := false, sat := false, rows := [], recorded := false, relPend := false, held := none
    tent := part.isSome, part, carryId := id, carryKey := [], worst := none, budgetOut := false, signs := [], dealt := 0, cursor := 0
    levels := [], work := [], carries := [], overflow := false, sent := [], dest := [], scratch := [] }
def State.addJob (s : State) (j : Job) : State :=
  { s with adm := { s.adm with
      jobs := s.adm.jobs ++ [{ j with carryKey := Config.carryKey s.start.boot }]
      nextJob := s.adm.nextJob + 1 } }

/-- What acceptance does beside the placement: a staged handle (R146), an edit list in its store (R251). -/
def State.afterAccept (s : State) (id : Nat) : State :=
  match s.job? id with
  | none => s
  | some j =>
    if j.opcode = 0x0101 then
      let h := 16 * j.inst + dHandle j.desc
      let x := s.handle h
      if x.state = 0 then s.setHandle h { x with state := 1 } else s
    else if j.opcode = 0x0801 then
      match j.pls with
      | [] => s
      | p :: _ => s.modAmu (rd j.param 0 1 % 4) (fun u => { u with
          lists := u.lists ++ [{ job := j.id, inst := j.inst, row := p.row, bytes := j.param }] })
    else s
/-- Acceptance would place a seventeenth list in a unit's edit store (R251). -/
def State.storeFull (s : State) (opcode : Nat) (param : Bytes) : Bool :=
  opcode == 0x0801 && decide ((s.amu (rd param 0 1 % 4)).lists.length ≥ 16)

/-- A verdict on a descriptor: abandoned, refused, or accepted with the state after and its last row. -/
inductive Verdict where
  | abandon
  | refuse (s : State) (status reason cost : Nat)
  | accept (s : State) (id cost : Nat)

/-- Decide a job whose stages are derived. `win` are the windows of a Commons part, absolute. -/
def State.judge (s : State) (inst sq cq : Nat) (gen : BitVec 16) (desc : Bytes) (dv : Derived) (a d : Nat)
    (part : Option Part) (left : Nat) : Verdict :=
  let no := fun st re ex => if 16 + 8 * ex > left then .abandon else Verdict.refuse s st re (16 + 8 * ex)
  match s.stageReason dv.stages part.isSome with
  | some re => no 3 re 0
  | none =>
    if s.regFails inst (dOpcode desc) dv.image.digest then no 4 0x30 0
    else if d = 0 then no 1 3 0
    else
      let id := s.adm.nextJob
      let j := newJob id inst sq cq gen desc dv a (a + d) part
      let lo := fun k => match part with | some p => p.s0 + (nth p.wins k (0, 0)).1 | none => 0
      let last := fun k => match part with | some p => p.s0 + (nth p.wins k (0, 0)).2 | none => a + d
      match placeJob id s.drained (fun k => [(0, (j.stage k).u)]) lo last j.stages 0
          { s := s.addJob j, r := a, examined := 0, bound := false } with
      | .refused st re ex => no st re ex
      | .placed dn =>
        let cost := 16 + 8 * dn.examined
        if cost > left || s.storeFull j.opcode dv.param then .abandon
        else .accept (dn.s.afterAccept id) id cost

def Job.lastRow (j : Job) : Nat := j.pls.foldl (fun m p => max m p.row) j.a

/-! ## Commons jobs (R483, R484) -/

def planMagic : Nat := 0x4B564350
/-- The windows of a plan or a RESERVE frame (Table 23.4). -/
def planWins (b : Bytes) (off : Nat) : List (Nat × Nat) := (upTo 8).map (fun k => (rd b (off + 2 * k) 1, rd b (off + 2 * k + 1) 1))
/-- Stages of a certificate that stands whole in `c`, for an image. -/
def State.certDerive (s : State) (img : HandleC) (c : Bytes) : Derived × State :=
  let n := min 8 (rd c 6 1)
  let (dir, s) := s.hbmRead (img.addr + 0x20) 32
  ({ stages := some ((upTo n).map (fun k => parseStage (slice c (128 + 64 * k) 64) (rd dir (4 * k) 1)))
     param := c, image := img }, s)
/-- Certificate bytes at an HBM address. -/
def State.certRead (s : State) (a : Nat) : Bytes × State :=
  let (head, s) := s.hbmRead a 128
  let (recs, s) := s.hbmRead (a + 128) (64 * min 8 (rd head 6 1))
  (head ++ recs, s)

/-- Bitmap of member indices, 128 bytes. -/
def memberMap (ms : List Nat) : Bytes := toLe 128 ((ms.eraseDups.map (2 ^ ·)).foldl (· + ·) 0)
def mapMembers (b : Bytes) : List Nat := (upTo 1024).filter (fun m => bit (leNat (slice b (m / 8) 1)) (m % 8))

/-- The plan at a descriptor's COST_REF: members in part order and the plan's bytes. -/
def State.readPlan (s : State) (a : Nat) : Bytes × State :=
  let (head, s) := s.hbmRead a 64
  let (parts, s) := s.hbmRead (a + 64) (16 * min 1024 (rd head 4 2))
  (head ++ parts, s)
/-- A plan with a reserved bit set, or whose windows break R483 (R7, Table 23.4): an unchecked condition of its job. -/
def planBad (p : Bytes) (d : Nat) : Bool :=
  let n := min 1024 (rd p 4 2)
  let k := rd p 6 1
  let wins := (planWins p 0x10).take k
  !(isClear p [(7, 9, allOnes 9), (0x20, 32, allOnes 32)]) ||
  (upTo n).any (fun i => !(isClear p [(0x40 + 16 * i, 2, 0xFC00), (0x42 + 16 * i, 1, 0xF0), (0x43 + 16 * i, 5, allOnes 5)])) ||
  decide (n = 0) || decide (k = 0) || decide (k > 8) || (nth wins 0 (0, 0)).1 != 0 || wins.any (fun w => decide (w.1 > w.2)) ||
  ((wins.zip (wins.drop 1)).any (fun w => decide (w.2.1 ≤ w.1.2))) || decide ((nth wins (k - 1) (0, 0)).2 + 4 > d)
def planMembers (p : Bytes) : List Nat := (upTo (min 1024 (rd p 4 2))).map (fun i => rd p (0x40 + 16 * i) 2 % 1024)

/-- RESERVE to member part `i` of an accepted plan. -/
def State.sendReserve (s : State) (inst : Nat) (plan : Bytes) (cjob : DWord) (a d i : Nat) : State :=
  let ms := planMembers plan
  let m := nth ms i 0
  if m = s.memberIx then s else
  let (cert, s) := s.certRead (rd plan (0x48 + 16 * i) 8)
  let _ := inst
  s.sendFrame false 3 m cjob 0 0
    (toLe 8 a ++ toLe 2 d ++ toLe 1 (rd plan 6 1) ++ toLe 1 (rd plan (0x42 + 16 * i) 1 % 16) ++ toLe 2 i ++
      toLe 2 ms.length ++ slice plan 0x10 16 ++ memberMap ms ++ cert)

/-! ## Decisions -/

/-- Write the ADMIT record of a decision (R72). -/
def State.admitRecord (s : State) (inst sq cq : Nat) (gen : BitVec 16) (tag deadline a status cost : Nat) : State :=
  s.post inst cq deadline (mkRecord tag deadline a 0 status 0 sq gen.toNat cost)
def State.countRefused (s : State) (inst : Nat) : State :=
  { s with adm := { s.adm with
      refused := s.adm.refused + 1
      instRefused := cput s.adm.instRefused inst (satInc 32 (cget s.adm.instRefused inst)) } }
def State.countAccepted (s : State) : State := { s with adm := { s.adm with accepted := s.adm.accepted + 1 } }

/-- Decide the descriptor `e` with `left` cycles of the step to go; none where the decision is abandoned (R67). -/
def State.decideOne (s : State) (e : InletEntry) (left : Nat) : Option (State × Nat) :=
  let a := s.swnN
  let d := dD e.desc
  let cq := fld (s.cfgN (sqCfgA e.inst e.sq)) 20 3
  let deadline := fun reason => if reason = 3 then a else a + d
  let refuse := fun (s : State) st re cost =>
    some (((s.countRefused e.inst).admitRecord e.inst e.sq cq e.gen (dTag e.desc) (deadline re) a st re), cost)
  let op := dOpcode e.desc
  if !opcodeKnown op || (managerOnly op && e.inst ≠ 0) then
    (if left < 16 then none else refuse s 3 reasonOpcode 16)
  else if (s.inst e.inst).state = 4 then (if left < 16 then none else refuse s 3 reasonFrozen 16)
  else if op = 0x0100 && leNat (s.hbmPeek (dCost e.desc) 4) == planMagic then
    let (plan, s) := s.readPlan (dCost e.desc)
    let ms := planMembers plan
    let me := s.memberIx
    let i := partIx ms me
    let img := (s.handle (16 * e.inst + rd plan (0x42 + 16 * i) 1 % 16)).c
    let (cert, s) := s.certRead (rd plan (0x48 + 16 * i) 8)
    let (dv, s) := s.certDerive img cert
    let cjob := BitVec.ofNat 64 (me * 2 ^ 54 + s.commons.nextCjob % 2 ^ 54)
    let part : Part := { coord := me, cjob, s0 := a + 3, wins := planWins plan 0x10, members := ms, cert := rd plan (0x48 + 16 * i) 8, committed := false, abandoned := false
                         planBad := planBad plan d }
    match s.judge e.inst e.sq cq e.gen e.desc dv a d (some part) left with
    | .abandon => none
    | .refuse s st re cost => refuse s st re cost
    | .accept s id cost =>
      let c : CJob := { job := id, cjob, a, d, members := ms, acks := [], dones := [], admitted := false, finished := false }
      let s := { s with commons := { s.commons with cjobs := s.commons.cjobs ++ [c], nextCjob := s.commons.nextCjob + 1 } }
      some ((upTo ms.length).foldl (fun s i => s.sendReserve e.inst plan cjob a d i) s, cost)
  else
    let (dv, s) := s.derive e.inst e.desc
    match s.judge e.inst e.sq cq e.gen e.desc dv a d none left with
    | .abandon => none
    | .refuse s st re cost => refuse s st re cost
    | .accept s id cost =>
      let last := match s.job? id with | some j => j.lastRow | none => a
      some ((s.countAccepted.admitRecord e.inst e.sq cq e.gen (dTag e.desc) (a + d) a 0 (last - a)), cost)

/-- The job table has no room: a job leaves it with its DONE record (R68). -/
def State.tableFull (s : State) : Bool := decide ((s.adm.jobs.filter (fun j => !j.recorded)).length ≥ 1048576)
/-- Decide descriptors in inlet order, at most `n`; the cycles used and the number decided ride along. -/
def State.decideAll : Nat → State → Nat → Nat → State × Nat × Nat
  | 0, s, used, dn => (s, used, dn)
  | n + 1, s, used, dn =>
    match s.adm.inlet with
    | [] => (s, used, dn)
    | e :: rest =>
      if s.tableFull then (s, used, dn) else
      match s.decideOne e (32768 - used) with
      | none => (s, used, dn)
      | some (t, c) =>
        State.decideAll n { t with adm := { t.adm with inlet := rest } } (used + c) (dn + 1)

/-! ## Commons at the admission step -/

/-- A RESERVE that arrived (R485): decided like a local descriptor, charged to COMMONS_INST; ACK answers it. -/
def State.decideReserve (s : State) (fr : Frame) (left : Nat) : Option (State × Nat) :=
  let b := fr.payload
  let inst := s.liveN 0xD00018 % 512
  let now := s.swnN
  let ack := fun (s : State) st re => s.sendFrame false 4 fr.src.toNat fr.cjob 0 0 (toLe 1 st ++ toLe 1 re ++ zeros 6 ++ toLe 8 now ++ zeros 48)
  let img := (s.handle (16 * inst + rd b 0x0B 1 % 16)).c
  let (dv, s) := s.certDerive img (b.drop 0xA0)
  let part : Part :=
    { coord := fr.src.toNat, cjob := fr.cjob, s0 := rd b 0 8 + 3, wins := planWins b 0x10
      members := mapMembers (slice b 0x20 128), cert := 0, committed := false, abandoned := false, planBad := false }
  let desc := toLe 2 0x0100 ++ zeros 2 ++ toLe 2 (rd b 8 2) ++ toLe 1 (rd b 0x0B 1 % 16) ++ zeros 121
  if (s.inst inst).state = 4 then (if left < 16 then none else some (ack s 3 reasonFrozen, 16)) else
  match s.judge inst 0 0 0 desc dv (rd b 0 8) (rd b 8 2) (some part) left with
  | .abandon => none
  | .refuse s st re cost => some (ack s st re, cost)
  | .accept s _ cost => some (ack s 0 0, cost)
def State.decideReserves : List Frame → State → Nat → State × Nat
  | [], s, used => ({ s with commons := { s.commons with rsv := [] } }, used)
  | fr :: rest, s, used =>
    match if s.tableFull then none else s.decideReserve fr (32768 - used) with
    | none => ({ s with commons := { s.commons with rsv := fr :: rest } }, used)
    | some (t, c) => State.decideReserves rest t (used + c)

/-- The ADMIT record of a Commons job at a + 2, with COMMIT or ABANDON (R486). -/
def State.commonsAdmit (s : State) (c : CJob) : State :=
  match s.job? c.job with
  | none => s.modCJobs (fun x => if x.cjob = c.cjob then { x with finished := true } else x)
  | some j =>
    let others := sortBy (fun a b => decide (a < b)) (c.members.filter (fun m => m ≠ s.memberIx))
    let verdict := others.findSome? (fun m =>
      let k := mget (fun _ => (256, 0)) c.acks m
      if k.1 = 256 ∨ k.1 = 0 then none else some k)
    let silent := others.any (fun m => (mget (fun _ => (256, 0)) c.acks m).1 == 256)
    let rec_ := fun (s : State) st cost => s.admitRecord j.inst j.sq j.cq j.gen j.tag.toNat (c.a + c.d) c.a st cost
    let bad := match verdict with
      | some k => some k
      | none => if silent then some (3, reasonNotJoined) else none
    match bad with
    | none =>
      let s := rec_ s.countAccepted 0 (j.lastRow - c.a)
      let s := s.modJob j.id (fun j => { j with part := j.part.map (fun p => { p with committed := true }) })
      let s := s.modCJobs (fun x => if x.cjob = c.cjob then { x with admitted := true } else x)
      others.foldl (fun s m => s.sendFrame false 5 m c.cjob 0 0 (zeros 64)) s
    | some k =>
      let s := (rec_ s k.1 k.2).countRefused j.inst
      let s := s.modCJobs (fun x => if x.cjob = c.cjob then { x with finished := true } else x)
      (s.sendAbandon c).dropPart j

/-- DONE of a Commons job whose parts have all ended; FENCED_LOST at a + D (R487). -/
def State.commonsDone (s : State) (c : CJob) : State :=
  let st := fun i => mget (fun _ => (256, 0)) c.dones i
  let all := (upTo c.members.length).all (fun i => (st i).1 != 256)
  if all then
    s.finalDone c (((upTo c.members.length).map (fun i => (st i).1)).find? (· != 0) |>.getD 0)
  else if s.swnN ≥ c.a + c.d then s.loseCJob c else s
def State.commonsStep (s : State) : State :=
  let s := (s.commons.cjobs.filter (fun c => !c.finished && !c.admitted && decide (s.swnN ≥ c.a + 2))).foldl
    (fun s c => s.commonsAdmit c) s
  let s := (s.commons.cjobs.filter (fun c => !c.finished && c.admitted)).foldl (fun s c => s.commonsDone c) s
  s.sweepCJobs

/-! ## Thaw (R84, R381) -/

/-- The stages of a held job that have units left. -/
def Job.stagesLeft (j : Job) : List StageRec := (j.stages.zipIdx.filter (fun e => !(j.lostRuns e.2).isEmpty)).map (·.1)
/-- Place every held job of an instance, in the order of acceptance; none where one does not fit, or needs capacity that a pending
DRAIN names (R81). -/
def readmitJobs (t : Nat) : List Job → State → Nat → Option (State × Nat)
  | [], s, cost => some (s, cost)
  | j :: js, s, cost =>
    if (s.stageReason (some (j.stagesLeft)) false).isSome then none else
    let rel := j.held.getD 0
    let s0 := s.modJob j.id (fun x => { x with lost := [] })
    match placeJob j.id s.drained (fun k => j.lostRuns k) (fun _ => 0) (fun _ => t + rel) j.stages 0
        { s := s0, r := t, examined := 0, bound := false } with
    | .refused .. => none
    | .placed d =>
      let s := d.s.modJob j.id (fun x => { x with held := none, a := t, deadline := t + rel })
      readmitJobs t js s (cost + 16 + 8 * d.examined)

/-- The re-admission of instance `n` as one decision. -/
def State.thaw (s : State) (n used : Nat) : State × Nat :=
  let t := s.swnN
  let s := s.modInst n (fun i => { i with thawReq := false })
  match readmitJobs t (s.adm.jobs.filter (fun j => j.inst == n && j.held.isSome && !j.recorded)) s 0 with
  | some (u, cost) =>
    if used + cost > 32768 then (s.modInst n (fun i => { i with thawFail := true }), used)
    else (u.modInst n (fun i => { i with state := 1, thawFail := false, thawedAt := s.glob.swn }), used + cost)
  | none => (s.modInst n (fun i => { i with thawFail := true }), used)

/-! ## The step -/

/-- Handles whose staging job has ended are READY from this step on (R146). -/
def State.handlesReady (s : State) : State :=
  (s.handles.filter (fun e => e.2.ready)).foldl (fun s e => s.setHandle e.1 { e.2 with state := 2, ready := false }) s
/-- The control plane's own reads of fenced granules (R129). How many its ledger and table reads take is open: `n` of them, each at a
free address (log entry 15). -/
def State.ownReads : Nat → State → State
  | 0, s => s
  | n + 1, s =>
    let (a, s) := s.draw 37
    State.ownReads n (s.fencedReads (a / 64) 1)
def State.ownFenced (s : State) : State :=
  if s.hbmc.pcFenced = 0 then s else
  let (n, s) := s.draw 24
  State.ownReads n s

/-- The admission step: thaws, then RESERVEs (log entry 31), then the descriptors present, in inlet order. -/
def State.admission (s : State) : State :=
  let s := s.handlesReady
  let thaws := (s.insts.filter (fun e => e.2.thawReq && e.2.state == 4)).map (·.1)
  let (s, used) := thaws.foldl (fun (a : State × Nat) n => a.1.thaw n a.2) (s, 0)
  let (s, used) := State.decideReserves s.commons.rsv s used
  let present := s.adm.inlet.length
  let (s, used, dn) := State.decideAll present s used 0
  let s := s.commonsStep
  let s := { s with adm := { s.adm with stepLast := used, decided := dn, carried := present - dn } }
  s.ownFenced.pendSrc 880

/-- ADMISSION_STEP (R66, R67). -/
def execAdmissionStep (s : State) : Host.Outcome State Fault Refusal :=
  whenRun s ((if s.glob.admitOpen then s.admission else s).setOffset 8960)

end Sys2Proof.Machine
end

