-- ==== Sys2Proof/Machine/Sward.lean ====
section
/-! DEFINITION. The sward loader and the fields' headland events (R111, R119, R130, R143, R151–R156, R175, R231). -/

namespace Sys2Proof.Machine

/-- The placement that claims field `f` in row `r`, with its job and the position of `f` among its fields (R64). -/
def State.claimOn (s : State) (r f : Nat) : Option (Job × Placement × Nat) :=
  s.adm.jobs.findSome? (fun j =>
    if j.recorded || j.held.isSome || j.status.isSome then none else
    (j.pls.find? (fun p => p.row == r && decide (p.live > 0) && p.fields.contains f && decide ((j.stage p.stage).fieldCc > 0))).map
      (fun p => (j, p, p.fields.findIdx (· == f))))

/-! ## Key schedules of the SEAL tiles -/

/-- The slot serves a SEAL tile for `use` on behalf of an instance (Table 15.2, R169). -/
def State.sealKey (s : State) (slot inst use : Nat) : Option Bytes :=
  let need := if use ≤ 2 then polVerify else polSeal
  match s.keyFor slot inst need with
  | none => none
  | some k =>
    if k.type = 0xA1 ∧ (k.cipher == (use == 2 || use == 3)) ∧ ¬ (use ≥ 3 ∧ k.sealOff) then some k.secret else none
/-- A SEAL tile with its key, or marked refused with a zero schedule (R175). -/
def sealTile (tile slot use : Nat) (key : Option Bytes) : SealTile :=
  match key with
  | some key => { tile, slot, use, key, refused := false }
  | none => { tile, slot, use, key := zeros 32, refused := true }
/-- Use code of a tile that opens under a wrap key in the built-in ingest section (R234); the model's own. -/
def useWrap : Nat := 5
/-- SEAL tiles of the built-in ingest section (R231, R234, R236): 0–1 wrap key, 2–3 sealing key. -/
def State.ingestSeals (s : State) (j : Job) : List SealTile :=
  let w := iWrapSlot j.param % 16384
  let k := iKeySlot j.param % 16384
  let use := if (s.slot k).cipher then 3 else 4
  let wk := (s.keyFor w j.inst polWrap).bind (fun x => if x.type = 0xA1 then some x.secret else none)
  let sk := s.sealKey k j.inst use
  [sealTile 0 w useWrap wk, sealTile 1 w useWrap wk, sealTile 2 k use sk, sealTile 3 k use sk]
/-- Load the SEAL tiles that a plane of job `j` enables (R111, R143, R175). -/
def State.loadSeals (s : State) (j : Job) (pl : Plane) : List SealTile :=
  if j.opcode = 0x0700 then s.ingestSeals j else
  (upTo 4).filterMap (fun l =>
    let ref := (mget (fun _ => 0#8) pl.data (0x400 + 0x800 * (36 + l) + 2)).toNat
    let en := mget (fun _ => 0#8) pl.data (0x0C + (36 + l) / 8)
    if !en.getLsbD ((36 + l) % 8) || ref = 0xFF then none else
    let e := s.hbmPeek (j.image.addr + 0x40 + 8 * (ref % 8)) 8
    let slot := rd e 0 2 % 16384
    let use := rd e 2 1
    some (sealTile l slot use (s.sealKey slot j.inst use)))

/-- The cells that those loads read are checked (R344): a refused SEAL tile may stand for a failing slot. -/
def State.sealChecks (s : State) (inst : Nat) (ts : List SealTile) : State :=
  ts.foldl (fun s t => s.cellCheck t.slot inst (if t.use = useWrap then polWrap else if t.use ≤ 2 then polVerify else polSeal)) s

/-! ## Plane switches -/

/-- TILE_MAP words of a field with its tiles in service (Table 5.5). -/
def Field.buildMap (f : Field) : List Word :=
  (upTo 8).map (fun k =>
    let tiles := f.tilesIn k
    BitVec.ofNat 32 (sumL ((upTo tiles.length).map (fun l => nth tiles l 0 * 2 ^ (3 * l)))))

/-- The fields that a plane's enabled ring routes lead to, by route; 16 where a route names a section outside the stage (R140). -/
def Plane.ringDests (pl : Plane) (v : StageRec) (fields : List Nat) : SMap Nat :=
  (upTo 64).foldl (fun m q =>
    let e := leNat ((upTo 4).map (fun i => mget (fun _ => 0#8) pl.data (0x100 + 4 * q + i)))
    let x := fld e 24 6
    if !bit e 31 then m
    else mput (fun _ => 16) m q (if x < v.first then 16 else nth fields (x - v.first) 16)) []

/-- Plane `p` of field `f` fails: it is EMPTY, all units booked on it are lost, and PLANE_FAIL is raised (R155). -/
def State.planeFail (s : State) (f p : Nat) : State :=
  let pl := (s.field f).plane p
  let t := (s.holders f pl).foldl (fun t h =>
    match t.job? h.1 with
    | none => t
    | some j => (j.pls.filter (fun q => q.stage == h.2 && decide (q.row ≥ s.swnN) && q.fields.contains f &&
        pl.holds (s.sectOf j (j.stage q.stage) (q.fields.findIdx (· == f))))).foldl
          (fun t q => t.displace j q q.openUnits) t) s
  ((t.modField f (fun x => x.setPlane p Plane.empty)).raise 169 (unitCode 2 f) 0 0).pendSrc 882

/-- Field `f` has no active plane: its SEAL key schedules hold zeros (R111, R154). -/
def State.idleField (s : State) (f : Nat) : State := s.modField f (fun x => { x with active := false, seals := [], ringDest := [] })
/-- Switch field `f` to the plane of its claiming stage, or find it late (R154, R155); `ecc` tells that the read of the plane
meets an uncorrectable error. The records of PLANE_LATE and PLANE_FAIL name the field as their unit (DESIGN CHOICE, log entry 106). A
late stage's units on the field become lost units when the work window finds no active plane. -/
def State.switchField (s : State) (ecc : Bool) (f : Nat) : State :=
  match s.claimOn s.swnN f with
  | none => s.idleField f
  | some (j, p, i) =>
    let x := s.sectOf j (j.stage p.stage) i
    match (s.planeOf f x).filter (fun q => ((s.field f).plane q).state == 2) with
    | some q =>
      if ecc then (s.idleField f).planeFail f q else
      let seals := s.loadSeals j ((s.field f).plane q)
      (s.sealChecks j.inst seals).modField f (fun y => { y with
        active := true
        activePlane := q
        tileMap := y.buildMap
        seals
        ringDest := (y.plane q).ringDests (j.stage p.stage) p.fields })
    | none =>
      let s := (s.idleField f).raise 168 (unitCode 2 f) 0 0
      { s.pendSrc 882 with lateLast := s.lateLast + 1 }

/-- PLANE_SWITCH at offset 8,704 (R154). -/
def execPlaneSwitch (ecc : List (Fin 16)) (s : State) : Host.Outcome State Fault Refusal :=
  whenRun s (((upTo 16).foldl (fun s f => s.switchField (ecc.any (fun e => e.val == f)) f) s).setOffset 8704)
/-- Field `f` is claimed in the current row by a job that this headland's admission step placed. -/
def State.newlyClaimed (s : State) (f : Nat) : Bool :=
  match s.claimOn s.swnN f with
  | some (j, _, _) => j.a == s.swnN && !(s.field f).active
  | none => false
/-- LATE_PLANE_SWITCH at offset 49,152: fields newly claimed in the current row; the mirror records their planes (R154). -/
def execLatePlaneSwitch (ecc : List (Fin 16)) (s : State) : Host.Outcome State Fault Refusal :=
  let fs := (upTo 16).filter s.newlyClaimed
  let t := fs.foldl (fun s f => s.switchField (ecc.any (fun e => e.val == f)) f) s
  whenRun s ({ t with mirror := { t.mirror with
    planes := (upTo 16).map (fun f =>
      if fs.contains f && (t.field f).active then (t.field f).activePlane else nth t.mirror.planes f 0) } }.setOffset 49152)

/-! ## Loads -/

/-- The earliest row from SWN on that needs plane `p` of field `f`, its booking's row where nothing holds it. -/
def State.planeRow (s : State) (f p : Nat) : Nat :=
  let pl := (s.field f).plane p
  let rows := (s.holders f pl).flatMap (fun h =>
    match s.job? h.1 with
    | none => []
    | some j => (j.pls.filter (fun q => q.stage == h.2 && decide (q.row ≥ s.swnN) && decide (q.live > 0) && q.fields.contains f)).map (·.row))
  match rows with
  | [] => pl.row
  | r :: rs => rs.foldl min r
/-- The booked plane that a field loads next (R153); of planes with the same earliest row the lower (DESIGN CHOICE, log entry 106). -/
def State.nextLoad (s : State) (f : Nat) : Option Nat :=
  let x := s.field f
  if !s.fieldOn f || x.loading.isSome then none else
  let c := (upTo 4).filter (fun p => (x.plane p).state == 1 && !(x.active && x.activePlane == p))
  c.foldl (fun b p => match b with
    | none => some p
    | some q => if s.planeRow f p < s.planeRow f q then some p else some q) none

/-- PLANE_LOAD (R153): the next booked load of field `f` begins. -/
def execPlaneLoad (f : Fin 16) (s : State) : Host.Outcome State Fault Refusal :=
  whenRun s (match s.nextLoad f.val with
    | none => s
    | some p =>
      let s := s.modField f.val (fun x => { x with loading := some p })
      { s with loadsLast := s.loadsLast + 1, loads := s.loads + 1 })

/-- A read of these bytes meets a fenced granule. -/
def State.meetsFence (s : State) (a n : Nat) : Bool :=
  (upTo (min 128 (cdiv (a % 256 + n) 256))).any (fun i => s.hbmc.pcFenced.getLsbD (pcOf (a + 256 * i)))
/-- The bytes that differ from zero among `n` bytes of HBM from `a`, by offset. -/
def State.hbmSparse (s : State) (a n : Nat) : SMap Byte :=
  (s.hbm.filter (fun e => decide (a ≤ e.1) && decide (e.1 < a + n) && e.2 != 0#8 && !s.hbmGone e.1)).map (fun e => (e.1 - a, e.2))

/-- PLANE_LOAD_END (R153, R155, R231). -/
def execPlaneLoadEnd (f : Fin 16) (eccFail : Bool) (s : State) : Host.Outcome State Fault Refusal :=
  whenRun s (match (s.field f.val).loading with
    | none => s
    | some p =>
      let pl := (s.field f.val).plane p
      let s1 := s.modField f.val (fun x => { x with loading := none })
      if pl.digest.isEmpty then s1.modField f.val (fun x => x.setPlane p { pl with state := 2 })
      else if eccFail || s.meetsFence pl.src pl.len then
        ((s1.countReqs (reqs pl.src pl.len)).fencedReads (pl.src / 64) (reqs pl.src pl.len)).planeFail f.val p
      else
        ((s1.countReqs (reqs pl.src pl.len)).modField f.val (fun x => x.setPlane p
          { pl with state := 2, data := s.hbmSparse pl.src pl.len })))

/-- FIELD_STORE_CLEAR (R119): the banks are zeroed where the claiming stage's owner differs from the recorded one. -/
def execFieldStoreClear (f : Fin 16) (s : State) : Host.Outcome State Fault Refusal :=
  whenRun s (match s.claimOn s.swnN f.val with
    | some (j, _, _) => if j.inst = (s.field f.val).owner then s else s.modField f.val (fun x => { x with clean := true, banks := [] })
    | none => s)

end Sys2Proof.Machine
end

