-- ==== Sys2Proof/Machine/HostIf.lean ====
section
/-! DEFINITION. Instances, queues, doorbells, mailboxes and the host link (R28, R34, R85, R361–R382, R455, R468, R517). -/

namespace Sys2Proof.Machine

/-! ## Instance commands (R362, R363) -/

/-- Instance `n` other than the manager. -/
def realInst (n : Nat) : Bool := decide (0 < n) && decide (n ≤ 256)

/-- Clear EN of every queue of an instance. -/
def State.disableQueues (s : State) (n : Nat) : State :=
  (upTo 8).foldl (fun s q =>
    let s := s.setCfg (sqCfgA n q) (s.cfgW (sqCfgA n q) &&& 0x7FFFFFFF#32)
    s.setCfg (cqCfgA n q) (s.cfgW (cqCfgA n q) &&& 0x7FFFFFFF#32)) s

/-- A reset of instance `n` acts (R363); `absent` makes the state after RESETTING ABSENT. -/
def State.resetInst (s : State) (n : Nat) (absent : Bool) : State :=
  let s := s.modInst n (fun i => { i with
    gen := i.gen + 1, state := 2, absentNext := i.absentNext || absent, thawReq := false })
  let s := (s.adm.jobs.filter (fun j => j.inst == n && !j.recorded)).foldl (fun s j => s.closeJob j.id 0x14 true) s
  let s := { s with adm := { s.adm with inlet := s.adm.inlet.filter (fun e => e.inst != n) } }
  let s := s.disableQueues n
  let s := s.modInst n (fun i => { i with mbox := [], upProd := 0, upCons := 0, dnProd := 0, dnCons := 0, claims := [] })
  let s := (upTo 16).foldl (fun s k => s.setHandle (16 * n + k) Handle.empty) s
  { s with amus := mmap (fun _ => Amu.init) (fun _ u => { u with lists := u.lists.filter (fun l => l.inst != n) }) s.amus }

/-- RESET or REMOVE of instance `n` in its present state (Table 16.1). -/
def State.resetCmd (s : State) (n : Nat) (absent : Bool) : State :=
  if !realInst n then s else
  match (s.inst n).state with
  | 0 => s
  | 2 => s.modInst n (fun i => { i with absentNext := i.absentNext || absent })
  | _ => s.resetInst n absent

/-- A write of INST_CTL.CMD by the manager (Table 16.7). -/
def State.instCmd (s : State) (n cmd : Nat) : State :=
  if !realInst n then s else
  match cmd with
  | 1 => if (s.inst n).state = 0 && decide (n ≤ s.hostif.numvfs) then
      (s.disableQueues n).modInst n (fun i => { i with state := 1, absentNext := false }) else s
  | 2 => s.resetCmd n false
  | 3 => s.resetCmd n true
  | 4 => if (s.inst n).state = 1 then s.modInst n (fun i => { i with state := 3 }) else s
  | 5 => if (s.inst n).state = 4 then s.modInst n (fun i => { i with thawReq := true }) else s
  | _ => s

/-- INST_ENABLE. -/
def execInstEnable (who : Requester) (n : Fin 257) (s : State) : Host.Outcome State Fault Refusal :=
  whenRun s (if reachesPf who then s.instCmd n.val 1 else s)
/-- INST_RESET. -/
def execInstReset (who : Requester) (n : Fin 257) (s : State) : Host.Outcome State Fault Refusal :=
  whenRun s (if reachesPf who then s.instCmd n.val 2 else s)
/-- INST_REMOVE. -/
def execInstRemove (who : Requester) (n : Fin 257) (s : State) : Host.Outcome State Fault Refusal :=
  whenRun s (if reachesPf who then s.instCmd n.val 3 else s)
/-- INST_FREEZE (R377). -/
def execInstFreeze (who : Requester) (n : Fin 257) (s : State) : Host.Outcome State Fault Refusal :=
  whenRun s (if reachesPf who then s.instCmd n.val 4 else s)
/-- INST_THAW (R381). -/
def execInstThaw (who : Requester) (n : Fin 257) (s : State) : Host.Outcome State Fault Refusal :=
  whenRun s (if reachesPf who then s.instCmd n.val 5 else s)
/-- INST_VF_RESET (R362): counts as RESET. -/
def execInstVfReset (n : Fin 257) (s : State) : Host.Outcome State Fault Refusal :=
  whenRun s (s.resetCmd n.val false)

/-- NUMVFS_LOWERED (Table 16.1): ENABLED instances above `k` are removed; for other states the table lists no such event (R9). -/
def execNumvfsLowered (k : Fin 257) (s : State) : Host.Outcome State Fault Refusal :=
  whenRun s
    (let was := s.hostif.numvfs
     let s := { s with hostif := { s.hostif with numvfs := min was k.val } }
     ((upTo 257).filter (fun n => decide (k.val < n) && decide (n ≤ was) && (s.inst n).state == 1)).foldl (fun s n => s.resetCmd n true) s)
/-- NUMVFS_RAISED (R362). -/
def execNumvfsRaised (k : Fin 257) (s : State) : Host.Outcome State Fault Refusal :=
  whenUp s { s with hostif := { s.hostif with numvfs := max s.hostif.numvfs k.val } }

/-! ## Queues and doorbells (R367, R368) -/

def State.sqSize (s : State) (n q : Nat) : Nat := 2 ^ fld (s.cfgN (sqCfgA n q)) 0 4
def State.sqOn (s : State) (n q : Nat) : Bool := bit (s.cfgN (sqCfgA n q)) 31
def State.cqOn (s : State) (n q : Nat) : Bool := bit (s.cfgN (cqCfgA n q)) 31

/-- SQ tail doorbell. A tail that is not below the size, or that passes over unfetched entries, is unchecked: the entries
then taken are open, so the tail is a free value. -/
def State.sqDoorbell (s : State) (n q v : Nat) : State :=
  let s := s.uses [sqCfgA n q]
  if !s.sqOn n q then s else
  let size := s.sqSize n q
  let x := (s.inst n).sq q
  let tail := v % 4096
  let ahead := fun t => (t + size - x.head) % size
  if tail < size ∧ ahead tail ≥ ahead x.tail then s.modInst n (fun i => i.setSq q { x with tail })
  else
    let (t, s) := s.draw 12
    s.modInst n (fun i => i.setSq q { x with tail := t % size })
/-- CQ head doorbell. -/
def State.cqDoorbell (s : State) (n q v : Nat) : State :=
  let s := s.uses [cqCfgA n q]
  if !s.cqOn n q then s else s.modInst n (fun i => i.setCq q { i.cq q with head := v % 65536 })

/-- SQ_TAIL_DOORBELL (R368): kept while the instance freezes or is frozen. -/
def execSqTailDoorbell (n : Fin 257) (q : Fin 8) (value : Word) (s : State) : Host.Outcome State Fault Refusal :=
  whenRun s (s.sqDoorbell n.val q.val value.toNat)
/-- CQ_HEAD_DOORBELL (R368). -/
def execCqHeadDoorbell (n : Fin 257) (q : Fin 8) (value : Word) (s : State) : Host.Outcome State Fault Refusal :=
  whenRun s (s.cqDoorbell n.val q.val value.toNat)

/-- Jobs of completion queue `q` are outstanding. -/
def State.cqBusy (s : State) (n q : Nat) : Bool :=
  s.adm.jobs.any (fun j => j.inst == n && j.cq == q && !j.recorded) ||
    s.adm.inlet.any (fun e => e.inst == n && fld (s.cfgN (sqCfgA n e.sq)) 20 3 == q)
/-- A change of an enabled queue's configuration word, or CQ EN cleared with jobs outstanding: unchecked, scope Q (R367, Table 25.3). -/
def State.cfgUnchecked (s : State) (cq : Bool) (n q : Nat) (w : Word) : Bool :=
  let old := s.cfgW (if cq then cqCfgA n q else sqCfgA n q)
  old.getLsbD 31 && ((old ^^^ w) &&& 0x7FFFFFFF#32 != 0#32 || (cq && !w.getLsbD 31 && s.cqBusy n q))
/-- Store SQ_CFG or CQ_CFG; EN going from 0 to 1 resets the queue's indices (R367). -/
def State.setQueueCfg (s : State) (cq : Bool) (n q : Nat) (w : Word) : State :=
  let a := if cq then cqCfgA n q else sqCfgA n q
  let rise := !bit (s.cfgN a) 31 && w.getLsbD 31
  let wrong := s.cfgUnchecked cq n q w
  let s := (s.setCfg a w).rewritten a
  if !rise then (if wrong then s.unchecked (.inst n) else s)
  else if cq then s.modInst n (fun i => i.setCq q { i.cq q with tail := 0, head := 0, phase := true, count := 0 })
  else s.modInst n (fun i => i.setSq q Sq.init)
/-- The requester reaches the page of instance `n` (R37, R361). -/
def reachesInst (who : Requester) (n : Nat) : Bool :=
  match who with
  | .vf m => m.val == n && realInst n
  | _ => true
/-- QUEUE_ENABLE. -/
def execQueueEnable (who : Requester) (n : Fin 257) (cq : Bool) (q : Fin 8) (en : Bool) (s : State) :
    Host.Outcome State Fault Refusal :=
  let a := if cq then cqCfgA n.val q.val else sqCfgA n.val q.val
  let w := (s.cfgW a &&& 0x7FFFFFFF#32) ||| (if en then 0x80000000#32 else 0#32)
  whenRun s (if reachesInst who n.val then s.setQueueCfg cq n.val q.val w else s)

/-! ## The Dexan fetch (R369) -/

/-- An SQ has a descriptor that the fetch can take now: its instance fetches, the queue is enabled, and a host queue has
its link. -/
def State.sqReady (s : State) (n q : Nat) : Bool :=
  (s.inst n).state == 1 && s.sqOn n q && ((s.inst n).sq q).head != ((s.inst n).sq q).tail &&
    (!bit (s.cfgN (sqCfgA n q)) 16 || s.hostif.linkUp)
/-- The next queue in the order of turns: the first ready one not yet passed in this turn, else the first of a new one. -/
def State.nextSq (s : State) : Option Nat :=
  let ready := (upTo (257 * 8)).filter (fun i => s.sqReady (i / 8) (i % 8))
  match ready.find? (fun i => decide (s.adm.turn ≤ i)) with
  | some i => some i
  | none => ready.head?
/-- The descriptor of queue `i` moves into the inlet. -/
def State.fetchFrom (s : State) (i : Nat) : State :=
  let n := i / 8
  let q := i % 8
  let s := s.uses [sqCfgA n q - 8, sqCfgA n q - 4, sqCfgA n q]
  let x := (s.inst n).sq q
  let base := s.cfgN (sqCfgA n q - 8) + 2 ^ 32 * s.cfgN (sqCfgA n q - 4)
  let a := base + 128 * x.head
  let (desc, s) := if bit (s.cfgN (sqCfgA n q)) 16 then (s.hostPeek a 128, s) else s.hbmRead a 128
  let s := s.modInst n (fun v => v.setSq q { x with head := (x.head + 1) % s.sqSize n q })
  { s with adm := { s.adm with
      inlet := s.adm.inlet ++ [{ inst := n, sq := q, gen := s.genOf n, desc }]
      turn := i + 1 } }
/-- DESCRIPTOR_ARRIVES (R66, R369, R452). -/
def execDescriptorArrives (s : State) : Host.Outcome State Fault Refusal :=
  whenRun s (if s.adm.inlet.length ≥ 1024 || s.power.state ≥ 3 then s else
    match s.nextSq with
    | some i => s.fetchFrom i
    | none => s)

/-! ## Signals (R374, R375) -/

/-- CQ_TIMER. -/
def execCqTimer (n : Fin 257) (q : Fin 8) (s : State) : Host.Outcome State Fault Refusal :=
  whenRun s
    (let s := s.uses (cqWords n.val q.val)
     let cfg := s.cfgN (cqCfgA n.val q.val)
     if bit cfg 31 && bit cfg 10 && fld (s.cfgN (cqCfgA n.val q.val + 4)) 16 16 != 0 &&
         ((s.inst n.val).cq q.val).count != 0 then s.cqSignal n.val q.val else s)

/-- Send the held signals of a function that is in D0 with the link in L0. -/
def State.sendHeld (s : State) (n : Nat) : State :=
  (upTo 8).foldl (fun s q =>
    let c := (s.inst n).cq q
    if c.intPend then
      (s.modInst n (fun i => i.setCq q { c with intPend := false })).msix n (fld (s.cfgN (cqCfgA n q)) 16 10)
    else s) s
def State.sendAllHeld (s : State) : State :=
  if s.hostif.linkLow || !s.hostif.linkUp then s else
  let s := (s.insts.filter (fun e => !e.2.low)).foldl (fun s e => s.sendHeld e.1) s
  { s with start := { s.start with wakeLow := false } }
/-- HOST_D0_RETURN (R375): held signals are sent and WAKE_N is released. -/
def execHostD0Return (n : Fin 257) (s : State) : Host.Outcome State Fault Refusal :=
  whenUp s
    (({ s.modInst n.val (fun i => { i with low := false }) with
        hostif := { s.hostif with linkLow := false } }).sendAllHeld)
/-- D3HOT_OR_L1_ENTRY (R375). -/
def execD3hotOrL1Entry (n : Fin 257) (kind : LowPower) (s : State) : Host.Outcome State Fault Refusal :=
  whenUp s (match kind with
    | .linkL1 => { s with hostif := { s.hostif with linkLow := true } }
    | .d3hot => s.modInst n.val (fun i => { i with low := true })
    | .d3cold => s.modInst n.val (fun i => { i with low := true }))

/-! ## Mailboxes (R376) -/

def mbxVecA (n : Nat) : Nat := instPage n + 0x14
/-- The indices of a ring name more than its 16 slots: one of them lies beyond its partner's bounds. -/
def ringBad (prod cons : BitVec 5) : Bool := decide (16 < (prod - cons).toNat)
/-- A ring of instance `n` has such an index: unchecked, scope Q (Table 25.3). -/
def State.mbxCheck (s : State) (n : Nat) (prod cons : BitVec 5) : State := if ringBad prod cons then s.unchecked (.inst n) else s
/-- The up producer index: PF vector MBX_VEC.PF, and INTC source 511 + n (Table 17.2). -/
def State.mbxUp (s : State) (n : Nat) (ix : BitVec 5) : State :=
  if !realInst n then s else
  ((((s.uses [mbxVecA n]).modInst n (fun i => { i with upProd := ix })).msix 0 (fld (s.cfgN (mbxVecA n)) 16 10)).pendSrc
    (511 + n)).mbxCheck n ix (s.inst n).upCons
/-- The down producer index: VF vector MBX_VEC.VF. -/
def State.mbxDn (s : State) (n : Nat) (ix : BitVec 5) : State :=
  if !realInst n then s else
  (((s.uses [mbxVecA n]).modInst n (fun i => { i with dnProd := ix })).msix n (fld (s.cfgN (mbxVecA n)) 0 6)).mbxCheck n ix
    (s.inst n).dnCons
/-- MBX_UP_PROD. -/
def execMbxUpProd (n : Fin 257) (index : BitVec 5) (s : State) : Host.Outcome State Fault Refusal :=
  whenRun s (s.mbxUp n.val index)
/-- MBX_DN_PROD. -/
def execMbxDnProd (n : Fin 257) (index : BitVec 5) (s : State) : Host.Outcome State Fault Refusal :=
  whenRun s (s.mbxDn n.val index)

/-! ## The host window (R28, R34) -/

/-- A BAR2 request that the window lets through. In Fallow a write is discarded (R422). A write to the ledger range changes the entry
that admission reads next; one to the device's own bytes above it changes nothing that a reader sees (DESIGN CHOICE, log entry 108). -/
def State.bar2Do (s : State) (r : Bool × Nat × Nat × Bytes) : State :=
  let s := { s with hostif := { s.hostif with winUsed := s.hostif.winUsed + r.2.2.1 } }
  if r.1 then (if s.faults.fallow then s else s.hbmWrite r.2.1 (fitB r.2.2.2 r.2.2.1))
  else
    let (b, s) := s.hbmRead r.2.1 r.2.2.1
    s.setResp (.bytes b)
/-- The allowance of a swath is used up. A request that begins before that is served whole, even where it passes the allowance
(DESIGN CHOICE, log entry 109). -/
def State.windowFull (s : State) : Bool := decide (s.hostif.winUsed ≥ s.liveN 0x100004 * 1000000)
/-- BAR2_ACCESS: held, in order, once the allowance is used up. -/
def State.bar2 (s : State) (r : Bool × Nat × Nat × Bytes) : State :=
  if s.windowFull || !s.hostif.bar2Held.isEmpty then
    { s.setResp .held with hostif := { s.hostif with bar2Held := s.hostif.bar2Held ++ [r] } }
  else s.bar2Do r
def execBar2Access (write : Bool) (addr len : Nat) (data : Bytes) (s : State) : Host.Outcome State Fault Refusal :=
  whenUp s (if s.hostif.linkUp then s.bar2 (write, addr, len, data) else s)
/-- Held requests go through as a new swath begins, while its allowance lasts. -/
def releaseBar2 : List (Bool × Nat × Nat × Bytes) → State → State
  | [], s => { s with hostif := { s.hostif with bar2Held := [] } }
  | r :: rs, s =>
    if s.windowFull then { s with hostif := { s.hostif with bar2Held := r :: rs } }
    else releaseBar2 rs (s.bar2Do r)

/-! ## The link (R85, R468, R517) -/

/-- DMA_ERROR_COMPLETION: the next job DMA request to these bytes ends in error (R517). -/
def execDmaErrorCompletion (write : Bool) (addr len : Nat) (s : State) : Host.Outcome State Fault Refusal :=
  whenUp s { s with hostif := { s.hostif with
    dmaErr := s.hostif.dmaErr ++ [(addr % 2 ^ 64 + b2n write * 2 ^ 64, len)] } }

/-- PCIE_LINK_DOWN (Table 22.2): link and configuration state clear, device state stays, LINK_DOWN is raised. -/
def execPcieLinkDown (s : State) : Host.Outcome State Fault Refusal :=
  whenUp s
    (let s := { s with hostif := { s.hostif with
        linkUp := false, linkLow := false, numvfs := 0, vfMsix := [], msixPend := [], bar2Held := [] } }
     (s.raise 473 0 0 0).setCause 473 true)

/-- Set LATE_LINK in a record. -/
def lateFlag (r : Bytes) : Bytes := wr r 0x1A (toLe 1 (rd r 0x1A 1 ||| 4))
/-- Records that waited for the link are posted in order; those past their deadline carry LATE_LINK (R85). -/
def State.postLate (s : State) : State :=
  let l := s.hostif.latePost
  let s := { s with hostif := { s.hostif with latePost := [] } }
  l.foldl (fun s e =>
    s.post e.1 e.2.1 e.2.2.1 (if s.swnN > e.2.2.1 then lateFlag e.2.2.2 else e.2.2.2)) s
/-- PCIE_LINK_UP. -/
def execPcieLinkUp (s : State) : Host.Outcome State Fault Refusal :=
  whenUp s
    (let s := { s with hostif := { s.hostif with linkUp := true } }
     ((s.setCause 473 false).postLate).sendAllHeld)

end Sys2Proof.Machine
end

