-- ==== Sys2Proof/Machine/Amu.lean ====
section
/-! DEFINITION. The associative match units: matching, edit passes, the scrubber and probes (R243–R263). -/

namespace Sys2Proof.Machine

/-! ## Matching (R244) -/

def AmuEntry.hits (e : AmuEntry) (tag : BitVec 16) (key : BitVec 128) : Bool :=
  e.tag == tag && tag != 0 && ((key ^^^ e.key) &&& e.mask) == 0
/-- Lowest matching address below COUNT. -/
def Amu.match? (x : Amu) (tag : BitVec 16) (key : BitVec 128) : Option Nat :=
  (x.table.find? (fun e => decide (e.1 < x.count) && e.2.hits tag key)).map (·.1)
/-- The result word of a lookup: HIT and address (R248). -/
def Amu.answer (x : Amu) (tag : BitVec 16) (key : BitVec 128) : Word :=
  match x.match? tag key with
  | some a => BitVec.ofNat 32 (2 ^ 31 + a)
  | none => 0
/-- Count `n` keys looked up on unit `u`. -/
def State.countKeys (s : State) (u n : Nat) : State :=
  if n = 0 then s else s.modAmu u (fun x => { x with keysNow := x.keysNow + n })

/-! ## Edits (R252, R253) -/

structure Edit where
  op : Nat
  addr : Nat
  entry : AmuEntry
deriving DecidableEq, Repr
/-- An entry with TAG 0 is an empty entry (R243, R252). -/
def AmuEntry.norm (e : AmuEntry) : AmuEntry := if e.tag = 0 then AmuEntry.empty else e
def editsOf (list : Bytes) : List Edit :=
  (upTo (min 64 (rd list 1 1))).map (fun i =>
    let o := 16 + 48 * i
    { op := rd list o 1, addr := rd list (o + 2) 2
      entry := { key := BitVec.ofNat 128 (rd list (o + 16) 16), mask := BitVec.ofNat 128 (rd list (o + 32) 16)
                 tag := BitVec.ofNat 16 (rd list (o + 4) 2) } })

def aput (m : SMap AmuEntry) (a : Nat) (e : AmuEntry) : SMap AmuEntry := mput (fun _ => AmuEntry.empty) m a e
/-- One edit on a table of `c` entries: the table and COUNT after. -/
def Edit.apply (e : Edit) (t : SMap AmuEntry × Nat) : SMap AmuEntry × Nat :=
  let m := t.1
  let c := t.2
  match e.op with
  | 1 =>
    let a := min e.addr c
    let moved := (m.filter (fun x => decide (x.1 < a))) ++
      ((m.filter (fun x => decide (a ≤ x.1) && decide (x.1 < c))).map (fun x => (x.1 + 1, x.2))) ++
      m.filter (fun x => decide (c < x.1))
    (aput moved a e.entry.norm, c + 1)
  | 2 =>
    if e.addr ≥ c then t else
    ((m.filter (fun x => decide (x.1 < e.addr))) ++
      ((m.filter (fun x => decide (e.addr < x.1) && decide (x.1 < c))).map (fun x => (x.1 - 1, x.2))) ++
      m.filter (fun x => decide (c ≤ x.1)), c - 1)
  | 3 => if e.addr ≥ c then t else (aput m e.addr e.entry.norm, c)
  | _ => t
/-- An INSERT of the list meets a full unit. -/
def editsFull : List Edit → Nat → Bool
  | [], _ => false
  | e :: es, c => match e.op with
    | 1 => decide (c ≥ 65536) || editsFull es (c + 1)
    | 2 => editsFull es (if e.addr ≥ c then c else c - 1)
    | _ => editsFull es c
/-- Lowest address at which two tables differ. -/
def firstDiff (m n : SMap AmuEntry) : Option Nat :=
  let get := fun (t : SMap AmuEntry) a => mget (fun _ => AmuEntry.empty) t a
  ((m.map (·.1)) ++ n.map (·.1)).foldl (fun b a =>
    if get m a = get n a then b else match b with | none => some a | some c => some (min a c)) none

/-! ## The shadow copy (R257) -/

def shadowA (u : Nat) : Nat := 0x500008 + 0x1000 * u
def State.shadowOf (s : State) (u a : Nat) : Nat := s.liveN (shadowA u) * 4194304 + 64 * a
def AmuEntry.bytes (e : AmuEntry) : Bytes :=
  if e.tag = 0 then zeros 64
  else toLe 16 e.key.toNat ++ toLe 16 e.mask.toNat ++ toLe 2 e.tag.toNat ++ zeros 30
def entryOf (b : Bytes) : AmuEntry :=
  { key := BitVec.ofNat 128 (rd b 0 16), mask := BitVec.ofNat 128 (rd b 16 16), tag := BitVec.ofNat 16 (rd b 32 2) }
def State.shadowWrite (s : State) (u a : Nat) : State :=
  s.hbmWrite (s.shadowOf u a) (mget (fun _ => AmuEntry.empty) (s.amu u).table a).bytes

/-! ## Upset cells (R30, R261) -/

/-- One upset bit of an entry: 0–127 the key, 128–255 the mask, 256–271 the tag. -/
def AmuEntry.flip (e : AmuEntry) (b : Nat) : AmuEntry :=
  if b < 128 then { e with key := e.key ^^^ BitVec.ofNat 128 (2 ^ b) }
  else if b < 256 then { e with mask := e.mask ^^^ BitVec.ofNat 128 (2 ^ (b - 128)) }
  else { e with tag := e.tag ^^^ BitVec.ofNat 16 (2 ^ (b - 256)) }
def Amu.upsetAt (x : Amu) (a : Nat) : List Nat := mget (fun _ => []) x.upsets a
/-- Bit `b` of the entry at `a` is upset: the stored cells change, and lookups compare them as they stand. -/
def Amu.upset (x : Amu) (a b : Nat) : Amu :=
  let l := x.upsetAt a
  { x with
    table := aput x.table a ((mget (fun _ => AmuEntry.empty) x.table a).flip b)
    upsets := mput (fun _ => []) x.upsets a (if l.contains b then l.filter (· != b) else l ++ [b]) }
/-- A 64-bit word of the entry at `a` holds more upset bits than ECC corrects (R30). -/
def Amu.multi (x : Amu) (a : Nat) : Bool :=
  let l := x.upsetAt a
  l.any (fun b => decide ((l.filter (fun c => c / 64 == b / 64)).length > 1))
/-- The table with every correctable upset corrected. -/
def Amu.corrected (x : Amu) : SMap AmuEntry :=
  x.upsets.foldl (fun t e => if x.multi e.1 then t else aput t e.1 (e.2.foldl AmuEntry.flip (mget (fun _ => AmuEntry.empty) t e.1))) x.table

/-! ## Passes -/

/-- AMU `u` runs. -/
def State.amuOn (s : State) (u : Nat) : Bool := s.poolsOn && !(s.amu u).fenced
/-- The list whose job has its pass in the row of SWN. -/
def State.passList (s : State) (u : Nat) : Option EditList :=
  (s.amu u).lists.find? (fun l => match s.job? l.job with
    | none => false
    | some j => !j.recorded && j.status.isNone && j.held.isNone &&
        j.pls.any (fun p => p.row == s.swnN && !p.openUnits.isEmpty))
/-- The edits of a pass. A list outside Table 10.1 leaves the table wrong (R250, Table 25.3, scope O): each of its edits is free
(log entry 26). -/
def State.listEdits (s : State) (b : Bytes) : List Edit × State :=
  if !editsBad b then (editsOf b, s) else
  let (x, s) := s.drawBytes (64 * 38)
  ((upTo (max 1 (min 64 (rd b 1 1)))).map (fun i =>
    let e := slice x (38 * i) 38
    { op := rd e 0 1 % 4, addr := rd e 2 2
      entry := { key := BitVec.ofNat 128 (rd e 4 16), mask := BitVec.ofNat 128 (rd e 20 16), tag := BitVec.ofNat 16 (rd e 36 2) } }), s)
/-- A pass stops where it stands (R263): COUNT keeps its old value, the shadow from p₀ on may hold old or new entries, and the
pass's job has a lost unit. -/
def State.stopPass (s : State) (u : Nat) : State :=
  let x := s.amu u
  match x.pass with
  | none => s
  | some p =>
    let n := max p.oldCount x.count
    let (w, s) := s.draw 65536
    let s := ((upTo n).drop p.p0).foldl (fun s a => if bit w a && !p.full then s.shadowWrite u a else s) s
    let s := s.modAmu u (fun x => { x with pass := none, count := p.oldCount })
    match s.job? p.job with
    | none => s
    | some j => (j.pls.filter (fun q => q.row == s.swnN)).foldl (fun s q => s.lose j.id q.seq q.openUnits) s
/-- A pass of `list` begins on unit `u` (R253, R254). Its moves correct the entries that they pass over (R261); an uncorrectable one
raises AMU_ECC and ends the sweep as a fence would (DESIGN CHOICE, log entry 113). -/
def State.startPass (s : State) (u : Nat) (l : EditList) : State :=
  let (es, s) := s.listEdits l.bytes
  let x := s.amu u
  let full := editsFull es x.count
  let old := x.corrected
  let (t, c) := if full then (old, x.count) else es.foldl (fun t e => e.apply t) (old, x.count)
  let hi := max x.count c
  let p0 := match firstDiff old t with | some a => min a hi | none => hi
  let moved := fun a => decide (p0 ≤ a) && decide (a < x.count)
  let s := s.setAmu u { x with
    table := (x.table.filter (fun e => decide (e.1 < p0))) ++ t.filter (fun e => decide (p0 ≤ e.1))
    upsets := x.upsets.filter (fun e => !moved e.1), count := c
    lists := x.lists.filter (fun k => k.job != l.job)
    pass := some { job := l.job, full, p0, oldCount := x.count }
    passEdits := es.length, passCycles := 64 + (hi - p0) }
  if !full && x.upsets.any (fun e => moved e.1 && x.multi e.1) then (s.raise (177 + 4 * u) (unitCode 8 u) 0 0).stopPass u else s
/-- EDIT_PASS. -/
def execEditPass (u : Fin 4) (s : State) : Host.Outcome State Fault Refusal :=
  whenRun s (if !s.amuOn u.val || (s.amu u.val).pass.isSome then s else
    match s.passList u.val with
    | none => s
    | some l => (s.startPass u.val l).setOffset 41728)

/-- The unit of an edit job ends. -/
def State.editEnded (s : State) (id : Nat) : State :=
  s.modJob id (fun j => { j with pls := j.pls.map (fun p => if p.row = s.swnN then { p with done := [p.count] } else p) })
/-- EDIT_PASS_END (R255, R260): the shadow takes the changed entries, and the job's unit ends. -/
def State.endPass (s : State) (u : Nat) : State :=
  let x := s.amu u
  match x.pass with
  | none => s
  | some p =>
    let s := s.setAmu u { x with pass := none }
    let s := match s.job? p.job with
      | some j => if editsBad j.param || descBad j.desc then s.anyStatus p.job else s
      | none => s
    if p.full then s.setStatus p.job 0x26
    else
      let s := ((upTo (max p.oldCount x.count)).drop p.p0).foldl (fun s a => s.shadowWrite u a) s
      s.editEnded p.job
def execEditPassEnd (u : Fin 4) (s : State) : Host.Outcome State Fault Refusal := whenRun s (s.endPass u.val)

/-! ## Scrubber and probes -/

/-- The scrubber reads one entry (R259–R262). An uncorrectable one raises AMU_ECC, and is rewritten like any that differs. -/
def State.scrubStep (s : State) (u : Nat) : State :=
  let x := s.amu u
  if !s.amuOn u || !bit (s.liveN (0x500010 + 0x1000 * u)) 0 || x.pass.isSome then s else
  let a := x.scrubPos
  let at_ := s.shadowOf u a
  let next := { x with scrubPos := (a + 1) % 65536 }
  if s.hbmc.pcFenced.getLsbD (pcOf at_) then s.setAmu u next else
  let e := (entryOf (s.hbmPeek at_ 64)).norm
  let s := s.countReqs 1
  let s := if x.multi a then s.raise (177 + 4 * u) (unitCode 8 u) 0 0 else s
  let next := { next with upsets := x.upsets.filter (fun e => e.1 != a) }
  if e = mget (fun _ => AmuEntry.empty) x.table a then s.setAmu u next
  else (s.setAmu u { next with table := aput x.table a e, scrubFix := satInc 32 x.scrubFix }).raise (176 + 4 * u)
    (unitCode 8 u) 0 0
/-- AMU_SCRUB_STEP: the step, and the cells that are upset between it and the next (R261). -/
def execAmuScrubStep (u : ScrubAt) (s : State) : Host.Outcome State Fault Refusal :=
  whenRun s (
    let t := s.scrubStep u.amu.val
    if u.flips.isEmpty || (t.amu u.amu.val).pass.isSome then t else
    t.modAmu u.amu.val (fun x => u.flips.foldl (fun x e => x.upset e.1.val e.2.val) x))

/-- PROBE_KEY (Table 10.2). -/
def State.probeKey (s : State) (u : Nat) : BitVec 128 :=
  BitVec.ofNat 128 (sumL ((upTo 4).map (fun w => s.cfgN (0x500100 + 0x1000 * u + 4 * w) * 2 ^ (32 * w))))
/-- A write of PROBE_TAG starts a probe with the present PROBE_KEY (R256). -/
def State.probeStart (s : State) (u : Nat) (tag : BitVec 16) : State :=
  (s.setCfg (0x500110 + 0x1000 * u) (tag.setWidth 32)).modAmu u
    (fun x => { x with probe := some (s.probeKey u, tag), probeDone := false })
/-- PROBE_TAG_WRITE (R256). -/
def execProbeTagWrite (u : Fin 4) (tag : BitVec 16) (s : State) : Host.Outcome State Fault Refusal :=
  whenRun s (s.probeStart u.val tag)
/-- PROBE_ANSWER (R256): a pass in progress makes it wait; a fenced unit answers nothing (R263). -/
def execProbeAnswer (u : Fin 4) (s : State) : Host.Outcome State Fault Refusal :=
  whenRun s (if !s.amuOn u.val then s else
    s.modAmu u.val (fun x => match x.probe, x.pass with
      | some (key, tag), none =>
        let r := x.match? tag key
        { x with probe := none, probeDone := true, probeHit := r.isSome, probeAddr := r.getD 0 }
      | _, _ => x))

end Sys2Proof.Machine
end

