-- ==== Sys2Proof/Machine/Startup.lean ====
section
/-! DEFINITION. The start and the firmware responders (R460–R467, R512). -/

namespace Sys2Proof.Machine

def State.modStart (s : State) (g : Startup → Startup) : State := { s with start := g s.start }

/-- A start stops (R467): PHASE reads STOPPED, STOP_PHASE names the phase, FAULT_N is held low. -/
def State.startStop (s : State) (phase : Nat) : State :=
  { s.modStart (fun x => { x with phase := 15, stopPhase := phase }) with faults := { s.faults with pinLow := true } }

/-- The greater of the counter record and its mirror, written back to both (R354). -/
def State.mergeCounter (s : State) : State :=
  let c := if s.keys.nvCounter.toNat < s.backup.now.ctrMirror.toNat then s.backup.now.ctrMirror else s.keys.nvCounter
  { s with
    keys := { s.keys with counter := c, nvCounter := c }
    backup := { s.backup with now := { s.backup.now with ctrMirror := c } } }

/-- START_EDGE (R460, R461, R442): the conditions of the start edge, the fuses, and the journal. -/
def State.startEdge (s : State) (e : StartEnv) : State :=
  let s := { s.modStart (fun x => { x with
      up := true, phase := 1, perstLow := false, fuseCorrected := e.fusesCorrected, fuseLost := e.fusesLost }) with
    glob := { s.glob with timer := true, cclkStep := 24 } }
  if e.fusesLost then s.startStop 1
  else
    let s := { s with tamper := { s.tamper with eff := s.tamper.blown } }
    let s := s.modPower (fun p => { p with measuring := true, vddW := 900, vddE := 900 })
    s.mergeCounter.readJournal e.journalA e.journalB
def execStartEdge (env : StartEnv) (s : State) : Host.Outcome State Fault Refusal :=
  .next (if env.railsOk && env.perstHigh && env.refclkRuns && !s.backup.held && !s.start.thermLow && !s.start.up then
    s.startEdge env else s)

/-- FIRMWARE_VERIFY (R462): the active bank, then the other; without either the start stops. `images` are the firmware of
CC0–CC11 and of CM0–CM3; of the kernels, those that pass are loaded and measured in order. -/
def execFirmwareVerify (bankA bankB : Bool) (images : List Bytes) (kernels : List (Bytes × Bool)) (s : State) :
    Host.Outcome State Fault Refusal :=
  whenUp s (if s.start.phase ≠ 1 then s else
    let pick := if s.start.active then (if bankB then some true else if bankA then some false else none)
      else (if bankA then some false else if bankB then some true else none)
    match pick with
    | none => s.startStop 2
    | some bank =>
      let loaded := if s.life.usersErased then [] else (kernels.filter (fun k => k.2)).map (fun k => k.1)
      s.modStart (fun x => { x with
        phase := 2, bank, fwOk := true
        measured := [sha384 (nth images 0 []), sha384 (nth images 1 []), sha384 (loaded.flatten)] }))

/-- A pseudo-channel leaves service (R129). -/
def State.fencePc (s : State) (i : Nat) : State :=
  { s with hbmc := { s.hbmc with pcFenced := s.hbmc.pcFenced ||| BitVec.ofNat 128 (2 ^ i) } }

/-- HBM_TRAINING_END (R464). -/
def execHbmTrainingEnd (failed : List (Fin 128)) (s : State) : Host.Outcome State Fault Refusal :=
  whenUp s (if s.start.trained then s else
    let s := failed.foldl (fun s i => (s.raise (308 + i.val) (unitCode 9 i.val) 0 0).fencePc i.val) s
    let s := s.modStart (fun x => { x with trainFailed := failed.eraseDups.length })
    if s.pcCount < 64 then s.startStop 4 else s.modStart (fun x => { x with trained := true }))

/-- PLDM_FIRMWARE_UPDATE (R467): accepted by the responder of a stopped start; bank A becomes the active one. The image
itself shows only in what the next FIRMWARE_VERIFY finds. -/
def execPldmFirmwareUpdate (_image : Bytes) (s : State) : Host.Outcome State Fault Refusal :=
  .next (if s.start.up && s.start.phase = 15 then s.modStart (fun x => { x with active := false }) else s)

/-- The message reaches the device: over SMBus it must bear the address that the device took (R501). -/
def State.mctpHears (s : State) : MctpVia → Bool
  | .pcie => true
  | .smbus addr => s.backup.smbAddr == some addr
/-- A responder of the device answers the message (R429, R467, R512): MCTP control and PLDM messages, whose types and command
codes are those of DSP0236 and DSP0239 (PRESUMED, log entry 93). In HELD the responder of SMBus answers Get Endpoint ID and Get
Message Type Support. -/
def State.mctpAnswers (s : State) (via : MctpVia) (msg : Bytes) : Bool :=
  let type := rd msg 0 1 % 128
  if s.backup.held then via != .pcie && type == 0 && [2, 5].contains (rd msg 2 1)
  else s.start.up && !s.power.ps4Ready && decide (type ≤ 1)
/-- An answer goes out over the same bus; its bytes are free. -/
def State.mctpReply (s : State) (via : MctpVia) : State :=
  let (n, s) := s.draw 8
  let (b, s) := s.drawBytes n
  s.emit (.mctp (via == .pcie) b)
/-- MCTP_MESSAGE (Table 17.2, R429, R467, R512): source 897 over SMBus, 898 over PCIe VDM, and the responder's answer. -/
def execMctpMessage (via : MctpVia) (msg : Bytes) (s : State) : Host.Outcome State Fault Refusal :=
  if !s.mctpHears via then .next s else
  let t := if s.mctpAnswers via msg then s.mctpReply via else s
  .next (if s.up then t.pendSrc (if via = .pcie then 898 else 897) else t)

/-- START.PHASE (Table 22.3): the phase in progress, in the order of Table 22.1 (log entry 17). -/
def State.startPhase (s : State) : Nat :=
  if s.start.phase ≠ 2 then s.start.phase
  else if s.life.mark ≠ 0 then 3
  else if !s.start.trained then 4
  else if s.seed.phase ≠ 2 then 5
  else if s.keys.phase ≠ 1 then 6
  else if !s.start.fwOk then 7
  else if !s.start.startPlan then 8
  else if !s.glob.admitOpen then 9
  else 10

end Sys2Proof.Machine
end

