-- ==== Sys2Proof/Machine/Seedbank.lean ====
section
/-! DEFINITION. The seedbank (R323–R336): conditioned blocks, health-test alarms, the floor, the allotment, the reseeds and the
SEED_READ units. -/

namespace Sys2Proof.Machine

/-- Sources of a design still in service: 0–3 ring-jitter, 4–7 latch (Table 14.1). -/
def State.designLeft (s : State) (d : Nat) : Bool := (upTo 4).any (fun i => !s.seed.fenced.getLsbD (4 * d + i))

/-- HALTED (R336). -/
def State.seedHalt (s : State) : State :=
  ((s.modSeed (fun b => { b with phase := 3, queue := [], allot := [] })).raise 300 0 0 0).setCause 300 true

/-- Fence noise source `n`; the seedbank halts when no source of one design remains. -/
def State.fenceSource (s : State) (n : Nat) : State :=
  let s := s.modSeed (fun b => { b with fenced := b.fenced ||| BitVec.ofNat 8 (2 ^ n) })
  if (s.seed.phase = 1 || s.seed.phase = 2) && !(s.designLeft 0 && s.designLeft 1) then s.seedHalt else s

/-- A source fails (R327): SEED_SRC_FAIL is raised and the hardware fences the source. -/
def State.sourceFails (s : State) (n : Nat) : State := (s.raise (292 + n) (unitCode 11 n) 0 0).fenceSource n

/-- CONDITIONED_BLOCK (R324, R325): 2,048 samples, packed in 256 bytes, are compressed with SHA-256; a full queue discards the block. -/
def execConditionedBlock (src : Fin 8) (samples : Bytes) (s : State) : Host.Outcome State Fault Refusal :=
  whenRun s
    (if (s.seed.phase = 1 || s.seed.phase = 2) && !s.seed.fenced.getLsbD src.val && s.seed.queue.length + 32 ≤ 65536 then
      s.modSeed (fun b => { b with queue := b.queue ++ sha256 (fitB samples 256) }) else s)

/-- SEED_ALARM (R327): counted; a source fails in its start-up test, or at 3 alarms within 1,024 sw. -/
def State.seedAlarm (s : State) (n : Nat) (rct : Bool) : State :=
  if s.seed.phase = 3 || s.seed.fenced.getLsbD n then s else
  let now := s.swnN
  let times := (mget (fun _ => []) s.seed.recent n ++ [now]).filter (fun t => decide (now - t ≤ 1024))
  let s := s.modSeed (fun b => { b with
    rct := if rct then cput b.rct n (satInc 16 (cget b.rct n)) else b.rct
    apt := if rct then b.apt else cput b.apt n (satInc 16 (cget b.apt n))
    recent := mput (fun _ => []) b.recent n times })
  let s := s.raise (284 + n) (unitCode 11 n) 0 0
  if s.seed.phase = 0 then
    (s.modSeed (fun b => { b with startFail := b.startFail ||| BitVec.ofNat 8 (2 ^ n) })).sourceFails n
  else if times.length ≥ 3 then s.sourceFails n else s
def execSeedAlarm (src : Fin 8) (test : HealthTest) (s : State) : Host.Outcome State Fault Refusal :=
  whenRun s (s.seedAlarm src.val (test == .rct))

/-- SEED_STARTUP_TEST_END (Table 14.3). -/
def execSeedStartupTestEnd (s : State) : Host.Outcome State Fault Refusal :=
  whenRun s
    (if s.seed.phase ≠ 0 then s
     else if s.designLeft 0 && s.designLeft 1 then s.modSeed (fun b => { b with phase := 1 }) else s.seedHalt)

/-- SEED_FLOOR_REACHED (R329): streams 0–48 take 48 bytes each; delays then come from stream 48 (R426). -/
def execSeedFloorReached (s : State) : Host.Outcome State Fault Refusal :=
  whenRun s
    (if s.seed.phase = 1 && decide (s.seed.queue.length ≥ 4096) then
      let seeds := s.seed.queue.take 2352
      let s := s.modSeed (fun b => { b with
        phase := 2, queue := b.queue.drop 2352, delivered := b.delivered + 2352 })
      let s := (upTo 49).foldl (fun s k => s.reseeded k (slice seeds (48 * k) 48)) s
      { s with tamper := { s.tamper with raw := false } }
     else s)

/-- The condition of R330. -/
def State.seedOpen (s : State) : Bool :=
  s.seed.phase = 2 && decide (s.seed.queue.length ≥ 4096 + 1000 * s.sourcesIn)

/-- Overdue reseeds retry ahead of the allotment of `want` bytes (R266). -/
def State.retryReseeds (s : State) (want : Nat) : State :=
  (upTo 49).foldl (fun s k =>
    match (s.stream k).due with
    | none => s
    | some _ =>
      if s.seed.phase = 2 && decide (s.seed.queue.length ≥ 48 + 4096 + want) then
        (s.modSeed (fun b => { b with queue := b.queue.drop 48, delivered := b.delivered + 48 })).reseeded k (s.seed.queue.take 48)
      else s) s

/-- Serve unit `i` of a SEED_READ job, or let it wait (R334, R335). The last unit takes only the bytes that it writes. -/
def State.seedUnit (s : State) (j : Job) (row i : Nat) : State :=
  match s.takeAllot (min 512 (rd j.param 8 4 - 512 * i)) with
  | none => s.modSeed (fun b => { b with waiting := b.waiting ++ [(j.id, i, row)] })
  | some (bytes, s) =>
    (s.settle (s.memWrite (bit (rd j.param 12 1) 0) (rd j.param 0 8 + 512 * i) bytes) j false).modSeed
      (fun b => { b with served := b.served ++ [(j.id, i)] })
/-- At offset H the units of a SEED_READ placement that the allotment served end (R87, R334). -/
def State.seedEnds (s : State) (j : Job) (p : Placement) : State :=
  let n := (s.seed.served.filter (fun e => e.1 == j.id && decide (p.start ≤ e.2) && decide (e.2 < p.start + p.count))).length
  s.modJob j.id (fun j => { j with pls := j.pls.map (fun q => if q.seq = p.seq then { q with done := [nth q.done 0 0 + n] } else q) })

/-- Placements of a row in placement order, ordinary ones before re-placed ones (R59), each with its job. -/
def State.rowPlacements (s : State) (row : Nat) : List (Job × Placement) :=
  sortBy (fun a b => if a.2.replaced != b.2.replaced then b.2.replaced else decide (a.2.seq < b.2.seq))
    ((s.adm.jobs.filter (fun j => !j.recorded && j.status.isNone && j.held.isNone)).flatMap
      (fun j => (j.pls.filter (fun p => p.row = row)).map (fun p => (j, p))))

/-- SEEDBANK_ALLOTMENT (R331, R266). -/
def State.allotment (s : State) : State :=
  let row := s.swnN
  let want := s.rowCnt row 27
  let s := s.retryReseeds want
  let s := if s.seed.phase = 2 then
      s.modSeed (fun b => { b with allot := b.allot ++ b.queue.take want, queue := b.queue.drop want }) else s
  let k := row % 1024
  let s := if k > 48 then s else
    match s.takeAllot 48 with
    | some (x, s) => s.reseeded k x
    | none => s.setStream k { s.stream k with due := some ((s.stream k).due.getD row) }
  (s.rowPlacements row).foldl (fun s e =>
    if e.1.opcode = 0x0500 then
      e.2.openUnits.foldl (fun s i => s.seedUnit e.1 row i) s
    else s) s
def execSeedbankAllotment (s : State) : Host.Outcome State Fault Refusal :=
  whenRun s (s.allotment.setOffset 41728)

/-- The tail's part (R331, R335, R266): the rest of the allotment returns to the head of the queue, which keeps its newest bytes only as
far as its 65,536 hold them (log entry 86), waiting SEED_READ units whose time has come
end their job with NO_ENTROPY, and streams with no reseed in time stop. -/
def State.seedTail (s : State) : State :=
  let lim := s.liveN 0x7C0010
  let now := s.swnN
  let s := s.modSeed (fun b => { b with queue := (b.allot ++ b.queue).take 65536, allot := [] })
  let late := s.seed.waiting.filter (fun w =>
    decide (w.2.2 + lim ≤ now) || (match s.job? w.1 with | some j => decide (j.deadline ≤ now) | none => true))
  let s := s.modSeed (fun b => { b with
    waiting := b.waiting.filter (fun w => !late.contains w), noEntropy := satAdd 32 b.noEntropy late.length })
  let s := late.foldl (fun s w => s.setStatus w.1 0x13) s
  (upTo 49).foldl (fun s k =>
    match (s.stream k).due with
    | some d => if d + lim ≤ now then s.setStream k { s.stream k with running := false } else s
    | none => s) s

end Sys2Proof.Machine
end

