-- ==== Sys2Proof/Machine/Rows.lean ====
section
/-! DEFINITION. What travels in a field: lanes, rows and beats, the context of one unit, its block lists, and the checking of
sealed blocks on ingress (R107, R108, R138–R143, R160, R170, R171, R183, R191). -/

namespace Sys2Proof.Machine

/-! ## Lanes, rows and beats (R107, R108, R183) -/

/-- What a lane's 64 bits stand for: a value, a string locator, or a string that a gather has read (R188, R220). -/
inductive LaneForm where
  | value
  | locator
  | text (b : Bytes)
deriving DecidableEq, Repr
/-- A lane that holds a row: its value and its N bit. -/
structure Cell where
  v : DWord
  n : Bool
  form : LaneForm
deriving DecidableEq, Repr
/-- A row: its lanes by stream, and K. A row is one whose V is 1. -/
structure QRow where
  cells : List Cell
  k : Bool
deriving DecidableEq, Repr
def Cell.null : Cell := { v := 0, n := true, form := .value }
def Cell.ofBits (v : DWord) : Cell := { v, n := false, form := .value }
def Cell.of (v : Nat) : Cell := Cell.ofBits (BitVec.ofNat 64 v)
/-- Two lanes are bitwise equal, with equal N bits. -/
def Cell.same (a b : Cell) : Bool := a.v == b.v && a.n == b.n
def sameCells (a b : List Cell) : Bool := a.length == b.length && (List.zipWith Cell.same a b).all id

/-- One beat of one stream: eight lanes, of which an absent one has V = 0, and END. -/
structure Beat where
  lanes : List (Option (Cell × Bool))
  last : Bool
deriving DecidableEq, Repr
/-- Streams of a stream set: the lanes of its widest row. -/
def streamsOf (rs : List QRow) : Nat := rs.foldl (fun m r => max m r.cells.length) 0
/-- One row group: a beat of each of `w` streams, rows beyond its end having V = 0 (R183, R219). -/
def groupBeats (w : Nat) (g : List QRow) (last : Bool) : List Beat :=
  (upTo w).map (fun i =>
    { lanes := (upTo 8).map (fun x => g[x]?.map (fun r => (nth r.cells i Cell.null, r.k)))
      last := last && decide (i + 1 = w) })
/-- The beats of a stream set: row i in lane i mod 8 of its row group, END on the last beat of the last (R108, R183). -/
def beatsOf (rs : List QRow) : List Beat :=
  let gs := if rs.isEmpty then [[]] else chunks 8 rs.length rs
  (gs.zipIdx).flatMap (fun g => groupBeats (max 1 (streamsOf rs)) g.1 (decide (g.2 + 1 = gs.length)))
/-- V, N, K and data of each lane of a beat. -/
def Beat.bits (b : Beat) : List (Option (Nat × Bool × Bool)) := b.lanes.map (·.map (fun x => (x.1.v.toNat, x.1.n, x.2)))

/-! ## A unit's context -/

/-- Unit `u` of a stage on its `p`-th field: the machine, the job, the stage's fields, the plane and its SEAL tiles, and the
number of the free values kept for what the spec leaves open in this unit (log entry 1). -/
structure UnitCtx where
  s : State
  job : Job
  v : StageRec
  p : Nat
  u : Nat
  fs : List Nat
  pl : Plane
  seals : List SealTile
  base : Nat

/-- The field of the unit. -/
def UnitCtx.field (c : UnitCtx) : Nat := nth c.fs c.p 0
/-- u of R204, R216 and R219: j × NFIELDS + p. -/
def UnitCtx.index (c : UnitCtx) : Nat := c.u * c.v.nfields + c.p
def Plane.bytes (pl : Plane) (off n : Nat) : Bytes := (upTo n).map (fun i => mget (fun _ => 0#8) pl.data (off + i))
def UnitCtx.pb (c : UnitCtx) (off n : Nat) : Nat := leNat (c.pl.bytes off n)
def constPool : Nat := 0x14400
def tileA (l : Nat) : Nat := 0x400 + 0x800 * l
/-- A number in tile `l`'s block, and the place of a constant in its window. -/
def UnitCtx.tile (c : UnitCtx) (l off n : Nat) : Nat := c.pb (tileA l + off) n
def UnitCtx.constA (c : UnitCtx) (l off : Nat) : Nat := constPool + c.tile l 0x10 4 + off
def UnitCtx.enabled (c : UnitCtx) (l : Nat) : Bool := bit (c.pb 0x0C 8) l
/-- The source port of a port's input side (R138). -/
def UnitCtx.src (c : UnitCtx) (port : Nat) : Option Nat :=
  let b := c.pb (0x80 + port) 1
  if bit b 7 then some (b % 64) else none
/-- Field-store banks that a port owns (R139). -/
def UnitCtx.banks (c : UnitCtx) (port : Nat) : List Nat :=
  (upTo 40).filter (fun b => let x := c.pb (0x40 + b) 1; bit x 7 && x % 64 == port)
/-- Enabled tiles of a kind. -/
def UnitCtx.tilesOf (c : UnitCtx) (kind : Nat) : List Nat :=
  ((upTo (kindCount kind)).map (· + kindBase kind)).filter c.enabled
/-- The block of a tile, as its bytes that are not zero. -/
def UnitCtx.block (c : UnitCtx) (l : Nat) : SMap Byte :=
  (c.pl.data.filter (fun e => decide (tileA l ≤ e.1) && decide (e.1 < tileA l + 0x800))).map (fun e => (e.1 - tileA l, e.2))
/-- Free number `i` of this unit. -/
def UnitCtx.free (c : UnitCtx) (i bits : Nat) : Nat := Config.freeNat (c.base + i) bits % 2 ^ bits
/-- Free bytes `i` of this unit. -/
def UnitCtx.junkBytes (c : UnitCtx) (i n : Nat) : Bytes := toLe n (c.free (128 + i) (8 * n))
/-- What an unchecked condition of scope J leaves in a lane. -/
def UnitCtx.junk (c : UnitCtx) : Cell := { v := BitVec.ofNat 64 (c.free 0 64), n := bit (c.free 1 1) 0, form := .value }
def UnitCtx.cell (c : UnitCtx) (r : QRow) (i : Nat) : Cell := nth r.cells i c.junk
/-- Rows whose number and lanes the spec does not fix, from free value `i`: data read from a field store that the unit did not
write (R118). -/
def UnitCtx.freeRows (c : UnitCtx) (i : Nat) : List QRow :=
  let n := c.free i 17
  (upTo n).map (fun r =>
    { cells := (upTo 16).map (fun k =>
        let w := c.free (i + 64) (2 ^ 17 * 16 * 65)
        { v := BitVec.ofNat 64 (fld w ((r * 16 + k) * 65) 64), n := bit w ((r * 16 + k) * 65 + 64), form := .value })
      k := true })

/-! ## The lookahead buffers (R125) -/

/-- Bytes of HBM as the unit reads them: those that the lookahead has already buffered stand as they were read. -/
def UnitCtx.hbm (c : UnitCtx) (a n : Nat) : Bytes :=
  let held := if c.u = ((c.s.field c.field).ahead.unit) ∧ c.job.id = (c.s.field c.field).ahead.job then
    (c.s.field c.field).ahead.data else []
  let b := c.s.hbmPeek a n
  held.foldl (fun b e => if e.1 < a + n ∧ a < e.1 + e.2.length then
      (b.zipIdx).map (fun x => if e.1 ≤ a + x.2 ∧ a + x.2 < e.1 + e.2.length then nth e.2 (a + x.2 - e.1) x.1 else x.1)
    else b) b

/-! ## Block lists (R170, R191) -/

structure BEnt where
  addr : Nat
  id : DWord
  ver : DWord
  rows : Nat
  clean : Bool
deriving DecidableEq, Repr
def entryOfList (b : Bytes) : BEnt :=
  { addr := rd b 0 8 % 2 ^ 37, id := BitVec.ofNat 64 (rd b 8 8), ver := BitVec.ofNat 64 (rd b 16 8), rows := rd b 24 4
    clean := rd b 28 4 == 0 }
/-- Where list `l` of engine `e` (0–1 ingress, 2–3 egress) stands: in the constant pool or in HBM; none where it is unused. -/
inductive ListAt where
  | pool (off : Nat)
  | hbm (addr : Nat)
def UnitCtx.listAt (c : UnitCtx) (e l : Nat) : Option ListAt :=
  let a := c.pb (0x18 + 4 * e) 4
  if a = 0xFFFFFFFF then none else
  let d := constPool + a + 16 * l
  let flags := c.pb d 1
  if !bit flags 0 then none
  else if bit flags 1 then some (.hbm (dOp c.job.desc (c.pb (d + 8) 1 % 8)))
  else some (.pool (constPool + c.pb (d + 8) 4))
/-- The entry of a list that this unit reads. -/
def UnitCtx.entry (c : UnitCtx) (e l : Nat) : Option BEnt :=
  (c.listAt e l).map (fun a => match a with
    | .hbm a => entryOfList (c.hbm (a + 32 * c.index) 32)
    | .pool o => entryOfList (c.pl.bytes (o + 32 * c.index) 32))
def UnitCtx.entries (c : UnitCtx) (e : Nat) : List (Nat × BEnt) :=
  (upTo 8).filterMap (fun l => (c.entry e l).map (fun b => (l, b)))
/-- Entries that are not void (R170). -/
def UnitCtx.blocks (c : UnitCtx) (e : Nat) : List (Nat × BEnt) := (c.entries e).filter (fun b => b.2.rows ≠ 0)

/-! ## SEAL on ingress (R160, R171) -/

def UnitCtx.sealOf (c : UnitCtx) (port : Nat) : Option SealTile := c.seals.find? (fun t => t.tile + 36 == port)
/-- IV of Table 7.2. -/
def sealIv (ver id : DWord) : Bytes := toBe 8 ver.toNat ++ toBe 4 (id.toNat % 2 ^ 32)
/-- The checked contents of a block under a tile's key: the data area in clear, or none where the block fails. -/
def UnitCtx.openBlock (c : UnitCtx) (t : SealTile) (b : BEnt) : Option Bytes :=
  let data := c.hbm b.addr 65536
  let tr := c.hbm (b.addr + 65536) 32
  let ver := BitVec.ofNat 64 (rd tr 16 8)
  let id := BitVec.ofNat 64 (rd tr 24 8)
  let iv := sealIv ver id
  let clear := if t.use = 2 then gcmOpen t.key iv (tr.drop 16) data (tr.take 16)
    else if gmac t.key iv (data ++ tr.drop 16) = tr.take 16 then some data else none
  if id = b.id ∧ (b.ver = 0 ∨ ver = b.ver) then clear else none
/-- Data area of a block as it reaches a port fed through `t`; a tile that seals passes it on. -/
def UnitCtx.blockData (c : UnitCtx) (t : Option SealTile) (b : BEnt) : Bytes :=
  match t with
  | some t => if t.use ≤ 2 then (c.openBlock t b).getD (zeros 65536) else c.hbm b.addr 65536
  | none => c.hbm b.addr 65536
/-- The ingress engine behind a port, and the SEAL tile between. -/
def UnitCtx.feed (c : UnitCtx) (port : Nat) : Option (Nat × Option SealTile) :=
  if port = 40 ∨ port = 41 then some (port - 40, none)
  else if 36 ≤ port ∧ port < 40 then
    match c.src port with
    | some q => if q = 40 ∨ q = 41 then some (q - 40, c.sealOf port) else none
    | none => none
  else none
/-- Ingress blocks that a SEAL tile of use 1 or 2 checks in this unit, in list order. -/
def UnitCtx.checked (c : UnitCtx) : List (SealTile × BEnt) :=
  (upTo 4).flatMap (fun l =>
    if !c.enabled (36 + l) then [] else
    match c.feed (36 + l) with
    | some (e, some t) => if t.use ≤ 2 then (c.blocks e).map (fun b => (t, b.2)) else []
    | _ => [])

/-! ## What a port carries -/

/-- What leaves a port in one unit: blocks of bytes with their list entries, by engine and list, or rows. -/
inductive Wire where
  | blocks (bs : List (Nat × BEnt × Bytes))
  | rows (rs : List QRow)
/-- A port's beats taken as rows of one stream: each 8 bytes of a block are one lane. -/
def Wire.toRows : Wire → List QRow
  | .rows rs => rs
  | .blocks bs => bs.flatMap (fun b => (upTo (cdiv b.2.2.length 8)).map (fun i => { cells := [Cell.of (rd b.2.2 (8 * i) 8)], k := true }))
/-- A port's beats taken as bytes. -/
def Wire.toBytes : Wire → Bytes
  | .rows rs => (beatsOf rs).flatMap (fun b => b.lanes.flatMap (fun x => match x with
      | some y => toLe 8 y.1.v.toNat
      | none => []))
  | .blocks bs => bs.flatMap (·.2.2)

end Sys2Proof.Machine
end

