-- ==== Sys2Proof/Machine/Tiles.lean ====
section
/-! DEFINITION. What a field's tiles do to one row: SCAN, FILT and HASH (R163–R165, R186–R201). -/

namespace Sys2Proof.Machine

/-! ## SCAN (R163–R165, R187–R192) -/

/-- Types widened with their sign (R187). -/
def signedType (t : Nat) : Bool := decide (t < 4) || t == 8 || t == 9
/-- A stored value of `w` bits in a lane of type `t`. -/
def widen (t w v : Nat) : Nat := if signedType t && w < 64 then (sext w v % 2 ^ 64).toNat else v
/-- Value `i` of `b` bits, bit-packed. -/
def packed (data : Bytes) (off b i : Nat) : Nat := fld (rd data (off + i * b / 8) (cdiv (b + 7) 8 + 1)) (i * b % 8) b
/-- `r` values of run-length records from `off`. -/
def runLength (data : Bytes) (w : Nat) : Nat → Nat → Nat → List Nat
  | 0, _, _ => []
  | fuel + 1, off, r =>
    if r = 0 then [] else
    let v := rd data off (w / 8)
    let n := min r (rd data (off + w / 8) 2 + 1)
    List.replicate n v ++ runLength data w fuel (off + w / 8 + 2) (r - n)

/-- STRH of a string (R188); of the empty string it is the hash of an empty message (Table 8.11). -/
def strHash (key str : Bytes) : Nat := (sipHash key (if str.isEmpty then [] else str ++ [0#8])).toNat
def strPrefix (str : Bytes) : Nat := beNat (fitB str 8)
/-- Byte order of strings (R192). -/
def bytesLt : Bytes → Bytes → Bool
  | [], [] => false
  | [], _ :: _ => true
  | _ :: _, [] => false
  | a :: as, b :: bs => if a = b then bytesLt as bs else decide (a.toNat < b.toNat)
def strPred (op : Nat) (str k : Bytes) : Bool :=
  match op with
  | 0 => true
  | 1 => str == k
  | 2 => str != k
  | 3 => str.take k.length == k
  | 4 => bytesLt str k
  | _ => !bytesLt str k

/-- One decoder of SCAN tile `l`: its lanes, and which rows its string predicate keeps. -/
def UnitCtx.decode (c : UnitCtx) (l d : Nat) (b : BEnt) (data : Bytes) : List (Cell × Bool) :=
  let f := fun off n => c.tile l (0x40 + 64 * d + off) n
  let enc := f 0 1 % 8
  let w := f 1 1
  let ty := f 2 1 % 16
  let nulls := bit (f 2 1) 4
  let out := f 4 1
  let r := b.rows
  let area := if nulls then cdiv r 512 * 64 else 0
  let isNull := fun i => nulls && bit (rd data (i / 8) 1) (i % 8)
  let lane := fun i v => if isNull i then Cell.null else Cell.of v
  match enc with
  | 0 => (upTo r).map (fun i => (lane i (widen ty w (rd data (area + i * w / 8) (w / 8))), true))
  | 1 => (upTo r).map (fun i =>
      let code := packed data area w i
      (lane i (match out with
        | 0 => if code < f 0x14 4 then c.pb (c.constA l (f 0x10 4 + 8 * code)) 8 else c.junk.v.toNat
        | 1 => code
        | 6 => f 0x28 8 + 8 * code
        | _ => c.junk.v.toNat), true))
  | 2 => ((runLength data w (r + 1) area r).zipIdx).map (fun x => (lane x.2 (widen ty w x.1), true))
  | 3 =>
    let own := bit (f 2 1) 5
    let base := if own then rd data area 8 else f 8 8
    (upTo r).map (fun i => (lane i ((base + packed data (area + if own then 8 else 0) w i) % 2 ^ 64), true))
  | 4 =>
    let heap := area + 4 * (r + 1)
    let key := c.pl.bytes (c.constA l (f 0x18 4)) 16
    let k := c.pl.bytes (c.constA l (f 0x1C 4)) (f 0x20 2)
    (upTo r).map (fun i =>
      let o := rd data (area + 4 * i) 4
      let str := slice data (heap + o) (min 4096 (rd data (area + 4 * i + 4) 4 - o))
      let v := match out with
        | 2 => strHash key str
        | 3 => strPrefix str
        | 4 => (b.addr + heap + o) % 2 ^ 37 + 2 ^ 37 * str.length
        | 5 => str.length
        | _ => c.junk.v.toNat
      ({ lane i v with form := if out = 4 ∧ !isNull i then .locator else .value }, f 6 1 % 8 == 0 || (!isNull i && strPred (f 6 1 % 8) str k)))
  | _ => (upTo r).map (fun _ => (c.junk, true))

/-- Put columns side by side. -/
def zipColumns (n : Nat) (cols : List (List (Cell × Bool))) (junk : Cell) : List QRow :=
  (upTo n).map (fun i =>
    let row := cols.map (fun col => nth col i (junk, true))
    { cells := row.map (·.1), k := row.all (·.2) })
/-- Enabled decoders of SCAN tile `l`, each with the list entry it reads: engine and list are those of its LIST byte
(Table 8.3). -/
def UnitCtx.decoders (c : UnitCtx) (l : Nat) : List (Nat × Nat × BEnt) :=
  ((upTo 4).filter (fun d => bit (c.tile l (0x40 + 64 * d) 1) 7)).filterMap (fun d =>
    let x := c.tile l (0x40 + 64 * d + 5) 1
    let e := b2n (bit x 3)
    (c.entry e (x % 8)).map (fun b => (d, 8 * e + x % 8, b)))
/-- The data area that a decoder finds on the tile's input. -/
def UnitCtx.scanData (c : UnitCtx) (l : Nat) (w : Wire) (x : Nat × Nat × BEnt) : Bytes :=
  if x.2.2.rows = 0 then [] else
  match w with
  | .rows _ => w.toBytes
  | .blocks bs => match bs.find? (fun b => b.1 == x.2.1) with
    | some b => b.2.2
    | none => c.blockData ((c.src l).bind c.sealOf) x.2.2
/-- Output of SCAN tile `l`: its enabled decoders in order. -/
def UnitCtx.scan (c : UnitCtx) (l : Nat) (w : Wire) : List QRow :=
  let ds := c.decoders l
  let n := match ds with | [] => 0 | x :: _ => x.2.2.rows
  zipColumns n (ds.map (fun x => c.decode l x.1 x.2.2 (c.scanData l w x))) c.junk

/-! ## Comparison (R193, R194) -/

/-- Family of a lane type: 0 numeric, 1 time, 2 truth, 3 prefix, 4 hash, 5 none. -/
def family (t : Nat) : Nat :=
  if t ≤ 8 then 0 else if t = 9 then 1 else if t = 10 then 2 else if t = 12 then 3 else if t = 11 then 4 else 5
def laneInt (t : Nat) (v : DWord) : Int := if signedType t then v.toInt else (v.toNat : Int)
/-- A lane's value times 10^s, where its own scale is `sc` (DEC64 only). -/
def scaled (t sc s : Nat) (v : DWord) : Int := laneInt t v * (10 ^ (s - if t = 8 then sc else 0) : Nat)
/-- Exact comparison of two non-null lanes of one family. -/
def cmpLanes (ta sa : Nat) (a : DWord) (tb sb : Nat) (b : DWord) : Ordering :=
  let s := max (if ta = 8 then sa else 0) (if tb = 8 then sb else 0)
  compare (scaled ta sa s a) (scaled tb sb s b)
/-- Result of operations 0–5 from an ordering. -/
def cmpOp (op : Nat) (o : Ordering) : Bool :=
  match op with
  | 0 => o == .eq
  | 1 => o != .eq
  | 2 => o == .lt
  | 3 => o != .gt
  | 4 => o == .gt
  | _ => o != .lt
/-- The comparison is one that R194 defines. -/
def cmpDefined (op ta tb : Nat) : Bool :=
  family ta == family tb && decide (family ta < 5) && (family ta != 4 || decide (op ≤ 1))

/-! ## FILT (R193–R198) -/

def tri3And (a b : Option Bool) : Option Bool :=
  if a = some false ∨ b = some false then some false else if a = some true ∧ b = some true then some true else none
def tri3Or (a b : Option Bool) : Option Bool :=
  if a = some true ∨ b = some true then some true else if a = some false ∧ b = some false then some false else none

/-- AMU unit and list tag of AMUREF `i` (Table 6.1). -/
def UnitCtx.amuRef (c : UnitCtx) (i : Nat) : Nat × BitVec 16 :=
  let e := c.s.hbmPeek (c.job.image.addr + 0x80 + 8 * i) 8
  (rd e 0 1 % 4, BitVec.ofNat 16 (rd e 1 2))
/-- The key that an IN term presents for a row; none where an operand is null. -/
def UnitCtx.inKey (c : UnitCtx) (l t : Nat) (r : QRow) : Option (BitVec 128) :=
  let f := fun off n => c.tile l (0x40 + 32 * t + off) n
  let a := c.cell r (f 1 1 % 16)
  let two := bit (f 6 1) 7
  let b := c.cell r (f 1 1 / 16)
  if a.n || (two && b.n) then none
  else some (BitVec.ofNat 128 (a.v.toNat + if two then b.v.toNat * 2 ^ 64 else 0))
/-- Terms of a FILT tile that are enabled. -/
def UnitCtx.terms (c : UnitCtx) (l : Nat) : List Nat := (upTo 16).filter (fun t => bit (c.tile l (0x40 + 32 * t) 1) 7)
def UnitCtx.isIn (c : UnitCtx) (l t : Nat) : Bool := c.tile l (0x40 + 32 * t + 2) 1 % 4 == 2

/-- Result of term `t` of FILT tile `l` on a row. -/
def UnitCtx.term (c : UnitCtx) (l t : Nat) (r : QRow) : Option Bool :=
  let f := fun off n => c.tile l (0x40 + 32 * t + off) n
  let op := f 0 1 % 32
  let form := f 2 1
  let a := c.cell r (f 1 1 % 16)
  let ta := f 3 1 % 16
  let tb := f 3 1 / 16
  let k := fun off => BitVec.ofNat 64 (c.pb (c.constA l (f off 4)) 8)
  let open_ := some (bit (c.free 2 1) 0)
  let res : Option Bool :=
    if op = 7 then some a.n
    else if op = 8 then some (!a.n)
    else if form % 4 = 2 then
      match c.inKey l t r with
      | none => none
      | some key =>
        let (u, tag) := c.amuRef (f 6 1 % 4)
        if ((c.s.amu u).match? tag key).isSome then some true else if bit form 3 then none else some false
    else if a.n then none
    else if form % 4 = 1 then
      let b := c.cell r (f 1 1 / 16)
      if b.n then none
      else if op ≤ 5 ∧ cmpDefined op ta tb then some (cmpOp op (cmpLanes ta (f 4 1) a.v tb (f 5 1) b.v)) else open_
    else if op ≤ 5 then
      (if cmpDefined op ta tb then some (cmpOp op (cmpLanes ta (f 4 1) a.v tb (f 5 1) (k 8))) else open_)
    else if op = 6 then
      (if cmpDefined 2 ta tb then
        some (cmpOp 5 (cmpLanes ta (f 4 1) a.v tb (f 5 1) (k 8)) && cmpOp 3 (cmpLanes ta (f 4 1) a.v tb (f 5 1) (k 12)))
      else open_)
    else if op = 9 ∧ ta ≤ 7 then some (decide ((a.v &&& k 8) ≠ 0))
    else if op = 10 ∧ ta ≤ 7 then some (decide ((a.v &&& k 8) = k 8))
    else open_
  if bit form 2 then res.map (!·) else res

/-- The tile's result for a row (R197). -/
def UnitCtx.filt (c : UnitCtx) (l : Nat) (r : QRow) : QRow :=
  let ts := c.terms l
  let clause := fun t => fld (c.tile l (0x40 + 32 * t + 2) 1) 4 3
  let dnf := c.tile l 1 1 == 1
  let groups := ((upTo 8).map (fun q => ts.filter (fun t => clause t == q))).filter (fun g => !g.isEmpty)
  let res := if dnf then
      groups.foldl (fun a g => tri3Or a (g.foldl (fun x t => tri3And x (c.term l t r)) (some true))) (some false)
    else groups.foldl (fun a g => tri3And a (g.foldl (fun x t => tri3Or x (c.term l t r)) (some false))) (some true)
  let res := if ts.isEmpty then some true else res
  { r with k := r.k && res == some true }

/-! ## HASH (R199–R201) -/

def UnitCtx.hashRow (c : UnitCtx) (l : Nat) (r : QRow) : QRow :=
  let key := c.pl.bytes (tileA l + 0x40) 16
  let cols := (upTo 4).filter (fun i => bit (c.tile l (0x50 + 8 * i) 1) 7)
  let lanes := cols.map (fun i => (i, c.cell r (c.tile l (0x50 + 8 * i) 1 % 16)))
  let msg := lanes.flatMap (fun x => if x.2.n then zeros 8 else toLe 8 x.2.v.toNat)
  let nb := lanes.foldl (fun m x => m + b2n x.2.n * 2 ^ x.1) 0
  { r with cells := r.cells ++ [Cell.ofBits (sipHash key (msg ++ [BitVec.ofNat 8 nb]))] }
/-- Partition, tile and bucket of a hash (R200). -/
def partOf (h : DWord) (m : Nat) : Nat := h.toNat * m / 2 ^ 64
def tileOf (h : DWord) (n : Nat) : Nat := fld h.toNat 32 16 * n / 65536
def bucketOf (h : DWord) (bbits : Nat) : Nat := h.toNat % 2 ^ bbits

end Sys2Proof.Machine
end

