-- ==== Sys2Proof/Machine/Relate.lean ====
section
/-! DEFINITION. What a field's tiles do to many rows: JOIN, SORT and AGGR. A list `ts` of tiles that share one configuration acts
as one tile (R184): hash h goes to the tile t(h, n) of the n in the list (R200, R202–R217). -/

namespace Sys2Proof.Machine

/-- The tile whose block configures a list of tiles of one configuration. -/
def headTile (ts : List Nat) : Nat := ts.headD 0

/-! ## JOIN (R202–R206) -/

/-- A filled slot: hash, keys, payload, build row index, and whether its build row was still kept. -/
structure JSlot where
  h : DWord
  keys : List DWord
  pay : List Cell
  ix : Nat
  k : Bool
deriving DecidableEq, Repr
/-- A slot's words: the hash, the keys, the payload, and the tag word with the row index in [47:0] and the payload's N bits in
[62:56] (R203). -/
def JSlot.bytes (x : JSlot) : Bytes :=
  toLe 8 x.h.toNat ++ x.keys.flatMap (fun k => toLe 8 k.toNat) ++ x.pay.flatMap (fun p => toLe 8 p.v.toNat) ++
    toLe 8 (x.ix % 2 ^ 48 + sumL ((x.pay.zipIdx).map (fun e => b2n e.1.n * 2 ^ (56 + e.2))))
/-- A pending row: the probe row, its index, and M (R205). -/
structure JPend where
  row : QRow
  ix : Nat
  m : Bool
deriving DecidableEq, Repr
/-- A pending row's words: its lanes, a word of their N bits, and the tag word with 1 in bit 63 and M in bit 56 (R206; log entry
99). -/
def JPend.bytes (x : JPend) : Bytes :=
  x.row.cells.flatMap (fun k => toLe 8 k.v.toNat) ++
    toLe 8 (sumL ((x.row.cells.zipIdx).map (fun e => b2n e.1.n * 2 ^ e.2))) ++
    toLe 8 (x.ix % 2 ^ 48 + b2n x.m * 2 ^ 56 + 2 ^ 63)

/-- The JOIN kind area (Table 8.7). -/
structure JoinCfg where
  merge : Bool
  type : Nat
  bbits : Nat
  keyw : Nat
  payw : Nat
  hash : Nat
  side : Nat
  omax : Nat
  ovf : Nat
def UnitCtx.joinCfg (c : UnitCtx) (l : Nat) : JoinCfg :=
  let f := fun off n => c.tile l off n
  { merge := f 0x40 1 % 4 == 1, type := fld (f 0x40 1) 4 2, bbits := f 0x41 1, keyw := f 0x42 1 % 8, payw := fld (f 0x42 1) 4 3
    hash := f 0x43 1 % 16, side := f 0x43 1 / 16, omax := f 0x50 8, ovf := f 0x58 8 }
def UnitCtx.joinKeys (c : UnitCtx) (l : Nat) (r : QRow) : List Cell :=
  (upTo (c.joinCfg l).keyw).map (fun i => c.cell r (c.tile l (0x44 + i) 1 % 16))
def UnitCtx.joinPays (c : UnitCtx) (l : Nat) (r : QRow) : List Cell :=
  (upTo (c.joinCfg l).payw).map (fun i => c.cell r (c.tile l (0x48 + i) 1 % 16))
/-- Words s of a slot (R203). -/
def UnitCtx.slotWords (c : UnitCtx) (l : Nat) : Nat := 2 + (c.joinCfg l).keyw + (c.joinCfg l).payw

/-- Result of the build and probe passes: output rows, overflow rows, pending rows. -/
structure JoinOut where
  rows : List QRow
  over_ : List JSlot
  pend : List JPend
/-- Bucket of a hash, by tile of `n` and bucket. -/
def joinBucket (n bbits : Nat) (h : DWord) : Nat := tileOf h n * 2 ^ 16 + bucketOf h bbits
/-- The bucket tables that the build rows give, and the overflow list in order of arrival (R204). -/
def UnitCtx.buildTable (c : UnitCtx) (ts : List Nat) (build : List (QRow × Nat)) : SMap (List JSlot) × List JSlot :=
  let l := headTile ts
  let g := c.joinCfg l
  build.foldl (fun a x =>
    let keys := c.joinKeys l x.1
    if keys.any (·.n) then a else
    let h := (c.cell x.1 g.hash).v
    let slot : JSlot := { h, keys := keys.map (·.v), pay := c.joinPays l x.1, ix := x.2, k := x.1.k }
    let b := joinBucket ts.length g.bbits h
    let old := mget (fun _ => []) a.1 b
    if old.length < 8 then (mput (fun _ => []) a.1 b (old ++ [slot]), a.2) else (a.1, a.2 ++ [slot])) ([], [])
/-- One probe row: the rows that it emits, and the pending row that it leaves (Table 8.8). A joined row is kept while both its
rows are (log entry 58). -/
def UnitCtx.probeRow (c : UnitCtx) (ts : List Nat) (table : SMap (List JSlot)) (spills : List JSlot) (x : QRow × Nat) :
    List QRow × List JPend :=
  let l := headTile ts
  let g := c.joinCfg l
  let r := x.1
  let keys := c.joinKeys l r
  let h := (c.cell r g.hash).v
  let bucket := joinBucket ts.length g.bbits h
  let alone := [{ r with cells := r.cells ++ List.replicate g.payw Cell.null }]
  if keys.any (·.n) then ((if g.type = 1 then alone else if g.type = 3 then [r] else []), [])
  else
    let ms := (mget (fun _ => []) table bucket).filter (fun e => e.h == h && e.keys == keys.map (·.v))
    let spill := spills.any (fun e => joinBucket ts.length g.bbits e.h == bucket)
    let pend := fun (m : Bool) => if spill then [{ row := r, ix := x.2, m : JPend }] else []
    if !ms.isEmpty then
      (if g.type ≤ 1 then (ms.map (fun e => { cells := r.cells ++ e.pay, k := r.k && e.k }), pend true)
       else if g.type = 2 then ([{ r with k := r.k && ms.any (·.k) }], []) else ([], []))
    else if spill then ([], pend false)
    else ((if g.type = 1 then alone else if g.type = 3 then [r] else []), [])
/-- Build and probe (ROLE 0): side 0 rows build, the others probe, in order. -/
def UnitCtx.join (c : UnitCtx) (ts : List Nat) (input : List QRow) : JoinOut :=
  let g := c.joinCfg (headTile ts)
  let isBuild := fun (x : QRow × Nat) => (c.cell x.1 g.side).v == 0
  let (table, spills) := c.buildTable ts (input.zipIdx.filter isBuild)
  let outs := (input.zipIdx.filter (fun x => !isBuild x)).map (c.probeRow ts table spills)
  { rows := outs.flatMap (·.1), over_ := spills, pend := outs.flatMap (·.2) }
/-- Overflow merge (ROLE 1, R206): the side lane is the tag word, whose bit 63 tells a pending row. Each pending row is decided
against the overflow rows of its hash. -/
def UnitCtx.joinMerge (c : UnitCtx) (l : Nat) (input : List QRow) : List QRow :=
  let g := c.joinCfg l
  let tag := fun r => (c.cell r g.side).v.toNat
  let overs := input.filter (fun r => !bit (tag r) 63)
  (input.filter (fun r => bit (tag r) 63)).flatMap (fun r =>
    let ms := overs.filter (fun o => (c.cell o g.hash).v == (c.cell r g.hash).v && sameCells (c.joinKeys l o) (c.joinKeys l r))
    let pays := fun o => ((c.joinPays l o).zipIdx).map (fun e => { e.1 with n := e.1.n || bit (tag o) (56 + e.2) })
    if g.type ≤ 1 then
      if !ms.isEmpty then ms.map (fun o => { cells := r.cells ++ pays o, k := r.k && o.k })
      else if g.type = 1 ∧ ¬ bit (tag r) 56 then [{ r with cells := r.cells ++ List.replicate g.payw Cell.null }] else []
    else if (g.type = 2) = !ms.isEmpty then [r] else [])

/-! ## SORT (R97, R207–R209) -/

def UnitCtx.sortKeys (c : UnitCtx) (l : Nat) : List Nat := (upTo 4).filter (fun i => bit (c.tile l (0x40 + 16 * i) 1) 7)
def UnitCtx.sortCell (c : UnitCtx) (l i : Nat) (r : QRow) : Cell := c.cell r (c.tile l (0x40 + 16 * i) 1 % 16)
def UnitCtx.sortPass (c : UnitCtx) (l : Nat) : Nat := max 1 (c.tile l 0x80 1)
/-- The 65-bit order word of key `i`. -/
def UnitCtx.orderWord (c : UnitCtx) (l i : Nat) (r : QRow) : Nat :=
  let f := fun off => c.tile l (0x40 + 16 * i + off) 1
  let x := c.sortCell l i r
  let w := if signedType (f 1 % 16) then x.v ^^^ 0x8000000000000000#64 else x.v
  let w := if bit (f 2) 0 then ~~~w else w
  let last := bit (f 2) 1
  w.toNat + (if x.n == last then 2 ^ 64 else 0)
def listLt : List Nat → List Nat → Bool
  | a :: as, b :: bs => if a = b then listLt as bs else decide (a < b)
  | _, _ => false
/-- The row-index word of a row: its position in the first pass; a later pass and a split stage find it in the last stream of
rows of k + 1 streams (R97; log entry 102). -/
def UnitCtx.rowIndex (c : UnitCtx) (l : Nat) (x : QRow × Nat) : Nat :=
  let k := (c.sortKeys l).length
  if (c.sortPass l ≥ 2 ∨ c.tile l 0x81 1 = 1) ∧ x.1.cells.length = k + 1 then (c.cell x.1 k).v.toNat else x.2
/-- Rows in key order, ties by row index. -/
def UnitCtx.inOrder (c : UnitCtx) (l : Nat) (rows : List (QRow × Nat)) : List (QRow × Nat) :=
  let word := fun x => (c.sortKeys l).map (fun i => c.orderWord l i x.1) ++ [c.rowIndex l x]
  (sortBy (fun a b => listLt a.1 b.1) (rows.map (fun x => (word x, x)))).map (·.2)
/-- Output of the SORT tiles: the runs that pass PASS leaves, of 4,096 × 16^(PASS − 1) rows each (R97); of a final merge in
ranges, the rows of range p on the p-th field (R209). -/
def UnitCtx.sortRows (c : UnitCtx) (ts : List Nat) (input : List QRow) : List QRow :=
  let l := headTile ts
  let n := input.length
  let run := 4096 * 16 ^ (c.sortPass l - 1)
  let q := c.tile l 0x82 1
  let sorted := ((chunks run (n + 1) input.zipIdx).flatMap (c.inOrder l)).map (·.1)
  if c.tile l 0x81 1 = 1 then input
  else if n ≤ run ∧ q > 1 then (sorted.take ((c.p + 1) * n / q)).drop (c.p * n / q) else sorted
/-- The splitter table of a split stage (R209): for each rank ⌊i n / q⌋ the row's key words, then its row index in [47:0] with the
keys' N bits from bit 48 (log entry 102). -/
def UnitCtx.splitters (c : UnitCtx) (l : Nat) (input : List QRow) : Bytes :=
  let keys := c.sortKeys l
  let sorted := c.inOrder l input.zipIdx
  let q := c.tile l 0x82 1
  ((upTo q).drop 1).flatMap (fun i =>
    match sorted[i * sorted.length / q]? with
    | none => []
    | some x => keys.flatMap (fun k => toLe 8 (c.sortCell l k x.1).v.toNat) ++
        toLe 8 (c.rowIndex l x % 2 ^ 48 + sumL (keys.map (fun k => b2n (c.sortCell l k x.1).n * 2 ^ (48 + k)))))

/-! ## AGGR (R210–R217) -/

/-- One accumulator: 128-bit sum, least or greatest lane, non-null inputs, rows, S, and the null that opposite saturated sums
merge to (R212). -/
structure Acc where
  sum : Int
  best : Option DWord
  count : Nat
  rows : Nat
  sat : Bool
  void : Bool
deriving DecidableEq, Repr
def Acc.init : Acc := { sum := 0, best := none, count := 0, rows := 0, sat := false, void := false }
def sumMax : Int := 2 ^ 127 - 1
def sumMin : Int := -(2 ^ 127 : Int)
/-- COUNT saturates at 2^64 − 1 and sets S (R212). -/
def countMax : Nat := 2 ^ 64 - 1
def UnitCtx.aggs (c : UnitCtx) (l : Nat) : List Nat := (upTo 16).filter (fun i => bit (c.tile l (0x40 + 16 * i) 1) 7)
def UnitCtx.aggF (c : UnitCtx) (l i off : Nat) : Nat := c.tile l (0x40 + 16 * i + off) 1
def UnitCtx.aggFunc (c : UnitCtx) (l i : Nat) : Nat := c.aggF l i 0 % 16
def UnitCtx.aggType (c : UnitCtx) (l i : Nat) : Nat := c.aggF l i 2 % 16
/-- A sum takes one more addend; a saturated one ignores it. -/
def Acc.add (a : Acc) (x : Int) : Acc :=
  if a.sat then a else
  let t := a.sum + x
  if t > sumMax then { a with sum := sumMax, sat := true } else if t < sumMin then { a with sum := sumMin, sat := true }
  else { a with sum := t }
/-- The better of two lanes for MIN (`least`) or MAX of a type. -/
def betterLane (least : Bool) (ty : Nat) (a b : DWord) : DWord :=
  if (if least then laneInt ty b < laneInt ty a else laneInt ty a < laneInt ty b) then b else a
def Acc.take (a : Acc) (least : Bool) (ty : Nat) (x : DWord) : Acc :=
  { a with best := some (match a.best with | none => x | some b => betterLane least ty b x) }
def Acc.counted (a : Acc) (fn n : Nat) : Acc :=
  if a.count + n > countMax then { a with count := countMax, sat := a.sat || fn == 1 } else { a with count := a.count + n }
def Acc.rowed (a : Acc) (fn n : Nat) : Acc :=
  if a.rows + n > countMax then { a with rows := countMax, sat := a.sat || fn == 0 } else { a with rows := a.rows + n }
/-- An accumulator takes one row (R211, R212). -/
def UnitCtx.accStep (c : UnitCtx) (l i : Nat) (a : Acc) (r : QRow) : Acc :=
  let x := c.cell r (c.aggF l i 1 % 16)
  let fn := c.aggFunc l i
  let a := a.rowed fn 1
  if x.n ∨ (a.sat ∧ (fn = 2 ∨ fn = 5)) then a else
  let a := a.counted fn 1
  match fn with
  | 3 => a.take true (c.aggType l i) x.v
  | 4 => a.take false (c.aggType l i) x.v
  | 2 => a.add (laneInt (c.aggType l i) x.v * (10 ^ (c.aggF l i 4 - c.aggF l i 3) : Nat))
  | 5 => a.add (laneInt (c.aggType l i) x.v * (10 ^ (c.aggF l i 4 - c.aggF l i 3) : Nat))
  | _ => a
/-- Two sums with their counts merge (R212). -/
def Acc.mergeSum (a b : Acc) : Acc :=
  if a.sat ∧ b.sat then
    if a.void ∨ b.void ∨ (decide (a.sum < 0) != decide (b.sum < 0)) then { a with void := true } else a
  else if a.sat then a
  else if b.sat then b
  else (a.counted 2 b.count).add b.sum
/-- Two accumulators of aggregate `i` merge. -/
def UnitCtx.accMerge (c : UnitCtx) (l i : Nat) (a b : Acc) : Acc :=
  let fn := c.aggFunc l i
  if fn = 2 ∨ fn = 5 then a.mergeSum b else
  let m := ({ a with sat := a.sat || b.sat }.rowed fn b.rows).counted fn b.count
  match fn, b.best with
  | 3, some x => m.take true (c.aggType l i) x
  | 4, some x => m.take false (c.aggType l i) x
  | _, _ => m

/-- A value as a 64-bit lane, or the limit of its sign; and whether it was limited (R213). -/
def limit64 (v : Int) : Cell × Bool :=
  if v > 2 ^ 63 - 1 then (Cell.of (2 ^ 63 - 1), true)
  else if v < -(2 ^ 63 : Int) then (Cell.of (2 ^ 63), true)
  else (Cell.ofBits (BitVec.ofInt 64 v), false)
/-- Division rounded half away from zero. -/
def divRound (a : Int) (n : Nat) : Int :=
  let q := (2 * a.natAbs + n) / (2 * n)
  if a < 0 then -(q : Int) else q
/-- Result lanes of an accumulator in FINAL and DIRECT modes, and its S (R211–R213, Table 8.9). -/
def UnitCtx.accOut (c : UnitCtx) (l i : Nat) (a : Acc) : List Cell × Bool :=
  let wide := c.aggF l i 5 == 1
  let none_ := a.count = 0 ∨ a.void
  let best := match a.best with | some v => Cell.ofBits v | none => Cell.null
  match c.aggFunc l i with
  | 0 => ([Cell.of a.rows], a.sat)
  | 1 => ([Cell.of a.count], a.sat)
  | 2 =>
    if none_ then (if wide then ([Cell.null, Cell.null], a.sat) else ([Cell.null], a.sat))
    else if wide then
      let w := BitVec.ofInt 128 a.sum
      ([Cell.of (w.toNat % 2 ^ 64), Cell.of (w.toNat / 2 ^ 64)], a.sat)
    else ([(limit64 a.sum).1], a.sat || (limit64 a.sum).2)
  | 3 => ([best], a.sat)
  | 4 => ([best], a.sat)
  | 5 => if none_ then ([Cell.null], a.sat) else
    let x := limit64 (divRound a.sum a.count)
    ([x.1], a.sat || x.2)
  | _ => ([c.junk], false)

/-- A group: hash, keys, accumulators by aggregate. -/
structure Group where
  h : DWord
  keys : List Cell
  accs : List Acc
deriving DecidableEq, Repr
/-- Accumulator words of a function (Table 8.9), and those of an accumulator. -/
def accWords (fn : Nat) : Nat := nth [1, 1, 2, 1, 1, 3] fn 0
def Acc.words (a : Acc) (fn : Nat) : List DWord :=
  let w := BitVec.ofInt 128 a.sum
  match fn with
  | 0 => [BitVec.ofNat 64 a.rows]
  | 1 => [BitVec.ofNat 64 a.count]
  | 2 => [w.setWidth 64, (w >>> 64).setWidth 64]
  | 5 => [w.setWidth 64, (w >>> 64).setWidth 64, BitVec.ofNat 64 a.count]
  | _ => [a.best.getD 0]
/-- An accumulator from its words, seen and S bits. -/
def accOf (fn : Nat) (ws : List DWord) (seen sat : Bool) : Acc :=
  let w := fun i => nth ws i 0#64
  let sum := ((w 1).append (w 0)).toInt
  let void := sat && !seen
  match fn with
  | 0 => { Acc.init with rows := (w 0).toNat, sat }
  | 1 => { Acc.init with count := (w 0).toNat, sat }
  | 2 => { Acc.init with sum, count := b2n (seen || sat), sat, void }
  | 5 => { Acc.init with sum, count := (w 2).toNat, sat, void }
  | _ => { Acc.init with best := if seen then some (w 0) else none, count := b2n seen, sat }
/-- Bits of the flag word of an entry (R215): N of key k in bit k, seen and S of aggregate i in bits 16 + i and 32 + i (log
entry 100). -/
def UnitCtx.flagWord (c : UnitCtx) (l : Nat) (g : Group) : Nat :=
  sumL ((g.keys.zipIdx).map (fun e => b2n e.1.n * 2 ^ e.2)) +
  sumL (List.zipWith (fun i a => b2n (decide (a.count > 0) && !a.void) * 2 ^ (16 + i) + b2n a.sat * 2 ^ (32 + i)) (c.aggs l) g.accs)
/-- A group as a partial: the words of its entry, the hash first, then the keys, the flag word and the accumulators (R215). -/
def UnitCtx.partialOf (c : UnitCtx) (l : Nat) (g : Group) : QRow :=
  { cells := [Cell.ofBits g.h] ++ g.keys ++ [Cell.of (c.flagWord l g)] ++
      (List.zipWith (fun i a => a.words (c.aggFunc l i)) (c.aggs l) g.accs).flatMap (·.map Cell.ofBits)
    k := true }
/-- The group that a row of a partial stands for. -/
def UnitCtx.groupOf (c : UnitCtx) (l : Nat) (r : QRow) : Group :=
  let nkey := c.tile l 0x141 1
  let flags := (c.cell r (1 + nkey)).v.toNat
  let keys := (upTo nkey).map (fun i => { c.cell r (1 + i) with n := bit flags i })
  let accs := ((c.aggs l).foldl (fun (a : List Acc × Nat) i =>
    let n := accWords (c.aggFunc l i)
    (a.1 ++ [accOf (c.aggFunc l i) ((upTo n).map (fun x => (c.cell r (a.2 + x)).v)) (bit flags (16 + i)) (bit flags (32 + i))],
      a.2 + n)) ([], 2 + nkey)).1
  { h := (c.cell r 0).v, keys, accs }
/-- The group that a row starts in PARTIAL and DIRECT modes. -/
def UnitCtx.freshOf (c : UnitCtx) (l : Nat) (r : QRow) : Group :=
  { h := if c.tile l 0x141 1 = 0 then 0 else (c.cell r (c.tile l 0x142 1 % 16)).v
    keys := (upTo (c.tile l 0x141 1)).map (fun i => c.cell r (c.tile l (0x144 + i) 1 % 16))
    accs := (c.aggs l).map (fun i => c.accStep l i Acc.init r) }
def UnitCtx.mergeGroup (c : UnitCtx) (l : Nat) (g x : Group) : Group :=
  { g with accs := List.zipWith (fun i (p : Acc × Acc) => c.accMerge l i p.1 p.2) (c.aggs l) (g.accs.zip x.accs) }
/-- Result of the AGGR tiles: output rows, spilled partials, SAT. -/
structure AggOut where
  rows : List QRow
  spills : List QRow
  sat : Bool
def UnitCtx.aggMode (c : UnitCtx) (l : Nat) : Nat := c.tile l 0x140 1
/-- Words e of a group entry (R215). -/
def UnitCtx.entryWords (c : UnitCtx) (l : Nat) : Nat :=
  2 + c.tile l 0x141 1 + sumL ((c.aggs l).map (fun i => accWords (c.aggFunc l i)))
/-- The group tables after `xs`, by tile and bucket, and the groups that spill, in order of arrival (R215, R216). -/
def UnitCtx.groupTable (c : UnitCtx) (ts : List Nat) (xs : List Group) : SMap (List Group) × List Group :=
  let l := headTile ts
  let scalar := c.tile l 0x141 1 == 0
  xs.foldl (fun a x =>
    let b := if scalar then 0 else joinBucket ts.length (c.tile l 0x143 1) x.h
    let gs := mget (fun _ => []) a.1 b
    if gs.any (fun g => sameCells g.keys x.keys) then
      (mput (fun _ => []) a.1 b (gs.map (fun g => if sameCells g.keys x.keys then c.mergeGroup l g x else g)), a.2)
    else if gs.length < 8 then (mput (fun _ => []) a.1 b (gs ++ [x]), a.2)
    else (a.1, a.2 ++ [x])) ([], [])
/-- Aggregation of a unit (R211, R217): rows with K = 1 only; a scalar aggregate gives exactly one row. -/
def UnitCtx.aggr (c : UnitCtx) (ts : List Nat) (input : List QRow) : AggOut :=
  let l := headTile ts
  let mode := c.aggMode l
  let kept := input.filter (·.k)
  let xs := if mode = 0 ∨ mode = 3 then kept.map (c.freshOf l) else kept.map (c.groupOf l)
  let (table, spills) := c.groupTable ts xs
  let groups := table.flatMap (·.2)
  let groups := if c.tile l 0x141 1 = 0 && groups.isEmpty then
    [{ h := 0, keys := [], accs := (c.aggs l).map (fun _ => Acc.init) }] else groups
  if mode ≥ 2 then
    let outs := groups.map (fun g => (g, List.zipWith (fun i a => c.accOut l i a) (c.aggs l) g.accs))
    { rows := outs.map (fun o => { cells := o.1.keys ++ o.2.flatMap (·.1), k := true })
      spills := spills.map (c.partialOf l), sat := outs.any (fun o => o.2.any (·.2)) }
  else
    { rows := groups.map (c.partialOf l), spills := spills.map (c.partialOf l)
      sat := (groups ++ spills).any (fun g => g.accs.any (·.sat)) }

end Sys2Proof.Machine
end

