-- ==== Sys2Proof/Machine/Routes.lean ====
section
/-! DEFINITION. Routes of a field: tiles that act as one, what each port carries in a unit, and the ring between fields (R15, R108,
R113–R120, R132, R138–R141, R184, R218–R221). -/

namespace Sys2Proof.Machine

/-! ## Tiles of one configuration (R184) -/

/-- Kinds whose tiles share the rows of a stage by hash, rank or partition: JOIN, SORT, AGGR, and MOVE in scatter or exchange. -/
def UnitCtx.pooled (c : UnitCtx) (l : Nat) : Bool :=
  [3, 4, 5].contains (kindOf l) || (kindOf l == 6 && c.tile l 0x40 1 % 2 == 1)
/-- Enabled tiles of `l`'s kind with the same block. -/
def UnitCtx.alike (c : UnitCtx) (l : Nat) : List Nat :=
  match c.tilesOf (kindOf l) with
  | [] => []
  | [x] => [x]
  | ts => let b := c.block l; ts.filter (fun t => t == l || c.block t == b)
/-- The lowest port that carries what `port` carries: several tiles of one configuration give the result of one (log entry 97). -/
def UnitCtx.rep (c : UnitCtx) : Nat → Nat → Nat
  | 0, port => port
  | fuel + 1, port =>
    if port ≥ 40 then port else
    let ts := c.alike port
    if c.pooled port then ts.headD port
    else (ts.find? (fun t => (c.src t).map (c.rep fuel) == (c.src port).map (c.rep fuel))).getD port
/-- Routes have no loops, and no route is longer than the ports of the fields it crosses. -/
def routeFuel : Nat := 49
/-- Tiles that act as one with `l`. -/
def UnitCtx.gang (c : UnitCtx) (l : Nat) : List Nat := if c.pooled l then c.alike l else [l]
/-- Sources of a port: those of every tile that acts as one with it, each once. -/
def UnitCtx.sources (c : UnitCtx) (port : Nat) : List Nat :=
  (((if port < 40 then c.gang port else [port]).filterMap c.src).map (c.rep routeFuel)).eraseDups
/-- One tile for each group of enabled tiles of a kind that act as one. -/
def UnitCtx.heads (c : UnitCtx) (kind : Nat) : List Nat := ((c.tilesOf kind).map (c.rep routeFuel)).eraseDups

/-! ## The ring (R15, R120, R132, R140) -/

/-- The unit on the stage's `p`-th field. -/
def UnitCtx.peer (c : UnitCtx) (p : Nat) : UnitCtx :=
  let x := c.s.field (nth c.fs p 0)
  { c with p, pl := x.plane x.activePlane, seals := x.seals }
/-- Ring route entry `q` (R140). -/
def UnitCtx.route (c : UnitCtx) (q : Nat) : Nat := c.pb (0x100 + 4 * q) 4
/-- Enabled routes of one direction, with the field that each leads to. -/
def UnitCtx.routesOut (c : UnitCtx) (down : Bool) : List (Nat × Nat) :=
  ((upTo 64).filter (fun q => bit (c.route q) 31 && bit (c.route q) 30 == down)).map
    (fun q => (q, mget (fun _ => 16) (c.s.field c.field).ringDest q))
/-- The rows of `rs` that take route `q`, where `n` routes leave in its direction and `q` is the `i`-th: the image names the route
of each flit, and no table says how, so with several routes the choice is free (log entry 98). -/
def UnitCtx.onRoute (c : UnitCtx) (n i : Nat) (rs : List QRow) : List QRow :=
  if n = 1 then rs else
  let w := c.free 7 (8 * rs.length)
  ((rs.zipIdx).filter (fun r => fld w (8 * r.2) 8 % n == i)).map (·.1)
/-- Merge arrivals of several routes: which comes next is free. -/
def mergeRows (w : Nat) : Nat → List (List QRow) → List QRow
  | 0, _ => []
  | fuel + 1, ls =>
    let ls := ls.filter (fun l => !l.isEmpty)
    match ls[fld w (4 * fuel) 4 % max 1 ls.length]? with
    | none => []
    | some l => l.headD { cells := [], k := false } :: mergeRows w fuel (ls.set (fld w (4 * fuel) 4 % max 1 ls.length) (l.drop 1))
/-- Every row of several routes, in an open order where there are several. -/
def UnitCtx.arrive (c : UnitCtx) (ls : List (List QRow)) : List QRow :=
  match ls with
  | [l] => l
  | _ => let n := sumL (ls.map (·.length)); mergeRows (c.free 9 (4 * n)) n ls

/-! ## MOVE (R113, R218–R220) -/

/-- The lanes that a gather appends to a row: ROWW words at the address lane, or the string that a locator names. -/
def UnitCtx.gathered (c : UnitCtx) (l : Nat) (r : QRow) : List Cell :=
  let w := c.tile l 0x44 1
  let a := c.cell r (c.tile l 0x41 1 % 16)
  if a.n then List.replicate (if a.form == .locator then 1 else w) Cell.null
  else if a.form == .locator then
    [{ v := a.v, n := false, form := .text (c.hbm (a.v.toNat % 2 ^ 37) (fld a.v.toNat 37 13)) }]
  else (upTo w).map (fun i => Cell.of (leNat (c.hbm (a.v.toNat % 2 ^ 37 + 8 * i) 8)))

/-! ## What leaves a port -/

/-- What port `port` carries to the input of port `dst` in this unit. `fuel` bounds the length of a route. -/
def UnitCtx.wire : Nat → UnitCtx → Nat → Nat → Wire
  | 0, _, _, _ => .rows []
  | fuel + 1, c, dst, port =>
    let ins := (c.sources port).map (fun q => UnitCtx.wire fuel c port q)
    let rows := ins.flatMap Wire.toRows
    if port < 40 && !c.enabled port then .rows []
    else if port < 8 then (match ins with | w :: _ => .rows (c.scan port w) | [] => .rows [])
    else if port < 16 then .rows (rows.map (c.filt port))
    else if port < 20 then .rows (rows.map (c.hashRow port))
    else if port < 24 then
      .rows (if (c.joinCfg port).merge then c.joinMerge port rows else (c.join (c.gang port) rows).rows)
    else if port < 28 then .rows (c.sortRows (c.gang port) rows)
    else if port < 32 then .rows (c.aggr (c.gang port) rows).rows
    else if port < 36 then
      (match c.tile port 0x40 1 % 4 with
      | 0 => .rows (rows.map (fun r => { r with cells := r.cells ++ c.gathered port r }))
      | 2 => .rows (rows.filter (·.k))
      | _ => .rows [])
    else if port < 40 then
      (match c.feed port with
      | some (e, t) => .blocks ((c.blocks e).map (fun b => (8 * e + b.1, b.2, c.blockData t b.2)))
      | none => (match ins with | w :: _ => w | [] => .rows []))
    else if port < 42 then
      .blocks ((c.blocks (port - 40)).map (fun b => (8 * (port - 40) + b.1, b.2, c.blockData none b.2)))
    else if port < 44 then .rows []
    else if port < 46 then .rows (if (c.banks port).isEmpty ∨ (c.src port).isNone then c.freeRows port else rows)
    else
      let down := port == 47
      let accept := if dst < 40 then c.tile dst 8 8 else 2 ^ 64 - 1
      .rows (c.arrive (((upTo c.fs.length).filter (· ≠ c.p)).flatMap (fun p =>
        let d := c.peer p
        let out := d.routesOut down
        let here := (out.zipIdx).filter (fun e => e.1.2 == c.field && bit accept e.1.1 &&
          (ringPath d.field c.field down).all c.s.ringOn)
        if here.isEmpty || !(c.s.field d.field).active then [] else
        match d.src (if down then 46 else 47) with
        | none => []
        | some q =>
          let sent := (UnitCtx.wire fuel d (if down then 46 else 47) (d.rep routeFuel q)).toRows
          here.map (fun e => d.onRoute out.length e.2 sent))))
/-- What enters port `port`: the beats of its sources. -/
def UnitCtx.wireIn (c : UnitCtx) (port : Nat) : List Wire := (c.sources port).map (fun q => UnitCtx.wire routeFuel c port q)
/-- Rows that enter port `port`. -/
def UnitCtx.input (c : UnitCtx) (port : Nat) : List QRow := (c.wireIn port).flatMap Wire.toRows
/-- Bytes that a ring port moves: 64 for each beat, injected or ejected (R107, R120, R122). -/
def UnitCtx.ringBytes (c : UnitCtx) : Nat :=
  sumL ([46, 47].map (fun p =>
    (if (c.src p).isSome then 64 * (beatsOf (c.input p)).length else 0) +
    (if (upTo 48).any (fun i => c.src i == some p) then
      64 * sumL (((upTo 48).filter (fun i => c.src i == some p)).map (fun i => (beatsOf (UnitCtx.wire routeFuel c i p).toRows).length))
     else 0)))

end Sys2Proof.Machine
end

