-- ==== Sys2Proof/Machine/Limits.lean ====
section
/-! DEFINITION. The unchecked conditions of a query unit: reserved bits of tile blocks, block layouts and operator configurations
beyond their limits, broken image obligations (R7, R114, R139–R141, R158, R164, R165, R183, R186, R191, R194–R196, R201, R203, R210,
R212, R215, Tables 6.7 and 25.3). Log entry 26. -/

namespace Sys2Proof.Machine

/-! ## Reserved bits of tile blocks (R7, Tables 6.4, 6.5, 8.3, 8.5, 8.7, 8.10, R201, R207, R210) -/

/-- The mask at an offset, from rows of first offset, last offset and mask; 0 where none covers it. -/
def maskAt (rows : List (Nat × Nat × Nat)) (o : Nat) : Nat :=
  ((rows.find? (fun r => decide (r.1 ≤ o) && decide (o ≤ r.2.1))).map (·.2.2)).getD 0
/-- Bits of byte `o` of the block of a tile of kind `k` that have a meaning. -/
def tileMask (k o : Nat) : Nat :=
  if o < 0x40 then maskAt [(0, 2, 0xFF), (8, 0x17, 0xFF)] o else
  match k with
  | 0 => if o < 0x140 then maskAt [(0, 0, 0x87), (1, 1, 0xFF), (2, 2, 0x3F), (3, 4, 0xFF), (5, 5, 0x0F), (6, 6, 0x07), (8, 0x21, 0xFF),
      (0x28, 0x2F, 0xFF)] ((o - 0x40) % 64) else 0
  | 1 => if o < 0x240 then maskAt [(0, 0, 0x9F), (1, 1, 0xFF), (2, 2, 0x7F), (3, 5, 0xFF), (6, 6, 0x83), (8, 15, 0xFF)] ((o - 0x40) % 32)
      else 0
  | 2 => if o < 0x50 then 0xFF else if o < 0x70 then maskAt [(0, 0, 0x8F)] ((o - 0x50) % 8) else 0
  | 3 => maskAt [(0x40, 0x40, 0x33), (0x41, 0x41, 0xFF), (0x42, 0x42, 0x77), (0x43, 0x43, 0xFF), (0x44, 0x4F, 0x0F), (0x50, 0x5F, 0xFF)] o
  | 4 => if o < 0x80 then maskAt [(0, 0, 0x8F), (1, 1, 0x0F), (2, 2, 0x03)] ((o - 0x40) % 16)
      else maskAt [(0x80, 0x82, 0xFF), (0x88, 0x8F, 0xFF)] o
  | 5 => if o < 0x140 then maskAt [(0, 0, 0x8F), (1, 2, 0x0F), (3, 5, 0xFF)] ((o - 0x40) % 16)
      else maskAt [(0x140, 0x143, 0xFF), (0x144, 0x147, 0x0F), (0x148, 0x157, 0xFF)] o
  | 6 => maskAt [(0x40, 0x40, 0x03), (0x41, 0x41, 0x0F), (0x42, 0x44, 0xFF), (0x48, 0x5F, 0xFF)] o
  | _ => if o < 0x80 then 0xFF else 0
/-- A tile block of the plane has a reserved bit set. -/
def UnitCtx.blocksBad (c : UnitCtx) : Bool :=
  c.pl.data.any (fun e => decide (tileA 0 ≤ e.1) && decide (e.1 < constPool) &&
    (let l := (e.1 - tileA 0) / 0x800
     e.2.toNat &&& tileMask (kindOf l) ((e.1 - tileA 0) % 0x800) != e.2.toNat))

/-! ## Operator limits -/

/-- The value area of a block of `r` rows does not fit (R164), or holds what a decoder cannot take (R165, R186, R190). -/
def UnitCtx.decoderBad (c : UnitCtx) (l : Nat) (w : Wire) (x : Nat × Nat × BEnt) : Bool :=
  let f := fun off n => c.tile l (0x40 + 64 * x.1 + off) n
  let enc := f 0 1 % 8
  let wd := f 1 1
  let ty := f 2 1 % 16
  let out := f 4 1
  let r := x.2.2.rows
  let area := if bit (f 2 1) 4 then cdiv r 512 * 64 else 0
  let data := c.scanData l w x
  let plainW := [8, 16, 32, 64].contains wd
  !x.2.2.clean || decide (r > 65536) || decide (ty ≥ 14) || decide (out > 6) || decide (f 3 1 > 18) || decide (f 0x20 2 > 4096) ||
  (match enc with
  | 0 => !plainW || out != 0 || decide (area + r * wd / 8 > 65536)
  | 1 => decide (wd = 0) || decide (wd > 20) || !([0, 1, 6].contains out) || decide (area + cdiv (r * wd) 8 > 65536) ||
      (out == 0 && (decide (f 0x14 4 = 0) || decide (f 0x10 4 + 8 * f 0x14 4 > c.tile l 0x14 4))) ||
      (upTo r).any (fun i => decide (packed data area wd i ≥ f 0x14 4) && !(bit (f 2 1) 4 && bit (rd data (i / 8) 1) (i % 8)))
  | 2 => !plainW || out != 0 || decide ((runLength data wd 65536 area r).length < r)
  | 3 => decide (wd = 0) || decide (wd > 64) || out != 0 ||
      decide (area + cdiv (r * wd) 8 + (if bit (f 2 1) 5 then 8 else 0) > 65536)
  | 4 => !([2, 3, 4, 5].contains out) || decide (area + 4 * (r + 1) > 65536) ||
      (upTo r).any (fun i =>
        let a := rd data (area + 4 * i) 4
        let b := rd data (area + 4 * i + 4) 4
        decide (b < a) || decide (b - a > 4096) || decide (area + 4 * (r + 1) + b > 65536))
  | _ => true)
def UnitCtx.scanBad (c : UnitCtx) (l : Nat) : Bool :=
  let ds := c.decoders l
  let w := (c.wireIn l).headD (.rows [])
  ds.any (c.decoderBad l w) || ds.any (fun x => ds.any (fun y => x.2.2.rows != y.2.2.rows)) ||
    (c.scan l w).any (fun r => (ds.zipIdx).any (fun d =>
      c.tile l (0x40 + 64 * d.1.1 + 2) 1 % 16 == 10 && (nth r.cells d.2 Cell.null).v.toNat > 1))
def UnitCtx.filtBad (c : UnitCtx) (l : Nat) : Bool :=
  decide (c.tile l 1 1 > 1) || (c.terms l).any (fun t =>
    let f := fun off n => c.tile l (0x40 + 32 * t + off) n
    let op := f 0 1 % 32
    let form := f 2 1 % 4
    decide (op > 11) || form == 3 || (form == 2) != (op == 11) || (form == 1 && [6, 9, 10].contains op) ||
      (decide (op ≤ 6) && !cmpDefined (if op = 6 then 2 else op) (f 3 1 % 16) (f 3 1 / 16)) ||
      ((op == 9 || op == 10) && decide (f 3 1 % 16 > 7)))
def UnitCtx.hashBad (c : UnitCtx) (l : Nat) : Bool := (upTo 4).all (fun i => !bit (c.tile l (0x50 + 8 * i) 1) 7)
/-- A build row after a probe row (R203). -/
def lateBuild (side : QRow → Bool) (rs : List QRow) : Bool :=
  (rs.foldl (fun (a : Bool × Bool) r => if side r then (a.1, a.1 || a.2) else (true, a.2)) (false, false)).2
def UnitCtx.joinBad (c : UnitCtx) (l : Nat) : Bool :=
  let g := c.joinCfg l
  decide (c.tile l 0x40 1 % 4 > 1) || decide (g.bbits = 0) || decide (g.bbits > 15) || decide (g.keyw = 0) || decide (g.keyw > 4) ||
  (c.gang l).any (fun t => decide (2 ^ g.bbits * 64 * c.slotWords l > 131072 * (c.banks t).length)) ||
  (!g.merge && (c.wireIn l).any (fun w => lateBuild (fun r => (c.cell r g.side).v == 0) w.toRows))
def UnitCtx.sortBad (c : UnitCtx) (l : Nat) : Bool :=
  let q := c.tile l 0x82 1
  decide (q = 0) || decide (q > 16) || decide (c.tile l 0x81 1 > 1) || (c.sortKeys l).any (fun i => decide (c.tile l (0x41 + 16 * i) 1 ≥ 14))
def UnitCtx.aggrBad (c : UnitCtx) (l : Nat) : Bool :=
  decide (c.aggMode l > 3) || decide (c.tile l 0x141 1 > 4) || decide (c.tile l 0x143 1 > 15) ||
  (c.gang l).any (fun t => decide (2 ^ c.tile l 0x143 1 * 64 * c.entryWords l > 131072 * (c.banks t).length)) ||
  (c.aggs l).any (fun i => decide (c.aggFunc l i > 5) || decide (c.aggF l i 4 < c.aggF l i 3) || decide (c.aggType l i ≥ 14) ||
    (([3, 4].contains (c.aggFunc l i)) && c.aggType l i == 11))
def UnitCtx.moveBad (c : UnitCtx) (l : Nat) : Bool :=
  let mode := c.tile l 0x40 1 % 4
  let w := c.tile l 0x44 1
  let m := c.tile l 0x42 2
  (mode == 3 && (upTo (min 1024 m)).any (fun d => c.pb (constPool + c.tile l 0x54 4 + 4 * d + 2) 2 != 0)) ||
  (mode % 2 == 1 && (decide (m = 0) || decide (m > 1024))) || (mode != 2 && (decide (w = 0) || decide (w > 16)))
/-- An enabled tile beyond its limits. -/
def UnitCtx.tileBad (c : UnitCtx) (l : Nat) : Bool :=
  let k := kindOf l
  c.tile l 0 1 != k || decide (l - kindBase k ≥ fld (c.pb 8 4) (4 * k) 4) ||
  decide (c.tile l 0x10 4 + c.tile l 0x14 4 > 113664) ||
  (match k with
  | 0 => c.scanBad l
  | 1 => c.filtBad l
  | 2 => c.hashBad l
  | 3 => c.joinBad l
  | 4 => c.sortBad l
  | 5 => c.aggrBad l
  | 6 => c.moveBad l
  | _ => false) ||
  (k < 7 && !(k == 5 && decide (c.aggMode l < 2)) && (UnitCtx.wire routeFuel c 48 l).toRows.any (fun r => decide (r.cells.length > 16)))

/-! ## Routes -/

/-- A crossbar, bank or ring table that breaks its rules (R114, R138–R140). -/
def UnitCtx.tablesBad (c : UnitCtx) : Bool :=
  (upTo 48).any (fun q => decide (((upTo 48).filter (fun p => c.src p == some q)).length > 4)) ||
  (c.src 40).isSome || (c.src 41).isSome ||
  (upTo 48).any (fun p => match c.src p with | some q => decide (q ≥ 48) | none => false) ||
  (upTo 40).any (fun b => let x := c.pb (0x40 + b) 1
    bit x 7 && !((decide (20 ≤ x % 64) && decide (x % 64 < 36)) || x % 64 == 44 || x % 64 == 45)) ||
  (upTo 64).any (fun q => bit (c.route q) 31 &&
    (decide (fld (c.route q) 24 6 < c.v.first) || decide (fld (c.route q) 24 6 ≥ c.v.first + c.v.nfields)))
/-- The unit is under an unchecked condition that its plane or its input shows. -/
def UnitCtx.bad (c : UnitCtx) : Bool := c.blocksBad || c.tablesBad || ((upTo 40).filter c.enabled).any c.tileBad

end Sys2Proof.Machine
end

