-- ==== Sys2Proof/Machine/Exchange.lean ====
section
/-! DEFINITION. Inbound slots of the Commons: where a sender's rows and END counts are written, and the destinations that a
stage's MOVE tiles name (R221, R488, R489). -/

namespace Sys2Proof.Machine

/-! ## Inbound slots -/

def slotA (k : Nat) : Nat := 0xD30000 + 16 * k
def State.slotBase (s : State) (k : Nat) : Nat := s.liveN (slotA k) + 2 ^ 32 * (s.liveN (slotA k + 4) % 32)
def State.slotCap (s : State) (k : Nat) : Nat := s.liveN (slotA k + 8)
/-- Rank of a sender among the members of a part bitmap. -/
def rankIn (members : List Nat) (m : Nat) : Nat := (members.filter (fun x => decide (x < m))).length

/-- Rows of `sender` reach slot `k` at offset `off` of its part (R488). -/
def State.slotRows (s : State) (k : Nat) (members : List Nat) (sender off : Nat) (b : Bytes) : State :=
  let x := s.inSlot k
  if off + b.length > s.slotCap k then s.setInSlot k { x with overflow := true }
  else (s.hbmWrite (s.slotBase k + rankIn members sender * s.slotCap k + off) b).setInSlot k
    { x with got := cadd x.got sender b.length }
/-- The END count of `sender` reaches slot `k`; a listed value is the count plus 1. -/
def State.slotEnd (s : State) (k : Nat) (members : List Nat) (sender count : Nat) : State :=
  let x := s.inSlot k
  (s.hbmWrite (s.slotBase k + members.length * s.slotCap k + 8 * rankIn members sender) (toLe 8 count)).setInSlot k
    { x with ends := cput x.ends sender (count + 1) }
/-- The bytes and END counts of every sender agree, and nothing overflowed (R489). -/
def SlotSt.complete (x : SlotSt) (members : List Nat) : Bool :=
  !x.overflow && members.all (fun m => cget x.ends m == cget x.got m + 1)

/-! ## Destinations -/

/-- Members that hold parts of a job's Commons job; this member alone for another job. -/
def State.partMembers (s : State) (j : Job) : List Nat :=
  match j.part with
  | some p => p.members
  | none => [s.memberIx]
def State.cjobOf (j : Job) : DWord := match j.part with | some p => p.cjob | none => 0
/-- Member and slot of a destination-list entry. -/
def destOf (e : Nat) : Nat × Nat := (e % 1024, fld e 10 6)
/-- Destinations that the exchange tiles of stage `k` name. -/
def State.destsOf (s : State) (j : Job) (k : Nat) : List (Nat × Nat) :=
  if j.opcode ≠ 0x0100 then [] else
  let v := j.stage k
  ((upTo v.nfields).flatMap (fun i =>
    let x := s.sectOf j v i
    let en := rd (s.hbmPeek (x.src + 0x0C) 8) 0 8
    ([32, 33, 34, 35].filter (bit en)).flatMap (fun l =>
      let b := s.hbmPeek (x.src + tileA l + 0x40) 32
      if rd b 0 1 % 4 ≠ 3 then [] else
      (upTo (min 1024 (rd b 2 2))).map (fun d => destOf (rd (s.hbmPeek (x.src + constPool + rd b 0x14 4 + 4 * d) 4) 0 4))))).eraseDups
/-- Slots that stage `k` reads: those in which the stage before it sends rows to this member (DEDUCED, log entry 37). -/
def State.slotsRead (s : State) (j : Job) (k : Nat) : List Nat :=
  if k = 0 then [] else ((s.destsOf j (k - 1)).filter (fun d => d.1 == s.memberIx)).map (·.2)
/-- Slots of this member that stage `k` writes. -/
def State.slotsWritten (s : State) (j : Job) (k : Nat) : List Nat :=
  ((s.destsOf j k).filter (fun d => d.1 == s.memberIx)).map (·.2)

/-- Send rows of a unit to one member's slot: directly when the member is this one, else in frames of at most 8,192 bytes. -/
def State.sendRows (s : State) (id : Nat) (d : Nat × Nat) (rows : Bytes) : State :=
  match s.job? id with
  | none => s
  | some j =>
    let key := d.1 * 64 + d.2
    let members := s.partMembers j
    ((chunks 8192 (rows.length + 1) rows).foldl (fun (a : State × Nat) b =>
      (if d.1 = s.memberIx then a.1.slotRows d.2 members s.memberIx a.2 b
        else a.1.sendFrame false 1 d.1 (State.cjobOf j) d.2 a.2 b, a.2 + b.length)) (s, cget j.sent key)).1.modJob id
      (fun j => { j with sent := cadd j.sent key rows.length })
/-- At the end of stage `k` the part sends END to every destination. -/
def State.sendEnds (s : State) (j : Job) (k : Nat) : State :=
  let ds := s.destsOf j k
  if ds.isEmpty then s else
  (ds.foldl (fun s d =>
    let n := cget j.sent (d.1 * 64 + d.2)
    if d.1 = s.memberIx then s.slotEnd d.2 (s.partMembers j) s.memberIx n
    else s.sendFrame false 2 d.1 (State.cjobOf j) d.2 0 (toLe 8 n ++ zeros 56)) s).modJob j.id (fun j => { j with sent := [] })

end Sys2Proof.Machine
end

