-- ==== Sys2Proof/Machine/Query.lean ====
section
/-! DEFINITION. The end of a query unit on a field: what its tiles read, count and write, and what stops the job (R98, R105,
R106, R112, R113, R124, R125, R166, R171–R177, R204–R206, R209, R214–R221). -/

namespace Sys2Proof.Machine

/-! ## What a unit gives -/

/-- HBM writes outside the egress ports, rows to exchange by destination, and the S and overflow results. `full` marks a
capacity of R98, R216 or R219 that the unit would pass. -/
structure UnitOut where
  writes : List (Nat × Bytes)
  sends : List ((Nat × Nat) × Bytes)
  sat : Bool
  spilled : Bool
  full : Bool
def UnitOut.none : UnitOut := { writes := [], sends := [], sat := false, spilled := false, full := false }

def QRow.bytes (r : QRow) (w : Nat) : Bytes := (upTo w).flatMap (fun i => toLe 8 (nth r.cells i Cell.null).v.toNat)
/-- A write of some bytes; none where there are none. -/
def someWrite (a : Nat) (b : Bytes) : List (Nat × Bytes) := if b.isEmpty then [] else [(a, b)]

/-- Overflow rows and pending rows of the JOIN tiles `c.gang l` (R204, R205). -/
def UnitCtx.joinOut (c : UnitCtx) (l : Nat) : UnitOut :=
  let g := c.joinCfg l
  if g.merge then UnitOut.none else
  let o := c.join (c.gang l) (c.input l)
  let w := 8 * c.slotWords l
  { UnitOut.none with
    writes := someWrite (g.ovf + c.index * g.omax * w) (o.over_.flatMap JSlot.bytes) ++
      someWrite (Config.pendingAddr g.ovf g.omax w c.index) (o.pend.flatMap JPend.bytes)
    spilled := !o.over_.isEmpty, full := decide (o.over_.length > g.omax) }
/-- Spilled partials and saturation of the AGGR tiles `c.gang l` (R214, R216). -/
def UnitCtx.aggrOut (c : UnitCtx) (l : Nat) : UnitOut :=
  let o := c.aggr (c.gang l) (c.input l)
  let e := c.entryWords l
  let most := c.tile l 0x150 8
  { UnitOut.none with
    writes := someWrite (c.tile l 0x148 8 + c.index * most * 8 * e) (o.spills.flatMap (fun r => r.bytes e))
    sat := o.sat, full := decide (o.spills.length > (if c.aggMode l ≥ 2 then 0 else most)) }
/-- Kept rows that MOVE tiles `c.gang l` partition, each with its partition and words (R219, R221). -/
def UnitCtx.parts (c : UnitCtx) (l : Nat) : List (Nat × Bytes) :=
  ((c.input l).filter (·.k)).map (fun r =>
    (partOf (c.cell r (c.tile l 0x41 1 % 16)).v (c.tile l 0x42 2), r.bytes (c.tile l 0x44 1)))
/-- One MOVE tile scatters: the unit's row counts by DEST_ADDR and partition ride along. -/
def UnitCtx.scatter (c : UnitCtx) (a : SMap Nat × UnitOut) (l : Nat) : SMap Nat × UnitOut :=
  let m := c.tile l 0x42 2
  let w := 8 * c.tile l 0x44 1
  let cap := c.tile l 0x50 4
  let dest := c.tile l 0x48 8
  let key := fun p => dest * 65536 + p
  (c.parts l).foldl (fun a r =>
    let i := cget a.1 (key r.1)
    (cadd a.1 (key r.1) 1, { a.2 with
      writes := a.2.writes ++ [(dest + ((c.index * m + r.1) * cap + i) * w, r.2)], full := a.2.full || decide (i ≥ cap) })) a
/-- Scatter of every MOVE tile of the unit, with the count vectors at its end (R219). -/
def UnitCtx.scatterOut (c : UnitCtx) : UnitOut :=
  let ls := (c.heads 6).filter (fun l => c.tile l 0x40 1 % 4 == 1)
  let (counts, o) := ls.foldl c.scatter ([], UnitOut.none)
  { o with writes := o.writes ++ ls.map (fun l =>
      let m := c.tile l 0x42 2
      (c.tile l 0x58 8 + 4 * m * c.index, (upTo m).flatMap (fun p => toLe 4 (cget counts (c.tile l 0x48 8 * 65536 + p))))) }
/-- Exchange of MOVE tile `l`: rows by destination, and the frames of other members in the exchange buffer (R113, R221). -/
def UnitCtx.exchangeOut (c : UnitCtx) (l : Nat) : UnitOut :=
  if c.tile l 0x40 1 % 4 ≠ 3 then UnitOut.none else
  let dest := fun p => destOf (c.pb (constPool + c.tile l 0x54 4 + 4 * p) 4)
  let rows := c.parts l
  let ds := (rows.map (fun r => dest r.1)).eraseDups
  let sends := ds.map (fun d => (d, (rows.filter (fun r => dest r.1 == d)).flatMap (·.2)))
  let frames := (sends.filter (fun d => d.1.1 ≠ c.s.memberIx)).flatMap (fun d => chunks 8192 (d.2.length + 1) d.2)
  { UnitOut.none with
    writes := if frames.isEmpty then [] else someWrite (c.tile l 0x48 8) (Config.exchangeBuffer frames), sends }
/-- Splitter tables of SORT tiles in split mode (R209). -/
def UnitCtx.splitOut (c : UnitCtx) (l : Nat) : UnitOut :=
  if c.tile l 0x81 1 ≠ 1 then UnitOut.none else
  { UnitOut.none with writes := someWrite (c.tile l 0x88 8) (c.splitters l (c.input l)) }
def UnitCtx.out (c : UnitCtx) : UnitOut :=
  let parts := (c.heads 3).map c.joinOut ++ (c.heads 5).map c.aggrOut ++ [c.scatterOut] ++ (c.heads 6).map c.exchangeOut ++
    (c.heads 4).map c.splitOut
  { writes := parts.flatMap (·.writes), sends := parts.flatMap (·.sends)
    sat := parts.any (·.sat), spilled := parts.any (·.spilled), full := parts.any (·.full) }

/-! ## Reads and counts -/

/-- Block lists in HBM: the entries that the unit's streams read, inward and outward (R170). -/
def UnitCtx.listReads (c : UnitCtx) : List (Nat × Nat) :=
  (upTo 4).flatMap (fun e => (upTo 8).filterMap (fun l => match c.listAt e l with
    | some (.hbm a) => some (a + 32 * c.index, 32)
    | _ => none))
/-- Addresses and lengths that the ingress engines and the gathers read (R106, R170, R220). -/
def UnitCtx.reads (c : UnitCtx) : List (Nat × Nat) :=
  let blocks := (upTo 2).flatMap (fun e => (c.blocks e).map (fun b => (b.2.addr, 65568)))
  let gathers := ((c.tilesOf 6).filter (fun l => c.tile l 0x40 1 % 4 == 0)).flatMap (fun l =>
    ((c.input l).map (fun r => c.cell r (c.tile l 0x41 1 % 16))).filter (fun a => !a.n) |>.map (fun a =>
      (a.v.toNat % 2 ^ 37, if a.form == .locator then fld a.v.toNat 37 13 else 8 * c.tile l 0x44 1)))
  c.listReads ++ blocks ++ gathers
/-- The lookahead of a unit: its block list entries, and the first 32 KiB of each ingress engine's blocks (R125). -/
def UnitCtx.lookaheadReads (c : UnitCtx) : List (Nat × Nat) :=
  c.listReads ++ (upTo 2).filterMap (fun e => (c.blocks e).head?.map (fun b => (b.2.addr, 32768)))
/-- The lookahead buffers hold this unit's data. -/
def UnitCtx.ahead (c : UnitCtx) : Bool :=
  let x := (c.s.field c.field).ahead
  x.unit == c.u && x.job == c.job.id && !x.data.isEmpty
/-- Reads that the lookahead has not made. -/
def UnitCtx.restReads (c : UnitCtx) : List (Nat × Nat) :=
  if !c.ahead then c.reads else
  (c.reads.map (fun r => match (c.s.field c.field).ahead.data.find? (fun d => d.1 == r.1) with
    | some d => (r.1 + d.2.length, r.2 - d.2.length)
    | none => r)).filter (fun r => decide (r.2 > 0))
def readBytes (rs : List (Nat × Nat)) : Nat := sumL (rs.map (·.2))
/-- The first `n` bytes of a sequence of reads. -/
def readPrefix : Nat → List (Nat × Nat) → List (Nat × Nat)
  | _, [] => []
  | n, r :: rs => if n = 0 then [] else (r.1, min n r.2) :: readPrefix (n - min n r.2) rs
/-- The requests of reads whose bytes are taken elsewhere. -/
def State.touch (s : State) (rs : List (Nat × Nat)) : State := rs.foldl (fun s r => (s.hbmRead r.1 r.2).2) s
/-- Keys that the IN terms look up, by AMU (R112, R198). -/
def UnitCtx.lookups (c : UnitCtx) : List (Nat × Nat) :=
  (c.tilesOf 1).flatMap (fun l =>
    let rows := c.input l
    ((c.terms l).filter (c.isIn l)).map (fun t =>
      ((c.amuRef (c.tile l (0x40 + 32 * t + 6) 1 % 4)).1, (rows.filter (fun r => (c.inKey l t r).isSome)).length)))

/-! ## Egress (R176, R220) -/

/-- Egress engines in use, each with the SEAL tile that feeds it. -/
def UnitCtx.egress (c : UnitCtx) : List (Nat × Option SealTile) :=
  [2, 3].filterMap (fun e => (c.src (40 + e)).map (fun q => (e, (c.sealOf q).filter (fun t => decide (t.use ≥ 3)))))
/-- A column of strings in encoding 4: offsets, then the heap (R220, Table 7.3). -/
def textLayout (strs : List Bytes) : Bytes :=
  let offs := strs.foldl (fun (a : List Nat × Nat) x => (a.1 ++ [a.2 + x.length], a.2 + x.length)) ([0], 0)
  offs.1.flatMap (toLe 4) ++ strs.flatMap id
/-- Bytes that output list `l` (the `i`-th in use) of engine `e` takes from what reaches the engine. -/
def UnitCtx.outData (c : UnitCtx) (e l i : Nat) : Bytes :=
  match c.wireIn (40 + e) with
  | [.blocks bs] => match bs[i]? with | some b => b.2.2 | none => []
  | ws =>
    let rs := ws.flatMap Wire.toRows
    let n := streamsOf rs
    let k := Config.egressStream e l n % max 1 n
    let col := rs.map (fun r => nth r.cells k Cell.null)
    if col.any (fun x => match x.form with | .text _ => true | _ => false) then
      textLayout (col.map (fun x => match x.form with | .text b => b | _ => []))
    else Config.egressLayout e l ((beatsOf rs).map Beat.bits)
/-- BLOCK_ID of a sealed block: the value of the tile's block-ID source lane in the first row that reaches the tile (R176); free
where no row reaches it. -/
def UnitCtx.blockId (c : UnitCtx) (t : SealTile) (l : Nat) : DWord :=
  let k := Config.sealIdStream (c.pl.bytes (tileA (36 + t.tile) + 0x40) 64)
  match c.wireIn (36 + t.tile) with
  | [.rows (r :: _)] => match r.cells[k]? with | some x => x.v | none => BitVec.ofNat 64 (c.free (112 + l) 64)
  | _ => BitVec.ofNat 64 (c.free (112 + l) 64)
/-- A sealed block: data area and trailer (Table 7.1, R160). -/
def sealedBlock (key : Bytes) (gcm : Bool) (ver id : DWord) (data : Bytes) : Bytes :=
  let tail := toLe 8 ver.toNat ++ toLe 8 id.toNat
  if gcm then
    let (ct, tag) := gcmSeal key (sealIv ver id) tail data
    ct ++ tag ++ tail
  else data ++ gmac key (sealIv ver id) (data ++ tail) ++ tail
/-- VERSION of the next block sealed under slot `n` (R166); none while no durable value remains. -/
def State.nextVersion (s : State) (n : Nat) : Option (DWord × State) :=
  (s.drawVersion n).map (fun r => (BitVec.ofNat 64 (s.sealer % 65536 * 2 ^ 48 + r.1 % 2 ^ 48), r.2))
/-- Blocks that egress engine `e` writes, in list order; none while a SEAL tile waits for a version (R167). -/
def UnitCtx.egressBlocks (c : UnitCtx) (t : Option SealTile) (e : Nat) : List ((Nat × BEnt) × Nat) → State →
    Option (List (Nat × Bytes) × State)
  | [], s => some ([], s)
  | ((l, b), i) :: rest, s =>
    match t with
    | some t =>
      match s.nextVersion t.slot with
      | none => none
      | some (ver, s) =>
        let x := sealedBlock t.key (t.use == 3) ver (c.blockId t l) (fitB (c.outData e l i) 65536)
        (c.egressBlocks (some t) e rest s).map (fun r => ((b.addr, x) :: r.1, r.2))
    | none => (c.egressBlocks none e rest s).map (fun r => (someWrite b.addr (c.outData e l i) ++ r.1, r.2))
/-- Everything the egress ports write. -/
def UnitCtx.egressAll (c : UnitCtx) : List (Nat × Option SealTile) → State → Option (List (Nat × Bytes) × State)
  | [], s => some ([], s)
  | (e, t) :: rest, s =>
    match c.egressBlocks t e ((c.blocks e).zipIdx) s with
    | none => none
    | some (w, s) => (c.egressAll rest s).map (fun r => (w ++ r.1, r.2))

/-! ## Stops (R171, R172, R175) -/

/-- A SEAL tile marked refused that the unit reaches. -/
def UnitCtx.meetsRefused (c : UnitCtx) : Bool :=
  c.seals.any (fun t => t.refused && c.enabled (36 + t.tile) &&
    (if t.use ≤ 2 then (match c.feed (36 + t.tile) with
        | some (e, _) => !(c.blocks e).isEmpty
        | none => false)
     else c.egress.any (fun x => x.2 == some t && !(c.blocks x.1).isEmpty)))
/-- The first block that fails its check. -/
def UnitCtx.badBlock (c : UnitCtx) : Option BEnt :=
  (c.checked.find? (fun x => !x.1.refused && (c.openBlock x.1 x.2).isNone)).map (·.2)
/-- Status that stops the unit, with the failing block. Where a capacity stop and a tag failure meet, their order in the
unit is free. -/
def UnitCtx.stop (c : UnitCtx) (full : Bool) : Option (Nat × Option BEnt) :=
  if c.meetsRefused then some (0x21, none)
  else match c.badBlock with
    | some b => if full && bit (c.free 4 1) 0 then some (0x08, none) else some (0x24, some b)
    | none => if full then some (0x08, none) else none

/-! ## Writes of a unit -/

def State.writeAll (s : State) (ws : List (Nat × Bytes)) : State := ws.foldl (fun s w => s.hbmWrite w.1 w.2) s
def rangesOf (ws : List (Nat × Bytes)) : List (Nat × Nat) := ws.map (fun w => (w.1, w.2.length))
/-- Ranges that the egress engines of a unit would write; with `data`, the data areas alone. -/
def UnitCtx.outRanges (c : UnitCtx) (data : Bool) : List (Nat × Nat) :=
  c.egress.flatMap (fun e => ((c.blocks e.1).zipIdx).map (fun b => (b.1.2.addr,
    match e.2 with
    | some _ => if data then 65536 else 65568
    | none => (c.outData e.1 b.1.1 b.2).length)))
/-- Record what a unit of a job writes. -/
def State.wrote (s : State) (id : Nat) (dest scratch : List (Nat × Nat)) : State :=
  s.modJob id (fun j => { j with dest := (j.dest ++ dest).eraseDups, scratch := (j.scratch ++ scratch).eraseDups })
/-- The scratch areas of a job that ends with SLICE_OVERRUN hold unpredictable data (R105); those of one that ends with SEAL_MISMATCH or
KEY_UNUSABLE do so with its destination (R172, R175). -/
def State.blurJob (s : State) (id status : Nat) : State :=
  match s.job? id with
  | none => s
  | some j =>
    let s := if status = 0x08 ∨ status = 0x21 ∨ status = 0x24 then s.blur j.scratch else s
    if status = 0x21 ∨ status = 0x24 then s.blur j.dest else s

/-- One unit of a placement ends on its field `pos`. -/
def State.unitDone (s : State) (id seq pos : Nat) : State :=
  s.modJob id (fun j => { j with pls := j.pls.map (fun p =>
    if p.seq = seq then { p with done := modNth p.done pos (· + 1) } else p) })
/-- The overflow stage is released when its join stage left no overflow (R98). -/
def State.dropOverflow (s : State) (j : Job) (k : Nat) : State :=
  if j.opcode = 0x0100 ∧ ¬ j.overflow ∧ rd j.param 0x48 1 = k + 2 then
    let gone := j.pls.filter (fun p => p.stage == k + 1)
    let s := gone.foldl (fun s p =>
      if p.row ≤ s.swnN then s else s.unplace j.inst p.row ((j.stage p.stage).demand p.fields) (p.live - p.ended)) s
    s.modJob j.id (fun j => { j with
      pls := j.pls.filter (fun p => p.stage != k + 1)
      lost := j.lost.filter (fun l => l.stage != k + 1) })
  else s
/-- What the end of a query stage brings: END frames, and the release of an unused overflow stage. -/
def State.stageEnd (s : State) (id k : Nat) : State :=
  match s.job? id with
  | none => s
  | some j => if !j.stageOver k then s else (s.sendEnds j k).dropOverflow j k

/-- Context of unit `u` of stage `k` of a job on the `p`-th of the fields `fs`. -/
def State.unitCtx (s : State) (j : Job) (k p u : Nat) (fs : List Nat) : UnitCtx :=
  let x := s.field (nth fs p 0)
  { s, job := j, v := j.stage k, p, u, fs, pl := x.plane x.activePlane, seals := x.seals, base := s.free }
/-- Fields of a placement of a job. -/
def Job.fieldsOf (j : Job) (seq : Nat) : List Nat := ((j.pls.find? (fun p => p.seq == seq)).map (·.fields)).getD []
/-- Context of the running unit of a slice. -/
def State.sliceCtx (s : State) (j : Job) (sl : Slice) : UnitCtx :=
  s.unitCtx j sl.stage sl.pos (sl.start + sl.done) (j.fieldsOf sl.seq)

/-! ## Counts -/

/-- Counts on the unit's field and on the AMUs: bytes read, bytes written, bytes of the ring. -/
def UnitCtx.counted (c : UnitCtx) (s : State) (reads : List (Nat × Nat)) (keys : Nat → Nat) (egr ring : Nat) : State :=
  let s := s.touch reads
  let s := c.lookups.foldl (fun s e => s.countKeys e.1 (keys e.2)) s
  s.modField c.field (fun x => { x with
    ingNow := x.ingNow + readBytes reads, egrNow := x.egrNow + egr, ringNow := x.ringNow + ring
    busyNow := x.busyNow + c.free 6 22 % (c.v.fieldCc + 1), ahead := Ahead.none
    banks := ((upTo 40).filter (fun t => c.enabled t)).foldl
      (fun m t => (c.banks t).foldl (fun m b => cput m b (c.base + 1023)) m)
      ([44, 45].foldl (fun m p => if (c.src p).isSome then (c.banks p).foldl (fun m b => cput m b (c.base + 1023)) m else m) x.banks) })
/-- A free part of `n`. -/
def UnitCtx.share (c : UnitCtx) (i n : Nat) : Nat := c.free i 64 % (n + 1)
/-- Draw `n` VERSION values under a slot, as far as durable values remain. -/
def State.drawMany (s : State) (slot : Nat) : Nat → State
  | 0 => s
  | n + 1 => match s.nextVersion slot with | some r => r.2.drawMany slot n | none => s
/-- VERSION values that a unit which does not complete has drawn: a free number of those it would draw (R166). -/
def UnitCtx.partDraws (c : UnitCtx) (s : State) : State :=
  c.egress.foldl (fun s e => match e.2 with
    | some t => if t.refused then s else s.drawMany t.slot (c.share (16 + e.1) (c.blocks e.1).length)
    | none => s) s
/-- What a unit that stops before its end has moved: a free part of everything, its drawn versions among it (R106, R125, R166). -/
def UnitCtx.partCounted (c : UnitCtx) (s : State) : State :=
  let s := { s with free := s.free + 1024 }
  let most := sumL ((c.outRanges false).map (·.2)) + sumL (c.out.writes.map (fun w => w.2.length))
  c.partDraws (c.counted s (readPrefix (c.share 10 (readBytes c.restReads)) c.restReads) (c.share 13)
    (c.share 11 most) (c.share 12 c.ringBytes))

/-! ## The unit -/

/-- How a unit ends before its work is done: a cut or a capacity (R98, R105, R216, R219), a failed check or a refused key (R172, R175),
or a fence (R133, R177). -/
inductive Broken where
  | cut
  | failed
  | aborted
deriving DecidableEq, Repr
/-- A query unit that stops before its end. A cut leaves the unit's destination unwritten and its scratch areas free; a failed
check leaves both free; an aborted unit leaves free bytes where it writes, but never a new trailer. -/
def UnitCtx.broken (c : UnitCtx) (s : State) (how : Broken) : State :=
  let s := c.partCounted s
  let scratch := rangesOf c.out.writes
  match how with
  | .cut => (s.blur scratch).wrote c.job.id [] scratch
  | .failed => (s.blur (scratch ++ c.outRanges false)).wrote c.job.id (c.outRanges false) scratch
  | .aborted => s.blur (scratch ++ c.outRanges true)

/-- A query unit: none while it waits for a seal version, else the state, and whether the unit completed. A unit of a job that has
already ended with SLICE_OVERRUN, SEAL_MISMATCH or KEY_UNUSABLE runs to its end, and leaves in its areas what these statuses leave
(R105, R172). -/
def State.queryUnit (s0 : State) (j : Job) (sl : Slice) : Option (State × Bool) :=
  let c := s0.sliceCtx j sl
  let o := c.out
  match c.stop o.full with
  | some (status, bad) =>
    let s := (((c.broken s0 (if status = 0x08 then .cut else .failed)).setStatus j.id status).blurJob j.id status)
    some (match bad with
      | some b => (s.raise (76 + 6 * c.field) (unitCode 2 c.field) b.addr b.id.toNat, false)
      | none => (s, false))
  | none =>
    match c.egressAll c.egress { s0 with free := s0.free + 1024 } with
    | none => none
    | some (ws, s) =>
      let s := c.counted s c.restReads id (sumL ((o.writes ++ ws).map (fun w => w.2.length))) c.ringBytes
      let s := match j.status with
        | some 0x08 => s.blur (rangesOf o.writes)
        | some 0x21 => s.blur (rangesOf (o.writes ++ ws))
        | some 0x24 => s.blur (rangesOf (o.writes ++ ws))
        | _ => s.writeAll (o.writes ++ ws)
      let s := s.wrote j.id (rangesOf ws) (rangesOf o.writes)
      let s := o.sends.foldl (fun s d => s.sendRows j.id d.1 d.2) s
      some (s.modJob j.id (fun j => { j with sat := j.sat || o.sat, overflow := j.overflow || o.spilled }), true)

/-! ## Unchecked conditions of a unit (R124, R173) -/

def meets (a b : List (Nat × Nat)) : Bool := a.any (fun x => b.any (fun y => overlaps (x.1 % 2 ^ 37) x.2 (y.1 % 2 ^ 37) y.2))
/-- Blocks that units of other jobs write in this row. -/
def State.writtenBy (s : State) (id : Nat) : List (Nat × Nat) :=
  s.adm.jobs.flatMap (fun j => if j.id = id ∨ j.recorded ∨ j.opcode ≠ 0x0100 then [] else
    (j.pls.filter (fun p => p.row == s.swnN)).flatMap (fun p => (upTo p.fields.length).flatMap (fun i =>
      if !(s.field (nth p.fields i 0)).active then [] else
      (upTo p.count).flatMap (fun u =>
        let c := s.unitCtx j p.stage i (p.start + u) p.fields
        c.egress.flatMap (fun e => (c.blocks e.1).map (fun b => (b.2.addr, 65568)))))))
/-- A unit reads what it writes, or what another job writes in this row. -/
def UnitCtx.readsWritten (c : UnitCtx) : Bool :=
  meets c.reads (rangesOf c.out.writes ++ c.outRanges false) || meets c.reads (c.s.writtenBy c.job.id)

end Sys2Proof.Machine
end

