-- ==== Sys2Proof/Machine/Ingest.lean ====
section
/-! DEFINITION. Signed event ingest: the verify unit, the session unit, and the parse-and-seal unit of the built-in section
(R223–R242). -/

namespace Sys2Proof.Machine

/-! ## Records (R225, R226, R232) -/

/-- A judged record: verdict, TRUNC, header and payload as received. -/
structure IRec where
  verdict : Nat
  trunc : Bool
  header : Bytes
  payload : Bytes
deriving DecidableEq, Repr
def recIdx (h : Bytes) : Nat := rd h 0 4
def recPlen (h : Bytes) : Nat := rd h 4 2
def recEnc (h : Bytes) : Bool := bit (rd h 7 1) 0
def recSeq (h : Bytes) : Nat := rd h 8 8
def recCred (h : Bytes) : Nat := rd h 0x18 8
def credA (param : Bytes) (h : Bytes) : Nat := iTable param + 2048 * recIdx h

/-- Length of PK in a credential table entry. -/
def schemePub (sc : Nat) : Nat := match pset (schemeSet sc) with | some p => p.pub | none => 0
/-- Check 5 (R227): the signature over header and payload; ECDSA takes the SHA-256 digest. -/
def recSigned (sc : Nat) (entry msg sig : Bytes) : Bool :=
  (pkVerify (schemeSet sc) 0 0 (slice entry 0x60 (schemePub sc)) 0 0 [] (if sc = 4 then sha256 msg else msg) sig).getD false
/-- Check 6 (R233): the key of a revocation lookup. -/
def State.revoked (s : State) (param h : Bytes) : Bool :=
  ((s.amu (iAmu param)).match? (BitVec.ofNat 16 (iListTag param)) (BitVec.ofNat 128 (recCred h))).isSome

/-- Read and judge record `i` by checks 1–6 of Table 9.5. -/
def State.judgeRecord (s : State) (param : Bytes) (session : Bool) (i : Nat) : IRec × State :=
  let host := iHost param
  let sc := iScheme param
  let (o, s) := s.memRead host (iOffsets param + 8 * i) 8
  let off := rd o 0 4
  let got := if off ≥ iBlen param then 0 else min (rd o 4 4) (iBlen param - off)
  let (h, s) := s.memRead host (iBatch param + off) (min 32 got)
  if got < 32 then ({ verdict := 1, trunc := false, header := fitB h 32, payload := [] }, s) else
  let declared := 32 + recPlen h + sigLen sc
  let (rest, s) := s.memRead host (iBatch param + off + 32) (min got declared - 32)
  let r : IRec := { verdict := 0, trunc := decide (got > declared), header := h, payload := rest.take (recPlen h) }
  if recIdx h ≥ iTableN param ∨ (if session then recPlen h ≠ 1088 else recPlen h > iMaxp param) ∨
      (recEnc h = true ∧ recPlen h < 16) then ({ r with verdict := 2 }, s)
  else if got < declared then ({ r with verdict := 1 }, s)
  else
    let (e, s) := s.hbmRead (credA param h) 2048
    let s := s.countKeys (iAmu param) 1
    let v := if recCred h ≠ rd e 0x38 8 ∨ sc ≠ rd e 0x40 1 then 3
      else if !recSigned sc e (h ++ r.payload) (slice rest (recPlen h) (sigLen sc)) then 4
      else if s.revoked param h then 5 else 0
    ({ r with verdict := v }, s)
/-- A work record of 64 W bytes: verdict, TRUNC, then header at 16 and payload at 48 (DESIGN CHOICE, log entry 38). -/
def IRec.bytes (r : IRec) (w : Nat) : Bytes :=
  fitB (toLe 1 r.verdict ++ toLe 1 (b2n r.trunc) ++ zeros 14 ++ r.header ++ r.payload) (64 * w)
def workOf (b : Bytes) : IRec :=
  { verdict := rd b 0 1, trunc := bit (rd b 1 1) 0, header := slice b 16 32
    payload := slice b 48 (min (recPlen (slice b 16 32)) (b.length - 48)) }

/-- Unit `i` of the verify stage (R232). -/
def State.ingestVerify (s : State) (j : Job) (i : Nat) : State :=
  let (r, s) := s.judgeRecord j.param false i
  let w := iW j.param
  (s.hbmWrite (iWork j.param + 64 * w * i) (r.bytes w)).modJob j.id (fun j => { j with trunc := j.trunc || r.trunc })

/-! ## Sessions (R239–R242) -/

def wrapIv (idx epoch : Nat) : Bytes := toBe 4 idx ++ toBe 8 epoch
def sessionKey (k : Bytes) (h : Bytes) : Bytes := sha3x256 (ascii "KV6416-SES" ++ k ++ toLe 8 (recCred h) ++ toLe 8 (recSeq h))
/-- Unit `i` of INGEST_SESSION; none while no seal version is durable (R167). -/
def State.sessionUnit (s : State) (j : Job) (i : Nat) : Option State :=
  let ks := iKeySlot j.param
  let ws := iWrapSlot j.param
  let sc := (s.cellCheck ks j.inst polKem).cellCheck ws j.inst (polWrap + polSeal)
  match s.keyFor ks j.inst polKem, s.keyFor ws j.inst (polWrap + polSeal) with
  | some kem, some wrap =>
    if kem.type ≠ 0x02 ∨ wrap.type ≠ 0xA1 ∨ wrap.sealOff = true then some (sc.setStatus j.id 0x21) else
    let (r, s1) := s.judgeRecord j.param true i
    let s1 := s1.modJob j.id (fun j => { j with trunc := j.trunc || r.trunc })
    let result := fun (s : State) epoch =>
      s.hbmWrite (iResult j.param + 16 * i) (toLe 1 r.verdict ++ toLe 1 (b2n r.trunc) ++ zeros 6 ++ toLe 8 epoch)
    if r.verdict ≠ 0 then some (result s1 0) else
    match s1.nextVersion ws with
    | none => none
    | some (epoch, s2) =>
      let key := sessionKey (fitB ((pkDecaps 0x02 kem.secret r.payload).getD []) 32) r.header
      let (ct, tag) := gcmSeal wrap.secret (wrapIv (recIdx r.header) epoch.toNat) (toLe 8 (recCred r.header)) key
      some (result (s2.hbmWrite (credA j.param r.header) (ct ++ tag ++ toLe 8 epoch.toNat ++ toLe 8 (recCred r.header))) epoch.toNat)
  | _, _ => some (sc.setStatus j.id 0x21)

/-! ## Parse and seal (R234–R237) -/

/-- Checks 7 and 8: the plaintext, or the verdict. -/
def openEvent (wrap : Bytes) (part : Bytes) (r : IRec) : Except Nat Bytes :=
  if !recEnc r.header then .ok r.payload
  else
    let epoch := rd part 0x30 8
    if epoch = 0 then .error 6 else
    match gcmOpen wrap (wrapIv (recIdx r.header) epoch) (toLe 8 (recCred r.header)) (slice part 0 32) (slice part 32 16) with
    | none => .error 7
    | some k =>
      let n := r.payload.length - 16
      match gcmOpen k (toBe 8 (recSeq r.header) ++ zeros 4) r.header (r.payload.take n) (r.payload.drop n) with
      | none => .error 7
      | some x => .ok x
/-- A column's stored bytes for an event; none where it is null (R235). -/
def columnOf (col : Bytes) (r : IRec) (plain : Bytes) : Option Bytes :=
  let src := if rd col 0 1 = 0 then r.header else plain
  let w := rd col 1 1 / 8
  let off := rd col 4 2
  if off + w > src.length then none else some (slice src off w)
/-- Data area of a block of plain values with nulls (R163, R164). -/
def columnBlock (w : Nat) (vals : List (Option Bytes)) : Bytes :=
  let bits := (vals.zipIdx).foldl (fun m v => if v.1.isNone then m + 2 ^ v.2 else m) 0
  fitB (toLe (cdiv vals.length 512 * 64) bits ++ vals.flatMap (fun v => v.getD (zeros (w / 8)))) 65536
/-- Column entry `c` of the schema. -/
def iCol (param : Bytes) (c : Nat) : Bytes := slice param (128 + 16 + 8 * c) 8

/-- The records of a group with their final verdicts and plaintexts. -/
def State.groupRecords (s : State) (param wrap : Bytes) (g : Nat) : List (IRec × Bytes) :=
  let lo := g * iG param
  ((upTo (min (iG param) (iE param - lo))).map (· + lo)).map (fun i =>
    let r := workOf (s.hbmPeek (iWork param + 64 * iW param * i) (64 * iW param))
    if r.verdict ≠ 0 then (r, []) else
    match openEvent wrap (s.hbmPeek (credA param r.header) 64) r with
    | .ok x => (r, x)
    | .error v => ({ r with verdict := v }, []))
/-- Seal the columns of group `g` in ascending order; none while a SEAL tile waits for a version. -/
def State.sealColumns (param : Bytes) (key : Bytes) (gcm : Bool) (slot g : Nat) (rows : List (IRec × Bytes)) :
    List Nat → State → Option State
  | [], s => some s
  | c :: cs, s =>
    let n := g * iC param + c
    let id := BitVec.ofNat 64 (iBlockId0 param + n)
    if rows.isEmpty then
      let (x, s) := s.drawBytes 16
      State.sealColumns param key gcm slot g rows cs (s.hbmWrite (iBlist param + 32 * n) (zeros 8 ++ x ++ zeros 8))
    else
      match s.nextVersion slot with
      | none => none
      | some (ver, s) =>
        let col := iCol param c
        let data := columnBlock (rd col 1 1) (rows.map (fun r => columnOf col r.1 r.2))
        let addr := iOut param + 65600 * n
        let s := s.hbmWrite addr (sealedBlock key gcm ver id data)
        State.sealColumns param key gcm slot g rows cs
          (s.hbmWrite (iBlist param + 32 * n) (toLe 8 addr ++ toLe 8 id.toNat ++ toLe 8 ver.toNat ++ toLe 4 rows.length ++ zeros 4))
/-- The group's part of the result vector (R237). -/
def groupResults (g : Nat) (recs : List (IRec × Bytes)) : Bytes :=
  (recs.foldl (fun (a : Bytes × Nat) r =>
    let ok := r.1.verdict == 0
    (a.1 ++ toLe 1 r.1.verdict ++ toLe 1 (b2n r.1.trunc) ++ toLe 2 (if ok then a.2 else 0) ++ toLe 4 (if ok then g else 0),
      a.2 + b2n ok)) ([], 0)).1

/-- The group that unit `u` of the parse-and-seal stage takes on the `p`-th field (R236). -/
def ingestGroup (param : Bytes) (p u : Nat) : Nat := u * iNfields param + p
def ingestSealer (seals : List SealTile) : SealTile :=
  match seals.find? (fun t => t.tile == 2) with | some t => t | none => sealTile 2 0 3 none
/-- Addresses and lengths that a group's unit reads: work records, and the credential entries that the check of sessions looks at. -/
def State.ingestReads (s : State) (param : Bytes) (g : Nat) : List (Nat × Nat) :=
  let w := 64 * iW param
  let lo := g * iG param
  let n := min (iG param) (iE param - lo)
  (iWork param + w * lo, w * n) ::
    (((upTo n).map (fun i => workOf (s.hbmPeek (iWork param + w * (lo + i)) w))).filter
      (fun r => r.verdict != 1 && r.verdict != 2)).map (fun r => (credA param r.header, 64))
/-- Bytes that a group's unit writes at most: blocks, list entries and results. -/
def ingestWrites (param : Bytes) (g : Nat) : Nat := (65568 + 32) * iC param + 8 * min (iG param) (iE param - g * iG param)

/-- Unit `u` on the `p`-th field of the parse-and-seal stage: none while it waits. The units of a job that has ended with another
status leave what R238 leaves when it closes. -/
def State.ingestUnit (s : State) (j : Job) (p u f : Nat) : Option (State × Bool) :=
  let param := j.param
  let g := ingestGroup param p u
  let seals := (s.field f).seals
  if g * iG param ≥ iE param then some (s, true)
  else if seals.any (·.refused) then some (s.setStatus j.id 0x21, false)
  else
    let wrap := match seals.find? (fun t => t.tile == 0) with | some t => t.key | none => zeros 32
    let seal_ := ingestSealer seals
    let recs := s.groupRecords param wrap g
    let rows := recs.filter (fun r => r.1.verdict == 0)
    let reads := s.ingestReads param g
    let (busy, s1) := (s.touch reads).draw 22
    match State.sealColumns param seal_.key (seal_.use == 3) seal_.slot g rows (upTo (iC param)) s1 with
    | none => none
    | some s2 =>
      some ((s2.hbmWrite (iResult param + 8 * iG param * g) (groupResults g recs)).modField f (fun x => { x with
        ingNow := x.ingNow + readBytes reads
        egrNow := x.egrNow + (if rows.isEmpty then 32 else 65600) * iC param + 8 * recs.length
        busyNow := x.busyNow + busy % ((j.stage 1).fieldCc + 1) }), true)
/-- A unit of the parse-and-seal stage that stops before its end has read and written a free part of its bytes and drawn a free
number of its versions (R106, R166). An aborted one leaves free bytes in its data areas, its list entries and its results, and no new
trailer (R133, R177). -/
def State.ingestBroken (s : State) (j : Job) (p u f : Nat) (aborted : Bool) : State :=
  let param := j.param
  let g := ingestGroup param p u
  if g * iG param ≥ iE param ∨ (s.field f).seals.any (·.refused) then s else
  let reads := s.ingestReads param g
  let (w, s) := s.draw 192
  let part := readPrefix (fld w 0 64 % (readBytes reads + 1)) reads
  let s := ((s.touch part).drawMany (ingestSealer (s.field f).seals).slot (fld w 64 32 % (iC param + 1))).modField f (fun x => { x with
    ingNow := x.ingNow + readBytes part
    egrNow := x.egrNow + fld w 96 64 % (ingestWrites param g + 1)
    busyNow := x.busyNow + fld w 160 22 % ((j.stage 1).fieldCc + 1) })
  if !aborted then s else
  s.blur ((iResult param + 8 * iG param * g, 8 * min (iG param) (iE param - g * iG param)) ::
    (upTo (iC param)).flatMap (fun c => [(iOut param + 65600 * (g * iC param + c), 65536), (iBlist param + 32 * (g * iC param + c), 32)]))

end Sys2Proof.Machine
end

