-- ==== Sys2Proof/Machine/Units.lean ====
section
/-! DEFINITION. Slices on fields and match units: how one begins, how a unit ends, and how a slice is cut (R59, R105, R119, R172,
R248). -/

namespace Sys2Proof.Machine

/-! ## Slices of a field -/

/-- A slice whose job is gone or has its status does not begin or go on (R172). -/
def State.sliceDead (s : State) (sl : Slice) : Bool :=
  match s.job? sl.job with
  | none => true
  | some j => j.status.isSome
/-- The next slice of field `f` that can run begins: the field records its owner (R119). -/
def State.sliceBegins (s : State) (f : Nat) : State :=
  let live := (s.field f).slices.dropWhile s.sliceDead
  match live with
  | [] => s.modField f (fun x => { x with slices := [], ahead := Ahead.none })
  | sl :: _ => match s.job? sl.job with
    | none => s
    | some j => s.modField f (fun x => { x with
        slices := live, owner := j.inst, clean := false, lookahead := false
        ahead := if x.ahead.job = sl.job ∧ x.ahead.unit = sl.start + sl.done then x.ahead else Ahead.none })
/-- The head slice of field `f` leaves; the next begins. -/
def State.dropSlice (s : State) (f : Nat) : State :=
  (s.modField f (fun x => { x with slices := x.slices.drop 1 })).sliceBegins f
def Slice.next (sl : Slice) : List Slice := if sl.done + 1 < sl.count then [{ sl with done := sl.done + 1 }] else []
/-- One unit of the head slice has ended: the slice goes on, unless that was its last unit or its job has ended (R172). -/
def State.nextUnit (s : State) (f : Nat) : State :=
  match (s.field f).slices with
  | [] => s
  | sl :: rest =>
    if s.sliceDead sl || sl.next.isEmpty then s.dropSlice f
    else s.modField f (fun x => { x with slices := sl.next ++ rest, ahead := Ahead.none })

/-- The running unit of a query slice is under an unchecked condition: its image, its plane, or what it reads (R7, R124, R173). -/
def State.unitBad (s : State) (j : Job) (sl : Slice) (f : Nat) : Bool :=
  if j.opcode ≠ 0x0100 then false else
  let c := s.sliceCtx j sl
  s.imageBad j f || c.bad || c.readsWritten
/-- The effect of the running unit on field `f`; none while it waits for a seal version. -/
def State.fieldUnit (s : State) (j : Job) (sl : Slice) (f : Nat) : Option (State × Bool) :=
  (if j.opcode = 0x0700 then s.ingestUnit j sl.pos (sl.start + sl.done) f
   else s.queryUnit j sl).map (fun x => (s.settle x.1 j (s.unitBad j sl f), x.2))
/-- UNIT_END on field `f`. -/
def State.fieldUnitEnd (s : State) (f : Nat) : State :=
  match (s.field f).slices with
  | [] => s
  | sl :: _ =>
    match s.job? sl.job with
    | none => s.dropSlice f
    | some j =>
      match s.fieldUnit j sl f with
      | none => s
      | some (t, true) => ((t.unitDone sl.job sl.seq sl.pos).stageEnd sl.job sl.stage).nextUnit f
      | some (t, false) => t.dropSlice f

/-! ## Slices of a match unit -/

/-- The `i`-th unit of an AMU_LOOKUP job (R248). -/
def State.lookupUnit (s0 : State) (j : Job) (i : Nat) : State :=
  let s := s0
  let u := dImm0 j.desc % 4
  let tag := BitVec.ofNat 16 (fld (dImm0 j.desc) 16 16)
  let n := min 4096 (dImm0 j.desc / 2 ^ 32 - 4096 * i)
  let (keys, s) := s.hbmRead (dOp j.desc 0 + 65536 * i) (16 * n)
  let x := s.amu u
  s0.settle ((s.hbmWrite (dOp j.desc 1 + 16384 * i)
    ((upTo n).flatMap (fun q => toLe 4 (x.answer tag (BitVec.ofNat 128 (rd keys (16 * q) 16))).toNat))).countKeys u n) j false
/-- UNIT_END on match unit `u`. -/
def State.amuUnitEnd (s : State) (u : Nat) : State :=
  match (s.amu u).slices with
  | [] => s
  | sl :: rest =>
    match s.job? sl.job with
    | none => s.modAmu u (fun x => { x with slices := rest })
    | some j =>
      let t := (s.lookupUnit j (sl.start + sl.done)).unitDone sl.job sl.seq 0
      t.modAmu u (fun x => { x with slices := (if j.status.isSome then [] else sl.next) ++ rest })

/-- UNIT_END (R97, R98, R105, R110, R171–R176, R236, R248). -/
def execUnitEnd (u : UnitRef) (s : State) : Host.Outcome State Fault Refusal :=
  whenRun s (match u with
    | .field f => if s.fieldOn f.val then s.fieldUnitEnd f.val else s
    | .amu a => if s.amuOn a.val then s.amuUnitEnd a.val else s)

/-! ## Cuts (R105) -/

/-- The running unit of a slice on field `f` stops before its end. Where the unit reads a block that fails its check, or a tile that is
refused its key, the stop falls before or after that event by a free bit: before, the unit stops as `how` says; at or after it, the job
ends with the event's status (R172, R174, R175). -/
def State.breakUnit (s : State) (j : Job) (sl : Slice) (f : Nat) (how : Broken) : State :=
  if j.opcode = 0x0700 then s.ingestBroken j sl.pos (sl.start + sl.done) f (how == .aborted) else
  let c := s.sliceCtx j sl
  match c.stop false with
  | none => c.broken s how
  | some (status, bad) =>
    if bit (c.free 8 1) 0 then c.broken s how else
    let s := ((c.broken s .failed).setStatus j.id status).blurJob j.id status
    match bad with
    | some b => s.raise (76 + 6 * f) (unitCode 2 f) b.addr b.id.toNat
    | none => s
/-- The running slice of field `f` is cut: its job ends with SLICE_OVERRUN, unless a failed check has given it a status. -/
def State.cutSlice (s : State) (f : Nat) : State :=
  match (s.field f).slices with
  | [] => s
  | sl :: _ =>
    let s := match s.job? sl.job with
      | none => s
      | some j => ((s.breakUnit j sl f .cut).setStatus sl.job 0x08).blurJob sl.job 0x08
    (s.modField f (fun x => { x with cuts := satInc 32 x.cuts })).dropSlice f
def State.cutLookup (s : State) (u : Nat) : State :=
  match (s.amu u).slices with
  | [] => s
  | sl :: rest => (s.setStatus sl.job 0x08).modAmu u (fun x => { x with slices := rest })
/-- SLICE_CUT. -/
def execSliceCut (u : UnitRef) (s : State) : Host.Outcome State Fault Refusal :=
  whenRun s (match u with
    | .field f => s.cutSlice f.val
    | .amu a => s.cutLookup a.val)

end Sys2Proof.Machine
end

