-- ==== Sys2Proof/Machine/Crypto.lean ====
section
/-! DEFINITION. The operations of the lattice, hash-signature, code and big-number engines: batch entries, input checks, key
loads, results, staged and layered operations, and pooled signing (R265–R301, Tables 11.5–11.8 and 12.2–12.5). -/

namespace Sys2Proof.Machine

/-! ## Input checks (Tables 11.8 and 12.4) -/

/-- The key that a check looks at has been loaded. -/
def OpHeld.hasKey (h : OpHeld) : Bool := h.fail != 0x21 && !h.pub.isEmpty

def pqBad (op : CryptoOp) (set : Nat) (p : PSet) (pub : Nat) (b : Bytes) (h : OpHeld) : Bool :=
  let e := h.entry
  let form := eForm e % 4
  decide (eLen0 e > bMax0 b) || decide (eLen1 e > bMax1 b) || (form == 2 && decide (eCtxLen e > 0)) || form == 3 ||
  (form == 2 && !isMlDsa set) || ((form == 1 || form == 2) && eLen0 e != 64) ||
  (match op with
   | .encaps => eLen1 e != p.pub || (isMlKem set && !kemKeyOk set h.in1)
   | .decaps => eLen0 e != p.out
   | .verify => h.hasKey && (h.pub.length != pub || (isLayered set && !statefulKeyOk set (bLevels b) (bParam b) h.pub h.in1))
   | _ => false)

def bnBad (op : CryptoOp) (set : Nat) (p : PSet) (b : Bytes) (h : OpHeld) : Bool :=
  let e := h.entry
  let form := eForm e % 4
  let l := eLen0 e
  let signing := op == .sign || op == .verify
  decide (l > bMax0 b) || decide (eLen1 e > bMax1 b) ||
  (signing && isRsa set && (decide (form ≥ 2) || eForm e &&& 0xCC != 0 || eHash e == 3 || l != hashLen (eHash e))) ||
  (signing && isEcdsa set && (eForm e &&& 0xCB != 0 || decide (l = 0) || decide (l > 64) || (bit (eForm e) 2 && eHash e == 3))) ||
  (signing && isEddsa set && (eForm e &&& 0xFE != 0 || (form == 1 && l != 64) || decide (l > 2048))) ||
  (!signing && eForm e != 0) ||
  (isRsa set && h.hasKey && (h.pub.length != p.pub || beNat h.pub % 2 == 0 || decide (beNat h.pub < 2 ^ (8 * p.pub - 1)))) ||
  (op == .rsa && (l != p.pub || beNat h.in0 == 0 || (h.hasKey && decide (beNat h.in0 ≥ beNat h.pub)))) ||
  (op == .agree && l != p.pub) ||
  (op == .verify && !isRsa set && h.hasKey && (h.pub.length != p.pub || !pointOk set h.pub))
def opBad (op : CryptoOp) (set : Nat) (p : PSet) (pub : Nat) (b : Bytes) (h : OpHeld) : Bool :=
  if set < 0x60 then pqBad op set p pub b h else bnBad op set p b h

/-! ## One operation -/

/-- What an operation ends with; `key` is the secret key of a keygen. -/
structure OpRes where
  status : Nat
  valid : Bool
  out : Bytes
  key : Bytes
deriving DecidableEq, Repr
def opFail (status : Nat) : OpRes := { status, valid := false, out := [], key := [] }
def opOk (out : Bytes) : OpRes := { status := 0, valid := false, out, key := [] }

/-- The scheme's result on what an operation holds: output and VALID, or ABORTED where the self-check of Table 12.3 fails (R298);
CRYPTO_INPUT where a fixed squeeze does not suffice (R278), or where the shared secret of an agreement is all zero (Table 12.4). -/
def opCompute (op : CryptoOp) (set : Nat) (p : PSet) (det : Bool) (b : Bytes) (h : OpHeld) : OpRes :=
  let form := eForm h.entry % 4
  let hash := eHash h.entry
  match op with
  | .keygen =>
    match pkKeygen set h.secret with
    | none => opFail 0x20
    | some (pub, sec) => if pointOk set pub then { opOk (fitB pub p.pub) with key := fitB sec p.sec } else opFail 0x14
  | .encaps =>
    match pkEncaps set h.in1 h.rnd with
    | none => opFail 0x20
    | some (ct, ss) => opOk (fitB ct p.out ++ fitB ss p.ss)
  | .decaps => match pkDecaps set h.secret h.in0 with | none => opFail 0x20 | some ss => opOk (fitB ss p.ss)
  | .sign =>
    if isSlh set then opOk (fitB (slhSign set h.secret form h.ctx h.in0 h.rnd) p.out)
    else match bnSign set h.secret h.pub form hash det h.ctx h.in0 h.rnd with
      | none => opFail 0x14
      | some y => opOk (fitB y p.out)
  | .verify =>
    match pkVerify set (bLevels b) (bParam b) h.pub form hash h.ctx h.in0 h.in1 with
    | none => opFail 0x20
    | some v => { opOk [] with valid := v }
  | .rsa =>
    let m := rsaPrivate (p.pub / 2) h.secret (beNat h.in0)
    if powMod m (rsaE (p.pub / 2) h.secret) (beNat h.pub) = beNat h.in0 then opOk (toBe p.out m) else opFail 0x14
  | .agree =>
    let z := montMul set h.secret h.in0
    if z = zeros p.out then opFail 0x20 else opOk (fitB z p.out)

/-- An operation that has begun ends: checks in the order of R284 and R299, then the scheme. A keygen whose slot is no longer ARMED in the
projected table discards its key (R341); one that ends OK fills its slot at the next commit step (R276). -/
def State.runOp (s : State) (j : Job) (op : CryptoOp) (set : Nat) (p : PSet) (pub : Nat) (h : OpHeld) : OpRes × State :=
  if h.fail = 0x20 || opBad op set p pub j.param h then (opFail 0x20, s)
  else if h.fail = 0x21 then (opFail 0x21, s)
  else if h.fail ≠ 0 ∧ op = .keygen then (opFail h.fail, s)
  else
    let r := opCompute op set p (s.isDet p.pool h.entry) j.param h
    if r.status = 0x20 then (r, s)
    else if h.fail ≠ 0 then (opFail h.fail, s)
    else if op ≠ .keygen ∨ r.status ≠ 0 then (r, s)
    else if s.armedFor (eSlot h.entry) set j.inst then (r, s.keygenChange (eSlot h.entry) r.key r.out)
    else (opFail 0x21, s)

/-! ## Result entries (R271, R272) -/

def State.bumpPool (s : State) (pool : Nat) (g : PoolCnt → PoolCnt) : State := s.modPool pool g
/-- Count an ended operation; a request that ended with NO_ENTROPY counts at the seedbank too (Table 14.5). -/
def State.opCounted (s : State) (pool c inst status : Nat) : State :=
  let s := if status = 0x13 then s.modSeed (fun b => { b with noEntropy := satInc 32 b.noEntropy }) else s
  let s := s.bumpPool pool (fun x => { x with
    ops := x.ops + 1
    inputErr := if status = 0x20 then satInc 32 x.inputErr else x.inputErr
    selfFail := if status = 0x14 then satInc 32 x.selfFail else x.selfFail })
  if status = 0x14 then s.raise (238 + 3 * c) (unitCode 6 c) 0 inst else s
/-- An entry that does not read OK may give the job's status. -/
def Job.noteEntry (j : Job) (i status : Nat) : Job :=
  if status = 0 then j else
  match j.worst with
  | some w => if i < w.1 then { j with worst := some (i, status) } else j
  | none => { j with worst := some (i, status) }
/-- Write result entry and output of operation `i` together. -/
def State.opResult (s : State) (j : Job) (i attempts : Nat) (e : Bytes) (r : OpRes) : State :=
  let s := if r.out.isEmpty then s else s.memWrite (bHost j.param) (eOut e) r.out
  let s := s.hbmWrite (bResult j.param + 8 * i) (toLe 8 (r.status + 256 * b2n r.valid + 65536 * min 255 attempts))
  s.modJob j.id (fun j => j.noteEntry i r.status)
/-- DONE status of a job whose units have all ended. -/
def Job.endStatus (j : Job) : Nat := if j.budgetOut then 0x23 else match j.worst with | some w => w.2 | none => 0

/-! ## Batches without pooled signing -/

def Job.level (j : Job) (i : Nat) : Nat := cget j.levels i
def State.setLevel (s : State) (id i : Nat) (v : Nat) : State := s.modJob id (fun j => { j with levels := cput j.levels i v })
/-- The last unit of operation `i` ends on core `c`, which holds `h`. -/
def State.finishOp (s : State) (j : Job) (op : CryptoOp) (p : PSet) (pub c i : Nat) (h : OpHeld) : State :=
  let (r, s) := s.runOp j op (bSet j.param) p pub h
  (s.opResult j i 0 h.entry r).opCounted p.pool c j.inst r.status
/-- A unit of a batch other than ML-DSA signing (R273, R282–R284, R300). -/
def State.batchUnit (s : State) (j : Job) (op : CryptoOp) (p : PSet) (c k u : Nat) (h : OpHeld) : State :=
  let set := bSet j.param
  if isLayered set then
    match stateful set (bLevels j.param) (bParam j.param) with
    | none => s
    | some st =>
      let i := u / st.levels
      let n := j.level i + 1
      let s := s.setLevel j.id i n
      if n < st.levels then s else (s.finishOp j op p st.pub c i h).setWork j.id i OpHeld.empty
  else if (op = .sign ∨ op = .rsa) ∧ k + 1 < p.stages then s.carryOut j (bCarry j.param + u * p.cb) p.cb u k h
  else s.finishOp j op p p.pub c u h

/-! ## Pooled signing (R102, R103, R280) -/

def SigSt.init : SigSt := { status := 255, attempts := 0 }
def Job.sign? (j : Job) (i : Nat) : SigSt := mget (fun _ => SigSt.init) j.signs i
def State.setSign (s : State) (id i : Nat) (x : SigSt) : State :=
  s.modJob id (fun j => { j with signs := mput (fun _ => SigSt.init) j.signs i x })
/-- The undecided signature whose turn it is: at or after the cursor, else the first of the next pass. -/
def Job.turnOf (j : Job) (n : Nat) : Option Nat :=
  let open_ := (upTo n).filter (fun i => (j.sign? i).status == 255)
  match open_.find? (fun i => decide (i ≥ j.cursor)) with
  | some i => some i
  | none => open_.head?

/-- What one attempt of a signature ends with. -/
inductive Tried where
  | rejected
  | signed (sig : Bytes)
  | failed (status : Nat)
deriving DecidableEq, Repr
def Attempt.tried : Attempt → Tried
  | .short => .failed 0x20
  | .rejected => .rejected
  | .signed y => .signed y

/-- How a signing job checks, attempts and records its signatures. -/
structure Signer where
  n : Nat
  k : SignK
  /-- The fixed part of signature i on core c: the status that decides it there (R280), 0 for none, and what its attempts work on. -/
  fixed : State → Nat → Nat → Nat × OpHeld × State
  /-- One attempt of signature i, from what its fixed part has left. -/
  try_ : State → Nat → Nat → OpHeld → Tried
  /-- The signature is hedged: an attempt that follows an aborted one takes fresh randomness (R281). -/
  hedged : State → Nat → Bool
  /-- Record signature i: status, attempts used, signature. -/
  note : State → Nat → Nat → Nat → Bytes → State

/-- Signature `i` is decided. -/
def State.decideSign (s : State) (g : Signer) (id c i status attempts : Nat) (sig : Bytes) : State :=
  (((g.note s i status attempts sig).setSign id i { status, attempts }).setWork id i OpHeld.empty).opCounted 0 c 0
    (if status = 0x23 then 0 else status)
/-- The fixed part of signature `i`, unless it has run. -/
def State.fixedPart (s : State) (g : Signer) (id c i : Nat) : State :=
  match s.job? id with
  | none => s
  | some j =>
    if (j.sign? i).status ≠ 255 || !(j.working i).entry.isEmpty then s else
    let (st, h, s) := g.fixed s c i
    if st = 0 then s.setWork id i h else s.decideSign g id c i st 0 []
/-- Randomness for an attempt that follows an aborted one. -/
def State.rehedge (s : State) (g : Signer) (id c i : Nat) (h : OpHeld) : OpHeld × State :=
  if !h.rnd.isEmpty || !g.hedged s i then (h, s) else
  let (b, s) := s.streamBytes (16 + c) 32
  ({ h with rnd := b }, s.setWork id i { h with rnd := b })
/-- Deal the next attempt to core `c`: signatures that their fixed part decides are passed over. -/
def State.deal (g : Signer) (id c : Nat) : Nat → State → State
  | 0, s => s
  | fuel + 1, s =>
    match (s.job? id).bind (fun j => (j.turnOf g.n).map (fun i => (j, i))) with
    | none => s
    | some (_, i) =>
      let s := s.fixedPart g id c i
      match s.job? id with
      | none => s
      | some j =>
        if (j.sign? i).status ≠ 255 then State.deal g id c fuel s else
        let used := (j.sign? i).attempts
        let (h, s) := s.rehedge g id c i (j.working i)
        let s := (s.modJob id (fun j => { j with dealt := j.dealt + 1, cursor := i + 1 })).bumpPool 0
          (fun x => { x with attempts := x.attempts + 1 })
        if !s.streamsOk [c] then s.decideSign g id c i 0x13 (used + 1) [] else
        match g.try_ s i (used + 1) h with
        | .failed st => s.decideSign g id c i st (used + 1) []
        | .rejected => s.setSign id i { status := 255, attempts := used + 1 }
        | .signed sig => s.decideSign g id c i 0 (used + 1) sig

/-- Release what is left of stage `k` (R26): its slots leave the cores without a wipe, and its later rows. -/
def State.endStage (s : State) (id k : Nat) : State :=
  match s.job? id with
  | none => s
  | some j =>
    let s := { s with cores := mmap (fun _ => Core.init) (fun _ x => x.without (fun e => e.job == id && e.stage == k)) s.cores }
    let s := j.pls.foldl (fun s p =>
      if p.stage = k ∧ p.row ≥ s.swnN then s.unplace j.inst p.row ((j.stage k).demand p.fields) (p.live - p.ended) else s) s
    (s.modJob id (fun j => { j with
      pls := (j.pls.filter (fun p => !(p.stage == k && decide (p.row > s.swnN)))).map (fun p =>
        if p.stage = k then { p with done := [p.count] } else p)
      lost := j.lost.filter (fun l => l.stage != k) })).begins
/-- A sign slot ends on core `c`: the fixed slots stand first and run the fixed parts that fall into them, each of the others deals one
attempt (R102, R280). A batch whose signatures are all decided releases what is left; one that has spent its budget ends. -/
def State.slotEnds (s : State) (g : Signer) (id k c u : Nat) : State :=
  let s :=
    if u < g.k.fixed g.n then
      ((upTo g.n).filter (fun i => decide (i * g.k.f / g.k.q ≤ u))).foldl (fun s i => s.fixedPart g id c i) s
    else State.deal g id c (g.n + 1) s
  match s.job? id with
  | none => s
  | some j =>
    let open_ := (upTo g.n).filter (fun i => (j.sign? i).status == 255)
    if open_.isEmpty then s.endStage id k
    else if j.dealt < g.k.budget g.n then s
    else
      let s := open_.foldl (fun s i => s.decideSign g id c i 0x23 (j.sign? i).attempts []) s
      ((s.modJob id (fun j => { j with budgetOut := true })).bumpPool 0
        (fun x => { x with budgetOut := satInc 32 x.budgetOut })).endStage id k
/-- Attempts that were running were aborted: the signatures whose turn it is take fresh randomness (R281). -/
def State.freshRnd (s : State) (id : Nat) : State :=
  s.modJob id (fun j =>
    let open_ := (j.work.map (·.1)).filter (fun i => (j.sign? i).status == 255)
    match (open_.find? (fun i => decide (i ≥ j.cursor))).orElse (fun _ => open_.head?) with
    | some i => { j with work := mput (fun _ => OpHeld.empty) j.work i { j.working i with rnd := [] } }
    | none => j)

/-- Signing of a PQ_SIGN batch with ML-DSA. -/
def pqSigner (j : Job) (k : SignK) (p : PSet) : Signer :=
  let b := j.param
  let set := bSet b
  { n := bN b, k
    fixed := fun s c i =>
      let (h, s) := s.opBegin j .sign set p p.pub c i
      (if pqBad .sign set p p.pub b h then 0x20 else h.fail, h, s)
    try_ := fun _ _ n h => (dsaAttempt squeeze set h.secret (eForm h.entry % 4) h.ctx h.in0 h.rnd n).tried
    hedged := fun s i => match s.job? j.id with | some j => !s.isDet 0 (j.working i).entry | none => false
    note := fun s i status attempts sig =>
      let e := match s.job? j.id with | some j => (j.working i).entry | none => []
      s.opResult j i attempts e { opFail status with out := sig } }

end Sys2Proof.Machine
end

