-- ==== Sys2Proof/Machine/Records.lean ====
section
/-! DEFINITION. Signed records: result receipts (R178–R182), key attestation (R359), and the verify stage of a bundle (R355). -/

namespace Sys2Proof.Machine

/-- Length of a record, and of what a job keeps of one between its stages, after the bytes its decision read: two digests or a
body, and the ML-DSA-65 signature. -/
def recordLen : Nat := 3712
def keepA (base i : Nat) : Nat := base + 3712 * i
def State.keep (s : State) (id a : Nat) (b : Bytes) : State := s.modJob id (fun j => { j with param := wr j.param a b })
/-- A record: body, ML-DSA-65 signature, ECDSA signature (R182). -/
def recordBytes (body sig ec : Bytes) : Bytes := fitB (wr (wr (fitB body 256) 0x100 (fitB sig 3309)) 0xDF0 ec) recordLen

/-- The fixed part of a record's ML-DSA-65 signature in hedged form on lattice core `c`. -/
def State.recordBegin (s : State) (c : Nat) (sec ctx body : Bytes) : Nat × OpHeld × State :=
  if !s.streamsOk [c, 16 + c] then (0x13, OpHeld.empty, s) else
  let (rnd, s) := s.streamBytes (16 + c) 32
  let (mask, s) := s.drawBytes sec.length
  (0, { OpHeld.empty with entry := body, in0 := body, ctx, share0 := xorBytes sec mask, share1 := mask, rnd }, s.streamMoved c)
def recordAttempt (_ : State) (_ n : Nat) (h : OpHeld) : Tried := (dsaAttempt squeeze 0x12 h.secret 0 h.ctx h.in0 h.rnd n).tried

/-! ## Receipts -/

def rcN (j : Job) : Nat := dImm0 j.desc % 65536
def rcSlot (j : Job) : Nat := fld (dImm0 j.desc) 16 16
def rcEcSlot (j : Job) : Nat := fld (dImm0 j.desc) 32 16
def rcHybrid (j : Job) : Bool := rcEcSlot j != 0xFFFF
def rcBase (j : Job) : Nat := 16 * rcN j
def State.rcClaim (s : State) (j : Job) (i : Nat) : Option Claim :=
  match s.claimFor j.inst (claimRef j.param i) with
  | some c => if c.fits then some c else none
  | none => none
/-- A digest unit: result digest for an even unit, certificate digest for an odd one (R180). -/
def State.receiptDigest (s : State) (j : Job) (u : Nat) : State :=
  match s.rcClaim j (u / 2) with
  | none => s
  | some c =>
    let a := keepA (rcBase j) (u / 2)
    if u % 2 = 0 then
      let (bl, s) := s.hbmRead c.blAddr c.blLen
      let (rr, s) := s.hbmRead c.resAddr c.resLen
      s.keep j.id a (sha384 (toLe 8 c.blLen ++ bl ++ rr))
    else
      let (cert, s) := s.hbmRead c.cert (128 + 64 * rd (s.hbmPeek (c.cert + 6) 1) 0 1)
      s.keep j.id (a + 48) (sha384 cert)
/-- Body of Table 7.5. -/
def receiptBody (j : Job) (c : Claim) (inst : Nat) (digests pub : Bytes) : Bytes :=
  toLe 4 0x4B565243 ++ toLe 2 1 ++ toLe 1 (if rcHybrid j then 3 else 1) ++ zeros 1 ++ toLe 16 Config.devid.toNat ++
    toLe 8 c.tag.toNat ++ toLe 2 inst ++ toLe 2 c.gen.toNat ++ zeros 4 ++ toLe 8 c.a ++ toLe 8 c.finish ++
    slice digests 0 96 ++ fitB c.digest 48 ++ toLe 8 c.deadline ++ sha384 pub
def receiptBodyOf (j : Job) (i : Nat) (c : Claim) (pub : Bytes) : Bytes :=
  receiptBody j c (claimRef j.param i).1 (slice j.param (keepA (rcBase j) i) 96) pub
/-- The keys of a RECEIPT job: none where a slot is refused (R182). -/
def State.rcKeys (s : State) (j : Job) : Option (KSlot × KSlot) :=
  match s.opKey j.inst 0x12 (rcSlot j) .sign with
  | none => none
  | some k => if rcHybrid j then (s.opKey j.inst 0x72 (rcEcSlot j) .sign).map (fun e => (k, e)) else some (k, KSlot.empty)
/-- A refused slot ends the job, and every record is zero. -/
def State.rcRefused (s : State) (j : Job) (k : Nat) : State :=
  let s := (s.cellCheck (rcSlot j) j.inst polSign).cellCheck (rcEcSlot j) j.inst polSign
  let s := s.writeAll ((upTo (rcN j)).map (fun i => (dOp j.desc 1 + recordLen * i, zeros recordLen)))
  (s.setStatus j.id 0x21).endStage j.id k
def State.dropClaim (s : State) (j : Job) (i : Nat) (c : Claim) : State :=
  s.modInst (claimRef j.param i).1 (fun x => { x with claims := x.claims.filter (· != c) })
/-- Write receipt `i`, and empty its claim. -/
def State.writeReceipt (s : State) (j : Job) (i : Nat) (c : Claim) (body sig ec : Bytes) : State :=
  (s.hbmWrite (dOp j.desc 1 + recordLen * i) (recordBytes body sig ec)).dropClaim j i c
def State.zeroReceipt (s : State) (j : Job) (i : Nat) : State := s.hbmWrite (dOp j.desc 1 + recordLen * i) (zeros recordLen)
/-- Signing the receipts with ML-DSA-65 in hedged form (R181). -/
def receiptSigner (j : Job) (k : SignK) (key : KSlot) : Signer :=
  { n := rcN j, k
    fixed := fun s c i => match s.rcClaim j i with
      | none => (0xFE, OpHeld.empty, s)
      | some cl => s.recordBegin c key.secret (ascii "KV6416-RCT") (receiptBodyOf j i cl key.pub)
    try_ := recordAttempt
    hedged := fun _ _ => true
    note := fun s i status _ sig =>
      let s := if status = 0x13 ∨ status = 0x20 then s.modJob j.id (fun x => x.noteEntry i status) else s
      match if status = 0 then s.rcClaim j i else none with
      | none => s.zeroReceipt j i
      | some cl =>
        if rcHybrid j then s.keep j.id (keepA (rcBase j) i + 96) sig
        else s.writeReceipt j i cl (receiptBodyOf j i cl key.pub) sig [] }
/-- A LATTICE slot of a RECEIPT job. -/
def State.receiptSlot (s : State) (j : Job) (k c u : Nat) : State :=
  match s.rcKeys j, signK 0x12 with
  | some (key, _), some sk => s.slotEnds (receiptSigner j sk key) j.id k c u
  | _, _ => s.rcRefused j k
/-- The ECDSA signature of a record: none where a stream has stopped or the self-check fails, with the status. -/
def State.ecSign (s : State) (c : Nat) (sec body : Bytes) : Nat × Bytes × State :=
  if !s.streamsOk [38 + c] then (0x13, [], s) else
  let (r, s) := s.drawBytes 56
  let s := s.streamMoved (38 + c)
  match ecdsaSign p384 (beNat sec) (ecNonce 0x72 r) (sha384 body) with
  | some y => (0, y, s)
  | none => (0x14, [], s)
/-- A BIGNUM unit of a hybrid RECEIPT job. -/
def State.receiptEc (s : State) (j : Job) (k c i : Nat) : State :=
  match s.rcKeys j with
  | none => s.rcRefused j k
  | some (key, ec) =>
    match if (j.sign? i).status = 0 then s.rcClaim j i else none with
    | none => s.zeroReceipt j i
    | some cl =>
      let body := receiptBodyOf j i cl key.pub
      let (st, sig, s) := s.ecSign c ec.secret body
      let s := s.opCounted 3 c j.inst st
      if st = 0 then s.writeReceipt j i cl body (slice j.param (keepA (rcBase j) i + 96) 3309) sig
      else (s.zeroReceipt j i).modJob j.id (fun x => x.noteEntry i st)

/-! ## Attestation -/

def atN (j : Job) : Nat := rd j.param 16 2
def atOut (j : Job) (i : Nat) : Nat := rd j.param 8 8 + recordLen * i
def State.atSlot (s : State) (j : Job) (i : Nat) : Nat := rd (s.hbmPeek (rd j.param 0 8 + 2 * i) 2) 0 2
/-- Body of Table 15.8; none where the record is zero or holds the certificate chains. -/
def State.attestBody (s : State) (j : Job) (i : Nat) : Option Bytes :=
  let n := s.atSlot j i
  let k := s.slot n
  if n ≥ 16384 || k.state == 0 || !k.ownedBy j.inst then none else
  some (toLe 4 0x4B564B41 ++ toLe 2 1 ++ toLe 1 k.type ++
    toLe 1 (b2n k.generated + 2 * b2n k.migratable + 4 * b2n k.derived + 8 * b2n k.cipher + 16 * b2n (k.state == 1)) ++
    toLe 16 Config.devid.toNat ++ toLe 2 n ++ toLe 2 k.owner ++ toLe 1 k.policy.toNat ++ toLe 1 k.depth ++ zeros 2 ++
    toLe 8 s.keys.counter.toNat ++ toLe 8 s.swnN ++ (if k.pub.isEmpty then zeros 48 else sha384 k.pub) ++
    slice j.param 0x20 32 ++ sha384 idmPub ++ zeros 80)
/-- A digest unit of a KS_ATTEST job: the body as it stands in stage 1's row. -/
def State.attestDigest (s : State) (j : Job) (i : Nat) : State :=
  let (_, s) := s.hbmRead (rd j.param 0 8 + 2 * i) 2
  s.keep j.id (keepA 64 i) ((s.attestBody j i).getD (zeros 256))
def atBody (j : Job) (i : Nat) : Bytes := slice j.param (keepA 64 i) 256
def attestSigner (j : Job) (k : SignK) : Signer :=
  { n := atN j, k
    fixed := fun s c i =>
      if atBody j i = zeros 256 then (0xFE, OpHeld.empty, s) else s.recordBegin c idmSec (ascii "KV6416-KAS") (atBody j i)
    try_ := recordAttempt
    hedged := fun _ _ => true
    note := fun s i status _ sig =>
      let s := if status = 0x13 ∨ status = 0x20 then s.modJob j.id (fun x => x.noteEntry i status) else s
      if status = 0 then s.keep j.id (keepA 64 i + 256) sig
      else if s.atSlot j i = 0xFFFF then s.hbmWrite (atOut j i) (fitB Config.certChains recordLen)
      else s.hbmWrite (atOut j i) (zeros recordLen) }
def State.attestSlot (s : State) (j : Job) (k c u : Nat) : State :=
  match signK 0x12 with
  | some sk => s.slotEnds (attestSigner j sk) j.id k c u
  | none => s
def State.attestEc (s : State) (j : Job) (c i : Nat) : State :=
  if (j.sign? i).status ≠ 0 then s else
  let (st, sig, s) := s.ecSign c ideSec (atBody j i)
  let s := s.opCounted 3 c j.inst st
  if st = 0 then s.hbmWrite (atOut j i) (recordBytes (atBody j i) (slice j.param (keepA 64 i + 256) 3309) sig)
  else (s.hbmWrite (atOut j i) (zeros recordLen)).modJob j.id (fun x => x.noteEntry i st)

/-! ## The effect of a unit on a core -/

/-- Unit `u` of stage `k` of a job ends on core `c` of pool `pool`; none while it waits for a durable seal version. -/
def State.coreUnit (s : State) (j : Job) (pool c k u : Nat) (h : OpHeld) : Option State :=
  if j.opcode = 0x0102 then some (if pool = 0 then s.receiptSlot j k c u else s.receiptEc j k c u)
  else if j.opcode = 0x0602 then some (if pool = 0 then s.attestSlot j k c u else s.attestEc j c u)
  else if j.opcode = 0x0600 then
    some (((s.touch [(dOp j.desc 0 + 0x80, 1568), (dOp j.desc 0 + (rd j.param 12 4 - 2688), 7424)]).opCounted 0 c 0 0).opCounted 3 c 0 0)
  else if j.opcode = 0x0700 then some ((s.ingestVerify j u).opCounted pool c 0 0)
  else if j.opcode = 0x0701 then (s.sessionUnit j u).map (fun s => s.opCounted pool c 0 0)
  else
    let set := bSet j.param
    match cryptoOp j.opcode, pset set with
    | some op, some p =>
      (match op, signK set with
       | .sign, some k' => some (s.slotEnds (pqSigner j k' p) j.id k c u)
       | _, _ => some (s.batchUnit j op p c k u h))
    | _, _ => some s

end Sys2Proof.Machine
end

