-- ==== Sys2Proof/Machine/Digest.lean ====
section
/-! DEFINITION. The digest engine's units: messages, parts, state records, keyed digests, image digests (R145, R146, R305–R321). -/

namespace Sys2Proof.Machine

/-- A fragment: the address of its descriptor, its own, its length and the message position of its first byte. -/
structure Frag where
  desc : Nat
  addr : Nat
  len : Nat
  pos : Nat
deriving DecidableEq, Repr
def placeFrags : Nat → List (Nat × Nat × Nat) → List Frag
  | _, [] => []
  | p, (d, a, n) :: fs => { desc := d, addr := a, len := n, pos := p } :: placeFrags (p + n) fs
def State.frags (s : State) (host : Bool) (a n : Nat) : List Frag :=
  let d := fun i => s.memPeek host (a + 16 * i) 12
  placeFrags 0 ((upTo n).map (fun i => (a + 16 * i, rd (d i) 0 8, rd (d i) 8 4)))
/-- Fragments whose descriptors the part with bytes [lo, hi) reads. -/
def partFrags (fs : List Frag) (lo hi : Nat) : List Frag :=
  fs.filter (fun f => if f.len = 0 then decide (lo ≤ f.pos) && decide (f.pos < hi) else decide (f.pos < hi) && decide (lo < f.pos + f.len))
/-- TRUNC of a message (R316). -/
def truncOf (fs : List Frag) (len : Nat) : Bool :=
  if len = 0 then fs.any (fun f => decide (f.len > 0))
  else match (fs.zipIdx).find? (fun f => decide (f.1.pos < len) && decide (len ≤ f.1.pos + f.1.len)) with
    | some (f, i) => decide (len < f.pos + f.len) || decide (i + 1 < fs.length)
    | none => false
/-- Bytes of [lo, hi) that a list of fragments holds; their descriptors are read with them. -/
def State.partBytes (s : State) (host : Bool) (fs : List Frag) (lo hi : Nat) : Bytes × State :=
  fs.foldl (fun (a : Bytes × State) f =>
    let from_ := max lo f.pos
    let (b, s) := (a.2.memRead host f.desc 16).2.memRead host (f.addr + (from_ - f.pos)) (min hi (f.pos + f.len) - from_)
    (a.1 ++ b, s)) ([], s)

/-! ## Chaining states -/

def lanesOf (st : Bytes) : List (BitVec 64) := (upTo 25).map (fun i => BitVec.ofNat 64 (rd st (8 * i) 8))
/-- Absorb whole blocks. -/
def digestAbsorb (alg rate : Nat) (st msg : Bytes) : Bytes :=
  match alg with
  | 1 => (sha2Absorb sha256Fam (toWords 32 8 st) msg).flatMap (fun x => toBe 4 x.toNat)
  | 2 => (sha2Absorb sha512Fam (toWords 64 8 st) msg).flatMap (fun x => toBe 8 x.toNat)
  | 3 => (sha2Absorb sha512Fam (toWords 64 8 st) msg).flatMap (fun x => toBe 8 x.toNat)
  | _ => keccakBytes (keccakAbsorb rate (lanesOf st) msg)
/-- Output of a chaining value. -/
def digestOut (alg rate : Nat) (st : Bytes) (n : Nat) : Bytes :=
  if alg ≤ 3 then st.take n else keccakSqueeze rate (n + 1) (lanesOf st) n
/-- The hash that the engine runs and pads itself in an outer pass (R313). -/
def digestHash (alg : Nat) (b : Bytes) : Bytes :=
  match alg with
  | 1 => sha256 b
  | 2 => sha384 b
  | 3 => sha512 b
  | 4 => sha3x256 b
  | _ => sha3x512 b
def padKey (key : Bytes) (block : Nat) (pad : Byte) : Bytes := (fitB key block).map (· ^^^ pad)

/-! ## A message -/

def State.modDigest (s : State) (g : DigestCnt → DigestCnt) : State := { s with digest := g s.digest }
/-- What a message has absorbed before its first part: the initial state or the record it continues from; none where that record fails
(R310, R311, R318). -/
def messageStart (j : Job) (e r : Bytes) : Option (Nat × Bytes) :=
  if mMode e = 2 ∨ mMode e = 3 then recRead j.carryKey j.param r j.inst else some (0, digestInit (gAlg j.param))
/-- CRYPTO_INPUT of an entry (R318). -/
def entryRefused (b : Bytes) (a : DigAlg) (e : Bytes) : Bool :=
  decide (mLen e > gMaxLen b) || mLen e % a.block != 0 || decide (mMode e > 3) || (mMode e == 0 && mLen e == 0)
/-- A failure of a part joins what the message has met: CRYPTO_INPUT before KEY_UNUSABLE before LEN_SHORT (R318). -/
def OpHeld.failWith (h : OpHeld) (status : Nat) : OpHeld :=
  { h with fail := if h.fail = 0 then status else min h.fail status }
/-- Count bytes and chaining value of a context. -/
def OpHeld.digestAt (h : OpHeld) (done : Nat) (st : Bytes) : OpHeld := { h with in1 := st, rnd := toLe 8 done }
/-- The first part sets the context up: the start, with the key block of a fresh keyed message (R310, R313). -/
def firstPart (j : Job) (a : DigAlg) (h : OpHeld) : OpHeld × Bool :=
  let alg := gAlg j.param
  match messageStart j h.entry h.in0 with
  | none => (h.failWith 0x20, true)
  | some (done, st) =>
    if gKey j.param % 4 ≠ 0 ∧ mMode h.entry ≤ 1 then
      (h.digestAt a.block (digestAbsorb alg a.block st (padKey h.secret a.block 0x36#8)), false)
    else (h.digestAt done st, false)
/-- Part `k` of a message absorbs its bytes, of a short one those that its fragments hold (R307, R316, R317). -/
def State.absorbPart (s : State) (j : Job) (a : DigAlg) (k : Nat) (h : OpHeld) : OpHeld × State :=
  let b := j.param
  let e := h.entry
  if entryRefused b a e then (h.failWith 0x20, s)
  else if h.fail ≠ 0 then (h, s)
  else
    let pb := a.pmax * a.block
    let lo := min (k * pb) (mLen e)
    let hi := min ((k + 1) * pb) (mLen e)
    let fs := s.frags (gHost b) (mFrags e) (mNfrag e)
    let part := partFrags fs lo hi
    let (msg, s) := s.partBytes (gHost b) (part.take (gMaxFrag b)) lo hi
    let s := s.modDigest (fun d => { d with bytes := d.bytes + BitVec.ofNat 64 msg.length })
    if sumL (fs.map (·.len)) < hi ∨ part.length > gMaxFrag b then (h.failWith 0x22, s) else
    (h.digestAt (rd h.rnd 0 8 + (hi - lo)) (digestAbsorb (gAlg b) a.block h.in1 msg), s)
/-- The message ends: a state record, or the output (R310, R313). -/
def State.messageOut (s : State) (j : Job) (a : DigAlg) (h : OpHeld) : State :=
  let b := j.param
  let e := h.entry
  if mMode e = 1 ∨ mMode e = 2 then
    let (iv, s) := s.drawBytes 12
    s.memWrite (gHost b) (mStateOut e) (recWrite j.carryKey b (rd h.rnd 0 8) j.inst iv h.in1)
  else
    let keyed := gKey b % 4 ≠ 0
    let n := if gOutLen b = 0 then a.digest else gOutLen b
    let inner := digestOut (gAlg b) a.block h.in1 (if keyed then a.digest else n)
    s.memWrite (gHost b) (mOut e)
      (if keyed then (digestHash (gAlg b) (padKey h.secret a.block 0x5C#8 ++ inner)).take n else inner)
/-- Unit `i` of stage `k` of a DIGEST job, on what the context holds (R307, R320). The unit of the message's last part writes the outputs with
the result entry; a message with fewer parts than stages does nothing later. -/
def State.digestUnit (s : State) (j : Job) (k i : Nat) (h : OpHeld) : State :=
  match digAlg (gAlg j.param) with
  | none => s
  | some a =>
    let last := mLast a j.stages.length h.entry
    if h.entry.isEmpty ∧ h.fail = 0 ∨ k > last then s else
    let (h, rec_) := if k = 0 then firstPart j a h else (h, false)
    let (h, s) := s.absorbPart j a k h
    let s := s.modDigest (fun d => { d with recFail := if rec_ then satInc 32 d.recFail else d.recFail })
    if k < last then s.carryOut j (rd j.param 0x18 8 + 320 * i) 320 i k { h with share0 := [], share1 := [] }
    else
      let s := if h.fail = 0 then s.messageOut j a h else s
      let trunc := h.fail == 0 && truncOf (s.frags (gHost j.param) (mFrags h.entry) (mNfrag h.entry)) (mLen h.entry)
      let s := s.hbmWrite (rd j.param 0x10 8 + 8 * i) (toLe 8 (h.fail + 256 * b2n trunc))
      (s.modDigest (fun d => { d with
        truncN := if trunc then satInc 32 d.truncN else d.truncN
        shortN := if h.fail = 0x22 then satInc 32 d.shortN else d.shortN
        inputErr := if h.fail = 0x20 then satInc 32 d.inputErr else d.inputErr })).modJob j.id
          (fun j => { j.noteEntry i h.fail with trunc := j.trunc || trunc })

/-- A part of an image (R145): the last one leaves the image digest with the job. -/
def State.swardUnit (s : State) (j : Job) (k : Nat) : State :=
  let len := dImm0 j.desc % 2 ^ 32
  let a := dOp j.desc 0
  let s := s.touch [(a + 4194304 * k, min ((k + 1) * 4194304) len - k * 4194304)]
  if k + 1 < j.stages.length then s
  else s.modJob j.id (fun j => { j with param := sha384 (s.hbmPeek a len) })

/-- The reads of a KS_UPDATE unit (Table 15.7): the signed bytes, or an entry with its payload. -/
def State.updateUnit (s : State) (j : Job) (k u : Nat) : State :=
  let a := dOp j.desc 0
  if k = 0 then s.touch [(a, min 1048576 (rd j.param 12 4))]
  else
    let heads := bundleHeads s a 0x6C0 (min 64 (rd j.param 6 2))
    let offs := heads.foldl (fun l e => l ++ [l.getLastD 0x6C0 + 64 + cdiv e.plen 64 * 64]) [0x6C0]
    s.touch (if u < heads.length then [(a + nth offs u 0, nth offs (u + 1) 0 - nth offs u 0)] else [])

/-- The effect of a unit on a pipeline. -/
def State.pipeUnit (s : State) (j : Job) (k u : Nat) (h : OpHeld) : State :=
  let s := s.modDigest (fun d => { d with done := d.done + 1 })
  if j.opcode = 0x0400 then s.digestUnit j k u h
  else if j.opcode = 0x0101 then s.swardUnit j k
  else if j.opcode = 0x0102 then s.receiptDigest j u
  else if j.opcode = 0x0602 then s.attestDigest j u
  else if j.opcode = 0x0600 then s.updateUnit j k u
  else s
/-- The bundle is applied when stage 3 ends (R353): whole or not at all. -/
def State.bundleEnd (s : State) (id : Nat) : State :=
  match s.job? id with
  | none => s
  | some j =>
    if j.opcode = 0x0600 ∧ j.stageOver 2 = true then
      let (st, t) := s.bundleApply (dOp j.desc 0) (dOp j.desc 1)
      s.settle (if st = 0 then t else t.setStatus id st) j (bundleBad (s.bundleAt (dOp j.desc 0)))
    else s

/-- Pipeline kinds that a digest unit may take (R303): SHA-2, Keccak. -/
def State.unitKind (s : State) (j : Job) (k u : Nat) : Bool :=
  if j.opcode = 0x0400 then (match digAlg (gAlg j.param) with | some a => a.keccak | none => false)
  else if j.opcode = 0x0600 ∧ k = 2 then
    let kinds := headKinds s.projected (bundleHeads s (dOp j.desc 0) 0x6C0 (min 64 (rd j.param 6 2)))
    let seq := kinds.flatMap (fun x => if x.1 && x.2 then [false, true] else [x.2])
    (seq[u]?).getD false
  else false

end Sys2Proof.Machine
end

