-- ==== Sys2Proof/Machine/Engines.lean ====
section
/-! DEFINITION. The ends of units on crypto cores and digest pipelines, and the handover of split units (R90, R271, R303). -/

namespace Sys2Proof.Machine

/-- A core of the core pools, or a digest pipeline. -/
def State.eng (s : State) (pipe : Bool) (k : Nat) : Core := if pipe then s.pipe k else s.core k
def State.modEng (s : State) (pipe : Bool) (k : Nat) (g : Core → Core) : State :=
  if pipe then s.modPipe k g else s.modCore k g
/-- Engines of one kind that hold a piece picked by `q`, ascending. -/
def State.engsWith (s : State) (pipe : Bool) (q : Piece → Bool) : List Nat :=
  ((if pipe then s.pipes else s.cores).filter (fun e => e.2.pieces.any q)).map (·.1)
/-- Some engine holds another piece of the same unit. -/
def State.unitOpen (s : State) (e : Piece) : Bool :=
  s.cores.any (fun x => x.2.pieces.any (·.same e)) || s.pipes.any (fun x => x.2.pieces.any (·.same e))

/-- The effect of the last piece of a unit, on what its engine holds; none while it waits. -/
def State.engUnit (s : State) (j : Job) (pipe : Bool) (k : Nat) (e : Piece) (h : OpHeld) : Option State :=
  (if pipe then some (s.pipeUnit j e.stage e.unit h)
   else s.coreUnit j (corePool k) (k - coreBase (corePool k)) e.stage e.unit h).map (fun t => s.settle t j (s.entryBad j e.unit h))
/-- A unit has ended: the job counts it, and the last unit of a bundle's third stage applies the bundle. -/
def State.unitOver (s : State) (e : Piece) : State :=
  let t := s.unitDone e.job e.seq 0
  if e.stage = 2 then t.bundleEnd e.job else t
/-- The running piece of an engine ends: it leaves, its secrets are overwritten (R285), and the next begins. The first part of a split unit
sends its state to the core that holds the remainder; a remainder does not end before that state has arrived; a unit ends with its last
piece. -/
def State.pieceEnd (s : State) (pipe : Bool) (k : Nat) : State :=
  let x := s.eng pipe k
  match x.head? with
  | none => s
  | some e =>
    let t := s.modEng pipe k (fun x => { x.start (x.pieces.drop 1) with ram := x.ram.wiped })
    match s.job? e.job with
    | none => t.begins
    | some j =>
      if j.status.isSome then t.begins
      else if e.part = 2 ∧ (x.moving = true ∨ !(t.engsWith pipe (fun p => p.same e && p.part == 1)).isEmpty) then s
      else if e.part = 1 then
        match t.engsWith pipe (fun p => p.same e && p.part == 2) with
        | [] => t.begins
        | c :: _ =>
          ((t.modEng pipe k (fun y => { y with ram := OpHeld.empty, out := some (e, x.ram) })).modEng pipe c
            (fun x => { x with moving := true })).begins
      else if t.unitOpen e then t.begins
      else match t.engUnit j pipe k e x.ram with
        | none => s
        | some u => (u.unitOver e).begins

/-- Number of a core pool (Table 3.4). -/
def poolIx : CorePool → Nat
  | .lattice => 0
  | .hashsig => 1
  | .code => 2
  | .bignum => 3
/-- OPERATION_END. -/
def execOperationEnd (pool : CorePool) (core : Nat) (s : State) : Host.Outcome State Fault Refusal :=
  whenRun s (if core < coreCount (poolIx pool) then s.pieceEnd false (coreBase (poolIx pool) + core) else s)
/-- DIGEST_UNIT_END. -/
def execDigestUnitEnd (p : Fin 12) (s : State) : Host.Outcome State Fault Refusal :=
  whenRun s (s.pieceEnd true p.val)

/-- SPLIT_HANDOVER: the state that engine `k` sends has arrived on the one that holds the remainder. -/
def State.handover (s : State) (pipe : Bool) (k : Nat) : State :=
  match (s.eng pipe k).out with
  | none => s
  | some (e, h) =>
    let s := s.modEng pipe k (fun x => { x with out := none })
    match s.engsWith pipe (fun p => p.same e && p.part == 2) with
    | [] => s
    | c :: _ => s.modEng pipe c (fun x =>
        if x.head?.any (fun p => p.same e) then { x with moving := false, begun := true, ram := h }
        else { x with moving := false, got := some (e, h) })
def execSplitHandover (pool : Fin 5) (core : Nat) (s : State) : Host.Outcome State Fault Refusal :=
  whenRun s
    (if pool.val = 4 then (if core < 12 then s.handover true core else s)
     else if core < coreCount pool.val then s.handover false (coreBase pool.val + core) else s)

end Sys2Proof.Machine
end

