-- ==== Sys2Proof/Machine/Migrate.lean ====
section
/-! DEFINITION. Migration images (R377–R380, R495), and the end of a job. The spec names what an image carries and its header; how
its sections lie in the encrypted part is the model's own choice (DESIGN CHOICE, log entry 40). -/

namespace Sys2Proof.Machine

/-! ## Writing and reading sections -/

def putN (n : Nat) : Bytes := toLe 8 n
def putT (b : Bool) : Bytes := toLe 8 (b2n b)
def putB (b : Bytes) : Bytes := putN b.length ++ b
def putL {α : Type} (f : α → Bytes) (l : List α) : Bytes := putN l.length ++ l.flatMap f
def getN (b : Bytes) : Nat × Bytes := (rd b 0 8, b.drop 8)
def getT (b : Bytes) : Bool × Bytes := (rd b 0 8 == 1, b.drop 8)
def getB (b : Bytes) : Bytes × Bytes :=
  let (n, b) := getN b
  (b.take n, b.drop n)
def getMany {α : Type} (g : Bytes → α × Bytes) : Nat → Bytes → List α × Bytes
  | 0, b => ([], b)
  | n + 1, b =>
    let (x, b) := g b
    let (xs, b) := getMany g n b
    (x :: xs, b)
def getL {α : Type} (g : Bytes → α × Bytes) (b : Bytes) : List α × Bytes :=
  let (n, b) := getN b
  getMany g (min n b.length) b

def putPair (e : Nat × Nat) : Bytes := putN e.1 ++ putN e.2
def getPair (b : Bytes) : (Nat × Nat) × Bytes :=
  let (x, b) := getN b
  let (y, b) := getN b
  ((x, y), b)

def putHandleC (h : HandleC) : Bytes := putN h.addr ++ putN h.len ++ putN h.nstage ++ putN h.nsect ++ putB h.digest
def getHandleC (b : Bytes) : HandleC × Bytes :=
  let (addr, b) := getN b
  let (len, b) := getN b
  let (nstage, b) := getN b
  let (nsect, b) := getN b
  let (digest, b) := getB b
  ({ addr, len, nstage, nsect, digest }, b)

def putStage (v : StageRec) : Bytes :=
  putN v.u ++ putN v.nfields ++ putN v.edit ++ putN v.fieldCc ++ putL putN v.pool ++ putL putN v.amu ++ putN v.hbm ++
    putN v.commons ++ putN v.seed ++ putN v.first
def getStage (b : Bytes) : StageRec × Bytes :=
  let (u, b) := getN b
  let (nfields, b) := getN b
  let (edit, b) := getN b
  let (fieldCc, b) := getN b
  let (pool, b) := getL getN b
  let (amu, b) := getL getN b
  let (hbm, b) := getN b
  let (commons, b) := getN b
  let (seed, b) := getN b
  let (first, b) := getN b
  ({ u, nfields, edit, fieldCc, pool, amu, hbm, commons, seed, first }, b)

def putLost (l : Lost) : Bytes := putN l.stage ++ putN l.start ++ putN l.count ++ putL putN l.fields
def getLost (b : Bytes) : Lost × Bytes :=
  let (stage, b) := getN b
  let (start, b) := getN b
  let (count, b) := getN b
  let (fields, b) := getL getN b
  ({ stage, start, count, fields }, b)

def putHeld (x : OpHeld) : Bytes :=
  putN x.fail ++ putB x.entry ++ putB x.in0 ++ putB x.in1 ++ putB x.ctx ++ putB x.pub ++ putB x.share0 ++ putB x.share1 ++ putB x.rnd
def getHeld (b : Bytes) : OpHeld × Bytes :=
  let (fail, b) := getN b
  let (entry, b) := getB b
  let (in0, b) := getB b
  let (in1, b) := getB b
  let (ctx, b) := getB b
  let (pub, b) := getB b
  let (share0, b) := getB b
  let (share1, b) := getB b
  let (rnd, b) := getB b
  ({ fail, entry, in0, in1, ctx, pub, share0, share1, rnd }, b)
/-- A held job: descriptor, remaining units, remaining relative deadline, carry key, and what its ended units have left. -/
def putJob (j : Job) : Bytes :=
  putN j.sq ++ putN j.cq ++ putB j.desc ++ putB j.param ++ putHandleC j.image ++ putL putStage j.stages ++ putL putLost j.lost ++
    putT j.trunc ++ putT j.sat ++ putL putN j.rows ++ putN (j.held.getD 0) ++ putN j.carryId ++ putB j.carryKey ++
    putL putPair (j.worst.toList) ++ putT j.budgetOut ++
    putL (fun (e : Nat × SigSt) => putN e.1 ++ putN e.2.status ++ putN e.2.attempts) j.signs ++ putN j.dealt ++ putN j.cursor ++
    putL putPair j.levels ++ putL (fun (e : Nat × OpHeld) => putN e.1 ++ putHeld e.2) j.work ++
    putL (fun (c : Carry) => putN c.op ++ putN c.stage ++ putB c.iv ++ putHeld c.state) j.carries ++ putT j.overflow ++ putL putPair j.sent ++
    putL putPair j.dest ++ putL putPair j.scratch
/-- The job that a held job of an image becomes in instance `inst`. -/
def getJob (inst : Nat) (gen : BitVec 16) (b : Bytes) : Job × Bytes :=
  let (sq, b) := getN b
  let (cq, b) := getN b
  let (desc, b) := getB b
  let (param, b) := getB b
  let (image, b) := getHandleC b
  let (stages, b) := getL getStage b
  let (lost, b) := getL getLost b
  let (trunc, b) := getT b
  let (sat, b) := getT b
  let (rows, b) := getL getN b
  let (rel, b) := getN b
  let (carryId, b) := getN b
  let (carryKey, b) := getB b
  let (worst, b) := getL getPair b
  let (budgetOut, b) := getT b
  let (signs, b) := getL (fun b =>
    let (i, b) := getN b
    let (status, b) := getN b
    let (attempts, b) := getN b
    ((i, ({ status, attempts } : SigSt)), b)) b
  let (dealt, b) := getN b
  let (cursor, b) := getN b
  let (levels, b) := getL getPair b
  let (work, b) := getL (fun b =>
    let (i, b) := getN b
    let (x, b) := getHeld b
    ((i, x), b)) b
  let (carries, b) := getL (fun b =>
    let (op, b) := getN b
    let (stage, b) := getN b
    let (iv, b) := getB b
    let (state, b) := getHeld b
    (({ op, stage, iv, state } : Carry), b)) b
  let (overflow, b) := getT b
  let (sent, b) := getL getPair b
  let (dest, b) := getL getPair b
  let (scratch, b) := getL getPair b
  ({ id := 0, inst, sq, cq, gen, tag := BitVec.ofNat 64 (dTag desc), opcode := dOpcode desc, desc, param, image, a := 0, deadline := 0
     stages, pls := [], lost, status := none, finish := 0, trunc, sat, rows, recorded := false, relPend := false, held := some rel
     tent := false, part := none, carryId, carryKey, worst := worst.head?, budgetOut, signs, dealt, cursor, levels, work, carries, overflow, sent,
     dest, scratch }, b)

def putClaim (c : Claim) : Bytes :=
  putN c.tag.toNat ++ putN c.gen.toNat ++ putB c.digest ++ putN c.cert ++ putN c.a ++ putN c.deadline ++ putN c.finish ++
    putN c.resAddr ++ putN c.resLen ++ putN c.blAddr ++ putN c.blLen
def getClaim (b : Bytes) : Claim × Bytes :=
  let (tag, b) := getN b
  let (gen, b) := getN b
  let (digest, b) := getB b
  let (cert, b) := getN b
  let (a, b) := getN b
  let (deadline, b) := getN b
  let (finish, b) := getN b
  let (resAddr, b) := getN b
  let (resLen, b) := getN b
  let (blAddr, b) := getN b
  let (blLen, b) := getN b
  ({ tag := BitVec.ofNat 64 tag, gen := BitVec.ofNat 16 gen, digest, cert, a, deadline, finish, resAddr, resLen, blAddr, blLen }, b)

def putSlot (e : Nat × KSlot) : Bytes :=
  let k := e.2
  putN e.1 ++ putN k.state ++ putN k.type ++ putN k.policy.toNat ++ putT k.cipher ++ putT k.kmac ++ putT k.generated ++
    putT k.derived ++ putN k.parent ++ putN k.depth ++ putB k.secret ++ putB k.pub ++ putN k.ctr ++ putN (max k.mark k.markFirst) ++ putT k.half ++
    putT k.sealOff
/-- A carried slot takes the target instance as its owner. -/
def getSlot (owner : Nat) (b : Bytes) : (Nat × KSlot) × Bytes :=
  let (n, b) := getN b
  let (state, b) := getN b
  let (type, b) := getN b
  let (policy, b) := getN b
  let (cipher, b) := getT b
  let (kmac, b) := getT b
  let (generated, b) := getT b
  let (derived, b) := getT b
  let (parent, b) := getN b
  let (depth, b) := getN b
  let (secret, b) := getB b
  let (pub, b) := getB b
  let (ctr, b) := getN b
  let (mark, b) := getN b
  let (half, b) := getT b
  let (sealOff, b) := getT b
  ((n, { KSlot.empty with
    state, type, policy := BitVec.ofNat 7 policy, owner, migratable := true, cipher, kmac, generated, derived, parent, depth
    secret, pub, ctr, mark := 0, markFirst := mark, half, sealOff }), b)

/-! ## An image's contents -/

/-- The sections of Table 16.6. -/
structure Sections where
  page : List (Nat × Nat)
  sqs : List (Nat × Nat)
  cqs : List (Nat × Bytes)
  queues : List (Nat × Bytes)
  mbox : List (Nat × Nat)
  idx : List Nat
  jobs : List Job
  handles : List (Nat × HandleC)
  claims : List Claim
  edits : List (Nat × Nat × Bytes)
  slots : List (Nat × KSlot)

def putSections (x : Sections) : Bytes :=
  putL putPair x.page ++ putL putPair x.sqs ++ putL (fun e => putN e.1 ++ putB e.2) x.cqs ++
    putL (fun e => putN e.1 ++ putB e.2) x.queues ++ putL putPair x.mbox ++ putL putN x.idx ++ putL putJob x.jobs ++
    putL (fun e => putN e.1 ++ putHandleC e.2) x.handles ++ putL putClaim x.claims ++
    putL (fun e => putN e.1 ++ putN e.2.1 ++ putB e.2.2) x.edits ++ putL putSlot x.slots
def getKeyed (b : Bytes) : (Nat × Bytes) × Bytes :=
  let (n, b) := getN b
  let (x, b) := getB b
  ((n, x), b)
def getSections (inst : Nat) (gen : BitVec 16) (b : Bytes) : Sections :=
  let (page, b) := getL getPair b
  let (sqs, b) := getL getPair b
  let (cqs, b) := getL getKeyed b
  let (queues, b) := getL getKeyed b
  let (mbox, b) := getL getPair b
  let (idx, b) := getL getN b
  let (jobs, b) := getL (getJob inst gen) b
  let (handles, b) := getL (fun b =>
    let (n, b) := getN b
    let (h, b) := getHandleC b
    ((n, h), b)) b
  let (claims, b) := getL getClaim b
  let (edits, b) := getL (fun b =>
    let (u, b) := getN b
    let (i, b) := getN b
    let (x, b) := getB b
    ((u, i, x), b)) b
  let (slots, _) := getL (getSlot inst) b
  { page, sqs, cqs, queues, mbox, idx, jobs, handles, claims, edits, slots }

/-- Enabled queues of instance `n` that lie in HBM: key, base and length; submission queues first (R367, R370). -/
def State.hbmQueues (s : State) (n : Nat) : List (Nat × Nat × Nat) :=
  let base := fun a => s.cfgN (a - 8) + 2 ^ 32 * s.cfgN (a - 4)
  ((upTo 8).filterMap (fun q =>
    let a := sqCfgA n q
    if bit (s.cfgN a) 31 && !bit (s.cfgN a) 16 then some (q, base a, 128 * 2 ^ fld (s.cfgN a) 0 4) else none)) ++
  ((upTo 8).filterMap (fun q =>
    let a := cqCfgA n q
    if bit (s.cfgN a) 31 && !bit (s.cfgN a) 8 then some (8 + q, base a, 32 * 2 ^ fld (s.cfgN a) 0 5) else none))
def State.heldJobs (s : State) (n : Nat) : List Job :=
  s.adm.jobs.filter (fun j => j.inst == n && j.held.isSome && !j.recorded)
def State.migratable (s : State) (n : Nat) : List (Nat × KSlot) :=
  s.keys.slots.filter (fun e => e.2.migratable && e.2.owner == n && e.2.state != 0)
def State.sections (s : State) (n : Nat) : Sections :=
  let i := s.inst n
  let jobs := s.heldJobs n
  { page := (s.cfg.filter (fun e => decide (instPage n ≤ e.1) && decide (e.1 < instPage n + 0x800))).map
      (fun e => (e.1 - instPage n, e.2.toNat))
    sqs := i.sqs.map (fun e => (e.1, e.2.head + 65536 * e.2.tail))
    cqs := i.cqs.map (fun e =>
      (e.1, putN e.2.tail ++ putN e.2.head ++ putT e.2.phase ++ putN e.2.count ++ putT e.2.intPend))
    queues := (s.hbmQueues n).map (fun q => (q.1, s.hbmPeek q.2.1 q.2.2))
    mbox := i.mbox.map (fun e => (e.1, e.2.toNat))
    idx := [i.upProd.toNat, i.upCons.toNat, i.dnProd.toNat, i.dnCons.toNat]
    jobs
    handles := (upTo 16).map (fun h => (let x := s.handle (16 * n + h)
      (if x.ready then 2 else x.state, x.c)))
    claims := i.claims
    edits := (upTo 4).flatMap (fun u => ((s.amu u).lists.filter (fun l => l.inst == n)).map
      (fun l => (u, jobs.findIdx (fun j => j.id == l.job), l.bytes)))
    slots := s.migratable n }

/-! ## Save and restore -/

def migMagic : Nat := 0x4B564D49
/-- The migration key: the AES-256 key of MIG_SLOT, with WRAP (R495). -/
def State.migKey (s : State) (inst : Nat) : Option Bytes :=
  match s.keyFor (s.liveN 0xD00014 % 16384) inst polWrap with
  | some k => if k.type = 0xA1 then some k.secret else none
  | none => none
/-- The check of its cells (R344). -/
def State.migCheck (s : State) (inst : Nat) : State := s.cellCheck (s.liveN 0xD00014 % 16384) inst polWrap
def imageHead (length inst gen jobs f : Nat) (iv tag : Bytes) : Bytes :=
  toLe 4 migMagic ++ toLe 2 1 ++ toLe 1 0xA0 ++ zeros 1 ++ toLe 8 length ++ toLe 16 Config.devid.toNat ++ toLe 2 inst ++ toLe 2 gen ++
    toLe 4 jobs ++ toLe 8 f ++ fitB iv 12 ++ fitB tag 16 ++ zeros 52
/-- INST_SAVE at its end (R378): the image, the carried slots emptied at the next commit, the carried carry keys destroyed. For an
instance that is not FROZEN anything may follow (Table 25.3). -/
def State.instSave (s : State) (j : Job) : Nat × State :=
  let n := dImm0 j.desc % 512
  if (s.inst n).state ≠ 4 then (0, s.anything) else
  match s.migKey j.inst with
  | none => (0x21, s.migCheck j.inst)
  | some key =>
    let x := s.sections n
    let body := putSections x
    let (iv, s) := s.drawBytes 12
    let head := fun tag => imageHead (128 + body.length) n (s.genOf n).toNat x.jobs.length (s.inst n).frozenAt.toNat iv tag
    let (ct, tag) := gcmSeal key iv (head []) body
    let s := s.hbmWrite (dOp j.desc 0) (head tag ++ ct)
    let s := s.modKeys (fun k => { k with pend := k.pend ++ [{ sets := emptied (x.slots.map (·.1)), counter := none }] })
    (0, s.modJobs (fun k => if k.inst = n ∧ k.held.isSome ∧ !k.recorded then { k with carryKey := [] } else k))

/-- The sections load into instance `n` (R380): it stays FROZEN, with the carried jobs held and the image's GEN. They
join the job table whatever room it has (DESIGN CHOICE, log entry 111). -/
def State.loadSections (s : State) (n : Nat) (gen : BitVec 16) (x : Sections) : State :=
  let d := fun (_ : Nat) => (0#8 : Byte)
  let page := instPage n
  let s := { s with cfg := s.cfg.filter (fun e => !(decide (page ≤ e.1) && decide (e.1 < page + 0x800))) }
  let s := x.page.foldl (fun s e => if e.1 < 0x800 then s.setCfg (page + e.1) (BitVec.ofNat 32 e.2) else s) s
  let at_ := fun i => nth x.idx i 0
  let s := s.modInst n (fun i => { i with
    gen
    sqs := x.sqs.foldl (fun m e => mput (fun _ => Sq.init) m e.1 { head := e.2 % 65536, tail := e.2 / 65536 }) []
    cqs := x.cqs.foldl (fun m e => mput (fun _ => Cq.init) m e.1
      { tail := rd e.2 0 8, head := rd e.2 8 8, phase := rd e.2 16 8 == 1, count := rd e.2 24 8, intPend := rd e.2 32 8 == 1 }) []
    mbox := x.mbox.foldl (fun m e => mput d m e.1 (BitVec.ofNat 8 e.2)) []
    upProd := BitVec.ofNat 5 (at_ 0)
    upCons := BitVec.ofNat 5 (at_ 1)
    dnProd := BitVec.ofNat 5 (at_ 2)
    dnCons := BitVec.ofNat 5 (at_ 3)
    claims := x.claims })
  let s := (s.hbmQueues n).foldl (fun s q =>
    match x.queues.find? (fun e => e.1 == q.1) with
    | some e => s.hbmWrite q.2.1 (e.2.take q.2.2)
    | none => s) s
  let s := (x.handles.zipIdx).foldl (fun s e => s.setHandle (16 * n + e.2) { state := e.1.1, ready := false, c := e.1.2 }) s
  let first := s.adm.nextJob
  let s := (x.jobs.zipIdx).foldl (fun s e =>
    { s with adm := { s.adm with jobs := s.adm.jobs ++ [{ e.1 with id := first + e.2 }], nextJob := first + e.2 + 1 } }) s
  let s := x.edits.foldl (fun s e => s.modAmu (e.1 % 4) (fun u => { u with
    lists := u.lists ++ [{ job := first + e.2.1, inst := n, row := 0, bytes := e.2.2 }] })) s
  if x.slots.isEmpty then s else
  s.modKeys (fun k => { k with pend := k.pend ++ [{ sets := x.slots.map (fun e => (e.1, KEdit.put e.2)), counter := none }] })
/-- INST_RESTORE at its end (R380): whole or not at all. For a target that is not FROZEN or holds jobs, or an image of another stepping,
anything may follow (R379, Table 25.3). -/
def State.instRestore (s : State) (j : Job) : Nat × State :=
  let n := dImm0 j.desc % 512
  if (s.inst n).state ≠ 4 ∨ !(s.heldJobs n).isEmpty then (0, s.anything) else
  match s.migKey j.inst with
  | none => (0x21, s.migCheck j.inst)
  | some key =>
    let (head, s) := s.hbmRead (dOp j.desc 0) 128
    let (ct, s) := s.hbmRead (dOp j.desc 0 + 128) (min (rd head 8 8) 50331648 - 128)
    match gcmOpen key (slice head 0x30 12) (wr head 0x3C (zeros 16)) ct (slice head 0x3C 16) with
    | none => (0x20, s)
    | some body =>
      if rd head 6 1 ≠ 0xA0 then (0, s.anything) else
      let gen := BitVec.ofNat 16 (rd head 0x22 2)
      let x := getSections n gen body
      if x.slots.any (fun e => (mget (fun _ => KSlot.empty) s.projected e.1).state != 0) then (0x21, s)
      else (0, s.loadSections n gen x)

/-! ## The end of a job -/

/-- Endings whose reservations fall at the next re-plan step (R82, R86, R105, R172, R175, R232). -/
def laterEnd (opcode status : Nat) : Bool :=
  status == 0x08 || status == 0x10 || status == 0x14 || status == 0x24 ||
    (status == 0x21 && (opcode == 0x0100 || opcode == 0x0700))
/-- A job that has ended, or whose units are all over, is closed; a held job waits (R26, R377). -/
def State.endJob (s : State) (j : Job) : State :=
  if j.recorded || j.held.isSome then s else
  match j.status with
  | some st => s.closeJob j.id st (laterEnd j.opcode st)
  | none =>
    if !j.allOver || (j.tent && j.part.isSome) then s
    else if j.opcode = 0x0900 then
      let (st, s) := s.instSave j
      s.closeJob j.id st false
    else if j.opcode = 0x0901 then
      let (st, s) := s.instRestore j
      s.closeJob j.id st false
    else s.closeJob j.id j.endStatus false
/-- JOB_END. -/
def execJobEnd (job : Nat) (s : State) : Host.Outcome State Fault Refusal :=
  whenRun s (match s.job? job with | none => s | some j => s.endJob j)

end Sys2Proof.Machine
end

