-- ==== Sys2Proof/Machine/Swath.lean ====
section
/-! DEFINITION. The swath: its boundary, the work window and the tail (R53–R61, R82, R90, R105, R343, R456, R465, R478–R481, R489). -/

namespace Sys2Proof.Machine

/-! ## The boundary -/

/-- A unit's counts of the swath that ends become those of the last swath; cycles in which a port waited are free values within
the cycles its slices occupied. A field whose ring ports moved nothing waited for no link (R122). -/
def State.rollField (s : State) (f : Nat) : State :=
  let x := s.field f
  let (w, s) := if x.busyNow = 0 then (0, s) else s.draw 44
  s.setField f { x with
    ing := BitVec.ofNat 64 x.ingNow
    egr := BitVec.ofNat 64 x.egrNow
    ring := BitVec.ofNat 64 x.ringNow
    ingNow := 0
    egrNow := 0
    ringNow := 0
    waitHbm := BitVec.ofNat 22 (fld w 0 22 % (x.busyNow + 1))
    waitRing := if x.ringNow = 0 then 0 else BitVec.ofNat 22 (fld w 22 22 % (x.busyNow + 1))
    busy := x.busyNow
    busyNow := 0 }
def Core.roll (x : Core) : Core := { x with opsLast := x.opsNow, opsNow := 0 }
/-- Every counter of the last swath; the requests that the model does not count one by one are a free number (log entry 15). -/
def State.rollCounts (s : State) : State :=
  let s := (upTo 16).foldl (fun s f => s.rollField f) s
  let (extra, s) := if s.hbmc.servedNow = 0 then (0, s) else s.draw 26
  let (wait, s) := if s.hbmc.servedNow = 0 then (0, s) else s.draw 22
  { s with
    hbmc := { s.hbmc with
      served := BitVec.ofNat 64 (s.hbmc.servedNow + extra)
      servedNow := 0
      waitB := BitVec.ofNat 22 wait }
    amus := mmap (fun _ => Amu.init) (fun _ u => { u with keys := BitVec.ofNat 64 u.keysNow, keysNow := 0 }) s.amus
    cores := mmap (fun _ => Core.init) (fun _ x => x.roll) s.cores
    pipes := mmap (fun _ => Core.init) (fun _ x => x.roll) s.pipes
    loadsLast := 0
    lateLast := 0 }

/-- The row of SWN − 1 retires (R61, R65): its counters and its ledger entries return to those of the row that takes its place,
which holds the reseeds due in it (R101). -/
def State.retireRow (s : State) (r : Nat) : State :=
  { s with
    adm := { s.adm with cal := mdel s.adm.cal r }
    hbm := s.hbm.filter (fun e => !(decide (ledgerBase ≤ e.1) && decide (e.1 < 0x17E8280000) &&
      (e.1 - ledgerBase) / 40 % 65536 == r % 65536)) }

/-- What a headland's beginning brings: the limit of the seal counters (R169), a new mask epoch (R343) and the start of a measurement
(R456). -/
def State.epochs (s : State) : State :=
  let s := s.sealLimits
  let s := if s.swnN % 256 = 0 then { s with keys := { s.keys with maskEpoch := s.keys.maskEpoch + 1, remask := true } } else s
  if s.swnN % 65536 = 0 ∧ s.power.state < 3 then s.modPower (fun p => { p with measuring := true, measSwn := s.glob.swn }) else s

/-! ## Alignment (Table 23.3) -/

/-- The bound of R480 in ns for the member's reference; none without one. -/
def State.alignBound (s : State) : Option Nat :=
  match fld (s.liveN 0xD00000) 8 2 with
  | 1 => some 2000
  | 2 => some 50
  | _ => none
/-- The offset history at a boundary moves a member that takes its tick from a reference. -/
def State.alignStep (s : State) (off : Word) : State :=
  let ctl := s.liveN 0xD00000
  if !bit ctl 31 || bit ctl 4 || !s.commons.refPresent then s else
  let s := s.modCommons (fun c => { c with offset := off, refSwn := c.refSwn + 1 })
  let c := s.commons
  let ok := match s.alignBound with
    | some b => decide (off.toInt.natAbs ≤ b)
    | none => false
  match c.align with
  | 1 =>
    if !ok then s.modCommons (fun c => { c with within := 0 })
    else if c.within + 1 < 16 then s.modCommons (fun c => { c with within := c.within + 1 })
    else if !s.glob.admitOpen then
      { s.modCommons (fun c => { c with align := 2, within := 0, beyond := 0 }) with glob := { s.glob with swn := c.refSwn } }
    else if c.refSwn = s.glob.swn then s.modCommons (fun c => { c with align := 2, within := 0, beyond := 0 })
    else s.modCommons (fun c => { c with within := 16 })
  | 2 =>
    if ok then s.modCommons (fun c => { c with beyond := 0 })
    else if c.beyond + 1 < 4 then s.modCommons (fun c => { c with beyond := c.beyond + 1 })
    else s.modCommons (fun c => { c with align := 4, within := 0, beyond := 0 })
  | 3 => if ok then s.modCommons (fun c => { c with align := 2, within := 0, beyond := 0, holdSwaths := 0 }) else s
  | 4 => if c.refSwn = s.glob.swn then s.modCommons (fun c => { c with align := 1, within := 0 }) else s
  | _ => s
/-- Swaths spent in HOLDOVER. -/
def State.holdStep (s : State) : State :=
  if s.commons.align = 3 then s.modCommons (fun c => { c with holdSwaths := c.holdSwaths + 1 }) else s

/-! ## Admission opens (R465) -/

def State.admitReady (s : State) : Bool :=
  s.seedOpen && s.start.trained && s.keys.phase == 1 && s.life.mark == 0 && s.start.fwOk && s.start.startPlan &&
    (!bit (s.liveN 0xD00000) 31 || s.joined)
def State.openAdmission (s : State) : State :=
  let s := s.modSeed (fun b => { b with openOk := s.seedOpen })
  if s.glob.admitOpen || !s.admitReady then s else { s with glob := { s.glob with admitOpen := true, devState := 1 } }

/-- SWATH_BOUNDARY. In Fallow the units are stopped; the swath timer and the host window go on. -/
def State.boundary (s : State) (off : Word) : State :=
  let s := { s with
    glob := { s.glob with swn := s.glob.swn + 1, inHeadland := true, offset := 0 }
    hostif := { s.hostif with winUsed := 0 } }
  let s := if s.faults.fallow then s else
    (((((s.rollCounts.resendAll.alignStep off).holdStep).retireRow (s.swnN - 1)).epochs).applyPlan).openAdmission
  releaseBar2 s.hostif.bar2Held s
def execSwathBoundary (offNs : Word) (s : State) : Host.Outcome State Fault Refusal :=
  whenUp s (if s.glob.timer then s.boundary offNs else s)

/-- TICK_OUT_PULSE (R478). -/
def execTickOutPulse (s : State) : Host.Outcome State Fault Refusal :=
  whenRun s (if bit (s.liveN 0xD00000) 0 then s.emit .tick else s)

/-- The ingress engines of field `f` issue the first reads of its first unit: their bytes stand in the lookahead buffers from now on.
Later lookahead, 512 cc before a unit's end, reads at that end (log entry 103). -/
def State.lookAhead (s : State) (f : Nat) : State :=
  if !(s.fieldOn f && (s.field f).active) then s else
  match s.claimOn s.swnN f with
  | none => s
  | some (j, p, i) =>
    let s := s.modField f (fun x => { x with lookahead := true })
    match j.opcode, p.openUnits with
    | 0x0100, u :: _ =>
      let rs := (s.unitCtx j p.stage i u p.fields).lookaheadReads
      let data := rs.map (fun r => (r.1, s.hbmPeek r.1 r.2))
      (s.touch rs).modField f (fun x => { x with ingNow := x.ingNow + readBytes rs, ahead := { job := j.id, unit := u, data } })
    | _, _ => s
/-- LOOKAHEAD_START (R125). -/
def execLookaheadStart (s : State) : Host.Outcome State Fault Refusal :=
  whenRun s (((upTo 16).foldl State.lookAhead s).setOffset (s.hCc - 512))

/-! ## The work window -/

/-- First row of stage `k` of a job. -/
def Job.firstRow (j : Job) (k r : Nat) : Bool :=
  j.pls.any (fun p => p.stage == k && p.row == r && decide (p.live > 0)) &&
    !j.pls.any (fun p => p.stage == k && decide (p.row < r) && decide (p.live > 0))
/-- The END check of a stage's first row (R489), and the slots it clears. -/
def State.slotCheck (s : State) (j : Job) (k : Nat) : State :=
  let members := s.partMembers j
  let bad := (s.slotsRead j k).filter (fun q => !(s.inSlot q).complete members)
  let s := bad.foldl (fun s q => s.setInSlot q { s.inSlot q with incomplete := true }) s
  let s := if bad.isEmpty then s else s.setStatus j.id 0x10
  (s.slotsWritten j k).foldl (fun s q => s.setInSlot q SlotSt.init) s
def State.slotChecks (s : State) : State :=
  s.adm.jobs.foldl (fun s j => if j.recorded || j.status.isSome || j.held.isSome then s else
    ((upTo j.stages.length).filter (fun k => j.firstRow k s.swnN)).foldl (fun s k => s.slotCheck j k) s) s

/-- Every match unit that a stage looks keys up on is in service (R263). -/
def State.looksOn (s : State) (v : StageRec) : Bool := (upTo 4).all (fun u => nth v.amu u 0 == 0 || s.amuOn u)
/-- A placement's slices: on every field of its stage or on none (R59, R155). Units that cannot run in their row become lost units. -/
def State.startSlices (s : State) (e : Job × Placement) : State :=
  let (j, p) := e
  let v := j.stage p.stage
  let runs := runsOf p.openUnits
  if !s.looksOn v then s.lose j.id p.seq p.openUnits else
  let slices := fun pos => runs.map (fun r =>
    { job := j.id, stage := p.stage, start := r.1, count := r.2, pos, done := 0, seq := p.seq : Slice })
  if v.fieldCc > 0 then
    let ok := (upTo p.fields.length).all (fun i =>
      let x := s.field (nth p.fields i 0)
      s.fieldOn (nth p.fields i 0) && x.active && (x.plane x.activePlane).holds (s.sectOf j v i))
    if !ok then s.lose j.id p.seq p.openUnits else
    (upTo p.fields.length).foldl (fun s i => s.modField (nth p.fields i 0) (fun x => { x with slices := x.slices ++ slices i })) s
  else if v.pool.all (· == 0) && j.opcode != 0x0801 then
    match (upTo 4).find? (fun u => decide (nth v.amu u 0 > 0)) with
    | some u =>
      if s.amuOn u then s.modAmu u (fun x => { x with slices := x.slices ++ slices 0 }) else s.lose j.id p.seq p.openUnits
    | none =>
      if j.opcode = 0x0500 then s.seedEnds j p else
      s.modJob j.id (fun j => { j with pls := j.pls.map (fun q => if q.seq = p.seq then { q with done := [q.count] } else q) })
  else s

/-- A unit to lay out: its piece and its charge. -/
abbrev Load := Piece × Nat
/-- Wrap placement (R90): what each engine runs, in order, and the units that find no room. `t` is the fill of the first engine. -/
def wrapLay (lim : Nat) : List Nat → Nat → List Load → List (Nat × Piece) → List (Nat × Piece) × List Piece
  | _, _, [], acc => (acc, [])
  | [], _, us, acc => (acc, us.map (·.1))
  | [e], t, (p, c) :: us, acc =>
    if t + c ≤ lim then wrapLay lim [e] (t + c) us (acc ++ [(e, p)])
    else (acc, p :: us.map (·.1))
  | e :: f :: es, t, (p, c) :: us, acc =>
    if t + c ≤ lim then wrapLay lim (e :: f :: es) (t + c) us (acc ++ [(e, p)])
    else if t = lim then wrapLay lim (f :: es) c us (acc ++ [(f, p)])
    else wrapLay lim (f :: es) (t + c - lim) us (acc ++ [(e, { p with part := 2 }), (f, { p with part := 1 })])
  termination_by structural _ _ us => us

/-- Units of the row on pool `q` (4 the digest engine), in placement order. -/
def State.rowLoads (s : State) (q : Nat) : List Load :=
  (s.rowPlacements s.swnN).flatMap (fun e =>
    let c := nth (e.1.stage e.2.stage).pool q 0
    if c = 0 || !s.looksOn (e.1.stage e.2.stage) then [] else
    e.2.openUnits.map (fun u =>
      ({ job := e.1.id, stage := e.2.stage, unit := u, part := 0, seq := e.2.seq, inst := e.1.inst : Piece }, c)))
/-- Units that find no room in their row become lost units. -/
def State.unfit (s : State) (ps : List Piece) : State :=
  ps.foldl (fun s p =>
    match (s.job? p.job).bind (fun j => (j.pls.find? (fun q => q.seq == p.seq)).map (fun q => (j, q))) with
    | some (j, q) => s.lose j.id q.seq [p.unit]
    | none => s) s
/-- Limit L of one unit of resource `x` (R90). -/
def State.limitOf (s : State) (x : Nat) : Nat := if s.rowCnt s.swnN x ≤ s.capC x then s.cCc else s.tCc
def State.layCores (s : State) (q : Nat) : State :=
  let (lay, lost) := wrapLay (s.limitOf (16 + q)) ((s.coresIn q).map (coreBase q + ·)) 0 (s.rowLoads q) []
  (lay.foldl (fun s e => s.modCore e.1 (fun x => { x with pieces := x.pieces ++ [e.2] })) s).unfit lost
/-- Digest units of one kind, in half normalised cycles: a SHA-2 pipeline gives 3 in a cycle, a Keccak pipeline 6 (R92, R303). -/
def State.layPipes (s : State) (keccak : Bool) : State :=
  let loads := (s.rowLoads 4).filter (fun l =>
    (match s.job? l.1.job with | some j => s.unitKind j l.1.stage l.1.unit | none => false) == keccak)
  let pipes := if keccak then s.pipesIn 8 4 else s.pipesIn 0 8
  let (lay, lost) := wrapLay ((if keccak then 6 else 3) * s.limitOf 20) pipes 0 (loads.map (fun l => (l.1, 2 * l.2))) []
  (lay.foldl (fun s e => s.modPipe e.1 (fun x => { x with pieces := x.pieces ++ [e.2] })) s).unfit lost
/-- The first operation of every engine begins. -/
def State.startEngines (s : State) : State :=
  let go := fun (x : Core) => if x.busy || x.pieces.isEmpty then x else x.start x.pieces
  { s with
    cores := mmap (fun _ => Core.init) (fun _ x => go x) s.cores
    pipes := mmap (fun _ => Core.init) (fun _ x => go x) s.pipes }.begins

/-- The row counts for every job that holds a unit in it. -/
def State.countRows (s : State) : State :=
  let now := s.swnN
  s.modJobs (fun j =>
    if !j.recorded && !j.rows.contains now && j.pls.any (fun p => p.row == now && decide (p.live > 0)) then
      { j with rows := j.rows ++ [now] } else j)
/-- WORK_WINDOW_BEGINS. -/
def State.workWindow (s : State) : State :=
  let s := { s with glob := { s.glob with inHeadland := false, offset := s.hCc } }
  let s := s.countRows.slotChecks
  let s := ((s.rowPlacements s.swnN).foldl (fun s e => s.startSlices e) s).modSeed (fun b => { b with served := [] })
  let s := (upTo 16).foldl (fun s f => s.sliceBegins f) s
  let s := (upTo 4).foldl (fun s q => s.layCores q) s
  ((s.layPipes false).layPipes true).startEngines
def execWorkWindowBegins (s : State) : Host.Outcome State Fault Refusal :=
  whenRun s (if s.glob.inHeadland then s.workWindow else s)

/-! ## The tail -/

/-- Whatever still runs stops: slices are cut (R105), and units of the engines run again (R78). -/
def State.stopAll (s : State) : State :=
  let s := (upTo 16).foldl (fun s f => (s.field f).slices.foldl (fun s _ => s.cutSlice f) s) s
  let s := (upTo 4).foldl (fun s u => (s.amu u).slices.foldl (fun s _ => s.cutLookup u) s) s
  let left := (s.cores ++ s.pipes).flatMap (fun e => e.2.pieces)
  let s := left.foldl (fun s p => s.lose p.job p.seq [p.unit]) s
  let off := fun (_ : Nat) (x : Core) => x.clear
  { s with cores := mmap (fun _ => Core.init) off s.cores, pipes := mmap (fun _ => Core.init) off s.pipes }
/-- The safeguard of R82. -/
def State.deadlines (s : State) : State :=
  (s.adm.jobs.filter (fun j => !j.recorded && j.held.isNone && j.part.isNone && j.status.isNone && decide (j.deadline ≤ s.swnN))).foldl
    (fun s j => (s.setStatus j.id 0x10).closeJob j.id 0x10 true) s
/-- TAIL_BEGINS. -/
def State.tail (s : State) : State :=
  let s := s.stopAll.seedTail
  let s := s.adm.jobs.foldl (fun s j => match s.job? j.id with | some j => s.endJob j | none => s) s
  let s := s.deadlines
  let s := (upTo 16).foldl (fun s f => s.modField f (fun x => { x with lookahead := false, ahead := Ahead.none })) s
  s.setOffset (s.nCc - 2048)
def execTailBegins (s : State) : Host.Outcome State Fault Refusal :=
  whenRun s (if s.glob.timer && decide (s.swnN > 0) then s.tail else s)

end Sys2Proof.Machine
end

