-- ==== Sys2Proof/Machine/Faults.lean ====
section
/-! DEFINITION. The fault collector: sampling and records, the reactions of a group, fences and block resets, FAULT_N, votes and
parity, and the Fallow state (R24, R44–R49, R129–R132, R156, R263, R286, R321, R405–R422). -/

namespace Sys2Proof.Machine

def State.modFaults (s : State) (g : Faults → Faults) : State := { s with faults := g s.faults }

/-! ## Aborted work (R24, R78) -/

/-- Units from `u` on of placement `seq` leave the other fields of their stage as well. -/
def Slice.upto (sl : Slice) (job seq u : Nat) : List Slice :=
  if sl.job ≠ job ∨ sl.seq ≠ seq then [sl]
  else
    let c := min sl.count (u - sl.start)
    if sl.done < c then [{ sl with count := c }] else []
/-- The units that slice `sl` of field `f` has not ended become lost units, on every field of their stage. -/
def State.abortSlice (s : State) (f : Nat) (sl : Slice) : State :=
  let u := sl.start + sl.done
  let s := s.lose sl.job sl.seq ((upTo (sl.count - sl.done)).map (· + u))
  (upTo 16).foldl (fun s g =>
    if g = f then s.modField g (fun x => { x with slices := x.slices.filter (· != sl) })
    else
      let before := (s.field g).slices
      let after := before.flatMap (fun y => y.upto sl.job sl.seq u)
      if before = after then s else
      let s := s.modField g (fun x => { x with slices := after })
      if (before.head?.map (·.seq)) = (after.head?.map (·.seq)) then s else s.sliceBegins g) s
/-- The running slice of a field is aborted: what its unit may have written is free (R177). -/
def State.abortHead (s : State) (f : Nat) : State :=
  match (s.field f).slices with
  | [] => s
  | sl :: _ =>
    let s := match s.job? sl.job with | none => s | some j => s.breakUnit j sl f .aborted
    (s.abortSlice f sl).sliceBegins f
/-- Every slice of a field is aborted. -/
def State.abortField (s : State) (f : Nat) : State :=
  let s := s.abortHead f
  (s.field f).slices.foldl (fun s sl => s.abortSlice f sl) s
/-- Units of pieces picked by `q`, with every other piece of the same units, become lost units (R286, R321). -/
def State.abortPieces (s : State) (ps : List Piece) : State :=
  let s := ps.foldl (fun s p => s.lose p.job p.seq [p.unit]) (s.dropPieces (fun e => ps.any (fun p => p.same e)))
  (ps.map (·.job)).eraseDups.foldl (fun s id => s.freshRnd id) s

/-! ## Fences (R416) -/

/-- The ring routes that the active plane of field `g` enables cross, or lead to, field `f` (R120, R132). -/
def State.crosses (s : State) (f g : Nat) : Bool :=
  let x := s.field g
  x.active && x.ringDest.any (fun e =>
    (ringPath g e.2 ((mget (fun _ => 0#8) (x.plane x.activePlane).data (0x100 + 4 * e.1 + 3)).getLsbD 6)).contains f)
/-- A field leaves service with its planes (R132, R156); the stages on other fields whose ring routes cross it lose their units there. -/
def State.fenceField (s : State) (f : Nat) : State :=
  if (s.field f).fenced then s else
  let lost := (upTo 16).filter (fun g => g != f && s.crosses f g)
  let s := lost.foldl (fun s g => s.abortField g) ((s.abortField f).idleField f)
  s.modField f (fun x => { x with fenced := true, planes := [], loading := none, slices := [], lookahead := false, ahead := Ahead.none })
/-- The tile map of the active plane gives physical tile `t` to one of the tiles that the plane's section header needs (R131). -/
def State.tileUsed (s : State) (f t : Nat) : Bool :=
  let x := s.field f
  let k := kindOf t
  x.active && (upTo (nth (x.plane x.activePlane).tileNeed k 0)).any (fun i =>
    fld (nth x.tileMap k 0#32).toNat (3 * i) 3 == t - kindBase k)
/-- A tile leaves service (R131). The slices of a field whose active plane uses it are aborted; before the work window that plane can
no longer run, and the row's units on the field are lost when the window begins (log entry 75). -/
def State.fenceTile (s : State) (f t : Nat) : State :=
  if (s.field f).tileFence.getLsbD t then s else
  let s := if !s.tileUsed f t then s else if s.glob.inHeadland then s.idleField f else s.abortField f
  s.modField f (fun x => { x with tileFence := x.tileFence ||| BitVec.ofNat 40 (2 ^ t) })
/-- A stage looks keys up on match unit `u`. -/
def StageRec.looksUp (v : StageRec) (u : Nat) : Bool := decide (nth v.amu u 0 > 0)
def State.pieceLooks (s : State) (u : Nat) (p : Piece) : Bool :=
  match s.job? p.job with | some j => (j.stage p.stage).looksUp u | none => false
def State.sliceLooks (s : State) (u : Nat) (sl : Slice) : Bool :=
  match s.job? sl.job with | some j => (j.stage sl.stage).looksUp u | none => false
/-- A lookup slice of a match unit is aborted. -/
def State.abortLookup (s : State) (u : Nat) (sl : Slice) : State :=
  (s.lose sl.job sl.seq ((upTo (sl.count - sl.done)).map (· + (sl.start + sl.done)))).modAmu u
    (fun x => { x with slices := x.slices.filter (· != sl) })
def State.enginePieces (s : State) : List Piece := (s.cores ++ s.pipes).flatMap (fun e => e.2.pieces)
/-- A match unit leaves service (R263): every slice and operation of the row with lookup demand on it is aborted. -/
def State.fenceAmu (s : State) (u : Nat) : State :=
  if (s.amu u).fenced then s else
  let s := s.stopPass u
  let s := (upTo 16).foldl (fun s f => (s.field f).slices.foldl (fun s sl =>
    if s.sliceLooks u sl then
      (if (s.field f).slices.head? = some sl then s.abortHead f else s.abortSlice f sl)
    else s) s) s
  let s := s.abortPieces (s.enginePieces.filter (s.pieceLooks u))
  let s := (s.amu u).slices.foldl (fun s sl => s.abortLookup u sl) s
  s.modAmu u (fun x => { x with fenced := true, probe := none })
/-- A core or pipeline leaves service (R286, R321): its units, and units split with it, are lost; a moving state is wiped. -/
def State.fenceEng (s : State) (pipe : Bool) (k : Nat) : State :=
  if (s.eng pipe k).fenced then s else
  let x := s.eng pipe k
  (s.abortPieces (x.pieces ++ (x.out.map (·.1)).toList)).modEng pipe k (fun x => { x.clear with fenced := true })
def State.fenceCore (s : State) (k : Nat) : State := s.fenceEng false k
def State.fencePipe (s : State) (p : Nat) : State := s.fenceEng true p
def State.fencePort (s : State) (k : Nat) : State :=
  (s.modCommons (fun c => { c with fenced := c.fenced ||| BitVec.ofNat 4 (2 ^ k) })).movePlanes

/-- The unit that a FENCE of source `n` takes out of service (Table 18.1); a tile is named in the report. -/
def State.fenceBy (s : State) (n : Nat) (unit : BitVec 16) : State :=
  match faultKind n with
  | none => s
  | some k =>
    if !k.fence then s
    else if n < 168 then
      let f := (n - 72) / 6
      if (n - 72) % 6 = 2 then s.fenceTile f (unit.toNat % 4096 % 40) else s.fenceField f
    else if n < 192 then s.fenceAmu ((n - 176) / 4)
    else if n < 260 then (match srcCore n with | some c => s.fenceCore c | none => s)
    else if n < 284 then s.fencePipe ((n - 260) / 2)
    else if n < 300 then s.fenceSource (n - 292)
    else if n < 436 then s.fencePc (n - 308)
    else s.fencePort (n - 445)

/-! ## Block resets (R409) -/

/-- A field's running slice is aborted; planes and store stay. -/
def State.resetField (s : State) (f : Nat) : State := s.abortHead f
/-- A match unit's lookup logic is reset. Which running slices have a key outstanding at the reset cycle is open: a free choice
for each. The table, COUNT and the edit store stay. -/
def State.resetAmu (s : State) (u : Nat) : State :=
  let (w, s) := s.draw 64
  let s := (upTo 16).foldl (fun s f =>
    match (s.field f).slices.head? with
    | some sl => if s.sliceLooks u sl && bit w f then s.abortHead f else s
    | none => s) s
  let heads := ((s.cores ++ s.pipes).filterMap (fun e => e.2.head?)).filter (s.pieceLooks u)
  let s := s.abortPieces ((heads.zipIdx.filter (fun e => bit w (16 + e.2))).map (·.1))
  let s := match (s.amu u).slices.head? with
    | some sl => if bit w 63 then s.abortLookup u sl else s
    | none => s
  s.modAmu u (fun x => { x with scrubPos := 0 })
/-- A core's running operation is aborted. -/
def State.resetCore (s : State) (k : Nat) : State := s.abortPieces (s.core k).head?.toList
/-- A pipeline's open contexts are aborted (R304, R321). -/
def State.resetPipe (s : State) (p : Nat) : State :=
  if (s.pipe p).busy then s.abortPieces ((s.pipe p).pieces.take (if p < 8 then 4 else 8)) else s
/-- A port retrains: its link is down until PORT_RETRAINED (R491). -/
def State.resetPort (s : State) (k : Nat) : State :=
  (s.modCommons (fun c => { c with linkUp := c.linkUp &&& ~~~BitVec.ofNat 4 (2 ^ k) })).movePlanes
/-- A target is reset under R394. -/
def State.resetTarget (s : State) (t : Nat) : State := s.dropStack t

/-- STICKY of the sources that `q` picks clears (R412). -/
def State.clearSticky (s : State) (q : Nat → Bool) : State :=
  s.modFaults (fun f => { f with sticky := (upTo 512).foldl (fun m n => if q n then m &&& ~~~BitVec.ofNat 512 (2 ^ n) else m) f.sticky })
/-- Sources whose reset domain is a unit of block `b`. -/
def blockSources (b n : Nat) : Bool :=
  match b with
  | 2 => decide (72 ≤ n) && decide (n < 168) && (n - 72) % 6 != 4
  | 4 => decide (176 ≤ n) && decide (n < 192)
  | 5 => decide (192 ≤ n) && decide (n < 224)
  | 6 => decide (224 ≤ n) && decide (n < 232)
  | 7 => decide (232 ≤ n) && decide (n < 236)
  | 8 => decide (236 ≤ n) && decide (n < 260)
  | 9 => decide (260 ≤ n) && decide (n < 284)
  | 20 => decide (441 ≤ n) && decide (n < 449)
  | _ => false
/-- Read-only registers of a block return to reset values with its units. -/
def State.resetUnits (s : State) (b : Nat) : State :=
  let pool := fun (s : State) (p : Nat) =>
    let s := (upTo (coreCount p)).foldl (fun s c =>
      (s.resetCore (coreBase p + c)).modCore (coreBase p + c) (fun x => { x with opsLast := 0, opsNow := 0, moving := false })) s
    { s with pools := mdel s.pools p }
  match b with
  | 2 => (upTo 16).foldl (fun s f => (s.resetField f).modField f (fun x => { x with
      ing := 0, egr := 0, ring := 0, ingNow := 0, egrNow := 0, ringNow := 0, waitHbm := 0, waitRing := 0, busy := 0, busyNow := 0
      cuts := 0 })) s
  | 4 => (upTo 4).foldl (fun s u => (s.resetAmu u).modAmu u (fun x => { x with
      scrubFix := 0, passEdits := 0, passCycles := 0, keys := 0, keysNow := 0, probe := none, probeDone := false, probeHit := false
      probeAddr := 0 })) s
  | 5 => pool s 0
  | 6 => pool s 1
  | 7 => pool s 2
  | 8 => pool s 3
  | 9 =>
    let s := (upTo 12).foldl (fun s p => (s.resetPipe p).modPipe p (fun x => { x with opsLast := 0, opsNow := 0, moving := false })) s
    { s with digest := DigestCnt.init }
  | 20 =>
    let s := (upTo 4).foldl (fun s k => s.resetPort k) s
    s.modCommons (fun c => { c with offset := 0, ctrlNow := [], waiting := [], tx := [], txNow := [], drop := [], peers := [], slots := [] })
  | _ => s
/-- A register block that is a reset domain: registers, shadows included, return to reset values, FENCED bits apart. -/
def State.resetBlock (s : State) (b : Nat) : State :=
  if !blockDomain b then s else
  let join := bit (s.liveN 0xD00000) 31
  let keep := fun (e : Nat × Word) => blockOf e.1 != b
  let s := { s with
    cfg := s.cfg.filter keep
    live := s.live.filter keep
    parBad := s.parBad.filter (fun a => blockOf a != b)
    voteBad := s.voteBad.filter (fun e => blockOf e.1 != b || (match regAt e.1 with | some (r, _, _) => r.rw == 0 | none => false)) }
  let s := s.settleCause b
  (s.resetUnits b).joinChange join
/-- A BLOCK_RESET of source `n`. -/
def State.resetBy (s : State) (n : Nat) : State :=
  match faultKind n with
  | none => s
  | some k =>
    if !k.domain then s
    else if n < 69 then (s.resetBlock (n / 3)).clearSticky (fun i => i == n / 3 * 3 + 1 || i == n / 3 * 3 + 2 || blockSources (n / 3) i)
    else if n < 168 then
      let f := (n - 72) / 6
      (s.resetField f).clearSticky (fun i => decide (72 + 6 * f ≤ i) && decide (i < 78 + 6 * f) && i != 76 + 6 * f)
    else if n < 192 then
      let u := (n - 176) / 4
      (s.resetAmu u).clearSticky (fun i => decide (176 + 4 * u ≤ i) && decide (i < 180 + 4 * u))
    else if n < 260 then
      (match srcCore n with
       | some c => (s.resetCore c).clearSticky (fun i => srcCore i == some c)
       | none => s)
    else if n < 284 then
      let p := (n - 260) / 2
      (s.resetPipe p).clearSticky (fun i => i == 260 + 2 * p || i == 261 + 2 * p)
    else if n < 449 then
      let k := (n - 441) % 4
      (s.resetPort k).clearSticky (fun i => i == 441 + k || i == 445 + k)
    else (s.resetTarget (n - 452)).clearSticky (· == n)

/-! ## Sampling (R410–R413) -/

/-- The mask in force: the FAULT block's own sources and source 474 ignore theirs (R408). -/
def State.maskOf (s : State) (n : Nat) : Nat :=
  if (45 ≤ n ∧ n ≤ 47) ∨ n = 474 then 0 else reactMask n (s.cfgN (reactA n))
/-- A fault record (Table 18.3). -/
def faultRecord (swn off : Nat) (r : FaultReport) (cls : Nat) (first : Bool) (taken : Nat) : Bytes :=
  toLe 8 swn ++ toLe 4 (off + r.source.val * 2 ^ 23) ++ toLe 1 (cls + 128 * b2n first) ++ toLe 1 taken ++ toLe 2 r.unit.toNat ++
    toLe 8 r.detail0.toNat ++ toLe 8 r.detail1.toNat
/-- Instance of the work that runs on a field, or on a core or pipeline; 0xFFFF without work. -/
def State.fieldInst (s : State) (f : Nat) : Nat :=
  (((s.field f).slices.head?.bind (fun sl => s.job? sl.job)).map (·.inst)).getD 0xFFFF
def State.engInst (s : State) (pipe : Bool) (k : Nat) : Nat := (((s.eng pipe k).head?).map (·.inst)).getD 0xFFFF
/-- A report of a unit of the chip names its unit as Table 18.4 codes it, and the instance of the work that runs there (Table 18.3). -/
def State.complete (s : State) (r : FaultReport) : FaultReport :=
  let n := r.source.val
  let named := fun (unit : BitVec 16) => { r with unit, detail1 := 0 }
  let working := fun (unit : BitVec 16) (inst : Nat) => { r with unit, detail1 := BitVec.ofNat 64 inst }
  if n < 72 then named 0
  else if n < 168 then
    let f := (n - 72) / 6
    match (n - 72) % 6 with
    | 2 => working (unitCode 1 (40 * f + r.unit.toNat % 4096 % 40)) (s.fieldInst f)
    | 4 => { r with unit := unitCode 2 f }
    | _ => working (unitCode 2 f) (s.fieldInst f)
  else if n < 176 then { r with detail1 := 0 }
  else if n < 192 then named (unitCode 8 ((n - 176) / 4))
  else if n < 260 then (match srcCore n with
    | some k => working (unitCode (3 + corePool k) (k - coreBase (corePool k))) (s.engInst false k)
    | none => r)
  else if n < 284 then working (unitCode 7 ((n - 260) / 2)) (s.engInst true ((n - 260) / 2))
  else if n < 292 then named (unitCode 11 (n - 284))
  else if n < 300 then named (unitCode 11 (n - 292))
  else if n < 308 then named 0
  else if n < 436 then named (unitCode 9 (n - 308))
  else if n < 441 then named 0
  else if n < 449 then named (unitCode 10 ((n - 441) % 4))
  else if n = 449 then { r with detail1 := 0 }
  else if n < 452 then named 0
  else if n < 468 then named (unitCode 12 (n - 452))
  else named 0
/-- After an entry by COLLECTOR_LOGIC or an array error the collector's bits, counts and records may be wrong (R422): free values. -/
def State.wrongEvent (s : State) (n : Nat) : State :=
  if !(s.faults.fallow && s.faults.fallowCause.getLsbD 9) then s else
  let (st, s) := s.draw 512
  let (c, s) := s.draw 16
  let (at_, s) := s.draw 8
  let (rec_, s) := s.drawBytes 32
  s.modFaults (fun f => { f with
    sticky := BitVec.ofNat 512 st, count := cput f.count n c, fq := mput (fun _ => zeros 32) f.fq at_ rec_ })
/-- One event: STICKY, COUNT, and its record while the queue has room. -/
def State.recordEvent (s : State) (off taken : Nat) (r : FaultReport) : State :=
  let n := r.source.val
  let cls := match faultKind n with | some k => k.cls | none => 0
  let s := s.uses [0xB00014]
  let full := (s.faults.prod.toNat + 512 - s.cfgN 0xB00014 % 512) % 512 == 256
  s.modFaults (fun f => { f with
    sticky := f.sticky ||| BitVec.ofNat 512 (2 ^ n)
    count := cput f.count n (satInc 16 (cget f.count n))
    fq := if full then f.fq else
      mput (fun _ => zeros 32) f.fq (f.prod.toNat % 256) (faultRecord s.swnN off r cls (!f.sticky.getLsbD n) taken)
    prod := if full then f.prod else f.prod + 1
    dropped := if full then satInc 32 f.dropped else f.dropped })
/-- Reactions of a mask in the order of Table 18.2, by REACT bit. -/
def reactions (mask : Nat) : List Nat := [4, 5, 2, 0, 1, 3].filter (bit mask)
/-- CORE_FAULT and PIPE_FAULT (Table 18.1). -/
def isCoreFault (n : Nat) : Bool := (decide (192 ≤ n) && decide (n < 236) && n % 2 == 1) || (decide (236 ≤ n) && decide (n < 260) && (n - 236) % 3 == 1)
/-- What an uncorrected error withholds (R30): a bank read or a constant-pool read aborts the field's running slice (R119, R142); a read
of an operand RAM or of a pipeline's contexts aborts the running operation or the open contexts, which run again (DESIGN CHOICE, log
entry 113). -/
def State.storeError (s : State) (n : Nat) : State :=
  if 72 ≤ n ∧ n < 168 ∧ (n - 72) % 6 = 1 then s.abortHead ((n - 72) / 6)
  else if isCoreFault n then (match srcCore n with | some c => s.resetCore c | none => s)
  else if 260 ≤ n ∧ n < 284 ∧ n % 2 = 1 then s.resetPipe ((n - 260) / 2)
  else s
/-- A group is sampled: waiting reports of the block's own commands, and reports `ext` that other units of the chip raise now; in
Fallow no reaction is taken (R422). -/
def State.sample (s : State) (off n : Nat) (ext : List FaultReport) : State :=
  let n' := min n s.faults.reports.length
  let group := s.faults.reports.take n ++
    (ext.map s.complete).filter (fun r => (faultKind r.source.val).isSome && !s.fencedAlready r.source.val r.unit)
  let s := s.modFaults (fun f => { f with reports := f.reports.drop n })
  let mask := if s.faults.fallow then 0 else group.foldl (fun m r => m ||| s.maskOf r.source.val) 0
  let s := group.foldl (fun s r => (s.recordEvent off mask r).wrongEvent r.source.val) s
  let s := (group.drop n').foldl (fun s r => s.storeError r.source.val) s
  if mask = 0 then s else s.modFaults (fun f => { f with groups := f.groups ++ [{ reports := group, todo := reactions mask }] })
/-- FAULT_GROUP_SAMPLED. -/
def execFaultGroupSampled (off : BitVec 22) (n : Nat) (ext : List FaultReport) (s : State) : Host.Outcome State Fault Refusal :=
  whenUp s (s.sample off.toNat n ext)

/-! ## Reactions (Table 18.2) -/

/-- The group at the front, when reaction `r` is its next: INT and NMI stand in one place of the order. -/
def State.nextGroup (s : State) (r : Nat) : Option FGroup :=
  match s.faults.groups with
  | [] => none
  | g :: _ =>
    match g.todo with
    | [] => none
    | x :: rest => if x = r ∨ (x = 0 ∧ r = 1 ∧ rest.head? = some 1) then some g else none
/-- The reaction is taken; a group with none left is done. -/
def State.taken (s : State) (r : Nat) : State :=
  s.modFaults (fun f => { f with groups := match f.groups with
    | [] => []
    | g :: gs => if (g.todo.filter (· != r)).isEmpty then gs else { g with todo := g.todo.filter (· != r) } :: gs })
/-- Reports of a group whose own mask selects reaction `r`. -/
def State.chosen (s : State) (g : FGroup) (r : Nat) : List FaultReport :=
  g.reports.filter (fun x => bit (s.maskOf x.source.val) r)
/-- Take reaction `r` of the group at the front. -/
def State.react (s : State) (r : Nat) (act : State → FGroup → State) : State :=
  if s.faults.fallow then s else
  match s.nextGroup r with
  | none => s
  | some g => act (s.taken r) g

/-- REACTION_PIN (R415): FAULT_N low, and its pulse starts anew. -/
def execReactionPin (s : State) : Host.Outcome State Fault Refusal :=
  whenUp s (s.react 4 (fun s _ => s.modFaults (fun f => { f with pinLow := true, pulse := true })))
/-- REACTION_FENCE. -/
def execReactionFence (s : State) : Host.Outcome State Fault Refusal :=
  whenUp s (s.react 5 (fun s g => (s.chosen g 5).foldl (fun s x => s.fenceBy x.source.val x.unit) s))
/-- REACTION_BLOCK_RESET. -/
def execReactionBlockReset (s : State) : Host.Outcome State Fault Refusal :=
  whenUp s (s.react 2 (fun s g => (s.chosen g 2).foldl (fun s x => s.resetBy x.source.val) s))
/-- REACTION_INT: INTC source n becomes pending. -/
def execReactionInt (s : State) : Host.Outcome State Fault Refusal :=
  whenUp s (s.react 0 (fun s g => (s.chosen g 0).foldl (fun s x => s.pendSrc x.source.val) s))
/-- REACTION_NMI (R395): taken by CM0; it pushes nothing. -/
def execReactionNmi (s : State) : Host.Outcome State Fault Refusal :=
  whenUp s (s.react 1 (fun s g =>
    { s with intc := { s.intc with nmi := s.intc.nmi ++ (s.chosen g 1).map (fun x => x.source.val) } }))
/-- REACTION_CHIP_RESET (R410, R414, R427): later reactions and groups are gone with the reset. -/
def execReactionChipReset (s : State) : Host.Outcome State Fault Refusal :=
  whenUp s (s.react 3 (fun s g =>
    if (s.chosen g 3).any (fun x => decide (480 ≤ x.source.val)) then s.tamperReset else s.copyCause.chipReset causeFault))

/-! ## FAULT_N (R415) -/

def State.pinHold (s : State) : Bool := bit (s.cfgN 0xB00008) 0
/-- FAULT_PIN_TIMER: the pulse has run. -/
def execFaultPinTimer (s : State) : Host.Outcome State Fault Refusal :=
  whenUp s (if s.faults.pulse then
    (s.uses [0xB00008]).modFaults (fun f => { f with pulse := false, pinLow := s.pinHold || f.fallow }) else s)
/-- A write of FAULT_PIN_CTL.HOLD. -/
def State.holdPin (s : State) (hold : Bool) : State :=
  let s := (s.setCfg 0xB00008 (BitVec.ofNat 32 (b2n hold))).rewritten 0xB00008
  if hold || s.faults.pulse then s else s.modFaults (fun f => { f with pinLow := f.fallow })
def execFaultPinHoldWrite (who : Requester) (hold : Bool) (s : State) : Host.Outcome State Fault Refusal :=
  whenRun s (if reachesPf who then s.holdPin hold else s)

/-! ## Fallow (R419–R421) -/

/-- The path allows the FALLOW record of a job (R421): a CQ in HBM needs the pseudo-channel of its tail in service, one in host memory the
link in L0; bus mastering counts as enabled (log entry 118). -/
def State.recordPath (s : State) (j : Job) : Bool :=
  let a := cqCfgA j.inst j.cq
  if bit (s.cfgN a) 8 then s.hostif.linkUp && !s.hostif.linkLow
  else !s.hbmc.pcFenced.getLsbD (pcOf (s.cfgN (a - 8) + 2 ^ 32 * s.cfgN (a - 4) + 32 * ((s.inst j.inst).cq j.cq).tail))
/-- DONE records with status FALLOW: ascending instance, then order of acceptance. -/
def State.fallowRecords (s : State) : State :=
  let own := s.commons.cjobs.map (·.job)
  let open_ := s.adm.jobs.filter (fun j => !j.recorded && (j.part.isNone || own.contains j.id))
  let order := sortBy (fun (a b : Job) => decide (a.inst < b.inst)) open_
  let s := order.foldl (fun s j =>
    if s.recordPath j then
      s.cqWrite j.inst j.cq (mkRecord j.tag.toNat j.deadline s.swnN 1 0x12 (b2n j.trunc + 2 * b2n j.sat) j.sq
        (s.genOf j.inst).toNat (min 0xFFFF j.rows.length))
    else s) (open_.foldl (fun s j => s.jobCleanup j 0x12) s)
  { s with adm := { s.adm with jobs := [] } }
/-- Fallow is entered: the steps of Table 18.5. -/
def State.enterFallow (s : State) (cause : BitVec 10) : State :=
  let s := s.copyCause
  let s := s.modFaults (fun f => { f with fallow := true, fallowCause := cause, pinLow := true, pulse := false, groups := [] })
  let s := { s with
    glob := { s.glob with devState := 2 }
    adm := { s.adm with inlet := [] }
    commons := { s.commons with rsv := [], waiting := [] } }
  let s := s.dropPieces (fun _ => true)
  let s := { s with
    fields := mmap (fun _ => Field.init) (fun _ x => { x with slices := [], seals := [], loading := none }) s.fields
    amus := mmap (fun _ => Amu.init) (fun _ x => { x with slices := [], pass := none, count := x.pass.elim x.count (·.oldCount) }) s.amus
    keys := { s.keys with slots := [], pend := [], phase := 2 } }
  let s := (upTo 12).foldl (fun s c => s.haltCore c) s
  s.fallowRecords.modFaults (fun f => { f with fallowDone := true })
/-- FALLOW_ENTRY: after a guard event of the FAULT block, or an error of the collector. -/
def execFallowEntry (cause : FallowCause) (s : State) : Host.Outcome State Fault Refusal :=
  whenRun s (match cause with
    | .logic => s.enterFallow 512
    | .guard n =>
      if 45 ≤ n.val ∧ n.val ≤ 47 ∧ (s.faults.sticky.getLsbD n.val || s.faults.reports.any (fun r => r.source == n)) then
        s.enterFallow (BitVec.ofNat 10 n.val) else s)

/-! ## Votes (R44–R46) -/

/-- Masks of the triplicated fields of a register. -/
def tripleFields (r : RegRow) (j : Nat) : List Nat :=
  if r.guard == .triple then [r.known] else
  match r.id with
  | .fieldState => [2]
  | .tileFence => [if j = 0 then 0xFFFFFFFF else 0xFF]
  | .pcFenced => [0xFFFFFFFF]
  | .amuState => [0x100000]
  | .latCoreState => [2]
  | .hsgCoreState => [2]
  | .codCoreState => [2]
  | .bnCoreState => [2]
  | .pipeState => [2]
  | .seedSources => [0xFF00]
  | .slotPolicy => [0x80000000, 0x40000000, 0x20000000, 0x1FF0000, 0x7F]
  | .lcState => [1]
  | .portState => [4]
  | _ => []
/-- Safe value of a triplicated field (Table 2.4). -/
def State.safeValue (s : State) (r : RegRow) (i mask : Nat) : Nat :=
  match r.id with
  | .share => 0
  | .lend => 0
  | .react => reactMask i 0x2B
  | .tamperEnable => 0x7FF &&& (s.tamper.eff ^^^ 0xFFFF#16).toNat
  | .bkEnable => 7 &&& ((s.tamper.eff ^^^ 0xFFFF#16).toNat / 8192)
  | .slotPolicy => 0
  | _ => mask
/-- Fence the units whose bits of a fence field are set. -/
def State.fenceBits (s : State) (r : RegRow) (i j w : Nat) : State :=
  let bits := fun n => (upTo n).filter (bit w)
  match r.id with
  | .fieldState => s.fenceField i
  | .tileFence => (bits 32).foldl (fun s b => if 32 * j + b < 40 then s.fenceTile i (32 * j + b) else s) s
  | .pcFenced => (bits 32).foldl (fun s b => s.fencePc (32 * i + b)) s
  | .amuState => s.fenceAmu i
  | .latCoreState => s.fenceCore i
  | .hsgCoreState => s.fenceCore (16 + i)
  | .codCoreState => s.fenceCore (20 + i)
  | .bnCoreState => s.fenceCore (22 + i)
  | .pipeState => s.fencePipe i
  | .seedSources => ((upTo 8).filter (fun b => bit w (8 + b))).foldl (fun s b => s.fenceSource b) s
  | .portState => s.fencePort i
  | _ => s
/-- A triplicated field takes value `w` (in place under `mask`). A slot whose OWNER has no majority permits no operation. -/
def State.setTriple (s : State) (a : Nat) (r : RegRow) (i j mask : Nat) (live lost : Bool) (w : Nat) : State :=
  if r.guard == .triple then
    let v := BitVec.ofNat 32 w
    if live && r.shadow then s.setLive a v else s.setCfg a v
  else match r.id with
  | .slotPolicy => s.modSlot i (fun k =>
      match mask with
      | 0x80000000 => { k with migratable := w != 0 }
      | 0x40000000 => { k with cipher := w != 0 }
      | 0x20000000 => { k with kmac := w != 0 }
      | 0x7F => { k with policy := BitVec.ofNat 7 w }
      | _ => if lost then { k with policy := 0 } else { k with owner := w / 65536 })
  | .lcState => if w = 1 then (s.modLife (fun l => { l with closed := true })).endDebug else s.modLife (fun l => { l with closed := false })
  | _ => if w = 0 then s else s.fenceBits r i j w
/-- The voter finds copies that differ (R45, R46). -/
def State.vote (s : State) (a mask : Nat) (live : Bool) (c0 c1 c2 : Nat) : State :=
  match regAt a with
  | none => s
  | some (r, i, j) =>
    if !(tripleFields r j).contains mask || (c0 = c1 ∧ c1 = c2) then s else
    let b := blockOf a
    let live := live && r.shadow
    if c0 = c1 ∨ c0 = c2 ∨ c1 = c2 then
      let s := s.setTriple a r i j mask live false (if c1 = c2 then c1 else c0)
      let s := { s with glob := { s.glob with voteCount := satInc 16 s.glob.voteCount } }
      s.raise (3 * b) 0 a 0
    else
      let s := s.setTriple a r i j mask live true (s.safeValue r i mask)
      let s := { s with voteBad := if s.voteBad.contains (a, live) then s.voteBad else s.voteBad ++ [(a, live)] }
      (s.raise (3 * b + 1) 0 a 0).setCause (3 * b + 1) true
/-- REGISTER_VOTE. -/
def execRegisterVote (addr : Nat) (mask : Word) (liveTriple : Bool) (c0 c1 c2 : Word) (s : State) :
    Host.Outcome State Fault Refusal :=
  whenUp s (s.vote addr mask.toNat liveTriple (c0 &&& mask).toNat (c1 &&& mask).toNat (c2 &&& mask).toNat)

/-! ## Parity (R47, R48) -/

/-- One upset bit of a parity-guarded word: the stored value changes, and with it whether the parity fits. -/
def State.flip (s : State) (a bitNo : Nat) : State :=
  match regAt a with
  | none => s
  | some (r, _, _) =>
    if r.guard != .parity || !bit r.rw bitNo then s else
    let s := s.setCfg a (s.cfgW a ^^^ BitVec.ofNat 32 (2 ^ bitNo))
    { s with parBad := if s.parBad.contains a then s.parBad.filter (· != a) else s.parBad ++ [a] }
/-- A disturbance: a flipped bit acts at once, another when the cell, or the decision, that it has met comes up
(log entry 117). -/
def State.disturb (s : State) (u : Upset) : State :=
  match u with
  | .word a b => s.flip a b.val
  | .cell n => if (s.slot n.val).state = 0 then s else s.modSlot n.val (fun k => { k with bad := true })
  | .keyDecision => { s with tamper := { s.tamper with keySplit := true } }
  | .bundleDecision => { s with tamper := { s.tamper with bundleSplit := true } }
/-- PARITY_SWEEP: the upsets since the last sweep, then every guarded word is checked. -/
def execParitySweep (upsets : List Upset) (s : State) : Host.Outcome State Fault Refusal :=
  whenUp s (let s := upsets.foldl State.disturb s
    s.parBad.foldl (fun s a => s.checkParity a) s)

end Sys2Proof.Machine
end

