-- ==== Sys2Proof/Machine/Commons.lean ====
section
/-! DEFINITION. What arrives from other members, and the member's ports and tick (R472–R492, Tables 23.1–23.6). -/

namespace Sys2Proof.Machine

/-! ## Receiving (R475) -/

def peerHiA (m : Nat) : Nat := 0xD10004 + 8 * m
def State.peerOn (s : State) (m : Nat) : Bool := bit (s.liveN (peerHiA m)) 31
def State.ctl (s : State) : Nat := s.liveN 0xD00000
/-- EtherType of PTP: its messages carry no Commons header. -/
def etherPtp : BitVec 16 := 0x88F7
/-- SWN of a frame lies within 1 of the receiver's. -/
def State.swnNear (s : State) (fr : Frame) : Bool :=
  decide (fr.swn.toNat ≤ s.swnN + 1) && decide (s.swnN ≤ fr.swn.toNat + 1)
/-- A frame passes the checks of R475, with CTL.JOIN at 0 as at 1 (DESIGN CHOICE, log entry 110). -/
def State.frameOk (s : State) (fr : Frame) : Bool :=
  fr.fcsOk && fr.etherType.toNat == s.liveN 0xD00008 % 65536 && s.peerOn fr.src.toNat && fr.dst.toNat == s.memberIx && s.swnNear fr
/-- A port that is down or fenced receives nothing. -/
def State.hears (s : State) (fr : Frame) : Bool :=
  s.commons.linkUp.getLsbD fr.port.val && !s.commons.fenced.getLsbD fr.port.val
def State.countDrop (s : State) (fr : Frame) : State :=
  s.modCommons (fun c => { c with drop := cput c.drop fr.port.val (satInc 32 (cget c.drop fr.port.val)) })
/-- A frame that passes acts; another is discarded and counted. A PTP message is no Commons frame. -/
def State.receive (s : State) (fr : Frame) (act : State → State) : State :=
  if !s.hears fr then s
  else if s.frameOk fr then act s
  else if fr.fcsOk && fr.etherType == etherPtp then s
  else s.countDrop fr

/-- The job whose part belongs to the Commons job of a frame. -/
def State.partOf (s : State) (cjob : DWord) : Option (Job × Part) :=
  s.adm.jobs.findSome? (fun j => match j.part with
    | some p => if p.cjob = cjob ∧ !j.recorded then some (j, p) else none
    | none => none)
def State.modPart (s : State) (id : Nat) (g : Part → Part) : State := s.modJob id (fun j => { j with part := j.part.map g })

/-- EXCHANGE (R488): rows for a part this member holds. -/
def State.takeRows (s : State) (fr : Frame) : State :=
  match s.partOf fr.cjob with
  | none => s
  | some (_, p) => s.slotRows fr.slot.val p.members fr.src.toNat fr.offset.toNat fr.payload
def execExchange (fr : Frame) (s : State) : Host.Outcome State Fault Refusal :=
  whenRun s (s.receive fr (fun s => s.takeRows fr))
/-- END (R488, R489). -/
def State.takeEnd (s : State) (fr : Frame) : State :=
  match s.partOf fr.cjob with
  | none => s
  | some (_, p) => s.slotEnd fr.slot.val p.members fr.src.toNat (rd fr.payload 0 8)
def execEnd (fr : Frame) (s : State) : Host.Outcome State Fault Refusal :=
  whenRun s (s.receive fr (fun s => s.takeEnd fr))
/-- RESERVE (R485): it waits for the member's next admission step. -/
def execReserve (fr : Frame) (s : State) : Host.Outcome State Fault Refusal :=
  whenRun s (s.receive fr (fun s => s.modCommons (fun c => { c with rsv := c.rsv ++ [fr] })))

/-- Commons jobs of a frame that this member coordinates and has not ended. -/
def State.modOwn (s : State) (fr : Frame) (g : CJob → CJob) : State :=
  s.modCJobs (fun c => if c.cjob = fr.cjob ∧ !c.finished ∧ c.members.contains fr.src.toNat then g c else c)
/-- ACK (R486). -/
def execAck (fr : Frame) (s : State) : Host.Outcome State Fault Refusal :=
  whenRun s (s.receive fr (fun s => s.modOwn fr (fun c =>
    if c.admitted then c else
    { c with acks := mput (fun _ => (256, 0)) c.acks fr.src.toNat (rd fr.payload 0 1, rd fr.payload 1 1) })))
/-- COMMIT (R486): the next re-plan step makes the placements firm. -/
def execCommit (fr : Frame) (s : State) : Host.Outcome State Fault Refusal :=
  whenRun s (s.receive fr (fun s => match s.partOf fr.cjob with
    | none => s
    | some (j, p) => if p.coord = fr.src.toNat then s.modPart j.id (fun p => { p with committed := true }) else s))
/-- ABANDON (R486): the next re-plan step releases the part. -/
def execAbandon (fr : Frame) (s : State) : Host.Outcome State Fault Refusal :=
  whenRun s (s.receive fr (fun s => match s.partOf fr.cjob with
    | none => s
    | some (j, p) => if p.coord = fr.src.toNat then s.modPart j.id (fun p => { p with abandoned := true }) else s))
/-- PART_DONE (R487). -/
def execPartDone (fr : Frame) (s : State) : Host.Outcome State Fault Refusal :=
  whenRun s (s.receive fr (fun s => s.modOwn fr (fun c =>
    { c with dones := mput (fun _ => (256, 0)) c.dones (partIx c.members fr.src.toNat) (rd fr.payload 0 1, rd fr.payload 1 1) })))

/-! ## ALIVE (R474, R482, R492) -/

/-- A TICK_IN member takes SWN from the root's ALIVE frames (R478). -/
def State.aliveSwn (s : State) (fr : Frame) : State :=
  if bit s.ctl 31 && !bit s.ctl 4 && fld s.ctl 8 2 == 2 && bit (rd fr.payload 1 1) 1 then
    s.modCommons (fun c => { c with refSwn := BitVec.ofNat 64 (rd fr.payload 8 8) })
  else s
def State.takeAlive (s : State) (fr : Frame) : State :=
  let up := rd fr.payload 0 1 == 2 || rd fr.payload 0 1 == 3
  (s.setPeer fr.src.toNat { state := if up then 1 else 2, lastAlive := s.swnN }).aliveSwn fr
/-- ALIVE. A member that still seeks its SWN takes it from a frame that only its SWN shuts out (R475, R478). -/
def execAlive (fr : Frame) (s : State) : Host.Outcome State Fault Refusal :=
  whenRun s
    (if s.hears fr && s.commons.align == 1 && !s.swnNear fr && ({ fr with swn := s.glob.swn } |> s.frameOk) then
      (s.countDrop fr).aliveSwn fr
    else s.receive fr (fun s => s.takeAlive fr))
/-- ALIVE_SEND (R492): to every peer in the Commons. -/
def State.sendAlive (s : State) : State :=
  let payload := toLe 1 s.commons.align ++ toLe 1 (b2n s.glob.admitOpen + 2 * b2n (bit s.ctl 4)) ++ zeros 2 ++
    toLe 4 s.commons.offset.toNat ++ toLe 8 s.swnN ++ zeros 48
  ((upTo 1024).filter (fun m => s.peerOn m && m != s.memberIx)).foldl (fun s m => s.sendFrame true 8 m 0 0 0 payload) s
def execAliveSend (s : State) : Host.Outcome State Fault Refusal :=
  whenRun s (if bit s.ctl 31 then s.sendAlive else s)
/-- PEER_TIMEOUT (R492): no ALIVE for 64 sw. -/
def execPeerTimeout (m : BitVec 10) (s : State) : Host.Outcome State Fault Refusal :=
  whenRun s (if s.peerOn m.toNat && decide (s.swnN ≥ (s.peer m.toNat).lastAlive + 64) then
    s.setPeer m.toNat { s.peer m.toNat with state := 2 } else s)

/-! ## The reference (R478, R481, Table 23.3) -/

/-- The member takes its tick from reference `k` of TICK_SRC. -/
def State.follows (s : State) (k : Nat) : Bool := bit s.ctl 31 && !bit s.ctl 4 && fld s.ctl 8 2 == k
/-- PTP_SYNC: the reference SWN at PTP time `ns`. -/
def execPtpSync (ns : DWord) (s : State) : Host.Outcome State Fault Refusal :=
  whenRun s (if s.follows 1 then
    let epoch := s.liveN 0xD00028 + 2 ^ 32 * s.liveN 0xD0002C
    s.modCommons (fun c => { c with refPresent := true, refSwn := BitVec.ofNat 64 ((ns.toNat - epoch) / 1000000) })
  else s)
/-- TICK_IN_EDGE. -/
def execTickInEdge (s : State) : Host.Outcome State Fault Refusal :=
  whenRun s (if s.follows 2 then s.modCommons (fun c => { c with refPresent := true }) else s)
/-- REFERENCE_LOST: an ALIGNED member goes on in HOLDOVER. -/
def execReferenceLost (s : State) : Host.Outcome State Fault Refusal :=
  whenRun s (if s.follows 1 || s.follows 2 then
    s.modCommons (fun c => { c with
      refPresent := false
      align := if c.align = 2 then 3 else c.align
      holdSwaths := if c.align = 2 then 0 else c.holdSwaths
      within := 0
      beyond := 0 })
  else s)
/-- HOLDOVER_TIMEOUT: 8 sw in HOLDOVER. -/
def execHoldoverTimeout (s : State) : Host.Outcome State Fault Refusal :=
  whenRun s (if s.commons.align = 3 ∧ s.commons.holdSwaths ≥ 8 then
    s.modCommons (fun c => { c with align := 4, within := 0, beyond := 0 }) else s)

/-! ## Ports (R491) -/

/-- PORT_LINK_DROP: the port leaves service at once, and what waits on it moves to the other planes. -/
def execPortLinkDrop (k : Fin 4) (s : State) : Host.Outcome State Fault Refusal :=
  whenUp s (s.modCommons (fun c => { c with
    linkUp := c.linkUp &&& ~~~BitVec.ofNat 4 (2 ^ k.val), retrained := c.retrained &&& ~~~BitVec.ofNat 4 (2 ^ k.val) })).movePlanes
/-- PORT_RETRAINED: the link is up; the port serves from the next re-plan step. -/
def execPortRetrained (k : Fin 4) (s : State) : Host.Outcome State Fault Refusal :=
  whenUp s (if s.commons.linkUp.getLsbD k.val then s else
    s.modCommons (fun c => { c with
      linkUp := c.linkUp ||| BitVec.ofNat 4 (2 ^ k.val), retrained := c.retrained ||| BitVec.ofNat 4 (2 ^ k.val) }))

end Sys2Proof.Machine
end

