-- ==== Sys2Proof/Machine/Intc.lean ====
section
/-! DEFINITION. The interrupt controller's commands (R385–R396). -/

namespace Sys2Proof.Machine

/-- The next target in the source's round-robin order, after the last claimer, at which it is eligible (R388). -/
def State.nextTarget (s : State) (n : Nat) : Option Nat :=
  ((upTo 16).map (fun i => (cget s.intc.last n + i) % 16)).find? (fun t => s.eligible n t)

/-- Assign a pending source: it keeps a target at which it is still eligible (R388). -/
def State.assign (s : State) (n : Nat) : State :=
  let a := cget s.intc.assigned n
  if a ≠ 0 ∧ s.eligible n (a - 1) then s else
  let v := match s.nextTarget n with | some t => t + 1 | none => 0
  { s with intc := { s.intc with assigned := cput s.intc.assigned n v } }

/-- The notification line of target `t` is asserted (R388). -/
def State.notified (s : State) (t : Nat) : Bool :=
  s.intc.pend.any (fun n => cget s.intc.assigned n == t + 1 && s.eligible n t)
/-- The highest-PRIO source eligible at `t`, ties to the lower number (R389). -/
def State.best (s : State) (t : Nat) : Option Nat :=
  s.intc.pend.foldl (fun b n =>
    if !s.eligible n t then b else
    match b with
    | none => some n
    | some m =>
      if s.srcPrio n > s.srcPrio m || (s.srcPrio n == s.srcPrio m && decide (n < m)) then some n else some m) none

/-- Claim at target `t` (R389–R392): the response word, and the state after. -/
def State.claimAt (s : State) (t : Nat) : State :=
  match s.best t with
  | none => s.setResp (.word 0)
  | some n =>
    let p := s.srcPrio n
    let s := (s.uses [0xA00000 + 4 * n, 0xA01000 + 4 * n, targetCtlA t]).unpend n
    let s := s.setStack t ((n, p) :: s.stack t)
    let s := { s with intc := { s.intc with
      active := cput s.intc.active n (t + 1), last := cput s.intc.last n (t + 1),
      claims := cput s.intc.claims t (satInc 32 (cget s.intc.claims t)) } }
    (s.startTask n).setResp (.word (BitVec.ofNat 32 (2 ^ 31 + p * 2 ^ 16 + n)))

/-- Complete at target `t` (R391): the top entry is popped whatever number is written. -/
def State.completeAt (s : State) (t : Nat) : State :=
  match s.stack t with
  | [] => s
  | (n, _) :: rest =>
    let s := s.setStack t rest
    ({ s with intc := { s.intc with active := cput s.intc.active n 0 } }).endTask n

/-- INTC_EVENT (R386). -/
def execIntcEvent (src : Fin 1024) (s : State) : Host.Outcome State Fault Refusal := whenUp s (s.pendSrc src.val)
/-- INTC_REASSIGN (R388). -/
def execIntcReassign (src : Fin 1024) (s : State) : Host.Outcome State Fault Refusal := whenUp s (s.assign src.val)
/-- CLAIM (R389): another requester reads 0 and changes nothing. -/
def execClaim (who : Requester) (t : Fin 16) (s : State) : Host.Outcome State Fault Refusal :=
  whenUp s (if isCore who t.val then s.claimAt t.val else s.setResp (.word 0))
/-- COMPLETE (R391): a write by another requester is discarded (R389). -/
def execComplete (who : Requester) (t : Fin 16) (_src : BitVec 10) (s : State) : Host.Outcome State Fault Refusal :=
  whenRun s (if isCore who t.val then s.completeAt t.val else s)
/-- SWI_SET_C (R387). -/
def execSwiSetC (who : Requester) (k : Fin 32) (s : State) : Host.Outcome State Fault Refusal :=
  whenRun s (match who with | .pf => s.pendSrc (960 + k.val) | .cc _ => s.pendSrc (960 + k.val) | _ => s)
/-- SWI_SET_M (R387). -/
def execSwiSetM (who : Requester) (k : Fin 32) (s : State) : Host.Outcome State Fault Refusal :=
  whenRun s (match who with | .pf => s.pendSrc (992 + k.val) | .cm _ => s.pendSrc (992 + k.val) | _ => s)
/-- TIMER_WRITE (R396): 0 cancels, a new value replaces. -/
def execTimerWrite (t : Fin 16) (cycles : Word) (s : State) : Host.Outcome State Fault Refusal :=
  whenRun s { s with intc := { s.intc with timers := cput s.intc.timers t.val cycles.toNat } }
/-- TIMER_EXPIRY (R396). -/
def execTimerExpiry (t : Fin 16) (s : State) : Host.Outcome State Fault Refusal :=
  whenUp s (if cget s.intc.timers t.val = 0 then s
    else ({ s with intc := { s.intc with timers := cput s.intc.timers t.val 0 } }).pendSrc (864 + t.val))

end Sys2Proof.Machine
end

