-- ==== Sys2Proof/Machine/RegRead.lean ====
section
/-! DEFINITION. Reads of the register maps: what every register shows (R21, R31–R40, R50), and the holding registers of R39. -/

namespace Sys2Proof.Machine

/-! ## Where an access lands (Tables 2.1–2.3) -/

/-- The word that an access names: one of the PF map, a doorbell (0–7 SQ tail, 16–23 CQ head), a word of a VF's MSI-X table or
of its pending bits, or no register. -/
inductive Loc where
  | reg (a : Nat)
  | bell (n i : Nat)
  | vfTable (n k : Nat)
  | vfPba (n k : Nat)
  | none
deriving DecidableEq, Repr

/-- The word at a VF BAR0 offset of instance `n` (Table 2.3). -/
def vfLoc (n o : Nat) : Loc :=
  if !realInst n then .none
  else if o < 0x800 then .reg (instPage n + o)
  else if 0x1000 ≤ o ∧ o < 0x10C0 then (if o % 8 = 0 then .bell n ((o - 0x1000) / 8) else .none)
  else if 0x2000 ≤ o ∧ o < 0x2800 then .reg (instPage n + 0x800 + (o - 0x2000))
  else if 0x3000 ≤ o ∧ o < 0x3400 then .vfTable n ((o - 0x3000) / 4)
  else if 0x3800 ≤ o ∧ o < 0x3808 then .vfPba n ((o - 0x3800) / 4)
  else .none
/-- The word that an offset names for a requester (R35, R37). -/
def Loc.of (who : Requester) (o : Nat) : Loc :=
  match who with
  | .vf n => vfLoc n.val o
  | _ => if 0xF01000 ≤ o ∧ o < 0xF010C0 then (if o % 8 = 0 then .bell 0 ((o - 0xF01000) / 8) else .none) else .reg o
/-- The bits of a register that a requester reaches: "Manager" fields read zero and keep their value through a VF BAR0. -/
def reachMask (who : Requester) (r : RegRow) : Nat :=
  match who, r.id with
  | .vf _, .instCtl => 0
  | .vf _, .mbxVec => 0x3F
  | _, _ => r.known

/-! ## What the registers show -/

/-- Half `j` of a 64-bit value. -/
def half (v j : Nat) : Nat := v / 2 ^ (32 * j) % 2 ^ 32

/-- A counter of a crypto pool by its place in the map (Tables 11.9, 12.6). -/
def PoolCnt.word (c : PoolCnt) (p i : Nat) : Nat :=
  match i with
  | 0 => c.inputErr
  | 1 => if p = 3 then c.selfFail else if p = 2 then 0 else c.budgetOut
  | 2 => c.wipes
  | _ => if p = 0 ∨ p = 2 then 0 else c.carryFail
/-- POOL of a core pool. -/
def State.poolWord (s : State) (p : Nat) : Nat := (s.coresIn p).length * 65536 + coreCount p
/-- CORE_STATE and PIPE_STATE. -/
def State.coreWord (s : State) (x : Core) : Nat :=
  b2n (x.moving || x.out.isSome) * 8 + b2n x.busy * 4 + b2n x.fenced * 2 + b2n (!x.fenced && s.poolsOn)
/-- Swaths since the due row of an unserved reseed. -/
def State.missed (s : State) (x : Stream) : Nat :=
  match x.due with
  | some d => min 0xFFFF (s.swnN - d)
  | none => 0
/-- CORE_STREAMS of core `c`, whose value stream is `v`. -/
def State.streamsWord (s : State) (p c v : Nat) : Nat :=
  let x := s.stream (v + c)
  if p = 0 then max (s.missed x) (s.missed (s.stream c)) * 65536 + b2n x.running * 2 + b2n (s.stream c).running
  else s.missed x * 65536 + b2n x.running * 2
/-- Word `k` of ROW_DATA (Table 3.3): the row of ROW_SEL, and the swath that it stands for. -/
def State.rowWord (s : State) (k : Nat) : Nat :=
  let sel := s.cfgN 0x100200
  let r := s.swnN + (sel + 65536 - s.swnN % 65536) % 65536
  let v := fun x => s.rowCnt r x
  if k = 0 then
    (r / 65536 % 65536) * 65536 + s.rowEdit r % 16 * 16 + b2n (s.rowTent r)
  else if k < 13 then
    leNat (((upTo 16).flatMap (fun f => toLe 3 (v f))).drop (4 * (k - 1)) |>.take 4)
  else if k < 18 then v (16 + (k - 13))
  else if k < 21 then leNat (((upTo 4).flatMap (fun u => toLe 3 (v (21 + u)))).drop (4 * (k - 18)) |>.take 4)
  else v (25 + (k - 21))

/-- Values of the blocks GLOBAL, ADMIT, MEADOW, SWARD, AMU and HBMC. -/
def State.regA (s : State) (a : Nat) (id : RegId) (i j : Nat) : Nat :=
  match id with
  | .partId => 0x6416A000 + Config.gradeFuse.toNat % 256
  | .devid => Config.devid.toNat / 2 ^ (32 * i)
  | .swn => half s.swnN j
  | .phase => b2n s.glob.inHeadland * 2 ^ 31 + s.glob.offset
  | .clock => s.glob.cclkStep
  | .status => b2n s.glob.busTimeout * 32 + b2n s.glob.admitOpen * 16 + b2n (!s.backup.slow.isEmpty) * 8 + s.glob.devState
  | .cfgPend => s.cfgPend
  | .cfgSkip => s.glob.cfgSkip.toNat
  | .voteCount => s.glob.voteCount
  | .start => s.start.stopPhase * 4096 + b2n s.start.bank * 256 + s.startPhase
  | .startSc => s.start.sc
  | .resetCause => s.start.cause.toNat
  | .fuseVote => b2n s.start.fuseLost * 2 ^ 31 + s.start.fuseCorrected.toNat
  | .hbmTrain => s.start.trainFailed
  | .stepLast => s.adm.stepLast
  | .stepCount => s.adm.carried * 65536 + s.adm.decided
  | .inletDepth => s.adm.inlet.length
  | .replanLast => s.adm.replanLast
  | .accepted => half s.adm.accepted.toNat j
  | .refused => half s.adm.refused.toNat j
  | .lost => half s.adm.lostN.toNat j
  | .jobsCount => (s.adm.jobs.filter (fun k => !k.recorded)).length
  | .cap => if j = 0 then s.capC i else s.capT i
  | .rowData => s.rowWord i
  | .instRefused => cget s.adm.instRefused i
  | .fieldState =>
    let x := s.field i
    x.owner * 65536 + x.activePlane * 16 + b2n x.powered * 4 + b2n x.fenced * 2 + b2n (x.powered && !x.fenced)
  | .tileFence => half (s.field i).tileFence.toNat j
  | .tileAvail => (upTo 8).foldl (fun m k => m + ((s.field i).tilesIn k).length * 16 ^ k) 0
  | .tileMap => (nth (s.field i).tileMap j 0).toNat
  | .ing => half (s.field i).ing.toNat j
  | .egr => half (s.field i).egr.toNat j
  | .ringBytes => half (s.field i).ring.toNat j
  | .waitHbm => (s.field i).waitHbm.toNat
  | .waitRing => (s.field i).waitRing.toNat
  | .busyLast => (s.field i).busy
  | .cuts => (s.field i).cuts
  | .loader => s.lateLast * 65536 + s.loadsLast
  | .loads => half s.loads.toNat j
  | .regCount => ((upTo 1024).filter (fun e => bit (s.liveN (0x410030 + 0x40 * e)) 31)).length
  | .handle0 => (s.handle i).c.nstage * 65536 + (s.handle i).c.nsect * 256 + (s.handle i).state
  | .handleLen => (s.handle i).c.len
  | .handleAddr => if j = 0 then half (s.handle i).c.addr 0 else half (s.handle i).c.addr 1 % 32
  | .handleDig => rd (s.handle i).c.digest (4 * j) 4
  | .plane0 =>
    let x := (s.field i).plane j
    x.handle * 256 + x.section_ * 4 + x.state
  | .planeHolders => (s.holders i ((s.field i).plane j)).length
  | .amuState =>
    let x := s.amu i
    b2n x.pass.isSome * 2 ^ 22 + b2n (s.hbmc.pcFenced != 0) * 2 ^ 21 + b2n x.fenced * 2 ^ 20 + (x.pass.elim x.count (·.oldCount))
  | .scrubPos => (s.amu i).scrubPos
  | .scrubFix => (s.amu i).scrubFix
  | .passLast => (s.amu i).passEdits * 65536
  | .passCycles => (s.amu i).passCycles
  | .editStore => (s.amu i).lists.length
  | .amuKeys => half (s.amu i).keys.toNat j
  | .probeResult => b2n (s.amu i).probeDone * 2 ^ 31 + b2n (s.amu i).probeHit * 2 ^ 30 + (s.amu i).probeAddr
  | .pcFenced => s.hbmc.pcFenced.toNat / 2 ^ (32 * i)
  | .pcCount => s.pcCount
  | .served => half s.hbmc.served.toNat j
  | .waitClassB => s.hbmc.waitB.toNat
  | .fencedReads => s.hbmc.fencedReads
  | _ => s.cfgN a

/-- Values of the crypto pools, the digest engine, the seedbank and the key store. -/
def State.regB (s : State) (a : Nat) (id : RegId) (i j : Nat) : Nat :=
  match id with
  | .latPool => s.poolWord 0
  | .latOps => half (s.pool 0).ops.toNat j
  | .latAttempts => half (s.pool 0).attempts.toNat j
  | .latCnt => (s.pool 0).word 0 i
  | .latCoreState => s.coreWord (s.core i)
  | .latCoreInst => (s.core i).inst
  | .latCoreOps => (s.core i).opsLast
  | .latCoreStreams => s.streamsWord 0 i 16
  | .hsgPool => s.poolWord 1
  | .hsgOps => half (s.pool 1).ops.toNat j
  | .hsgAttempts => 0
  | .hsgCnt => (s.pool 1).word 1 i
  | .hsgCoreState => s.coreWord (s.core (16 + i))
  | .hsgCoreInst => (s.core (16 + i)).inst
  | .hsgCoreOps => (s.core (16 + i)).opsLast
  | .hsgCoreStreams => s.streamsWord 1 i 32
  | .codPool => s.poolWord 2
  | .codOps => half (s.pool 2).ops.toNat j
  | .codAttempts => 0
  | .codCnt => (s.pool 2).word 2 i
  | .codCoreState => s.coreWord (s.core (20 + i))
  | .codCoreInst => (s.core (20 + i)).inst
  | .codCoreOps => (s.core (20 + i)).opsLast
  | .codCoreStreams => s.streamsWord 2 i 36
  | .bnPool => s.poolWord 3
  | .bnOps => half (s.pool 3).ops.toNat j
  | .bnCnt => (s.pool 3).word 3 i
  | .bnCoreState => s.coreWord (s.core (22 + i))
  | .bnCoreInst => (s.core (22 + i)).inst
  | .bnCoreOps => (s.core (22 + i)).opsLast
  | .bnCoreStreams => s.streamsWord 3 i 38
  | .digPool => (s.pipesIn 8 4).length * 2 ^ 24 + (s.pipesIn 0 8).length * 2 ^ 16 + 0x408
  | .digUnits => s.digestUnits
  | .digDone => half s.digest.done.toNat j
  | .digBytes => half s.digest.bytes.toNat j
  | .digCnt => nth [s.digest.truncN, s.digest.shortN, s.digest.inputErr, s.digest.recFail, s.digest.wipes] i 0
  | .pipeState => s.coreWord (s.pipe i)
  | .pipeCtx => if (s.pipe i).busy then min (if i < 8 then 4 else 8) (s.pipe i).pieces.length else 0
  | .pipeInst => (s.pipe i).inst
  | .pipeUnits => (s.pipe i).opsLast
  | .seedState => b2n s.seed.openOk * 4 + s.seed.phase
  | .seedSources => s.seed.fenced.toNat * 256 + (if s.seed.phase = 3 then 0 else 255 - s.seed.fenced.toNat)
  | .seedQueue => s.seed.queue.length
  | .seedAllot => s.seed.allot.length
  | .seedAlarms => cget s.seed.apt i * 65536 + cget s.seed.rct i
  | .seedDelivered => half s.seed.delivered.toNat j
  | .noEntropy => s.seed.noEntropy
  | .stream => s.missed (s.stream i) * 65536 + b2n (s.stream i).running
  | .ksStatus => b2n s.keys.rootLost * 16 + b2n (s.keys.slots.any (fun e => e.2.reload)) * 8 + s.keys.phase
  | .ksSlots =>
    (s.keys.slots.filter (fun e => e.2.state == 1)).length * 65536 + (s.keys.slots.filter (fun e => e.2.state == 2)).length
  | .ksCells => s.cellsFree
  | .ksCounter => half s.keys.counter.toNat j
  | .ksSealer => if s.keys.sealerSet then s.cfgN a else s.sealer
  | .nvDone => s.keys.nvDone.toNat
  | .bundles => if i = 0 then s.keys.bundlesOk else s.keys.bundlesFail
  | .lastFail => s.keys.failEntry * 65536 + s.keys.failReason * 256
  | .cellErr => s.keys.cellErr
  | .maskEpoch => s.keys.maskEpoch
  | .ksAuth => Config.authRevoked.toNat * 16 + Config.authPresent.toNat
  | .slotMeta =>
    let k := s.slot i
    k.type * 2 ^ 24 + k.parent * 256 + k.depth * 32 + b2n k.reload * 16 + b2n k.generated * 8 + b2n k.derived * 4 + k.state
  | .slotPolicy =>
    let k := s.slot i
    b2n k.migratable * 2 ^ 31 + b2n k.cipher * 2 ^ 30 + b2n k.kmac * 2 ^ 29 + k.owner * 65536 + k.policy.toNat
  | .sealCtr => half (s.slot i).ctr j
  | _ => s.cfgN a

/-- TIMER(t) reads the cycles left (R396): the model counts none, so a running timer reads a free value from 1 to the value written
(log entry 14). -/
def State.cyclesLeft (s : State) (t : Nat) : Nat :=
  let n := cget s.intc.timers t
  if n = 0 then 0 else 1 + Config.freeNat s.free 32 % n
/-- A register that shows a free value: each read of it draws a new one. -/
def readsFree (id : RegId) : Bool := id == .det || id == .timerReg

/-- Values of INSTANCE, INTC, TASKS and FAULT. -/
def State.regC (s : State) (a : Nat) (id : RegId) (i j : Nat) : Nat :=
  match id with
  | .instState => (s.genOf i).toNat * 65536 + b2n (s.inst i).thawFail * 256 + (s.inst i).state
  | .instJobs =>
    (s.adm.inlet.filter (fun e => e.inst == i)).length * 65536 +
      min 0xFFFF (s.adm.jobs.filter (fun k => k.inst == i && !k.recorded)).length
  | .frozenAt => half (s.inst i).frozenAt.toNat j
  | .thawedAt => half (s.inst i).thawedAt.toNat j
  | .sqHead => ((s.inst i).sq j).head
  | .sqTail => ((s.inst i).sq j).tail
  | .cqTail => b2n ((s.inst i).cq j).phase * 65536 + ((s.inst i).cq j).tail
  | .cqPend => b2n ((s.inst i).cq j).intPend * 2 ^ 31 + ((s.inst i).cq j).count
  | .mbxIndex =>
    (nth [(s.inst i).upProd, (s.inst i).upCons, (s.inst i).dnProd, (s.inst i).dnCons] j 0).toNat
  | .mbxSlot => leNat ((upTo 4).map (fun k => mget (fun _ => 0#8) (s.inst i).mbox (4 * j + k)))
  | .srcPrio => s.srcPrio i
  | .srcTargets => s.srcTargets i
  | .srcState =>
    let act := cget s.intc.active i
    let asg := cget s.intc.assigned i
    (if act ≠ 0 then act - 1 else asg - 1) * 65536 + b2n (asg != 0) * 4 + b2n (act != 0) * 2 + b2n (s.intc.pend.contains i)
  | .level => (s.stack i).length * 256 + s.cur i
  | .stackEntry =>
    let e := nth (s.stack i).reverse j (0, 0)
    e.2 * 65536 + e.1
  | .timerReg => s.cyclesLeft i
  | .claims => cget s.intc.claims i
  | .sched => (s.tasks.tds.filter (fun e => e.2.deferred)).length * 65536 + s.tasks.inlet.length
  | .list => (s.readyList i).length
  | .events => half s.tasks.events.toNat j
  | .taskCnt => nth [s.tasks.stray, s.tasks.offerTo, s.tasks.jobEnds, s.tasks.stalls] i 0
  | .coreTask => match s.running? i with
    | [] => 0
    | t :: _ => 2 ^ 31 + s.tdPrio t * 65536 + t
  | .coreOffer => match s.offer? i with
    | none => 0
    | some (t, p) => 2 ^ 31 + p * 65536 + t
  | .tdState =>
    let d := s.td i
    d.early * 2 ^ 24 + d.core * 65536 + b2n d.cancel * 512 + b2n d.deferred * 256 + d.state
  | .tdCount => s.tdReload i * 65536 + (s.td i).count
  | .faultState => b2n s.faults.pinLow * 8 + b2n s.faults.fallowDone * 4 + b2n s.faults.fallow
  | .fallowCause => s.faults.fallowCause.toNat
  | .fqProd => s.faults.prod.toNat
  | .fqDropped => s.faults.dropped
  | .sticky => s.faults.sticky.toNat / 2 ^ (32 * i)
  | .liveBits => s.faults.live.toNat / 2 ^ (32 * i)
  | .faultCount => cget s.faults.count i
  | .fqEntry => rd (mget (fun _ => zeros 32) s.faults.fq i) (4 * j) 4
  | .cause => s.faults.cause.toNat / 2 ^ (32 * i)
  | .causeSwn => half s.faults.causeSwn.toNat j
  | _ => s.cfgN a

/-- DET(i) (Table 19.5): zero until the monitor is first armed; then a measurement of the board, a free value (log entry 19), with
SPLIT 0–2 at the clock sources; source 10 measures nothing. -/
def State.detReading (s : State) (i : Nat) : Nat :=
  if i = 10 || !s.tamper.measured.getLsbD i then 0
  else
    let v := Config.freeNat s.free 32
    v % 2 ^ 16 + (if i ≤ 2 then v / 2 ^ 16 % 3 * 2 ^ 24 else 0)

/-- Values of TAMPER, BACKUP, POWER, LIFECYCLE, COMMONS and HOSTIF. The backup domain shows its mirrors (R50). -/
def State.regD (s : State) (a : Nat) (id : RegId) (i j : Nat) : Nat :=
  let m := s.backup.mirror
  match id with
  | .tamperStatus => (upTo 16).foldl (fun w k => w + b2n (s.tamperOn k) * 2 ^ k) 0
  | .tamperEnable => s.cfgN a &&& (0x7FF - s.tamper.eff.toNat % 0x800)
  | .fuseDis => s.tamper.eff.toNat
  | .fusePend => s.tamper.blown.toNat
  | .delaySrc => b2n s.tamper.raw
  | .det => s.detReading i
  | .mismatch => cget s.tamper.mismatch i
  | .bkStatus => b2n m.vbatLow * 4 + b2n m.powerLost * 2 + b2n m.tamperBk
  | .bkEnable => s.cfgN a &&& (7 - s.tamper.eff.toNat / 8192 % 8)
  | .tamperLast => m.last.toNat
  | .lastRtc => half m.lastRtc.toNat j
  | .hist => m.hist.length
  | .resetRtc => half (nth m.hist i 0).toNat j
  | .rtc => half m.rtc.toNat j
  | .ctrMirror => half m.ctrMirror.toNat j
  | .vbat => m.vbatMv.toNat
  | .psState =>
    s.power.fieldsOn.toNat * 65536 + b2n s.power.ps4Ready * 256 + b2n s.power.drain.isSome * 16 + s.power.state
  | .cmdSwn => half s.power.cmdSwn.toNat j
  | .ageStatus =>
    s.power.plans * 65536 + s.power.nextStep * 256 + b2n s.power.planned.isSome * 2 + b2n s.power.marginOut
  | .vdd => if i = 0 then s.power.vddW else s.power.vddE
  | .measSwn => half s.power.measSwn.toNat j
  | .mon => i / 32 * 2 ^ 24 + cget s.power.mons i
  | .lcState =>
    s.life.mark * 256 + b2n s.life.lost * 32 + b2n (s.life.mark != 0) * 16 + b2n s.life.final * 2 + b2n s.life.closed
  | .lcResult => s.life.result
  | .lcResumed => s.life.resumed
  | .jseq => s.life.seq.toNat
  | .debug => b2n s.life.session * 2 + b2n s.tapDebug
  | .align => s.commons.align
  | .comOffset => s.commons.offset.toNat
  | .portMac => half Config.portMac.toNat i
  | .portState =>
    b2n (s.commons.fenced.getLsbD i) * 4 + b2n (s.commons.linkUp.getLsbD i) * 2 + b2n (s.portIn i)
  | .portTx => cget s.commons.tx i
  | .portDrop => cget s.commons.drop i
  | .peerState => (s.peer i).state
  | .slotState => b2n (s.inSlot i).overflow * 2 + b2n (s.inSlot i).incomplete
  | .pba => sumL ((upTo 32).map (fun k => b2n (mget (fun _ => false) s.hostif.msixPend (32 * i + k)) * 2 ^ k))
  | _ => s.cfgN a

/-- Write-only registers and the claim registers, which a plain read leaves alone. -/
def readsZero (id : RegId) : Bool :=
  [RegId.resetReq, .instCtl, .instVfReset, .swiSet, .claim, .complete, .taskArm, .taskSignal, .taskCancel, .fuseReq, .rtcCtl,
    .lcRequest, .finalReq, .doorbell].contains id

/-- The value of a register word (R33, R40): reserved bits read zero (R7), and a shadowed field shows its shadow. -/
def State.readReg (s : State) (who : Requester) (a : Nat) : Word :=
  match regAt a with
  | none => 0
  | some (r, i, j) =>
    if readsZero r.id then 0 else
    let b := blockOf a
    let v :=
      if b ≤ 4 ∨ b = 21 then s.regA a r.id i j
      else if b ≤ 11 then s.regB a r.id i j
      else if b ≤ 15 then s.regC a r.id i j
      else if 0xF00000 ≤ a ∧ a < 0xF01000 then s.regC a r.id i j
      else s.regD a r.id i j
    BitVec.ofNat 32 (v &&& reachMask who r)

/-- The value of the word that a requester names. -/
def State.readLoc (s : State) (who : Requester) (l : Loc) : Word :=
  match l with
  | .reg a => s.readReg who a
  | .vfTable n k => mget (fun k => if k % 4 = 3 then 1#32 else 0#32) s.hostif.vfMsix (n * 256 + k)
  | .vfPba n k =>
    BitVec.ofNat 32 (sumL ((upTo 32).map (fun i => b2n (mget (fun _ => false) s.hostif.msixPend (n * 1024 + 32 * k + i)) * 2 ^ i)))
  | .bell _ _ => 0
  | .none => 0

/-! ## Holding registers (R39) -/

/-- Requesters by number. The spec names the PF and the cores; a VF and the JTAG port are given one each (log entry 1). -/
def reqNum : Requester → Nat
  | .pf => 0
  | .cc c => 1 + c.val
  | .cm c => 13 + c.val
  | .jtag => 17
  | .vf n => 18 + n.val
/-- Key of a requester's holding register in a block. -/
def holdKey (who : Requester) (a : Nat) : Nat := reqNum who * 23 + blockOf a

/-- The word that an access reads, and the state after: a read of CLAIM claims (R38, R389); a parity-guarded word is checked (R47). -/
def State.readWord (s : State) (who : Requester) (l : Loc) : Word × State :=
  match l with
  | .reg a =>
    match regAt a with
    | none => (0, s)
    | some (r, i, _) =>
      if r.id == .claim && isCore who i then
        let t := s.claimAt i
        (match t.resp with | .word w => w | _ => 0, t)
      else
        let t := s.checkParity a
        (s.readReg who a, if readsFree r.id then (t.draw 32).2 else t)
  | l => (s.readLoc who l, s)

/-- A 32-bit read: the low half of a 64-bit counter fills the requester's holding register, the high half answers it (R39);
any other word answers itself. -/
def State.read32 (s : State) (who : Requester) (o : Nat) : State :=
  match Loc.of who o with
  | .reg a =>
    match regAt a with
    | none => s.setResp (.word 0)
    | some (r, _, j) =>
      if r.wide then
        if j = 0 then
          ({ s with hold := mput (fun _ => 0#32) s.hold (holdKey who a) (s.readReg who (a + 4)) }).setResp (.word (s.readReg who a))
        else s.setResp (.word (mget (fun _ => 0#32) s.hold (holdKey who a)))
      else
        let (w, t) := s.readWord who (.reg a)
        t.setResp (.word w)
  | l => s.setResp (.word (s.readLoc who l))
/-- A 64-bit read: two adjacent words, and both halves of a 64-bit counter, of the same cycle (R31, R39). -/
def State.read64 (s : State) (who : Requester) (o : Nat) : State :=
  let (lo, s) := s.readWord who (Loc.of who o)
  let (hi, s) := s.readWord who (Loc.of who (o + 4))
  s.setResp (.dword (hi ++ lo))

/-- 32 bits aligned to 4 bytes, or 64 bits aligned to 8 (R31). -/
def accessOk (o size : Nat) : Bool := (size == 4 && o % 4 == 0) || (size == 8 && o % 8 == 0)
/-- What an access of wrong size or alignment may touch: through a VF BAR0 its instance's queues, else anything (Table 25.3). -/
def vfScope (who : Requester) : Scope := match who with | .vf n => .inst n.val | _ => .all
/-- A register read of any size. One of wrong size or alignment answers unpredictable bytes, within its scope (R31, Table 25.3; in
Fallow it touches nothing else, log entry 25). -/
def State.regRead (s : State) (who : Requester) (o size : Nat) : State :=
  if accessOk o size then (if size = 8 then s.read64 who o else s.read32 who o)
  else
    let s := if s.running then s.unchecked (vfScope who) else s
    let (w, s) := s.draw 64
    s.setResp (.dword (BitVec.ofNat 64 w))

/-- COUNTER_LOW_READ: a 32-bit read, or one of another size. A read of any other register by the same requester answers likewise and
latches nothing (R38). -/
def execCounterLowRead (who : Requester) (at_ : ReadAt) (s : State) : Host.Outcome State Fault Refusal :=
  whenUp s (s.regRead who at_.addr at_.size)

/-- BUS_TIMEOUT (R21): the access completes with zero, or its write is discarded. -/
def execBusTimeout (_who : Requester) (s : State) : Host.Outcome State Fault Refusal :=
  whenUp s ({ s with glob := { s.glob with busTimeout := true } }.setResp (.word 0))

end Sys2Proof.Machine
end

