-- ==== Sys2Proof/Machine/RegWrite.lean ====
section
/-! DEFINITION. Writes of the register maps: shadows (R40), guards (R46–R48), write-only commands, the hold of R41–R43, the
JTAG register access of R444, and the writes that the spec leaves unchecked (Table 25.3). -/

namespace Sys2Proof.Machine

/-! ## Unchecked writes -/

/-- A value of scope X or Q in Table 25.3: a reserved bit written as non-zero (R7), or a listed value. -/
def uncheckedReg (a : Nat) (w : Nat) : Bool :=
  if a = 0x6C0004 then w % 2 != 0 else
  match regAt a with
  | none => false
  | some (r, _, _) =>
    (w &&& (0xFFFFFFFF - r.known)) != 0 ||
    (match r.id with
     | .reserve => decide (w % 32 > 25)
     | .share => decide (w % 2048 > 1024)
     | .pwrCmd => decide (w % 8 > 4)
     | .rngWait => w % 65536 == 0
     | _ => false)
/-- The instance to whose page a word belongs: the scope Q of a reserved bit written there (Table 25.3). -/
def pageScope (who : Requester) (a : Nat) : Scope :=
  match who with
  | .vf n => .inst n.val
  | _ =>
    if 0x900000 ≤ a ∧ a < 0xA00000 then .inst ((a - 0x900000) / 0x1000 + 1)
    else if 0xF00000 ≤ a ∧ a < 0xF01000 then .inst 0 else .all
/-- A write of a word that is unchecked in the present state: the base of an enabled queue changed (R367), a task descriptor that is not
IDLE (R397), OFFER_LIMIT 0. The other conditions of Table 25.3 stand with the words that act. -/
def State.writeUnchecked (s : State) (who : Requester) (a : Nat) (w : Word) : Option Scope :=
  if uncheckedReg a w.toNat then some (pageScope who a) else
  match regAt a with
  | none => none
  | some (r, i, j) =>
    let moved := fun (on : Bool) => if on && s.cfgW a != w then some (Scope.inst i) else none
    let busy := if (s.td i).state ≠ 0 ∧ reachesPf who then some Scope.control else none
    match r.id with
    | .sqBaseLo => moved (s.sqOn i j)
    | .sqBaseHi => moved (s.sqOn i j)
    | .cqBaseLo => moved (s.cqOn i j)
    | .cqBaseHi => moved (s.cqOn i j)
    | .offerLimit => if w.toNat % 65536 = 0 then some .control else none
    | .tdCount => busy
    | .tdCfg => busy
    | .tdEntry => busy
    | .tdArg => busy
    | .tdSucc => busy
    | _ => none
def State.locUnchecked (s : State) (who : Requester) (l : Loc) (w : Word) : Option Scope :=
  match l with
  | .reg a => s.writeUnchecked who a w
  | _ => none

/-! ## Plain and guarded words -/

/-- CFG_SKIP bits of blocks without a bad shadow word fall (R48). -/
def State.settleSkip (s : State) : State :=
  if s.glob.cfgSkip = 0 then s else
  let held := s.badShadows.foldl (fun m a => m ||| 2 ^ cfgBit (blockOf a)) 0
  { s with glob := { s.glob with cfgSkip := s.glob.cfgSkip &&& BitVec.ofNat 15 held } }
/-- Write the writable bits among `mask` of a stored word; its copies and its parity are set anew (R44, R47). -/
def State.storeWord (s : State) (a mask : Nat) (w : Word) : State :=
  let m := BitVec.ofNat 32 mask
  ((s.setCfg a ((s.cfgW a &&& ~~~m) ||| (w &&& m))).rewritten a).settleSkip
/-- SEALER leaves its reset value at its first write: what was live stays live until the commit step (log entry 7). -/
def State.sealerWrite (s : State) (a : Nat) (w : Word) : State :=
  let s := if s.keys.sealerSet then s else
    { s.setLive a (BitVec.ofNat 32 s.sealer) with keys := { s.keys with sealerSet := true } }
  s.storeWord a 0xFFFF w

/-- A write of CFG_HOLD acts at once; its return to 0 starts a release (R41, R43). -/
def State.holdWrite (s : State) (v : Bool) : State :=
  let was := bit (s.cfgN 0x40) 0
  let s := s.storeWord 0x40 1 (BitVec.ofNat 32 (b2n v))
  if was && !v then { s with glob := { s.glob with relPend := true } } else s

/-! ## Words that act -/

/-- A vector whose mask bit falls sends what waited (R374). -/
def State.unmask (s : State) (fn v : Nat) (w : Word) : State :=
  if !w.getLsbD 0 && mget (fun _ => false) s.hostif.msixPend (fn * 1024 + v) then
    { s.emit (.msix fn v) with hostif := { s.hostif with
        msixPend := mput (fun _ => false) s.hostif.msixPend (fn * 1024 + v) false } }
  else s
/-- A doorbell of Table 2.3: 0–7 SQ tails, 16–23 CQ heads. -/
def State.bellWrite (s : State) (n i : Nat) (w : Word) : State :=
  if i < 8 then s.sqDoorbell n i w.toNat else if 16 ≤ i then s.cqDoorbell n (i - 16) w.toNat else s
/-- A mailbox index: UP_PROD and DN_CONS belong to the instance, the others to the manager (Table 16.7). -/
def State.mbxWrite (s : State) (who : Requester) (n j : Nat) (w : Word) : State :=
  let ix : BitVec 5 := w.setWidth 5
  let vf := match who with | .vf _ => true | _ => false
  if !realInst n then s else
  match j with
  | 0 => if vf then s.mbxUp n ix else s
  | 1 => if vf then s else (s.modInst n (fun i => { i with upCons := ix })).mbxCheck n (s.inst n).upProd ix
  | 2 => if vf then s else s.mbxDn n ix
  | _ => if vf then (s.modInst n (fun i => { i with dnCons := ix })).mbxCheck n (s.inst n).dnProd ix else s
/-- Four bytes of a mailbox slot. A slot of a full ring is unchecked. -/
def State.mbxData (s : State) (n j : Nat) (w : Word) : State :=
  if !realInst n then s else
  let put := fun m (e : Byte × Nat) => mput (fun _ => 0#8) m (4 * j + e.2) e.1
  let x := s.inst n
  let full := if j < 256 then x.upProd - x.upCons == 16#5 else x.dnProd - x.dnCons == 16#5
  let t := s.modInst n (fun i => { i with mbox := (toLe 4 w.toNat).zipIdx.foldl put i.mbox })
  if full then t.unchecked (.inst n) else t

/-- A write of 32 bits to a register of the map, outside Fallow. Writes to read-only bits are discarded. -/
def State.writeReg (s : State) (who : Requester) (a : Nat) (w : Word) : State :=
  match regAt a with
  | none => s
  | some (r, i, j) =>
    let v := w.toNat
    match r.id with
    | .resetReq => s.resetWrite who (v / 65536) (v % 4)
    | .ctl => s.holdWrite (bit v 0)
    | .ksSealer => s.sealerWrite a w
    | .probeTag => s.probeStart i (w.setWidth 16)
    | .instCtl => if reachesPf who then s.instCmd i (v % 8) else s
    | .instVfReset => if bit v 0 then s.resetCmd i false else s
    | .sqCfg => s.setQueueCfg false i j w
    | .cqCfg => s.setQueueCfg true i j w
    | .mbxIndex => s.mbxWrite who i j w
    | .mbxSlot => s.mbxData i j w
    | .srcPrio => if 768 ≤ i ∧ i < 864 then s else s.storeWord a r.rw w
    | .srcTargets => if 768 ≤ i ∧ i < 880 then s else s.storeWord a (planeTargets i) w
    | .swiSet => match who, i with
      | .pf, 0 => s.pendSrc (960 + v % 32)
      | .cc _, 0 => s.pendSrc (960 + v % 32)
      | .pf, _ => s.pendSrc (992 + v % 32)
      | .cm _, 1 => s.pendSrc (992 + v % 32)
      | _, _ => s
    | .complete => if isCore who i then s.completeAt i else s
    | .timerReg => { s with intc := { s.intc with timers := cput s.intc.timers i v } }
    | .taskArm => if mayTask who then s.taskPush who (.arm (v % 8192) (v / 65536)) else s
    | .taskSignal => if mayTask who then s.taskPush who (.signal (v % 8192)) else s
    | .taskCancel => if mayTask who then s.taskPush who (.cancel (v % 8192)) else s
    | .faultPinCtl => s.holdPin (bit v 0)
    | .react => s.storeWord a 0x3F (BitVec.ofNat 32 (reactMask i v))
    | .tamperEnable => s.enableWrite who false (w.setWidth 16) true
    | .bkEnable => s.enableWrite who true (w.setWidth 16) true
    | .fuseReq => s.fuseWrite who (v / 65536) (w.setWidth 16) true
    | .rtcSet => s.slowWrite a w
    | .rtcAlarmReg => s.slowWrite a w
    | .rtcCtl => s.slowWrite a w
    | .lcRequest => if v % 4 = 1 then s.closeReq who true else if v % 4 = 2 then s.openReq who true else s
    | .finalReq => s.finalReq who (v / 65536) (bit v 0) true
    | .msix =>
      let s := s.storeWord a r.rw w
      if j = 3 then s.unmask 0 i w else s
    | _ => if r.rw = 0 then s else s.storeWord a (r.rw &&& reachMask who r) w

/-- A write of 32 bits by a requester. In Fallow only RESET_REQ is written (R422). -/
def State.writeLoc (s : State) (who : Requester) (l : Loc) (w : Word) : State :=
  match l with
  | .reg a => if a = 0xC0 ∨ s.running = true then s.writeReg who a w else s
  | .bell n i => if s.running then s.bellWrite n i w else s
  | .vfTable n k => if !s.running then s else
    let s := { s with hostif := { s.hostif with
      vfMsix := mput (fun k => if k % 4 = 3 then 1#32 else 0#32) s.hostif.vfMsix (n * 256 + k) w } }
    if k % 4 = 3 then s.unmask n (k / 4) w else s
  | .vfPba _ _ => s
  | .none => s

/-- The 32-bit words of an access with their values, low address first (R32). -/
def accessWords (o size : Nat) (v : DWord) : List (Nat × Word) :=
  if size = 8 then [(o, v.setWidth 32), (o + 4, (v >>> 32).setWidth 32)] else [(o, v.setWidth 32)]
/-- A register write of any size. One of wrong size or alignment, or of a value that Table 25.3 lists, leaves what is free within its
scope; in Fallow such a write is discarded like any other (R422, log entry 25). -/
def State.regWrite (s : State) (who : Requester) (o size : Nat) (v : DWord) : State :=
  if !accessOk o size then (if s.running then s.unchecked (vfScope who) else s)
  else
    let ws := (accessWords o size v).map (fun e => (Loc.of who e.1, e.2))
    let bad := if s.running then ws.filterMap (fun e => s.locUnchecked who e.1 e.2) else []
    let t := ws.foldl (fun s e => s.writeLoc who e.1 e.2) s
    match bad with
    | [] => t
    | p :: ps => t.unchecked (if ps.all (· == p) then p else .all)

/-! ## Meanings -/

/-- REGISTER_WRITE (R22, R31–R37). -/
def execRegisterWrite (who : Requester) (addr : Nat) (size : Nat) (value : DWord) (s : State) :
    Host.Outcome State Fault Refusal :=
  .next (if !s.start.up || s.power.ps4Ready then s else s.regWrite who addr size value)

/-- CFG_HOLD_WRITE (R41). -/
def execCfgHoldWrite (who : Requester) (hold : Bool) (s : State) : Host.Outcome State Fault Refusal :=
  whenRun s (if reachesPf who then s.holdWrite hold else s)

/-- DBG_REG (R444): in Closed, and throughout an opening, it selects the bypass register. -/
def execDbgReg (write : Bool) (addr : Nat) (value : Word) (s : State) : Host.Outcome State Fault Refusal :=
  .next (if !s.tapDebug then s else
    let s := s.modLife (fun l => { l with session := true })
    if write then (if !s.start.up || s.power.ps4Ready then s else s.regWrite .jtag addr 4 (value.setWidth 64))
    else if s.up then s.regRead .jtag addr 4 else s)

end Sys2Proof.Machine
end

