-- ==== Sys2Proof/Machine/Dispatch.lean ====
section
/-! DEFINITION. One arm per command: a direct call of its meaning. -/

namespace Sys2Proof.Machine

def exec (i : Instr) (s : State) : Host.Outcome State Fault Refusal :=
  match i with
  | .swathBoundary offNs => Sys2Proof.Machine.execSwathBoundary offNs s
  | .tickOutPulse => Sys2Proof.Machine.execTickOutPulse s
  | .replanStep => Sys2Proof.Machine.execReplanStep s
  | .commitStep => Sys2Proof.Machine.execCommitStep s
  | .drainComplete => Sys2Proof.Machine.execDrainComplete s
  | .planeSwitch ecc => Sys2Proof.Machine.execPlaneSwitch ecc s
  | .admissionStep => Sys2Proof.Machine.execAdmissionStep s
  | .mirrorRefresh skew => Sys2Proof.Machine.execMirrorRefresh skew s
  | .editPass u => Sys2Proof.Machine.execEditPass u s
  | .editPassEnd u => Sys2Proof.Machine.execEditPassEnd u s
  | .planeLoad f => Sys2Proof.Machine.execPlaneLoad f s
  | .planeLoadEnd f eccFail => Sys2Proof.Machine.execPlaneLoadEnd f eccFail s
  | .fieldStoreClear f => Sys2Proof.Machine.execFieldStoreClear f s
  | .seedbankAllotment => Sys2Proof.Machine.execSeedbankAllotment s
  | .latePlaneSwitch ecc => Sys2Proof.Machine.execLatePlaneSwitch ecc s
  | .lookaheadStart => Sys2Proof.Machine.execLookaheadStart s
  | .workWindowBegins => Sys2Proof.Machine.execWorkWindowBegins s
  | .tailBegins => Sys2Proof.Machine.execTailBegins s
  | .psEntryAtSwathEnd => Sys2Proof.Machine.execPsEntryAtSwathEnd s
  | .unitEnd u => Sys2Proof.Machine.execUnitEnd u s
  | .sliceCut u => Sys2Proof.Machine.execSliceCut u s
  | .operationEnd pool core => Sys2Proof.Machine.execOperationEnd pool core s
  | .digestUnitEnd p => Sys2Proof.Machine.execDigestUnitEnd p s
  | .splitHandover pool core => Sys2Proof.Machine.execSplitHandover pool core s
  | .jobEnd job => Sys2Proof.Machine.execJobEnd job s
  | .highWaterDurable slot => Sys2Proof.Machine.execHighWaterDurable slot s
  | .nvCommitDurable => Sys2Proof.Machine.execNvCommitDurable s
  | .slotReload slot => Sys2Proof.Machine.execSlotReload slot s
  | .remaskComplete bad => Sys2Proof.Machine.execRemaskComplete bad s
  | .amuScrubStep u => Sys2Proof.Machine.execAmuScrubStep u s
  | .probeTagWrite u tag => Sys2Proof.Machine.execProbeTagWrite u tag s
  | .probeAnswer u => Sys2Proof.Machine.execProbeAnswer u s
  | .conditionedBlock src samples => Sys2Proof.Machine.execConditionedBlock src samples s
  | .seedAlarm src test => Sys2Proof.Machine.execSeedAlarm src test s
  | .seedStartupTestEnd => Sys2Proof.Machine.execSeedStartupTestEnd s
  | .seedFloorReached => Sys2Proof.Machine.execSeedFloorReached s
  | .intcEvent src => Sys2Proof.Machine.execIntcEvent src s
  | .intcReassign src => Sys2Proof.Machine.execIntcReassign src s
  | .claim who t => Sys2Proof.Machine.execClaim who t s
  | .complete who t src => Sys2Proof.Machine.execComplete who t src s
  | .swiSetC who k => Sys2Proof.Machine.execSwiSetC who k s
  | .swiSetM who k => Sys2Proof.Machine.execSwiSetM who k s
  | .timerWrite t cycles => Sys2Proof.Machine.execTimerWrite t cycles s
  | .timerExpiry t => Sys2Proof.Machine.execTimerExpiry t s
  | .taskArm who task count => Sys2Proof.Machine.execTaskArm who task count s
  | .taskSignal who task => Sys2Proof.Machine.execTaskSignal who task s
  | .taskCancel who task => Sys2Proof.Machine.execTaskCancel who task s
  | .taskInletEvent => Sys2Proof.Machine.execTaskInletEvent s
  | .taskOffer => Sys2Proof.Machine.execTaskOffer s
  | .offerTimeout c => Sys2Proof.Machine.execOfferTimeout c s
  | .faultGroupSampled off n ext => Sys2Proof.Machine.execFaultGroupSampled off n ext s
  | .reactionPin => Sys2Proof.Machine.execReactionPin s
  | .reactionFence => Sys2Proof.Machine.execReactionFence s
  | .reactionBlockReset => Sys2Proof.Machine.execReactionBlockReset s
  | .reactionInt => Sys2Proof.Machine.execReactionInt s
  | .reactionNmi => Sys2Proof.Machine.execReactionNmi s
  | .reactionChipReset => Sys2Proof.Machine.execReactionChipReset s
  | .faultPinTimer => Sys2Proof.Machine.execFaultPinTimer s
  | .faultPinHoldWrite who hold => Sys2Proof.Machine.execFaultPinHoldWrite who hold s
  | .fallowEntry cause => Sys2Proof.Machine.execFallowEntry cause s
  | .registerVote addr mask liveTriple c0 c1 c2 => Sys2Proof.Machine.execRegisterVote addr mask liveTriple c0 c1 c2 s
  | .paritySweep upsets => Sys2Proof.Machine.execParitySweep upsets s
  | .busTimeout who => Sys2Proof.Machine.execBusTimeout who s
  | .counterLowRead who at_ => Sys2Proof.Machine.execCounterLowRead who at_ s
  | .registerWrite who addr size value => Sys2Proof.Machine.execRegisterWrite who addr size value s
  | .cfgHoldWrite who hold => Sys2Proof.Machine.execCfgHoldWrite who hold s
  | .slowWriteApply => Sys2Proof.Machine.execSlowWriteApply s
  | .resetReq who key kind => Sys2Proof.Machine.execResetReq who key kind s
  | .perstAssert => Sys2Proof.Machine.execPerstAssert s
  | .startEdge env => Sys2Proof.Machine.execStartEdge env s
  | .firmwareVerify bankA bankB images kernels => Sys2Proof.Machine.execFirmwareVerify bankA bankB images kernels s
  | .hbmTrainingEnd failed => Sys2Proof.Machine.execHbmTrainingEnd failed s
  | .keystoreReloadEnd corrupt => Sys2Proof.Machine.execKeystoreReloadEnd corrupt s
  | .pldmFirmwareUpdate image => Sys2Proof.Machine.execPldmFirmwareUpdate image s
  | .mctpMessage via msg => Sys2Proof.Machine.execMctpMessage via msg s
  | .spdmGetMeasurements index nonce => Sys2Proof.Machine.execSpdmGetMeasurements index nonce s
  | .heldStatusRequest => Sys2Proof.Machine.execHeldStatusRequest s
  | .mainRailLoss rail => Sys2Proof.Machine.execMainRailLoss rail s
  | .thermtrip => Sys2Proof.Machine.execThermtrip s
  | .tamperAlarm src detA detB => Sys2Proof.Machine.execTamperAlarm src detA detB s
  | .backupTamperAlarm src detA detB => Sys2Proof.Machine.execBackupTamperAlarm src detA detB s
  | .auxRailFall => Sys2Proof.Machine.execAuxRailFall s
  | .backupSupplyChange aux vbat => Sys2Proof.Machine.execBackupSupplyChange aux vbat s
  | .fuseReq who key sources agree => Sys2Proof.Machine.execFuseReq who key sources agree s
  | .tamperEnableWrite who backup value agree => Sys2Proof.Machine.execTamperEnableWrite who backup value agree s
  | .rtcLoad who => Sys2Proof.Machine.execRtcLoad who s
  | .rtcAlarm => Sys2Proof.Machine.execRtcAlarm s
  | .lcClose who agree => Sys2Proof.Machine.execLcClose who agree s
  | .lcOpen who agree => Sys2Proof.Machine.execLcOpen who agree s
  | .finalReq who key blow agree => Sys2Proof.Machine.execFinalReq who key blow agree s
  | .dbgCore t op => Sys2Proof.Machine.execDbgCore t op s
  | .dbgReg write addr value => Sys2Proof.Machine.execDbgReg write addr value s
  | .ageingMeasurementEnd degrade => Sys2Proof.Machine.execAgeingMeasurementEnd degrade s
  | .marginPlan => Sys2Proof.Machine.execMarginPlan s
  | .avsCommand east acks => Sys2Proof.Machine.execAvsCommand east acks s
  | .instEnable who n => Sys2Proof.Machine.execInstEnable who n s
  | .instReset who n => Sys2Proof.Machine.execInstReset who n s
  | .instRemove who n => Sys2Proof.Machine.execInstRemove who n s
  | .instFreeze who n => Sys2Proof.Machine.execInstFreeze who n s
  | .instThaw who n => Sys2Proof.Machine.execInstThaw who n s
  | .instVfReset n => Sys2Proof.Machine.execInstVfReset n s
  | .numvfsLowered k => Sys2Proof.Machine.execNumvfsLowered k s
  | .sqTailDoorbell n q value => Sys2Proof.Machine.execSqTailDoorbell n q value s
  | .cqHeadDoorbell n q value => Sys2Proof.Machine.execCqHeadDoorbell n q value s
  | .queueEnable who n cq q en => Sys2Proof.Machine.execQueueEnable who n cq q en s
  | .descriptorArrives => Sys2Proof.Machine.execDescriptorArrives s
  | .cqTimer n q => Sys2Proof.Machine.execCqTimer n q s
  | .hostD0Return n => Sys2Proof.Machine.execHostD0Return n s
  | .mbxUpProd n index => Sys2Proof.Machine.execMbxUpProd n index s
  | .mbxDnProd n index => Sys2Proof.Machine.execMbxDnProd n index s
  | .bar2Access write addr len data => Sys2Proof.Machine.execBar2Access write addr len data s
  | .dmaErrorCompletion write addr len => Sys2Proof.Machine.execDmaErrorCompletion write addr len s
  | .pcieLinkDown => Sys2Proof.Machine.execPcieLinkDown s
  | .pcieLinkUp => Sys2Proof.Machine.execPcieLinkUp s
  | .exchange fr => Sys2Proof.Machine.execExchange fr s
  | .end_ fr => Sys2Proof.Machine.execEnd fr s
  | .reserve fr => Sys2Proof.Machine.execReserve fr s
  | .ack fr => Sys2Proof.Machine.execAck fr s
  | .commit fr => Sys2Proof.Machine.execCommit fr s
  | .abandon fr => Sys2Proof.Machine.execAbandon fr s
  | .partDone fr => Sys2Proof.Machine.execPartDone fr s
  | .alive fr => Sys2Proof.Machine.execAlive fr s
  | .aliveSend => Sys2Proof.Machine.execAliveSend s
  | .peerTimeout m => Sys2Proof.Machine.execPeerTimeout m s
  | .ptpSync ns => Sys2Proof.Machine.execPtpSync ns s
  | .tickInEdge => Sys2Proof.Machine.execTickInEdge s
  | .referenceLost => Sys2Proof.Machine.execReferenceLost s
  | .holdoverTimeout => Sys2Proof.Machine.execHoldoverTimeout s
  | .portLinkDrop k => Sys2Proof.Machine.execPortLinkDrop k s
  | .portRetrained k => Sys2Proof.Machine.execPortRetrained k s
  | .openingStepEnd => Sys2Proof.Machine.execOpeningStepEnd s
  | .tamperMonitorArmed src => Sys2Proof.Machine.execTamperMonitorArmed src s
  | .risingSclkEdge => Sys2Proof.Machine.execRisingSclkEdge s
  | .d3hotOrL1Entry n kind => Sys2Proof.Machine.execD3hotOrL1Entry n kind s
  | .numvfsRaised k => Sys2Proof.Machine.execNumvfsRaised k s
  | .vbatLowChange mv => Sys2Proof.Machine.execVbatLowChange mv s

end Sys2Proof.Machine
end

