-- ==== Sys2Proof/Safety.lean ====
section
/-! DEFINITION. The terms in which claims are made: a command that completes, the canonical form of the stores, and what a
device in Fallow keeps. -/

namespace Sys2Proof.Machine

/-- Command `c` completes in state `s`: its outcome is a next state, and `Q` holds of it. -/
def Completes (c : Instr) (s : State) (Q : State → Prop) : Prop := ∃ t, exec c s = .next t ∧ Q t

/-- The invariant of every step: the memories, and the tables behind the registers. -/
def State.Canonical (s : State) : Prop := Memory.wf s = true ∧ s.tablesWf = true

/-! ## What the beginning of operations may touch -/

/-- A job without its working state. -/
def Job.still (j : Job) : Job := { j with work := [], carries := [] }
/-- A core or pipeline without what its memory holds. -/
def Core.still (x : Core) : Core := { x with begun := false, ram := OpHeld.empty, got := none }
/-- The state without what operations use as they begin: the cores and pipelines with their counters, the working state of jobs, the random
streams and the allotment, the request counters, what waits at the collector's input, the armed errors of host memory, the free values; of
the key store the working slots and CELL_ERR; of the tamper monitors a split decision with its count and the last alarm. -/
def State.withoutEngines (s : State) : State :=
  { s with
    adm := { s.adm with jobs := s.adm.jobs.map Job.still }
    hbmc := { s.hbmc with servedNow := 0, fencedReads := 0 }
    cores := []
    pools := []
    pipes := []
    digest := { s.digest with recFail := 0 }
    seed := { s.seed with allot := [], delivered := 0, streams := [] }
    keys := { s.keys with slots := [], cellErr := 0 }
    faults := { s.faults with reports := [] }
    tamper := { s.tamper with keySplit := false, mismatch := [] }
    backup := { s.backup with now := { s.backup.now with last := 0, lastRtc := 0 } }
    hostif := { s.hostif with dmaErr := [] }
    free := 0 }
/-- From `s` to `t` operations have begun and nothing else has changed: reports are only added, a slot only comes to wait for a reload, a
core or pipeline only takes an operation's state. -/
structure EnginesOnly (s t : State) : Prop where
  rest : t.withoutEngines = s.withoutEngines
  reports : ∃ l, t.faults.reports = s.faults.reports ++ l
  slots : mwf (fun _ => KSlot.empty) s.keys.slots = true →
    mwf (fun _ => KSlot.empty) t.keys.slots = true ∧ ∀ n, t.slot n = { s.slot n with reload := (t.slot n).reload }
  cores : mwf (fun _ => Core.init) s.cores = true →
    mwf (fun _ => Core.init) t.cores = true ∧ ∀ k, (t.core k).still = (s.core k).still
  pipes : mwf (fun _ => Core.init) s.pipes = true →
    mwf (fun _ => Core.init) t.pipes = true ∧ ∀ p, (t.pipe p).still = (s.pipe p).still

/-- The key slots are in canonical form. -/
def State.slotsWf (s : State) : Bool := mwf (fun _ => KSlot.empty) s.keys.slots
/-- Of the key store nothing has changed but what operations that begin may leave: a slot that now waits for a reload, and CELL_ERR. -/
structure KeysKept (s t : State) : Prop where
  rest : { t.keys with slots := [], cellErr := 0 } = { s.keys with slots := [], cellErr := 0 }
  slots : s.slotsWf = true → t.slotsWf = true ∧ ∀ n, t.slot n = { s.slot n with reload := (t.slot n).reload }

/-- Byte `x` of HBM lies in a range of device addresses. -/
def InRange (x : Nat) (r : Nat × Nat) : Prop := ∃ i, i < r.2 ∧ (r.1 + i) % 2 ^ 37 = x

/-- Address of the next record of a completion queue (R370). -/
def State.cqTailA (s : State) (n q : Nat) : Nat :=
  s.cfgN (cqCfgA n q - 8) + 2 ^ 32 * s.cfgN (cqCfgA n q - 4) + 32 * ((s.inst n).cq q).tail
/-- A completion queue that is enabled and lies in HBM below the device's own bytes, with its whole length. -/
def State.cqInHbm (s : State) (n q : Nat) : Bool :=
  let cfg := s.cfgN (cqCfgA n q)
  bit cfg 31 && !bit cfg 8 && decide (s.cqTailA n q + 32 ≤ ledgerBase)

/-- A shadowed register (R40). -/
def shadowed (a : Nat) : Bool := match regAt a with | some (r, _, _) => r.shadow | none => false

/-- Commands of the schedule, the engines, admission, register writes and Commons traffic, which stop in Fallow (R420, R422). -/
def stopsInFallow (c : Instr) : Bool :=
  match c with
  | .tickOutPulse .. => true
  | .replanStep .. => true
  | .commitStep .. => true
  | .drainComplete .. => true
  | .planeSwitch .. => true
  | .admissionStep .. => true
  | .mirrorRefresh .. => true
  | .editPass .. => true
  | .editPassEnd .. => true
  | .planeLoad .. => true
  | .planeLoadEnd .. => true
  | .fieldStoreClear .. => true
  | .seedbankAllotment .. => true
  | .latePlaneSwitch .. => true
  | .lookaheadStart .. => true
  | .workWindowBegins .. => true
  | .tailBegins .. => true
  | .psEntryAtSwathEnd .. => true
  | .unitEnd .. => true
  | .sliceCut .. => true
  | .operationEnd .. => true
  | .digestUnitEnd .. => true
  | .splitHandover .. => true
  | .jobEnd .. => true
  | .highWaterDurable .. => true
  | .nvCommitDurable .. => true
  | .slotReload .. => true
  | .remaskComplete .. => true
  | .amuScrubStep .. => true
  | .probeTagWrite .. => true
  | .probeAnswer .. => true
  | .conditionedBlock .. => true
  | .seedAlarm .. => true
  | .seedStartupTestEnd .. => true
  | .seedFloorReached .. => true
  | .complete .. => true
  | .swiSetC .. => true
  | .swiSetM .. => true
  | .timerWrite .. => true
  | .taskArm .. => true
  | .taskSignal .. => true
  | .taskCancel .. => true
  | .taskInletEvent .. => true
  | .taskOffer .. => true
  | .offerTimeout .. => true
  | .faultPinHoldWrite .. => true
  | .fallowEntry .. => true
  | .cfgHoldWrite .. => true
  | .keystoreReloadEnd .. => true
  | .fuseReq .. => true
  | .tamperEnableWrite .. => true
  | .rtcLoad .. => true
  | .lcClose .. => true
  | .lcOpen .. => true
  | .finalReq .. => true
  | .ageingMeasurementEnd .. => true
  | .marginPlan .. => true
  | .avsCommand .. => true
  | .instEnable .. => true
  | .instReset .. => true
  | .instRemove .. => true
  | .instFreeze .. => true
  | .instThaw .. => true
  | .instVfReset .. => true
  | .numvfsLowered .. => true
  | .sqTailDoorbell .. => true
  | .cqHeadDoorbell .. => true
  | .queueEnable .. => true
  | .descriptorArrives .. => true
  | .cqTimer .. => true
  | .mbxUpProd .. => true
  | .mbxDnProd .. => true
  | .exchange .. => true
  | .end_ .. => true
  | .reserve .. => true
  | .ack .. => true
  | .commit .. => true
  | .abandon .. => true
  | .partDone .. => true
  | .alive .. => true
  | .aliveSend .. => true
  | .peerTimeout .. => true
  | .ptpSync .. => true
  | .tickInEdge .. => true
  | .referenceLost .. => true
  | .holdoverTimeout .. => true
  | _ => false

/-- What a chip reset leaves (R468, Table 22.2): the device waits for a start edge with its volatile state at reset values; HBM but for
the ledger range, host memory, the life cycle's state and journal mark, CAUSE and the tamper fuses stay, and fuses blown since
the last chip reset act. -/
structure AfterChipReset (s t : State) : Prop where
  waits : t.start.up = false ∧ t.start.phase = 0 ∧ t.start.boot = s.start.boot + 1
  swath : t.glob = Glob.reset
  power : t.power = Power.reset
  work : t.adm = Admit.reset ∧ t.fields = [] ∧ t.amus = [] ∧ t.cores = [] ∧ t.pipes = [] ∧ t.handles = []
  instances : t.insts = []
  workingKeys : t.keys.slots = [] ∧ t.keys.pend = []
  registers : ∀ a, isBackupReg a = false → t.cfgW a = regReset a ∧ t.liveW a = regReset a
  hbm : t.hbm = s.hbm.filter (fun e => !isLedger e.1)
  host : t.host = s.host
  life : t.life.closed = s.life.closed ∧ t.life.final = s.life.final ∧ t.life.mark = s.life.mark
  fuses : t.tamper.blown = s.tamper.blown ∧ t.tamper.eff = s.tamper.blown
  collector : t.faults.sticky = 0 ∧ t.faults.reports = [] ∧ t.faults.groups = [] ∧ t.faults.fallow = false

/-- Two states agree on the register words, the memories, the key store, the life cycle, the tamper monitors and the backup domain. -/
structure SameStores (s t : State) : Prop where
  cfg : t.cfg = s.cfg
  live : t.live = s.live
  hbm : t.hbm = s.hbm
  host : t.host = s.host
  coreMem : t.ctrl.mem = s.ctrl.mem
  keys : t.keys = s.keys
  life : t.life = s.life
  tamper : t.tamper = s.tamper
  backup : t.backup = s.backup

/-- Commands that act on one unit of their own and leave the stores alone; a mailbox index within its ring's bounds (Table 25.3). -/
def quiet (c : Instr) (s : State) : Bool :=
  match c with
  | .tickOutPulse .. => true
  | .mirrorRefresh .. => true
  | .planeLoad .. => true
  | .fieldStoreClear .. => true
  | .lookaheadStart .. => true
  | .amuScrubStep .. => true
  | .probeAnswer .. => true
  | .splitHandover .. => true
  | .conditionedBlock .. => true
  | .seedAlarm .. => true
  | .seedStartupTestEnd .. => true
  | .intcEvent .. => true
  | .intcReassign .. => true
  | .claim .. => true
  | .complete .. => true
  | .swiSetC .. => true
  | .swiSetM .. => true
  | .timerWrite .. => true
  | .timerExpiry .. => true
  | .taskArm .. => true
  | .taskSignal .. => true
  | .taskCancel .. => true
  | .taskInletEvent .. => true
  | .taskOffer .. => true
  | .offerTimeout .. => true
  | .reactionPin .. => true
  | .reactionInt .. => true
  | .reactionNmi .. => true
  | .faultPinTimer .. => true
  | .busTimeout .. => true
  | .hbmTrainingEnd .. => true
  | .firmwareVerify .. => true
  | .pldmFirmwareUpdate .. => true
  | .mctpMessage .. => true
  | .spdmGetMeasurements .. => true
  | .heldStatusRequest .. => true
  | .thermtrip .. => true
  | .rtcAlarm .. => true
  | .ageingMeasurementEnd .. => true
  | .marginPlan .. => true
  | .avsCommand .. => true
  | .instFreeze .. => true
  | .instThaw .. => true
  | .numvfsRaised .. => true
  | .sqTailDoorbell .. => true
  | .cqHeadDoorbell .. => true
  | .descriptorArrives .. => true
  | .cqTimer .. => true
  | .hostD0Return .. => true
  | .d3hotOrL1Entry .. => true
  | .mbxUpProd n ix => !ringBad ix (s.inst n.val).upCons
  | .mbxDnProd n ix => !ringBad ix (s.inst n.val).dnCons
  | .dmaErrorCompletion .. => true
  | .pcieLinkDown .. => true
  | .reserve .. => true
  | .ack .. => true
  | .commit .. => true
  | .abandon .. => true
  | .partDone .. => true
  | .alive .. => true
  | .aliveSend .. => true
  | .peerTimeout .. => true
  | .ptpSync .. => true
  | .tickInEdge .. => true
  | .referenceLost .. => true
  | .holdoverTimeout .. => true
  | .portLinkDrop .. => true
  | .portRetrained .. => true
  | _ => false

end Sys2Proof.Machine
end

