-- ==== Sys2Proof/Certificates/Slice0/Obligations.lean ====
section
/-! DEFINITION. The statements for the provers. Each docstring names the rules of spec/ that the statement formalises. -/

open Sys2Proof Sys2Proof.Machine

/-! ## The machine -/

/-- The step takes the front command of the queue and runs it on the queue's rest. On an empty queue the block idles (the
model's choice, log entry 9). -/
def Obligations.StepRunsFrontCommand : Prop :=
  (∀ c rest s, s.pending = c :: rest → step s = exec c { s with pending := rest }) ∧
  (∀ s, s.pending = [] → step s = .next s)

/-- At reset every store and table is in canonical form. -/
def Obligations.CanonicalAtReset : Prop := State.reset.Canonical

/-- Every step keeps the canonical form of the memories, the register stores and the unit tables. -/
def Obligations.StepKeepsCanonical : Prop := ∀ s t, s.Canonical → step s = .next t → t.Canonical

/-- Fallow is left only by chip reset (R422): every command that completes leaves the device in Fallow, or has reset it. -/
def Obligations.FallowLeftOnlyByChipReset : Prop :=
  ∀ c s t, s.faults.fallow = true → exec c s = .next t → t.faults.fallow = true ∨ t.start.boot = s.start.boot + 1

/-- In Fallow the schedule, the engines, admission, register commands and Commons traffic stop (R420, R422): each of these
commands leaves the state as it is. -/
def Obligations.FallowStopsWork : Prop := ∀ c s, stopsInFallow c = true → s.faults.fallow = true → exec c s = .next s

/-- Every command completes in every state: none ends in a fault, and none is refused. -/
def Obligations.EveryCommandCompletes : Prop := ∀ c s, ∃ t, exec c s = .next t

/-- What the machine shows after reset: RESERVE.PCT 6, no swath counted, CCLK_STEP 24, PS0 with every field powered and in service,
PS_STATE and FAULT.STATE at their reset values, the manager ENABLED and the other instances ABSENT with GEN 0, FAULT_N high (Tables
2.5, 3.6, 16.1, 18.6, 21.3); and no command waits. -/
def Obligations.ResetRegisters : Prop :=
  State.reset.readReg .pf 0x100000 = 6#32 ∧ State.reset.glob.swn = 0 ∧ State.reset.glob.cclkStep = 24 ∧
  State.reset.power.state = 0 ∧ State.reset.power.fieldsOn = 0xFFFF ∧
  (∀ f, f < 16 → (State.reset.field f).powered = true ∧ (State.reset.field f).fenced = false) ∧
  State.reset.readReg .pf 0xC00000 = 0xFFFF0000#32 ∧ State.reset.readReg .pf 0xB00000 = 0#32 ∧
  (∀ n, (State.reset.inst n).gen = 0) ∧ (State.reset.inst 0).state = 1 ∧ (∀ n, 0 < n → (State.reset.inst n).state = 0) ∧
  State.reset.faults.pinLow = false ∧ State.reset.pending = []

/-! ## The swath -/

/-- SWATH_BOUNDARY (R53): SWN increases by one and a headland opens at offset 0. A member that is about to take SWN from its
reference (Table 23.3) is the exception that the premise names. TICK_OUT_PULSE (R478) drives the tick output while CTL enables it, and
does nothing while it does not. -/
def Obligations.SwathBoundaryAdvances : Prop :=
  (∀ s off, s.up = true → s.glob.timer = true → s.commons.align ≠ 1 →
    Completes (.swathBoundary off) s (fun t => t.glob.swn = s.glob.swn + 1 ∧ t.glob.inHeadland = true ∧ t.glob.offset = 0 ∧
      t.tamper = s.tamper ∧ t.life = s.life)) ∧
  (∀ s, s.running = true → bit (s.liveN 0xD00000) 0 = true → exec .tickOutPulse s = .next (s.emit .tick)) ∧
  (∀ s, s.running = true → bit (s.liveN 0xD00000) 0 = false → exec .tickOutPulse s = .next s)

/-- N, H, C and T at the nominal CCLK with the default reserve (R54, R55; worked figures of chapter 3), and C and T never exceed
the swath outside its headland. -/
def Obligations.SwathFigures : Prop :=
  State.reset.nCc = 3000000 ∧ State.reset.hCc = 120000 ∧ State.reset.cCc = 2700000 ∧ State.reset.tCc = 2877952 ∧
  (∀ s : State, s.nCc = 2700000 + 12500 * s.glob.cclkStep ∧ s.hCc = 108000 + 500 * s.glob.cclkStep ∧
    s.rCc = s.liveN 0x100000 * s.nCc / 100 ∧ s.cCc = s.nCc - s.hCc - max s.rCc 2048 ∧ s.tCc = s.nCc - s.hCc - 2048 ∧
    s.cCc ≤ s.tCc)

/-- REPLAN_STEP (R57, R62): it stands at offset 0, and after it every resource has the capacities of Table 3.4 for the units in
service and the CCLK in force. -/
def Obligations.ReplanStepValuesCapacity : Prop :=
  ∀ s, s.running = true → mwf (fun _ => 0) s.adm.capC = true → mwf (fun _ => 0) s.adm.capT = true →
    Completes .replanStep s (fun t => t.glob.offset = 0 ∧ t.glob.swn = s.glob.swn ∧
      ∀ x, x < 28 → t.capC x = t.capCNow x ∧ t.capT x = t.capTNow x)

/-- COMMIT_STEP (R22, R40, R41, R48): while CFG_HOLD is 0 and no shadow word has a parity mismatch every shadowed register's live
copy takes its shadow; outside a release, a block with a mismatch in a shadow word commits nothing and shows it in CFG_SKIP; while
CFG_HOLD is 1 nothing becomes live. -/
def Obligations.CommitStepMakesShadowsLive : Prop :=
  (∀ s, s.running = true → s.tablesWf = true → bit (s.cfgN 0x40) 0 = false → s.badShadows = [] →
    Completes .commitStep s (fun t => t.glob.offset = 8192 ∧
      ∀ a, shadowed a = true → t.liveW a = s.cfgW a ∧ t.cfgW a = s.cfgW a)) ∧
  (∀ s a, s.running = true → s.tablesWf = true → bit (s.cfgN 0x40) 0 = false → s.glob.relPend = false → a ∈ s.badShadows →
    Completes .commitStep s (fun t => t.glob.offset = 8192 ∧ t.cfg = s.cfg ∧
      (cfgBit (blockOf a) < 15 → t.glob.cfgSkip.getLsbD (cfgBit (blockOf a)) = true) ∧
      ∀ b, blockOf b = blockOf a → t.liveW b = s.liveW b)) ∧
  (∀ s, s.running = true → bit (s.cfgN 0x40) 0 = true →
    Completes .commitStep s (fun t => t.live = s.live ∧ t.cfg = s.cfg ∧ t.glob.offset = 8192))

/-- DRAIN_COMPLETE (R81, R449): once no row holds a reservation on what it names, a waiting DRAIN takes effect: the target state
stands, no DRAIN waits, CMD_SWN holds SWN, source 899 is pending, and the fields that the command takes away are off; until then, or
without a DRAIN, it changes nothing. PS_ENTRY_AT_SWATH_END (R452): at the entry of PS3 and PS4 CC0–CC11 halt; for PS4 no commit or
key change waits any longer, the working array is empty and PS4_READY reads 1; for PS3 the key store stays as it is; without a
state to enter it changes nothing. -/
def Obligations.PowerCommandsTakeEffect : Prop :=
  (∀ s w, s.running = true → s.tablesWf = true → s.power.drain = some w → s.drainMet w = true →
    Completes .drainComplete s (fun t => t.power.state = min 4 (pwrTarget w) ∧ t.power.drain = none ∧
      t.power.cmdSwn = s.glob.swn ∧ 899 ∈ t.intc.pend ∧ (∀ f, f < 16 → f ∈ pwrNames w → (t.field f).powered = false) ∧
      t.cfg = s.cfg ∧ t.live = s.live ∧ t.keys = s.keys ∧ t.adm.jobs = s.adm.jobs ∧ t.hbm = s.hbm)) ∧
  (∀ s, s.running = true → (s.power.drain = none ∨ ∃ w, s.power.drain = some w ∧ s.drainMet w = false) →
    exec .drainComplete s = .next s) ∧
  (∀ s k, s.running = true → s.power.entering = some k →
    Completes .psEntryAtSwathEnd s (fun t => t.power.entering = none ∧ (∀ c, c < 12 → c ∈ t.ctrl.halted) ∧
      (4 ≤ k → t.power.ps4Ready = true ∧ t.keys.slots = [] ∧ t.keys.commits = [] ∧ t.keys.pend = []) ∧
      (k < 4 → t.power.ps4Ready = s.power.ps4Ready ∧ t.keys = s.keys) ∧ t.cfg = s.cfg ∧ t.live = s.live ∧ t.hbm = s.hbm)) ∧
  (∀ s, s.running = true → s.power.entering = none → exec .psEntryAtSwathEnd s = .next s)

/-! ## Headland work on fields and match units -/

/-- PLANE_SWITCH and LATE_PLANE_SWITCH (R154, R155): where no plane's read fails, PLANE_SWITCH makes a field active exactly where the
stage that claims it finds its plane RESIDENT, on that plane; and after any switch a field that has become active is on a RESIDENT plane.
The late switch leaves the fields that were active alone. -/
def Obligations.PlaneSwitchActivatesResidentPlanes : Prop :=
  (∀ s, s.running = true → s.tablesWf = true → Completes (.planeSwitch []) s (fun t => t.glob.offset = 8704 ∧
    ∀ f, f < 16 →
      match s.claimOn s.swnN f with
      | none => (t.field f).active = false
      | some (j, p, i) =>
        match (s.planeOf f (s.sectOf j (j.stage p.stage) i)).filter (fun q => ((s.field f).plane q).state == 2) with
        | some q => (t.field f).active = true ∧ (t.field f).activePlane = q
        | none => (t.field f).active = false ∧ 882 ∈ t.intc.pend)) ∧
  (∀ s ecc, s.running = true → s.tablesWf = true → Completes (.planeSwitch ecc) s (fun t => t.glob.offset = 8704 ∧
    ∀ f, f < 16 → (t.field f).active = true → ((t.field f).plane (t.field f).activePlane).state = 2)) ∧
  (∀ s ecc, s.running = true → s.tablesWf = true → Completes (.latePlaneSwitch ecc) s (fun t => t.glob.offset = 49152 ∧
    ∀ f, f < 16 → ((s.field f).active = true → t.field f = s.field f) ∧
      ((s.field f).active = false → (t.field f).active = true → ((t.field f).plane (t.field f).activePlane).state = 2)))

/-- PLANE_LOAD and PLANE_LOAD_END (R153, R155): the next booked load begins; at its end the plane is RESIDENT, with the section's bytes as
HBM holds them; a load with an ECC error, or one that meets a fenced channel, leaves the plane EMPTY, raises PLANE_FAIL and makes
source 882 pending. Without a load to begin or to end nothing changes. -/
def Obligations.PlaneLoadFillsPlane : Prop :=
  (∀ s (f : Fin 16) p, s.running = true → s.nextLoad f.val = some p →
    Completes (.planeLoad f) s (fun t => (t.field f.val).loading = some p ∧ t.loads = s.loads + 1 ∧
      t.loadsLast = s.loadsLast + 1 ∧ t.hbm = s.hbm ∧ t.cfg = s.cfg)) ∧
  (∀ s (f : Fin 16), s.running = true → s.nextLoad f.val = none → exec (.planeLoad f) s = .next s) ∧
  (∀ s (f : Fin 16) p, s.running = true → s.tablesWf = true → (s.field f.val).loading = some p →
    ((s.field f.val).plane p).digest = [] ∨ s.meetsFence ((s.field f.val).plane p).src ((s.field f.val).plane p).len = false →
    Completes (.planeLoadEnd f false) s (fun t => (t.field f.val).loading = none ∧ ((t.field f.val).plane p).state = 2 ∧
      (((s.field f.val).plane p).digest ≠ [] →
        ((t.field f.val).plane p).data = s.hbmSparse ((s.field f.val).plane p).src ((s.field f.val).plane p).len) ∧
      t.hbm = s.hbm ∧ t.adm = s.adm)) ∧
  (∀ (s : State) a n k, mwf hbmDefault s.hbm = true → a + n ≤ ledgerBase → k < n →
    mget (fun _ => 0#8) (s.hbmSparse a n) k = s.hbmByte (a + k)) ∧
  (∀ s (f : Fin 16) p ecc, s.running = true → s.tablesWf = true → mwf (fun _ => Plane.empty) (s.field f.val).planes = true →
    (s.field f.val).loading = some p → ((s.field f.val).plane p).digest ≠ [] →
    ecc = true ∨ s.meetsFence ((s.field f.val).plane p).src ((s.field f.val).plane p).len = true →
    Completes (.planeLoadEnd f ecc) s (fun t => (t.field f.val).loading = none ∧ (t.field f.val).plane p = Plane.empty ∧
      882 ∈ t.intc.pend ∧ ∃ r ∈ t.faults.reports, r.source = 169)) ∧
  (∀ s (f : Fin 16) ecc, s.running = true → (s.field f.val).loading = none → exec (.planeLoadEnd f ecc) s = .next s)

/-- FIELD_STORE_CLEAR (R119): where the claiming stage's owner differs from the recorded one the field's store is cleared, else it stays.
LOOKAHEAD_START (R125): every claimed, active field in service begins, at 512 cc before H; a field that runs no query reads nothing
ahead, and HBM stays as it is. -/
def Obligations.FieldsPrepareForTheirStage : Prop :=
  (∀ s (f : Fin 16) j p i, s.running = true → s.claimOn s.swnN f.val = some (j, p, i) → j.inst ≠ (s.field f.val).owner →
    exec (.fieldStoreClear f) s = .next (s.modField f.val (fun x => { x with clean := true, banks := [] }))) ∧
  (∀ s (f : Fin 16), s.running = true →
    (∀ j p i, s.claimOn s.swnN f.val = some (j, p, i) → j.inst = (s.field f.val).owner) → exec (.fieldStoreClear f) s = .next s) ∧
  (∀ s, s.running = true → s.tablesWf = true → Completes .lookaheadStart s (fun t => t.glob.offset = s.hCc - 512 ∧ t.hbm = s.hbm ∧
    ∀ f, f < 16 →
      ((s.fieldOn f && (s.field f).active && (s.claimOn s.swnN f).isSome) = false → t.field f = s.field f) ∧
      (∀ j p i, s.fieldOn f = true → (s.field f).active = true → s.claimOn s.swnN f = some (j, p, i) →
        (j.opcode ≠ 0x0100 → t.field f = { s.field f with lookahead := true }) ∧
        ∃ n a, t.field f = { s.field f with lookahead := true, ingNow := (s.field f).ingNow + n, ahead := a })))

/-- MIRROR_REFRESH (R418): the mirror takes the fenced units, the fields' power and active planes, the row's occupancy, CCLK and reserve
of this headland, and source 896 becomes pending. -/
def Obligations.MirrorRefreshCopiesState : Prop :=
  ∀ s skew, s.running = true → Completes (.mirrorRefresh skew) s (fun t => t.mirror.swn = s.glob.swn ∧
    t.mirror.fenced = s.fencedUnits ∧ t.mirror.fieldsOn = s.power.fieldsOn ∧ t.mirror.cclkStep = s.glob.cclkStep ∧
    t.mirror.planes = (upTo 16).map (fun f => (s.field f).activePlane) ∧ t.mirror.occupancy = (s.row s.swnN).cnt ∧
    t.mirror.reserve = s.liveN 0x100000 ∧ 896 ∈ t.intc.pend ∧ t.glob.offset = 41728 ∧ t.adm = s.adm ∧ t.cfg = s.cfg)

/-- EDIT_PASS and EDIT_PASS_END (R252–R255): on a unit without upset cells a list that fits changes the table and COUNT as its edits say
in order; one that does not fit changes neither, and its job ends with AMU_FULL. At the end of a pass that fitted the shadow takes
the changed entries and the job's unit counts as ended. The edits of a list outside Table 10.1, and its job's status, are free (the
model's choice, log entry 26). -/
def Obligations.EditPassAppliesItsList : Prop :=
  (∀ s (u : Fin 4) l, s.running = true → s.amuOn u.val = true → (s.amu u.val).pass = none → (s.amu u.val).upsets = [] →
    mwf (fun _ => AmuEntry.empty) (s.amu u.val).table = true → s.passList u.val = some l →
    Completes (.editPass u) s (fun t => t.glob.offset = 41728 ∧ ((t.amu u.val).table, (t.amu u.val).count) =
      (if editsFull (s.listEdits l.bytes).1 (s.amu u.val).count then ((s.amu u.val).table, (s.amu u.val).count)
       else (s.listEdits l.bytes).1.foldl (fun x e => e.apply x) ((s.amu u.val).table, (s.amu u.val).count)) ∧
      (∃ p, (t.amu u.val).pass = some p ∧ p.job = l.job ∧
        p.full = editsFull (s.listEdits l.bytes).1 (s.amu u.val).count) ∧
      (∀ v, v ≠ u.val → s.tablesWf = true → t.amu v = s.amu v) ∧ t.hbm = s.hbm)) ∧
  (∀ s (u : Fin 4), s.running = true → s.amuOn u.val = false ∨ (s.amu u.val).pass ≠ none ∨ s.passList u.val = none →
    exec (.editPass u) s = .next s) ∧
  (∀ s (u : Fin 4) p, s.running = true → s.tablesWf = true → (s.amu u.val).pass = some p →
    Completes (.editPassEnd u) s (fun t => (t.amu u.val).pass = none ∧ (t.amu u.val).table = (s.amu u.val).table ∧
      (t.amu u.val).count = (s.amu u.val).count ∧
      (p.full = true → t.hbm = s.hbm ∧ ∀ j, s.job? p.job = some j → j.status = none → editsBad j.param = false →
        descBad j.desc = false → ∃ k, t.job? p.job = some k ∧ k.status = some 0x26) ∧
      (p.full = false → t.hbm = (((upTo (max p.oldCount (s.amu u.val).count)).drop p.p0).foldl
          (fun s a => s.shadowWrite u.val a) s).hbm ∧
        ∀ j, s.job? p.job = some j → editsBad j.param = false → descBad j.desc = false →
          t.job? p.job = some { j with pls := j.pls.map (fun q => if q.row = s.swnN then { q with done := [q.count] } else q) }))) ∧
  (∀ s (u : Fin 4), s.running = true → (s.amu u.val).pass = none → exec (.editPassEnd u) s = .next s)

/-- AMU matching (R244): an entry matches under its own non-zero tag where the key agrees outside the mask's zero bits; the answer
is HIT with the lowest matching address below COUNT, else zero; tag 0 matches nothing. -/
def Obligations.LookupFindsLowestMatch : Prop :=
  ∀ (x : Amu) (tag : BitVec 16) (key : BitVec 128), mwf (fun _ => AmuEntry.empty) x.table = true →
    let e := fun a => mget (fun _ => AmuEntry.empty) x.table a
    let hit := fun a => a < x.count ∧ (e a).tag = tag ∧ tag ≠ 0 ∧ (key ^^^ (e a).key) &&& (e a).mask = 0
    (∀ a, x.match? tag key = some a ↔ hit a ∧ ∀ b, b < a → ¬ hit b) ∧
    (x.match? tag key = none ↔ ∀ a, ¬ hit a) ∧
    (∀ a, x.match? tag key = some a → x.answer tag key = BitVec.ofNat 32 (2 ^ 31 + a)) ∧
    (x.match? tag key = none → x.answer tag key = 0#32) ∧
    x.match? 0 key = none

/-- AMU_SCRUB_STEP (R259, R261, R262), PROBE_TAG_WRITE and PROBE_ANSWER (R256): a differing entry takes the shadow's value, its upset cells
are whole again, and AMU_SCRUB is raised; an entry that agrees stays; an entry on a fenced channel is skipped; a cell that is upset
changes its stored bit, which lookups compare as it stands; a probe answers with the lowest match of its key and tag, and one whose
unit runs a pass waits. -/
def Obligations.ScrubAndProbe : Prop :=
  (∀ s (u : Fin 4), s.running = true → s.amuOn u.val = true → bit (s.liveN (0x500010 + 0x1000 * u.val)) 0 = true →
    (s.amu u.val).pass = none → s.hbmc.pcFenced.getLsbD (pcOf (s.shadowOf u.val (s.amu u.val).scrubPos)) = true →
    exec (.amuScrubStep ⟨u, []⟩) s =
      .next (s.setAmu u.val { s.amu u.val with scrubPos := ((s.amu u.val).scrubPos + 1) % 65536 })) ∧
  (∀ s (u : Fin 4), s.running = true → s.tablesWf = true → s.amuOn u.val = true →
    bit (s.liveN (0x500010 + 0x1000 * u.val)) 0 = true →
    (s.amu u.val).pass = none → s.hbmc.pcFenced.getLsbD (pcOf (s.shadowOf u.val (s.amu u.val).scrubPos)) = false →
    let e := (entryOf (s.hbmPeek (s.shadowOf u.val (s.amu u.val).scrubPos) 64)).norm
    let here := mget (fun _ => AmuEntry.empty) (s.amu u.val).table (s.amu u.val).scrubPos
    Completes (.amuScrubStep ⟨u, []⟩) s (fun t => (t.amu u.val).scrubPos = ((s.amu u.val).scrubPos + 1) % 65536 ∧
      (t.amu u.val).upsetAt (s.amu u.val).scrubPos = [] ∧ (t.amu u.val).count = (s.amu u.val).count ∧
      (e = here → (t.amu u.val).table = (s.amu u.val).table ∧ (t.amu u.val).scrubFix = (s.amu u.val).scrubFix) ∧
      (e ≠ here → (t.amu u.val).table = aput (s.amu u.val).table (s.amu u.val).scrubPos e ∧
        (t.amu u.val).scrubFix = satInc 32 (s.amu u.val).scrubFix ∧
        ∃ r ∈ t.faults.reports, r.source = Fin.ofNat 512 (176 + 4 * u.val)) ∧ t.hbm = s.hbm)) ∧
  (∀ s (u : Fin 4) (a : Fin 65536) (b : Fin 272), s.running = true → (s.amu u.val).pass = none →
    bit (s.liveN (0x500010 + 0x1000 * u.val)) 0 = false →
    exec (.amuScrubStep ⟨u, [(a, b)]⟩) s = .next (s.modAmu u.val (fun x => x.upset a.val b.val))) ∧
  (∀ s (u : Fin 4) tag, s.running = true → Completes (.probeTagWrite u tag) s (fun t =>
    (t.amu u.val).probe = some (s.probeKey u.val, tag) ∧ (t.amu u.val).probeDone = false ∧
      (t.amu u.val).table = (s.amu u.val).table)) ∧
  (∀ s (u : Fin 4) key tag, s.running = true → s.amuOn u.val = true → (s.amu u.val).pass = none →
    (s.amu u.val).probe = some (key, tag) →
    Completes (.probeAnswer u) s (fun t => (t.amu u.val).probeDone = true ∧ (t.amu u.val).probe = none ∧
      (t.amu u.val).probeHit = ((s.amu u.val).match? tag key).isSome ∧
      (t.amu u.val).probeAddr = ((s.amu u.val).match? tag key).getD 0 ∧ (t.amu u.val).table = (s.amu u.val).table)) ∧
  (∀ s (u : Fin 4), s.running = true → s.tablesWf = true → s.amuOn u.val = false ∨ (s.amu u.val).pass ≠ none →
    exec (.probeAnswer u) s = .next s)

/-! ## Admission, the seedbank and the work window -/

/-- ADMISSION_STEP (R66, R67, R72): the descriptors present are decided in inlet order within 32,768 cycles and the rest carried; the
step ends at offset 8,960 with source 880 pending. A descriptor of unknown opcode is refused and counted, at 16 cycles. While
admission is not open the step decides nothing. -/
def Obligations.AdmissionDecidesInletInOrder : Prop :=
  (∀ s, s.running = true → s.glob.admitOpen = false → exec .admissionStep s = .next (s.setOffset 8960)) ∧
  (∀ s, s.running = true → s.glob.admitOpen = true → Completes .admissionStep s (fun t =>
    t.glob.offset = 8960 ∧ t.glob.swn = s.glob.swn ∧ 880 ∈ t.intc.pend ∧ t.adm.stepLast ≤ 32768 ∧ t.life = s.life ∧
    ∃ k, t.adm.inlet = s.adm.inlet.drop k ∧ t.adm.decided = k ∧ t.adm.carried = s.adm.inlet.length - k)) ∧
  (∀ s e, s.running = true → s.glob.admitOpen = true → (∀ x ∈ s.insts, x.2.thawReq = false) → s.commons.rsv = [] →
    s.commons.cjobs = [] → s.tableFull = false → s.adm.inlet = [e] → opcodeKnown (dOpcode e.desc) = false →
    Completes .admissionStep s (fun t => t.adm.inlet = [] ∧ t.adm.refused = s.adm.refused + 1 ∧
      t.adm.stepLast = 16 ∧ t.adm.decided = 1 ∧ t.adm.carried = 0 ∧ t.adm.jobs = s.adm.jobs ∧
      cget t.adm.instRefused e.inst = satInc 32 (cget s.adm.instRefused e.inst) ∧ t.cfg = s.cfg ∧ t.keys = s.keys))

/-- SEEDBANK_ALLOTMENT (R331, R266): the row's SEED bytes move from the queue to the allotment; in the headlands of SWN mod 1,024 =
0–48 stream SWN mod 1,024 is reseeded from 48 bytes of it. -/
def Obligations.AllotmentServesReseeds : Prop :=
  (∀ s, s.running = true → s.seed.phase = 2 → (∀ k, k < 49 → (s.stream k).due = none) → 48 < s.swnN % 1024 →
    s.rowPlacements s.swnN = [] →
    exec .seedbankAllotment s = .next ((s.modSeed (fun b => { b with
      allot := b.allot ++ b.queue.take (s.rowCnt s.swnN 27), queue := b.queue.drop (s.rowCnt s.swnN 27) })).setOffset 41728)) ∧
  (∀ s, s.running = true → s.seed.phase = 2 → (∀ k, k < 49 → (s.stream k).due = none) → s.swnN % 1024 ≤ 48 →
    s.rowPlacements s.swnN = [] → s.seed.allot = [] → 48 ≤ s.rowCnt s.swnN 27 → s.rowCnt s.swnN 27 ≤ s.seed.queue.length →
    Completes .seedbankAllotment s (fun t =>
      t.stream (s.swnN % 1024) =
        { (s.stream (s.swnN % 1024)).update (s.seed.queue.take 48) with running := true, due := none } ∧
      t.seed.allot = (s.seed.queue.take (s.rowCnt s.swnN 27)).drop 48 ∧ t.seed.queue = s.seed.queue.drop (s.rowCnt s.swnN 27) ∧
      t.seed.delivered = s.seed.delivered + 48 ∧ t.hbm = s.hbm ∧ t.keys = s.keys ∧ t.cfg = s.cfg))

/-- CONDITIONED_BLOCK (R324, R325), SEED_STARTUP_TEST_END and SEED_FLOOR_REACHED (Table 14.3, R329, R426): a block of a source in
service, compressed with SHA-256, joins the queue while the seedbank fills or runs and has room; the start-up tests end in FILLING,
or in HALTED with an empty queue where a design has lost every source; at the floor the 49 streams are instantiated from the
queue's oldest bytes and delays no longer come from raw noise. -/
def Obligations.SeedbankFills : Prop :=
  (∀ s (n : Fin 8) b, s.running = true → (s.seed.phase = 1 ∨ s.seed.phase = 2) → s.seed.fenced.getLsbD n.val = false →
    s.seed.queue.length + 32 ≤ 65536 →
    exec (.conditionedBlock n b) s = .next (s.modSeed (fun x => { x with queue := x.queue ++ sha256 (fitB b 256) }))) ∧
  (∀ s (n : Fin 8) b, s.running = true →
    (s.seed.phase ≠ 1 ∧ s.seed.phase ≠ 2) ∨ s.seed.fenced.getLsbD n.val = true ∨ 65536 < s.seed.queue.length + 32 →
    exec (.conditionedBlock n b) s = .next s) ∧
  (∀ s, s.running = true → s.seed.phase = 0 → s.designLeft 0 = true → s.designLeft 1 = true →
    exec .seedStartupTestEnd s = .next (s.modSeed (fun b => { b with phase := 1 }))) ∧
  (∀ s, s.running = true → s.seed.phase = 0 → s.designLeft 0 = false ∨ s.designLeft 1 = false →
    Completes .seedStartupTestEnd s (fun t => t.seed.phase = 3 ∧ t.seed.queue = [] ∧ t.seed.allot = [] ∧
      (∃ r ∈ t.faults.reports, r.source = 300) ∧ t.faults.live.getLsbD 300 = true)) ∧
  (∀ s, s.running = true → s.seed.phase = 1 → 4096 ≤ s.seed.queue.length →
    Completes .seedFloorReached s (fun t => t.seed.phase = 2 ∧ t.seed.queue = s.seed.queue.drop 2352 ∧
      t.seed.delivered = s.seed.delivered + 2352 ∧
      (∀ k, k < 49 → t.stream k =
        { (s.stream k).update (slice (s.seed.queue.take 2352) (48 * k) 48) with running := true, due := none }) ∧
      t.tamper = { s.tamper with raw := false } ∧ t.keys = s.keys)) ∧
  (∀ s, s.running = true → s.seed.phase ≠ 1 ∨ s.seed.queue.length < 4096 → exec .seedFloorReached s = .next s)

/-- SEED_ALARM (R327): an alarm of a source in service is counted and raises SEED_ALARM; in its start-up test, or as the third within
1,024 swaths, it fails the source, which raises SEED_SRC_FAIL and leaves service. -/
def Obligations.SeedAlarmFencesSource : Prop :=
  (∀ s (n : Fin 8) test, s.running = true → s.seed.phase ≠ 3 → s.seed.fenced.getLsbD n.val = false →
    Completes (.seedAlarm n test) s (fun t =>
      cget t.seed.rct n.val = (if test = .rct then satInc 16 (cget s.seed.rct n.val) else cget s.seed.rct n.val) ∧
      cget t.seed.apt n.val = (if test = .apt then satInc 16 (cget s.seed.apt n.val) else cget s.seed.apt n.val) ∧
      (∃ r ∈ t.faults.reports, r.source = Fin.ofNat 512 (284 + n.val)) ∧ t.adm = s.adm ∧ t.cfg = s.cfg)) ∧
  (∀ s (n : Fin 8) test, s.running = true → s.seed.phase = 0 → s.seed.fenced.getLsbD n.val = false →
    Completes (.seedAlarm n test) s (fun t => t.seed.fenced.getLsbD n.val = true ∧ t.seed.startFail.getLsbD n.val = true ∧
      ∃ r ∈ t.faults.reports, r.source = Fin.ofNat 512 (292 + n.val))) ∧
  (∀ s (n : Fin 8) test, s.running = true → s.seed.phase = 1 ∨ s.seed.phase = 2 → s.seed.fenced.getLsbD n.val = false →
    2 ≤ ((mget (fun _ => []) s.seed.recent n.val).filter (fun t => decide (s.swnN - t ≤ 1024))).length →
    Completes (.seedAlarm n test) s (fun t => t.seed.fenced.getLsbD n.val = true ∧
      ∃ r ∈ t.faults.reports, r.source = Fin.ofNat 512 (292 + n.val)))

/-- WORK_WINDOW_BEGINS (R57, R90) and TAIL_BEGINS (R60, R105): in the work window an engine with units runs; at the tail, 2,048 cycles
before the swath's end, no field, match unit, core or pipeline runs any longer and no allotment is left. The tail's premise leaves
out INST_SAVE and INST_RESTORE jobs, whose end may be under an unchecked condition (Table 25.3, log entry 25). -/
def Obligations.WorkWindowAndTail : Prop :=
  (∀ s, s.running = true → s.glob.inHeadland = true → Completes .workWindowBegins s (fun t =>
    t.glob.inHeadland = false ∧ t.glob.offset = s.hCc ∧ t.glob.swn = s.glob.swn ∧
    (∀ e ∈ t.cores, e.2.pieces ≠ [] → e.2.busy = true) ∧ (∀ e ∈ t.pipes, e.2.pieces ≠ [] → e.2.busy = true) ∧
    t.cfg = s.cfg ∧ t.live = s.live ∧ KeysKept s t)) ∧
  (∀ s, s.running = true → s.glob.inHeadland = false → exec .workWindowBegins s = .next s) ∧
  (∀ s, s.running = true → s.tablesWf = true → s.glob.timer = true → 0 < s.swnN →
    (∀ j ∈ s.adm.jobs, j.opcode ≠ 0x0900 ∧ j.opcode ≠ 0x0901) → Completes .tailBegins s (fun t =>
    t.glob.offset = s.nCc - 2048 ∧ t.glob.swn = s.glob.swn ∧ t.seed.allot = [] ∧
    (∀ f, f < 16 → (t.field f).slices = [] ∧ (t.field f).lookahead = false) ∧ (∀ u, u < 4 → (t.amu u).slices = []) ∧
    (∀ e ∈ t.cores, e.2.pieces = []) ∧ (∀ e ∈ t.pipes, e.2.pieces = []) ∧ t.life = s.life ∧ t.cfg = s.cfg))

/-! ## Units -/

/-- UNIT_END (R59, R110, R248) and SLICE_CUT (R105): a unit of a field takes its effect, counts as ended, and its slice goes on; one that
waits, or a field that is off, ends nothing; a unit of a match unit answers its keys in HBM, counts as ended and leaves the table as
it was. A cut slice leaves its unit; its job's status is SLICE_OVERRUN, unless a failed check or a refused key of the same unit gives it
its own; a query cut so writes no byte outside its scratch areas. -/
def Obligations.UnitEndsAndCuts : Prop :=
  (∀ s (f : Fin 16) sl rest j, s.running = true → s.fieldOn f.val = true → (s.field f.val).slices = sl :: rest →
    s.job? sl.job = some j →
    (∀ u, s.fieldUnit j sl f.val = some (u, true) → exec (.unitEnd (.field f)) s =
      .next (((u.unitDone sl.job sl.seq sl.pos).stageEnd sl.job sl.stage).nextUnit f.val)) ∧
    (∀ u, s.fieldUnit j sl f.val = some (u, false) → exec (.unitEnd (.field f)) s = .next (u.dropSlice f.val)) ∧
    (s.fieldUnit j sl f.val = none → exec (.unitEnd (.field f)) s = .next s)) ∧
  (∀ s (f : Fin 16), s.running = true → s.fieldOn f.val = false ∨ (s.field f.val).slices = [] →
    exec (.unitEnd (.field f)) s = .next s) ∧
  (∀ s (a : Fin 4) sl rest j, s.running = true → s.tablesWf = true → s.amuOn a.val = true →
    (s.amu a.val).slices = sl :: rest → s.job? sl.job = some j → j.status = none →
    Completes (.unitEnd (.amu a)) s (fun t => (t.amu a.val).slices = sl.next ++ rest ∧
      (t.amu a.val).table = (s.amu a.val).table ∧ (t.amu a.val).count = (s.amu a.val).count ∧
      (j.unchecked = false →
        t.job? sl.job = some { j with pls := j.pls.map (fun p =>
          if p.seq = sl.seq then { p with done := modNth p.done 0 (· + 1) } else p) } ∧
        let i := sl.start + sl.done
        let n := min 4096 (dImm0 j.desc / 2 ^ 32 - 4096 * i)
        let keys := s.hbmPeek (dOp j.desc 0 + 65536 * i) (16 * n)
        t.hbm = (s.hbmWrite (dOp j.desc 1 + 16384 * i) ((upTo n).flatMap (fun q =>
          toLe 4 ((s.amu (dImm0 j.desc % 4)).answer (BitVec.ofNat 16 (fld (dImm0 j.desc) 16 16))
            (BitVec.ofNat 128 (rd keys (16 * q) 16))).toNat))).hbm) ∧
      t.cfg = s.cfg ∧ t.keys = s.keys)) ∧
  (∀ s (f : Fin 16) sl rest j, s.running = true → s.tablesWf = true → (s.field f.val).slices = sl :: rest →
    s.job? sl.job = some j → j.status = none →
    Completes (.sliceCut (.field f)) s (fun t => (t.field f.val).slices = rest.dropWhile t.sliceDead ∧
      (t.field f.val).cuts = satInc 32 (s.field f.val).cuts ∧
      (∃ k, t.job? sl.job = some k ∧ (k.status = some 0x08 ∨ k.status = some 0x21 ∨ k.status = some 0x24) ∧
        (j.opcode = 0x0700 ∨ (s.sliceCtx j sl).stop false = none → k.status = some 0x08) ∧
        (j.opcode = 0x0100 → (s.sliceCtx j sl).stop false = none → mwf hbmDefault s.hbm = true →
          ∀ x, x < 0x17E8280000 → (∀ r ∈ k.scratch, ¬ InRange x r) → t.hbmByte x = s.hbmByte x)) ∧
      t.cfg = s.cfg ∧ t.live = s.live)) ∧
  (∀ s (a : Fin 4) sl rest j, s.running = true → s.tablesWf = true → (s.amu a.val).slices = sl :: rest →
    s.job? sl.job = some j → j.status = none →
    Completes (.sliceCut (.amu a)) s (fun t => (t.amu a.val).slices = rest ∧ t.hbm = s.hbm ∧
      (∃ k, t.job? sl.job = some k ∧ k.status = some 0x08) ∧ t.cfg = s.cfg ∧ t.keys = s.keys))

/-- OPERATION_END and DIGEST_UNIT_END (R90, R271, R285, R303): the running piece leaves its engine, whose secrets are overwritten; a unit
held whole takes its effect on what the engine held, counts as ended, and the next piece begins; without a running piece nothing
changes. SPLIT_HANDOVER (R90): the state that an engine sends arrives on the one that holds the remainder, which goes on with it. -/
def Obligations.EngineUnitsEnd : Prop :=
  (∀ s pool core e j u, s.running = true → core < coreCount (poolIx pool) →
    let k := coreBase (poolIx pool) + core
    (s.core k).head? = some e → s.job? e.job = some j → j.status = none → e.part = 0 →
    let t := s.modCore k (fun x => { x.start (x.pieces.drop 1) with ram := x.ram.wiped })
    t.unitOpen e = false → t.engUnit j false k e (s.core k).ram = some u →
    exec (.operationEnd pool core) s = .next (u.unitOver e).begins) ∧
  (∀ s (p : Fin 12) e j u, s.running = true → (s.pipe p.val).head? = some e → s.job? e.job = some j → j.status = none →
    e.part = 0 →
    let t := s.modPipe p.val (fun x => { x.start (x.pieces.drop 1) with ram := x.ram.wiped })
    t.unitOpen e = false → t.engUnit j true p.val e (s.pipe p.val).ram = some u →
    exec (.digestUnitEnd p) s = .next (u.unitOver e).begins) ∧
  (∀ s pool core, s.running = true →
    coreCount (poolIx pool) ≤ core ∨ (s.core (coreBase (poolIx pool) + core)).head? = none →
    exec (.operationEnd pool core) s = .next s) ∧
  (∀ s (p : Fin 12), s.running = true → (s.pipe p.val).head? = none → exec (.digestUnitEnd p) s = .next s) ∧
  (∀ x : OpHeld, x.wiped.secret = zeros (min x.share0.length x.share1.length) ∧ x.wiped.rnd = zeros x.rnd.length) ∧
  (∀ s (q : Fin 5) core e h c, s.running = true → s.tablesWf = true → core < (if q.val = 4 then 12 else coreCount q.val) →
    let pipe := q.val == 4
    let k := if q.val = 4 then core else coreBase q.val + core
    (s.eng pipe k).out = some (e, h) →
    ((s.modEng pipe k (fun x => { x with out := none })).engsWith pipe (fun p => p.same e && p.part == 2)).head? = some c →
    Completes (.splitHandover q core) s (fun t => (t.eng pipe k).out = none ∧ (t.eng pipe c).moving = false ∧
      ((s.eng pipe c).head?.any (fun p => p.same e) = true → (t.eng pipe c).ram = h ∧ (t.eng pipe c).begun = true) ∧
      ((s.eng pipe c).head?.any (fun p => p.same e) = false → (t.eng pipe c).got = some (e, h)) ∧
      t.hbm = s.hbm ∧ t.keys = s.keys ∧ t.adm = s.adm)) ∧
  (∀ s (q : Fin 5) core, s.running = true →
    (s.eng (q.val == 4) (if q.val = 4 then core else coreBase q.val + core)).out = none →
    exec (.splitHandover q core) s = .next s)

/-- JOB_END (R26, R72): a job that an event has ended, or whose units are all over, is recorded once with its status; none of its units
runs any longer; one with FENCED_LOST is counted; where its completion queue is enabled, in HBM and in service, its DONE record
stands there with TAG, status and the queue's phase. A job with units left, one that has its record, or none at all: nothing changes. -/
def Obligations.JobEndsOnce : Prop :=
  (∀ s id j st, s.running = true → s.job? id = some j → j.recorded = false → j.held = none → j.part = none →
    j.status = some st ∨
      (j.status = none ∧ j.allOver = true ∧ j.opcode ≠ 0x0900 ∧ j.opcode ≠ 0x0901 ∧ st = j.endStatus) →
    Completes (.jobEnd id) s (fun t =>
      (∀ k, t.job? id = some k → k.recorded = true ∧ k.status = some st) ∧
      (∀ f, ∀ sl ∈ (t.field f).slices, sl.job ≠ id) ∧ (∀ u, ∀ sl ∈ (t.amu u).slices, sl.job ≠ id) ∧
      (∀ e ∈ t.cores ++ t.pipes, ∀ p ∈ e.2.pieces, p.job ≠ id) ∧
      t.adm.lostN = s.adm.lostN + (if st = 0x10 then 1 else 0) ∧
      (s.cqInHbm j.inst j.cq = true → s.hbmc.pcFenced = 0 → mwf hbmDefault s.hbm = true → j.gen = s.genOf j.inst →
        let r := t.hbmPeek (s.cqTailA j.inst j.cq) 32
        rd r 0 8 = j.tag.toNat ∧ rd r 8 8 = j.deadline % 2 ^ 64 ∧ rd r 0x19 1 = st % 256 ∧
        rd r 0x18 1 = 1 + 128 * b2n ((s.inst j.inst).cq j.cq).phase) ∧
      t.cfg = s.cfg ∧ t.live = s.live ∧ t.glob = s.glob ∧ KeysKept s t)) ∧
  (∀ s id, s.running = true →
    (∀ j, s.job? id = some j → j.recorded = true ∨ j.held ≠ none ∨ (j.status = none ∧ j.allOver = false)) →
    exec (.jobEnd id) s = .next s)

/-- HIGH_WATER_DURABLE (R167), NV_COMMIT_DURABLE (R348), SLOT_RELOAD and REMASK_COMPLETE (R343, R344): a slot's oldest mark on its way
becomes its mark, in the partition's copy of the key too; the oldest waiting commit becomes durable with its slots, its counter and
mirror, after every mark on its way, and NV_DONE moves on; a reloaded slot serves again; a failed cell check raises KS_CELL and makes
its slot wait for a reload, and leaves the other slots alone. -/
def Obligations.KeyStoreBecomesDurable : Prop :=
  (∀ s (n : Fin 16384) m rest, s.running = true → (s.slot n.val).markPend = m :: rest → 0 < m →
    Completes (.highWaterDurable n) s (fun t => (t.slot n.val).mark = m ∧ (t.slot n.val).markPend = rest ∧
      (t.slot n.val).secret = (s.slot n.val).secret ∧ (t.slot n.val).ctr = (s.slot n.val).ctr ∧
      ((mget (fun _ => KSlot.empty) s.keys.nv n.val).state = 2 →
        (mget (fun _ => KSlot.empty) s.keys.nv n.val).secret = (s.slot n.val).secret →
        (mget (fun _ => KSlot.empty) t.keys.nv n.val).mark = m) ∧
      t.hbm = s.hbm ∧ t.cfg = s.cfg ∧ t.backup = s.backup)) ∧
  (∀ s (n : Fin 16384), s.running = true → (s.slot n.val).markPend = [] → exec (.highWaterDurable n) s = .next s) ∧
  (∀ s c rest, s.running = true → s.slotsWf = true → mwf (fun _ => KSlot.empty) s.keys.nv = true → s.keys.commits = c :: rest →
    (c.sets.map (·.1)).Nodup →
    Completes .nvCommitDurable s (fun t =>
      t.keys.commits.map (fun d => (d.swn, d.counter)) = rest.map (fun d => (d.swn, d.counter)) ∧
      (∀ e ∈ c.sets, (mget (fun _ => KSlot.empty) t.keys.nv e.1).state = e.2.state ∧
        (mget (fun _ => KSlot.empty) t.keys.nv e.1).secret = e.2.secret ∧
        (mget (fun _ => KSlot.empty) t.keys.nv e.1).owner = e.2.owner) ∧
      (∀ n, (t.slot n).markPend = [] ∧ (t.slot n).secret = (s.slot n).secret ∧ (t.slot n).state = (s.slot n).state ∧
        (t.slot n).ctr = (s.slot n).ctr) ∧
      t.keys.nvDone = (match rest with | [] => s.lastCommitSwn | d :: _ => BitVec.ofNat 64 (d.swn - 1)) ∧
      (∀ v, c.counter = some v → t.keys.nvCounter = v ∧ t.backup.now.ctrMirror = v) ∧
      (c.counter = none → t.keys.nvCounter = s.keys.nvCounter ∧ t.backup = s.backup) ∧ t.hbm = s.hbm ∧ t.cfg = s.cfg)) ∧
  (∀ s, s.running = true → s.keys.commits = [] → exec .nvCommitDurable s = .next s) ∧
  (∀ s (n : Fin 16384), s.running = true → exec (.slotReload n) s =
    .next (if (s.slot n.val).reload then s.modSlot n.val (fun k => { k with reload := false, bad := false }) else s)) ∧
  (∀ s bad, s.running = true → s.keys.remask = true → s.slotsWf = true →
    Completes (.remaskComplete bad) s (fun t => t.keys.remask = false ∧ t.keys.nv = s.keys.nv ∧ t.hbm = s.hbm ∧ t.cfg = s.cfg ∧
      (∀ n ∈ bad, (s.slot n.val).state ≠ 0 → (t.slot n.val).reload = true ∧ ∃ r ∈ t.faults.reports, r.source = 304) ∧
      (∀ n : Fin 16384, n ∉ bad → (s.slot n.val).bad = false → t.slot n.val = s.slot n.val))) ∧
  (∀ s bad, s.running = true → s.keys.remask = false → exec (.remaskComplete bad) s = .next s)

/-! ## Instances, queues and the host -/

/-- The instance commands (R362, R363, R377, R381, Table 16.1): ENABLE makes an ABSENT instance ENABLED with its queues disabled and
its GEN kept; RESET, REMOVE and a VF reset make it RESETTING, raise its GEN by one, drop its descriptors, empty its mailbox and leave
the keys alone; FREEZE and THAW act in their states; NumVFs follows its writes, and a lower NumVFs removes the ENABLED instances above
it: the others stay, since Table 16.1 lists the event for ENABLED alone (R9). -/
def Obligations.InstanceCommandsAct : Prop :=
  (∀ s who (n : Fin 257), s.running = true → s.tablesWf = true → reachesPf who = true → realInst n.val = true →
    (s.inst n.val).state = 0 → n.val ≤ s.hostif.numvfs →
    Completes (.instEnable who n) s (fun t => (t.inst n.val).state = 1 ∧ (t.inst n.val).gen = (s.inst n.val).gen ∧
      (∀ q, q < 8 → t.sqOn n.val q = false ∧ t.cqOn n.val q = false) ∧ t.hbm = s.hbm ∧ t.adm = s.adm)) ∧
  (∀ s c (n : Fin 257), s.running = true → s.tablesWf = true → realInst n.val = true →
    ((∃ who, reachesPf who = true ∧ (c = .instReset who n ∨ c = .instRemove who n)) ∨ c = .instVfReset n) →
    (s.inst n.val).state = 1 ∨ (s.inst n.val).state = 3 ∨ (s.inst n.val).state = 4 →
    Completes c s (fun t => (t.inst n.val).state = 2 ∧ (t.inst n.val).gen = (s.inst n.val).gen + 1 ∧
      t.adm.inlet = s.adm.inlet.filter (fun e => e.inst != n.val) ∧ KeysKept s t ∧ t.life = s.life ∧ (t.inst n.val).mbox = [] ∧
      (∀ q, q < 8 → t.sqOn n.val q = false ∧ t.cqOn n.val q = false) ∧
      ((∃ who, c = .instRemove who n) → (t.inst n.val).absentNext = true))) ∧
  (∀ s who (n : Fin 257), s.running = true → reachesPf who = true → realInst n.val = true → (s.inst n.val).state = 1 →
    exec (.instFreeze who n) s = .next (s.modInst n.val (fun i => { i with state := 3 }))) ∧
  (∀ s who (n : Fin 257), s.running = true → reachesPf who = true → realInst n.val = true → (s.inst n.val).state = 4 →
    exec (.instThaw who n) s = .next (s.modInst n.val (fun i => { i with thawReq := true }))) ∧
  (∀ s (k : Fin 257), s.running = true → s.tablesWf = true → Completes (.numvfsLowered k) s (fun t =>
    t.hostif.numvfs = min s.hostif.numvfs k.val ∧ KeysKept s t ∧ t.life = s.life ∧
    (∀ n, n ≤ k.val ∨ s.hostif.numvfs < n ∨ (s.inst n).state ≠ 1 → t.inst n = s.inst n) ∧
    ∀ n, k.val < n → n ≤ s.hostif.numvfs → n ≤ 256 → (s.inst n).state = 1 →
      (t.inst n).state = 2 ∧ (t.inst n).absentNext = true ∧ (t.inst n).gen = (s.inst n).gen + 1)) ∧
  (∀ s (k : Fin 257), s.up = true →
    exec (.numvfsRaised k) s = .next { s with hostif := { s.hostif with numvfs := max s.hostif.numvfs k.val } })

/-- SQ_TAIL_DOORBELL, CQ_HEAD_DOORBELL and QUEUE_ENABLE (R367, R368), DESCRIPTOR_ARRIVES (R66, R369, R452): a tail that takes in new
entries of an enabled queue stands; a doorbell of a disabled queue changes no index; EN going to 1 starts the queue at its first entry; the
next queue's oldest descriptor, as its memory holds it, joins the inlet, which holds 1,024; in PS3 and PS4 none does. The configuration
word that a doorbell uses is checked as it is used (R47, log entry 73). The premise on a CQ's EN leaves out a change with jobs outstanding,
which Table 25.3 leaves unchecked. -/
def Obligations.QueuesAndFetch : Prop :=
  (∀ s (n : Fin 257) (q : Fin 8) v, s.running = true → s.sqOn n.val q.val = true → v.toNat % 4096 < s.sqSize n.val q.val →
    (let x := (s.inst n.val).sq q.val
     (x.tail + s.sqSize n.val q.val - x.head) % s.sqSize n.val q.val ≤
      (v.toNat % 4096 + s.sqSize n.val q.val - x.head) % s.sqSize n.val q.val) →
    exec (.sqTailDoorbell n q v) s = .next ((s.uses [sqCfgA n.val q.val]).modInst n.val (fun i =>
      i.setSq q.val { (s.inst n.val).sq q.val with tail := v.toNat % 4096 }))) ∧
  (∀ s (n : Fin 257) (q : Fin 8) v, s.running = true → s.sqOn n.val q.val = false →
    exec (.sqTailDoorbell n q v) s = .next (s.uses [sqCfgA n.val q.val])) ∧
  (∀ s (n : Fin 257) (q : Fin 8) v, s.running = true → exec (.cqHeadDoorbell n q v) s =
    .next (let t := s.uses [cqCfgA n.val q.val]
      if s.cqOn n.val q.val then
        t.modInst n.val (fun i => i.setCq q.val { i.cq q.val with head := v.toNat % 65536 }) else t)) ∧
  (∀ s who (n : Fin 257) cq (q : Fin 8) en, s.running = true → s.tablesWf = true → reachesInst who n.val = true →
    mwf (fun _ => Sq.init) (s.inst n.val).sqs = true → mwf (fun _ => Cq.init) (s.inst n.val).cqs = true →
    (cq = true → en = false → s.cqBusy n.val q.val = false) →
    let a := if cq then cqCfgA n.val q.val else sqCfgA n.val q.val
    Completes (.queueEnable who n cq q en) s (fun t =>
      t.cfgW a = ((s.cfgW a &&& 0x7FFFFFFF#32) ||| (if en then 0x80000000#32 else 0#32)) ∧
      (∀ b, b ≠ a → t.cfgW b = s.cfgW b) ∧ t.adm = s.adm ∧ t.hbm = s.hbm ∧ t.keys = s.keys ∧
      (en = true → (s.cfgW a).getLsbD 31 = false →
        (cq = false → (t.inst n.val).sq q.val = Sq.init) ∧
        (cq = true → ((t.inst n.val).cq q.val).head = 0 ∧ ((t.inst n.val).cq q.val).tail = 0 ∧
          ((t.inst n.val).cq q.val).phase = true)))) ∧
  (∀ s i, s.running = true → s.tablesWf = true → s.adm.inlet.length < 1024 → s.power.state < 3 → s.nextSq = some i →
    mwf (fun _ => Sq.init) (s.inst (i / 8)).sqs = true →
    let c := sqCfgA (i / 8) (i % 8)
    let a := s.cfgN (c - 8) + 2 ^ 32 * s.cfgN (c - 4) + 128 * ((s.inst (i / 8)).sq (i % 8)).head
    let d := if bit (s.cfgN c) 16 then s.hostPeek a 128 else s.hbmPeek a 128
    Completes .descriptorArrives s (fun t =>
      t.adm.inlet = s.adm.inlet ++ [{ inst := i / 8, sq := i % 8, gen := s.genOf (i / 8), desc := d }] ∧
      ((t.inst (i / 8)).sq (i % 8)).head = (((s.inst (i / 8)).sq (i % 8)).head + 1) % s.sqSize (i / 8) (i % 8) ∧
      ((t.inst (i / 8)).sq (i % 8)).tail = ((s.inst (i / 8)).sq (i % 8)).tail ∧ t.adm.jobs = s.adm.jobs ∧
      t.hbm = s.hbm ∧ t.cfg = s.cfg)) ∧
  (∀ s, s.running = true → 1024 ≤ s.adm.inlet.length ∨ 3 ≤ s.power.state ∨ s.nextSq = none →
    exec .descriptorArrives s = .next s)

/-- CQ_TIMER, HOST_D0_RETURN and D3HOT_OR_L1_ENTRY (R374, R375): a due signal is sent on the queue's vector, waits as pending while the
vector is masked, or is held while the function or the link is in a low-power state or the link is down; a queue that counts nothing, is
not enabled or has no timer sends nothing; a return to D0 ends the low-power state, sends what was held and releases WAKE_N. -/
def Obligations.SignalsSentOrHeld : Prop :=
  (∀ s (n : Fin 257) (q : Fin 8), s.running = true → bit (s.cfgN (cqCfgA n.val q.val)) 31 = true →
    bit (s.cfgN (cqCfgA n.val q.val)) 10 = true → fld (s.cfgN (cqCfgA n.val q.val + 4)) 16 16 ≠ 0 →
    ((s.inst n.val).cq q.val).count ≠ 0 →
    ((s.inst n.val).low = false → s.hostif.linkLow = false → s.hostif.linkUp = true →
      s.msixMasked n.val (fld (s.cfgN (cqCfgA n.val q.val)) 16 10) = false →
      Completes (.cqTimer n q) s (fun t =>
        t.outbox = s.outbox ++ [.msix n.val (fld (s.cfgN (cqCfgA n.val q.val)) 16 10)] ∧ t.hbm = s.hbm ∧ t.cfg = s.cfg)) ∧
    ((s.inst n.val).low = false → s.hostif.linkLow = false → s.hostif.linkUp = true →
      s.msixMasked n.val (fld (s.cfgN (cqCfgA n.val q.val)) 16 10) = true →
      Completes (.cqTimer n q) s (fun t => t.outbox = s.outbox ∧ t.hbm = s.hbm ∧ t.cfg = s.cfg ∧
        mget (fun _ => false) t.hostif.msixPend (n.val * 1024 + fld (s.cfgN (cqCfgA n.val q.val)) 16 10) = true)) ∧
    ((s.inst n.val).low = true ∨ s.hostif.linkLow = true ∨ s.hostif.linkUp = false →
      Completes (.cqTimer n q) s (fun t => ((t.inst n.val).cq q.val).intPend = true ∧
        (∀ f v, Out.msix f v ∈ t.outbox → Out.msix f v ∈ s.outbox) ∧ t.hbm = s.hbm ∧ t.cfg = s.cfg))) ∧
  (∀ s (n : Fin 257) (q : Fin 8), s.running = true → bit (s.cfgN (cqCfgA n.val q.val)) 31 = false ∨
    bit (s.cfgN (cqCfgA n.val q.val)) 10 = false ∨ fld (s.cfgN (cqCfgA n.val q.val + 4)) 16 16 = 0 ∨
    ((s.inst n.val).cq q.val).count = 0 → exec (.cqTimer n q) s = .next (s.uses (cqWords n.val q.val))) ∧
  (∀ s (n : Fin 257), s.up = true → s.tablesWf = true → Completes (.hostD0Return n) s (fun t =>
    (t.inst n.val).low = false ∧ t.hostif.linkLow = false ∧ (s.hostif.linkUp = true → t.start.wakeLow = false) ∧
    (s.hostif.linkUp = true → mwf (fun _ => Cq.init) (s.inst n.val).cqs = true → ∀ q, q < 8 →
      ((s.inst n.val).cq q).intPend = true → ((t.inst n.val).cq q).intPend = false ∧
        (s.msixMasked n.val (fld (s.cfgN (cqCfgA n.val q)) 16 10) = false →
          Out.msix n.val (fld (s.cfgN (cqCfgA n.val q)) 16 10) ∈ t.outbox)) ∧
    t.cfg = s.cfg ∧ t.hbm = s.hbm ∧ t.adm = s.adm)) ∧
  (∀ s (n : Fin 257), s.up = true →
    exec (.d3hotOrL1Entry n .linkL1) s = .next { s with hostif := { s.hostif with linkLow := true } } ∧
    exec (.d3hotOrL1Entry n .d3hot) s = .next (s.modInst n.val (fun i => { i with low := true })) ∧
    exec (.d3hotOrL1Entry n .d3cold) s = .next (s.modInst n.val (fun i => { i with low := true })))

/-- MBX_UP_PROD and MBX_DN_PROD (R376, Table 17.2): an index within the ring stands and signals the other side on its vector; an up index
makes source 511 + n pending. BAR2_ACCESS (R28, R34): while the swath's allowance lasts a write reaches HBM and a read answers its bytes;
after that, or behind a request that waits, a request is held. -/
def Obligations.MailboxesAndHostWindow : Prop :=
  (∀ s (n : Fin 257) ix, s.running = true → s.tablesWf = true → realInst n.val = true →
    ringBad ix (s.inst n.val).upCons = false →
    let v := fld (s.cfgN (mbxVecA n.val)) 16 10
    Completes (.mbxUpProd n ix) s (fun t => (t.inst n.val).upProd = ix ∧ 511 + n.val ∈ t.intc.pend ∧ t.cfg = s.cfg ∧
      t.hbm = s.hbm ∧ t.adm = s.adm ∧ (s.msixMasked 0 v = false → t.outbox = s.outbox ++ [.msix 0 v]))) ∧
  (∀ s (n : Fin 257) ix, s.running = true → s.tablesWf = true → realInst n.val = true →
    ringBad ix (s.inst n.val).dnCons = false →
    let v := fld (s.cfgN (mbxVecA n.val)) 0 6
    Completes (.mbxDnProd n ix) s (fun t => (t.inst n.val).dnProd = ix ∧ t.intc = s.intc ∧ t.cfg = s.cfg ∧
      t.hbm = s.hbm ∧ t.adm = s.adm ∧ (s.msixMasked n.val v = false → t.outbox = s.outbox ++ [.msix n.val v]))) ∧
  (∀ s a len d, s.running = true → s.hostif.linkUp = true → s.windowFull = false → s.hostif.bar2Held = [] →
    exec (.bar2Access true a len d) s =
      .next ({ s with hostif := { s.hostif with winUsed := s.hostif.winUsed + len } }.hbmWrite a (fitB d len)) ∧
    Completes (.bar2Access false a len d) s (fun t => t.resp = .bytes (s.hbmPeek a len) ∧ t.hbm = s.hbm ∧
      t.hostif.winUsed = s.hostif.winUsed + len ∧ t.cfg = s.cfg)) ∧
  (∀ s w a len d, s.up = true → s.hostif.linkUp = true → s.windowFull = true ∨ s.hostif.bar2Held ≠ [] →
    exec (.bar2Access w a len d) s = .next { s.setResp .held with
      hostif := { s.hostif with bar2Held := s.hostif.bar2Held ++ [(w, a, len, d)] } })

/-- PCIE_LINK_DOWN and PCIE_LINK_UP (Table 22.2, R85, R412), DMA_ERROR_COMPLETION (R517): a link that is down raises LINK_DOWN, whose cause
stays until it is up again, clears configuration state (NumVFs, the VFs' vector tables and pending bits, waiting BAR2 requests) and leaves
every instance, job and key as it is; once it is up no record waits any longer; the next job DMA request to named bytes ends in an error:
a read of them gives 0xFF. -/
def Obligations.LinkKeepsDeviceState : Prop :=
  (∀ s, s.up = true → Completes .pcieLinkDown s (fun t => t.hostif.linkUp = false ∧ t.hostif.numvfs = 0 ∧
    t.hostif.vfMsix = [] ∧ t.hostif.msixPend = [] ∧ t.hostif.bar2Held = [] ∧
    t.faults.live.getLsbD 473 = true ∧ (∃ r ∈ t.faults.reports, r.source = 473) ∧ t.insts = s.insts ∧ t.adm = s.adm ∧
    t.keys = s.keys ∧ t.hbm = s.hbm ∧ t.cfg = s.cfg ∧ t.live = s.live)) ∧
  (∀ s, s.up = true → Completes .pcieLinkUp s (fun t => t.hostif.linkUp = true ∧ t.hostif.latePost = [] ∧
    t.faults.live.getLsbD 473 = false ∧ t.adm = s.adm ∧ t.keys = s.keys ∧ t.cfg = s.cfg)) ∧
  (∀ s w a len, s.up = true → exec (.dmaErrorCompletion w a len) s = .next { s with hostif := { s.hostif with
    dmaErr := s.hostif.dmaErr ++ [(a % 2 ^ 64 + b2n w * 2 ^ 64, len)] } }) ∧
  (∀ s a len, s.up = true → s.hostif.linkUp = true → a < 2 ^ 64 → 0 < len → Completes (.dmaErrorCompletion false a len) s (fun t =>
    (t.hostRead a len).1 = List.replicate len 0xFF#8 ∧ ∃ r ∈ (t.hostRead a len).2.faults.reports, r.source = 472))

/-! ## Interrupts and tasks -/

/-- INTC_EVENT (R385, R386), SWI_SET_C and SWI_SET_M (R387), TIMER_WRITE and TIMER_EXPIRY (R396): an event makes its source pending and
changes no active source, a reserved source never becomes pending; the software interrupts are for the PF and the cores of
their plane; a running timer raises source 864 + t. -/
def Obligations.InterruptsPend : Prop :=
  (∀ s (n : Fin 1024), s.up = true → intcReserved n.val = false → Completes (.intcEvent n) s (fun t =>
    n.val ∈ t.intc.pend ∧ (∀ m ∈ s.intc.pend, m ∈ t.intc.pend) ∧ t.intc.active = s.intc.active ∧ t.cfg = s.cfg ∧ t.hbm = s.hbm)) ∧
  (∀ s (n : Fin 1024), s.up = true → intcReserved n.val = true → exec (.intcEvent n) s = .next s) ∧
  (∀ s (k : Fin 32) who, s.running = true →
    exec (.swiSetC who k) s =
      (match who with | .pf => .next (s.pendSrc (960 + k.val)) | .cc _ => .next (s.pendSrc (960 + k.val)) | _ => .next s) ∧
    exec (.swiSetM who k) s =
      (match who with | .pf => .next (s.pendSrc (992 + k.val)) | .cm _ => .next (s.pendSrc (992 + k.val)) | _ => .next s)) ∧
  (∀ (s : State) (k : Fin 32), 960 + k.val ∈ (s.pendSrc (960 + k.val)).intc.pend ∧ 992 + k.val ∈ (s.pendSrc (992 + k.val)).intc.pend) ∧
  (∀ s (t : Fin 16) (n : Word), s.running = true → 0 < n.toNat → Completes (.timerWrite t n) s (fun u =>
    cget u.intc.timers t.val = n.toNat ∧ u.intc.pend = s.intc.pend ∧ u.cfg = s.cfg ∧ u.hbm = s.hbm)) ∧
  (∀ s (t : Fin 16), s.up = true → cget s.intc.timers t.val ≠ 0 → Completes (.timerExpiry t) s (fun u =>
    864 + t.val ∈ u.intc.pend ∧ u.cfg = s.cfg ∧ u.hbm = s.hbm)) ∧
  (∀ s (t : Fin 16), s.up = true → cget s.intc.timers t.val = 0 → exec (.timerExpiry t) s = .next s)

/-- CLAIM (R389): the highest-PRIO eligible source, ties to the lower number, becomes ACTIVE and is pushed with its PRIO; without one
the answer is 0; another requester reads 0 and changes nothing, and its COMPLETE is discarded. -/
def Obligations.ClaimTakesHighestPriority : Prop :=
  (∀ (s : State) t n, s.best t = some n → s.eligible n t = true ∧
    ∀ m, s.eligible m t = true → s.srcPrio m < s.srcPrio n ∨ (s.srcPrio m = s.srcPrio n ∧ n ≤ m)) ∧
  (∀ (s : State) t, s.best t = none ↔ ∀ n, s.eligible n t = false) ∧
  (∀ s who (t : Fin 16) n, s.up = true → isCore who t.val = true → s.best t.val = some n →
    Completes (.claim who t) s (fun u => u.resp = .word (BitVec.ofNat 32 (2 ^ 31 + s.srcPrio n * 2 ^ 16 + n)) ∧
      cget u.intc.active n = t.val + 1 ∧ u.stack t.val = (n, s.srcPrio n) :: s.stack t.val ∧ n ∉ u.intc.pend ∧
      u.cfg = s.cfg ∧ u.hbm = s.hbm)) ∧
  (∀ s who (t : Fin 16), s.up = true → isCore who t.val = true → s.best t.val = none →
    exec (.claim who t) s = .next (s.setResp (.word 0))) ∧
  (∀ s who (t : Fin 16), s.up = true → isCore who t.val = false → exec (.claim who t) s = .next (s.setResp (.word 0))) ∧
  (∀ s who (t : Fin 16) src, isCore who t.val = false → exec (.complete who t src) s = .next s)

/-- COMPLETE (R389, R391): the top entry leaves the target's stack whatever number is written and its source is no longer ACTIVE, while
what is pending stays pending; a write by another requester is discarded. INTC_REASSIGN (R388): a pending source is assigned to
a target at which it is eligible, and to none only when no target is. -/
def Obligations.CompletePopsTheStack : Prop :=
  (∀ s who (t : Fin 16) src n p rest, s.running = true → isCore who t.val = true → s.stack t.val = (n, p) :: rest →
    mwf (fun _ => []) s.intc.stk = true → mwf (fun _ => 0) s.intc.active = true →
    Completes (.complete who t src) s (fun u => u.stack t.val = rest ∧ cget u.intc.active n = 0 ∧
      u.intc.pend = s.intc.pend ∧ u.cfg = s.cfg ∧ u.hbm = s.hbm)) ∧
  (∀ s who (t : Fin 16) src, s.running = true → isCore who t.val = false → exec (.complete who t src) s = .next s) ∧
  (∀ s (n : Fin 1024), s.up = true → mwf (fun _ => 0) s.intc.assigned = true → Completes (.intcReassign n) s (fun u =>
    (cget u.intc.assigned n.val ≠ 0 → s.eligible n.val (cget u.intc.assigned n.val - 1) = true) ∧
    (cget u.intc.assigned n.val = 0 → ∀ k, k < 16 → s.eligible n.val k = false) ∧
    u.intc.pend = s.intc.pend ∧ u.intc.active = s.intc.active ∧ u.cfg = s.cfg ∧ u.hbm = s.hbm))

/-- TASK_ARM, TASK_SIGNAL and TASK_CANCEL (R403, R404): a write by a core or the PF joins the inlet in arrival order; at a full inlet, or
behind a producer that waits, its producer stalls; a VF's write is discarded. -/
def Obligations.TaskWritesJoinTheInlet : Prop :=
  ∀ s c who e, s.running = true →
    ((∃ k n, c = .taskArm who k n ∧ e = .arm k.toNat n.toNat) ∨ (∃ k, c = .taskSignal who k ∧ e = .signal k.toNat) ∨
      (∃ k, c = .taskCancel who k ∧ e = .cancel k.toNat)) →
    (mayTask who = true → s.tasks.inlet.length < 256 → s.tasks.stalled = [] →
      exec c s = .next { s with tasks := { s.tasks with inlet := s.tasks.inlet ++ [e] } }) ∧
    (mayTask who = true → 256 ≤ s.tasks.inlet.length ∨ s.tasks.stalled ≠ [] →
      exec c s = .next { s with tasks := { s.tasks with
        stalled := s.tasks.stalled ++ [(producerIx who, e)], stalls := satInc 32 s.tasks.stalls } }) ∧
    (mayTask who = false → exec c s = .next s)

/-- TASK_INLET_EVENT (R398, R403): the oldest event leaves the inlet; a signal lowers the count of a WAITING task, and at its last count
the task becomes READY at the end of its list. TASK_OFFER (R400): the offer goes to the highest priority that an open core can
run, among the first 16 entries. OFFER_TIMEOUT: the task returns to the head of its list and is counted. -/
def Obligations.TaskScheduling : Prop :=
  (∀ s k es, s.running = true → s.tasks.succ = [] → s.tasks.admBuf = [] → s.tasks.stalled = [] →
    s.tasks.inlet = .signal k :: es → (s.td k).state = 1 →
    (1 < (s.td k).count → Completes .taskInletEvent s (fun t => t.td k = { s.td k with count := (s.td k).count - 1 } ∧
      t.tasks.inlet = es ∧ t.tasks.events = s.tasks.events + 1 ∧ t.cfg = s.cfg ∧ t.hbm = s.hbm)) ∧
    ((s.td k).count = 1 → (s.readyList (s.tdPrio k)).length < 1024 →
      Completes .taskInletEvent s (fun t => (t.td k).state = 2 ∧ (t.td k).count = 0 ∧
        t.readyList (s.tdPrio k) = s.readyList (s.tdPrio k) ++ [k] ∧ t.tasks.inlet = es ∧ t.cfg = s.cfg ∧ t.hbm = s.hbm))) ∧
  (∀ (s : State) p t c, s.bestOffer 8 = some (p, t, c) → s.openTo c p = true ∧ bit (s.tdTarget t) c = true ∧
    t ∈ (s.readyList p).take 16 ∧ ∀ q, p < q → q < 8 → s.pick q = none) ∧
  (∀ s p t c, s.running = true → (∀ i, i < 12 → s.offer? i = none) → s.bestOffer 8 = some (p, t, c) →
    Completes .taskOffer s (fun u => u.offer? c = some (t, p) ∧ 768 + 8 * c + p ∈ u.intc.pend ∧ u.cfg = s.cfg ∧ u.hbm = s.hbm)) ∧
  (∀ s (c : Fin 12) k p, s.running = true → s.offer? c.val = some (k, p) → mwf (fun _ => (0, 0)) s.tasks.offers = true →
    Completes (.offerTimeout c) s (fun t => t.offer? c.val = none ∧
      t.readyList (s.tdPrio k) = k :: s.readyList (s.tdPrio k) ∧ t.tasks.offerTo = satInc 32 s.tasks.offerTo ∧
      768 + 8 * c.val + p ∉ t.intc.pend ∧ t.cfg = s.cfg ∧ t.hbm = s.hbm)) ∧
  (∀ s (c : Fin 12), s.running = true → s.offer? c.val = none → exec (.offerTimeout c) s = .next s)

/-! ## Faults -/

/-- FAULT_GROUP_SAMPLED (R410–R413): a sampled event leaves the waiting ones, sets its sticky bit, counts, and writes its record with the
reactions of the group while the queue has room, else counts as dropped; the group waits with its reactions in the order of Table 18.2.
The check of FQ_CONS, which the record uses, may add a report (R47, log entry 73). In Fallow no group takes a reaction (R422). -/
def Obligations.SampledEventIsRecorded : Prop :=
  (∀ s (off : BitVec 22) r rs, s.up = true → s.faults.fallow = false → s.faults.reports = r :: rs →
    mwf (fun _ => zeros 32) s.faults.fq = true →
    let n := r.source.val
    let mask := s.maskOf n
    let full := (s.faults.prod.toNat + 512 - s.cfgN 0xB00014 % 512) % 512 = 256
    Completes (.faultGroupSampled off 1 []) s (fun t =>
      (∃ l, t.faults.reports = rs ++ l ∧ (0xB00014 ∉ s.parBad → l = [])) ∧
      t.faults.sticky = s.faults.sticky ||| BitVec.ofNat 512 (2 ^ n) ∧
      cget t.faults.count n = satInc 16 (cget s.faults.count n) ∧
      (¬ full → t.faults.prod = s.faults.prod + 1 ∧ t.faults.dropped = s.faults.dropped ∧
        mget (fun _ => zeros 32) t.faults.fq (s.faults.prod.toNat % 256) = faultRecord s.swnN off.toNat r
          (match faultKind n with | some k => k.cls | none => 0) (!s.faults.sticky.getLsbD n) mask) ∧
      (full → t.faults.prod = s.faults.prod ∧ t.faults.dropped = satInc 32 s.faults.dropped) ∧
      t.faults.groups = s.faults.groups ++ (if mask = 0 then [] else [{ reports := [r], todo := reactions mask }]) ∧
      t.cfg = s.cfg ∧ t.hbm = s.hbm ∧ t.keys = s.keys)) ∧
  (∀ s off n, s.up = true → s.faults.fallow = true → Completes (.faultGroupSampled off n []) s (fun t =>
    t.faults.groups = s.faults.groups ∧ (∃ l, t.faults.reports = s.faults.reports.drop n ++ l) ∧ t.cfg = s.cfg ∧ t.hbm = s.hbm)) ∧
  (∀ mask, (reactions mask).Sublist [4, 5, 2, 0, 1, 3])

/-- The reactions (R410, R414, R415, Table 18.2): each is taken when it is the next one of the group at the front, and not before. PIN
drives FAULT_N low; FENCE takes the units of the selecting sources out of service; INT makes their INTC sources pending; NMI
reaches CM0 and pushes nothing; BLOCK_RESET of a target empties its stack; CHIP_RESET copies the sticky bits to CAUSE and resets. -/
def Obligations.ReactionsTakenInOrder : Prop :=
  (∀ s, s.nextGroup 4 = none ∨ s.faults.fallow = true → exec .reactionPin s = .next s) ∧
  (∀ s, s.nextGroup 5 = none ∨ s.faults.fallow = true → exec .reactionFence s = .next s) ∧
  (∀ s, s.nextGroup 2 = none ∨ s.faults.fallow = true → exec .reactionBlockReset s = .next s) ∧
  (∀ s, s.nextGroup 0 = none ∨ s.faults.fallow = true → exec .reactionInt s = .next s) ∧
  (∀ s, s.nextGroup 1 = none ∨ s.faults.fallow = true → exec .reactionNmi s = .next s) ∧
  (∀ s, s.nextGroup 3 = none ∨ s.faults.fallow = true → exec .reactionChipReset s = .next s) ∧
  (∀ s g, s.running = true → s.nextGroup 4 = some g →
    exec .reactionPin s = .next ((s.taken 4).modFaults (fun f => { f with pinLow := true, pulse := true }))) ∧
  (∀ s g, s.running = true → s.tablesWf = true → s.nextGroup 5 = some g → Completes .reactionFence s (fun t =>
    (∀ f, f < 16 → (∃ x ∈ s.chosen g 5, x.source.val = 75 + 6 * f) → (t.field f).fenced = true ∧
      ((s.field f).fenced = false → (t.field f).slices = [])) ∧
    (∀ u, u < 4 → (∃ x ∈ s.chosen g 5, x.source.val = 178 + 4 * u) → (t.amu u).fenced = true) ∧
    (∀ c, c < 16 → (∃ x ∈ s.chosen g 5, x.source.val = 193 + 2 * c) → (t.core c).fenced = true) ∧
    (∀ i, i < 128 → (∃ x ∈ s.chosen g 5, x.source.val = 308 + i) → t.hbmc.pcFenced.getLsbD i = true) ∧
    (∀ k, k < 4 → (∃ x ∈ s.chosen g 5, x.source.val = 445 + k) → t.commons.fenced.getLsbD k = true) ∧
    t.cfg = s.cfg ∧ t.live = s.live ∧ t.faults.sticky = s.faults.sticky)) ∧
  (∀ s g k x, s.running = true → s.nextGroup 2 = some g → k < 16 → g.reports = [x] → x.source.val = 452 + k →
    bit (s.maskOf (452 + k)) 2 = true → mwf (fun _ => []) s.intc.stk = true →
    Completes .reactionBlockReset s (fun t => t.stack k = [] ∧ t.faults.sticky.getLsbD (452 + k) = false ∧
      t.cfg = s.cfg ∧ t.hbm = s.hbm)) ∧
  (∀ s g, s.running = true → s.nextGroup 0 = some g → Completes .reactionInt s (fun t =>
    (∀ x ∈ s.chosen g 0, x.source.val ∈ t.intc.pend) ∧ (∀ n ∈ s.intc.pend, n ∈ t.intc.pend) ∧ t.cfg = s.cfg ∧ t.hbm = s.hbm)) ∧
  (∀ s g, s.running = true → s.nextGroup 1 = some g → Completes .reactionNmi s (fun t =>
    t.intc = { s.intc with nmi := s.intc.nmi ++ (s.chosen g 1).map (fun x => x.source.val) } ∧ t.cfg = s.cfg ∧ t.hbm = s.hbm)) ∧
  (∀ s g, s.running = true → s.nextGroup 3 = some g → Completes .reactionChipReset s (fun t =>
    t.faults.cause = s.faults.sticky ∧ t.faults.causeSwn = s.glob.swn ∧ t.faults.sticky = 0 ∧ t.faults.groups = [] ∧
    t.start.up = false ∧ t.start.boot = s.start.boot + 1))

/-- FAULT_N (R415): it returns high when its pulse has run while HOLD is 0, stays low while HOLD is 1, and a write of HOLD = 0 after the
pulse releases it; a write of HOLD = 1 never drives it low by itself. -/
def Obligations.FaultPinFollowsHold : Prop :=
  (∀ s, s.running = true → s.faults.pulse = true → Completes .faultPinTimer s (fun t =>
    t.faults.pulse = false ∧ t.faults.pinLow = bit (s.cfgN 0xB00008) 0 ∧ t.faults.sticky = s.faults.sticky ∧ t.cfg = s.cfg)) ∧
  (∀ s who hold, s.running = true → s.tablesWf = true → reachesPf who = true →
    Completes (.faultPinHoldWrite who hold) s (fun t => bit (t.cfgN 0xB00008) 0 = hold ∧
      t.faults.pinLow = (if hold || s.faults.pulse then s.faults.pinLow else false) ∧ t.faults.pulse = s.faults.pulse ∧
      t.hbm = s.hbm ∧ t.live = s.live)) ∧
  (∀ s who hold, s.running = true → reachesPf who = false → exec (.faultPinHoldWrite who hold) s = .next s)

/-- FALLOW_ENTRY (R414, R419–R421, Table 18.5): DEV_STATE reads 2, FAULT_N is low, no reaction or descriptor waits any longer, every
operation is gone, the key store's working array is zeroed, CC0–CC11 are halted, every open job has left with its record or
without, the sticky bits stand in CAUSE, and FALLOW_DONE reads 1; life cycle and tamper fuses stay. -/
def Obligations.FallowEntryStopsTheDevice : Prop :=
  ∀ s cause, s.running = true →
    (cause = .logic ∨ ∃ n, cause = .guard n ∧ 45 ≤ n.val ∧ n.val ≤ 47 ∧ s.faults.sticky.getLsbD n.val = true) →
    Completes (.fallowEntry cause) s (fun t => t.faults.fallow = true ∧ t.faults.fallowDone = true ∧ t.glob.devState = 2 ∧
      t.faults.pinLow = true ∧ t.faults.groups = [] ∧ t.adm.inlet = [] ∧ t.adm.jobs = [] ∧ t.keys.slots = [] ∧
      t.faults.cause = s.faults.sticky ∧ t.faults.causeSwn = s.glob.swn ∧ (∀ c, c < 12 → c ∈ t.ctrl.halted) ∧
      (∀ f, (t.field f).slices = [] ∧ (t.field f).loading = none) ∧ (∀ u, (t.amu u).slices = [] ∧ (t.amu u).pass = none) ∧
      (∀ e ∈ t.cores ++ t.pipes, e.2.pieces = []) ∧ t.life = s.life ∧ t.tamper = s.tamper ∧ t.cfg = s.cfg)

/-- REGISTER_VOTE (R45, R46) and PARITY_SWEEP (R47, R48): a minority copy takes the majority's value and VOTE_COUNT and REG_VOTE tell it;
without a majority the safe value of Table 2.4 stands and REG_VOTE_LOST's cause is present; agreeing copies tell nothing. A word
that no longer fits its parity keeps its stored value and raises REG_PARITY. -/
def Obligations.VotesAndParity : Prop :=
  (∀ s a r i j w x, s.up = true → s.tablesWf = true → regAt a = some (r, i, j) → r.guard = .triple →
    w &&& BitVec.ofNat 32 r.known = w → x &&& BitVec.ofNat 32 r.known = x → w ≠ x →
    Completes (.registerVote a (BitVec.ofNat 32 r.known) false w x w) s (fun t => t.cfgW a = w ∧
      t.glob.voteCount = satInc 16 s.glob.voteCount ∧ t.live = s.live ∧ (∀ b, b ≠ a → t.cfgW b = s.cfgW b) ∧
      (∃ e ∈ t.faults.reports, e.source.val = 3 * blockOf a ∧ e.detail0 = BitVec.ofNat 64 a) ∧ t.hbm = s.hbm)) ∧
  (∀ s a r i j w x y, s.up = true → s.tablesWf = true → regAt a = some (r, i, j) → r.guard = .triple →
    w &&& BitVec.ofNat 32 r.known = w → x &&& BitVec.ofNat 32 r.known = x → y &&& BitVec.ofNat 32 r.known = y →
    w ≠ x → x ≠ y → w ≠ y →
    Completes (.registerVote a (BitVec.ofNat 32 r.known) false w x y) s (fun t =>
      t.cfgW a = BitVec.ofNat 32 (s.safeValue r i r.known) ∧ t.live = s.live ∧ (a, false) ∈ t.voteBad ∧
      t.faults.live.getLsbD (3 * blockOf a + 1) = true ∧
      (∃ e ∈ t.faults.reports, e.source.val = 3 * blockOf a + 1) ∧ t.hbm = s.hbm)) ∧
  (∀ s a mask live w, s.up = true → exec (.registerVote a mask live w w w) s = .next s) ∧
  (∀ s, s.up = true → Completes (.paritySweep []) s (fun t => t.cfg = s.cfg ∧ t.parBad = s.parBad ∧ t.hbm = s.hbm ∧
    ∀ a ∈ s.parBad, t.faults.live.getLsbD (3 * blockOf a + 2) = true ∧
      ∃ e ∈ t.faults.reports, e.source.val = 3 * blockOf a + 2 ∧ e.detail0 = BitVec.ofNat 64 a)) ∧
  (∀ s a k r i j, s.up = true → s.tablesWf = true → regAt a = some (r, i, j) → r.guard = .parity → bit r.rw k = true →
    k < 32 → s.parBad = [] → Completes (.paritySweep [.word a (Fin.ofNat 32 k)]) s (fun t => t.parBad = [a] ∧
      t.cfgW a = s.cfgW a ^^^ BitVec.ofNat 32 (2 ^ k) ∧ t.faults.live.getLsbD (3 * blockOf a + 2) = true ∧ t.hbm = s.hbm))

/-! ## Registers -/

/-- BUS_TIMEOUT (R21): the access answers zero and GLOBAL.STATUS tells it. COUNTER_LOW_READ (R31, R39): a 32-bit read of the low half
answers it and keeps the high half of that moment for the same requester's next read of the high half; a 64-bit read answers both halves at
once; a read of another size or alignment answers bytes that nothing constrains (log entry 25). -/
def Obligations.BusReads : Prop :=
  (∀ s who, s.up = true →
    exec (.busTimeout who) s = .next ({ s with glob := { s.glob with busTimeout := true } }.setResp (.word 0))) ∧
  (∀ s who a r i, s.up = true → mwf (fun _ => 0#32) s.hold = true → a % 4 = 0 → Loc.of who a = .reg a →
    Loc.of who (a + 4) = .reg (a + 4) → regAt a = some (r, i, 0) → regAt (a + 4) = some (r, i, 1) → r.wide = true →
    blockOf (a + 4) = blockOf a →
    Completes (.counterLowRead who ⟨a, 4⟩) s (fun t => t.resp = .word (s.readReg who a) ∧ t.cfg = s.cfg ∧ t.hbm = s.hbm ∧
      ∀ u, u.up = true → u.hold = t.hold →
        exec (.counterLowRead who ⟨a + 4, 4⟩) u = .next (u.setResp (.word (s.readReg who (a + 4)))))) ∧
  (∀ s who a r i, s.up = true → a % 8 = 0 → Loc.of who a = .reg a → Loc.of who (a + 4) = .reg (a + 4) →
    regAt a = some (r, i, 0) → regAt (a + 4) = some (r, i, 1) → r.wide = true →
    Completes (.counterLowRead who ⟨a, 8⟩) s (fun t => t.resp = .dword (s.readReg who (a + 4) ++ s.readReg who a) ∧ t.cfg = s.cfg ∧
      t.hbm = s.hbm ∧ t.hold = s.hold)) ∧
  (∀ s who a size, s.up = true → accessOk a size = false → Completes (.counterLowRead who ⟨a, size⟩) s (fun t =>
    ∃ w, t.resp = .dword w))

/-- REGISTER_WRITE (R22, R40, R47): a write to a shadowed register of the PF map changes the writable bits of its shadow, restores its
parity, and leaves the live word and every other register as they are until the commit step; SEALER, whose reset value follows
MEMBER.INDEX, is apart (log entry 7), and so is a value that Table 25.3 leaves unchecked. CFG_HOLD_WRITE (R41, R43) acts at once, and its
return to 0 starts a release. A write of wrong size or alignment through a VF's BAR0 leaves free what belongs to its instance's queues
(scope Q of Table 25.1, log entry 25) and nothing else: keys, live words, life cycle, tamper monitors, backup domain and fields stay. -/
def Obligations.RegisterWritesReachTheShadow : Prop :=
  (∀ s a r i j (w : Word), s.running = true → s.tablesWf = true → a % 4 = 0 → Loc.of .pf a = .reg a → regAt a = some (r, i, j) →
    r.shadow = true → a ≠ 0x800018 → s.writeUnchecked .pf a w = none →
    Completes (.registerWrite .pf a 4 (w.setWidth 64)) s (fun t =>
      t.cfgW a = ((s.cfgW a &&& ~~~BitVec.ofNat 32 r.rw) ||| (w &&& BitVec.ofNat 32 r.rw)) ∧ t.live = s.live ∧
      (∀ b, b ≠ a → t.cfgW b = s.cfgW b) ∧ a ∉ t.parBad ∧ t.hbm = s.hbm ∧ t.adm = s.adm ∧ t.keys = s.keys)) ∧
  (∀ s who hold, s.running = true → s.tablesWf = true → reachesPf who = true →
    Completes (.cfgHoldWrite who hold) s (fun t => bit (t.cfgN 0x40) 0 = hold ∧ t.live = s.live ∧ t.hbm = s.hbm ∧
      (bit (s.cfgN 0x40) 0 = true → hold = false → t.glob.relPend = true))) ∧
  (∀ s (n : Fin 257) a size v, s.running = true → accessOk a size = false →
    Completes (.registerWrite (.vf n) a size v) s (fun t => t.keys = s.keys ∧ t.live = s.live ∧ t.life = s.life ∧
      t.tamper = s.tamper ∧ t.backup = s.backup ∧ t.fields = s.fields ∧ t.glob = s.glob ∧ t.adm = s.adm))

/-- SLOW_WRITE_APPLY, RTC_LOAD, RTC_ALARM, RISING_SCLK_EDGE, TAMPER_ENABLE_WRITE and VBAT_LOW_CHANGE (R50, R51, R431, R433, R434, R436): a
waiting write of a backup register takes effect and source 902 becomes pending; LOAD uses RTC_SET as the same edge leaves it; the
RTC counts and the mirrors follow; the alarm makes source 903 pending, and only while the RTC equals it. In Closed a tamper enable can be set but not cleared; a
fused source stays off. -/
def Obligations.BackupRegistersWork : Prop :=
  (∀ s a w, s.backup.aux = true ∨ s.backup.vbat = true → s.tablesWf = true → s.backup.slow = [(a, w)] → a ≠ 0xBC0040 →
    Completes .slowWriteApply s (fun t => t.backup.slow = [] ∧ t.cfgW a = w ∧ 902 ∈ t.intc.pend ∧ t.backup.now = s.backup.now ∧
      t.hbm = s.hbm ∧ t.keys = s.keys)) ∧
  (∀ s lo hi, s.backup.aux = true ∨ s.backup.vbat = true → s.tablesWf = true →
    s.backup.slow = [(0xBC0038, lo), (0xBC003C, hi), (0xBC0040, 1#32)] →
    Completes .slowWriteApply s (fun t => t.backup.now.rtc = BitVec.ofNat 64 (lo.toNat + 2 ^ 32 * hi.toNat) ∧
      t.backup.slow = [] ∧ 902 ∈ t.intc.pend)) ∧
  (∀ s who, s.running = true → reachesPf who = true → exec (.rtcLoad who) s = .next (s.slowWrite 0xBC0040 1#32)) ∧
  (∀ s, s.up = true → s.backup.now.rtc.toNat = s.cfgN 0xBC0048 + 2 ^ 32 * s.cfgN 0xBC004C →
    exec .rtcAlarm s = .next ((s.uses [0xBC0048, 0xBC004C]).pendSrc 903)) ∧
  (∀ s, s.up = true → s.backup.now.rtc.toNat ≠ s.cfgN 0xBC0048 + 2 ^ 32 * s.cfgN 0xBC004C →
    exec .rtcAlarm s = .next (s.uses [0xBC0048, 0xBC004C])) ∧
  (∀ s, s.backup.aux = true ∨ s.backup.vbat = true → Completes .risingSclkEdge s (fun t =>
    t.backup.now = { s.backup.now with rtc := s.backup.now.rtc + 1 } ∧
    (s.start.up = true → t.backup.mirror = t.backup.now) ∧ (s.start.up = false → t.backup.mirror = s.backup.mirror) ∧
    t.cfg = s.cfg ∧ t.hbm = s.hbm ∧ t.keys = s.keys)) ∧
  (∀ s mv, Completes (.vbatLowChange mv) s (fun t => t.backup.now.vbatLow = decide (mv.toNat < 2600) ∧
    t.backup.now.rtc = s.backup.now.rtc ∧ t.cfg = s.cfg ∧ t.hbm = s.hbm)) ∧
  (∀ s who (v : BitVec 16), s.running = true → s.tablesWf = true → reachesPf who = true →
    Completes (.tamperEnableWrite who false v true) s (fun t => t.live = s.live ∧ t.hbm = s.hbm ∧ t.life = s.life ∧
      ∀ i, i < 11 → (s.tamper.eff.getLsbD i = true → (t.cfgW 0xB80004).getLsbD i = false) ∧
        (s.tamper.eff.getLsbD i = false → (t.cfgW 0xB80004).getLsbD i =
          (v.getLsbD i || (s.life.closed && (s.cfgW 0xB80004).getLsbD i))))) ∧
  (∀ s who b v, s.running = true → reachesPf who = true →
    exec (.tamperEnableWrite who b v false) s = .next (s.mismatch 1))

/-! ## Resets, starts and the life cycle -/

/-- RESET_REQ and PERST_ASSERT (R468, Table 22.2): a write with the key and KIND 1 by the PF or a management core, and PERST_N low, take a
chip reset; a wrong key or a VF's write does nothing; PERST_N low holds the device in reset. -/
def Obligations.ChipResetClears : Prop :=
  (∀ s who, s.up = true → (who = .pf ∨ ∃ c, who = .cm c) → Completes (.resetReq who 0x5EED 1) s (fun t =>
    AfterChipReset s t ∧ t.start.cause = causeRequest ∧ t.faults.cause = s.faults.cause)) ∧
  (∀ s who k n, k ≠ 0x5EED#16 ∨ n ≠ 1#2 ∨ (∃ m, who = .vf m) → exec (.resetReq who k n) s = .next s) ∧
  (∀ s, s.start.up = true → s.power.ps4Ready = false → Completes .perstAssert s (fun t =>
    AfterChipReset s t ∧ t.start.cause = causePerst ∧ t.start.perstLow = true)) ∧
  (∀ s, s.start.up = false → exec .perstAssert s = .next { s with start := { s.start with perstLow := true } })

/-- The start (R460–R464, R467, R443, R347, R435): START_EDGE under its four conditions releases the device at CCLK_STEP 24 and 900 mV with
the blown tamper fuses in force; fuses that cannot be read, two bad banks, or fewer than 64 channels stop it at their phase with
FAULT_N low; without a valid journal record the device is Closed; the key store comes up with its partition under the device root
it was made for, or empty with ROOT_LOST and a new root from 32 bytes of the seed queue; a stopped start, and no other, accepts a firmware
update for bank A. -/
def Obligations.StartSequence : Prop :=
  (∀ s env, s.start.up = false → s.backup.held = false → s.start.thermLow = false → env.railsOk = true →
    env.perstHigh = true → env.refclkRuns = true →
    (env.fusesLost = false → env.journalA = false → env.journalB = false → Completes (.startEdge env) s (fun t =>
      t.start.up = true ∧ t.start.phase = 1 ∧ t.glob.timer = true ∧ t.glob.cclkStep = 24 ∧ t.power.vddW = 900 ∧
      t.power.vddE = 900 ∧ t.tamper.eff = s.tamper.blown ∧ t.life.closed = true ∧ t.life.lost = true ∧ t.life.mark = 0 ∧
      t.life.seq = 1 ∧ t.faults.reports = s.faults.reports ∧ t.hbm = s.hbm)) ∧
    (env.fusesLost = true → Completes (.startEdge env) s (fun t => t.start.phase = 15 ∧ t.start.stopPhase = 1 ∧
      t.start.fuseLost = true ∧ t.faults.pinLow = true))) ∧
  (∀ s env, env.railsOk = false ∨ env.perstHigh = false ∨ env.refclkRuns = false ∨ s.backup.held = true →
    exec (.startEdge env) s = .next s) ∧
  (∀ s a b imgs ks, s.up = true → s.start.phase = 1 →
    (a = false → b = false → Completes (.firmwareVerify a b imgs ks) s (fun t =>
      t.start.phase = 15 ∧ t.start.stopPhase = 2 ∧ t.faults.pinLow = true)) ∧
    (s.start.active = false → a = true → Completes (.firmwareVerify a b imgs ks) s (fun t =>
      t.start.phase = 2 ∧ t.start.bank = false ∧ t.start.fwOk = true)) ∧
    (s.start.active = false → a = false → b = true → Completes (.firmwareVerify a b imgs ks) s (fun t =>
      t.start.phase = 2 ∧ t.start.bank = true ∧ t.start.fwOk = true))) ∧
  (∀ s failed, s.up = true → s.start.trained = false → Completes (.hbmTrainingEnd failed) s (fun t =>
    (∀ i ∈ failed, t.hbmc.pcFenced.getLsbD i.val = true) ∧
    (t.pcCount < 64 → t.start.phase = 15 ∧ t.start.stopPhase = 4 ∧ t.faults.pinLow = true) ∧
    (64 ≤ t.pcCount → t.start.trained = true ∧ t.start.phase = s.start.phase))) ∧
  (∀ s, s.running = true → s.keys.phase = 0 → s.seed.phase = 2 → s.life.mark = 0 → s.start.fwOk = true →
    (s.backup.root = true → s.keys.nvRoot = s.deviceRoot → s.backup.now.tamperBk = false → s.backup.now.powerLost = false →
      Completes (.keystoreReloadEnd false) s (fun t => t.keys.phase = 1 ∧ t.keys.rootLost = false ∧
        t.keys.slots = mmap (fun _ => KSlot.empty) (fun _ k => startMark k) s.keys.nv ∧ t.backup = s.backup ∧ t.cfg = s.cfg)) ∧
    (s.backup.now.tamperBk = true ∨ s.backup.now.powerLost = true ∨ s.backup.root = false ∨ s.keys.nvRoot ≠ s.deviceRoot → ∀ c,
      Completes (.keystoreReloadEnd c) s (fun t => t.keys.phase = 1 ∧ t.keys.rootLost = true ∧ t.keys.slots = [] ∧
        t.keys.nv = [] ∧ t.backup.root = true ∧ t.backup.bbram = s.seed.queue.take 32 ∧ t.seed.queue = s.seed.queue.drop 32 ∧
        t.keys.nvRoot = t.deviceRoot ∧ t.backup.now.tamperBk = false ∧ t.backup.now.powerLost = false ∧
        t.backup.now.ctrMirror = s.backup.now.ctrMirror ∧ (∃ r ∈ t.faults.reports, r.source = 305) ∧ t.cfg = s.cfg))) ∧
  (∀ s img, s.start.up = true → s.start.phase = 15 → exec (.pldmFirmwareUpdate img) s =
    .next { s with start := { s.start with active := false } }) ∧
  (∀ s img, s.start.up = false ∨ s.start.phase ≠ 15 → exec (.pldmFirmwareUpdate img) s = .next s)

/-- MCTP_MESSAGE (Table 17.2, R501), SPDM_GET_MEASUREMENTS (R360) and HELD_STATUS_REQUEST (R429): a message over PCIe, or over SMBus to the
device's address, makes the source of its bus pending, and a responder answers it (message types and codes: log entry 93); one to another
address does nothing; HELD answers Get Endpoint ID and Get Message Type Support on SMBus alone; blocks 1–8 are answered with their value
and an ECDSA P-384 signature over value and nonce, others are not; a HELD device reports HELD, TAMPER_LAST and the three reset times at its
address (layout: the model's choice, log entry 22), and only then. -/
def Obligations.ManagementMessagesAnswered : Prop :=
  (∀ s via m, s.mctpHears via = false → exec (.mctpMessage via m) s = .next s) ∧
  (∀ s via m, s.mctpHears via = true → s.up = true → Completes (.mctpMessage via m) s (fun t =>
    t.intc = (s.pendSrc (if via = .pcie then 898 else 897)).intc ∧ t.cfg = s.cfg ∧ t.hbm = s.hbm ∧ t.keys = s.keys ∧
    (s.mctpAnswers via m = false → t.outbox = s.outbox) ∧
    (s.mctpAnswers via m = true → ∃ b, t.outbox = s.outbox ++ [.mctp (via == .pcie) b]))) ∧
  (∀ s via m, s.mctpHears via = true → s.up = false → s.backup.held = true →
    Completes (.mctpMessage via m) s (fun t => t.intc = s.intc ∧
    (t.outbox ≠ s.outbox ↔ via ≠ .pcie ∧ rd m 0 1 % 128 = 0 ∧ (rd m 2 1 = 2 ∨ rd m 2 1 = 5)))) ∧
  (∀ s (i : Byte) nonce, s.up = true → 1 ≤ i.toNat → i.toNat ≤ 8 → Completes (.spdmGetMeasurements i nonce) s (fun t =>
    (∃ rnd, t.outbox = s.outbox ++ [.spdm i.toNat (s.measurement i.toNat)
      ((ecdsaSign p384 (beNat ideSec) (ecNonce 0x72 rnd) (sha384 (s.measurement i.toNat ++ nonce))).getD [])]) ∧ t.intc = s.intc)) ∧
  (∀ s (i : Byte) nonce, s.up = true → i.toNat = 0 ∨ 8 < i.toNat → exec (.spdmGetMeasurements i nonce) s = .next s) ∧
  (∀ s, s.backup.held = true → s.backup.smbAddr.isSome = true → exec .heldStatusRequest s = .next (s.emit (.held (toLe 1 1 ++
    toLe 4 s.backup.now.last.toNat ++ (upTo 3).flatMap (fun i => toLe 8 (nth s.backup.now.hist i 0).toNat))))) ∧
  (∀ s, s.backup.held = false ∨ s.backup.smbAddr = none → exec .heldStatusRequest s = .next s)

/-- MAIN_RAIL_LOSS (R506, R452), THERMTRIP (R514), AUX_RAIL_FALL and BACKUP_SUPPLY_CHANGE (R429, R434): a rail lost while the device runs
raises PWR_RAIL, after PS4_READY it begins a new start; THERMTRIP drives its pin; a fall of the auxiliary rail ends HELD and
forgets the reset times and the SMBus address but, while VBAT holds the well, nothing else; without both supplies the well's contents are
lost; a rise of the auxiliary rail samples the address straps (R501). -/
def Obligations.RailsAndSupplies : Prop :=
  (∀ s rail, s.start.up = true → s.power.ps4Ready = false → Completes (.mainRailLoss rail) s (fun t =>
    (∃ r ∈ t.faults.reports, r.source = 470) ∧ t.cfg = s.cfg ∧ t.hbm = s.hbm ∧ t.keys = s.keys)) ∧
  (∀ s rail, s.power.ps4Ready = true → Completes (.mainRailLoss rail) s (fun t =>
    t.start.up = false ∧ t.start.cause.getLsbD 6 = true ∧ t.hbm = [] ∧ t.power.ps4Ready = false)) ∧
  (∀ s, s.hubOn = true → Completes .thermtrip s (fun t => t.start.thermLow = true ∧ ∃ r ∈ t.faults.reports, r.source = 468)) ∧
  (∀ s, s.hubOn = false → exec .thermtrip s = .next { s with start := { s.start with thermLow := true } }) ∧
  (∀ s, s.backup.vbat = true → Completes .auxRailFall s (fun t => t.backup.held = false ∧ t.backup.now.hist = [] ∧
    t.backup.aux = false ∧ t.backup.smbAddr = none ∧ t.start.thermLow = false ∧ t.backup.root = s.backup.root ∧
    t.backup.now.tamperBk = s.backup.now.tamperBk ∧ t.backup.now.rtc = s.backup.now.rtc ∧
    t.backup.now.ctrMirror = s.backup.now.ctrMirror ∧ t.cfg = s.cfg)) ∧
  (∀ s, s.backup.vbat = false → Completes .auxRailFall s (fun t => t.backup.root = false ∧ t.backup.now.powerLost = true ∧
    t.backup.now.tamperBk = false)) ∧
  (∀ s, Completes (.backupSupplyChange none false) s (fun t => t.backup.root = false ∧ t.backup.now.powerLost = true ∧
    t.backup.now.tamperBk = false)) ∧
  (∀ s, s.backup.aux = true → exec (.backupSupplyChange none true) s = .next (s.modBk (fun b => { b with
    aux := false, smbAddr := none, vbat := true, held := false, now := { b.now with hist := [] } }))) ∧
  (∀ s vbat st, exec (.backupSupplyChange (some st) vbat) s = .next (s.modBk (fun b => { b with
    aux := true, vbat := vbat, smbAddr := if s.backup.aux then b.smbAddr else some (smbAddress st) }))) ∧
  smbAddress 0 = 0x60#7 ∧ smbAddress 3 = 0x63#7

/-- TAMPER_ALARM (R427), BACKUP_TAMPER_ALARM (R428) and TAMPER_MONITOR_ARMED (R425): an alarm of an enabled, armed source records itself in
TAMPER_LAST and raises source 480 + s; one of sources 13–15 zeroizes the BBRAM root in every power state and latches TAMPER_BK,
and keeps the counter mirror; a source that is off never alarms; sources 0–10 are armed by their monitors. -/
def Obligations.TamperAlarmsAct : Prop :=
  (∀ s (n : Fin 11) a b, s.hubOn = true → s.tamperOn n.val = true →
    s.faults.reports.any (fun r => decide (480 ≤ r.source.val)) = false →
    Completes (.tamperAlarm n a b) s (fun t => t.backup.now.last = lastWord n.val a b (!s.backup.aux) ∧
      t.backup.now.lastRtc = s.backup.now.rtc ∧ (∃ r ∈ t.faults.reports, r.source.val = 480 + n.val) ∧
      t.backup.root = s.backup.root ∧ t.keys = s.keys ∧ t.tamper = s.tamper ∧ t.cfg = s.cfg ∧ t.hbm = s.hbm)) ∧
  (∀ s (n : Fin 11) a b, s.tamperOn n.val = false → exec (.tamperAlarm n a b) s = .next s) ∧
  (∀ s (n : Fin 3) a b, s.tamperOn (13 + n.val) = true → Completes (.backupTamperAlarm n a b) s (fun t =>
    t.backup.root = false ∧ t.backup.now.tamperBk = true ∧ t.backup.now.ctrMirror = s.backup.now.ctrMirror ∧
    (s.hubOn = true → ∃ r ∈ t.faults.reports, r.source.val = 493 + n.val) ∧ t.tamper = s.tamper ∧ t.cfg = s.cfg ∧
    t.hbm = s.hbm)) ∧
  (∀ s (n : Fin 3) a b, s.tamperOn (13 + n.val) = false → exec (.backupTamperAlarm n a b) s = .next s) ∧
  (∀ s (n : Fin 16), s.hubOn = true → n.val ≤ 10 → Completes (.tamperMonitorArmed n) s (fun t =>
    t.tamper.armed = s.tamper.armed ||| BitVec.ofNat 16 (2 ^ n.val) ∧ t.tamper.eff = s.tamper.eff ∧
    t.tamper.blown = s.tamper.blown ∧ t.cfg = s.cfg ∧ t.keys = s.keys)) ∧
  (∀ s (n : Fin 16), 10 < n.val → exec (.tamperMonitorArmed n) s = .next s)

/-- FUSE_REQ (R432): with the key, in Open and with agreeing takings it blows the named tamper fuses, which FUSE_PEND shows at once and
which act from the next chip reset on; with another key or in Closed it does nothing; where the takings disagree it is refused. -/
def Obligations.FuseRequestBlowsFuses : Prop :=
  (∀ s who src, s.running = true → reachesPf who = true → s.life.closed = false →
    exec (.fuseReq who 0xF05E src true) s =
      .next { s with tamper := { s.tamper with blown := s.tamper.blown ||| src } }) ∧
  (∀ (s : State) src c, let t := { s with tamper := { s.tamper with blown := s.tamper.blown ||| src } }
    t.readReg .pf 0xB80010 = (s.tamper.blown ||| src).setWidth 32 ∧ t.tamper.eff = s.tamper.eff ∧
      (t.chipReset c).tamper.eff = s.tamper.blown ||| src) ∧
  (∀ s who k src agree, s.running = true → k ≠ 0xF05E#16 → exec (.fuseReq who k src agree) s = .next s) ∧
  (∀ s who src, s.running = true → s.life.closed = true → exec (.fuseReq who 0xF05E src true) s = .next s) ∧
  (∀ s who src, s.running = true → reachesPf who = true → exec (.fuseReq who 0xF05E src false) s = .next (s.mismatch 1))

/-- LC_CLOSE, LC_OPEN and OPENING_STEP_END (R438, R440–R442, R444, R445, Tables 20.2, 20.3): closing acts at once, ends debug access and
leaves mark NONE; opening a Closed device writes OPENING and takes a chip reset that leaves it Closed; its steps erase the
partition and the user partitions, then zeroize the root, and only then is the device Open; the bundle counter is kept. A device
with FINAL blown does not open; disagreeing takings refuse; while a transition is in progress, and from other requesters,
requests are discarded. -/
def Obligations.LifeCycleTransitions : Prop :=
  (∀ s who, s.running = true → mayLife who = true → s.life.mark = 0 → s.life.closed = false →
    Completes (.lcClose who true) s (fun t => t.life.closed = true ∧ t.life.result = 1 ∧ t.life.mark = 0 ∧
      t.life.seq = s.life.seq + 2 ∧ t.life.session = false ∧ t.ctrl.dbgHalted = [] ∧ 901 ∈ t.intc.pend ∧
      t.life.final = s.life.final ∧ t.keys = s.keys ∧ t.cfg = s.cfg ∧ t.hbm = s.hbm)) ∧
  (∀ s who, s.running = true → mayLife who = true → s.life.mark = 0 → s.life.closed = true →
    exec (.lcClose who true) s = .next { s with life := { s.life with result := 1 } }) ∧
  (∀ s who, s.running = true → mayLife who = true → s.life.mark = 0 → s.life.closed = false →
    exec (.lcOpen who true) s = .next { s with life := { s.life with result := 1 } }) ∧
  (∀ s who, s.running = true → mayLife who = true → s.life.mark = 0 → s.life.closed = true → s.life.final = true →
    exec (.lcOpen who true) s = .next { s with life := { s.life with result := 2 } }) ∧
  (∀ s who, s.running = true → mayLife who = true → s.life.mark = 0 → s.life.closed = true → s.life.final = false →
    Completes (.lcOpen who true) s (fun t => AfterChipReset { s with life := { s.life with mark := 2 } } t ∧
      t.start.cause = causeOpening)) ∧
  (∀ s who, s.running = true → mayLife who = true → s.life.mark = 0 → ∀ c, c = .lcClose who false ∨ c = .lcOpen who false →
    Completes c s (fun t => t.life = { s.life with result := 3 } ∧
      cget t.tamper.mismatch 1 = satInc 32 (cget s.tamper.mismatch 1))) ∧
  (∀ s who agree, s.running = true → mayLife who = false ∨ s.life.mark ≠ 0 →
    exec (.lcClose who agree) s = .next s ∧ exec (.lcOpen who agree) s = .next s) ∧
  (∀ s, s.up = true →
    (s.life.mark = 2 → Completes .openingStepEnd s (fun t => t.keys.nv = [] ∧ t.keys.commits = [] ∧ t.life.mark = 3 ∧
      t.life.closed = s.life.closed ∧ t.keys.nvCounter = s.keys.nvCounter ∧ 901 ∈ t.intc.pend)) ∧
    (s.life.mark = 3 → Completes .openingStepEnd s (fun t => t.life.usersErased = true ∧ t.life.mark = 4 ∧
      t.life.closed = s.life.closed ∧ t.keys = s.keys)) ∧
    (s.life.mark = 4 → Completes .openingStepEnd s (fun t => t.backup.root = false ∧ t.life.mark = 0 ∧ t.life.closed = false ∧
      t.backup.now.ctrMirror = s.backup.now.ctrMirror ∧ t.keys = s.keys)))

/-- FINAL_REQ (R439): with the key and BLOW, in Closed and with agreeing takings, it blows LC_FINAL, which acts from then on: no later
request opens the device. With another key, or in Open, it does nothing; where the takings disagree it is not honoured. -/
def Obligations.FinalRequestIsForGood : Prop :=
  (∀ s who, s.running = true → mayLife who = true → s.life.mark = 0 → s.life.closed = true →
    exec (.finalReq who 0xF17A true true) s = .next { s with life := { s.life with final := true } }) ∧
  (∀ s who agree t, s.life.final = true → s.life.closed = true → exec (.lcOpen who agree) s = .next t →
    t.life.closed = true ∧ t.life.mark = s.life.mark ∧ t.life.final = true ∧ t.start.boot = s.start.boot) ∧
  (∀ s who k blow agree, s.running = true → k ≠ 0xF17A#16 → exec (.finalReq who k blow agree) s = .next s) ∧
  (∀ s who, s.running = true → s.life.closed = false → exec (.finalReq who 0xF17A true true) s = .next s) ∧
  (∀ s who, s.running = true → mayLife who = true → s.life.mark = 0 →
    exec (.finalReq who 0xF17A true false) s = .next (s.mismatch 1))

/-- DBG_CORE and DBG_REG (R444, R445): in Closed and throughout an opening they do nothing; in Open a halt empties the core's stack, a
resume lifts it, memory is read and written, and a register write reaches its shadow. -/
def Obligations.DebugWorksOnlyInOpen : Prop :=
  (∀ s t op, s.life.closed = true ∨ s.life.mark ≠ 0 → exec (.dbgCore t op) s = .next s) ∧
  (∀ s w a v, s.life.closed = true ∨ s.life.mark ≠ 0 → exec (.dbgReg w a v) s = .next s) ∧
  (∀ s (t : Fin 16), s.tapDebug = true → mwf (fun _ => []) s.intc.stk = true → s.ctrl.dbgHalted.contains t.val = false →
    Completes (.dbgCore t .halt) s (fun u => t.val ∈ u.ctrl.dbgHalted ∧ u.stack t.val = [] ∧ u.life.session = true ∧
      u.cfg = s.cfg ∧ u.hbm = s.hbm ∧ u.keys = s.keys)) ∧
  (∀ s (t : Fin 16), s.tapDebug = true → Completes (.dbgCore t .resume) s (fun u => t.val ∉ u.ctrl.dbgHalted ∧
    u.intc = s.intc ∧ u.cfg = s.cfg ∧ u.hbm = s.hbm ∧ u.keys = s.keys)) ∧
  (∀ s (t : Fin 16) a b, s.tapDebug = true → mwf hostDefault s.ctrl.mem = true → Completes (.dbgCore t (.write a [b])) s (fun u =>
    mget hostDefault u.ctrl.mem (coreMemA t.val a) = b ∧ (∀ x, x ≠ coreMemA t.val a →
      mget hostDefault u.ctrl.mem x = mget hostDefault s.ctrl.mem x) ∧ u.hbm = s.hbm ∧ u.cfg = s.cfg)) ∧
  (∀ s (t : Fin 16) a len, s.tapDebug = true → Completes (.dbgCore t (.read a len)) s (fun u =>
    u.resp = .bytes ((upTo len).map (fun i => mget hostDefault s.ctrl.mem (coreMemA t.val (a + i)))) ∧ u.ctrl = s.ctrl ∧
    u.hbm = s.hbm)) ∧
  (∀ s a r i j v, s.running = true → s.tapDebug = true → s.tablesWf = true → a % 4 = 0 → Loc.of .jtag a = .reg a →
    regAt a = some (r, i, j) → r.shadow = true → a ≠ 0x800018 → s.writeUnchecked .jtag a v = none →
    Completes (.dbgReg true a v) s (fun t =>
      t.cfgW a = ((s.cfgW a &&& ~~~BitVec.ofNat 32 r.rw) ||| (v &&& BitVec.ofNat 32 r.rw)) ∧ t.live = s.live ∧
      t.hbm = s.hbm ∧ t.keys = s.keys))

/-- AGEING_MEASUREMENT_END (R456), MARGIN_PLAN (R457, R458) and AVS_COMMAND (R507, R508): a measurement's degradations stand in the
monitors; each measurement is planned once, the plan never raises CCLK_STEP and keeps every voltage between 650 and 900 mV, and a
point out of margin raises AGE_MARGIN; a rise that one of four attempts completes stands, one that none completes drops the plan. -/
def Obligations.AgeingPlanKeepsMargins : Prop :=
  (∀ s d, s.running = true → s.power.measuring = true → mwf (fun _ => 0) s.power.mons = true →
    Completes (.ageingMeasurementEnd d) s (fun t => t.power.measuring = false ∧ t.power.measured = true ∧
      (∀ m, m < 96 → cget t.power.mons m = (nth d m 0).toNat) ∧ t.glob = s.glob)) ∧
  (∀ s, s.running = true → s.power.measured = true → Completes .marginPlan s (fun t =>
    t.power.planned = s.plan.1 ∧ t.power.marginOut = s.plan.2 ∧ t.power.measured = false ∧
    t.power.plans = satInc 16 s.power.plans ∧ 900 ∈ t.intc.pend ∧ t.glob = s.glob ∧
    (s.plan.2 = true → ∃ r ∈ t.faults.reports, r.source = 469))) ∧
  (∀ (s : State) p, s.plan.1 = some p → p.step ≤ s.glob.cclkStep ∧ 650 ≤ p.vw ∧ p.vw ≤ 900 ∧ 650 ≤ p.ve ∧ p.ve ≤ 900 ∧
    (s.plan.2 = false → s.vNeed 0 p.step ≤ p.vw ∧ s.vNeed 1 p.step ≤ p.ve ∧ s.dieAge 2 ≤ Config.hubLimit p.step)) ∧
  (∀ s east acks p, s.running = true → s.power.planned = some p → s.railV east < p.rail east →
    ((acks.take 4).any id = true → exec (.avsCommand east acks) s = .next (s.avsDone east (p.rail east))) ∧
    ((acks.take 4).any id = false → Completes (.avsCommand east acks) s (fun t => t.power.planned = none ∧
      t.power.marginOut = true ∧ t.glob = s.glob ∧ ∃ r ∈ t.faults.reports, r.source = 469)))

/-! ## The Commons -/

/-- Commons frames (R475, R485–R489): a frame with a bad FCS, a foreign EtherType, an unknown sender, another addressee or a SWN more than
1 away is discarded and counted on its port, a PTP message is no Commons frame; a port that is down receives nothing; a member that seeks
its SWN takes it from an ALIVE frame that only its SWN shuts out (R478). An accepted frame acts: rows and END counts
reach their slot (rows past SLOT_CAP set OVERFLOW and are not written), a RESERVE waits for the admission step, an ACK and a
PART_DONE stand with the coordinator's job, COMMIT and ABANDON mark the part of their coordinator's job, and ALIVE tells whether
its sender is UP. -/
def Obligations.CommonsFramesActOrAreDropped : Prop :=
  (∀ s fr c, s.running = true → c ∈ [Instr.exchange fr, .end_ fr, .reserve fr, .ack fr, .commit fr, .abandon fr, .partDone fr] →
    (s.hears fr = false → exec c s = .next s) ∧
    (s.hears fr = true → s.frameOk fr = false → fr.fcsOk = false ∨ fr.etherType ≠ 0x88F7 →
      exec c s = .next (s.countDrop fr)) ∧
    (s.frameOk fr = false → fr.fcsOk = true → fr.etherType = 0x88F7 → exec c s = .next s)) ∧
  (∀ s fr, s.running = true →
    (s.hears fr = false → exec (.alive fr) s = .next s) ∧
    (s.hears fr = true → s.frameOk fr = false → s.commons.align ≠ 1 → fr.fcsOk = false ∨ fr.etherType ≠ 0x88F7 →
      exec (.alive fr) s = .next (s.countDrop fr)) ∧
    (s.hears fr = true → s.swnNear fr = false → s.commons.align = 1 → s.frameOk { fr with swn := s.glob.swn } = true →
      exec (.alive fr) s = .next ((s.countDrop fr).aliveSwn fr))) ∧
  (∀ s fr, s.running = true → s.hears fr = true → s.frameOk fr = true →
    (∀ j p, s.partOf fr.cjob = some (j, p) →
      (fr.offset.toNat + fr.payload.length ≤ s.slotCap fr.slot.val →
        exec (.exchange fr) s = .next (s.slotRows fr.slot.val p.members fr.src.toNat fr.offset.toNat fr.payload)) ∧
      (s.slotCap fr.slot.val < fr.offset.toNat + fr.payload.length →
        Completes (.exchange fr) s (fun t => (t.inSlot fr.slot.val).overflow = true ∧ t.hbm = s.hbm)) ∧
      exec (.end_ fr) s = .next (s.slotEnd fr.slot.val p.members fr.src.toNat (rd fr.payload 0 8)) ∧
      (p.coord = fr.src.toNat →
        exec (.commit fr) s = .next (s.modPart j.id (fun p => { p with committed := true })) ∧
        exec (.abandon fr) s = .next (s.modPart j.id (fun p => { p with abandoned := true }))) ∧
      (p.coord ≠ fr.src.toNat → exec (.commit fr) s = .next s ∧ exec (.abandon fr) s = .next s)) ∧
    exec (.reserve fr) s = .next (s.modCommons (fun c => { c with rsv := c.rsv ++ [fr] })) ∧
    Completes (.ack fr) s (fun t => ∀ c ∈ s.commons.cjobs, c.cjob = fr.cjob → c.finished = false → c.admitted = false →
      c.members.contains fr.src.toNat = true → ∃ x ∈ t.commons.cjobs, x.job = c.job ∧
        mget (fun _ => (256, 0)) x.acks fr.src.toNat = (rd fr.payload 0 1, rd fr.payload 1 1)) ∧
    Completes (.partDone fr) s (fun t => ∀ c ∈ s.commons.cjobs, c.cjob = fr.cjob → c.finished = false →
      c.members.contains fr.src.toNat = true → ∃ x ∈ t.commons.cjobs, x.job = c.job ∧
        mget (fun _ => (256, 0)) x.dones (partIx c.members fr.src.toNat) = (rd fr.payload 0 1, rd fr.payload 1 1)) ∧
    Completes (.alive fr) s (fun t => (t.peer fr.src.toNat).lastAlive = s.swnN ∧
      ((t.peer fr.src.toNat).state = 1 ↔ rd fr.payload 0 1 = 2 ∨ rd fr.payload 0 1 = 3) ∧ t.adm = s.adm ∧ t.hbm = s.hbm))

/-- ALIVE_SEND and PEER_TIMEOUT (R492), PTP_SYNC and TICK_IN_EDGE (R478), REFERENCE_LOST and HOLDOVER_TIMEOUT (Table 23.3), PORT_LINK_DROP
and PORT_RETRAINED (R491): ALIVE frames go out only when the member joins; a peer silent for 64 sw is DOWN; the reference gives the
SWN (t − EPOCH) / 1,000,000; frames that find no room on a port wait there (R476); an ALIGNED member without its reference is in HOLDOVER, and after 8 sw in DESYNC; a port whose link
drops leaves service at once, and one that is retrained serves from the next re-plan step. -/
def Obligations.CommonsClockAndPorts : Prop :=
  (∀ s, s.running = true → bit s.ctl 31 = false → exec .aliveSend s = .next s) ∧
  (∀ s, s.running = true → bit s.ctl 31 = true → Completes .aliveSend s (fun t => t.cfg = s.cfg ∧ t.adm = s.adm ∧
    ∃ l, t.outbox = s.outbox ++ l ∧ ∀ o ∈ l, ∃ k m x, o = .frame k 8 m 0 0 0 x ∧ s.peerOn m = true)) ∧
  (∀ s (m : BitVec 10), s.running = true → s.peerOn m.toNat = true →
    ((s.peer m.toNat).lastAlive + 64 ≤ s.swnN → Completes (.peerTimeout m) s (fun t => (t.peer m.toNat).state = 2 ∧
      t.adm = s.adm ∧ t.cfg = s.cfg)) ∧
    (s.swnN < (s.peer m.toNat).lastAlive + 64 → exec (.peerTimeout m) s = .next s)) ∧
  (∀ s ns, s.running = true → s.follows 1 = true → Completes (.ptpSync ns) s (fun t => t.commons.refPresent = true ∧
    t.commons.refSwn = BitVec.ofNat 64 ((ns.toNat - (s.liveN 0xD00028 + 2 ^ 32 * s.liveN 0xD0002C)) / 1000000) ∧
    t.glob = s.glob ∧ t.cfg = s.cfg)) ∧
  (∀ s, s.running = true → s.follows 2 = true →
    exec .tickInEdge s = .next (s.modCommons (fun c => { c with refPresent := true }))) ∧
  (∀ s, s.running = true → s.follows 1 = true ∨ s.follows 2 = true → Completes .referenceLost s (fun t =>
    t.commons.refPresent = false ∧ (s.commons.align = 2 → t.commons.align = 3) ∧
    (s.commons.align ≠ 2 → t.commons.align = s.commons.align) ∧ t.glob = s.glob ∧ t.cfg = s.cfg)) ∧
  (∀ s, s.running = true → s.commons.align = 3 →
    (8 ≤ s.commons.holdSwaths → Completes .holdoverTimeout s (fun t => t.commons.align = 4 ∧ t.joined = false ∧ t.glob = s.glob)) ∧
    (s.commons.holdSwaths < 8 → exec .holdoverTimeout s = .next s)) ∧
  (∀ s (k : Fin 4), s.up = true → Completes (.portLinkDrop k) s (fun t => t.commons.linkUp.getLsbD k.val = false ∧
    t.portIn k.val = false ∧ t.adm = s.adm ∧ t.cfg = s.cfg)) ∧
  (∀ s (k : Fin 4), s.up = true → s.commons.linkUp.getLsbD k.val = false → Completes (.portRetrained k) s (fun t =>
    t.commons.linkUp.getLsbD k.val = true ∧ t.portIn k.val = false ∧ t.adm = s.adm ∧ t.cfg = s.cfg))

/-! ## Memory and frames -/

/-- HBM (R65, R123, R129): bytes written below the device's own bytes from 0x17_E828_0000 to channels in service read back, and every
other byte reads as before; a byte of a fenced channel reads zero and a write to it is discarded. -/
def Obligations.HbmReadsWhatWasWritten : Prop :=
  (∀ (s : State) a b, mwf hbmDefault s.hbm = true → s.hbmc.pcFenced = 0 → a + b.length ≤ 0x17E8280000 →
    (s.hbmWrite a b).hbmPeek a b.length = b ∧
    ∀ x, x < 0x1800000000 → x < a ∨ a + b.length ≤ x → (s.hbmWrite a b).hbmByte x = s.hbmByte x) ∧
  (∀ (s : State) a b, s.hbmc.pcFenced.getLsbD (pcOf a) = true → s.hbmByte a = 0 ∧ s.hbmPut a b = s)

/-- Commands of one unit leave every register word, every memory, the key store, the life cycle, the tamper monitors and the backup
domain as they are; of the mailbox commands, those whose index lies within the ring's bounds (Table 25.3). -/
def Obligations.QuietCommandsKeepTheStores : Prop := ∀ c s t, quiet c s = true → exec c s = .next t → SameStores s t
end

