-- ==== Sys2Proof/Laws/Data.lean ====
section
/-! SUPPORT. Laws of the sparse maps: reading after writing, and that every operation keeps the canonical form. -/

namespace Sys2Proof.Machine

variable {α : Type} [DecidableEq α] {d : Nat → α} {m : SMap α} {lo k j : Nat} {v : α}

/-! ## The canonical form -/

@[simp] theorem mwfFrom_nil : mwfFrom d lo [] = true := rfl
@[simp] theorem mwf_nil : mwf d [] = true := rfl

theorem mwfFrom_cons :
    mwfFrom d lo ((k, v) :: m) = true ↔ lo ≤ k ∧ v ≠ d k ∧ mwfFrom d (k + 1) m = true := by
  simp [mwfFrom, and_assoc]

/-- A lower bound may be lowered. -/
theorem mwfFrom_mono (h : mwfFrom d lo m = true) (hk : k ≤ lo) : mwfFrom d k m = true := by
  cases m with
  | nil => rfl
  | cons e m => obtain ⟨a, v⟩ := e; rw [mwfFrom_cons] at *; exact ⟨by omega, h.2⟩

theorem mwf_of_mwfFrom (h : mwfFrom d lo m = true) : mwf d m = true := mwfFrom_mono h (Nat.zero_le _)

/-- Deleting a key keeps the canonical form. -/
theorem mwfFrom_mdel (h : mwfFrom d lo m = true) : mwfFrom d lo (mdel m k) = true := by
  induction m generalizing lo with
  | nil => rfl
  | cons e m ih =>
    obtain ⟨a, w⟩ := e
    have h' := mwfFrom_cons.1 h
    unfold mdel
    split
    · exact mwfFrom_mono h'.2.2 (by omega)
    · split
      · exact h
      · exact mwfFrom_cons.2 ⟨h'.1, h'.2.1, ih h'.2.2⟩

/-- Inserting a value other than the default keeps the canonical form. -/
theorem mwfFrom_mins (h : mwfFrom d lo m = true) (hk : lo ≤ k) (hv : v ≠ d k) :
    mwfFrom d lo (mins m k v) = true := by
  induction m generalizing lo with
  | nil => exact mwfFrom_cons.2 ⟨hk, hv, rfl⟩
  | cons e m ih =>
    obtain ⟨a, w⟩ := e
    have h' := mwfFrom_cons.1 h
    unfold mins
    split
    · subst_vars; exact mwfFrom_cons.2 ⟨hk, hv, h'.2.2⟩
    · split
      · exact mwfFrom_cons.2 ⟨hk, hv, mwfFrom_cons.2 ⟨by omega, h'.2⟩⟩
      · exact mwfFrom_cons.2 ⟨h'.1, h'.2.1, ih h'.2.2 (by omega)⟩

/-- A write keeps the canonical form. -/
theorem mwf_mput (h : mwf d m = true) : mwf d (mput d m k v) = true := by
  unfold mput
  split
  · exact mwfFrom_mdel h
  · exact mwfFrom_mins h (Nat.zero_le _) ‹_›

/-- Dropping entries keeps the canonical form. -/
theorem mwfFrom_filter (q : Nat × α → Bool) (h : mwfFrom d lo m = true) : mwfFrom d lo (m.filter q) = true := by
  induction m generalizing lo with
  | nil => rfl
  | cons e m ih =>
    obtain ⟨a, w⟩ := e
    have h' := mwfFrom_cons.1 h
    rw [List.filter_cons]
    split
    · exact mwfFrom_cons.2 ⟨h'.1, h'.2.1, ih h'.2.2⟩
    · exact mwfFrom_mono (ih h'.2.2) (by omega)

theorem mwf_filter (q : Nat × α → Bool) (h : mwf d m = true) : mwf d (m.filter q) = true := mwfFrom_filter q h

/-- A change of every listed value keeps the canonical form. -/
theorem mwfFrom_mmap (f : Nat → α → α) (h : mwfFrom d lo m = true) : mwfFrom d lo (mmap d f m) = true := by
  induction m generalizing lo with
  | nil => rfl
  | cons e m ih =>
    obtain ⟨a, w⟩ := e
    have h' := mwfFrom_cons.1 h
    unfold mmap
    split
    · exact mwfFrom_mono (ih h'.2.2) (by omega)
    · exact mwfFrom_cons.2 ⟨h'.1, ‹_›, ih h'.2.2⟩

theorem mwf_mmap (f : Nat → α → α) (h : mwf d m = true) : mwf d (mmap d f m) = true := mwfFrom_mmap f h

/-! ## Reading -/

omit [DecidableEq α] in
@[simp] theorem mget_nil : mget d [] k = d k := rfl

/-- Below the first listed key a canonical map reads its default. -/
theorem mget_below (h : mwfFrom d lo m = true) (hk : k < lo) : mget d m k = d k := by
  cases m with
  | nil => rfl
  | cons e m =>
    obtain ⟨a, w⟩ := e
    have h' := mwfFrom_cons.1 h
    simp [mget, show k ≠ a by omega, show k < a by omega]

omit [DecidableEq α] in
theorem mget_mins : mget d (mins m k v) j = if j = k then v else mget d m j := by
  induction m with
  | nil => simp only [mins, mget]; split <;> simp_all
  | cons e m ih =>
    obtain ⟨a, w⟩ := e
    unfold mins
    split
    · subst_vars; simp only [mget]; split <;> rfl
    · split
      · simp only [mget]; split
        · rfl
        · split
          · rw [if_neg (by omega), if_pos (by omega)]
          · rfl
      · simp only [mget, ih]; split
        · rw [if_neg (by omega)]
        · split
          · rw [if_neg (by omega)]
          · rfl

theorem mget_mdel (h : mwfFrom d lo m = true) : mget d (mdel m k) j = if j = k then d k else mget d m j := by
  induction m generalizing lo with
  | nil => simp only [mdel, mget]; split <;> simp_all
  | cons e m ih =>
    obtain ⟨a, w⟩ := e
    have h' := mwfFrom_cons.1 h
    unfold mdel
    split
    · rename_i hk
      subst hk
      by_cases hj : j = k
      · subst hj; rw [if_pos rfl]; exact mget_below h'.2.2 (by omega)
      · rw [if_neg hj]; simp only [mget, if_neg hj]; split
        · exact mget_below h'.2.2 (by omega)
        · rfl
    · split
      · by_cases hj : j = k
        · subst hj; simp [mget, *]
        · rw [if_neg hj]
      · simp only [mget, ih h'.2.2]; split
        · rw [if_neg (by omega)]
        · split
          · rw [if_neg (by omega)]
          · rfl

/-- A read after a write: the written value at its key, and every other key as before. -/
theorem mget_mput (h : mwf d m = true) : mget d (mput d m k v) j = if j = k then v else mget d m j := by
  unfold mput
  split
  · subst_vars; exact mget_mdel h
  · exact mget_mins

theorem mget_mput_same (h : mwf d m = true) : mget d (mput d m k v) k = v := by simp [mget_mput h]
theorem mget_mput_ne (h : mwf d m = true) (hj : j ≠ k) : mget d (mput d m k v) j = mget d m j := by
  simp [mget_mput h, hj]

/-- A change of every listed value that keeps the defaults. -/
theorem mget_mmap (f : Nat → α → α) (hf : ∀ a, f a (d a) = d a) (h : mwfFrom d lo m = true) :
    mget d (mmap d f m) k = f k (mget d m k) := by
  induction m generalizing lo with
  | nil => simp [mmap, hf]
  | cons e m ih =>
    obtain ⟨a, w⟩ := e
    have h' := mwfFrom_cons.1 h
    unfold mmap
    split
    · rw [ih h'.2.2]; simp only [mget]; split
      · subst_vars; rw [mget_below h'.2.2 (by omega), hf]; symm; assumption
      · split
        · rw [mget_below h'.2.2 (by omega)]
        · rfl
    · simp only [mget, ih h'.2.2]; split
      · subst_vars; rfl
      · split
        · rw [hf]
        · rfl

/-- A canonical map is known by what it reads. -/
theorem mget_ext {n : SMap α} (h : mwfFrom d lo m = true) (h' : mwfFrom d lo n = true)
    (he : ∀ k, mget d m k = mget d n k) : m = n := by
  induction m generalizing lo n with
  | nil =>
    cases n with
    | nil => rfl
    | cons e n =>
      obtain ⟨a, w⟩ := e
      have := he a
      simp only [mget, if_true] at this
      exact absurd this.symm (mwfFrom_cons.1 h').2.1
  | cons e m ih =>
    obtain ⟨a, w⟩ := e
    have hm := mwfFrom_cons.1 h
    cases n with
    | nil =>
      have := he a
      simp only [mget, if_true] at this
      exact absurd this hm.2.1
    | cons f n =>
      obtain ⟨b, x⟩ := f
      have hn := mwfFrom_cons.1 h'
      have hab : a = b := by
        rcases Nat.lt_trichotomy a b with hlt | heq | hgt
        · have := he a; simp only [mget, if_true, if_neg (show a ≠ b by omega), if_pos hlt] at this
          exact absurd this hm.2.1
        · exact heq
        · have := he b; simp only [mget, if_true, if_neg (show b ≠ a by omega), if_pos hgt] at this
          exact absurd this.symm hn.2.1
      subst hab
      have hwx : w = x := by have := he a; simpa only [mget, if_true] using this
      subst hwx
      rw [ih hm.2.2 hn.2.2]
      intro k
      by_cases hk : k < a + 1
      · rw [mget_below hm.2.2 hk, mget_below hn.2.2 hk]
      · have := he k
        simpa only [mget, if_neg (show k ≠ a by omega), if_neg (show ¬ k < a by omega)] using this

/-! ## Counters -/

theorem cget_cput {c : SMap Nat} {n : Nat} (h : mwf (fun _ => 0) c = true) :
    cget (cput c k n) j = if j = k then n else cget c j := mget_mput h
theorem mwf_cput {c : SMap Nat} {n : Nat} (h : mwf (fun _ => 0) c = true) : mwf (fun _ => 0) (cput c k n) = true :=
  mwf_mput h
theorem mwf_cadd {c : SMap Nat} {n : Nat} (h : mwf (fun _ => 0) c = true) : mwf (fun _ => 0) (cadd c k n) = true :=
  mwf_mput h

/-! ## Bytes -/

@[simp] theorem length_toLe (n w : Nat) : (toLe n w).length = n := by
  induction n generalizing w with
  | zero => rfl
  | succ n ih => simp [toLe, ih]

@[simp] theorem length_zeros (n : Nat) : (zeros n).length = n := by simp [zeros]
@[simp] theorem length_slice (b : Bytes) (off n : Nat) : (slice b off n).length = n := by
  simp only [slice, List.length_append, length_zeros, List.length_take, List.length_drop]; omega

/-- Reading back a little-endian number. -/
theorem leNat_toLe (n w : Nat) : leNat (toLe n w) = w % 256 ^ n := by
  induction n generalizing w with
  | zero => simp [toLe, leNat, Nat.mod_one]
  | succ n ih =>
    rw [toLe, leNat, ih, BitVec.toNat_ofNat, show (2 : Nat) ^ 8 = 256 from rfl, Nat.pow_succ,
      Nat.mul_comm (256 ^ n) 256, Nat.mod_mul]

theorem leNat_lt (b : Bytes) : leNat b < 256 ^ b.length := by
  induction b with
  | nil => simp [leNat]
  | cons x b ih =>
    have := x.isLt
    simp only [leNat, List.length_cons, Nat.pow_succ]
    omega

end Sys2Proof.Machine
end

