-- ==== Sys2Proof/Laws/State.lean ====
section
/-! SUPPORT. What each single update of State leaves in each of its fields: one lemma per field per update. -/

namespace Sys2Proof.Machine

variable (s : State)

/-! ## setField -/

@[simp] theorem State.setField_glob (f : Nat) (x : Field) : (s.setField f x).glob = s.glob := rfl
@[simp] theorem State.setField_start (f : Nat) (x : Field) : (s.setField f x).start = s.start := rfl
@[simp] theorem State.setField_cfg (f : Nat) (x : Field) : (s.setField f x).cfg = s.cfg := rfl
@[simp] theorem State.setField_live (f : Nat) (x : Field) : (s.setField f x).live = s.live := rfl
@[simp] theorem State.setField_parBad (f : Nat) (x : Field) : (s.setField f x).parBad = s.parBad := rfl
@[simp] theorem State.setField_voteBad (f : Nat) (x : Field) : (s.setField f x).voteBad = s.voteBad := rfl
@[simp] theorem State.setField_hold (f : Nat) (x : Field) : (s.setField f x).hold = s.hold := rfl
@[simp] theorem State.setField_adm (f : Nat) (x : Field) : (s.setField f x).adm = s.adm := rfl
@[simp] theorem State.setField_fields (f : Nat) (x : Field) : (s.setField f x).fields = mput (fun _ => Field.init) s.fields f x := rfl
@[simp] theorem State.setField_hbmc (f : Nat) (x : Field) : (s.setField f x).hbmc = s.hbmc := rfl
@[simp] theorem State.setField_handles (f : Nat) (x : Field) : (s.setField f x).handles = s.handles := rfl
@[simp] theorem State.setField_loadsLast (f : Nat) (x : Field) : (s.setField f x).loadsLast = s.loadsLast := rfl
@[simp] theorem State.setField_lateLast (f : Nat) (x : Field) : (s.setField f x).lateLast = s.lateLast := rfl
@[simp] theorem State.setField_loads (f : Nat) (x : Field) : (s.setField f x).loads = s.loads := rfl
@[simp] theorem State.setField_amus (f : Nat) (x : Field) : (s.setField f x).amus = s.amus := rfl
@[simp] theorem State.setField_cores (f : Nat) (x : Field) : (s.setField f x).cores = s.cores := rfl
@[simp] theorem State.setField_pools (f : Nat) (x : Field) : (s.setField f x).pools = s.pools := rfl
@[simp] theorem State.setField_pipes (f : Nat) (x : Field) : (s.setField f x).pipes = s.pipes := rfl
@[simp] theorem State.setField_digest (f : Nat) (x : Field) : (s.setField f x).digest = s.digest := rfl
@[simp] theorem State.setField_seed (f : Nat) (x : Field) : (s.setField f x).seed = s.seed := rfl
@[simp] theorem State.setField_keys (f : Nat) (x : Field) : (s.setField f x).keys = s.keys := rfl
@[simp] theorem State.setField_insts (f : Nat) (x : Field) : (s.setField f x).insts = s.insts := rfl
@[simp] theorem State.setField_intc (f : Nat) (x : Field) : (s.setField f x).intc = s.intc := rfl
@[simp] theorem State.setField_tasks (f : Nat) (x : Field) : (s.setField f x).tasks = s.tasks := rfl
@[simp] theorem State.setField_ctrl (f : Nat) (x : Field) : (s.setField f x).ctrl = s.ctrl := rfl
@[simp] theorem State.setField_faults (f : Nat) (x : Field) : (s.setField f x).faults = s.faults := rfl
@[simp] theorem State.setField_tamper (f : Nat) (x : Field) : (s.setField f x).tamper = s.tamper := rfl
@[simp] theorem State.setField_backup (f : Nat) (x : Field) : (s.setField f x).backup = s.backup := rfl
@[simp] theorem State.setField_life (f : Nat) (x : Field) : (s.setField f x).life = s.life := rfl
@[simp] theorem State.setField_power (f : Nat) (x : Field) : (s.setField f x).power = s.power := rfl
@[simp] theorem State.setField_commons (f : Nat) (x : Field) : (s.setField f x).commons = s.commons := rfl
@[simp] theorem State.setField_hostif (f : Nat) (x : Field) : (s.setField f x).hostif = s.hostif := rfl
@[simp] theorem State.setField_mirror (f : Nat) (x : Field) : (s.setField f x).mirror = s.mirror := rfl
@[simp] theorem State.setField_hbm (f : Nat) (x : Field) : (s.setField f x).hbm = s.hbm := rfl
@[simp] theorem State.setField_host (f : Nat) (x : Field) : (s.setField f x).host = s.host := rfl
@[simp] theorem State.setField_free (f : Nat) (x : Field) : (s.setField f x).free = s.free := rfl
@[simp] theorem State.setField_resp (f : Nat) (x : Field) : (s.setField f x).resp = s.resp := rfl
@[simp] theorem State.setField_outbox (f : Nat) (x : Field) : (s.setField f x).outbox = s.outbox := rfl
@[simp] theorem State.setField_pending (f : Nat) (x : Field) : (s.setField f x).pending = s.pending := rfl

/-! ## setAmu -/

@[simp] theorem State.setAmu_glob (u : Nat) (x : Amu) : (s.setAmu u x).glob = s.glob := rfl
@[simp] theorem State.setAmu_start (u : Nat) (x : Amu) : (s.setAmu u x).start = s.start := rfl
@[simp] theorem State.setAmu_cfg (u : Nat) (x : Amu) : (s.setAmu u x).cfg = s.cfg := rfl
@[simp] theorem State.setAmu_live (u : Nat) (x : Amu) : (s.setAmu u x).live = s.live := rfl
@[simp] theorem State.setAmu_parBad (u : Nat) (x : Amu) : (s.setAmu u x).parBad = s.parBad := rfl
@[simp] theorem State.setAmu_voteBad (u : Nat) (x : Amu) : (s.setAmu u x).voteBad = s.voteBad := rfl
@[simp] theorem State.setAmu_hold (u : Nat) (x : Amu) : (s.setAmu u x).hold = s.hold := rfl
@[simp] theorem State.setAmu_adm (u : Nat) (x : Amu) : (s.setAmu u x).adm = s.adm := rfl
@[simp] theorem State.setAmu_fields (u : Nat) (x : Amu) : (s.setAmu u x).fields = s.fields := rfl
@[simp] theorem State.setAmu_hbmc (u : Nat) (x : Amu) : (s.setAmu u x).hbmc = s.hbmc := rfl
@[simp] theorem State.setAmu_handles (u : Nat) (x : Amu) : (s.setAmu u x).handles = s.handles := rfl
@[simp] theorem State.setAmu_loadsLast (u : Nat) (x : Amu) : (s.setAmu u x).loadsLast = s.loadsLast := rfl
@[simp] theorem State.setAmu_lateLast (u : Nat) (x : Amu) : (s.setAmu u x).lateLast = s.lateLast := rfl
@[simp] theorem State.setAmu_loads (u : Nat) (x : Amu) : (s.setAmu u x).loads = s.loads := rfl
@[simp] theorem State.setAmu_amus (u : Nat) (x : Amu) : (s.setAmu u x).amus = mput (fun _ => Amu.init) s.amus u x := rfl
@[simp] theorem State.setAmu_cores (u : Nat) (x : Amu) : (s.setAmu u x).cores = s.cores := rfl
@[simp] theorem State.setAmu_pools (u : Nat) (x : Amu) : (s.setAmu u x).pools = s.pools := rfl
@[simp] theorem State.setAmu_pipes (u : Nat) (x : Amu) : (s.setAmu u x).pipes = s.pipes := rfl
@[simp] theorem State.setAmu_digest (u : Nat) (x : Amu) : (s.setAmu u x).digest = s.digest := rfl
@[simp] theorem State.setAmu_seed (u : Nat) (x : Amu) : (s.setAmu u x).seed = s.seed := rfl
@[simp] theorem State.setAmu_keys (u : Nat) (x : Amu) : (s.setAmu u x).keys = s.keys := rfl
@[simp] theorem State.setAmu_insts (u : Nat) (x : Amu) : (s.setAmu u x).insts = s.insts := rfl
@[simp] theorem State.setAmu_intc (u : Nat) (x : Amu) : (s.setAmu u x).intc = s.intc := rfl
@[simp] theorem State.setAmu_tasks (u : Nat) (x : Amu) : (s.setAmu u x).tasks = s.tasks := rfl
@[simp] theorem State.setAmu_ctrl (u : Nat) (x : Amu) : (s.setAmu u x).ctrl = s.ctrl := rfl
@[simp] theorem State.setAmu_faults (u : Nat) (x : Amu) : (s.setAmu u x).faults = s.faults := rfl
@[simp] theorem State.setAmu_tamper (u : Nat) (x : Amu) : (s.setAmu u x).tamper = s.tamper := rfl
@[simp] theorem State.setAmu_backup (u : Nat) (x : Amu) : (s.setAmu u x).backup = s.backup := rfl
@[simp] theorem State.setAmu_life (u : Nat) (x : Amu) : (s.setAmu u x).life = s.life := rfl
@[simp] theorem State.setAmu_power (u : Nat) (x : Amu) : (s.setAmu u x).power = s.power := rfl
@[simp] theorem State.setAmu_commons (u : Nat) (x : Amu) : (s.setAmu u x).commons = s.commons := rfl
@[simp] theorem State.setAmu_hostif (u : Nat) (x : Amu) : (s.setAmu u x).hostif = s.hostif := rfl
@[simp] theorem State.setAmu_mirror (u : Nat) (x : Amu) : (s.setAmu u x).mirror = s.mirror := rfl
@[simp] theorem State.setAmu_hbm (u : Nat) (x : Amu) : (s.setAmu u x).hbm = s.hbm := rfl
@[simp] theorem State.setAmu_host (u : Nat) (x : Amu) : (s.setAmu u x).host = s.host := rfl
@[simp] theorem State.setAmu_free (u : Nat) (x : Amu) : (s.setAmu u x).free = s.free := rfl
@[simp] theorem State.setAmu_resp (u : Nat) (x : Amu) : (s.setAmu u x).resp = s.resp := rfl
@[simp] theorem State.setAmu_outbox (u : Nat) (x : Amu) : (s.setAmu u x).outbox = s.outbox := rfl
@[simp] theorem State.setAmu_pending (u : Nat) (x : Amu) : (s.setAmu u x).pending = s.pending := rfl

/-! ## setCore -/

@[simp] theorem State.setCore_glob (k : Nat) (x : Core) : (s.setCore k x).glob = s.glob := rfl
@[simp] theorem State.setCore_start (k : Nat) (x : Core) : (s.setCore k x).start = s.start := rfl
@[simp] theorem State.setCore_cfg (k : Nat) (x : Core) : (s.setCore k x).cfg = s.cfg := rfl
@[simp] theorem State.setCore_live (k : Nat) (x : Core) : (s.setCore k x).live = s.live := rfl
@[simp] theorem State.setCore_parBad (k : Nat) (x : Core) : (s.setCore k x).parBad = s.parBad := rfl
@[simp] theorem State.setCore_voteBad (k : Nat) (x : Core) : (s.setCore k x).voteBad = s.voteBad := rfl
@[simp] theorem State.setCore_hold (k : Nat) (x : Core) : (s.setCore k x).hold = s.hold := rfl
@[simp] theorem State.setCore_adm (k : Nat) (x : Core) : (s.setCore k x).adm = s.adm := rfl
@[simp] theorem State.setCore_fields (k : Nat) (x : Core) : (s.setCore k x).fields = s.fields := rfl
@[simp] theorem State.setCore_hbmc (k : Nat) (x : Core) : (s.setCore k x).hbmc = s.hbmc := rfl
@[simp] theorem State.setCore_handles (k : Nat) (x : Core) : (s.setCore k x).handles = s.handles := rfl
@[simp] theorem State.setCore_loadsLast (k : Nat) (x : Core) : (s.setCore k x).loadsLast = s.loadsLast := rfl
@[simp] theorem State.setCore_lateLast (k : Nat) (x : Core) : (s.setCore k x).lateLast = s.lateLast := rfl
@[simp] theorem State.setCore_loads (k : Nat) (x : Core) : (s.setCore k x).loads = s.loads := rfl
@[simp] theorem State.setCore_amus (k : Nat) (x : Core) : (s.setCore k x).amus = s.amus := rfl
@[simp] theorem State.setCore_cores (k : Nat) (x : Core) : (s.setCore k x).cores = mput (fun _ => Core.init) s.cores k x := rfl
@[simp] theorem State.setCore_pools (k : Nat) (x : Core) : (s.setCore k x).pools = s.pools := rfl
@[simp] theorem State.setCore_pipes (k : Nat) (x : Core) : (s.setCore k x).pipes = s.pipes := rfl
@[simp] theorem State.setCore_digest (k : Nat) (x : Core) : (s.setCore k x).digest = s.digest := rfl
@[simp] theorem State.setCore_seed (k : Nat) (x : Core) : (s.setCore k x).seed = s.seed := rfl
@[simp] theorem State.setCore_keys (k : Nat) (x : Core) : (s.setCore k x).keys = s.keys := rfl
@[simp] theorem State.setCore_insts (k : Nat) (x : Core) : (s.setCore k x).insts = s.insts := rfl
@[simp] theorem State.setCore_intc (k : Nat) (x : Core) : (s.setCore k x).intc = s.intc := rfl
@[simp] theorem State.setCore_tasks (k : Nat) (x : Core) : (s.setCore k x).tasks = s.tasks := rfl
@[simp] theorem State.setCore_ctrl (k : Nat) (x : Core) : (s.setCore k x).ctrl = s.ctrl := rfl
@[simp] theorem State.setCore_faults (k : Nat) (x : Core) : (s.setCore k x).faults = s.faults := rfl
@[simp] theorem State.setCore_tamper (k : Nat) (x : Core) : (s.setCore k x).tamper = s.tamper := rfl
@[simp] theorem State.setCore_backup (k : Nat) (x : Core) : (s.setCore k x).backup = s.backup := rfl
@[simp] theorem State.setCore_life (k : Nat) (x : Core) : (s.setCore k x).life = s.life := rfl
@[simp] theorem State.setCore_power (k : Nat) (x : Core) : (s.setCore k x).power = s.power := rfl
@[simp] theorem State.setCore_commons (k : Nat) (x : Core) : (s.setCore k x).commons = s.commons := rfl
@[simp] theorem State.setCore_hostif (k : Nat) (x : Core) : (s.setCore k x).hostif = s.hostif := rfl
@[simp] theorem State.setCore_mirror (k : Nat) (x : Core) : (s.setCore k x).mirror = s.mirror := rfl
@[simp] theorem State.setCore_hbm (k : Nat) (x : Core) : (s.setCore k x).hbm = s.hbm := rfl
@[simp] theorem State.setCore_host (k : Nat) (x : Core) : (s.setCore k x).host = s.host := rfl
@[simp] theorem State.setCore_free (k : Nat) (x : Core) : (s.setCore k x).free = s.free := rfl
@[simp] theorem State.setCore_resp (k : Nat) (x : Core) : (s.setCore k x).resp = s.resp := rfl
@[simp] theorem State.setCore_outbox (k : Nat) (x : Core) : (s.setCore k x).outbox = s.outbox := rfl
@[simp] theorem State.setCore_pending (k : Nat) (x : Core) : (s.setCore k x).pending = s.pending := rfl

/-! ## setPipe -/

@[simp] theorem State.setPipe_glob (p : Nat) (x : Core) : (s.setPipe p x).glob = s.glob := rfl
@[simp] theorem State.setPipe_start (p : Nat) (x : Core) : (s.setPipe p x).start = s.start := rfl
@[simp] theorem State.setPipe_cfg (p : Nat) (x : Core) : (s.setPipe p x).cfg = s.cfg := rfl
@[simp] theorem State.setPipe_live (p : Nat) (x : Core) : (s.setPipe p x).live = s.live := rfl
@[simp] theorem State.setPipe_parBad (p : Nat) (x : Core) : (s.setPipe p x).parBad = s.parBad := rfl
@[simp] theorem State.setPipe_voteBad (p : Nat) (x : Core) : (s.setPipe p x).voteBad = s.voteBad := rfl
@[simp] theorem State.setPipe_hold (p : Nat) (x : Core) : (s.setPipe p x).hold = s.hold := rfl
@[simp] theorem State.setPipe_adm (p : Nat) (x : Core) : (s.setPipe p x).adm = s.adm := rfl
@[simp] theorem State.setPipe_fields (p : Nat) (x : Core) : (s.setPipe p x).fields = s.fields := rfl
@[simp] theorem State.setPipe_hbmc (p : Nat) (x : Core) : (s.setPipe p x).hbmc = s.hbmc := rfl
@[simp] theorem State.setPipe_handles (p : Nat) (x : Core) : (s.setPipe p x).handles = s.handles := rfl
@[simp] theorem State.setPipe_loadsLast (p : Nat) (x : Core) : (s.setPipe p x).loadsLast = s.loadsLast := rfl
@[simp] theorem State.setPipe_lateLast (p : Nat) (x : Core) : (s.setPipe p x).lateLast = s.lateLast := rfl
@[simp] theorem State.setPipe_loads (p : Nat) (x : Core) : (s.setPipe p x).loads = s.loads := rfl
@[simp] theorem State.setPipe_amus (p : Nat) (x : Core) : (s.setPipe p x).amus = s.amus := rfl
@[simp] theorem State.setPipe_cores (p : Nat) (x : Core) : (s.setPipe p x).cores = s.cores := rfl
@[simp] theorem State.setPipe_pools (p : Nat) (x : Core) : (s.setPipe p x).pools = s.pools := rfl
@[simp] theorem State.setPipe_pipes (p : Nat) (x : Core) : (s.setPipe p x).pipes = mput (fun _ => Core.init) s.pipes p x := rfl
@[simp] theorem State.setPipe_digest (p : Nat) (x : Core) : (s.setPipe p x).digest = s.digest := rfl
@[simp] theorem State.setPipe_seed (p : Nat) (x : Core) : (s.setPipe p x).seed = s.seed := rfl
@[simp] theorem State.setPipe_keys (p : Nat) (x : Core) : (s.setPipe p x).keys = s.keys := rfl
@[simp] theorem State.setPipe_insts (p : Nat) (x : Core) : (s.setPipe p x).insts = s.insts := rfl
@[simp] theorem State.setPipe_intc (p : Nat) (x : Core) : (s.setPipe p x).intc = s.intc := rfl
@[simp] theorem State.setPipe_tasks (p : Nat) (x : Core) : (s.setPipe p x).tasks = s.tasks := rfl
@[simp] theorem State.setPipe_ctrl (p : Nat) (x : Core) : (s.setPipe p x).ctrl = s.ctrl := rfl
@[simp] theorem State.setPipe_faults (p : Nat) (x : Core) : (s.setPipe p x).faults = s.faults := rfl
@[simp] theorem State.setPipe_tamper (p : Nat) (x : Core) : (s.setPipe p x).tamper = s.tamper := rfl
@[simp] theorem State.setPipe_backup (p : Nat) (x : Core) : (s.setPipe p x).backup = s.backup := rfl
@[simp] theorem State.setPipe_life (p : Nat) (x : Core) : (s.setPipe p x).life = s.life := rfl
@[simp] theorem State.setPipe_power (p : Nat) (x : Core) : (s.setPipe p x).power = s.power := rfl
@[simp] theorem State.setPipe_commons (p : Nat) (x : Core) : (s.setPipe p x).commons = s.commons := rfl
@[simp] theorem State.setPipe_hostif (p : Nat) (x : Core) : (s.setPipe p x).hostif = s.hostif := rfl
@[simp] theorem State.setPipe_mirror (p : Nat) (x : Core) : (s.setPipe p x).mirror = s.mirror := rfl
@[simp] theorem State.setPipe_hbm (p : Nat) (x : Core) : (s.setPipe p x).hbm = s.hbm := rfl
@[simp] theorem State.setPipe_host (p : Nat) (x : Core) : (s.setPipe p x).host = s.host := rfl
@[simp] theorem State.setPipe_free (p : Nat) (x : Core) : (s.setPipe p x).free = s.free := rfl
@[simp] theorem State.setPipe_resp (p : Nat) (x : Core) : (s.setPipe p x).resp = s.resp := rfl
@[simp] theorem State.setPipe_outbox (p : Nat) (x : Core) : (s.setPipe p x).outbox = s.outbox := rfl
@[simp] theorem State.setPipe_pending (p : Nat) (x : Core) : (s.setPipe p x).pending = s.pending := rfl

/-! ## modPool -/

@[simp] theorem State.modPool_glob (p : Nat) (g : PoolCnt → PoolCnt) : (s.modPool p g).glob = s.glob := rfl
@[simp] theorem State.modPool_start (p : Nat) (g : PoolCnt → PoolCnt) : (s.modPool p g).start = s.start := rfl
@[simp] theorem State.modPool_cfg (p : Nat) (g : PoolCnt → PoolCnt) : (s.modPool p g).cfg = s.cfg := rfl
@[simp] theorem State.modPool_live (p : Nat) (g : PoolCnt → PoolCnt) : (s.modPool p g).live = s.live := rfl
@[simp] theorem State.modPool_parBad (p : Nat) (g : PoolCnt → PoolCnt) : (s.modPool p g).parBad = s.parBad := rfl
@[simp] theorem State.modPool_voteBad (p : Nat) (g : PoolCnt → PoolCnt) : (s.modPool p g).voteBad = s.voteBad := rfl
@[simp] theorem State.modPool_hold (p : Nat) (g : PoolCnt → PoolCnt) : (s.modPool p g).hold = s.hold := rfl
@[simp] theorem State.modPool_adm (p : Nat) (g : PoolCnt → PoolCnt) : (s.modPool p g).adm = s.adm := rfl
@[simp] theorem State.modPool_fields (p : Nat) (g : PoolCnt → PoolCnt) : (s.modPool p g).fields = s.fields := rfl
@[simp] theorem State.modPool_hbmc (p : Nat) (g : PoolCnt → PoolCnt) : (s.modPool p g).hbmc = s.hbmc := rfl
@[simp] theorem State.modPool_handles (p : Nat) (g : PoolCnt → PoolCnt) : (s.modPool p g).handles = s.handles := rfl
@[simp] theorem State.modPool_loadsLast (p : Nat) (g : PoolCnt → PoolCnt) : (s.modPool p g).loadsLast = s.loadsLast := rfl
@[simp] theorem State.modPool_lateLast (p : Nat) (g : PoolCnt → PoolCnt) : (s.modPool p g).lateLast = s.lateLast := rfl
@[simp] theorem State.modPool_loads (p : Nat) (g : PoolCnt → PoolCnt) : (s.modPool p g).loads = s.loads := rfl
@[simp] theorem State.modPool_amus (p : Nat) (g : PoolCnt → PoolCnt) : (s.modPool p g).amus = s.amus := rfl
@[simp] theorem State.modPool_cores (p : Nat) (g : PoolCnt → PoolCnt) : (s.modPool p g).cores = s.cores := rfl
@[simp] theorem State.modPool_pools (p : Nat) (g : PoolCnt → PoolCnt) :
    (s.modPool p g).pools = mput (fun _ => PoolCnt.init) s.pools p (g (s.pool p)) := rfl
@[simp] theorem State.modPool_pipes (p : Nat) (g : PoolCnt → PoolCnt) : (s.modPool p g).pipes = s.pipes := rfl
@[simp] theorem State.modPool_digest (p : Nat) (g : PoolCnt → PoolCnt) : (s.modPool p g).digest = s.digest := rfl
@[simp] theorem State.modPool_seed (p : Nat) (g : PoolCnt → PoolCnt) : (s.modPool p g).seed = s.seed := rfl
@[simp] theorem State.modPool_keys (p : Nat) (g : PoolCnt → PoolCnt) : (s.modPool p g).keys = s.keys := rfl
@[simp] theorem State.modPool_insts (p : Nat) (g : PoolCnt → PoolCnt) : (s.modPool p g).insts = s.insts := rfl
@[simp] theorem State.modPool_intc (p : Nat) (g : PoolCnt → PoolCnt) : (s.modPool p g).intc = s.intc := rfl
@[simp] theorem State.modPool_tasks (p : Nat) (g : PoolCnt → PoolCnt) : (s.modPool p g).tasks = s.tasks := rfl
@[simp] theorem State.modPool_ctrl (p : Nat) (g : PoolCnt → PoolCnt) : (s.modPool p g).ctrl = s.ctrl := rfl
@[simp] theorem State.modPool_faults (p : Nat) (g : PoolCnt → PoolCnt) : (s.modPool p g).faults = s.faults := rfl
@[simp] theorem State.modPool_tamper (p : Nat) (g : PoolCnt → PoolCnt) : (s.modPool p g).tamper = s.tamper := rfl
@[simp] theorem State.modPool_backup (p : Nat) (g : PoolCnt → PoolCnt) : (s.modPool p g).backup = s.backup := rfl
@[simp] theorem State.modPool_life (p : Nat) (g : PoolCnt → PoolCnt) : (s.modPool p g).life = s.life := rfl
@[simp] theorem State.modPool_power (p : Nat) (g : PoolCnt → PoolCnt) : (s.modPool p g).power = s.power := rfl
@[simp] theorem State.modPool_commons (p : Nat) (g : PoolCnt → PoolCnt) : (s.modPool p g).commons = s.commons := rfl
@[simp] theorem State.modPool_hostif (p : Nat) (g : PoolCnt → PoolCnt) : (s.modPool p g).hostif = s.hostif := rfl
@[simp] theorem State.modPool_mirror (p : Nat) (g : PoolCnt → PoolCnt) : (s.modPool p g).mirror = s.mirror := rfl
@[simp] theorem State.modPool_hbm (p : Nat) (g : PoolCnt → PoolCnt) : (s.modPool p g).hbm = s.hbm := rfl
@[simp] theorem State.modPool_host (p : Nat) (g : PoolCnt → PoolCnt) : (s.modPool p g).host = s.host := rfl
@[simp] theorem State.modPool_free (p : Nat) (g : PoolCnt → PoolCnt) : (s.modPool p g).free = s.free := rfl
@[simp] theorem State.modPool_resp (p : Nat) (g : PoolCnt → PoolCnt) : (s.modPool p g).resp = s.resp := rfl
@[simp] theorem State.modPool_outbox (p : Nat) (g : PoolCnt → PoolCnt) : (s.modPool p g).outbox = s.outbox := rfl
@[simp] theorem State.modPool_pending (p : Nat) (g : PoolCnt → PoolCnt) : (s.modPool p g).pending = s.pending := rfl

/-! ## setInst -/

@[simp] theorem State.setInst_glob (n : Nat) (x : Inst) : (s.setInst n x).glob = s.glob := rfl
@[simp] theorem State.setInst_start (n : Nat) (x : Inst) : (s.setInst n x).start = s.start := rfl
@[simp] theorem State.setInst_cfg (n : Nat) (x : Inst) : (s.setInst n x).cfg = s.cfg := rfl
@[simp] theorem State.setInst_live (n : Nat) (x : Inst) : (s.setInst n x).live = s.live := rfl
@[simp] theorem State.setInst_parBad (n : Nat) (x : Inst) : (s.setInst n x).parBad = s.parBad := rfl
@[simp] theorem State.setInst_voteBad (n : Nat) (x : Inst) : (s.setInst n x).voteBad = s.voteBad := rfl
@[simp] theorem State.setInst_hold (n : Nat) (x : Inst) : (s.setInst n x).hold = s.hold := rfl
@[simp] theorem State.setInst_adm (n : Nat) (x : Inst) : (s.setInst n x).adm = s.adm := rfl
@[simp] theorem State.setInst_fields (n : Nat) (x : Inst) : (s.setInst n x).fields = s.fields := rfl
@[simp] theorem State.setInst_hbmc (n : Nat) (x : Inst) : (s.setInst n x).hbmc = s.hbmc := rfl
@[simp] theorem State.setInst_handles (n : Nat) (x : Inst) : (s.setInst n x).handles = s.handles := rfl
@[simp] theorem State.setInst_loadsLast (n : Nat) (x : Inst) : (s.setInst n x).loadsLast = s.loadsLast := rfl
@[simp] theorem State.setInst_lateLast (n : Nat) (x : Inst) : (s.setInst n x).lateLast = s.lateLast := rfl
@[simp] theorem State.setInst_loads (n : Nat) (x : Inst) : (s.setInst n x).loads = s.loads := rfl
@[simp] theorem State.setInst_amus (n : Nat) (x : Inst) : (s.setInst n x).amus = s.amus := rfl
@[simp] theorem State.setInst_cores (n : Nat) (x : Inst) : (s.setInst n x).cores = s.cores := rfl
@[simp] theorem State.setInst_pools (n : Nat) (x : Inst) : (s.setInst n x).pools = s.pools := rfl
@[simp] theorem State.setInst_pipes (n : Nat) (x : Inst) : (s.setInst n x).pipes = s.pipes := rfl
@[simp] theorem State.setInst_digest (n : Nat) (x : Inst) : (s.setInst n x).digest = s.digest := rfl
@[simp] theorem State.setInst_seed (n : Nat) (x : Inst) : (s.setInst n x).seed = s.seed := rfl
@[simp] theorem State.setInst_keys (n : Nat) (x : Inst) : (s.setInst n x).keys = s.keys := rfl
@[simp] theorem State.setInst_insts (n : Nat) (x : Inst) : (s.setInst n x).insts = mput Inst.init s.insts n x := rfl
@[simp] theorem State.setInst_intc (n : Nat) (x : Inst) : (s.setInst n x).intc = s.intc := rfl
@[simp] theorem State.setInst_tasks (n : Nat) (x : Inst) : (s.setInst n x).tasks = s.tasks := rfl
@[simp] theorem State.setInst_ctrl (n : Nat) (x : Inst) : (s.setInst n x).ctrl = s.ctrl := rfl
@[simp] theorem State.setInst_faults (n : Nat) (x : Inst) : (s.setInst n x).faults = s.faults := rfl
@[simp] theorem State.setInst_tamper (n : Nat) (x : Inst) : (s.setInst n x).tamper = s.tamper := rfl
@[simp] theorem State.setInst_backup (n : Nat) (x : Inst) : (s.setInst n x).backup = s.backup := rfl
@[simp] theorem State.setInst_life (n : Nat) (x : Inst) : (s.setInst n x).life = s.life := rfl
@[simp] theorem State.setInst_power (n : Nat) (x : Inst) : (s.setInst n x).power = s.power := rfl
@[simp] theorem State.setInst_commons (n : Nat) (x : Inst) : (s.setInst n x).commons = s.commons := rfl
@[simp] theorem State.setInst_hostif (n : Nat) (x : Inst) : (s.setInst n x).hostif = s.hostif := rfl
@[simp] theorem State.setInst_mirror (n : Nat) (x : Inst) : (s.setInst n x).mirror = s.mirror := rfl
@[simp] theorem State.setInst_hbm (n : Nat) (x : Inst) : (s.setInst n x).hbm = s.hbm := rfl
@[simp] theorem State.setInst_host (n : Nat) (x : Inst) : (s.setInst n x).host = s.host := rfl
@[simp] theorem State.setInst_free (n : Nat) (x : Inst) : (s.setInst n x).free = s.free := rfl
@[simp] theorem State.setInst_resp (n : Nat) (x : Inst) : (s.setInst n x).resp = s.resp := rfl
@[simp] theorem State.setInst_outbox (n : Nat) (x : Inst) : (s.setInst n x).outbox = s.outbox := rfl
@[simp] theorem State.setInst_pending (n : Nat) (x : Inst) : (s.setInst n x).pending = s.pending := rfl

/-! ## setHandle -/

@[simp] theorem State.setHandle_glob (h : Nat) (x : Handle) : (s.setHandle h x).glob = s.glob := rfl
@[simp] theorem State.setHandle_start (h : Nat) (x : Handle) : (s.setHandle h x).start = s.start := rfl
@[simp] theorem State.setHandle_cfg (h : Nat) (x : Handle) : (s.setHandle h x).cfg = s.cfg := rfl
@[simp] theorem State.setHandle_live (h : Nat) (x : Handle) : (s.setHandle h x).live = s.live := rfl
@[simp] theorem State.setHandle_parBad (h : Nat) (x : Handle) : (s.setHandle h x).parBad = s.parBad := rfl
@[simp] theorem State.setHandle_voteBad (h : Nat) (x : Handle) : (s.setHandle h x).voteBad = s.voteBad := rfl
@[simp] theorem State.setHandle_hold (h : Nat) (x : Handle) : (s.setHandle h x).hold = s.hold := rfl
@[simp] theorem State.setHandle_adm (h : Nat) (x : Handle) : (s.setHandle h x).adm = s.adm := rfl
@[simp] theorem State.setHandle_fields (h : Nat) (x : Handle) : (s.setHandle h x).fields = s.fields := rfl
@[simp] theorem State.setHandle_hbmc (h : Nat) (x : Handle) : (s.setHandle h x).hbmc = s.hbmc := rfl
@[simp] theorem State.setHandle_handles (h : Nat) (x : Handle) :
    (s.setHandle h x).handles = mput (fun _ => Handle.empty) s.handles h x := rfl
@[simp] theorem State.setHandle_loadsLast (h : Nat) (x : Handle) : (s.setHandle h x).loadsLast = s.loadsLast := rfl
@[simp] theorem State.setHandle_lateLast (h : Nat) (x : Handle) : (s.setHandle h x).lateLast = s.lateLast := rfl
@[simp] theorem State.setHandle_loads (h : Nat) (x : Handle) : (s.setHandle h x).loads = s.loads := rfl
@[simp] theorem State.setHandle_amus (h : Nat) (x : Handle) : (s.setHandle h x).amus = s.amus := rfl
@[simp] theorem State.setHandle_cores (h : Nat) (x : Handle) : (s.setHandle h x).cores = s.cores := rfl
@[simp] theorem State.setHandle_pools (h : Nat) (x : Handle) : (s.setHandle h x).pools = s.pools := rfl
@[simp] theorem State.setHandle_pipes (h : Nat) (x : Handle) : (s.setHandle h x).pipes = s.pipes := rfl
@[simp] theorem State.setHandle_digest (h : Nat) (x : Handle) : (s.setHandle h x).digest = s.digest := rfl
@[simp] theorem State.setHandle_seed (h : Nat) (x : Handle) : (s.setHandle h x).seed = s.seed := rfl
@[simp] theorem State.setHandle_keys (h : Nat) (x : Handle) : (s.setHandle h x).keys = s.keys := rfl
@[simp] theorem State.setHandle_insts (h : Nat) (x : Handle) : (s.setHandle h x).insts = s.insts := rfl
@[simp] theorem State.setHandle_intc (h : Nat) (x : Handle) : (s.setHandle h x).intc = s.intc := rfl
@[simp] theorem State.setHandle_tasks (h : Nat) (x : Handle) : (s.setHandle h x).tasks = s.tasks := rfl
@[simp] theorem State.setHandle_ctrl (h : Nat) (x : Handle) : (s.setHandle h x).ctrl = s.ctrl := rfl
@[simp] theorem State.setHandle_faults (h : Nat) (x : Handle) : (s.setHandle h x).faults = s.faults := rfl
@[simp] theorem State.setHandle_tamper (h : Nat) (x : Handle) : (s.setHandle h x).tamper = s.tamper := rfl
@[simp] theorem State.setHandle_backup (h : Nat) (x : Handle) : (s.setHandle h x).backup = s.backup := rfl
@[simp] theorem State.setHandle_life (h : Nat) (x : Handle) : (s.setHandle h x).life = s.life := rfl
@[simp] theorem State.setHandle_power (h : Nat) (x : Handle) : (s.setHandle h x).power = s.power := rfl
@[simp] theorem State.setHandle_commons (h : Nat) (x : Handle) : (s.setHandle h x).commons = s.commons := rfl
@[simp] theorem State.setHandle_hostif (h : Nat) (x : Handle) : (s.setHandle h x).hostif = s.hostif := rfl
@[simp] theorem State.setHandle_mirror (h : Nat) (x : Handle) : (s.setHandle h x).mirror = s.mirror := rfl
@[simp] theorem State.setHandle_hbm (h : Nat) (x : Handle) : (s.setHandle h x).hbm = s.hbm := rfl
@[simp] theorem State.setHandle_host (h : Nat) (x : Handle) : (s.setHandle h x).host = s.host := rfl
@[simp] theorem State.setHandle_free (h : Nat) (x : Handle) : (s.setHandle h x).free = s.free := rfl
@[simp] theorem State.setHandle_resp (h : Nat) (x : Handle) : (s.setHandle h x).resp = s.resp := rfl
@[simp] theorem State.setHandle_outbox (h : Nat) (x : Handle) : (s.setHandle h x).outbox = s.outbox := rfl
@[simp] theorem State.setHandle_pending (h : Nat) (x : Handle) : (s.setHandle h x).pending = s.pending := rfl

/-! ## modKeys -/

@[simp] theorem State.modKeys_glob (g : KeyStore → KeyStore) : (s.modKeys g).glob = s.glob := rfl
@[simp] theorem State.modKeys_start (g : KeyStore → KeyStore) : (s.modKeys g).start = s.start := rfl
@[simp] theorem State.modKeys_cfg (g : KeyStore → KeyStore) : (s.modKeys g).cfg = s.cfg := rfl
@[simp] theorem State.modKeys_live (g : KeyStore → KeyStore) : (s.modKeys g).live = s.live := rfl
@[simp] theorem State.modKeys_parBad (g : KeyStore → KeyStore) : (s.modKeys g).parBad = s.parBad := rfl
@[simp] theorem State.modKeys_voteBad (g : KeyStore → KeyStore) : (s.modKeys g).voteBad = s.voteBad := rfl
@[simp] theorem State.modKeys_hold (g : KeyStore → KeyStore) : (s.modKeys g).hold = s.hold := rfl
@[simp] theorem State.modKeys_adm (g : KeyStore → KeyStore) : (s.modKeys g).adm = s.adm := rfl
@[simp] theorem State.modKeys_fields (g : KeyStore → KeyStore) : (s.modKeys g).fields = s.fields := rfl
@[simp] theorem State.modKeys_hbmc (g : KeyStore → KeyStore) : (s.modKeys g).hbmc = s.hbmc := rfl
@[simp] theorem State.modKeys_handles (g : KeyStore → KeyStore) : (s.modKeys g).handles = s.handles := rfl
@[simp] theorem State.modKeys_loadsLast (g : KeyStore → KeyStore) : (s.modKeys g).loadsLast = s.loadsLast := rfl
@[simp] theorem State.modKeys_lateLast (g : KeyStore → KeyStore) : (s.modKeys g).lateLast = s.lateLast := rfl
@[simp] theorem State.modKeys_loads (g : KeyStore → KeyStore) : (s.modKeys g).loads = s.loads := rfl
@[simp] theorem State.modKeys_amus (g : KeyStore → KeyStore) : (s.modKeys g).amus = s.amus := rfl
@[simp] theorem State.modKeys_cores (g : KeyStore → KeyStore) : (s.modKeys g).cores = s.cores := rfl
@[simp] theorem State.modKeys_pools (g : KeyStore → KeyStore) : (s.modKeys g).pools = s.pools := rfl
@[simp] theorem State.modKeys_pipes (g : KeyStore → KeyStore) : (s.modKeys g).pipes = s.pipes := rfl
@[simp] theorem State.modKeys_digest (g : KeyStore → KeyStore) : (s.modKeys g).digest = s.digest := rfl
@[simp] theorem State.modKeys_seed (g : KeyStore → KeyStore) : (s.modKeys g).seed = s.seed := rfl
@[simp] theorem State.modKeys_keys (g : KeyStore → KeyStore) : (s.modKeys g).keys = g s.keys := rfl
@[simp] theorem State.modKeys_insts (g : KeyStore → KeyStore) : (s.modKeys g).insts = s.insts := rfl
@[simp] theorem State.modKeys_intc (g : KeyStore → KeyStore) : (s.modKeys g).intc = s.intc := rfl
@[simp] theorem State.modKeys_tasks (g : KeyStore → KeyStore) : (s.modKeys g).tasks = s.tasks := rfl
@[simp] theorem State.modKeys_ctrl (g : KeyStore → KeyStore) : (s.modKeys g).ctrl = s.ctrl := rfl
@[simp] theorem State.modKeys_faults (g : KeyStore → KeyStore) : (s.modKeys g).faults = s.faults := rfl
@[simp] theorem State.modKeys_tamper (g : KeyStore → KeyStore) : (s.modKeys g).tamper = s.tamper := rfl
@[simp] theorem State.modKeys_backup (g : KeyStore → KeyStore) : (s.modKeys g).backup = s.backup := rfl
@[simp] theorem State.modKeys_life (g : KeyStore → KeyStore) : (s.modKeys g).life = s.life := rfl
@[simp] theorem State.modKeys_power (g : KeyStore → KeyStore) : (s.modKeys g).power = s.power := rfl
@[simp] theorem State.modKeys_commons (g : KeyStore → KeyStore) : (s.modKeys g).commons = s.commons := rfl
@[simp] theorem State.modKeys_hostif (g : KeyStore → KeyStore) : (s.modKeys g).hostif = s.hostif := rfl
@[simp] theorem State.modKeys_mirror (g : KeyStore → KeyStore) : (s.modKeys g).mirror = s.mirror := rfl
@[simp] theorem State.modKeys_hbm (g : KeyStore → KeyStore) : (s.modKeys g).hbm = s.hbm := rfl
@[simp] theorem State.modKeys_host (g : KeyStore → KeyStore) : (s.modKeys g).host = s.host := rfl
@[simp] theorem State.modKeys_free (g : KeyStore → KeyStore) : (s.modKeys g).free = s.free := rfl
@[simp] theorem State.modKeys_resp (g : KeyStore → KeyStore) : (s.modKeys g).resp = s.resp := rfl
@[simp] theorem State.modKeys_outbox (g : KeyStore → KeyStore) : (s.modKeys g).outbox = s.outbox := rfl
@[simp] theorem State.modKeys_pending (g : KeyStore → KeyStore) : (s.modKeys g).pending = s.pending := rfl

/-! ## setSlot -/

@[simp] theorem State.setSlot_glob (k : Nat) (x : KSlot) : (s.setSlot k x).glob = s.glob := rfl
@[simp] theorem State.setSlot_start (k : Nat) (x : KSlot) : (s.setSlot k x).start = s.start := rfl
@[simp] theorem State.setSlot_cfg (k : Nat) (x : KSlot) : (s.setSlot k x).cfg = s.cfg := rfl
@[simp] theorem State.setSlot_live (k : Nat) (x : KSlot) : (s.setSlot k x).live = s.live := rfl
@[simp] theorem State.setSlot_parBad (k : Nat) (x : KSlot) : (s.setSlot k x).parBad = s.parBad := rfl
@[simp] theorem State.setSlot_voteBad (k : Nat) (x : KSlot) : (s.setSlot k x).voteBad = s.voteBad := rfl
@[simp] theorem State.setSlot_hold (k : Nat) (x : KSlot) : (s.setSlot k x).hold = s.hold := rfl
@[simp] theorem State.setSlot_adm (k : Nat) (x : KSlot) : (s.setSlot k x).adm = s.adm := rfl
@[simp] theorem State.setSlot_fields (k : Nat) (x : KSlot) : (s.setSlot k x).fields = s.fields := rfl
@[simp] theorem State.setSlot_hbmc (k : Nat) (x : KSlot) : (s.setSlot k x).hbmc = s.hbmc := rfl
@[simp] theorem State.setSlot_handles (k : Nat) (x : KSlot) : (s.setSlot k x).handles = s.handles := rfl
@[simp] theorem State.setSlot_loadsLast (k : Nat) (x : KSlot) : (s.setSlot k x).loadsLast = s.loadsLast := rfl
@[simp] theorem State.setSlot_lateLast (k : Nat) (x : KSlot) : (s.setSlot k x).lateLast = s.lateLast := rfl
@[simp] theorem State.setSlot_loads (k : Nat) (x : KSlot) : (s.setSlot k x).loads = s.loads := rfl
@[simp] theorem State.setSlot_amus (k : Nat) (x : KSlot) : (s.setSlot k x).amus = s.amus := rfl
@[simp] theorem State.setSlot_cores (k : Nat) (x : KSlot) : (s.setSlot k x).cores = s.cores := rfl
@[simp] theorem State.setSlot_pools (k : Nat) (x : KSlot) : (s.setSlot k x).pools = s.pools := rfl
@[simp] theorem State.setSlot_pipes (k : Nat) (x : KSlot) : (s.setSlot k x).pipes = s.pipes := rfl
@[simp] theorem State.setSlot_digest (k : Nat) (x : KSlot) : (s.setSlot k x).digest = s.digest := rfl
@[simp] theorem State.setSlot_seed (k : Nat) (x : KSlot) : (s.setSlot k x).seed = s.seed := rfl
@[simp] theorem State.setSlot_keys (k : Nat) (x : KSlot) :
    (s.setSlot k x).keys = { s.keys with slots := mput (fun _ => KSlot.empty) s.keys.slots k x } := rfl
@[simp] theorem State.setSlot_insts (k : Nat) (x : KSlot) : (s.setSlot k x).insts = s.insts := rfl
@[simp] theorem State.setSlot_intc (k : Nat) (x : KSlot) : (s.setSlot k x).intc = s.intc := rfl
@[simp] theorem State.setSlot_tasks (k : Nat) (x : KSlot) : (s.setSlot k x).tasks = s.tasks := rfl
@[simp] theorem State.setSlot_ctrl (k : Nat) (x : KSlot) : (s.setSlot k x).ctrl = s.ctrl := rfl
@[simp] theorem State.setSlot_faults (k : Nat) (x : KSlot) : (s.setSlot k x).faults = s.faults := rfl
@[simp] theorem State.setSlot_tamper (k : Nat) (x : KSlot) : (s.setSlot k x).tamper = s.tamper := rfl
@[simp] theorem State.setSlot_backup (k : Nat) (x : KSlot) : (s.setSlot k x).backup = s.backup := rfl
@[simp] theorem State.setSlot_life (k : Nat) (x : KSlot) : (s.setSlot k x).life = s.life := rfl
@[simp] theorem State.setSlot_power (k : Nat) (x : KSlot) : (s.setSlot k x).power = s.power := rfl
@[simp] theorem State.setSlot_commons (k : Nat) (x : KSlot) : (s.setSlot k x).commons = s.commons := rfl
@[simp] theorem State.setSlot_hostif (k : Nat) (x : KSlot) : (s.setSlot k x).hostif = s.hostif := rfl
@[simp] theorem State.setSlot_mirror (k : Nat) (x : KSlot) : (s.setSlot k x).mirror = s.mirror := rfl
@[simp] theorem State.setSlot_hbm (k : Nat) (x : KSlot) : (s.setSlot k x).hbm = s.hbm := rfl
@[simp] theorem State.setSlot_host (k : Nat) (x : KSlot) : (s.setSlot k x).host = s.host := rfl
@[simp] theorem State.setSlot_free (k : Nat) (x : KSlot) : (s.setSlot k x).free = s.free := rfl
@[simp] theorem State.setSlot_resp (k : Nat) (x : KSlot) : (s.setSlot k x).resp = s.resp := rfl
@[simp] theorem State.setSlot_outbox (k : Nat) (x : KSlot) : (s.setSlot k x).outbox = s.outbox := rfl
@[simp] theorem State.setSlot_pending (k : Nat) (x : KSlot) : (s.setSlot k x).pending = s.pending := rfl

/-! ## modSeed -/

@[simp] theorem State.modSeed_glob (g : Seedbank → Seedbank) : (s.modSeed g).glob = s.glob := rfl
@[simp] theorem State.modSeed_start (g : Seedbank → Seedbank) : (s.modSeed g).start = s.start := rfl
@[simp] theorem State.modSeed_cfg (g : Seedbank → Seedbank) : (s.modSeed g).cfg = s.cfg := rfl
@[simp] theorem State.modSeed_live (g : Seedbank → Seedbank) : (s.modSeed g).live = s.live := rfl
@[simp] theorem State.modSeed_parBad (g : Seedbank → Seedbank) : (s.modSeed g).parBad = s.parBad := rfl
@[simp] theorem State.modSeed_voteBad (g : Seedbank → Seedbank) : (s.modSeed g).voteBad = s.voteBad := rfl
@[simp] theorem State.modSeed_hold (g : Seedbank → Seedbank) : (s.modSeed g).hold = s.hold := rfl
@[simp] theorem State.modSeed_adm (g : Seedbank → Seedbank) : (s.modSeed g).adm = s.adm := rfl
@[simp] theorem State.modSeed_fields (g : Seedbank → Seedbank) : (s.modSeed g).fields = s.fields := rfl
@[simp] theorem State.modSeed_hbmc (g : Seedbank → Seedbank) : (s.modSeed g).hbmc = s.hbmc := rfl
@[simp] theorem State.modSeed_handles (g : Seedbank → Seedbank) : (s.modSeed g).handles = s.handles := rfl
@[simp] theorem State.modSeed_loadsLast (g : Seedbank → Seedbank) : (s.modSeed g).loadsLast = s.loadsLast := rfl
@[simp] theorem State.modSeed_lateLast (g : Seedbank → Seedbank) : (s.modSeed g).lateLast = s.lateLast := rfl
@[simp] theorem State.modSeed_loads (g : Seedbank → Seedbank) : (s.modSeed g).loads = s.loads := rfl
@[simp] theorem State.modSeed_amus (g : Seedbank → Seedbank) : (s.modSeed g).amus = s.amus := rfl
@[simp] theorem State.modSeed_cores (g : Seedbank → Seedbank) : (s.modSeed g).cores = s.cores := rfl
@[simp] theorem State.modSeed_pools (g : Seedbank → Seedbank) : (s.modSeed g).pools = s.pools := rfl
@[simp] theorem State.modSeed_pipes (g : Seedbank → Seedbank) : (s.modSeed g).pipes = s.pipes := rfl
@[simp] theorem State.modSeed_digest (g : Seedbank → Seedbank) : (s.modSeed g).digest = s.digest := rfl
@[simp] theorem State.modSeed_seed (g : Seedbank → Seedbank) : (s.modSeed g).seed = g s.seed := rfl
@[simp] theorem State.modSeed_keys (g : Seedbank → Seedbank) : (s.modSeed g).keys = s.keys := rfl
@[simp] theorem State.modSeed_insts (g : Seedbank → Seedbank) : (s.modSeed g).insts = s.insts := rfl
@[simp] theorem State.modSeed_intc (g : Seedbank → Seedbank) : (s.modSeed g).intc = s.intc := rfl
@[simp] theorem State.modSeed_tasks (g : Seedbank → Seedbank) : (s.modSeed g).tasks = s.tasks := rfl
@[simp] theorem State.modSeed_ctrl (g : Seedbank → Seedbank) : (s.modSeed g).ctrl = s.ctrl := rfl
@[simp] theorem State.modSeed_faults (g : Seedbank → Seedbank) : (s.modSeed g).faults = s.faults := rfl
@[simp] theorem State.modSeed_tamper (g : Seedbank → Seedbank) : (s.modSeed g).tamper = s.tamper := rfl
@[simp] theorem State.modSeed_backup (g : Seedbank → Seedbank) : (s.modSeed g).backup = s.backup := rfl
@[simp] theorem State.modSeed_life (g : Seedbank → Seedbank) : (s.modSeed g).life = s.life := rfl
@[simp] theorem State.modSeed_power (g : Seedbank → Seedbank) : (s.modSeed g).power = s.power := rfl
@[simp] theorem State.modSeed_commons (g : Seedbank → Seedbank) : (s.modSeed g).commons = s.commons := rfl
@[simp] theorem State.modSeed_hostif (g : Seedbank → Seedbank) : (s.modSeed g).hostif = s.hostif := rfl
@[simp] theorem State.modSeed_mirror (g : Seedbank → Seedbank) : (s.modSeed g).mirror = s.mirror := rfl
@[simp] theorem State.modSeed_hbm (g : Seedbank → Seedbank) : (s.modSeed g).hbm = s.hbm := rfl
@[simp] theorem State.modSeed_host (g : Seedbank → Seedbank) : (s.modSeed g).host = s.host := rfl
@[simp] theorem State.modSeed_free (g : Seedbank → Seedbank) : (s.modSeed g).free = s.free := rfl
@[simp] theorem State.modSeed_resp (g : Seedbank → Seedbank) : (s.modSeed g).resp = s.resp := rfl
@[simp] theorem State.modSeed_outbox (g : Seedbank → Seedbank) : (s.modSeed g).outbox = s.outbox := rfl
@[simp] theorem State.modSeed_pending (g : Seedbank → Seedbank) : (s.modSeed g).pending = s.pending := rfl

/-! ## setStream -/

@[simp] theorem State.setStream_glob (k : Nat) (x : Stream) : (s.setStream k x).glob = s.glob := rfl
@[simp] theorem State.setStream_start (k : Nat) (x : Stream) : (s.setStream k x).start = s.start := rfl
@[simp] theorem State.setStream_cfg (k : Nat) (x : Stream) : (s.setStream k x).cfg = s.cfg := rfl
@[simp] theorem State.setStream_live (k : Nat) (x : Stream) : (s.setStream k x).live = s.live := rfl
@[simp] theorem State.setStream_parBad (k : Nat) (x : Stream) : (s.setStream k x).parBad = s.parBad := rfl
@[simp] theorem State.setStream_voteBad (k : Nat) (x : Stream) : (s.setStream k x).voteBad = s.voteBad := rfl
@[simp] theorem State.setStream_hold (k : Nat) (x : Stream) : (s.setStream k x).hold = s.hold := rfl
@[simp] theorem State.setStream_adm (k : Nat) (x : Stream) : (s.setStream k x).adm = s.adm := rfl
@[simp] theorem State.setStream_fields (k : Nat) (x : Stream) : (s.setStream k x).fields = s.fields := rfl
@[simp] theorem State.setStream_hbmc (k : Nat) (x : Stream) : (s.setStream k x).hbmc = s.hbmc := rfl
@[simp] theorem State.setStream_handles (k : Nat) (x : Stream) : (s.setStream k x).handles = s.handles := rfl
@[simp] theorem State.setStream_loadsLast (k : Nat) (x : Stream) : (s.setStream k x).loadsLast = s.loadsLast := rfl
@[simp] theorem State.setStream_lateLast (k : Nat) (x : Stream) : (s.setStream k x).lateLast = s.lateLast := rfl
@[simp] theorem State.setStream_loads (k : Nat) (x : Stream) : (s.setStream k x).loads = s.loads := rfl
@[simp] theorem State.setStream_amus (k : Nat) (x : Stream) : (s.setStream k x).amus = s.amus := rfl
@[simp] theorem State.setStream_cores (k : Nat) (x : Stream) : (s.setStream k x).cores = s.cores := rfl
@[simp] theorem State.setStream_pools (k : Nat) (x : Stream) : (s.setStream k x).pools = s.pools := rfl
@[simp] theorem State.setStream_pipes (k : Nat) (x : Stream) : (s.setStream k x).pipes = s.pipes := rfl
@[simp] theorem State.setStream_digest (k : Nat) (x : Stream) : (s.setStream k x).digest = s.digest := rfl
@[simp] theorem State.setStream_seed (k : Nat) (x : Stream) :
    (s.setStream k x).seed = { s.seed with streams := mput (fun _ => Stream.init) s.seed.streams k x } := rfl
@[simp] theorem State.setStream_keys (k : Nat) (x : Stream) : (s.setStream k x).keys = s.keys := rfl
@[simp] theorem State.setStream_insts (k : Nat) (x : Stream) : (s.setStream k x).insts = s.insts := rfl
@[simp] theorem State.setStream_intc (k : Nat) (x : Stream) : (s.setStream k x).intc = s.intc := rfl
@[simp] theorem State.setStream_tasks (k : Nat) (x : Stream) : (s.setStream k x).tasks = s.tasks := rfl
@[simp] theorem State.setStream_ctrl (k : Nat) (x : Stream) : (s.setStream k x).ctrl = s.ctrl := rfl
@[simp] theorem State.setStream_faults (k : Nat) (x : Stream) : (s.setStream k x).faults = s.faults := rfl
@[simp] theorem State.setStream_tamper (k : Nat) (x : Stream) : (s.setStream k x).tamper = s.tamper := rfl
@[simp] theorem State.setStream_backup (k : Nat) (x : Stream) : (s.setStream k x).backup = s.backup := rfl
@[simp] theorem State.setStream_life (k : Nat) (x : Stream) : (s.setStream k x).life = s.life := rfl
@[simp] theorem State.setStream_power (k : Nat) (x : Stream) : (s.setStream k x).power = s.power := rfl
@[simp] theorem State.setStream_commons (k : Nat) (x : Stream) : (s.setStream k x).commons = s.commons := rfl
@[simp] theorem State.setStream_hostif (k : Nat) (x : Stream) : (s.setStream k x).hostif = s.hostif := rfl
@[simp] theorem State.setStream_mirror (k : Nat) (x : Stream) : (s.setStream k x).mirror = s.mirror := rfl
@[simp] theorem State.setStream_hbm (k : Nat) (x : Stream) : (s.setStream k x).hbm = s.hbm := rfl
@[simp] theorem State.setStream_host (k : Nat) (x : Stream) : (s.setStream k x).host = s.host := rfl
@[simp] theorem State.setStream_free (k : Nat) (x : Stream) : (s.setStream k x).free = s.free := rfl
@[simp] theorem State.setStream_resp (k : Nat) (x : Stream) : (s.setStream k x).resp = s.resp := rfl
@[simp] theorem State.setStream_outbox (k : Nat) (x : Stream) : (s.setStream k x).outbox = s.outbox := rfl
@[simp] theorem State.setStream_pending (k : Nat) (x : Stream) : (s.setStream k x).pending = s.pending := rfl

/-! ## setTd -/

@[simp] theorem State.setTd_glob (t : Nat) (x : Td) : (s.setTd t x).glob = s.glob := rfl
@[simp] theorem State.setTd_start (t : Nat) (x : Td) : (s.setTd t x).start = s.start := rfl
@[simp] theorem State.setTd_cfg (t : Nat) (x : Td) : (s.setTd t x).cfg = s.cfg := rfl
@[simp] theorem State.setTd_live (t : Nat) (x : Td) : (s.setTd t x).live = s.live := rfl
@[simp] theorem State.setTd_parBad (t : Nat) (x : Td) : (s.setTd t x).parBad = s.parBad := rfl
@[simp] theorem State.setTd_voteBad (t : Nat) (x : Td) : (s.setTd t x).voteBad = s.voteBad := rfl
@[simp] theorem State.setTd_hold (t : Nat) (x : Td) : (s.setTd t x).hold = s.hold := rfl
@[simp] theorem State.setTd_adm (t : Nat) (x : Td) : (s.setTd t x).adm = s.adm := rfl
@[simp] theorem State.setTd_fields (t : Nat) (x : Td) : (s.setTd t x).fields = s.fields := rfl
@[simp] theorem State.setTd_hbmc (t : Nat) (x : Td) : (s.setTd t x).hbmc = s.hbmc := rfl
@[simp] theorem State.setTd_handles (t : Nat) (x : Td) : (s.setTd t x).handles = s.handles := rfl
@[simp] theorem State.setTd_loadsLast (t : Nat) (x : Td) : (s.setTd t x).loadsLast = s.loadsLast := rfl
@[simp] theorem State.setTd_lateLast (t : Nat) (x : Td) : (s.setTd t x).lateLast = s.lateLast := rfl
@[simp] theorem State.setTd_loads (t : Nat) (x : Td) : (s.setTd t x).loads = s.loads := rfl
@[simp] theorem State.setTd_amus (t : Nat) (x : Td) : (s.setTd t x).amus = s.amus := rfl
@[simp] theorem State.setTd_cores (t : Nat) (x : Td) : (s.setTd t x).cores = s.cores := rfl
@[simp] theorem State.setTd_pools (t : Nat) (x : Td) : (s.setTd t x).pools = s.pools := rfl
@[simp] theorem State.setTd_pipes (t : Nat) (x : Td) : (s.setTd t x).pipes = s.pipes := rfl
@[simp] theorem State.setTd_digest (t : Nat) (x : Td) : (s.setTd t x).digest = s.digest := rfl
@[simp] theorem State.setTd_seed (t : Nat) (x : Td) : (s.setTd t x).seed = s.seed := rfl
@[simp] theorem State.setTd_keys (t : Nat) (x : Td) : (s.setTd t x).keys = s.keys := rfl
@[simp] theorem State.setTd_insts (t : Nat) (x : Td) : (s.setTd t x).insts = s.insts := rfl
@[simp] theorem State.setTd_intc (t : Nat) (x : Td) : (s.setTd t x).intc = s.intc := rfl
@[simp] theorem State.setTd_tasks (t : Nat) (x : Td) :
    (s.setTd t x).tasks = { s.tasks with tds := mput (fun _ => Td.init) s.tasks.tds t x } := rfl
@[simp] theorem State.setTd_ctrl (t : Nat) (x : Td) : (s.setTd t x).ctrl = s.ctrl := rfl
@[simp] theorem State.setTd_faults (t : Nat) (x : Td) : (s.setTd t x).faults = s.faults := rfl
@[simp] theorem State.setTd_tamper (t : Nat) (x : Td) : (s.setTd t x).tamper = s.tamper := rfl
@[simp] theorem State.setTd_backup (t : Nat) (x : Td) : (s.setTd t x).backup = s.backup := rfl
@[simp] theorem State.setTd_life (t : Nat) (x : Td) : (s.setTd t x).life = s.life := rfl
@[simp] theorem State.setTd_power (t : Nat) (x : Td) : (s.setTd t x).power = s.power := rfl
@[simp] theorem State.setTd_commons (t : Nat) (x : Td) : (s.setTd t x).commons = s.commons := rfl
@[simp] theorem State.setTd_hostif (t : Nat) (x : Td) : (s.setTd t x).hostif = s.hostif := rfl
@[simp] theorem State.setTd_mirror (t : Nat) (x : Td) : (s.setTd t x).mirror = s.mirror := rfl
@[simp] theorem State.setTd_hbm (t : Nat) (x : Td) : (s.setTd t x).hbm = s.hbm := rfl
@[simp] theorem State.setTd_host (t : Nat) (x : Td) : (s.setTd t x).host = s.host := rfl
@[simp] theorem State.setTd_free (t : Nat) (x : Td) : (s.setTd t x).free = s.free := rfl
@[simp] theorem State.setTd_resp (t : Nat) (x : Td) : (s.setTd t x).resp = s.resp := rfl
@[simp] theorem State.setTd_outbox (t : Nat) (x : Td) : (s.setTd t x).outbox = s.outbox := rfl
@[simp] theorem State.setTd_pending (t : Nat) (x : Td) : (s.setTd t x).pending = s.pending := rfl

/-! ## setList -/

@[simp] theorem State.setList_glob (p : Nat) (l : List Nat) : (s.setList p l).glob = s.glob := rfl
@[simp] theorem State.setList_start (p : Nat) (l : List Nat) : (s.setList p l).start = s.start := rfl
@[simp] theorem State.setList_cfg (p : Nat) (l : List Nat) : (s.setList p l).cfg = s.cfg := rfl
@[simp] theorem State.setList_live (p : Nat) (l : List Nat) : (s.setList p l).live = s.live := rfl
@[simp] theorem State.setList_parBad (p : Nat) (l : List Nat) : (s.setList p l).parBad = s.parBad := rfl
@[simp] theorem State.setList_voteBad (p : Nat) (l : List Nat) : (s.setList p l).voteBad = s.voteBad := rfl
@[simp] theorem State.setList_hold (p : Nat) (l : List Nat) : (s.setList p l).hold = s.hold := rfl
@[simp] theorem State.setList_adm (p : Nat) (l : List Nat) : (s.setList p l).adm = s.adm := rfl
@[simp] theorem State.setList_fields (p : Nat) (l : List Nat) : (s.setList p l).fields = s.fields := rfl
@[simp] theorem State.setList_hbmc (p : Nat) (l : List Nat) : (s.setList p l).hbmc = s.hbmc := rfl
@[simp] theorem State.setList_handles (p : Nat) (l : List Nat) : (s.setList p l).handles = s.handles := rfl
@[simp] theorem State.setList_loadsLast (p : Nat) (l : List Nat) : (s.setList p l).loadsLast = s.loadsLast := rfl
@[simp] theorem State.setList_lateLast (p : Nat) (l : List Nat) : (s.setList p l).lateLast = s.lateLast := rfl
@[simp] theorem State.setList_loads (p : Nat) (l : List Nat) : (s.setList p l).loads = s.loads := rfl
@[simp] theorem State.setList_amus (p : Nat) (l : List Nat) : (s.setList p l).amus = s.amus := rfl
@[simp] theorem State.setList_cores (p : Nat) (l : List Nat) : (s.setList p l).cores = s.cores := rfl
@[simp] theorem State.setList_pools (p : Nat) (l : List Nat) : (s.setList p l).pools = s.pools := rfl
@[simp] theorem State.setList_pipes (p : Nat) (l : List Nat) : (s.setList p l).pipes = s.pipes := rfl
@[simp] theorem State.setList_digest (p : Nat) (l : List Nat) : (s.setList p l).digest = s.digest := rfl
@[simp] theorem State.setList_seed (p : Nat) (l : List Nat) : (s.setList p l).seed = s.seed := rfl
@[simp] theorem State.setList_keys (p : Nat) (l : List Nat) : (s.setList p l).keys = s.keys := rfl
@[simp] theorem State.setList_insts (p : Nat) (l : List Nat) : (s.setList p l).insts = s.insts := rfl
@[simp] theorem State.setList_intc (p : Nat) (l : List Nat) : (s.setList p l).intc = s.intc := rfl
@[simp] theorem State.setList_tasks (p : Nat) (l : List Nat) :
    (s.setList p l).tasks = { s.tasks with lists := mput (fun _ => []) s.tasks.lists p l } := rfl
@[simp] theorem State.setList_ctrl (p : Nat) (l : List Nat) : (s.setList p l).ctrl = s.ctrl := rfl
@[simp] theorem State.setList_faults (p : Nat) (l : List Nat) : (s.setList p l).faults = s.faults := rfl
@[simp] theorem State.setList_tamper (p : Nat) (l : List Nat) : (s.setList p l).tamper = s.tamper := rfl
@[simp] theorem State.setList_backup (p : Nat) (l : List Nat) : (s.setList p l).backup = s.backup := rfl
@[simp] theorem State.setList_life (p : Nat) (l : List Nat) : (s.setList p l).life = s.life := rfl
@[simp] theorem State.setList_power (p : Nat) (l : List Nat) : (s.setList p l).power = s.power := rfl
@[simp] theorem State.setList_commons (p : Nat) (l : List Nat) : (s.setList p l).commons = s.commons := rfl
@[simp] theorem State.setList_hostif (p : Nat) (l : List Nat) : (s.setList p l).hostif = s.hostif := rfl
@[simp] theorem State.setList_mirror (p : Nat) (l : List Nat) : (s.setList p l).mirror = s.mirror := rfl
@[simp] theorem State.setList_hbm (p : Nat) (l : List Nat) : (s.setList p l).hbm = s.hbm := rfl
@[simp] theorem State.setList_host (p : Nat) (l : List Nat) : (s.setList p l).host = s.host := rfl
@[simp] theorem State.setList_free (p : Nat) (l : List Nat) : (s.setList p l).free = s.free := rfl
@[simp] theorem State.setList_resp (p : Nat) (l : List Nat) : (s.setList p l).resp = s.resp := rfl
@[simp] theorem State.setList_outbox (p : Nat) (l : List Nat) : (s.setList p l).outbox = s.outbox := rfl
@[simp] theorem State.setList_pending (p : Nat) (l : List Nat) : (s.setList p l).pending = s.pending := rfl

/-! ## setRunning -/

@[simp] theorem State.setRunning_glob (c : Nat) (l : List Nat) : (s.setRunning c l).glob = s.glob := rfl
@[simp] theorem State.setRunning_start (c : Nat) (l : List Nat) : (s.setRunning c l).start = s.start := rfl
@[simp] theorem State.setRunning_cfg (c : Nat) (l : List Nat) : (s.setRunning c l).cfg = s.cfg := rfl
@[simp] theorem State.setRunning_live (c : Nat) (l : List Nat) : (s.setRunning c l).live = s.live := rfl
@[simp] theorem State.setRunning_parBad (c : Nat) (l : List Nat) : (s.setRunning c l).parBad = s.parBad := rfl
@[simp] theorem State.setRunning_voteBad (c : Nat) (l : List Nat) : (s.setRunning c l).voteBad = s.voteBad := rfl
@[simp] theorem State.setRunning_hold (c : Nat) (l : List Nat) : (s.setRunning c l).hold = s.hold := rfl
@[simp] theorem State.setRunning_adm (c : Nat) (l : List Nat) : (s.setRunning c l).adm = s.adm := rfl
@[simp] theorem State.setRunning_fields (c : Nat) (l : List Nat) : (s.setRunning c l).fields = s.fields := rfl
@[simp] theorem State.setRunning_hbmc (c : Nat) (l : List Nat) : (s.setRunning c l).hbmc = s.hbmc := rfl
@[simp] theorem State.setRunning_handles (c : Nat) (l : List Nat) : (s.setRunning c l).handles = s.handles := rfl
@[simp] theorem State.setRunning_loadsLast (c : Nat) (l : List Nat) : (s.setRunning c l).loadsLast = s.loadsLast := rfl
@[simp] theorem State.setRunning_lateLast (c : Nat) (l : List Nat) : (s.setRunning c l).lateLast = s.lateLast := rfl
@[simp] theorem State.setRunning_loads (c : Nat) (l : List Nat) : (s.setRunning c l).loads = s.loads := rfl
@[simp] theorem State.setRunning_amus (c : Nat) (l : List Nat) : (s.setRunning c l).amus = s.amus := rfl
@[simp] theorem State.setRunning_cores (c : Nat) (l : List Nat) : (s.setRunning c l).cores = s.cores := rfl
@[simp] theorem State.setRunning_pools (c : Nat) (l : List Nat) : (s.setRunning c l).pools = s.pools := rfl
@[simp] theorem State.setRunning_pipes (c : Nat) (l : List Nat) : (s.setRunning c l).pipes = s.pipes := rfl
@[simp] theorem State.setRunning_digest (c : Nat) (l : List Nat) : (s.setRunning c l).digest = s.digest := rfl
@[simp] theorem State.setRunning_seed (c : Nat) (l : List Nat) : (s.setRunning c l).seed = s.seed := rfl
@[simp] theorem State.setRunning_keys (c : Nat) (l : List Nat) : (s.setRunning c l).keys = s.keys := rfl
@[simp] theorem State.setRunning_insts (c : Nat) (l : List Nat) : (s.setRunning c l).insts = s.insts := rfl
@[simp] theorem State.setRunning_intc (c : Nat) (l : List Nat) : (s.setRunning c l).intc = s.intc := rfl
@[simp] theorem State.setRunning_tasks (c : Nat) (l : List Nat) :
    (s.setRunning c l).tasks = { s.tasks with running := mput (fun _ => []) s.tasks.running c l } := rfl
@[simp] theorem State.setRunning_ctrl (c : Nat) (l : List Nat) : (s.setRunning c l).ctrl = s.ctrl := rfl
@[simp] theorem State.setRunning_faults (c : Nat) (l : List Nat) : (s.setRunning c l).faults = s.faults := rfl
@[simp] theorem State.setRunning_tamper (c : Nat) (l : List Nat) : (s.setRunning c l).tamper = s.tamper := rfl
@[simp] theorem State.setRunning_backup (c : Nat) (l : List Nat) : (s.setRunning c l).backup = s.backup := rfl
@[simp] theorem State.setRunning_life (c : Nat) (l : List Nat) : (s.setRunning c l).life = s.life := rfl
@[simp] theorem State.setRunning_power (c : Nat) (l : List Nat) : (s.setRunning c l).power = s.power := rfl
@[simp] theorem State.setRunning_commons (c : Nat) (l : List Nat) : (s.setRunning c l).commons = s.commons := rfl
@[simp] theorem State.setRunning_hostif (c : Nat) (l : List Nat) : (s.setRunning c l).hostif = s.hostif := rfl
@[simp] theorem State.setRunning_mirror (c : Nat) (l : List Nat) : (s.setRunning c l).mirror = s.mirror := rfl
@[simp] theorem State.setRunning_hbm (c : Nat) (l : List Nat) : (s.setRunning c l).hbm = s.hbm := rfl
@[simp] theorem State.setRunning_host (c : Nat) (l : List Nat) : (s.setRunning c l).host = s.host := rfl
@[simp] theorem State.setRunning_free (c : Nat) (l : List Nat) : (s.setRunning c l).free = s.free := rfl
@[simp] theorem State.setRunning_resp (c : Nat) (l : List Nat) : (s.setRunning c l).resp = s.resp := rfl
@[simp] theorem State.setRunning_outbox (c : Nat) (l : List Nat) : (s.setRunning c l).outbox = s.outbox := rfl
@[simp] theorem State.setRunning_pending (c : Nat) (l : List Nat) : (s.setRunning c l).pending = s.pending := rfl

/-! ## setStack -/

@[simp] theorem State.setStack_glob (t : Nat) (l : List (Nat × Nat)) : (s.setStack t l).glob = s.glob := rfl
@[simp] theorem State.setStack_start (t : Nat) (l : List (Nat × Nat)) : (s.setStack t l).start = s.start := rfl
@[simp] theorem State.setStack_cfg (t : Nat) (l : List (Nat × Nat)) : (s.setStack t l).cfg = s.cfg := rfl
@[simp] theorem State.setStack_live (t : Nat) (l : List (Nat × Nat)) : (s.setStack t l).live = s.live := rfl
@[simp] theorem State.setStack_parBad (t : Nat) (l : List (Nat × Nat)) : (s.setStack t l).parBad = s.parBad := rfl
@[simp] theorem State.setStack_voteBad (t : Nat) (l : List (Nat × Nat)) : (s.setStack t l).voteBad = s.voteBad := rfl
@[simp] theorem State.setStack_hold (t : Nat) (l : List (Nat × Nat)) : (s.setStack t l).hold = s.hold := rfl
@[simp] theorem State.setStack_adm (t : Nat) (l : List (Nat × Nat)) : (s.setStack t l).adm = s.adm := rfl
@[simp] theorem State.setStack_fields (t : Nat) (l : List (Nat × Nat)) : (s.setStack t l).fields = s.fields := rfl
@[simp] theorem State.setStack_hbmc (t : Nat) (l : List (Nat × Nat)) : (s.setStack t l).hbmc = s.hbmc := rfl
@[simp] theorem State.setStack_handles (t : Nat) (l : List (Nat × Nat)) : (s.setStack t l).handles = s.handles := rfl
@[simp] theorem State.setStack_loadsLast (t : Nat) (l : List (Nat × Nat)) : (s.setStack t l).loadsLast = s.loadsLast := rfl
@[simp] theorem State.setStack_lateLast (t : Nat) (l : List (Nat × Nat)) : (s.setStack t l).lateLast = s.lateLast := rfl
@[simp] theorem State.setStack_loads (t : Nat) (l : List (Nat × Nat)) : (s.setStack t l).loads = s.loads := rfl
@[simp] theorem State.setStack_amus (t : Nat) (l : List (Nat × Nat)) : (s.setStack t l).amus = s.amus := rfl
@[simp] theorem State.setStack_cores (t : Nat) (l : List (Nat × Nat)) : (s.setStack t l).cores = s.cores := rfl
@[simp] theorem State.setStack_pools (t : Nat) (l : List (Nat × Nat)) : (s.setStack t l).pools = s.pools := rfl
@[simp] theorem State.setStack_pipes (t : Nat) (l : List (Nat × Nat)) : (s.setStack t l).pipes = s.pipes := rfl
@[simp] theorem State.setStack_digest (t : Nat) (l : List (Nat × Nat)) : (s.setStack t l).digest = s.digest := rfl
@[simp] theorem State.setStack_seed (t : Nat) (l : List (Nat × Nat)) : (s.setStack t l).seed = s.seed := rfl
@[simp] theorem State.setStack_keys (t : Nat) (l : List (Nat × Nat)) : (s.setStack t l).keys = s.keys := rfl
@[simp] theorem State.setStack_insts (t : Nat) (l : List (Nat × Nat)) : (s.setStack t l).insts = s.insts := rfl
@[simp] theorem State.setStack_intc (t : Nat) (l : List (Nat × Nat)) :
    (s.setStack t l).intc = { s.intc with stk := mput (fun _ => []) s.intc.stk t l } := rfl
@[simp] theorem State.setStack_tasks (t : Nat) (l : List (Nat × Nat)) : (s.setStack t l).tasks = s.tasks := rfl
@[simp] theorem State.setStack_ctrl (t : Nat) (l : List (Nat × Nat)) : (s.setStack t l).ctrl = s.ctrl := rfl
@[simp] theorem State.setStack_faults (t : Nat) (l : List (Nat × Nat)) : (s.setStack t l).faults = s.faults := rfl
@[simp] theorem State.setStack_tamper (t : Nat) (l : List (Nat × Nat)) : (s.setStack t l).tamper = s.tamper := rfl
@[simp] theorem State.setStack_backup (t : Nat) (l : List (Nat × Nat)) : (s.setStack t l).backup = s.backup := rfl
@[simp] theorem State.setStack_life (t : Nat) (l : List (Nat × Nat)) : (s.setStack t l).life = s.life := rfl
@[simp] theorem State.setStack_power (t : Nat) (l : List (Nat × Nat)) : (s.setStack t l).power = s.power := rfl
@[simp] theorem State.setStack_commons (t : Nat) (l : List (Nat × Nat)) : (s.setStack t l).commons = s.commons := rfl
@[simp] theorem State.setStack_hostif (t : Nat) (l : List (Nat × Nat)) : (s.setStack t l).hostif = s.hostif := rfl
@[simp] theorem State.setStack_mirror (t : Nat) (l : List (Nat × Nat)) : (s.setStack t l).mirror = s.mirror := rfl
@[simp] theorem State.setStack_hbm (t : Nat) (l : List (Nat × Nat)) : (s.setStack t l).hbm = s.hbm := rfl
@[simp] theorem State.setStack_host (t : Nat) (l : List (Nat × Nat)) : (s.setStack t l).host = s.host := rfl
@[simp] theorem State.setStack_free (t : Nat) (l : List (Nat × Nat)) : (s.setStack t l).free = s.free := rfl
@[simp] theorem State.setStack_resp (t : Nat) (l : List (Nat × Nat)) : (s.setStack t l).resp = s.resp := rfl
@[simp] theorem State.setStack_outbox (t : Nat) (l : List (Nat × Nat)) : (s.setStack t l).outbox = s.outbox := rfl
@[simp] theorem State.setStack_pending (t : Nat) (l : List (Nat × Nat)) : (s.setStack t l).pending = s.pending := rfl

/-! ## unpend -/

@[simp] theorem State.unpend_glob (n : Nat) : (s.unpend n).glob = s.glob := rfl
@[simp] theorem State.unpend_start (n : Nat) : (s.unpend n).start = s.start := rfl
@[simp] theorem State.unpend_cfg (n : Nat) : (s.unpend n).cfg = s.cfg := rfl
@[simp] theorem State.unpend_live (n : Nat) : (s.unpend n).live = s.live := rfl
@[simp] theorem State.unpend_parBad (n : Nat) : (s.unpend n).parBad = s.parBad := rfl
@[simp] theorem State.unpend_voteBad (n : Nat) : (s.unpend n).voteBad = s.voteBad := rfl
@[simp] theorem State.unpend_hold (n : Nat) : (s.unpend n).hold = s.hold := rfl
@[simp] theorem State.unpend_adm (n : Nat) : (s.unpend n).adm = s.adm := rfl
@[simp] theorem State.unpend_fields (n : Nat) : (s.unpend n).fields = s.fields := rfl
@[simp] theorem State.unpend_hbmc (n : Nat) : (s.unpend n).hbmc = s.hbmc := rfl
@[simp] theorem State.unpend_handles (n : Nat) : (s.unpend n).handles = s.handles := rfl
@[simp] theorem State.unpend_loadsLast (n : Nat) : (s.unpend n).loadsLast = s.loadsLast := rfl
@[simp] theorem State.unpend_lateLast (n : Nat) : (s.unpend n).lateLast = s.lateLast := rfl
@[simp] theorem State.unpend_loads (n : Nat) : (s.unpend n).loads = s.loads := rfl
@[simp] theorem State.unpend_amus (n : Nat) : (s.unpend n).amus = s.amus := rfl
@[simp] theorem State.unpend_cores (n : Nat) : (s.unpend n).cores = s.cores := rfl
@[simp] theorem State.unpend_pools (n : Nat) : (s.unpend n).pools = s.pools := rfl
@[simp] theorem State.unpend_pipes (n : Nat) : (s.unpend n).pipes = s.pipes := rfl
@[simp] theorem State.unpend_digest (n : Nat) : (s.unpend n).digest = s.digest := rfl
@[simp] theorem State.unpend_seed (n : Nat) : (s.unpend n).seed = s.seed := rfl
@[simp] theorem State.unpend_keys (n : Nat) : (s.unpend n).keys = s.keys := rfl
@[simp] theorem State.unpend_insts (n : Nat) : (s.unpend n).insts = s.insts := rfl
@[simp] theorem State.unpend_intc (n : Nat) :
    (s.unpend n).intc = { s.intc with pend := s.intc.pend.filter (· != n), assigned := cput s.intc.assigned n 0 } := rfl
@[simp] theorem State.unpend_tasks (n : Nat) : (s.unpend n).tasks = s.tasks := rfl
@[simp] theorem State.unpend_ctrl (n : Nat) : (s.unpend n).ctrl = s.ctrl := rfl
@[simp] theorem State.unpend_faults (n : Nat) : (s.unpend n).faults = s.faults := rfl
@[simp] theorem State.unpend_tamper (n : Nat) : (s.unpend n).tamper = s.tamper := rfl
@[simp] theorem State.unpend_backup (n : Nat) : (s.unpend n).backup = s.backup := rfl
@[simp] theorem State.unpend_life (n : Nat) : (s.unpend n).life = s.life := rfl
@[simp] theorem State.unpend_power (n : Nat) : (s.unpend n).power = s.power := rfl
@[simp] theorem State.unpend_commons (n : Nat) : (s.unpend n).commons = s.commons := rfl
@[simp] theorem State.unpend_hostif (n : Nat) : (s.unpend n).hostif = s.hostif := rfl
@[simp] theorem State.unpend_mirror (n : Nat) : (s.unpend n).mirror = s.mirror := rfl
@[simp] theorem State.unpend_hbm (n : Nat) : (s.unpend n).hbm = s.hbm := rfl
@[simp] theorem State.unpend_host (n : Nat) : (s.unpend n).host = s.host := rfl
@[simp] theorem State.unpend_free (n : Nat) : (s.unpend n).free = s.free := rfl
@[simp] theorem State.unpend_resp (n : Nat) : (s.unpend n).resp = s.resp := rfl
@[simp] theorem State.unpend_outbox (n : Nat) : (s.unpend n).outbox = s.outbox := rfl
@[simp] theorem State.unpend_pending (n : Nat) : (s.unpend n).pending = s.pending := rfl

/-! ## modCommons -/

@[simp] theorem State.modCommons_glob (g : Commons → Commons) : (s.modCommons g).glob = s.glob := rfl
@[simp] theorem State.modCommons_start (g : Commons → Commons) : (s.modCommons g).start = s.start := rfl
@[simp] theorem State.modCommons_cfg (g : Commons → Commons) : (s.modCommons g).cfg = s.cfg := rfl
@[simp] theorem State.modCommons_live (g : Commons → Commons) : (s.modCommons g).live = s.live := rfl
@[simp] theorem State.modCommons_parBad (g : Commons → Commons) : (s.modCommons g).parBad = s.parBad := rfl
@[simp] theorem State.modCommons_voteBad (g : Commons → Commons) : (s.modCommons g).voteBad = s.voteBad := rfl
@[simp] theorem State.modCommons_hold (g : Commons → Commons) : (s.modCommons g).hold = s.hold := rfl
@[simp] theorem State.modCommons_adm (g : Commons → Commons) : (s.modCommons g).adm = s.adm := rfl
@[simp] theorem State.modCommons_fields (g : Commons → Commons) : (s.modCommons g).fields = s.fields := rfl
@[simp] theorem State.modCommons_hbmc (g : Commons → Commons) : (s.modCommons g).hbmc = s.hbmc := rfl
@[simp] theorem State.modCommons_handles (g : Commons → Commons) : (s.modCommons g).handles = s.handles := rfl
@[simp] theorem State.modCommons_loadsLast (g : Commons → Commons) : (s.modCommons g).loadsLast = s.loadsLast := rfl
@[simp] theorem State.modCommons_lateLast (g : Commons → Commons) : (s.modCommons g).lateLast = s.lateLast := rfl
@[simp] theorem State.modCommons_loads (g : Commons → Commons) : (s.modCommons g).loads = s.loads := rfl
@[simp] theorem State.modCommons_amus (g : Commons → Commons) : (s.modCommons g).amus = s.amus := rfl
@[simp] theorem State.modCommons_cores (g : Commons → Commons) : (s.modCommons g).cores = s.cores := rfl
@[simp] theorem State.modCommons_pools (g : Commons → Commons) : (s.modCommons g).pools = s.pools := rfl
@[simp] theorem State.modCommons_pipes (g : Commons → Commons) : (s.modCommons g).pipes = s.pipes := rfl
@[simp] theorem State.modCommons_digest (g : Commons → Commons) : (s.modCommons g).digest = s.digest := rfl
@[simp] theorem State.modCommons_seed (g : Commons → Commons) : (s.modCommons g).seed = s.seed := rfl
@[simp] theorem State.modCommons_keys (g : Commons → Commons) : (s.modCommons g).keys = s.keys := rfl
@[simp] theorem State.modCommons_insts (g : Commons → Commons) : (s.modCommons g).insts = s.insts := rfl
@[simp] theorem State.modCommons_intc (g : Commons → Commons) : (s.modCommons g).intc = s.intc := rfl
@[simp] theorem State.modCommons_tasks (g : Commons → Commons) : (s.modCommons g).tasks = s.tasks := rfl
@[simp] theorem State.modCommons_ctrl (g : Commons → Commons) : (s.modCommons g).ctrl = s.ctrl := rfl
@[simp] theorem State.modCommons_faults (g : Commons → Commons) : (s.modCommons g).faults = s.faults := rfl
@[simp] theorem State.modCommons_tamper (g : Commons → Commons) : (s.modCommons g).tamper = s.tamper := rfl
@[simp] theorem State.modCommons_backup (g : Commons → Commons) : (s.modCommons g).backup = s.backup := rfl
@[simp] theorem State.modCommons_life (g : Commons → Commons) : (s.modCommons g).life = s.life := rfl
@[simp] theorem State.modCommons_power (g : Commons → Commons) : (s.modCommons g).power = s.power := rfl
@[simp] theorem State.modCommons_commons (g : Commons → Commons) : (s.modCommons g).commons = g s.commons := rfl
@[simp] theorem State.modCommons_hostif (g : Commons → Commons) : (s.modCommons g).hostif = s.hostif := rfl
@[simp] theorem State.modCommons_mirror (g : Commons → Commons) : (s.modCommons g).mirror = s.mirror := rfl
@[simp] theorem State.modCommons_hbm (g : Commons → Commons) : (s.modCommons g).hbm = s.hbm := rfl
@[simp] theorem State.modCommons_host (g : Commons → Commons) : (s.modCommons g).host = s.host := rfl
@[simp] theorem State.modCommons_free (g : Commons → Commons) : (s.modCommons g).free = s.free := rfl
@[simp] theorem State.modCommons_resp (g : Commons → Commons) : (s.modCommons g).resp = s.resp := rfl
@[simp] theorem State.modCommons_outbox (g : Commons → Commons) : (s.modCommons g).outbox = s.outbox := rfl
@[simp] theorem State.modCommons_pending (g : Commons → Commons) : (s.modCommons g).pending = s.pending := rfl

/-! ## setPeer -/

@[simp] theorem State.setPeer_glob (m : Nat) (x : Peer) : (s.setPeer m x).glob = s.glob := rfl
@[simp] theorem State.setPeer_start (m : Nat) (x : Peer) : (s.setPeer m x).start = s.start := rfl
@[simp] theorem State.setPeer_cfg (m : Nat) (x : Peer) : (s.setPeer m x).cfg = s.cfg := rfl
@[simp] theorem State.setPeer_live (m : Nat) (x : Peer) : (s.setPeer m x).live = s.live := rfl
@[simp] theorem State.setPeer_parBad (m : Nat) (x : Peer) : (s.setPeer m x).parBad = s.parBad := rfl
@[simp] theorem State.setPeer_voteBad (m : Nat) (x : Peer) : (s.setPeer m x).voteBad = s.voteBad := rfl
@[simp] theorem State.setPeer_hold (m : Nat) (x : Peer) : (s.setPeer m x).hold = s.hold := rfl
@[simp] theorem State.setPeer_adm (m : Nat) (x : Peer) : (s.setPeer m x).adm = s.adm := rfl
@[simp] theorem State.setPeer_fields (m : Nat) (x : Peer) : (s.setPeer m x).fields = s.fields := rfl
@[simp] theorem State.setPeer_hbmc (m : Nat) (x : Peer) : (s.setPeer m x).hbmc = s.hbmc := rfl
@[simp] theorem State.setPeer_handles (m : Nat) (x : Peer) : (s.setPeer m x).handles = s.handles := rfl
@[simp] theorem State.setPeer_loadsLast (m : Nat) (x : Peer) : (s.setPeer m x).loadsLast = s.loadsLast := rfl
@[simp] theorem State.setPeer_lateLast (m : Nat) (x : Peer) : (s.setPeer m x).lateLast = s.lateLast := rfl
@[simp] theorem State.setPeer_loads (m : Nat) (x : Peer) : (s.setPeer m x).loads = s.loads := rfl
@[simp] theorem State.setPeer_amus (m : Nat) (x : Peer) : (s.setPeer m x).amus = s.amus := rfl
@[simp] theorem State.setPeer_cores (m : Nat) (x : Peer) : (s.setPeer m x).cores = s.cores := rfl
@[simp] theorem State.setPeer_pools (m : Nat) (x : Peer) : (s.setPeer m x).pools = s.pools := rfl
@[simp] theorem State.setPeer_pipes (m : Nat) (x : Peer) : (s.setPeer m x).pipes = s.pipes := rfl
@[simp] theorem State.setPeer_digest (m : Nat) (x : Peer) : (s.setPeer m x).digest = s.digest := rfl
@[simp] theorem State.setPeer_seed (m : Nat) (x : Peer) : (s.setPeer m x).seed = s.seed := rfl
@[simp] theorem State.setPeer_keys (m : Nat) (x : Peer) : (s.setPeer m x).keys = s.keys := rfl
@[simp] theorem State.setPeer_insts (m : Nat) (x : Peer) : (s.setPeer m x).insts = s.insts := rfl
@[simp] theorem State.setPeer_intc (m : Nat) (x : Peer) : (s.setPeer m x).intc = s.intc := rfl
@[simp] theorem State.setPeer_tasks (m : Nat) (x : Peer) : (s.setPeer m x).tasks = s.tasks := rfl
@[simp] theorem State.setPeer_ctrl (m : Nat) (x : Peer) : (s.setPeer m x).ctrl = s.ctrl := rfl
@[simp] theorem State.setPeer_faults (m : Nat) (x : Peer) : (s.setPeer m x).faults = s.faults := rfl
@[simp] theorem State.setPeer_tamper (m : Nat) (x : Peer) : (s.setPeer m x).tamper = s.tamper := rfl
@[simp] theorem State.setPeer_backup (m : Nat) (x : Peer) : (s.setPeer m x).backup = s.backup := rfl
@[simp] theorem State.setPeer_life (m : Nat) (x : Peer) : (s.setPeer m x).life = s.life := rfl
@[simp] theorem State.setPeer_power (m : Nat) (x : Peer) : (s.setPeer m x).power = s.power := rfl
@[simp] theorem State.setPeer_commons (m : Nat) (x : Peer) :
    (s.setPeer m x).commons = { s.commons with peers := mput (fun _ => Peer.init) s.commons.peers m x } := rfl
@[simp] theorem State.setPeer_hostif (m : Nat) (x : Peer) : (s.setPeer m x).hostif = s.hostif := rfl
@[simp] theorem State.setPeer_mirror (m : Nat) (x : Peer) : (s.setPeer m x).mirror = s.mirror := rfl
@[simp] theorem State.setPeer_hbm (m : Nat) (x : Peer) : (s.setPeer m x).hbm = s.hbm := rfl
@[simp] theorem State.setPeer_host (m : Nat) (x : Peer) : (s.setPeer m x).host = s.host := rfl
@[simp] theorem State.setPeer_free (m : Nat) (x : Peer) : (s.setPeer m x).free = s.free := rfl
@[simp] theorem State.setPeer_resp (m : Nat) (x : Peer) : (s.setPeer m x).resp = s.resp := rfl
@[simp] theorem State.setPeer_outbox (m : Nat) (x : Peer) : (s.setPeer m x).outbox = s.outbox := rfl
@[simp] theorem State.setPeer_pending (m : Nat) (x : Peer) : (s.setPeer m x).pending = s.pending := rfl

/-! ## setInSlot -/

@[simp] theorem State.setInSlot_glob (k : Nat) (x : SlotSt) : (s.setInSlot k x).glob = s.glob := rfl
@[simp] theorem State.setInSlot_start (k : Nat) (x : SlotSt) : (s.setInSlot k x).start = s.start := rfl
@[simp] theorem State.setInSlot_cfg (k : Nat) (x : SlotSt) : (s.setInSlot k x).cfg = s.cfg := rfl
@[simp] theorem State.setInSlot_live (k : Nat) (x : SlotSt) : (s.setInSlot k x).live = s.live := rfl
@[simp] theorem State.setInSlot_parBad (k : Nat) (x : SlotSt) : (s.setInSlot k x).parBad = s.parBad := rfl
@[simp] theorem State.setInSlot_voteBad (k : Nat) (x : SlotSt) : (s.setInSlot k x).voteBad = s.voteBad := rfl
@[simp] theorem State.setInSlot_hold (k : Nat) (x : SlotSt) : (s.setInSlot k x).hold = s.hold := rfl
@[simp] theorem State.setInSlot_adm (k : Nat) (x : SlotSt) : (s.setInSlot k x).adm = s.adm := rfl
@[simp] theorem State.setInSlot_fields (k : Nat) (x : SlotSt) : (s.setInSlot k x).fields = s.fields := rfl
@[simp] theorem State.setInSlot_hbmc (k : Nat) (x : SlotSt) : (s.setInSlot k x).hbmc = s.hbmc := rfl
@[simp] theorem State.setInSlot_handles (k : Nat) (x : SlotSt) : (s.setInSlot k x).handles = s.handles := rfl
@[simp] theorem State.setInSlot_loadsLast (k : Nat) (x : SlotSt) : (s.setInSlot k x).loadsLast = s.loadsLast := rfl
@[simp] theorem State.setInSlot_lateLast (k : Nat) (x : SlotSt) : (s.setInSlot k x).lateLast = s.lateLast := rfl
@[simp] theorem State.setInSlot_loads (k : Nat) (x : SlotSt) : (s.setInSlot k x).loads = s.loads := rfl
@[simp] theorem State.setInSlot_amus (k : Nat) (x : SlotSt) : (s.setInSlot k x).amus = s.amus := rfl
@[simp] theorem State.setInSlot_cores (k : Nat) (x : SlotSt) : (s.setInSlot k x).cores = s.cores := rfl
@[simp] theorem State.setInSlot_pools (k : Nat) (x : SlotSt) : (s.setInSlot k x).pools = s.pools := rfl
@[simp] theorem State.setInSlot_pipes (k : Nat) (x : SlotSt) : (s.setInSlot k x).pipes = s.pipes := rfl
@[simp] theorem State.setInSlot_digest (k : Nat) (x : SlotSt) : (s.setInSlot k x).digest = s.digest := rfl
@[simp] theorem State.setInSlot_seed (k : Nat) (x : SlotSt) : (s.setInSlot k x).seed = s.seed := rfl
@[simp] theorem State.setInSlot_keys (k : Nat) (x : SlotSt) : (s.setInSlot k x).keys = s.keys := rfl
@[simp] theorem State.setInSlot_insts (k : Nat) (x : SlotSt) : (s.setInSlot k x).insts = s.insts := rfl
@[simp] theorem State.setInSlot_intc (k : Nat) (x : SlotSt) : (s.setInSlot k x).intc = s.intc := rfl
@[simp] theorem State.setInSlot_tasks (k : Nat) (x : SlotSt) : (s.setInSlot k x).tasks = s.tasks := rfl
@[simp] theorem State.setInSlot_ctrl (k : Nat) (x : SlotSt) : (s.setInSlot k x).ctrl = s.ctrl := rfl
@[simp] theorem State.setInSlot_faults (k : Nat) (x : SlotSt) : (s.setInSlot k x).faults = s.faults := rfl
@[simp] theorem State.setInSlot_tamper (k : Nat) (x : SlotSt) : (s.setInSlot k x).tamper = s.tamper := rfl
@[simp] theorem State.setInSlot_backup (k : Nat) (x : SlotSt) : (s.setInSlot k x).backup = s.backup := rfl
@[simp] theorem State.setInSlot_life (k : Nat) (x : SlotSt) : (s.setInSlot k x).life = s.life := rfl
@[simp] theorem State.setInSlot_power (k : Nat) (x : SlotSt) : (s.setInSlot k x).power = s.power := rfl
@[simp] theorem State.setInSlot_commons (k : Nat) (x : SlotSt) :
    (s.setInSlot k x).commons = { s.commons with slots := mput (fun _ => SlotSt.init) s.commons.slots k x } := rfl
@[simp] theorem State.setInSlot_hostif (k : Nat) (x : SlotSt) : (s.setInSlot k x).hostif = s.hostif := rfl
@[simp] theorem State.setInSlot_mirror (k : Nat) (x : SlotSt) : (s.setInSlot k x).mirror = s.mirror := rfl
@[simp] theorem State.setInSlot_hbm (k : Nat) (x : SlotSt) : (s.setInSlot k x).hbm = s.hbm := rfl
@[simp] theorem State.setInSlot_host (k : Nat) (x : SlotSt) : (s.setInSlot k x).host = s.host := rfl
@[simp] theorem State.setInSlot_free (k : Nat) (x : SlotSt) : (s.setInSlot k x).free = s.free := rfl
@[simp] theorem State.setInSlot_resp (k : Nat) (x : SlotSt) : (s.setInSlot k x).resp = s.resp := rfl
@[simp] theorem State.setInSlot_outbox (k : Nat) (x : SlotSt) : (s.setInSlot k x).outbox = s.outbox := rfl
@[simp] theorem State.setInSlot_pending (k : Nat) (x : SlotSt) : (s.setInSlot k x).pending = s.pending := rfl

/-! ## modCJobs -/

@[simp] theorem State.modCJobs_glob (g : CJob → CJob) : (s.modCJobs g).glob = s.glob := rfl
@[simp] theorem State.modCJobs_start (g : CJob → CJob) : (s.modCJobs g).start = s.start := rfl
@[simp] theorem State.modCJobs_cfg (g : CJob → CJob) : (s.modCJobs g).cfg = s.cfg := rfl
@[simp] theorem State.modCJobs_live (g : CJob → CJob) : (s.modCJobs g).live = s.live := rfl
@[simp] theorem State.modCJobs_parBad (g : CJob → CJob) : (s.modCJobs g).parBad = s.parBad := rfl
@[simp] theorem State.modCJobs_voteBad (g : CJob → CJob) : (s.modCJobs g).voteBad = s.voteBad := rfl
@[simp] theorem State.modCJobs_hold (g : CJob → CJob) : (s.modCJobs g).hold = s.hold := rfl
@[simp] theorem State.modCJobs_adm (g : CJob → CJob) : (s.modCJobs g).adm = s.adm := rfl
@[simp] theorem State.modCJobs_fields (g : CJob → CJob) : (s.modCJobs g).fields = s.fields := rfl
@[simp] theorem State.modCJobs_hbmc (g : CJob → CJob) : (s.modCJobs g).hbmc = s.hbmc := rfl
@[simp] theorem State.modCJobs_handles (g : CJob → CJob) : (s.modCJobs g).handles = s.handles := rfl
@[simp] theorem State.modCJobs_loadsLast (g : CJob → CJob) : (s.modCJobs g).loadsLast = s.loadsLast := rfl
@[simp] theorem State.modCJobs_lateLast (g : CJob → CJob) : (s.modCJobs g).lateLast = s.lateLast := rfl
@[simp] theorem State.modCJobs_loads (g : CJob → CJob) : (s.modCJobs g).loads = s.loads := rfl
@[simp] theorem State.modCJobs_amus (g : CJob → CJob) : (s.modCJobs g).amus = s.amus := rfl
@[simp] theorem State.modCJobs_cores (g : CJob → CJob) : (s.modCJobs g).cores = s.cores := rfl
@[simp] theorem State.modCJobs_pools (g : CJob → CJob) : (s.modCJobs g).pools = s.pools := rfl
@[simp] theorem State.modCJobs_pipes (g : CJob → CJob) : (s.modCJobs g).pipes = s.pipes := rfl
@[simp] theorem State.modCJobs_digest (g : CJob → CJob) : (s.modCJobs g).digest = s.digest := rfl
@[simp] theorem State.modCJobs_seed (g : CJob → CJob) : (s.modCJobs g).seed = s.seed := rfl
@[simp] theorem State.modCJobs_keys (g : CJob → CJob) : (s.modCJobs g).keys = s.keys := rfl
@[simp] theorem State.modCJobs_insts (g : CJob → CJob) : (s.modCJobs g).insts = s.insts := rfl
@[simp] theorem State.modCJobs_intc (g : CJob → CJob) : (s.modCJobs g).intc = s.intc := rfl
@[simp] theorem State.modCJobs_tasks (g : CJob → CJob) : (s.modCJobs g).tasks = s.tasks := rfl
@[simp] theorem State.modCJobs_ctrl (g : CJob → CJob) : (s.modCJobs g).ctrl = s.ctrl := rfl
@[simp] theorem State.modCJobs_faults (g : CJob → CJob) : (s.modCJobs g).faults = s.faults := rfl
@[simp] theorem State.modCJobs_tamper (g : CJob → CJob) : (s.modCJobs g).tamper = s.tamper := rfl
@[simp] theorem State.modCJobs_backup (g : CJob → CJob) : (s.modCJobs g).backup = s.backup := rfl
@[simp] theorem State.modCJobs_life (g : CJob → CJob) : (s.modCJobs g).life = s.life := rfl
@[simp] theorem State.modCJobs_power (g : CJob → CJob) : (s.modCJobs g).power = s.power := rfl
@[simp] theorem State.modCJobs_commons (g : CJob → CJob) :
    (s.modCJobs g).commons = { s.commons with cjobs := s.commons.cjobs.map g } := rfl
@[simp] theorem State.modCJobs_hostif (g : CJob → CJob) : (s.modCJobs g).hostif = s.hostif := rfl
@[simp] theorem State.modCJobs_mirror (g : CJob → CJob) : (s.modCJobs g).mirror = s.mirror := rfl
@[simp] theorem State.modCJobs_hbm (g : CJob → CJob) : (s.modCJobs g).hbm = s.hbm := rfl
@[simp] theorem State.modCJobs_host (g : CJob → CJob) : (s.modCJobs g).host = s.host := rfl
@[simp] theorem State.modCJobs_free (g : CJob → CJob) : (s.modCJobs g).free = s.free := rfl
@[simp] theorem State.modCJobs_resp (g : CJob → CJob) : (s.modCJobs g).resp = s.resp := rfl
@[simp] theorem State.modCJobs_outbox (g : CJob → CJob) : (s.modCJobs g).outbox = s.outbox := rfl
@[simp] theorem State.modCJobs_pending (g : CJob → CJob) : (s.modCJobs g).pending = s.pending := rfl

/-! ## modJob -/

@[simp] theorem State.modJob_glob (id : Nat) (g : Job → Job) : (s.modJob id g).glob = s.glob := rfl
@[simp] theorem State.modJob_start (id : Nat) (g : Job → Job) : (s.modJob id g).start = s.start := rfl
@[simp] theorem State.modJob_cfg (id : Nat) (g : Job → Job) : (s.modJob id g).cfg = s.cfg := rfl
@[simp] theorem State.modJob_live (id : Nat) (g : Job → Job) : (s.modJob id g).live = s.live := rfl
@[simp] theorem State.modJob_parBad (id : Nat) (g : Job → Job) : (s.modJob id g).parBad = s.parBad := rfl
@[simp] theorem State.modJob_voteBad (id : Nat) (g : Job → Job) : (s.modJob id g).voteBad = s.voteBad := rfl
@[simp] theorem State.modJob_hold (id : Nat) (g : Job → Job) : (s.modJob id g).hold = s.hold := rfl
@[simp] theorem State.modJob_adm (id : Nat) (g : Job → Job) :
    (s.modJob id g).adm = { s.adm with jobs := s.adm.jobs.map (fun j => if j.id = id then g j else j) } := rfl
@[simp] theorem State.modJob_fields (id : Nat) (g : Job → Job) : (s.modJob id g).fields = s.fields := rfl
@[simp] theorem State.modJob_hbmc (id : Nat) (g : Job → Job) : (s.modJob id g).hbmc = s.hbmc := rfl
@[simp] theorem State.modJob_handles (id : Nat) (g : Job → Job) : (s.modJob id g).handles = s.handles := rfl
@[simp] theorem State.modJob_loadsLast (id : Nat) (g : Job → Job) : (s.modJob id g).loadsLast = s.loadsLast := rfl
@[simp] theorem State.modJob_lateLast (id : Nat) (g : Job → Job) : (s.modJob id g).lateLast = s.lateLast := rfl
@[simp] theorem State.modJob_loads (id : Nat) (g : Job → Job) : (s.modJob id g).loads = s.loads := rfl
@[simp] theorem State.modJob_amus (id : Nat) (g : Job → Job) : (s.modJob id g).amus = s.amus := rfl
@[simp] theorem State.modJob_cores (id : Nat) (g : Job → Job) : (s.modJob id g).cores = s.cores := rfl
@[simp] theorem State.modJob_pools (id : Nat) (g : Job → Job) : (s.modJob id g).pools = s.pools := rfl
@[simp] theorem State.modJob_pipes (id : Nat) (g : Job → Job) : (s.modJob id g).pipes = s.pipes := rfl
@[simp] theorem State.modJob_digest (id : Nat) (g : Job → Job) : (s.modJob id g).digest = s.digest := rfl
@[simp] theorem State.modJob_seed (id : Nat) (g : Job → Job) : (s.modJob id g).seed = s.seed := rfl
@[simp] theorem State.modJob_keys (id : Nat) (g : Job → Job) : (s.modJob id g).keys = s.keys := rfl
@[simp] theorem State.modJob_insts (id : Nat) (g : Job → Job) : (s.modJob id g).insts = s.insts := rfl
@[simp] theorem State.modJob_intc (id : Nat) (g : Job → Job) : (s.modJob id g).intc = s.intc := rfl
@[simp] theorem State.modJob_tasks (id : Nat) (g : Job → Job) : (s.modJob id g).tasks = s.tasks := rfl
@[simp] theorem State.modJob_ctrl (id : Nat) (g : Job → Job) : (s.modJob id g).ctrl = s.ctrl := rfl
@[simp] theorem State.modJob_faults (id : Nat) (g : Job → Job) : (s.modJob id g).faults = s.faults := rfl
@[simp] theorem State.modJob_tamper (id : Nat) (g : Job → Job) : (s.modJob id g).tamper = s.tamper := rfl
@[simp] theorem State.modJob_backup (id : Nat) (g : Job → Job) : (s.modJob id g).backup = s.backup := rfl
@[simp] theorem State.modJob_life (id : Nat) (g : Job → Job) : (s.modJob id g).life = s.life := rfl
@[simp] theorem State.modJob_power (id : Nat) (g : Job → Job) : (s.modJob id g).power = s.power := rfl
@[simp] theorem State.modJob_commons (id : Nat) (g : Job → Job) : (s.modJob id g).commons = s.commons := rfl
@[simp] theorem State.modJob_hostif (id : Nat) (g : Job → Job) : (s.modJob id g).hostif = s.hostif := rfl
@[simp] theorem State.modJob_mirror (id : Nat) (g : Job → Job) : (s.modJob id g).mirror = s.mirror := rfl
@[simp] theorem State.modJob_hbm (id : Nat) (g : Job → Job) : (s.modJob id g).hbm = s.hbm := rfl
@[simp] theorem State.modJob_host (id : Nat) (g : Job → Job) : (s.modJob id g).host = s.host := rfl
@[simp] theorem State.modJob_free (id : Nat) (g : Job → Job) : (s.modJob id g).free = s.free := rfl
@[simp] theorem State.modJob_resp (id : Nat) (g : Job → Job) : (s.modJob id g).resp = s.resp := rfl
@[simp] theorem State.modJob_outbox (id : Nat) (g : Job → Job) : (s.modJob id g).outbox = s.outbox := rfl
@[simp] theorem State.modJob_pending (id : Nat) (g : Job → Job) : (s.modJob id g).pending = s.pending := rfl

/-! ## modJobs -/

@[simp] theorem State.modJobs_glob (g : Job → Job) : (s.modJobs g).glob = s.glob := rfl
@[simp] theorem State.modJobs_start (g : Job → Job) : (s.modJobs g).start = s.start := rfl
@[simp] theorem State.modJobs_cfg (g : Job → Job) : (s.modJobs g).cfg = s.cfg := rfl
@[simp] theorem State.modJobs_live (g : Job → Job) : (s.modJobs g).live = s.live := rfl
@[simp] theorem State.modJobs_parBad (g : Job → Job) : (s.modJobs g).parBad = s.parBad := rfl
@[simp] theorem State.modJobs_voteBad (g : Job → Job) : (s.modJobs g).voteBad = s.voteBad := rfl
@[simp] theorem State.modJobs_hold (g : Job → Job) : (s.modJobs g).hold = s.hold := rfl
@[simp] theorem State.modJobs_adm (g : Job → Job) : (s.modJobs g).adm = { s.adm with jobs := s.adm.jobs.map g } := rfl
@[simp] theorem State.modJobs_fields (g : Job → Job) : (s.modJobs g).fields = s.fields := rfl
@[simp] theorem State.modJobs_hbmc (g : Job → Job) : (s.modJobs g).hbmc = s.hbmc := rfl
@[simp] theorem State.modJobs_handles (g : Job → Job) : (s.modJobs g).handles = s.handles := rfl
@[simp] theorem State.modJobs_loadsLast (g : Job → Job) : (s.modJobs g).loadsLast = s.loadsLast := rfl
@[simp] theorem State.modJobs_lateLast (g : Job → Job) : (s.modJobs g).lateLast = s.lateLast := rfl
@[simp] theorem State.modJobs_loads (g : Job → Job) : (s.modJobs g).loads = s.loads := rfl
@[simp] theorem State.modJobs_amus (g : Job → Job) : (s.modJobs g).amus = s.amus := rfl
@[simp] theorem State.modJobs_cores (g : Job → Job) : (s.modJobs g).cores = s.cores := rfl
@[simp] theorem State.modJobs_pools (g : Job → Job) : (s.modJobs g).pools = s.pools := rfl
@[simp] theorem State.modJobs_pipes (g : Job → Job) : (s.modJobs g).pipes = s.pipes := rfl
@[simp] theorem State.modJobs_digest (g : Job → Job) : (s.modJobs g).digest = s.digest := rfl
@[simp] theorem State.modJobs_seed (g : Job → Job) : (s.modJobs g).seed = s.seed := rfl
@[simp] theorem State.modJobs_keys (g : Job → Job) : (s.modJobs g).keys = s.keys := rfl
@[simp] theorem State.modJobs_insts (g : Job → Job) : (s.modJobs g).insts = s.insts := rfl
@[simp] theorem State.modJobs_intc (g : Job → Job) : (s.modJobs g).intc = s.intc := rfl
@[simp] theorem State.modJobs_tasks (g : Job → Job) : (s.modJobs g).tasks = s.tasks := rfl
@[simp] theorem State.modJobs_ctrl (g : Job → Job) : (s.modJobs g).ctrl = s.ctrl := rfl
@[simp] theorem State.modJobs_faults (g : Job → Job) : (s.modJobs g).faults = s.faults := rfl
@[simp] theorem State.modJobs_tamper (g : Job → Job) : (s.modJobs g).tamper = s.tamper := rfl
@[simp] theorem State.modJobs_backup (g : Job → Job) : (s.modJobs g).backup = s.backup := rfl
@[simp] theorem State.modJobs_life (g : Job → Job) : (s.modJobs g).life = s.life := rfl
@[simp] theorem State.modJobs_power (g : Job → Job) : (s.modJobs g).power = s.power := rfl
@[simp] theorem State.modJobs_commons (g : Job → Job) : (s.modJobs g).commons = s.commons := rfl
@[simp] theorem State.modJobs_hostif (g : Job → Job) : (s.modJobs g).hostif = s.hostif := rfl
@[simp] theorem State.modJobs_mirror (g : Job → Job) : (s.modJobs g).mirror = s.mirror := rfl
@[simp] theorem State.modJobs_hbm (g : Job → Job) : (s.modJobs g).hbm = s.hbm := rfl
@[simp] theorem State.modJobs_host (g : Job → Job) : (s.modJobs g).host = s.host := rfl
@[simp] theorem State.modJobs_free (g : Job → Job) : (s.modJobs g).free = s.free := rfl
@[simp] theorem State.modJobs_resp (g : Job → Job) : (s.modJobs g).resp = s.resp := rfl
@[simp] theorem State.modJobs_outbox (g : Job → Job) : (s.modJobs g).outbox = s.outbox := rfl
@[simp] theorem State.modJobs_pending (g : Job → Job) : (s.modJobs g).pending = s.pending := rfl

/-! ## sweepJobs -/

@[simp] theorem State.sweepJobs_glob : s.sweepJobs.glob = s.glob := rfl
@[simp] theorem State.sweepJobs_start : s.sweepJobs.start = s.start := rfl
@[simp] theorem State.sweepJobs_cfg : s.sweepJobs.cfg = s.cfg := rfl
@[simp] theorem State.sweepJobs_live : s.sweepJobs.live = s.live := rfl
@[simp] theorem State.sweepJobs_parBad : s.sweepJobs.parBad = s.parBad := rfl
@[simp] theorem State.sweepJobs_voteBad : s.sweepJobs.voteBad = s.voteBad := rfl
@[simp] theorem State.sweepJobs_hold : s.sweepJobs.hold = s.hold := rfl
@[simp] theorem State.sweepJobs_adm :
    s.sweepJobs.adm = { s.adm with jobs := s.adm.jobs.filter (fun j => !j.recorded || j.relPend) } := rfl
@[simp] theorem State.sweepJobs_fields : s.sweepJobs.fields = s.fields := rfl
@[simp] theorem State.sweepJobs_hbmc : s.sweepJobs.hbmc = s.hbmc := rfl
@[simp] theorem State.sweepJobs_handles : s.sweepJobs.handles = s.handles := rfl
@[simp] theorem State.sweepJobs_loadsLast : s.sweepJobs.loadsLast = s.loadsLast := rfl
@[simp] theorem State.sweepJobs_lateLast : s.sweepJobs.lateLast = s.lateLast := rfl
@[simp] theorem State.sweepJobs_loads : s.sweepJobs.loads = s.loads := rfl
@[simp] theorem State.sweepJobs_amus : s.sweepJobs.amus = s.amus := rfl
@[simp] theorem State.sweepJobs_cores : s.sweepJobs.cores = s.cores := rfl
@[simp] theorem State.sweepJobs_pools : s.sweepJobs.pools = s.pools := rfl
@[simp] theorem State.sweepJobs_pipes : s.sweepJobs.pipes = s.pipes := rfl
@[simp] theorem State.sweepJobs_digest : s.sweepJobs.digest = s.digest := rfl
@[simp] theorem State.sweepJobs_seed : s.sweepJobs.seed = s.seed := rfl
@[simp] theorem State.sweepJobs_keys : s.sweepJobs.keys = s.keys := rfl
@[simp] theorem State.sweepJobs_insts : s.sweepJobs.insts = s.insts := rfl
@[simp] theorem State.sweepJobs_intc : s.sweepJobs.intc = s.intc := rfl
@[simp] theorem State.sweepJobs_tasks : s.sweepJobs.tasks = s.tasks := rfl
@[simp] theorem State.sweepJobs_ctrl : s.sweepJobs.ctrl = s.ctrl := rfl
@[simp] theorem State.sweepJobs_faults : s.sweepJobs.faults = s.faults := rfl
@[simp] theorem State.sweepJobs_tamper : s.sweepJobs.tamper = s.tamper := rfl
@[simp] theorem State.sweepJobs_backup : s.sweepJobs.backup = s.backup := rfl
@[simp] theorem State.sweepJobs_life : s.sweepJobs.life = s.life := rfl
@[simp] theorem State.sweepJobs_power : s.sweepJobs.power = s.power := rfl
@[simp] theorem State.sweepJobs_commons : s.sweepJobs.commons = s.commons := rfl
@[simp] theorem State.sweepJobs_hostif : s.sweepJobs.hostif = s.hostif := rfl
@[simp] theorem State.sweepJobs_mirror : s.sweepJobs.mirror = s.mirror := rfl
@[simp] theorem State.sweepJobs_hbm : s.sweepJobs.hbm = s.hbm := rfl
@[simp] theorem State.sweepJobs_host : s.sweepJobs.host = s.host := rfl
@[simp] theorem State.sweepJobs_free : s.sweepJobs.free = s.free := rfl
@[simp] theorem State.sweepJobs_resp : s.sweepJobs.resp = s.resp := rfl
@[simp] theorem State.sweepJobs_outbox : s.sweepJobs.outbox = s.outbox := rfl
@[simp] theorem State.sweepJobs_pending : s.sweepJobs.pending = s.pending := rfl

/-! ## setRow -/

@[simp] theorem State.setRow_glob (r : Nat) (x : Row) : (s.setRow r x).glob = s.glob := rfl
@[simp] theorem State.setRow_start (r : Nat) (x : Row) : (s.setRow r x).start = s.start := rfl
@[simp] theorem State.setRow_cfg (r : Nat) (x : Row) : (s.setRow r x).cfg = s.cfg := rfl
@[simp] theorem State.setRow_live (r : Nat) (x : Row) : (s.setRow r x).live = s.live := rfl
@[simp] theorem State.setRow_parBad (r : Nat) (x : Row) : (s.setRow r x).parBad = s.parBad := rfl
@[simp] theorem State.setRow_voteBad (r : Nat) (x : Row) : (s.setRow r x).voteBad = s.voteBad := rfl
@[simp] theorem State.setRow_hold (r : Nat) (x : Row) : (s.setRow r x).hold = s.hold := rfl
@[simp] theorem State.setRow_adm (r : Nat) (x : Row) :
    (s.setRow r x).adm = { s.adm with cal := mput Row.init s.adm.cal r x } := rfl
@[simp] theorem State.setRow_fields (r : Nat) (x : Row) : (s.setRow r x).fields = s.fields := rfl
@[simp] theorem State.setRow_hbmc (r : Nat) (x : Row) : (s.setRow r x).hbmc = s.hbmc := rfl
@[simp] theorem State.setRow_handles (r : Nat) (x : Row) : (s.setRow r x).handles = s.handles := rfl
@[simp] theorem State.setRow_loadsLast (r : Nat) (x : Row) : (s.setRow r x).loadsLast = s.loadsLast := rfl
@[simp] theorem State.setRow_lateLast (r : Nat) (x : Row) : (s.setRow r x).lateLast = s.lateLast := rfl
@[simp] theorem State.setRow_loads (r : Nat) (x : Row) : (s.setRow r x).loads = s.loads := rfl
@[simp] theorem State.setRow_amus (r : Nat) (x : Row) : (s.setRow r x).amus = s.amus := rfl
@[simp] theorem State.setRow_cores (r : Nat) (x : Row) : (s.setRow r x).cores = s.cores := rfl
@[simp] theorem State.setRow_pools (r : Nat) (x : Row) : (s.setRow r x).pools = s.pools := rfl
@[simp] theorem State.setRow_pipes (r : Nat) (x : Row) : (s.setRow r x).pipes = s.pipes := rfl
@[simp] theorem State.setRow_digest (r : Nat) (x : Row) : (s.setRow r x).digest = s.digest := rfl
@[simp] theorem State.setRow_seed (r : Nat) (x : Row) : (s.setRow r x).seed = s.seed := rfl
@[simp] theorem State.setRow_keys (r : Nat) (x : Row) : (s.setRow r x).keys = s.keys := rfl
@[simp] theorem State.setRow_insts (r : Nat) (x : Row) : (s.setRow r x).insts = s.insts := rfl
@[simp] theorem State.setRow_intc (r : Nat) (x : Row) : (s.setRow r x).intc = s.intc := rfl
@[simp] theorem State.setRow_tasks (r : Nat) (x : Row) : (s.setRow r x).tasks = s.tasks := rfl
@[simp] theorem State.setRow_ctrl (r : Nat) (x : Row) : (s.setRow r x).ctrl = s.ctrl := rfl
@[simp] theorem State.setRow_faults (r : Nat) (x : Row) : (s.setRow r x).faults = s.faults := rfl
@[simp] theorem State.setRow_tamper (r : Nat) (x : Row) : (s.setRow r x).tamper = s.tamper := rfl
@[simp] theorem State.setRow_backup (r : Nat) (x : Row) : (s.setRow r x).backup = s.backup := rfl
@[simp] theorem State.setRow_life (r : Nat) (x : Row) : (s.setRow r x).life = s.life := rfl
@[simp] theorem State.setRow_power (r : Nat) (x : Row) : (s.setRow r x).power = s.power := rfl
@[simp] theorem State.setRow_commons (r : Nat) (x : Row) : (s.setRow r x).commons = s.commons := rfl
@[simp] theorem State.setRow_hostif (r : Nat) (x : Row) : (s.setRow r x).hostif = s.hostif := rfl
@[simp] theorem State.setRow_mirror (r : Nat) (x : Row) : (s.setRow r x).mirror = s.mirror := rfl
@[simp] theorem State.setRow_hbm (r : Nat) (x : Row) : (s.setRow r x).hbm = s.hbm := rfl
@[simp] theorem State.setRow_host (r : Nat) (x : Row) : (s.setRow r x).host = s.host := rfl
@[simp] theorem State.setRow_free (r : Nat) (x : Row) : (s.setRow r x).free = s.free := rfl
@[simp] theorem State.setRow_resp (r : Nat) (x : Row) : (s.setRow r x).resp = s.resp := rfl
@[simp] theorem State.setRow_outbox (r : Nat) (x : Row) : (s.setRow r x).outbox = s.outbox := rfl
@[simp] theorem State.setRow_pending (r : Nat) (x : Row) : (s.setRow r x).pending = s.pending := rfl

/-! ## setCaps -/

@[simp] theorem State.setCaps_glob (c t : Nat → Nat) : (s.setCaps c t).glob = s.glob := rfl
@[simp] theorem State.setCaps_start (c t : Nat → Nat) : (s.setCaps c t).start = s.start := rfl
@[simp] theorem State.setCaps_cfg (c t : Nat → Nat) : (s.setCaps c t).cfg = s.cfg := rfl
@[simp] theorem State.setCaps_live (c t : Nat → Nat) : (s.setCaps c t).live = s.live := rfl
@[simp] theorem State.setCaps_parBad (c t : Nat → Nat) : (s.setCaps c t).parBad = s.parBad := rfl
@[simp] theorem State.setCaps_voteBad (c t : Nat → Nat) : (s.setCaps c t).voteBad = s.voteBad := rfl
@[simp] theorem State.setCaps_hold (c t : Nat → Nat) : (s.setCaps c t).hold = s.hold := rfl
@[simp] theorem State.setCaps_adm (c t : Nat → Nat) :
    (s.setCaps c t).adm = { s.adm with
      capC := (upTo 28).foldl (fun m x => cput m x (c x)) s.adm.capC
      capT := (upTo 28).foldl (fun m x => cput m x (t x)) s.adm.capT } := rfl
@[simp] theorem State.setCaps_fields (c t : Nat → Nat) : (s.setCaps c t).fields = s.fields := rfl
@[simp] theorem State.setCaps_hbmc (c t : Nat → Nat) : (s.setCaps c t).hbmc = s.hbmc := rfl
@[simp] theorem State.setCaps_handles (c t : Nat → Nat) : (s.setCaps c t).handles = s.handles := rfl
@[simp] theorem State.setCaps_loadsLast (c t : Nat → Nat) : (s.setCaps c t).loadsLast = s.loadsLast := rfl
@[simp] theorem State.setCaps_lateLast (c t : Nat → Nat) : (s.setCaps c t).lateLast = s.lateLast := rfl
@[simp] theorem State.setCaps_loads (c t : Nat → Nat) : (s.setCaps c t).loads = s.loads := rfl
@[simp] theorem State.setCaps_amus (c t : Nat → Nat) : (s.setCaps c t).amus = s.amus := rfl
@[simp] theorem State.setCaps_cores (c t : Nat → Nat) : (s.setCaps c t).cores = s.cores := rfl
@[simp] theorem State.setCaps_pools (c t : Nat → Nat) : (s.setCaps c t).pools = s.pools := rfl
@[simp] theorem State.setCaps_pipes (c t : Nat → Nat) : (s.setCaps c t).pipes = s.pipes := rfl
@[simp] theorem State.setCaps_digest (c t : Nat → Nat) : (s.setCaps c t).digest = s.digest := rfl
@[simp] theorem State.setCaps_seed (c t : Nat → Nat) : (s.setCaps c t).seed = s.seed := rfl
@[simp] theorem State.setCaps_keys (c t : Nat → Nat) : (s.setCaps c t).keys = s.keys := rfl
@[simp] theorem State.setCaps_insts (c t : Nat → Nat) : (s.setCaps c t).insts = s.insts := rfl
@[simp] theorem State.setCaps_intc (c t : Nat → Nat) : (s.setCaps c t).intc = s.intc := rfl
@[simp] theorem State.setCaps_tasks (c t : Nat → Nat) : (s.setCaps c t).tasks = s.tasks := rfl
@[simp] theorem State.setCaps_ctrl (c t : Nat → Nat) : (s.setCaps c t).ctrl = s.ctrl := rfl
@[simp] theorem State.setCaps_faults (c t : Nat → Nat) : (s.setCaps c t).faults = s.faults := rfl
@[simp] theorem State.setCaps_tamper (c t : Nat → Nat) : (s.setCaps c t).tamper = s.tamper := rfl
@[simp] theorem State.setCaps_backup (c t : Nat → Nat) : (s.setCaps c t).backup = s.backup := rfl
@[simp] theorem State.setCaps_life (c t : Nat → Nat) : (s.setCaps c t).life = s.life := rfl
@[simp] theorem State.setCaps_power (c t : Nat → Nat) : (s.setCaps c t).power = s.power := rfl
@[simp] theorem State.setCaps_commons (c t : Nat → Nat) : (s.setCaps c t).commons = s.commons := rfl
@[simp] theorem State.setCaps_hostif (c t : Nat → Nat) : (s.setCaps c t).hostif = s.hostif := rfl
@[simp] theorem State.setCaps_mirror (c t : Nat → Nat) : (s.setCaps c t).mirror = s.mirror := rfl
@[simp] theorem State.setCaps_hbm (c t : Nat → Nat) : (s.setCaps c t).hbm = s.hbm := rfl
@[simp] theorem State.setCaps_host (c t : Nat → Nat) : (s.setCaps c t).host = s.host := rfl
@[simp] theorem State.setCaps_free (c t : Nat → Nat) : (s.setCaps c t).free = s.free := rfl
@[simp] theorem State.setCaps_resp (c t : Nat → Nat) : (s.setCaps c t).resp = s.resp := rfl
@[simp] theorem State.setCaps_outbox (c t : Nat → Nat) : (s.setCaps c t).outbox = s.outbox := rfl
@[simp] theorem State.setCaps_pending (c t : Nat → Nat) : (s.setCaps c t).pending = s.pending := rfl

/-! ## emit -/

@[simp] theorem State.emit_glob (o : Out) : (s.emit o).glob = s.glob := rfl
@[simp] theorem State.emit_start (o : Out) : (s.emit o).start = s.start := rfl
@[simp] theorem State.emit_cfg (o : Out) : (s.emit o).cfg = s.cfg := rfl
@[simp] theorem State.emit_live (o : Out) : (s.emit o).live = s.live := rfl
@[simp] theorem State.emit_parBad (o : Out) : (s.emit o).parBad = s.parBad := rfl
@[simp] theorem State.emit_voteBad (o : Out) : (s.emit o).voteBad = s.voteBad := rfl
@[simp] theorem State.emit_hold (o : Out) : (s.emit o).hold = s.hold := rfl
@[simp] theorem State.emit_adm (o : Out) : (s.emit o).adm = s.adm := rfl
@[simp] theorem State.emit_fields (o : Out) : (s.emit o).fields = s.fields := rfl
@[simp] theorem State.emit_hbmc (o : Out) : (s.emit o).hbmc = s.hbmc := rfl
@[simp] theorem State.emit_handles (o : Out) : (s.emit o).handles = s.handles := rfl
@[simp] theorem State.emit_loadsLast (o : Out) : (s.emit o).loadsLast = s.loadsLast := rfl
@[simp] theorem State.emit_lateLast (o : Out) : (s.emit o).lateLast = s.lateLast := rfl
@[simp] theorem State.emit_loads (o : Out) : (s.emit o).loads = s.loads := rfl
@[simp] theorem State.emit_amus (o : Out) : (s.emit o).amus = s.amus := rfl
@[simp] theorem State.emit_cores (o : Out) : (s.emit o).cores = s.cores := rfl
@[simp] theorem State.emit_pools (o : Out) : (s.emit o).pools = s.pools := rfl
@[simp] theorem State.emit_pipes (o : Out) : (s.emit o).pipes = s.pipes := rfl
@[simp] theorem State.emit_digest (o : Out) : (s.emit o).digest = s.digest := rfl
@[simp] theorem State.emit_seed (o : Out) : (s.emit o).seed = s.seed := rfl
@[simp] theorem State.emit_keys (o : Out) : (s.emit o).keys = s.keys := rfl
@[simp] theorem State.emit_insts (o : Out) : (s.emit o).insts = s.insts := rfl
@[simp] theorem State.emit_intc (o : Out) : (s.emit o).intc = s.intc := rfl
@[simp] theorem State.emit_tasks (o : Out) : (s.emit o).tasks = s.tasks := rfl
@[simp] theorem State.emit_ctrl (o : Out) : (s.emit o).ctrl = s.ctrl := rfl
@[simp] theorem State.emit_faults (o : Out) : (s.emit o).faults = s.faults := rfl
@[simp] theorem State.emit_tamper (o : Out) : (s.emit o).tamper = s.tamper := rfl
@[simp] theorem State.emit_backup (o : Out) : (s.emit o).backup = s.backup := rfl
@[simp] theorem State.emit_life (o : Out) : (s.emit o).life = s.life := rfl
@[simp] theorem State.emit_power (o : Out) : (s.emit o).power = s.power := rfl
@[simp] theorem State.emit_commons (o : Out) : (s.emit o).commons = s.commons := rfl
@[simp] theorem State.emit_hostif (o : Out) : (s.emit o).hostif = s.hostif := rfl
@[simp] theorem State.emit_mirror (o : Out) : (s.emit o).mirror = s.mirror := rfl
@[simp] theorem State.emit_hbm (o : Out) : (s.emit o).hbm = s.hbm := rfl
@[simp] theorem State.emit_host (o : Out) : (s.emit o).host = s.host := rfl
@[simp] theorem State.emit_free (o : Out) : (s.emit o).free = s.free := rfl
@[simp] theorem State.emit_resp (o : Out) : (s.emit o).resp = s.resp := rfl
@[simp] theorem State.emit_outbox (o : Out) : (s.emit o).outbox = s.outbox ++ [o] := rfl
@[simp] theorem State.emit_pending (o : Out) : (s.emit o).pending = s.pending := rfl

/-! ## setResp -/

@[simp] theorem State.setResp_glob (r : Resp) : (s.setResp r).glob = s.glob := rfl
@[simp] theorem State.setResp_start (r : Resp) : (s.setResp r).start = s.start := rfl
@[simp] theorem State.setResp_cfg (r : Resp) : (s.setResp r).cfg = s.cfg := rfl
@[simp] theorem State.setResp_live (r : Resp) : (s.setResp r).live = s.live := rfl
@[simp] theorem State.setResp_parBad (r : Resp) : (s.setResp r).parBad = s.parBad := rfl
@[simp] theorem State.setResp_voteBad (r : Resp) : (s.setResp r).voteBad = s.voteBad := rfl
@[simp] theorem State.setResp_hold (r : Resp) : (s.setResp r).hold = s.hold := rfl
@[simp] theorem State.setResp_adm (r : Resp) : (s.setResp r).adm = s.adm := rfl
@[simp] theorem State.setResp_fields (r : Resp) : (s.setResp r).fields = s.fields := rfl
@[simp] theorem State.setResp_hbmc (r : Resp) : (s.setResp r).hbmc = s.hbmc := rfl
@[simp] theorem State.setResp_handles (r : Resp) : (s.setResp r).handles = s.handles := rfl
@[simp] theorem State.setResp_loadsLast (r : Resp) : (s.setResp r).loadsLast = s.loadsLast := rfl
@[simp] theorem State.setResp_lateLast (r : Resp) : (s.setResp r).lateLast = s.lateLast := rfl
@[simp] theorem State.setResp_loads (r : Resp) : (s.setResp r).loads = s.loads := rfl
@[simp] theorem State.setResp_amus (r : Resp) : (s.setResp r).amus = s.amus := rfl
@[simp] theorem State.setResp_cores (r : Resp) : (s.setResp r).cores = s.cores := rfl
@[simp] theorem State.setResp_pools (r : Resp) : (s.setResp r).pools = s.pools := rfl
@[simp] theorem State.setResp_pipes (r : Resp) : (s.setResp r).pipes = s.pipes := rfl
@[simp] theorem State.setResp_digest (r : Resp) : (s.setResp r).digest = s.digest := rfl
@[simp] theorem State.setResp_seed (r : Resp) : (s.setResp r).seed = s.seed := rfl
@[simp] theorem State.setResp_keys (r : Resp) : (s.setResp r).keys = s.keys := rfl
@[simp] theorem State.setResp_insts (r : Resp) : (s.setResp r).insts = s.insts := rfl
@[simp] theorem State.setResp_intc (r : Resp) : (s.setResp r).intc = s.intc := rfl
@[simp] theorem State.setResp_tasks (r : Resp) : (s.setResp r).tasks = s.tasks := rfl
@[simp] theorem State.setResp_ctrl (r : Resp) : (s.setResp r).ctrl = s.ctrl := rfl
@[simp] theorem State.setResp_faults (r : Resp) : (s.setResp r).faults = s.faults := rfl
@[simp] theorem State.setResp_tamper (r : Resp) : (s.setResp r).tamper = s.tamper := rfl
@[simp] theorem State.setResp_backup (r : Resp) : (s.setResp r).backup = s.backup := rfl
@[simp] theorem State.setResp_life (r : Resp) : (s.setResp r).life = s.life := rfl
@[simp] theorem State.setResp_power (r : Resp) : (s.setResp r).power = s.power := rfl
@[simp] theorem State.setResp_commons (r : Resp) : (s.setResp r).commons = s.commons := rfl
@[simp] theorem State.setResp_hostif (r : Resp) : (s.setResp r).hostif = s.hostif := rfl
@[simp] theorem State.setResp_mirror (r : Resp) : (s.setResp r).mirror = s.mirror := rfl
@[simp] theorem State.setResp_hbm (r : Resp) : (s.setResp r).hbm = s.hbm := rfl
@[simp] theorem State.setResp_host (r : Resp) : (s.setResp r).host = s.host := rfl
@[simp] theorem State.setResp_free (r : Resp) : (s.setResp r).free = s.free := rfl
@[simp] theorem State.setResp_resp (r : Resp) : (s.setResp r).resp = r := rfl
@[simp] theorem State.setResp_outbox (r : Resp) : (s.setResp r).outbox = s.outbox := rfl
@[simp] theorem State.setResp_pending (r : Resp) : (s.setResp r).pending = s.pending := rfl

/-! ## setOffset -/

@[simp] theorem State.setOffset_glob (o : Nat) : (s.setOffset o).glob = { s.glob with offset := o } := rfl
@[simp] theorem State.setOffset_start (o : Nat) : (s.setOffset o).start = s.start := rfl
@[simp] theorem State.setOffset_cfg (o : Nat) : (s.setOffset o).cfg = s.cfg := rfl
@[simp] theorem State.setOffset_live (o : Nat) : (s.setOffset o).live = s.live := rfl
@[simp] theorem State.setOffset_parBad (o : Nat) : (s.setOffset o).parBad = s.parBad := rfl
@[simp] theorem State.setOffset_voteBad (o : Nat) : (s.setOffset o).voteBad = s.voteBad := rfl
@[simp] theorem State.setOffset_hold (o : Nat) : (s.setOffset o).hold = s.hold := rfl
@[simp] theorem State.setOffset_adm (o : Nat) : (s.setOffset o).adm = s.adm := rfl
@[simp] theorem State.setOffset_fields (o : Nat) : (s.setOffset o).fields = s.fields := rfl
@[simp] theorem State.setOffset_hbmc (o : Nat) : (s.setOffset o).hbmc = s.hbmc := rfl
@[simp] theorem State.setOffset_handles (o : Nat) : (s.setOffset o).handles = s.handles := rfl
@[simp] theorem State.setOffset_loadsLast (o : Nat) : (s.setOffset o).loadsLast = s.loadsLast := rfl
@[simp] theorem State.setOffset_lateLast (o : Nat) : (s.setOffset o).lateLast = s.lateLast := rfl
@[simp] theorem State.setOffset_loads (o : Nat) : (s.setOffset o).loads = s.loads := rfl
@[simp] theorem State.setOffset_amus (o : Nat) : (s.setOffset o).amus = s.amus := rfl
@[simp] theorem State.setOffset_cores (o : Nat) : (s.setOffset o).cores = s.cores := rfl
@[simp] theorem State.setOffset_pools (o : Nat) : (s.setOffset o).pools = s.pools := rfl
@[simp] theorem State.setOffset_pipes (o : Nat) : (s.setOffset o).pipes = s.pipes := rfl
@[simp] theorem State.setOffset_digest (o : Nat) : (s.setOffset o).digest = s.digest := rfl
@[simp] theorem State.setOffset_seed (o : Nat) : (s.setOffset o).seed = s.seed := rfl
@[simp] theorem State.setOffset_keys (o : Nat) : (s.setOffset o).keys = s.keys := rfl
@[simp] theorem State.setOffset_insts (o : Nat) : (s.setOffset o).insts = s.insts := rfl
@[simp] theorem State.setOffset_intc (o : Nat) : (s.setOffset o).intc = s.intc := rfl
@[simp] theorem State.setOffset_tasks (o : Nat) : (s.setOffset o).tasks = s.tasks := rfl
@[simp] theorem State.setOffset_ctrl (o : Nat) : (s.setOffset o).ctrl = s.ctrl := rfl
@[simp] theorem State.setOffset_faults (o : Nat) : (s.setOffset o).faults = s.faults := rfl
@[simp] theorem State.setOffset_tamper (o : Nat) : (s.setOffset o).tamper = s.tamper := rfl
@[simp] theorem State.setOffset_backup (o : Nat) : (s.setOffset o).backup = s.backup := rfl
@[simp] theorem State.setOffset_life (o : Nat) : (s.setOffset o).life = s.life := rfl
@[simp] theorem State.setOffset_power (o : Nat) : (s.setOffset o).power = s.power := rfl
@[simp] theorem State.setOffset_commons (o : Nat) : (s.setOffset o).commons = s.commons := rfl
@[simp] theorem State.setOffset_hostif (o : Nat) : (s.setOffset o).hostif = s.hostif := rfl
@[simp] theorem State.setOffset_mirror (o : Nat) : (s.setOffset o).mirror = s.mirror := rfl
@[simp] theorem State.setOffset_hbm (o : Nat) : (s.setOffset o).hbm = s.hbm := rfl
@[simp] theorem State.setOffset_host (o : Nat) : (s.setOffset o).host = s.host := rfl
@[simp] theorem State.setOffset_free (o : Nat) : (s.setOffset o).free = s.free := rfl
@[simp] theorem State.setOffset_resp (o : Nat) : (s.setOffset o).resp = s.resp := rfl
@[simp] theorem State.setOffset_outbox (o : Nat) : (s.setOffset o).outbox = s.outbox := rfl
@[simp] theorem State.setOffset_pending (o : Nat) : (s.setOffset o).pending = s.pending := rfl

/-! ## setCfg -/

@[simp] theorem State.setCfg_glob (a : Nat) (w : Word) : (s.setCfg a w).glob = s.glob := rfl
@[simp] theorem State.setCfg_start (a : Nat) (w : Word) : (s.setCfg a w).start = s.start := rfl
@[simp] theorem State.setCfg_cfg (a : Nat) (w : Word) : (s.setCfg a w).cfg = mput regReset s.cfg a w := rfl
@[simp] theorem State.setCfg_live (a : Nat) (w : Word) : (s.setCfg a w).live = s.live := rfl
@[simp] theorem State.setCfg_parBad (a : Nat) (w : Word) : (s.setCfg a w).parBad = s.parBad := rfl
@[simp] theorem State.setCfg_voteBad (a : Nat) (w : Word) : (s.setCfg a w).voteBad = s.voteBad := rfl
@[simp] theorem State.setCfg_hold (a : Nat) (w : Word) : (s.setCfg a w).hold = s.hold := rfl
@[simp] theorem State.setCfg_adm (a : Nat) (w : Word) : (s.setCfg a w).adm = s.adm := rfl
@[simp] theorem State.setCfg_fields (a : Nat) (w : Word) : (s.setCfg a w).fields = s.fields := rfl
@[simp] theorem State.setCfg_hbmc (a : Nat) (w : Word) : (s.setCfg a w).hbmc = s.hbmc := rfl
@[simp] theorem State.setCfg_handles (a : Nat) (w : Word) : (s.setCfg a w).handles = s.handles := rfl
@[simp] theorem State.setCfg_loadsLast (a : Nat) (w : Word) : (s.setCfg a w).loadsLast = s.loadsLast := rfl
@[simp] theorem State.setCfg_lateLast (a : Nat) (w : Word) : (s.setCfg a w).lateLast = s.lateLast := rfl
@[simp] theorem State.setCfg_loads (a : Nat) (w : Word) : (s.setCfg a w).loads = s.loads := rfl
@[simp] theorem State.setCfg_amus (a : Nat) (w : Word) : (s.setCfg a w).amus = s.amus := rfl
@[simp] theorem State.setCfg_cores (a : Nat) (w : Word) : (s.setCfg a w).cores = s.cores := rfl
@[simp] theorem State.setCfg_pools (a : Nat) (w : Word) : (s.setCfg a w).pools = s.pools := rfl
@[simp] theorem State.setCfg_pipes (a : Nat) (w : Word) : (s.setCfg a w).pipes = s.pipes := rfl
@[simp] theorem State.setCfg_digest (a : Nat) (w : Word) : (s.setCfg a w).digest = s.digest := rfl
@[simp] theorem State.setCfg_seed (a : Nat) (w : Word) : (s.setCfg a w).seed = s.seed := rfl
@[simp] theorem State.setCfg_keys (a : Nat) (w : Word) : (s.setCfg a w).keys = s.keys := rfl
@[simp] theorem State.setCfg_insts (a : Nat) (w : Word) : (s.setCfg a w).insts = s.insts := rfl
@[simp] theorem State.setCfg_intc (a : Nat) (w : Word) : (s.setCfg a w).intc = s.intc := rfl
@[simp] theorem State.setCfg_tasks (a : Nat) (w : Word) : (s.setCfg a w).tasks = s.tasks := rfl
@[simp] theorem State.setCfg_ctrl (a : Nat) (w : Word) : (s.setCfg a w).ctrl = s.ctrl := rfl
@[simp] theorem State.setCfg_faults (a : Nat) (w : Word) : (s.setCfg a w).faults = s.faults := rfl
@[simp] theorem State.setCfg_tamper (a : Nat) (w : Word) : (s.setCfg a w).tamper = s.tamper := rfl
@[simp] theorem State.setCfg_backup (a : Nat) (w : Word) : (s.setCfg a w).backup = s.backup := rfl
@[simp] theorem State.setCfg_life (a : Nat) (w : Word) : (s.setCfg a w).life = s.life := rfl
@[simp] theorem State.setCfg_power (a : Nat) (w : Word) : (s.setCfg a w).power = s.power := rfl
@[simp] theorem State.setCfg_commons (a : Nat) (w : Word) : (s.setCfg a w).commons = s.commons := rfl
@[simp] theorem State.setCfg_hostif (a : Nat) (w : Word) : (s.setCfg a w).hostif = s.hostif := rfl
@[simp] theorem State.setCfg_mirror (a : Nat) (w : Word) : (s.setCfg a w).mirror = s.mirror := rfl
@[simp] theorem State.setCfg_hbm (a : Nat) (w : Word) : (s.setCfg a w).hbm = s.hbm := rfl
@[simp] theorem State.setCfg_host (a : Nat) (w : Word) : (s.setCfg a w).host = s.host := rfl
@[simp] theorem State.setCfg_free (a : Nat) (w : Word) : (s.setCfg a w).free = s.free := rfl
@[simp] theorem State.setCfg_resp (a : Nat) (w : Word) : (s.setCfg a w).resp = s.resp := rfl
@[simp] theorem State.setCfg_outbox (a : Nat) (w : Word) : (s.setCfg a w).outbox = s.outbox := rfl
@[simp] theorem State.setCfg_pending (a : Nat) (w : Word) : (s.setCfg a w).pending = s.pending := rfl

/-! ## setLive -/

@[simp] theorem State.setLive_glob (a : Nat) (w : Word) : (s.setLive a w).glob = s.glob := rfl
@[simp] theorem State.setLive_start (a : Nat) (w : Word) : (s.setLive a w).start = s.start := rfl
@[simp] theorem State.setLive_cfg (a : Nat) (w : Word) : (s.setLive a w).cfg = s.cfg := rfl
@[simp] theorem State.setLive_live (a : Nat) (w : Word) : (s.setLive a w).live = mput regReset s.live a w := rfl
@[simp] theorem State.setLive_parBad (a : Nat) (w : Word) : (s.setLive a w).parBad = s.parBad := rfl
@[simp] theorem State.setLive_voteBad (a : Nat) (w : Word) : (s.setLive a w).voteBad = s.voteBad := rfl
@[simp] theorem State.setLive_hold (a : Nat) (w : Word) : (s.setLive a w).hold = s.hold := rfl
@[simp] theorem State.setLive_adm (a : Nat) (w : Word) : (s.setLive a w).adm = s.adm := rfl
@[simp] theorem State.setLive_fields (a : Nat) (w : Word) : (s.setLive a w).fields = s.fields := rfl
@[simp] theorem State.setLive_hbmc (a : Nat) (w : Word) : (s.setLive a w).hbmc = s.hbmc := rfl
@[simp] theorem State.setLive_handles (a : Nat) (w : Word) : (s.setLive a w).handles = s.handles := rfl
@[simp] theorem State.setLive_loadsLast (a : Nat) (w : Word) : (s.setLive a w).loadsLast = s.loadsLast := rfl
@[simp] theorem State.setLive_lateLast (a : Nat) (w : Word) : (s.setLive a w).lateLast = s.lateLast := rfl
@[simp] theorem State.setLive_loads (a : Nat) (w : Word) : (s.setLive a w).loads = s.loads := rfl
@[simp] theorem State.setLive_amus (a : Nat) (w : Word) : (s.setLive a w).amus = s.amus := rfl
@[simp] theorem State.setLive_cores (a : Nat) (w : Word) : (s.setLive a w).cores = s.cores := rfl
@[simp] theorem State.setLive_pools (a : Nat) (w : Word) : (s.setLive a w).pools = s.pools := rfl
@[simp] theorem State.setLive_pipes (a : Nat) (w : Word) : (s.setLive a w).pipes = s.pipes := rfl
@[simp] theorem State.setLive_digest (a : Nat) (w : Word) : (s.setLive a w).digest = s.digest := rfl
@[simp] theorem State.setLive_seed (a : Nat) (w : Word) : (s.setLive a w).seed = s.seed := rfl
@[simp] theorem State.setLive_keys (a : Nat) (w : Word) : (s.setLive a w).keys = s.keys := rfl
@[simp] theorem State.setLive_insts (a : Nat) (w : Word) : (s.setLive a w).insts = s.insts := rfl
@[simp] theorem State.setLive_intc (a : Nat) (w : Word) : (s.setLive a w).intc = s.intc := rfl
@[simp] theorem State.setLive_tasks (a : Nat) (w : Word) : (s.setLive a w).tasks = s.tasks := rfl
@[simp] theorem State.setLive_ctrl (a : Nat) (w : Word) : (s.setLive a w).ctrl = s.ctrl := rfl
@[simp] theorem State.setLive_faults (a : Nat) (w : Word) : (s.setLive a w).faults = s.faults := rfl
@[simp] theorem State.setLive_tamper (a : Nat) (w : Word) : (s.setLive a w).tamper = s.tamper := rfl
@[simp] theorem State.setLive_backup (a : Nat) (w : Word) : (s.setLive a w).backup = s.backup := rfl
@[simp] theorem State.setLive_life (a : Nat) (w : Word) : (s.setLive a w).life = s.life := rfl
@[simp] theorem State.setLive_power (a : Nat) (w : Word) : (s.setLive a w).power = s.power := rfl
@[simp] theorem State.setLive_commons (a : Nat) (w : Word) : (s.setLive a w).commons = s.commons := rfl
@[simp] theorem State.setLive_hostif (a : Nat) (w : Word) : (s.setLive a w).hostif = s.hostif := rfl
@[simp] theorem State.setLive_mirror (a : Nat) (w : Word) : (s.setLive a w).mirror = s.mirror := rfl
@[simp] theorem State.setLive_hbm (a : Nat) (w : Word) : (s.setLive a w).hbm = s.hbm := rfl
@[simp] theorem State.setLive_host (a : Nat) (w : Word) : (s.setLive a w).host = s.host := rfl
@[simp] theorem State.setLive_free (a : Nat) (w : Word) : (s.setLive a w).free = s.free := rfl
@[simp] theorem State.setLive_resp (a : Nat) (w : Word) : (s.setLive a w).resp = s.resp := rfl
@[simp] theorem State.setLive_outbox (a : Nat) (w : Word) : (s.setLive a w).outbox = s.outbox := rfl
@[simp] theorem State.setLive_pending (a : Nat) (w : Word) : (s.setLive a w).pending = s.pending := rfl

/-! ## modFaults -/

@[simp] theorem State.modFaults_glob (g : Faults → Faults) : (s.modFaults g).glob = s.glob := rfl
@[simp] theorem State.modFaults_start (g : Faults → Faults) : (s.modFaults g).start = s.start := rfl
@[simp] theorem State.modFaults_cfg (g : Faults → Faults) : (s.modFaults g).cfg = s.cfg := rfl
@[simp] theorem State.modFaults_live (g : Faults → Faults) : (s.modFaults g).live = s.live := rfl
@[simp] theorem State.modFaults_parBad (g : Faults → Faults) : (s.modFaults g).parBad = s.parBad := rfl
@[simp] theorem State.modFaults_voteBad (g : Faults → Faults) : (s.modFaults g).voteBad = s.voteBad := rfl
@[simp] theorem State.modFaults_hold (g : Faults → Faults) : (s.modFaults g).hold = s.hold := rfl
@[simp] theorem State.modFaults_adm (g : Faults → Faults) : (s.modFaults g).adm = s.adm := rfl
@[simp] theorem State.modFaults_fields (g : Faults → Faults) : (s.modFaults g).fields = s.fields := rfl
@[simp] theorem State.modFaults_hbmc (g : Faults → Faults) : (s.modFaults g).hbmc = s.hbmc := rfl
@[simp] theorem State.modFaults_handles (g : Faults → Faults) : (s.modFaults g).handles = s.handles := rfl
@[simp] theorem State.modFaults_loadsLast (g : Faults → Faults) : (s.modFaults g).loadsLast = s.loadsLast := rfl
@[simp] theorem State.modFaults_lateLast (g : Faults → Faults) : (s.modFaults g).lateLast = s.lateLast := rfl
@[simp] theorem State.modFaults_loads (g : Faults → Faults) : (s.modFaults g).loads = s.loads := rfl
@[simp] theorem State.modFaults_amus (g : Faults → Faults) : (s.modFaults g).amus = s.amus := rfl
@[simp] theorem State.modFaults_cores (g : Faults → Faults) : (s.modFaults g).cores = s.cores := rfl
@[simp] theorem State.modFaults_pools (g : Faults → Faults) : (s.modFaults g).pools = s.pools := rfl
@[simp] theorem State.modFaults_pipes (g : Faults → Faults) : (s.modFaults g).pipes = s.pipes := rfl
@[simp] theorem State.modFaults_digest (g : Faults → Faults) : (s.modFaults g).digest = s.digest := rfl
@[simp] theorem State.modFaults_seed (g : Faults → Faults) : (s.modFaults g).seed = s.seed := rfl
@[simp] theorem State.modFaults_keys (g : Faults → Faults) : (s.modFaults g).keys = s.keys := rfl
@[simp] theorem State.modFaults_insts (g : Faults → Faults) : (s.modFaults g).insts = s.insts := rfl
@[simp] theorem State.modFaults_intc (g : Faults → Faults) : (s.modFaults g).intc = s.intc := rfl
@[simp] theorem State.modFaults_tasks (g : Faults → Faults) : (s.modFaults g).tasks = s.tasks := rfl
@[simp] theorem State.modFaults_ctrl (g : Faults → Faults) : (s.modFaults g).ctrl = s.ctrl := rfl
@[simp] theorem State.modFaults_faults (g : Faults → Faults) : (s.modFaults g).faults = g s.faults := rfl
@[simp] theorem State.modFaults_tamper (g : Faults → Faults) : (s.modFaults g).tamper = s.tamper := rfl
@[simp] theorem State.modFaults_backup (g : Faults → Faults) : (s.modFaults g).backup = s.backup := rfl
@[simp] theorem State.modFaults_life (g : Faults → Faults) : (s.modFaults g).life = s.life := rfl
@[simp] theorem State.modFaults_power (g : Faults → Faults) : (s.modFaults g).power = s.power := rfl
@[simp] theorem State.modFaults_commons (g : Faults → Faults) : (s.modFaults g).commons = s.commons := rfl
@[simp] theorem State.modFaults_hostif (g : Faults → Faults) : (s.modFaults g).hostif = s.hostif := rfl
@[simp] theorem State.modFaults_mirror (g : Faults → Faults) : (s.modFaults g).mirror = s.mirror := rfl
@[simp] theorem State.modFaults_hbm (g : Faults → Faults) : (s.modFaults g).hbm = s.hbm := rfl
@[simp] theorem State.modFaults_host (g : Faults → Faults) : (s.modFaults g).host = s.host := rfl
@[simp] theorem State.modFaults_free (g : Faults → Faults) : (s.modFaults g).free = s.free := rfl
@[simp] theorem State.modFaults_resp (g : Faults → Faults) : (s.modFaults g).resp = s.resp := rfl
@[simp] theorem State.modFaults_outbox (g : Faults → Faults) : (s.modFaults g).outbox = s.outbox := rfl
@[simp] theorem State.modFaults_pending (g : Faults → Faults) : (s.modFaults g).pending = s.pending := rfl

/-! ## modLife -/

@[simp] theorem State.modLife_glob (g : Life → Life) : (s.modLife g).glob = s.glob := rfl
@[simp] theorem State.modLife_start (g : Life → Life) : (s.modLife g).start = s.start := rfl
@[simp] theorem State.modLife_cfg (g : Life → Life) : (s.modLife g).cfg = s.cfg := rfl
@[simp] theorem State.modLife_live (g : Life → Life) : (s.modLife g).live = s.live := rfl
@[simp] theorem State.modLife_parBad (g : Life → Life) : (s.modLife g).parBad = s.parBad := rfl
@[simp] theorem State.modLife_voteBad (g : Life → Life) : (s.modLife g).voteBad = s.voteBad := rfl
@[simp] theorem State.modLife_hold (g : Life → Life) : (s.modLife g).hold = s.hold := rfl
@[simp] theorem State.modLife_adm (g : Life → Life) : (s.modLife g).adm = s.adm := rfl
@[simp] theorem State.modLife_fields (g : Life → Life) : (s.modLife g).fields = s.fields := rfl
@[simp] theorem State.modLife_hbmc (g : Life → Life) : (s.modLife g).hbmc = s.hbmc := rfl
@[simp] theorem State.modLife_handles (g : Life → Life) : (s.modLife g).handles = s.handles := rfl
@[simp] theorem State.modLife_loadsLast (g : Life → Life) : (s.modLife g).loadsLast = s.loadsLast := rfl
@[simp] theorem State.modLife_lateLast (g : Life → Life) : (s.modLife g).lateLast = s.lateLast := rfl
@[simp] theorem State.modLife_loads (g : Life → Life) : (s.modLife g).loads = s.loads := rfl
@[simp] theorem State.modLife_amus (g : Life → Life) : (s.modLife g).amus = s.amus := rfl
@[simp] theorem State.modLife_cores (g : Life → Life) : (s.modLife g).cores = s.cores := rfl
@[simp] theorem State.modLife_pools (g : Life → Life) : (s.modLife g).pools = s.pools := rfl
@[simp] theorem State.modLife_pipes (g : Life → Life) : (s.modLife g).pipes = s.pipes := rfl
@[simp] theorem State.modLife_digest (g : Life → Life) : (s.modLife g).digest = s.digest := rfl
@[simp] theorem State.modLife_seed (g : Life → Life) : (s.modLife g).seed = s.seed := rfl
@[simp] theorem State.modLife_keys (g : Life → Life) : (s.modLife g).keys = s.keys := rfl
@[simp] theorem State.modLife_insts (g : Life → Life) : (s.modLife g).insts = s.insts := rfl
@[simp] theorem State.modLife_intc (g : Life → Life) : (s.modLife g).intc = s.intc := rfl
@[simp] theorem State.modLife_tasks (g : Life → Life) : (s.modLife g).tasks = s.tasks := rfl
@[simp] theorem State.modLife_ctrl (g : Life → Life) : (s.modLife g).ctrl = s.ctrl := rfl
@[simp] theorem State.modLife_faults (g : Life → Life) : (s.modLife g).faults = s.faults := rfl
@[simp] theorem State.modLife_tamper (g : Life → Life) : (s.modLife g).tamper = s.tamper := rfl
@[simp] theorem State.modLife_backup (g : Life → Life) : (s.modLife g).backup = s.backup := rfl
@[simp] theorem State.modLife_life (g : Life → Life) : (s.modLife g).life = g s.life := rfl
@[simp] theorem State.modLife_power (g : Life → Life) : (s.modLife g).power = s.power := rfl
@[simp] theorem State.modLife_commons (g : Life → Life) : (s.modLife g).commons = s.commons := rfl
@[simp] theorem State.modLife_hostif (g : Life → Life) : (s.modLife g).hostif = s.hostif := rfl
@[simp] theorem State.modLife_mirror (g : Life → Life) : (s.modLife g).mirror = s.mirror := rfl
@[simp] theorem State.modLife_hbm (g : Life → Life) : (s.modLife g).hbm = s.hbm := rfl
@[simp] theorem State.modLife_host (g : Life → Life) : (s.modLife g).host = s.host := rfl
@[simp] theorem State.modLife_free (g : Life → Life) : (s.modLife g).free = s.free := rfl
@[simp] theorem State.modLife_resp (g : Life → Life) : (s.modLife g).resp = s.resp := rfl
@[simp] theorem State.modLife_outbox (g : Life → Life) : (s.modLife g).outbox = s.outbox := rfl
@[simp] theorem State.modLife_pending (g : Life → Life) : (s.modLife g).pending = s.pending := rfl

/-! ## modPower -/

@[simp] theorem State.modPower_glob (g : Power → Power) : (s.modPower g).glob = s.glob := rfl
@[simp] theorem State.modPower_start (g : Power → Power) : (s.modPower g).start = s.start := rfl
@[simp] theorem State.modPower_cfg (g : Power → Power) : (s.modPower g).cfg = s.cfg := rfl
@[simp] theorem State.modPower_live (g : Power → Power) : (s.modPower g).live = s.live := rfl
@[simp] theorem State.modPower_parBad (g : Power → Power) : (s.modPower g).parBad = s.parBad := rfl
@[simp] theorem State.modPower_voteBad (g : Power → Power) : (s.modPower g).voteBad = s.voteBad := rfl
@[simp] theorem State.modPower_hold (g : Power → Power) : (s.modPower g).hold = s.hold := rfl
@[simp] theorem State.modPower_adm (g : Power → Power) : (s.modPower g).adm = s.adm := rfl
@[simp] theorem State.modPower_fields (g : Power → Power) : (s.modPower g).fields = s.fields := rfl
@[simp] theorem State.modPower_hbmc (g : Power → Power) : (s.modPower g).hbmc = s.hbmc := rfl
@[simp] theorem State.modPower_handles (g : Power → Power) : (s.modPower g).handles = s.handles := rfl
@[simp] theorem State.modPower_loadsLast (g : Power → Power) : (s.modPower g).loadsLast = s.loadsLast := rfl
@[simp] theorem State.modPower_lateLast (g : Power → Power) : (s.modPower g).lateLast = s.lateLast := rfl
@[simp] theorem State.modPower_loads (g : Power → Power) : (s.modPower g).loads = s.loads := rfl
@[simp] theorem State.modPower_amus (g : Power → Power) : (s.modPower g).amus = s.amus := rfl
@[simp] theorem State.modPower_cores (g : Power → Power) : (s.modPower g).cores = s.cores := rfl
@[simp] theorem State.modPower_pools (g : Power → Power) : (s.modPower g).pools = s.pools := rfl
@[simp] theorem State.modPower_pipes (g : Power → Power) : (s.modPower g).pipes = s.pipes := rfl
@[simp] theorem State.modPower_digest (g : Power → Power) : (s.modPower g).digest = s.digest := rfl
@[simp] theorem State.modPower_seed (g : Power → Power) : (s.modPower g).seed = s.seed := rfl
@[simp] theorem State.modPower_keys (g : Power → Power) : (s.modPower g).keys = s.keys := rfl
@[simp] theorem State.modPower_insts (g : Power → Power) : (s.modPower g).insts = s.insts := rfl
@[simp] theorem State.modPower_intc (g : Power → Power) : (s.modPower g).intc = s.intc := rfl
@[simp] theorem State.modPower_tasks (g : Power → Power) : (s.modPower g).tasks = s.tasks := rfl
@[simp] theorem State.modPower_ctrl (g : Power → Power) : (s.modPower g).ctrl = s.ctrl := rfl
@[simp] theorem State.modPower_faults (g : Power → Power) : (s.modPower g).faults = s.faults := rfl
@[simp] theorem State.modPower_tamper (g : Power → Power) : (s.modPower g).tamper = s.tamper := rfl
@[simp] theorem State.modPower_backup (g : Power → Power) : (s.modPower g).backup = s.backup := rfl
@[simp] theorem State.modPower_life (g : Power → Power) : (s.modPower g).life = s.life := rfl
@[simp] theorem State.modPower_power (g : Power → Power) : (s.modPower g).power = g s.power := rfl
@[simp] theorem State.modPower_commons (g : Power → Power) : (s.modPower g).commons = s.commons := rfl
@[simp] theorem State.modPower_hostif (g : Power → Power) : (s.modPower g).hostif = s.hostif := rfl
@[simp] theorem State.modPower_mirror (g : Power → Power) : (s.modPower g).mirror = s.mirror := rfl
@[simp] theorem State.modPower_hbm (g : Power → Power) : (s.modPower g).hbm = s.hbm := rfl
@[simp] theorem State.modPower_host (g : Power → Power) : (s.modPower g).host = s.host := rfl
@[simp] theorem State.modPower_free (g : Power → Power) : (s.modPower g).free = s.free := rfl
@[simp] theorem State.modPower_resp (g : Power → Power) : (s.modPower g).resp = s.resp := rfl
@[simp] theorem State.modPower_outbox (g : Power → Power) : (s.modPower g).outbox = s.outbox := rfl
@[simp] theorem State.modPower_pending (g : Power → Power) : (s.modPower g).pending = s.pending := rfl

/-! ## modStart -/

@[simp] theorem State.modStart_glob (g : Startup → Startup) : (s.modStart g).glob = s.glob := rfl
@[simp] theorem State.modStart_start (g : Startup → Startup) : (s.modStart g).start = g s.start := rfl
@[simp] theorem State.modStart_cfg (g : Startup → Startup) : (s.modStart g).cfg = s.cfg := rfl
@[simp] theorem State.modStart_live (g : Startup → Startup) : (s.modStart g).live = s.live := rfl
@[simp] theorem State.modStart_parBad (g : Startup → Startup) : (s.modStart g).parBad = s.parBad := rfl
@[simp] theorem State.modStart_voteBad (g : Startup → Startup) : (s.modStart g).voteBad = s.voteBad := rfl
@[simp] theorem State.modStart_hold (g : Startup → Startup) : (s.modStart g).hold = s.hold := rfl
@[simp] theorem State.modStart_adm (g : Startup → Startup) : (s.modStart g).adm = s.adm := rfl
@[simp] theorem State.modStart_fields (g : Startup → Startup) : (s.modStart g).fields = s.fields := rfl
@[simp] theorem State.modStart_hbmc (g : Startup → Startup) : (s.modStart g).hbmc = s.hbmc := rfl
@[simp] theorem State.modStart_handles (g : Startup → Startup) : (s.modStart g).handles = s.handles := rfl
@[simp] theorem State.modStart_loadsLast (g : Startup → Startup) : (s.modStart g).loadsLast = s.loadsLast := rfl
@[simp] theorem State.modStart_lateLast (g : Startup → Startup) : (s.modStart g).lateLast = s.lateLast := rfl
@[simp] theorem State.modStart_loads (g : Startup → Startup) : (s.modStart g).loads = s.loads := rfl
@[simp] theorem State.modStart_amus (g : Startup → Startup) : (s.modStart g).amus = s.amus := rfl
@[simp] theorem State.modStart_cores (g : Startup → Startup) : (s.modStart g).cores = s.cores := rfl
@[simp] theorem State.modStart_pools (g : Startup → Startup) : (s.modStart g).pools = s.pools := rfl
@[simp] theorem State.modStart_pipes (g : Startup → Startup) : (s.modStart g).pipes = s.pipes := rfl
@[simp] theorem State.modStart_digest (g : Startup → Startup) : (s.modStart g).digest = s.digest := rfl
@[simp] theorem State.modStart_seed (g : Startup → Startup) : (s.modStart g).seed = s.seed := rfl
@[simp] theorem State.modStart_keys (g : Startup → Startup) : (s.modStart g).keys = s.keys := rfl
@[simp] theorem State.modStart_insts (g : Startup → Startup) : (s.modStart g).insts = s.insts := rfl
@[simp] theorem State.modStart_intc (g : Startup → Startup) : (s.modStart g).intc = s.intc := rfl
@[simp] theorem State.modStart_tasks (g : Startup → Startup) : (s.modStart g).tasks = s.tasks := rfl
@[simp] theorem State.modStart_ctrl (g : Startup → Startup) : (s.modStart g).ctrl = s.ctrl := rfl
@[simp] theorem State.modStart_faults (g : Startup → Startup) : (s.modStart g).faults = s.faults := rfl
@[simp] theorem State.modStart_tamper (g : Startup → Startup) : (s.modStart g).tamper = s.tamper := rfl
@[simp] theorem State.modStart_backup (g : Startup → Startup) : (s.modStart g).backup = s.backup := rfl
@[simp] theorem State.modStart_life (g : Startup → Startup) : (s.modStart g).life = s.life := rfl
@[simp] theorem State.modStart_power (g : Startup → Startup) : (s.modStart g).power = s.power := rfl
@[simp] theorem State.modStart_commons (g : Startup → Startup) : (s.modStart g).commons = s.commons := rfl
@[simp] theorem State.modStart_hostif (g : Startup → Startup) : (s.modStart g).hostif = s.hostif := rfl
@[simp] theorem State.modStart_mirror (g : Startup → Startup) : (s.modStart g).mirror = s.mirror := rfl
@[simp] theorem State.modStart_hbm (g : Startup → Startup) : (s.modStart g).hbm = s.hbm := rfl
@[simp] theorem State.modStart_host (g : Startup → Startup) : (s.modStart g).host = s.host := rfl
@[simp] theorem State.modStart_free (g : Startup → Startup) : (s.modStart g).free = s.free := rfl
@[simp] theorem State.modStart_resp (g : Startup → Startup) : (s.modStart g).resp = s.resp := rfl
@[simp] theorem State.modStart_outbox (g : Startup → Startup) : (s.modStart g).outbox = s.outbox := rfl
@[simp] theorem State.modStart_pending (g : Startup → Startup) : (s.modStart g).pending = s.pending := rfl

/-! ## modBk -/

@[simp] theorem State.modBk_glob (g : Backup → Backup) : (s.modBk g).glob = s.glob := rfl
@[simp] theorem State.modBk_start (g : Backup → Backup) : (s.modBk g).start = s.start := rfl
@[simp] theorem State.modBk_cfg (g : Backup → Backup) : (s.modBk g).cfg = s.cfg := rfl
@[simp] theorem State.modBk_live (g : Backup → Backup) : (s.modBk g).live = s.live := rfl
@[simp] theorem State.modBk_parBad (g : Backup → Backup) : (s.modBk g).parBad = s.parBad := rfl
@[simp] theorem State.modBk_voteBad (g : Backup → Backup) : (s.modBk g).voteBad = s.voteBad := rfl
@[simp] theorem State.modBk_hold (g : Backup → Backup) : (s.modBk g).hold = s.hold := rfl
@[simp] theorem State.modBk_adm (g : Backup → Backup) : (s.modBk g).adm = s.adm := rfl
@[simp] theorem State.modBk_fields (g : Backup → Backup) : (s.modBk g).fields = s.fields := rfl
@[simp] theorem State.modBk_hbmc (g : Backup → Backup) : (s.modBk g).hbmc = s.hbmc := rfl
@[simp] theorem State.modBk_handles (g : Backup → Backup) : (s.modBk g).handles = s.handles := rfl
@[simp] theorem State.modBk_loadsLast (g : Backup → Backup) : (s.modBk g).loadsLast = s.loadsLast := rfl
@[simp] theorem State.modBk_lateLast (g : Backup → Backup) : (s.modBk g).lateLast = s.lateLast := rfl
@[simp] theorem State.modBk_loads (g : Backup → Backup) : (s.modBk g).loads = s.loads := rfl
@[simp] theorem State.modBk_amus (g : Backup → Backup) : (s.modBk g).amus = s.amus := rfl
@[simp] theorem State.modBk_cores (g : Backup → Backup) : (s.modBk g).cores = s.cores := rfl
@[simp] theorem State.modBk_pools (g : Backup → Backup) : (s.modBk g).pools = s.pools := rfl
@[simp] theorem State.modBk_pipes (g : Backup → Backup) : (s.modBk g).pipes = s.pipes := rfl
@[simp] theorem State.modBk_digest (g : Backup → Backup) : (s.modBk g).digest = s.digest := rfl
@[simp] theorem State.modBk_seed (g : Backup → Backup) : (s.modBk g).seed = s.seed := rfl
@[simp] theorem State.modBk_keys (g : Backup → Backup) : (s.modBk g).keys = s.keys := rfl
@[simp] theorem State.modBk_insts (g : Backup → Backup) : (s.modBk g).insts = s.insts := rfl
@[simp] theorem State.modBk_intc (g : Backup → Backup) : (s.modBk g).intc = s.intc := rfl
@[simp] theorem State.modBk_tasks (g : Backup → Backup) : (s.modBk g).tasks = s.tasks := rfl
@[simp] theorem State.modBk_ctrl (g : Backup → Backup) : (s.modBk g).ctrl = s.ctrl := rfl
@[simp] theorem State.modBk_faults (g : Backup → Backup) : (s.modBk g).faults = s.faults := rfl
@[simp] theorem State.modBk_tamper (g : Backup → Backup) : (s.modBk g).tamper = s.tamper := rfl
@[simp] theorem State.modBk_backup (g : Backup → Backup) : (s.modBk g).backup = g s.backup := rfl
@[simp] theorem State.modBk_life (g : Backup → Backup) : (s.modBk g).life = s.life := rfl
@[simp] theorem State.modBk_power (g : Backup → Backup) : (s.modBk g).power = s.power := rfl
@[simp] theorem State.modBk_commons (g : Backup → Backup) : (s.modBk g).commons = s.commons := rfl
@[simp] theorem State.modBk_hostif (g : Backup → Backup) : (s.modBk g).hostif = s.hostif := rfl
@[simp] theorem State.modBk_mirror (g : Backup → Backup) : (s.modBk g).mirror = s.mirror := rfl
@[simp] theorem State.modBk_hbm (g : Backup → Backup) : (s.modBk g).hbm = s.hbm := rfl
@[simp] theorem State.modBk_host (g : Backup → Backup) : (s.modBk g).host = s.host := rfl
@[simp] theorem State.modBk_free (g : Backup → Backup) : (s.modBk g).free = s.free := rfl
@[simp] theorem State.modBk_resp (g : Backup → Backup) : (s.modBk g).resp = s.resp := rfl
@[simp] theorem State.modBk_outbox (g : Backup → Backup) : (s.modBk g).outbox = s.outbox := rfl
@[simp] theorem State.modBk_pending (g : Backup → Backup) : (s.modBk g).pending = s.pending := rfl

/-! ## modDigest -/

@[simp] theorem State.modDigest_glob (g : DigestCnt → DigestCnt) : (s.modDigest g).glob = s.glob := rfl
@[simp] theorem State.modDigest_start (g : DigestCnt → DigestCnt) : (s.modDigest g).start = s.start := rfl
@[simp] theorem State.modDigest_cfg (g : DigestCnt → DigestCnt) : (s.modDigest g).cfg = s.cfg := rfl
@[simp] theorem State.modDigest_live (g : DigestCnt → DigestCnt) : (s.modDigest g).live = s.live := rfl
@[simp] theorem State.modDigest_parBad (g : DigestCnt → DigestCnt) : (s.modDigest g).parBad = s.parBad := rfl
@[simp] theorem State.modDigest_voteBad (g : DigestCnt → DigestCnt) : (s.modDigest g).voteBad = s.voteBad := rfl
@[simp] theorem State.modDigest_hold (g : DigestCnt → DigestCnt) : (s.modDigest g).hold = s.hold := rfl
@[simp] theorem State.modDigest_adm (g : DigestCnt → DigestCnt) : (s.modDigest g).adm = s.adm := rfl
@[simp] theorem State.modDigest_fields (g : DigestCnt → DigestCnt) : (s.modDigest g).fields = s.fields := rfl
@[simp] theorem State.modDigest_hbmc (g : DigestCnt → DigestCnt) : (s.modDigest g).hbmc = s.hbmc := rfl
@[simp] theorem State.modDigest_handles (g : DigestCnt → DigestCnt) : (s.modDigest g).handles = s.handles := rfl
@[simp] theorem State.modDigest_loadsLast (g : DigestCnt → DigestCnt) : (s.modDigest g).loadsLast = s.loadsLast := rfl
@[simp] theorem State.modDigest_lateLast (g : DigestCnt → DigestCnt) : (s.modDigest g).lateLast = s.lateLast := rfl
@[simp] theorem State.modDigest_loads (g : DigestCnt → DigestCnt) : (s.modDigest g).loads = s.loads := rfl
@[simp] theorem State.modDigest_amus (g : DigestCnt → DigestCnt) : (s.modDigest g).amus = s.amus := rfl
@[simp] theorem State.modDigest_cores (g : DigestCnt → DigestCnt) : (s.modDigest g).cores = s.cores := rfl
@[simp] theorem State.modDigest_pools (g : DigestCnt → DigestCnt) : (s.modDigest g).pools = s.pools := rfl
@[simp] theorem State.modDigest_pipes (g : DigestCnt → DigestCnt) : (s.modDigest g).pipes = s.pipes := rfl
@[simp] theorem State.modDigest_digest (g : DigestCnt → DigestCnt) : (s.modDigest g).digest = g s.digest := rfl
@[simp] theorem State.modDigest_seed (g : DigestCnt → DigestCnt) : (s.modDigest g).seed = s.seed := rfl
@[simp] theorem State.modDigest_keys (g : DigestCnt → DigestCnt) : (s.modDigest g).keys = s.keys := rfl
@[simp] theorem State.modDigest_insts (g : DigestCnt → DigestCnt) : (s.modDigest g).insts = s.insts := rfl
@[simp] theorem State.modDigest_intc (g : DigestCnt → DigestCnt) : (s.modDigest g).intc = s.intc := rfl
@[simp] theorem State.modDigest_tasks (g : DigestCnt → DigestCnt) : (s.modDigest g).tasks = s.tasks := rfl
@[simp] theorem State.modDigest_ctrl (g : DigestCnt → DigestCnt) : (s.modDigest g).ctrl = s.ctrl := rfl
@[simp] theorem State.modDigest_faults (g : DigestCnt → DigestCnt) : (s.modDigest g).faults = s.faults := rfl
@[simp] theorem State.modDigest_tamper (g : DigestCnt → DigestCnt) : (s.modDigest g).tamper = s.tamper := rfl
@[simp] theorem State.modDigest_backup (g : DigestCnt → DigestCnt) : (s.modDigest g).backup = s.backup := rfl
@[simp] theorem State.modDigest_life (g : DigestCnt → DigestCnt) : (s.modDigest g).life = s.life := rfl
@[simp] theorem State.modDigest_power (g : DigestCnt → DigestCnt) : (s.modDigest g).power = s.power := rfl
@[simp] theorem State.modDigest_commons (g : DigestCnt → DigestCnt) : (s.modDigest g).commons = s.commons := rfl
@[simp] theorem State.modDigest_hostif (g : DigestCnt → DigestCnt) : (s.modDigest g).hostif = s.hostif := rfl
@[simp] theorem State.modDigest_mirror (g : DigestCnt → DigestCnt) : (s.modDigest g).mirror = s.mirror := rfl
@[simp] theorem State.modDigest_hbm (g : DigestCnt → DigestCnt) : (s.modDigest g).hbm = s.hbm := rfl
@[simp] theorem State.modDigest_host (g : DigestCnt → DigestCnt) : (s.modDigest g).host = s.host := rfl
@[simp] theorem State.modDigest_free (g : DigestCnt → DigestCnt) : (s.modDigest g).free = s.free := rfl
@[simp] theorem State.modDigest_resp (g : DigestCnt → DigestCnt) : (s.modDigest g).resp = s.resp := rfl
@[simp] theorem State.modDigest_outbox (g : DigestCnt → DigestCnt) : (s.modDigest g).outbox = s.outbox := rfl
@[simp] theorem State.modDigest_pending (g : DigestCnt → DigestCnt) : (s.modDigest g).pending = s.pending := rfl

/-! ## countReqs -/

@[simp] theorem State.countReqs_glob (n : Nat) : (s.countReqs n).glob = s.glob := rfl
@[simp] theorem State.countReqs_start (n : Nat) : (s.countReqs n).start = s.start := rfl
@[simp] theorem State.countReqs_cfg (n : Nat) : (s.countReqs n).cfg = s.cfg := rfl
@[simp] theorem State.countReqs_live (n : Nat) : (s.countReqs n).live = s.live := rfl
@[simp] theorem State.countReqs_parBad (n : Nat) : (s.countReqs n).parBad = s.parBad := rfl
@[simp] theorem State.countReqs_voteBad (n : Nat) : (s.countReqs n).voteBad = s.voteBad := rfl
@[simp] theorem State.countReqs_hold (n : Nat) : (s.countReqs n).hold = s.hold := rfl
@[simp] theorem State.countReqs_adm (n : Nat) : (s.countReqs n).adm = s.adm := rfl
@[simp] theorem State.countReqs_fields (n : Nat) : (s.countReqs n).fields = s.fields := rfl
@[simp] theorem State.countReqs_hbmc (n : Nat) :
    (s.countReqs n).hbmc = { s.hbmc with servedNow := s.hbmc.servedNow + n } := rfl
@[simp] theorem State.countReqs_handles (n : Nat) : (s.countReqs n).handles = s.handles := rfl
@[simp] theorem State.countReqs_loadsLast (n : Nat) : (s.countReqs n).loadsLast = s.loadsLast := rfl
@[simp] theorem State.countReqs_lateLast (n : Nat) : (s.countReqs n).lateLast = s.lateLast := rfl
@[simp] theorem State.countReqs_loads (n : Nat) : (s.countReqs n).loads = s.loads := rfl
@[simp] theorem State.countReqs_amus (n : Nat) : (s.countReqs n).amus = s.amus := rfl
@[simp] theorem State.countReqs_cores (n : Nat) : (s.countReqs n).cores = s.cores := rfl
@[simp] theorem State.countReqs_pools (n : Nat) : (s.countReqs n).pools = s.pools := rfl
@[simp] theorem State.countReqs_pipes (n : Nat) : (s.countReqs n).pipes = s.pipes := rfl
@[simp] theorem State.countReqs_digest (n : Nat) : (s.countReqs n).digest = s.digest := rfl
@[simp] theorem State.countReqs_seed (n : Nat) : (s.countReqs n).seed = s.seed := rfl
@[simp] theorem State.countReqs_keys (n : Nat) : (s.countReqs n).keys = s.keys := rfl
@[simp] theorem State.countReqs_insts (n : Nat) : (s.countReqs n).insts = s.insts := rfl
@[simp] theorem State.countReqs_intc (n : Nat) : (s.countReqs n).intc = s.intc := rfl
@[simp] theorem State.countReqs_tasks (n : Nat) : (s.countReqs n).tasks = s.tasks := rfl
@[simp] theorem State.countReqs_ctrl (n : Nat) : (s.countReqs n).ctrl = s.ctrl := rfl
@[simp] theorem State.countReqs_faults (n : Nat) : (s.countReqs n).faults = s.faults := rfl
@[simp] theorem State.countReqs_tamper (n : Nat) : (s.countReqs n).tamper = s.tamper := rfl
@[simp] theorem State.countReqs_backup (n : Nat) : (s.countReqs n).backup = s.backup := rfl
@[simp] theorem State.countReqs_life (n : Nat) : (s.countReqs n).life = s.life := rfl
@[simp] theorem State.countReqs_power (n : Nat) : (s.countReqs n).power = s.power := rfl
@[simp] theorem State.countReqs_commons (n : Nat) : (s.countReqs n).commons = s.commons := rfl
@[simp] theorem State.countReqs_hostif (n : Nat) : (s.countReqs n).hostif = s.hostif := rfl
@[simp] theorem State.countReqs_mirror (n : Nat) : (s.countReqs n).mirror = s.mirror := rfl
@[simp] theorem State.countReqs_hbm (n : Nat) : (s.countReqs n).hbm = s.hbm := rfl
@[simp] theorem State.countReqs_host (n : Nat) : (s.countReqs n).host = s.host := rfl
@[simp] theorem State.countReqs_free (n : Nat) : (s.countReqs n).free = s.free := rfl
@[simp] theorem State.countReqs_resp (n : Nat) : (s.countReqs n).resp = s.resp := rfl
@[simp] theorem State.countReqs_outbox (n : Nat) : (s.countReqs n).outbox = s.outbox := rfl
@[simp] theorem State.countReqs_pending (n : Nat) : (s.countReqs n).pending = s.pending := rfl

/-! ## hostPut -/

@[simp] theorem State.hostPut_glob (a : Nat) (b : Byte) : (s.hostPut a b).glob = s.glob := rfl
@[simp] theorem State.hostPut_start (a : Nat) (b : Byte) : (s.hostPut a b).start = s.start := rfl
@[simp] theorem State.hostPut_cfg (a : Nat) (b : Byte) : (s.hostPut a b).cfg = s.cfg := rfl
@[simp] theorem State.hostPut_live (a : Nat) (b : Byte) : (s.hostPut a b).live = s.live := rfl
@[simp] theorem State.hostPut_parBad (a : Nat) (b : Byte) : (s.hostPut a b).parBad = s.parBad := rfl
@[simp] theorem State.hostPut_voteBad (a : Nat) (b : Byte) : (s.hostPut a b).voteBad = s.voteBad := rfl
@[simp] theorem State.hostPut_hold (a : Nat) (b : Byte) : (s.hostPut a b).hold = s.hold := rfl
@[simp] theorem State.hostPut_adm (a : Nat) (b : Byte) : (s.hostPut a b).adm = s.adm := rfl
@[simp] theorem State.hostPut_fields (a : Nat) (b : Byte) : (s.hostPut a b).fields = s.fields := rfl
@[simp] theorem State.hostPut_hbmc (a : Nat) (b : Byte) : (s.hostPut a b).hbmc = s.hbmc := rfl
@[simp] theorem State.hostPut_handles (a : Nat) (b : Byte) : (s.hostPut a b).handles = s.handles := rfl
@[simp] theorem State.hostPut_loadsLast (a : Nat) (b : Byte) : (s.hostPut a b).loadsLast = s.loadsLast := rfl
@[simp] theorem State.hostPut_lateLast (a : Nat) (b : Byte) : (s.hostPut a b).lateLast = s.lateLast := rfl
@[simp] theorem State.hostPut_loads (a : Nat) (b : Byte) : (s.hostPut a b).loads = s.loads := rfl
@[simp] theorem State.hostPut_amus (a : Nat) (b : Byte) : (s.hostPut a b).amus = s.amus := rfl
@[simp] theorem State.hostPut_cores (a : Nat) (b : Byte) : (s.hostPut a b).cores = s.cores := rfl
@[simp] theorem State.hostPut_pools (a : Nat) (b : Byte) : (s.hostPut a b).pools = s.pools := rfl
@[simp] theorem State.hostPut_pipes (a : Nat) (b : Byte) : (s.hostPut a b).pipes = s.pipes := rfl
@[simp] theorem State.hostPut_digest (a : Nat) (b : Byte) : (s.hostPut a b).digest = s.digest := rfl
@[simp] theorem State.hostPut_seed (a : Nat) (b : Byte) : (s.hostPut a b).seed = s.seed := rfl
@[simp] theorem State.hostPut_keys (a : Nat) (b : Byte) : (s.hostPut a b).keys = s.keys := rfl
@[simp] theorem State.hostPut_insts (a : Nat) (b : Byte) : (s.hostPut a b).insts = s.insts := rfl
@[simp] theorem State.hostPut_intc (a : Nat) (b : Byte) : (s.hostPut a b).intc = s.intc := rfl
@[simp] theorem State.hostPut_tasks (a : Nat) (b : Byte) : (s.hostPut a b).tasks = s.tasks := rfl
@[simp] theorem State.hostPut_ctrl (a : Nat) (b : Byte) : (s.hostPut a b).ctrl = s.ctrl := rfl
@[simp] theorem State.hostPut_faults (a : Nat) (b : Byte) : (s.hostPut a b).faults = s.faults := rfl
@[simp] theorem State.hostPut_tamper (a : Nat) (b : Byte) : (s.hostPut a b).tamper = s.tamper := rfl
@[simp] theorem State.hostPut_backup (a : Nat) (b : Byte) : (s.hostPut a b).backup = s.backup := rfl
@[simp] theorem State.hostPut_life (a : Nat) (b : Byte) : (s.hostPut a b).life = s.life := rfl
@[simp] theorem State.hostPut_power (a : Nat) (b : Byte) : (s.hostPut a b).power = s.power := rfl
@[simp] theorem State.hostPut_commons (a : Nat) (b : Byte) : (s.hostPut a b).commons = s.commons := rfl
@[simp] theorem State.hostPut_hostif (a : Nat) (b : Byte) : (s.hostPut a b).hostif = s.hostif := rfl
@[simp] theorem State.hostPut_mirror (a : Nat) (b : Byte) : (s.hostPut a b).mirror = s.mirror := rfl
@[simp] theorem State.hostPut_hbm (a : Nat) (b : Byte) : (s.hostPut a b).hbm = s.hbm := rfl
@[simp] theorem State.hostPut_host (a : Nat) (b : Byte) : (s.hostPut a b).host = mput hostDefault s.host (a % 2 ^ 64) b := rfl
@[simp] theorem State.hostPut_free (a : Nat) (b : Byte) : (s.hostPut a b).free = s.free := rfl
@[simp] theorem State.hostPut_resp (a : Nat) (b : Byte) : (s.hostPut a b).resp = s.resp := rfl
@[simp] theorem State.hostPut_outbox (a : Nat) (b : Byte) : (s.hostPut a b).outbox = s.outbox := rfl
@[simp] theorem State.hostPut_pending (a : Nat) (b : Byte) : (s.hostPut a b).pending = s.pending := rfl

/-! ## Changes of one unit through its value -/

@[simp] theorem State.modField_eq (f : Nat) (g : Field → Field) : s.modField f g = s.setField f (g (s.field f)) := rfl
@[simp] theorem State.modAmu_eq (u : Nat) (g : Amu → Amu) : s.modAmu u g = s.setAmu u (g (s.amu u)) := rfl
@[simp] theorem State.modCore_eq (k : Nat) (g : Core → Core) : s.modCore k g = s.setCore k (g (s.core k)) := rfl
@[simp] theorem State.modPipe_eq (p : Nat) (g : Core → Core) : s.modPipe p g = s.setPipe p (g (s.pipe p)) := rfl
@[simp] theorem State.modInst_eq (n : Nat) (g : Inst → Inst) : s.modInst n g = s.setInst n (g (s.inst n)) := rfl
@[simp] theorem State.modSlot_eq (k : Nat) (g : KSlot → KSlot) : s.modSlot k g = s.setSlot k (g (s.slot k)) := rfl
@[simp] theorem State.modNow_eq (g : BkRegs → BkRegs) : s.modNow g = s.modBk (fun b => { b with now := g b.now }) := rfl
@[simp] theorem State.setRowCnt_eq (r x v : Nat) : s.setRowCnt r x v = s.setRow r { cnt := cput (s.row r).cnt x v } := rfl

/-! ## A free value -/

@[simp] theorem State.draw_glob (bits : Nat) : (s.draw bits).2.glob = s.glob := rfl
@[simp] theorem State.draw_start (bits : Nat) : (s.draw bits).2.start = s.start := rfl
@[simp] theorem State.draw_cfg (bits : Nat) : (s.draw bits).2.cfg = s.cfg := rfl
@[simp] theorem State.draw_live (bits : Nat) : (s.draw bits).2.live = s.live := rfl
@[simp] theorem State.draw_parBad (bits : Nat) : (s.draw bits).2.parBad = s.parBad := rfl
@[simp] theorem State.draw_voteBad (bits : Nat) : (s.draw bits).2.voteBad = s.voteBad := rfl
@[simp] theorem State.draw_hold (bits : Nat) : (s.draw bits).2.hold = s.hold := rfl
@[simp] theorem State.draw_adm (bits : Nat) : (s.draw bits).2.adm = s.adm := rfl
@[simp] theorem State.draw_fields (bits : Nat) : (s.draw bits).2.fields = s.fields := rfl
@[simp] theorem State.draw_hbmc (bits : Nat) : (s.draw bits).2.hbmc = s.hbmc := rfl
@[simp] theorem State.draw_handles (bits : Nat) : (s.draw bits).2.handles = s.handles := rfl
@[simp] theorem State.draw_loadsLast (bits : Nat) : (s.draw bits).2.loadsLast = s.loadsLast := rfl
@[simp] theorem State.draw_lateLast (bits : Nat) : (s.draw bits).2.lateLast = s.lateLast := rfl
@[simp] theorem State.draw_loads (bits : Nat) : (s.draw bits).2.loads = s.loads := rfl
@[simp] theorem State.draw_amus (bits : Nat) : (s.draw bits).2.amus = s.amus := rfl
@[simp] theorem State.draw_cores (bits : Nat) : (s.draw bits).2.cores = s.cores := rfl
@[simp] theorem State.draw_pools (bits : Nat) : (s.draw bits).2.pools = s.pools := rfl
@[simp] theorem State.draw_pipes (bits : Nat) : (s.draw bits).2.pipes = s.pipes := rfl
@[simp] theorem State.draw_digest (bits : Nat) : (s.draw bits).2.digest = s.digest := rfl
@[simp] theorem State.draw_seed (bits : Nat) : (s.draw bits).2.seed = s.seed := rfl
@[simp] theorem State.draw_keys (bits : Nat) : (s.draw bits).2.keys = s.keys := rfl
@[simp] theorem State.draw_insts (bits : Nat) : (s.draw bits).2.insts = s.insts := rfl
@[simp] theorem State.draw_intc (bits : Nat) : (s.draw bits).2.intc = s.intc := rfl
@[simp] theorem State.draw_tasks (bits : Nat) : (s.draw bits).2.tasks = s.tasks := rfl
@[simp] theorem State.draw_ctrl (bits : Nat) : (s.draw bits).2.ctrl = s.ctrl := rfl
@[simp] theorem State.draw_faults (bits : Nat) : (s.draw bits).2.faults = s.faults := rfl
@[simp] theorem State.draw_tamper (bits : Nat) : (s.draw bits).2.tamper = s.tamper := rfl
@[simp] theorem State.draw_backup (bits : Nat) : (s.draw bits).2.backup = s.backup := rfl
@[simp] theorem State.draw_life (bits : Nat) : (s.draw bits).2.life = s.life := rfl
@[simp] theorem State.draw_power (bits : Nat) : (s.draw bits).2.power = s.power := rfl
@[simp] theorem State.draw_commons (bits : Nat) : (s.draw bits).2.commons = s.commons := rfl
@[simp] theorem State.draw_hostif (bits : Nat) : (s.draw bits).2.hostif = s.hostif := rfl
@[simp] theorem State.draw_mirror (bits : Nat) : (s.draw bits).2.mirror = s.mirror := rfl
@[simp] theorem State.draw_hbm (bits : Nat) : (s.draw bits).2.hbm = s.hbm := rfl
@[simp] theorem State.draw_host (bits : Nat) : (s.draw bits).2.host = s.host := rfl
@[simp] theorem State.draw_free (bits : Nat) : (s.draw bits).2.free = s.free + 1 := rfl
@[simp] theorem State.draw_resp (bits : Nat) : (s.draw bits).2.resp = s.resp := rfl
@[simp] theorem State.draw_outbox (bits : Nat) : (s.draw bits).2.outbox = s.outbox := rfl
@[simp] theorem State.draw_pending (bits : Nat) : (s.draw bits).2.pending = s.pending := rfl
@[simp] theorem State.draw_fst (bits : Nat) : (s.draw bits).1 = Config.freeNat s.free bits % 2 ^ bits := rfl

end Sys2Proof.Machine
end

