-- ==== Sys2Proof/Laws/Engines.lean ====
section
/-! SUPPORT. What the beginning of operations can do, said once: everything that `State.begins` is made of keeps the rest of the state. -/

namespace Sys2Proof.Machine

variable {s t u : State}

namespace EnginesOnly

theorem refl (s : State) : EnginesOnly s s := ⟨rfl, ⟨[], by simp⟩, fun h => ⟨h, fun _ => rfl⟩, fun h => ⟨h, fun _ => rfl⟩, fun h => ⟨h, fun _ => rfl⟩⟩

theorem trans (a : EnginesOnly s t) (b : EnginesOnly t u) : EnginesOnly s u where
  rest := b.rest.trans a.rest
  reports := by
    obtain ⟨k, hk⟩ := a.reports
    obtain ⟨l, hl⟩ := b.reports
    exact ⟨k ++ l, by rw [hl, hk, List.append_assoc]⟩
  slots h := by
    obtain ⟨h, ha⟩ := a.slots h
    obtain ⟨h, hb⟩ := b.slots h
    exact ⟨h, fun n => by rw [hb n, ha n]⟩
  cores h := by
    obtain ⟨h, ha⟩ := a.cores h
    obtain ⟨h, hb⟩ := b.cores h
    exact ⟨h, fun k => (hb k).trans (ha k)⟩
  pipes h := by
    obtain ⟨h, ha⟩ := a.pipes h
    obtain ⟨h, hb⟩ := b.pipes h
    exact ⟨h, fun k => (hb k).trans (ha k)⟩

/-- A change of what `withoutEngines` leaves out, but of reports, slots, cores and pipelines. -/
theorem same (h : t.withoutEngines = s.withoutEngines) (r : t.faults.reports = s.faults.reports) (k : t.keys.slots = s.keys.slots)
    (c : t.cores = s.cores) (p : t.pipes = s.pipes) : EnginesOnly s t where
  rest := h
  reports := ⟨[], by simp [r]⟩
  slots h := by
    have e : ∀ n, t.slot n = s.slot n := fun n => by unfold State.slot; rw [k]
    exact ⟨by rw [k]; exact h, fun n => by rw [e n]⟩
  cores h := ⟨by rw [c]; exact h, fun n => by unfold State.core; rw [c]⟩
  pipes h := ⟨by rw [p]; exact h, fun n => by unfold State.pipe; rw [p]⟩

theorem ite {c : Prop} [Decidable c] (a : EnginesOnly s t) (b : EnginesOnly s u) : EnginesOnly s (if c then t else u) := by
  split
  · exact a
  · exact b

/-- A fold of such steps. -/
theorem foldl {β : Type} {f : State → β → State} (hf : ∀ s b, EnginesOnly s (f s b)) (l : List β) (s : State) :
    EnginesOnly s (l.foldl f s) := by
  induction l generalizing s with
  | nil => exact refl s
  | cons b l ih => exact (hf s b).trans (ih _)

/-! ## The parts -/

theorem raise (s : State) (n : Nat) (u : BitVec 16) (d0 d1 : Nat) : EnginesOnly s (s.raise n u d0 d1) := by
  unfold State.raise; split
  · exact refl s
  · refine ite (refl s) ⟨rfl, ⟨_, rfl⟩, fun h => ⟨h, fun _ => rfl⟩, fun h => ⟨h, fun _ => rfl⟩, fun h => ⟨h, fun _ => rfl⟩⟩
theorem drawBytes (s : State) (n : Nat) : EnginesOnly s (s.drawBytes n).2 := same rfl rfl rfl rfl rfl
theorem countReqs (s : State) (n : Nat) : EnginesOnly s (s.countReqs n) := same rfl rfl rfl rfl rfl
theorem fencedReads (s : State) (q n : Nat) : EnginesOnly s (s.fencedReads q n) := by
  induction n generalizing s q with
  | zero => exact refl s
  | succ n ih =>
    refine trans ?_ (ih _ _)
    refine ite (trans (t := { s with hbmc := { s.hbmc with fencedReads := satInc 32 s.hbmc.fencedReads } }) ?_ (raise _ _ _ _ _)) (refl s)
    exact same rfl rfl rfl rfl rfl
theorem hbmRead (s : State) (a n : Nat) : EnginesOnly s (s.hbmRead a n).2 := (countReqs s _).trans (fencedReads _ _ _)
theorem dropErrs (s : State) (l : List (Nat × Nat)) : EnginesOnly s (s.dropErrs l) := ite (refl s) (same rfl rfl rfl rfl rfl)
theorem hostRead (s : State) (a n : Nat) : EnginesOnly s (s.hostRead a n).2 := by
  unfold State.hostRead; split
  · exact raise s 472 0 0 0
  · exact (dropErrs s _).trans (foldl (fun s _ => raise s _ _ _ _) _ _)
theorem memRead (s : State) (host : Bool) (a n : Nat) : EnginesOnly s (s.memRead host a n).2 := by
  unfold State.memRead; split
  · exact hostRead s a n
  · exact hbmRead s a n
theorem setStream (s : State) (k : Nat) (x : Stream) : EnginesOnly s (s.setStream k x) := same rfl rfl rfl rfl rfl
theorem streamBytes (s : State) (k n : Nat) : EnginesOnly s (s.streamBytes k n).2 := setStream s k _
theorem streamMoved (s : State) (k : Nat) : EnginesOnly s (s.streamMoved k) := same rfl rfl rfl rfl rfl
theorem takeAllot {n : Nat} {b : Bytes} (h : s.takeAllot n = some (b, t)) : EnginesOnly s t := by
  unfold State.takeAllot at h; split at h
  · cases h
  · cases h; exact same rfl rfl rfl rfl rfl
theorem modPool (s : State) (p : Nat) (g : PoolCnt → PoolCnt) : EnginesOnly s (s.modPool p g) := same rfl rfl rfl rfl rfl
theorem setWork (s : State) (id i : Nat) (x : OpHeld) : EnginesOnly s (s.setWork id i x) := by
  refine same ?_ rfl rfl rfl rfl
  have h : ∀ l : List Job, (l.map (fun j => if j.id = id then { j with work := mput (fun _ => OpHeld.empty) j.work i x } else j)).map Job.still =
      l.map Job.still := by
    intro l
    rw [List.map_map]
    exact List.map_congr_left (fun j _ => by simp only [Function.comp, Job.still]; split <;> rfl)
  unfold State.withoutEngines
  rw [show (s.setWork id i x).adm.jobs.map Job.still = s.adm.jobs.map Job.still from h s.adm.jobs]
  rfl

/-! ## Key slots -/

theorem cellFails (s : State) (n : Nat) : EnginesOnly s (s.cellFails n) := by
  refine ite (refl s) ?_
  refine trans (t := (s.modSlot n (fun k => { k with reload := true })).modKeys (fun k => { k with cellErr := satInc 32 k.cellErr })) ?_ (raise _ _ _ _ _)
  refine ⟨rfl, ⟨[], by rw [List.append_nil]; rfl⟩, fun h => ⟨mwf_mput h, fun m => ?_⟩, fun h => ⟨h, fun _ => rfl⟩, fun h => ⟨h, fun _ => rfl⟩⟩
  have e : ∀ m, ((s.modSlot n (fun k => { k with reload := true })).modKeys (fun k => { k with cellErr := satInc 32 k.cellErr })).slot m =
      if m = n then { s.slot n with reload := true } else s.slot m := fun m => mget_mput h
  rw [e]; split
  · subst_vars; rfl
  · rfl
theorem mismatch (s : State) (k : Nat) : EnginesOnly s (s.mismatch k) := by
  have h : EnginesOnly s { s with tamper := { s.tamper with mismatch := cput s.tamper.mismatch k (satInc 32 (cget s.tamper.mismatch k)) } } :=
    same rfl rfl rfl rfl rfl
  refine h.trans (ite (trans (ite (refl _) ?_) (raise _ _ _ _ _)) (refl _))
  exact same rfl rfl rfl rfl rfl
theorem cellCheck (s : State) (n inst need : Nat) : EnginesOnly s (s.cellCheck n inst need) := by
  unfold State.cellCheck; dsimp only; split
  · exact trans (t := { s with tamper := { s.tamper with keySplit := false } }) (same rfl rfl rfl rfl rfl) (mismatch _ _)
  · exact ite (cellFails s n) (refl s)

/-! ## The start of an operation, and of whatever has come to run -/

theorem rsaBlind (s : State) (k n : Nat) : EnginesOnly s (s.rsaBlind k n) :=
  ((streamBytes s k n).trans (streamBytes _ k 8)).trans (streamBytes _ k 8)
theorem streamIf (s : State) (on : Bool) (v n : Nat) : EnginesOnly s (s.streamIf on v n).2 := by
  unfold State.streamIf; split
  · exact streamBytes s v n
  · exact refl s
theorem freeRandom (s : State) (v n : Nat) : EnginesOnly s (s.freeRandom v n).2 := (drawBytes s n).trans (streamMoved _ v)
theorem signRandom (s : State) (set : Nat) (p : PSet) (v : Nat) (det : Bool) (e sec : Bytes) :
    EnginesOnly s (s.signRandom set p v det e sec).2 := by
  unfold State.signRandom
  split
  · split
    · exact refl s
    · exact streamBytes s v 32
  · split
    · split
      · exact refl s
      · exact streamBytes s v (p.sec / 4)
    · split
      · dsimp only; exact (streamIf s (eForm e % 4 == 1) v (hashLen (eHash e))).trans (rsaBlind _ v p.pub)
      · split
        · split
          · exact streamMoved s _
          · exact freeRandom s _ _
        · exact streamMoved s _
theorem opRandom (s : State) (op : CryptoOp) (set : Nat) (p : PSet) (v : Nat) (det : Bool) (e sec : Bytes) :
    EnginesOnly s (s.opRandom op set p v det e sec).2 := by
  cases op with
  | keygen => unfold State.opRandom; dsimp only; split; exacts [streamMoved s v, refl s]
  | encaps => unfold State.opRandom; dsimp only; split; exacts [streamBytes s v 32, freeRandom s v 64]
  | sign => exact signRandom s set p v det e sec
  | rsa => exact rsaBlind s _ _
  | agree => exact streamMoved s _
  | decaps => exact refl s
  | verify => exact refl s
theorem readIf (s : State) (on host : Bool) (a n : Nat) : EnginesOnly s (s.readIf on host a n).2 := by
  unfold State.readIf; split
  · exact memRead s host a n
  · exact refl s
theorem opReads (s : State) (j : Job) (op : CryptoOp) (pub i : Nat) : EnginesOnly s (s.opReads j op pub i).2 :=
  ((((hbmRead s _ _).trans (readIf _ _ _ _ _)).trans (readIf _ _ _ _ _)).trans (readIf _ _ _ _ _)).trans (readIf _ _ _ _ _)
theorem seedFor (s : State) (op : CryptoOp) (n : Nat) : EnginesOnly s (s.seedFor op n).2 := by
  unfold State.seedFor; split
  · exact refl s
  · split
    · rename_i h; exact takeAllot h
    · exact refl s
theorem maskFor (s : State) (on : Bool) (c n : Nat) : EnginesOnly s (s.maskFor on c n).2 := by
  unfold State.maskFor; split
  · exact (drawBytes s n).trans (streamMoved _ c)
  · exact refl s
theorem opBegin (s : State) (j : Job) (op : CryptoOp) (set : Nat) (p : PSet) (pub c i : Nat) :
    EnginesOnly s (s.opBegin j op set p pub c i).2 := by
  unfold State.opBegin
  refine EnginesOnly.trans ?_ (maskFor _ _ _ _)
  have h := (opReads s j op pub i).trans (seedFor (s.opReads j op pub i).2 op p.seed)
  have k := h.ite (c := (op == .encaps || pubInMem op (s.opReads j op pub i).1.entry || op == .keygen) = true) (h.trans (cellCheck _
    (eSlot (s.opReads j op pub i).1.entry) j.inst (keyNeed op)))
  dsimp only
  split
  · exact k.trans (opRandom _ _ _ _ _ _ _ _)
  · exact k
theorem carryIn (s : State) (j : Job) (a cb i k : Nat) : EnginesOnly s (s.carryIn j a cb i k).2 := hbmRead s a cb
theorem partReads (s : State) (j : Job) (a : DigAlg) (k i : Nat) : EnginesOnly s (s.partReads j a k i).2 := by
  unfold State.partReads; dsimp only
  split
  · exact (memRead s _ _ _).trans (readIf _ _ _ _ _)
  · split
    · exact refl s
    · split
      · exact hbmRead s _ _
      · exact (hbmRead s _ _).trans (same rfl rfl rfl rfl rfl)
theorem partBegin (s : State) (j : Job) (a : DigAlg) (k i : Nat) : EnginesOnly s (s.partBegin j a k i).2 := by
  have h := partReads s j a k i
  have h := h.ite (c := gKey j.param % 4 = 0) (h.trans (cellCheck _ (gSlot j.param) j.inst polHmac))
  unfold State.partBegin; dsimp only
  split
  · exact h
  · exact h
theorem unitBegins (s : State) (j : Job) (pool c k u : Nat) : EnginesOnly s (s.unitBegins j pool c k u).2 := by
  unfold State.unitBegins; dsimp only
  split
  · split
    · exact refl s
    · split
      · split
        · exact refl s
        · exact (opBegin s _ _ _ _ _ _ _).trans (setWork _ _ _ _)
      · split
        · split
          · exact hbmRead s _ _
          · dsimp only; exact (hbmRead s _ _).trans (modPool _ _ _)
        · exact opBegin s _ _ _ _ _ _ _
  · exact refl s
theorem coreHolds (s : State) (k : Nat) (e : Piece) : EnginesOnly s (s.coreHolds k e).2 := by
  unfold State.coreHolds; split
  · exact refl s
  · split
    · exact unitBegins s _ _ _ _ _
    · exact refl s
theorem modCore (s : State) (k : Nat) (g : Core → Core) (h : ∀ x, (g x).still = x.still) : EnginesOnly s (s.modCore k g) := by
  refine ⟨rfl, ⟨[], by rw [List.append_nil]; rfl⟩, fun h => ⟨h, fun _ => rfl⟩, fun w => ⟨mwf_mput w, fun n => ?_⟩, fun h => ⟨h, fun _ => rfl⟩⟩
  have e : (s.modCore k g).core n = if n = k then g (s.core k) else s.core n := mget_mput w
  rw [e]; split
  · subst_vars; exact h _
  · rfl
theorem modPipe (s : State) (k : Nat) (g : Core → Core) (h : ∀ x, (g x).still = x.still) : EnginesOnly s (s.modPipe k g) := by
  refine ⟨rfl, ⟨[], by rw [List.append_nil]; rfl⟩, fun h => ⟨h, fun _ => rfl⟩, fun h => ⟨h, fun _ => rfl⟩, fun w => ⟨mwf_mput w, fun n => ?_⟩⟩
  have e : (s.modPipe k g).pipe n = if n = k then g (s.pipe k) else s.pipe n := mget_mput w
  rw [e]; split
  · subst_vars; exact h _
  · rfl
theorem coreBegins (s : State) (k : Nat) : EnginesOnly s (s.coreBegins k) := by
  unfold State.coreBegins; split
  · exact (coreHolds s k _).trans (modCore _ _ _ (fun _ => rfl))
  · exact refl s
theorem pipeHolds (s : State) (p : Nat) (e : Piece) : EnginesOnly s (s.pipeHolds p e).2 := by
  unfold State.pipeHolds; split
  · exact refl s
  · split
    · split
      · exact partBegin s _ _ _ _
      · exact refl s
    · exact refl s
theorem pipeBegins (s : State) (p : Nat) : EnginesOnly s (s.pipeBegins p) := by
  unfold State.pipeBegins; split
  · exact (pipeHolds s p _).trans (modPipe _ _ _ (fun _ => rfl))
  · exact refl s
/-- Whatever begins touches the engines only. -/
theorem begins (s : State) : EnginesOnly s s.begins := (foldl coreBegins _ s).trans (foldl pipeBegins _ _)

end EnginesOnly

end Sys2Proof.Machine
end

