-- ==== Sys2Proof/Laws/Canonical.lean ====
section
/-! SUPPORT. Every operation that writes a memory, a register store or a unit table keeps its canonical form, and the shared
operations made of them keep the canonical form of the whole state. -/

namespace Sys2Proof.Machine

/-- The parts of State that `State.Canonical` speaks of. -/
def State.stores (s : State) :=
  (s.hbm, s.host, s.ctrl.mem, s.cfg, s.live, s.fields, s.amus, s.cores, s.pipes, s.insts)

theorem canonical_iff {s : State} : s.Canonical ↔
    (mwf hbmDefault s.hbm = true ∧ mwf hostDefault s.host = true ∧ mwf hostDefault s.ctrl.mem = true) ∧
    mwf regReset s.cfg = true ∧ mwf regReset s.live = true ∧ mwf (fun _ => Field.init) s.fields = true ∧
    mwf (fun _ => Amu.init) s.amus = true ∧ mwf (fun _ => Core.init) s.cores = true ∧
    mwf (fun _ => Core.init) s.pipes = true ∧ mwf Inst.init s.insts = true := by
  simp [State.Canonical, Memory.wf, State.tablesWf, and_assoc]

variable {s t : State}

theorem State.Canonical.hbm (h : s.Canonical) : mwf hbmDefault s.hbm = true := (canonical_iff.1 h).1.1
theorem State.Canonical.host (h : s.Canonical) : mwf hostDefault s.host = true := (canonical_iff.1 h).1.2.1
theorem State.Canonical.coreMem (h : s.Canonical) : mwf hostDefault s.ctrl.mem = true := (canonical_iff.1 h).1.2.2
theorem State.Canonical.cfg (h : s.Canonical) : mwf regReset s.cfg = true := (canonical_iff.1 h).2.1
theorem State.Canonical.live (h : s.Canonical) : mwf regReset s.live = true := (canonical_iff.1 h).2.2.1
theorem State.Canonical.fields (h : s.Canonical) : mwf (fun _ => Field.init) s.fields = true :=
  (canonical_iff.1 h).2.2.2.1
theorem State.Canonical.amus (h : s.Canonical) : mwf (fun _ => Amu.init) s.amus = true :=
  (canonical_iff.1 h).2.2.2.2.1
theorem State.Canonical.cores (h : s.Canonical) : mwf (fun _ => Core.init) s.cores = true :=
  (canonical_iff.1 h).2.2.2.2.2.1
theorem State.Canonical.pipes (h : s.Canonical) : mwf (fun _ => Core.init) s.pipes = true :=
  (canonical_iff.1 h).2.2.2.2.2.2.1
theorem State.Canonical.insts (h : s.Canonical) : mwf Inst.init s.insts = true := (canonical_iff.1 h).2.2.2.2.2.2.2

/-- An update that leaves the stores alone keeps the canonical form. -/
theorem canonical_same (h : s.Canonical) (e : t.stores = s.stores) : t.Canonical := by
  simp only [State.stores, Prod.mk.injEq] at e
  rw [canonical_iff] at *
  simp only [e]; exact h

/-- A fold of steps that keep it keeps it. -/
theorem canonical_foldl {β : Type} {f : State → β → State} (hf : ∀ s b, s.Canonical → (f s b).Canonical) (l : List β)
    (h : s.Canonical) : (l.foldl f s).Canonical := by
  induction l generalizing s with
  | nil => exact h
  | cons b l ih => exact ih (hf s b h)

theorem canonical_ite {c : Prop} [Decidable c] (ht : t.Canonical) (hs : s.Canonical) :
    (if c then t else s).Canonical := by split; exacts [ht, hs]

/-- Whatever begins keeps it. -/
theorem canonical_engines (h : s.Canonical) (e : EnginesOnly s t) : t.Canonical := by
  have hc := e.cores h.cores
  have hp := e.pipes h.pipes
  have g : ∀ {α : Type} (f : State → α), f t.withoutEngines = f s.withoutEngines := fun f => congrArg f e.rest
  rw [canonical_iff] at *
  exact ⟨⟨(g State.hbm : t.hbm = s.hbm) ▸ h.1.1, (g State.host : t.host = s.host) ▸ h.1.2.1,
    (g (fun u => u.ctrl.mem) : t.ctrl.mem = s.ctrl.mem) ▸ h.1.2.2⟩, (g State.cfg : t.cfg = s.cfg) ▸ h.2.1,
    (g State.live : t.live = s.live) ▸ h.2.2.1, (g State.fields : t.fields = s.fields) ▸ h.2.2.2.1,
    (g State.amus : t.amus = s.amus) ▸ h.2.2.2.2.1, hc.1, hp.1, (g State.insts : t.insts = s.insts) ▸ h.2.2.2.2.2.2.2⟩
theorem canonical_begins (h : s.Canonical) : s.begins.Canonical := canonical_engines h (EnginesOnly.begins s)

/-! ## Fields that hold no store -/

theorem canonical_glob {x : Glob} (h : s.Canonical) : ({ s with glob := x } : State).Canonical := canonical_same h rfl
theorem canonical_start {x : Startup} (h : s.Canonical) : ({ s with start := x } : State).Canonical := canonical_same h rfl
theorem canonical_parBad {x : List Nat} (h : s.Canonical) : ({ s with parBad := x } : State).Canonical := canonical_same h rfl
theorem canonical_voteBad {x : List (Nat × Bool)} (h : s.Canonical) : ({ s with voteBad := x } : State).Canonical := canonical_same h rfl
theorem canonical_hold {x : SMap Word} (h : s.Canonical) : ({ s with hold := x } : State).Canonical := canonical_same h rfl
theorem canonical_admit {x : Admit} (h : s.Canonical) : ({ s with adm := x } : State).Canonical := canonical_same h rfl
theorem canonical_hbmc {x : Hbmc} (h : s.Canonical) : ({ s with hbmc := x } : State).Canonical := canonical_same h rfl
theorem canonical_handles {x : SMap Handle} (h : s.Canonical) : ({ s with handles := x } : State).Canonical := canonical_same h rfl
theorem canonical_loadsLast {x : Nat} (h : s.Canonical) : ({ s with loadsLast := x } : State).Canonical := canonical_same h rfl
theorem canonical_lateLast {x : Nat} (h : s.Canonical) : ({ s with lateLast := x } : State).Canonical := canonical_same h rfl
theorem canonical_loads {x : DWord} (h : s.Canonical) : ({ s with loads := x } : State).Canonical := canonical_same h rfl
theorem canonical_pools {x : SMap PoolCnt} (h : s.Canonical) : ({ s with pools := x } : State).Canonical := canonical_same h rfl
theorem canonical_digest {x : DigestCnt} (h : s.Canonical) : ({ s with digest := x } : State).Canonical := canonical_same h rfl
theorem canonical_seed {x : Seedbank} (h : s.Canonical) : ({ s with seed := x } : State).Canonical := canonical_same h rfl
theorem canonical_keys {x : KeyStore} (h : s.Canonical) : ({ s with keys := x } : State).Canonical := canonical_same h rfl
theorem canonical_intc {x : Intc} (h : s.Canonical) : ({ s with intc := x } : State).Canonical := canonical_same h rfl
theorem canonical_tasks {x : Tasks} (h : s.Canonical) : ({ s with tasks := x } : State).Canonical := canonical_same h rfl
theorem canonical_faults {x : Faults} (h : s.Canonical) : ({ s with faults := x } : State).Canonical := canonical_same h rfl
theorem canonical_tamper {x : Tamper} (h : s.Canonical) : ({ s with tamper := x } : State).Canonical := canonical_same h rfl
theorem canonical_backup {x : Backup} (h : s.Canonical) : ({ s with backup := x } : State).Canonical := canonical_same h rfl
theorem canonical_life {x : Life} (h : s.Canonical) : ({ s with life := x } : State).Canonical := canonical_same h rfl
theorem canonical_power {x : Power} (h : s.Canonical) : ({ s with power := x } : State).Canonical := canonical_same h rfl
theorem canonical_commons {x : Commons} (h : s.Canonical) : ({ s with commons := x } : State).Canonical := canonical_same h rfl
theorem canonical_hostif {x : HostIf} (h : s.Canonical) : ({ s with hostif := x } : State).Canonical := canonical_same h rfl
theorem canonical_mirror {x : Mirror} (h : s.Canonical) : ({ s with mirror := x } : State).Canonical := canonical_same h rfl
theorem canonical_free {x : Nat} (h : s.Canonical) : ({ s with free := x } : State).Canonical := canonical_same h rfl
theorem canonical_resp {x : Resp} (h : s.Canonical) : ({ s with resp := x } : State).Canonical := canonical_same h rfl
theorem canonical_outbox {x : List Out} (h : s.Canonical) : ({ s with outbox := x } : State).Canonical := canonical_same h rfl
theorem canonical_pending {x : List Instr} (h : s.Canonical) : ({ s with pending := x } : State).Canonical := canonical_same h rfl

/-! ## The stores, one by one -/

theorem canonical_hbm {m : SMap Byte} (h : s.Canonical) (hm : mwf hbmDefault m = true) :
    ({ s with hbm := m } : State).Canonical := by
  rw [canonical_iff] at *; exact ⟨⟨hm, h.1.2⟩, h.2⟩
theorem canonical_host {m : SMap Byte} (h : s.Canonical) (hm : mwf hostDefault m = true) :
    ({ s with host := m } : State).Canonical := by
  rw [canonical_iff] at *; exact ⟨⟨h.1.1, hm, h.1.2.2⟩, h.2⟩
theorem canonical_ctrl {c : Cores} (h : s.Canonical) (hm : mwf hostDefault c.mem = true) :
    ({ s with ctrl := c } : State).Canonical := by
  rw [canonical_iff] at *; exact ⟨⟨h.1.1, h.1.2.1, hm⟩, h.2⟩
theorem canonical_cfg {m : SMap Word} (h : s.Canonical) (hm : mwf regReset m = true) :
    ({ s with cfg := m } : State).Canonical := by
  rw [canonical_iff] at *; exact ⟨h.1, hm, h.2.2⟩
theorem canonical_live {m : SMap Word} (h : s.Canonical) (hm : mwf regReset m = true) :
    ({ s with live := m } : State).Canonical := by
  rw [canonical_iff] at *; exact ⟨h.1, h.2.1, hm, h.2.2.2⟩
theorem canonical_fields {m : SMap Field} (h : s.Canonical) (hm : mwf (fun _ => Field.init) m = true) :
    ({ s with fields := m } : State).Canonical := by
  rw [canonical_iff] at *; exact ⟨h.1, h.2.1, h.2.2.1, hm, h.2.2.2.2⟩
theorem canonical_amus {m : SMap Amu} (h : s.Canonical) (hm : mwf (fun _ => Amu.init) m = true) :
    ({ s with amus := m } : State).Canonical := by
  rw [canonical_iff] at *; exact ⟨h.1, h.2.1, h.2.2.1, h.2.2.2.1, hm, h.2.2.2.2.2⟩
theorem canonical_cores {m : SMap Core} (h : s.Canonical) (hm : mwf (fun _ => Core.init) m = true) :
    ({ s with cores := m } : State).Canonical := by
  rw [canonical_iff] at *; exact ⟨h.1, h.2.1, h.2.2.1, h.2.2.2.1, h.2.2.2.2.1, hm, h.2.2.2.2.2.2⟩
theorem canonical_pipes {m : SMap Core} (h : s.Canonical) (hm : mwf (fun _ => Core.init) m = true) :
    ({ s with pipes := m } : State).Canonical := by
  rw [canonical_iff] at *
  exact ⟨h.1, h.2.1, h.2.2.1, h.2.2.2.1, h.2.2.2.2.1, h.2.2.2.2.2.1, hm, h.2.2.2.2.2.2.2⟩
theorem canonical_insts {m : SMap Inst} (h : s.Canonical) (hm : mwf Inst.init m = true) :
    ({ s with insts := m } : State).Canonical := by
  rw [canonical_iff] at *
  exact ⟨h.1, h.2.1, h.2.2.1, h.2.2.2.1, h.2.2.2.2.1, h.2.2.2.2.2.1, h.2.2.2.2.2.2.1, hm⟩

/-! ## Updates of one unit -/

theorem canonical_setField (h : s.Canonical) (f : Nat) (x : Field) : (s.setField f x).Canonical :=
  canonical_fields h (mwf_mput h.fields)
theorem canonical_modField (h : s.Canonical) (f : Nat) (g : Field → Field) : (s.modField f g).Canonical :=
  canonical_setField h f _
theorem canonical_setAmu (h : s.Canonical) (u : Nat) (x : Amu) : (s.setAmu u x).Canonical :=
  canonical_amus h (mwf_mput h.amus)
theorem canonical_modAmu (h : s.Canonical) (u : Nat) (g : Amu → Amu) : (s.modAmu u g).Canonical := canonical_setAmu h u _
theorem canonical_setCore (h : s.Canonical) (k : Nat) (x : Core) : (s.setCore k x).Canonical :=
  canonical_cores h (mwf_mput h.cores)
theorem canonical_modCore (h : s.Canonical) (k : Nat) (g : Core → Core) : (s.modCore k g).Canonical :=
  canonical_setCore h k _
theorem canonical_setPipe (h : s.Canonical) (k : Nat) (x : Core) : (s.setPipe k x).Canonical :=
  canonical_pipes h (mwf_mput h.pipes)
theorem canonical_modPipe (h : s.Canonical) (k : Nat) (g : Core → Core) : (s.modPipe k g).Canonical :=
  canonical_setPipe h k _
theorem canonical_setInst (h : s.Canonical) (n : Nat) (x : Inst) : (s.setInst n x).Canonical :=
  canonical_insts h (mwf_mput h.insts)
theorem canonical_modInst (h : s.Canonical) (n : Nat) (g : Inst → Inst) : (s.modInst n g).Canonical :=
  canonical_setInst h n _
theorem canonical_setCfg (h : s.Canonical) (a : Nat) (w : Word) : (s.setCfg a w).Canonical :=
  canonical_cfg h (mwf_mput h.cfg)
theorem canonical_setLive (h : s.Canonical) (a : Nat) (w : Word) : (s.setLive a w).Canonical :=
  canonical_live h (mwf_mput h.live)

/-! ## Memories -/

theorem canonical_hbmPut (h : s.Canonical) (a : Nat) (b : Byte) : (s.hbmPut a b).Canonical := by
  unfold State.hbmPut; split
  · exact h
  · exact canonical_hbm h (mwf_mput h.hbm)
theorem canonical_hbmPoke (h : s.Canonical) (a : Nat) (b : Bytes) : (s.hbmPoke a b).Canonical := by
  induction b generalizing s a with
  | nil => exact h
  | cons x b ih => exact ih (canonical_hbmPut h a x) (a + 1)
theorem canonical_countReqs (h : s.Canonical) (n : Nat) : (s.countReqs n).Canonical := canonical_same h rfl
theorem canonical_hbmWrite (h : s.Canonical) (a : Nat) (b : Bytes) : (s.hbmWrite a b).Canonical :=
  canonical_hbmPoke (canonical_countReqs h _) a b
theorem canonical_hostPut (h : s.Canonical) (a : Nat) (b : Byte) : (s.hostPut a b).Canonical :=
  canonical_host h (mwf_mput h.host)
theorem canonical_hostPoke (h : s.Canonical) (a : Nat) (b : Bytes) : (s.hostPoke a b).Canonical := by
  induction b generalizing s a with
  | nil => exact h
  | cons x b ih => exact ih (canonical_hostPut h a x) (a + 1)
theorem canonical_corePoke (h : s.Canonical) (c a : Nat) (b : Bytes) : (s.corePoke c a b).Canonical := by
  induction b generalizing s a with
  | nil => exact h
  | cons x b ih => exact ih (canonical_ctrl h (mwf_mput h.coreMem)) (a + 1)

/-! ## Reports and interrupts -/

theorem canonical_raise (h : s.Canonical) (n : Nat) (u : BitVec 16) (d0 d1 : Nat) : (s.raise n u d0 d1).Canonical := by
  unfold State.raise; split
  · exact h
  · split
    · exact h
    · exact canonical_same h rfl
theorem canonical_setCause (h : s.Canonical) (n : Nat) (v : Bool) : (s.setCause n v).Canonical := canonical_same h rfl
theorem canonical_settleCause (h : s.Canonical) (b : Nat) : (s.settleCause b).Canonical := by
  have k := canonical_ite (c := s.voteBad.any (fun e => blockOf e.1 == b) = true) h (canonical_setCause h (3 * b + 1) false)
  exact canonical_ite k (canonical_setCause k (3 * b + 2) false)
theorem canonical_checkParity (h : s.Canonical) (a : Nat) : (s.checkParity a).Canonical :=
  canonical_ite (canonical_setCause (canonical_raise h _ _ _ _) _ _) h
theorem canonical_uses (h : s.Canonical) (as : List Nat) : (s.uses as).Canonical :=
  canonical_ite h (canonical_foldl (fun _ _ k => canonical_checkParity k _) _ h)
theorem canonical_rewritten (h : s.Canonical) (a : Nat) : (s.rewritten a).Canonical := by
  refine canonical_ite h (canonical_settleCause ?_ _)
  exact canonical_same h rfl
theorem canonical_liveAgain (h : s.Canonical) (a : Nat) : (s.liveAgain a).Canonical := by
  refine canonical_ite h (canonical_settleCause ?_ _)
  exact canonical_same h rfl
theorem canonical_pendSrc (h : s.Canonical) (n : Nat) : (s.pendSrc n).Canonical := by
  unfold State.pendSrc; split
  · exact h
  · exact canonical_same h rfl
theorem canonical_msix (h : s.Canonical) (fn v : Nat) : (s.msix fn v).Canonical := by
  unfold State.msix; split <;> exact canonical_same h rfl
theorem canonical_fencedReads (h : s.Canonical) (q n : Nat) : (s.fencedReads q n).Canonical := by
  induction n generalizing s q with
  | zero => exact h
  | succ n ih =>
    refine ih (canonical_ite (canonical_raise ?_ _ _ _ _) h) (q + 1)
    exact canonical_same h rfl
theorem canonical_hbmRead (h : s.Canonical) (a n : Nat) : (s.hbmRead a n).2.Canonical :=
  canonical_fencedReads (canonical_countReqs h _) _ _
theorem canonical_dropErrs (h : s.Canonical) (l : List (Nat × Nat)) : (s.dropErrs l).Canonical := by
  unfold State.dropErrs; split
  · exact h
  · exact canonical_same h rfl
theorem canonical_hostRead (h : s.Canonical) (a n : Nat) : (s.hostRead a n).2.Canonical := by
  unfold State.hostRead; split
  · exact canonical_raise h _ _ _ _
  · exact canonical_foldl (fun _ _ k => canonical_raise k _ _ _ _) _ (canonical_dropErrs h _)
theorem canonical_hostWrite (h : s.Canonical) (a : Nat) (b : Bytes) : (s.hostWrite a b).Canonical := by
  unfold State.hostWrite; split
  · exact h
  · refine canonical_dropErrs (canonical_foldl (fun u e k => ?_) _ h) _
    exact canonical_ite k (canonical_hostPut k _ _)
theorem canonical_memRead (h : s.Canonical) (host : Bool) (a n : Nat) : (s.memRead host a n).2.Canonical := by
  unfold State.memRead; split
  · exact canonical_hostRead h a n
  · exact canonical_hbmRead h a n
theorem canonical_memWrite (h : s.Canonical) (host : Bool) (a : Nat) (b : Bytes) : (s.memWrite host a b).Canonical := by
  unfold State.memWrite; split
  · exact canonical_hostWrite h a b
  · exact canonical_hbmWrite h a b
theorem canonical_draw (h : s.Canonical) (n : Nat) : (s.draw n).2.Canonical := canonical_same h rfl
theorem canonical_drawBytes (h : s.Canonical) (n : Nat) : (s.drawBytes n).2.Canonical := canonical_same h rfl

/-! ## Ledgers, records and the end of a job -/

theorem canonical_setUsed (h : s.Canonical) (i p r v : Nat) : (s.setUsed i p r v).Canonical := canonical_hbmPoke h _ _
theorem canonical_setRowCnt (h : s.Canonical) (r x v : Nat) : (s.setRowCnt r x v).Canonical := canonical_same h rfl
theorem canonical_chargeLenders (h : s.Canonical) (p r : Nat) (l : List Nat) (e : Nat) :
    (s.chargeLenders p r l e).Canonical := by
  induction l generalizing s e with
  | nil => cases e <;> exact h
  | cons a l ih =>
    cases e with
    | zero => exact h
    | succ e =>
      unfold State.chargeLenders; dsimp only
      refine ih ?_ _
      split
      · exact h
      · exact canonical_setUsed h _ _ _ _
theorem canonical_chargeLedger (h : s.Canonical) (i p r amt : Nat) (lend : Bool) :
    (s.chargeLedger i p r amt lend).Canonical := by
  unfold State.chargeLedger; split
  · exact h
  · dsimp only
    refine canonical_setUsed ?_ _ _ _ _
    split
    · exact canonical_chargeLenders h _ _ _ _
    · exact h
theorem canonical_cqSignal (h : s.Canonical) (n q : Nat) : (s.cqSignal n q).Canonical := by
  unfold State.cqSignal; dsimp only; split
  · split
    · exact canonical_same (canonical_setInst h _ _) rfl
    · exact canonical_setInst h _ _
  · exact canonical_msix (canonical_setInst h _ _) _ _
theorem canonical_cqWrite (h : s.Canonical) (n q : Nat) (r : Bytes) : (s.cqWrite n q r).Canonical := by
  have h := canonical_uses h (cqWords n q)
  have k := fun host a b x => canonical_setInst (canonical_memWrite h host a b) n x
  unfold State.cqWrite; dsimp only
  split
  · exact h
  · exact canonical_ite (canonical_cqSignal (k ..) n q) (k ..)
theorem canonical_post (h : s.Canonical) (n q dl : Nat) (r : Bytes) : (s.post n q dl r).Canonical := by
  unfold State.post; split
  · exact h
  · split
    · exact canonical_same h rfl
    · exact canonical_cqWrite h _ _ _
theorem canonical_taskFill (h : s.Canonical) : s.taskFill.Canonical := canonical_same h rfl
theorem canonical_readyEvent (h : s.Canonical) (j : Job) : (s.readyEvent j).Canonical := by
  have k : ∀ u : State, u.Canonical → (if (decide (j.inst = 0) && bit (u.cfgN (0xA80200 + 4 * j.sq)) 0) = true
      then ({ u with tasks := { u.tasks with admBuf := u.tasks.admBuf ++ [j.tag.toNat % 8192] } } : State).taskFill
      else { u with tasks := { u.tasks with jobEnds := satInc 32 u.tasks.jobEnds } }).Canonical :=
    fun u k => canonical_ite (canonical_taskFill (canonical_tasks k)) (canonical_tasks k)
  exact k _ (canonical_ite (canonical_uses h _) h)
theorem canonical_unplace (h : s.Canonical) (i r : Nat) (dem : List (Nat × Nat)) (n : Nat) :
    (s.unplace i r dem n).Canonical :=
  canonical_foldl (fun _ _ k => canonical_setUsed (canonical_setRowCnt k _ _ _) _ _ _ _) _ h
theorem canonical_modJob (h : s.Canonical) (id : Nat) (g : Job → Job) : (s.modJob id g).Canonical := canonical_same h rfl
theorem canonical_releaseJob (h : s.Canonical) (j : Job) : (s.releaseJob j).Canonical := by
  refine canonical_modJob (canonical_foldl (fun u p k => ?_) _ h) _ _
  have k' := canonical_unplace k j.inst p.row ((j.stage p.stage).demand p.fields) (p.count - p.ended - p.gone.length)
  exact canonical_ite k (canonical_ite (canonical_unplace k' _ _ _ _) k')
theorem canonical_doneRecord (h : s.Canonical) (j : Job) (st : Nat) : (s.doneRecord j st).Canonical :=
  canonical_post h _ _ _ _
theorem canonical_sweepJobs (h : s.Canonical) : s.sweepJobs.Canonical := canonical_same h rfl
theorem canonical_modPool (h : s.Canonical) (p : Nat) (g : PoolCnt → PoolCnt) : (s.modPool p g).Canonical :=
  canonical_same h rfl
theorem canonical_dropPieces (h : s.Canonical) (q : Piece → Bool) : (s.dropPieces q).Canonical := by
  unfold State.dropPieces; dsimp only
  have k := canonical_foldl (s := s) (f := fun (s : State) (e : Nat × Core) =>
    if e.2.runs q then s.modPool (corePool e.1) (fun c => { c with wipes := satInc 32 c.wipes }) else s)
    (fun u e k => canonical_ite (canonical_modPool k _ _) k) s.cores h
  exact canonical_begins (canonical_digest (canonical_pipes (canonical_cores k (mwf_mmap _ k.cores)) (mwf_mmap _ k.pipes)))
theorem canonical_stopJob (h : s.Canonical) (id : Nat) : (s.stopJob id).Canonical := by
  have k := canonical_dropPieces h (fun e => e.job == id)
  unfold State.stopJob
  generalize s.dropPieces _ = u at k
  exact canonical_amus (canonical_fields k (mwf_mmap _ k.fields)) (mwf_mmap _ k.amus)
theorem canonical_modCommons (h : s.Canonical) (g : Commons → Commons) : (s.modCommons g).Canonical := canonical_commons h
theorem canonical_sendOn (h : s.Canonical) (w : WaitFrame) : (s.sendOn w).Canonical := by
  unfold State.sendOn; dsimp only; split
  · exact canonical_same h rfl
  · exact canonical_commons h
theorem canonical_sendFrame (h : s.Canonical) (any : Bool) (kind dst : Nat) (c : DWord) (slot off : Nat) (b : Bytes) :
    (s.sendFrame any kind dst c slot off b).Canonical := by
  unfold State.sendFrame; dsimp only; split
  · exact h
  · exact canonical_sendOn (canonical_modCommons h _) _
theorem canonical_resend (h : s.Canonical) (w : WaitFrame) : (s.resend w).Canonical := by
  unfold State.resend; dsimp only; split
  · exact canonical_sendOn h w
  · split
    · exact h
    · exact canonical_sendOn (canonical_modCommons h _) _
theorem canonical_movePlanes (h : s.Canonical) : s.movePlanes.Canonical :=
  canonical_foldl (fun _ _ k => canonical_resend k _) _ (canonical_modCommons h _)
theorem canonical_resendAll (h : s.Canonical) : s.resendAll.Canonical :=
  canonical_foldl (fun _ _ k => canonical_resend k _) _ (canonical_modCommons h _)
theorem canonical_recordClaim (h : s.Canonical) (j : Job) : (s.recordClaim j).Canonical :=
  canonical_modInst (s := { s with free := s.free + 1 + 1 + 1 + 1 }) (canonical_free h) j.inst _
theorem canonical_setHandle (h : s.Canonical) (k : Nat) (x : Handle) : (s.setHandle k x).Canonical := canonical_same h rfl
theorem canonical_blur (h : s.Canonical) (rs : List (Nat × Nat)) : (s.blur rs).Canonical :=
  canonical_foldl (fun _ r k => canonical_hbmPoke (canonical_drawBytes k r.2) _ _) _ h
theorem canonical_ingestEnd (h : s.Canonical) (j : Job) (st : Nat) : (s.ingestEnd j st).Canonical := by
  unfold State.ingestEnd; dsimp only; split
  · exact h
  · split
    · exact canonical_blur h _
    · split
      · exact canonical_blur h _
      · exact h
theorem canonical_jobCleanup (h : s.Canonical) (j : Job) (st : Nat) : (s.jobCleanup j st).Canonical := by
  unfold State.jobCleanup; dsimp only; split
  · split
    · exact canonical_setHandle h _ _
    · split
      · exact canonical_setHandle h _ _
      · exact h
  · split
    · exact canonical_amus h (mwf_mmap _ h.amus)
    · split
      · exact canonical_recordClaim h j
      · split
        · exact canonical_ingestEnd h j st
        · exact h
theorem canonical_modCJobs (h : s.Canonical) (g : CJob → CJob) : (s.modCJobs g).Canonical := canonical_same h rfl
theorem canonical_closePart (h : s.Canonical) (j : Job) (p : Part) (st : Nat) (later : Bool) :
    (s.closePart j p st later).Canonical := by
  have k : ((if later = true then s else s.releaseJob j).stopJob j.id).Canonical :=
    canonical_stopJob (canonical_ite h (canonical_releaseJob h j)) _
  unfold State.closePart; dsimp only
  generalize State.stopJob _ j.id = u at k
  exact canonical_ite (canonical_modCJobs (canonical_modJob k _ _) _)
    (canonical_sweepJobs (canonical_modJob (canonical_sendFrame k ..) _ _))
/-- The end of a job keeps the canonical form. -/
theorem canonical_closeJob (h : s.Canonical) (id st : Nat) (later : Bool) : (s.closeJob id st later).Canonical := by
  unfold State.closeJob; split
  · exact h
  · rename_i j _
    refine canonical_ite h ?_
    split
    · exact canonical_closePart h ..
    · have k := canonical_jobCleanup h j st
      have k := canonical_ite (c := st = 0x10)
        (canonical_admit (x := { (s.jobCleanup j st).adm with lostN := (s.jobCleanup j st).adm.lostN + 1 }) k) k
      have k := canonical_ite (c := later = true) k (canonical_releaseJob k j)
      have k := canonical_stopJob (canonical_modJob (canonical_doneRecord k j st) id
        (fun j => { j with recorded := true, relPend := later, status := some st })) id
      exact canonical_sweepJobs (canonical_ite k (canonical_readyEvent k j))
theorem canonical_setStatus (h : s.Canonical) (id st : Nat) : (s.setStatus id st).Canonical := canonical_modJob h _ _

/-! ## Chip reset -/

theorem canonical_markCopies (h : s.Canonical) (n m : Nat) : (s.markCopies n m).Canonical := canonical_same h rfl
theorem canonical_modSlot (h : s.Canonical) (n : Nat) (g : KSlot → KSlot) : (s.modSlot n g).Canonical := canonical_same h rfl
theorem canonical_firstMark (h : s.Canonical) (e : Nat × KSlot) : (s.firstMark e).Canonical :=
  canonical_ite h (canonical_modSlot (canonical_markCopies h _ _) _ _)
theorem canonical_markDurable (h : s.Canonical) (n : Nat) : (s.markDurable n).Canonical := by
  unfold State.markDurable; split
  · exact h
  · exact canonical_markCopies (canonical_modSlot h _ _) _ _
theorem canonical_marksDurable (h : s.Canonical) (n k : Nat) : (s.marksDurable n k).Canonical := by
  induction k generalizing s with
  | zero => exact h
  | succ k ih => exact ih (canonical_markDurable h n)
theorem canonical_allMarks (h : s.Canonical) : s.allMarks.Canonical := canonical_foldl (fun _ _ k => canonical_marksDurable k _ _) _ h
theorem canonical_durableOne (h : s.Canonical) : s.durableOne.Canonical := by
  unfold State.durableOne; split
  · exact h
  · rename_i c _ _
    have k := canonical_foldl (fun _ e k => canonical_firstMark k e) c.sets h
    dsimp only
    generalize c.sets.foldl State.firstMark s = u at k
    split <;> exact canonical_same k rfl
theorem canonical_durableN (h : s.Canonical) (n : Nat) : (s.durableN n).Canonical := by
  induction n generalizing s with
  | zero => exact h
  | succ n ih => exact ih (canonical_durableOne h)
theorem canonical_settleCommits (h : s.Canonical) : s.settleCommits.Canonical := by
  unfold State.settleCommits; dsimp only; split
  · exact h
  · refine canonical_ite (canonical_durableN (canonical_allMarks (canonical_draw h 16)) _) ?_
    exact canonical_foldl (fun _ _ k => canonical_marksDurable (canonical_draw k 32) _ _) _ (canonical_draw h 16)
/-- A chip reset leaves every store in canonical form. -/
theorem canonical_chipReset (h : s.Canonical) (c : BitVec 7) : (s.chipReset c).Canonical := by
  have k := canonical_settleCommits h
  have hh : mwf hbmDefault (if s.settleCommits.power.ps4Ready = true then []
      else s.settleCommits.hbm.filter (fun e => !isLedger e.1)) = true := by
    split
    · rfl
    · exact mwf_filter _ k.hbm
  rw [canonical_iff]
  exact ⟨⟨hh, k.host, rfl⟩, mwf_filter _ k.cfg, rfl, rfl, rfl, rfl, rfl, rfl⟩
theorem canonical_tamperReset (h : s.Canonical) : s.tamperReset.Canonical :=
  canonical_backup (canonical_chipReset (s := s.copyCause) (canonical_faults h) causeTamper)
theorem canonical_latchTamper (h : s.Canonical) (n : Nat) (a b : Bool) : (s.latchTamper n a b).Canonical :=
  canonical_ite h (canonical_backup h)
theorem canonical_alarm (h : s.Canonical) (n : Nat) (a b : Bool) : (s.alarm n a b).Canonical :=
  canonical_ite (canonical_raise (canonical_latchTamper h n a b) _ _ _ _) h
theorem canonical_mismatch (h : s.Canonical) (k : Nat) : (s.mismatch k).Canonical :=
  canonical_alarm (canonical_tamper h) _ _ _
theorem canonical_retireRow (h : s.Canonical) (r : Nat) : (s.retireRow r).Canonical :=
  canonical_same (canonical_hbm h (mwf_filter _ h.hbm)) rfl

/-! ## Unchecked conditions -/

theorem canonical_anything (h : s.Canonical) : s.anything.Canonical := by
  unfold State.anything; dsimp only; split
  · exact canonical_free h
  · rename_i t _
    split
    · rename_i ht
      exact canonical_same (s := t) (by simpa [State.Canonical] using ht) rfl
    · exact canonical_free h
theorem canonical_controlAnything (h : s.Canonical) : s.controlAnything.Canonical := by
  unfold State.controlAnything; dsimp only; split
  · exact canonical_free h
  · split
    · rename_i ht; exact canonical_ctrl (canonical_tasks (canonical_intc (canonical_free h))) ht
    · exact canonical_free h
theorem canonical_queueAnything (h : s.Canonical) (n : Nat) : (s.queueAnything n).Canonical := by
  unfold State.queueAnything; dsimp only; split
  · exact canonical_free h
  · refine canonical_foldl (fun u a k => ?_) _ (canonical_setInst (canonical_foldl (fun u q k => ?_) _ (canonical_free h)) n _)
    · split
      · exact canonical_ite k (canonical_setCfg k _ _)
      · exact k
    · exact canonical_ite k (canonical_memWrite (canonical_drawBytes k _) _ _ _)
/-- Whatever an unchecked condition leaves is in canonical form. -/
theorem canonical_unchecked (h : s.Canonical) (c : Scope) : (s.unchecked c).Canonical := by
  cases c
  · exact canonical_queueAnything h _
  · exact canonical_controlAnything h
  · exact canonical_anything h

theorem canonical_anyStatus (h : s.Canonical) (id : Nat) : (s.anyStatus id).Canonical := by
  unfold State.anyStatus; dsimp only; split
  · exact canonical_modJob (canonical_draw h 9) _ _
  · exact canonical_draw h 9
theorem canonical_settle (h : t.Canonical) (j : Job) (bad : Bool) : (s.settle t j bad).Canonical := by
  unfold State.settle; split
  · exact h
  · exact canonical_anyStatus (canonical_foldl (fun _ _ k => canonical_hostPut k _ _) _
      (canonical_foldl (fun _ _ k => canonical_hbmPut k _ _) _
      (canonical_drawBytes h (((cellsChanged hbmDefault s.hbm t.hbm).filter (fun k => !isLedger k)).length + (cellsChanged hostDefault s.host t.host).length)))) _
/-- A job without an unchecked condition: its units have the effect of their own rules. -/
theorem settle_checked {j : Job} (h : j.unchecked = false) : s.settle t j false = t := by simp [State.settle, h]

end Sys2Proof.Machine
end

