-- ==== Sys2Proof/Laws/Ops.lean ====
section
/-! SUPPORT. What each shared operation can do, said once: reading a unit after it is set, memory after a write, a report, an
interrupt, the status of a job, and the two wrappers of the meanings. -/

namespace Sys2Proof.Machine

variable {s t : State}

/-! ## The wrappers (R420, R467) -/

theorem running_up (h : s.running = true) : s.up = true := by simp_all [State.running]
theorem running_not_fallow (h : s.running = true) : s.faults.fallow = false := by simp_all [State.running]
theorem not_running_of_fallow (h : s.faults.fallow = true) : s.running = false := by simp [State.running, h]
theorem whenRun_next (t : State) : whenRun s t = .next (if s.running then t else s) := rfl
theorem whenUp_next (t : State) : whenUp s t = .next (if s.up then t else s) := rfl
theorem whenRun_of_running (h : s.running = true) (t : State) : whenRun s t = .next t := by simp [whenRun, h]
theorem whenRun_of_fallow (h : s.faults.fallow = true) (t : State) : whenRun s t = .next s := by
  simp [whenRun, not_running_of_fallow h]
theorem whenUp_of_up (h : s.up = true) (t : State) : whenUp s t = .next t := by simp [whenUp, h]
theorem whenRun_completes {Q : State → Prop} (h : s.running = true) (hq : Q t) :
    ∃ u, whenRun s t = .next u ∧ Q u := ⟨t, whenRun_of_running h t, hq⟩

/-! ## Units of State -/

theorem tablesWf_iff : s.tablesWf = true ↔
    mwf regReset s.cfg = true ∧ mwf regReset s.live = true ∧ mwf (fun _ => Field.init) s.fields = true ∧
    mwf (fun _ => Amu.init) s.amus = true ∧ mwf (fun _ => Core.init) s.cores = true ∧
    mwf (fun _ => Core.init) s.pipes = true ∧ mwf Inst.init s.insts = true := by
  simp [State.tablesWf, and_assoc]

theorem field_setField (h : mwf (fun _ => Field.init) s.fields = true) (f g : Nat) (x : Field) :
    (s.setField f x).field g = if g = f then x else s.field g := mget_mput h
theorem amu_setAmu (h : mwf (fun _ => Amu.init) s.amus = true) (u v : Nat) (x : Amu) :
    (s.setAmu u x).amu v = if v = u then x else s.amu v := mget_mput h
theorem core_setCore (h : mwf (fun _ => Core.init) s.cores = true) (k j : Nat) (x : Core) :
    (s.setCore k x).core j = if j = k then x else s.core j := mget_mput h
theorem pipe_setPipe (h : mwf (fun _ => Core.init) s.pipes = true) (k j : Nat) (x : Core) :
    (s.setPipe k x).pipe j = if j = k then x else s.pipe j := mget_mput h
theorem inst_setInst (h : mwf Inst.init s.insts = true) (n m : Nat) (x : Inst) :
    (s.setInst n x).inst m = if m = n then x else s.inst m := mget_mput h

/-- A unit reads back what was set, whatever the rest of its table holds. -/
theorem mget_mput_get {α : Type} [DecidableEq α] {d : Nat → α} {m : SMap α} (k : Nat) (v : α) (hv : v ≠ d k) :
    mget d (mput d m k v) k = v := by
  simp only [mput, if_neg hv, mget_mins, if_true]

/-! ## Register words -/

theorem cfgW_setCfg (h : mwf regReset s.cfg = true) (a b : Nat) (w : Word) :
    (s.setCfg a w).cfgW b = if b = a then w else s.cfgW b := mget_mput h
theorem liveW_setLive (h : mwf regReset s.live = true) (a b : Nat) (w : Word) :
    (s.setLive a w).liveW b = if b = a then w else s.liveW b := mget_mput h
@[simp] theorem cfgW_setLive (a b : Nat) (w : Word) : (s.setLive a w).cfgW b = s.cfgW b := rfl
@[simp] theorem liveW_setCfg (a b : Nat) (w : Word) : (s.setCfg a w).liveW b = s.liveW b := rfl
theorem regReset_cfgW (h : s.cfg = []) (a : Nat) : s.cfgW a = regReset a := by simp [State.cfgW, h]

/-! ## HBM and host memory -/

/-- A byte reads back after a write, where it lies in service and outside the device's own bytes; every other byte reads as before. -/
theorem hbmByte_hbmPut (h : mwf hbmDefault s.hbm = true) (a c : Nat) (b : Byte) :
    (s.hbmPut a b).hbmByte c =
      if s.hbmGone c = true then 0#8
      else if internalA c = true then s.hbmByte c
      else if s.hbmGone a = false ∧ c % 2 ^ 37 = a % 2 ^ 37 then b else s.hbmByte c := by
  unfold State.hbmPut State.hbmByte
  by_cases ha : s.hbmGone a = true
  · by_cases hc : s.hbmGone c = true <;> simp [ha, hc]
  · have hg : ∀ m : SMap Byte, State.hbmGone { s with hbm := m } c = s.hbmGone c := fun _ => rfl
    simp only [if_neg ha, hg]
    by_cases hc : s.hbmGone c = true
    · simp [hc]
    · simp only [if_neg hc, mget_mput h]
      by_cases hi : internalA c = true <;> simp [ha, hi]

theorem hostByte_hostPut (h : mwf hostDefault s.host = true) (a c : Nat) (b : Byte) :
    mget hostDefault (s.hostPut a b).host c = if c = a % 2 ^ 64 then b else mget hostDefault s.host c := mget_mput h

@[simp] theorem length_hbmPeek (a n : Nat) : (s.hbmPeek a n).length = n := by simp [State.hbmPeek, upTo]
@[simp] theorem length_hostPeek (a n : Nat) : (s.hostPeek a n).length = n := by simp [State.hostPeek, upTo]

/-- A write of HBM bytes changes HBM alone. -/
theorem hbmPoke_only (a : Nat) (b : Bytes) : ∃ m, s.hbmPoke a b = { s with hbm := m } := by
  induction b generalizing s a with
  | nil => exact ⟨s.hbm, rfl⟩
  | cons x b ih =>
    have h : ∃ m, s.hbmPut a x = { s with hbm := m } := by
      unfold State.hbmPut; split
      · exact ⟨s.hbm, rfl⟩
      · exact ⟨_, rfl⟩
    obtain ⟨m, hm⟩ := h
    obtain ⟨n, hn⟩ := ih (s := s.hbmPut a x) (a := a + 1)
    exact ⟨n, by rw [State.hbmPoke, hn, hm]⟩

/-- A write of host bytes changes host memory alone. -/
theorem hostPoke_only (a : Nat) (b : Bytes) : ∃ m, s.hostPoke a b = { s with host := m } := by
  induction b generalizing s a with
  | nil => exact ⟨s.host, rfl⟩
  | cons x b ih =>
    obtain ⟨n, hn⟩ := ih (s := s.hostPut a x) (a := a + 1)
    exact ⟨n, by rw [State.hostPoke, hn]; rfl⟩

/-- A ledger entry changes HBM alone. -/
theorem setUsed_only (i p r v : Nat) : ∃ m, s.setUsed i p r v = { s with hbm := m } := hbmPoke_only _ _

/-! ## Reports and interrupts -/

/-- A raised source adds at most one report, and nothing else changes (R405, R411). -/
theorem raise_cases (n : Nat) (u : BitVec 16) (d0 d1 : Nat) :
    s.raise n u d0 d1 = s ∨
      (faultKind n ≠ none ∧ s.fencedAlready n u = false ∧
        s.raise n u d0 d1 = { s with faults := { s.faults with
          reports := s.faults.reports ++
            [{ source := Fin.ofNat 512 n, unit := u, detail0 := BitVec.ofNat 64 d0, detail1 := BitVec.ofNat 64 d1 }] } }) := by
  unfold State.raise
  cases h : faultKind n with
  | none => exact .inl rfl
  | some k =>
    by_cases hf : s.fencedAlready n u = true
    · exact .inl (by simp [hf])
    · exact .inr ⟨by simp, by simpa using hf, by simp [hf]⟩

/-- A parity check raises a report and sets a cause at most, and nothing else changes (R47, R48). -/
theorem checkParity_only (a : Nat) : ∃ l c, s.checkParity a = { s with faults := { s.faults with
    reports := s.faults.reports ++ l, live := c } } := by
  unfold State.checkParity; split
  · rcases raise_cases (s := s) (3 * blockOf a + 2) 0 a 0 with e | ⟨_, _, e⟩ <;> rw [e]
    · exact ⟨[], _, by simp [State.setCause]; rfl⟩
    · exact ⟨_, _, rfl⟩
  · exact ⟨[], s.faults.live, by simp⟩
/-- So does the use of stored words; without a bad word it does nothing. -/
theorem uses_only (as : List Nat) : ∃ l c, s.uses as = { s with faults := { s.faults with reports := s.faults.reports ++ l, live := c } } := by
  unfold State.uses; split
  · exact ⟨[], s.faults.live, by simp⟩
  · induction as generalizing s with
    | nil => exact ⟨[], s.faults.live, by simp⟩
    | cons a as ih =>
      obtain ⟨l, c, h⟩ := checkParity_only (s := s) a
      obtain ⟨l', c', h'⟩ := ih (s := s.checkParity a) (by rw [h]; assumption)
      exact ⟨l ++ l', c', by rw [List.foldl_cons, h', h]; simp⟩
@[simp] theorem uses_clean (h : s.parBad = []) (as : List Nat) : s.uses as = s := by simp [State.uses, h]

/-- An event adds its source to PENDING at most once, and nothing else changes (R386). -/
theorem pendSrc_cases (n : Nat) :
    s.pendSrc n = s ∨ (n ∉ s.intc.pend ∧ s.pendSrc n = { s with intc := { s.intc with pend := s.intc.pend ++ [n] } }) := by
  unfold State.pendSrc
  split
  · exact .inl rfl
  · rename_i h; exact .inr ⟨by simp at h; exact h.2, rfl⟩

/-- A source that is not reserved is pending after its event. -/
theorem mem_pendSrc (n : Nat) (h : intcReserved n = false) : n ∈ (s.pendSrc n).intc.pend := by
  unfold State.pendSrc
  split
  · rename_i hc; simp [h] at hc; exact hc
  · simp

theorem pendSrc_mono (n m : Nat) (h : m ∈ s.intc.pend) : m ∈ (s.pendSrc n).intc.pend := by
  rcases pendSrc_cases (s := s) n with e | ⟨_, e⟩ <;> rw [e]
  · exact h
  · exact List.mem_append_left _ h

/-! ## Jobs -/

/-- The jobs keep their numbers and order under a change that keeps numbers. -/
theorem job?_modJob (id k : Nat) (g : Job → Job) (hg : ∀ j, (g j).id = j.id) :
    (s.modJob id g).job? k = (s.job? k).map (fun j => if j.id = id then g j else j) := by
  unfold State.job? State.modJob
  rw [show ∀ l : List Job, (l.map (fun j => if j.id = id then g j else j)).find? (fun j => j.id == k) =
      (l.find? (fun j => j.id == k)).map (fun j => if j.id = id then g j else j) from ?_]
  intro l
  induction l with
  | nil => rfl
  | cons j l ih =>
    have hj : (if j.id = id then g j else j).id = j.id := by split <;> simp [hg]
    simp only [List.map_cons, List.find?_cons, hj]
    split
    · rfl
    · exact ih

/-- The first event that ends a job sets its status; a later one changes nothing (R174). -/
theorem job?_setStatus (id st : Nat) : (s.setStatus id st).job? id =
    (s.job? id).map (fun j => if j.status.isNone then { j with status := some st, finish := s.swnN } else j) := by
  unfold State.setStatus
  rw [job?_modJob _ _ _ (fun j => by split <;> rfl)]
  cases h : s.job? id with
  | none => rfl
  | some j =>
    have : j.id = id := by have := List.find?_some h; simpa using this
    rcases hs : j.status <;> simp [this, hs]

/-! ## The step -/

theorem step_front (c : Instr) (rest : List Instr) (h : s.pending = c :: rest) :
    step s = exec c { s with pending := rest } := by simp [step, h]
theorem step_idle (h : s.pending = []) : step s = .next s := by simp [step, h]

end Sys2Proof.Machine
end

