-- ==== Sys2Proof/WellFormed.lean ====
section
/-! DEFINITION. When a command is well formed: the bounds of its operands that their types do not give. -/

namespace Sys2Proof

/-- Cores of a crypto pool (Table 1.3). -/
def CorePool.size : CorePool → Nat
  | .lattice => 16
  | .hashsig => 4
  | .code => 2
  | .bignum => 8

/-- An address lies in the requester's BAR0 (Table 2.1). -/
def Requester.reaches (who : Requester) (addr : Nat) : Bool :=
  match who with
  | .vf _ => decide (addr < 0x100000)
  | _ => decide (addr < 0x1000000)

/-- Cores or pipelines of the five crypto pools in calendar order (Table 3.6). -/
def poolUnits (pool : Nat) : Nat := ([16, 4, 2, 8, 12][pool]?).getD 0

/-- The payload of a Commons frame (R473): 64 to 8,192 bytes in multiples of 8. -/
def Frame.payloadOk (fr : Frame) : Bool :=
  decide (64 ≤ fr.payload.length) && decide (fr.payload.length ≤ 8192) && decide (fr.payload.length % 8 = 0)

/-- The operands of a command lie in the ranges the spec gives them. -/
def Instr.wf : Instr → Bool
  | .operationEnd pool core => decide (core < pool.size)
  | .splitHandover pool core => decide (core < poolUnits pool.val)
  | .jobEnd _ => true
  | .planeLoadEnd _ _ => true
  | .conditionedBlock _ samples => decide (samples.length = 256)
  | .registerWrite who addr size _ => who.reaches addr && decide (0 < size) && decide (size ≤ 8)
  | .counterLowRead who r => who.reaches r.addr && decide (0 < r.size) && decide (r.size ≤ 8)
  | .registerVote addr _ _ _ _ _ => decide (addr < 0x1000000)
  | .paritySweep upsets => upsets.all (fun u => match u with | .word a _ => decide (a < 0x1000000) | _ => true)
  | .dbgReg _ addr _ => decide (addr < 0x1000000)
  | .dbgCore _ (.read addr len) => decide (addr + len ≤ 262144)
  | .dbgCore _ (.write addr data) => decide (addr + data.length ≤ 262144)
  | .ageingMeasurementEnd d => decide (d.length = 96)
  | .avsCommand _ acks => decide (acks.length ≤ 4)
  | .bar2Access _ addr len data => decide (addr + len ≤ 0x1800000000) && decide (data.length ≤ len)
  | .faultGroupSampled _ _ ext => decide (ext.length ≤ 512)
  | .exchange fr => fr.payloadOk
  | .end_ fr => fr.payloadOk
  | .reserve fr => fr.payloadOk
  | .ack fr => fr.payloadOk
  | .commit fr => fr.payloadOk
  | .abandon fr => fr.payloadOk
  | .partDone fr => fr.payloadOk
  | .alive fr => fr.payloadOk
  | _ => true

end Sys2Proof
end

