-- ==== Sys2Proof/Tests/Slice0.lean ====
section
/-! SUPPORT. Tests: ill-formed commands that WellFormed refuses, values that the spec works out by hand, and for each statement
with hypotheses a state and operands that meet them. -/

open Sys2Proof Sys2Proof.Machine

namespace Sys2Proof.Tests

/-! ## States -/

/-- A device that runs, in the headland of swath 100. -/
def run : State := { State.reset with
  start := { Startup.reset with up := true, phase := 10, trained := true, fwOk := true }
  glob := { Glob.reset with timer := true, inHeadland := true, admitOpen := true, swn := 100 } }
/-- The same device in Fallow. -/
def fallow : State := { run with faults := { Faults.reset with fallow := true } }
/-- The device in PS4 with PS4_READY. -/
def asleep : State := { run with power := { Power.reset with state := 4, ps4Ready := true } }
def jobOf (id opcode : Nat) : Job :=
  { id, inst := 1, sq := 0, cq := 0, gen := 0, tag := 7, opcode, desc := [], param := [], image := HandleC.empty, a := 90
    deadline := 120, stages := [], pls := [], lost := [], status := none, finish := 0, trunc := false, sat := false
    rows := [], recorded := false, relPend := false, held := none, tent := false, part := none, carryId := 0, carryKey := []
    worst := none, budgetOut := false, signs := [], dealt := 0, cursor := 0, levels := [], work := [], carries := []
    overflow := false, sent := [], dest := [], scratch := [] }
def plOf (row : Nat) : Placement :=
  { stage := 0, row, start := 0, count := 4, fields := [2], replaced := false, seq := 3, recUnits := false, done := [0], gone := [] }
def withJobs (s : State) (l : List Job) : State := { s with adm := { s.adm with jobs := l } }
/-- An edit list of one REWRITE (Table 10.1). -/
def oneEdit : Bytes := [0, 1] ++ zeros 14 ++ [3] ++ zeros 47
/-- An INGEST job of one record, with one field and a schema of one 8-bit column. -/
def ingestJob : Job := { jobOf 4 0x0700 with
  param := zeros 0x14 ++ [1, 0, 0, 0] ++ zeros 5 ++ [1] ++ zeros 98 ++ [1, 0, 0, 0, 8, 0, 0, 0] ++ zeros 8 ++ [0, 8] ++ zeros 126 }
def sliceOf (job : Nat) : Slice := { job, stage := 0, start := 0, count := 4, pos := 0, done := 0, seq := 3 }
def pieceOf (job : Nat) : Piece := { job, stage := 0, unit := 0, part := 0, seq := 3, inst := 1 }
def busyCore (job : Nat) : Core := { Core.init with busy := true, pieces := [pieceOf job] }
def frameOf (cjob : DWord) (payload : Bytes) : Frame :=
  { port := 0, fcsOk := true, etherType := 0x88B5, src := 3, dst := 0, slot := 5, swn := 100, cjob, offset := 0, version := 1, payload }
def partJob : Job := { jobOf 4 0x0100 with
  part := some { coord := 3, cjob := 9, s0 := 0, wins := [], members := [0, 3], cert := 0, committed := false, abandoned := false, planBad := false } }
def reportOf (n : Fin 512) : FaultReport := { source := n, unit := 0, detail0 := 1, detail1 := 2 }
/-- The outcome is a next state of which `q` holds. -/
def answers (o : Host.Outcome State Fault Refusal) (q : State → Bool) : Bool :=
  match o with | .next t => q t | _ => false

/-! ## Unchecked job structures (R365, Table 10.1) -/

/-- A DIGEST descriptor; the same with FLAGS.RECEIPT, which only QUERY has; with OP1, which DIGEST does not name. -/
theorem test_desc_reserved : descBad ([0, 4] ++ zeros 22 ++ [64] ++ zeros 103) = false ∧
    descBad ([0, 4, 1] ++ zeros 125) = true ∧ descBad ([0, 4] ++ zeros 30 ++ [64] ++ zeros 95) = true := by decide +kernel
/-- One edit; none; an edit with OP 4. -/
theorem test_edits_reserved : editsBad oneEdit = false ∧ editsBad (zeros 64) = true ∧ editsBad (wr oneEdit 16 [4]) = true := by
  decide +kernel

/-! ## WellFormed -/

theorem test_wf_operationEnd : (Instr.operationEnd .code 2).wf = false ∧ (Instr.operationEnd .code 1).wf = true := by decide
theorem test_wf_splitHandover : (Instr.splitHandover 4 12).wf = false ∧ (Instr.splitHandover 4 11).wf = true := by decide
theorem test_wf_conditionedBlock : (Instr.conditionedBlock 0 (zeros 255)).wf = false := by decide +kernel
theorem test_wf_registerWrite : (Instr.registerWrite (.vf 1) 0x100000 4 0).wf = false ∧ (Instr.registerWrite .pf 0x40 9 0).wf = false ∧
    (Instr.registerWrite .pf 0xFFFFFC 4 0).wf = true := by decide
theorem test_wf_counterLowRead : (Instr.counterLowRead .pf ⟨0x1000000, 4⟩).wf = false := by decide
theorem test_wf_registerVote : (Instr.registerVote 0x1000000 0 false 0 0 0).wf = false := by decide
theorem test_wf_paritySweep : (Instr.paritySweep [.word 0 0, .word 0x1000000 3]).wf = false := by decide
theorem test_wf_dbgReg : (Instr.dbgReg false 0x1000000 0).wf = false := by decide
theorem test_wf_dbgCore : (Instr.dbgCore 0 (.read 262143 2)).wf = false ∧ (Instr.dbgCore 0 (.write 262143 [1, 2])).wf = false := by
  decide
theorem test_wf_ageing : (Instr.ageingMeasurementEnd []).wf = false := by decide
theorem test_wf_avsCommand : (Instr.avsCommand true [false, false, false, false, true]).wf = false := by decide
theorem test_wf_bar2Access : (Instr.bar2Access false 0x17FFFFFFFF 2 []).wf = false ∧ (Instr.bar2Access true 0 1 [1, 2]).wf = false := by
  decide
theorem test_wf_faultGroup : (Instr.faultGroupSampled 0 0 (List.replicate 513 (reportOf 0))).wf = false := by decide +kernel
theorem test_wf_frames :
    (∀ c ∈ [Instr.exchange, .end_, .reserve, .ack, .commit, .abandon, .partDone, .alive], (c (frameOf 0 (zeros 63))).wf = false) ∧
    (Instr.exchange (frameOf 0 (zeros 72))).wf = true ∧ (Instr.exchange (frameOf 0 (zeros 70))).wf = false := by decide

/-! ## Values of the spec -/

/-- Chapter 3: N, H, C and T at the nominal CCLK. -/
theorem test_swath_figures : State.reset.nCc = 3000000 ∧ State.reset.hCc = 120000 ∧ State.reset.cCc = 2700000 ∧
    State.reset.tCc = 2877952 := by decide
/-- Table 2.5 and Table 3.2: reset values of RESERVE, and of CTL_ETYPE (Table 23.5). -/
theorem test_reset_words : State.reset.readReg .pf 0x100000 = 6#32 ∧ State.reset.readReg .pf 0xD00008 = 0x88B5#32 := by decide +kernel
/-- FIPS 180-4: SHA-256 of "abc". -/
theorem test_sha256_abc : leNat (sha256 [0x61, 0x62, 0x63]).reverse =
    0xba7816bf8f01cfea414140de5dae2223b00361a396177a9cb410ff61f20015ad := by decide +kernel
/-- FIPS 197, appendix C.3. -/
theorem test_aes256 : beNat (aesBlock ((upTo 32).map (BitVec.ofNat 8)) ((upTo 16).map (fun i => BitVec.ofNat 8 (17 * i)))) =
    0x8ea2b7ca516745bfeafc49904b496089 := by decide +kernel
/-- RFC 7748, 5.2: X25519 of its first scalar and u-coordinate. -/
theorem test_x25519 : beNat (montMul 0x91 (toBe 32 0xa546e36bf0527c9d3b16154b82465edd62144c0ac1fc5a18506a2244ba449ac4)
      (toBe 32 0xe6db6867583030db3594c1a424b15f7c726624ec26b3353b10a903a6d0ab1c4c)) =
    0xc3da55379de9c6908e94ea4df28d084f32eccf03491c71f754b4075577a28552 := by decide +kernel
theorem test_tick_needs_its_enable : answers (exec .tickOutPulse run) (· == run) = true := by decide +kernel
theorem test_mget_after_mput : mget hostDefault (mput hostDefault [(3, 1#8)] 5 9#8) 5 = 9#8 ∧
    mput hostDefault [(3, 1#8)] 3 0#8 = [] := by decide
/-- R400: a task is offered on source 768 + 8c + p. -/
theorem test_dispatch_source : dispatchSrc 11 7 = 863 := by decide
/-- R131, R500: device address 256 lies in the second pseudo-channel, 32,768 in the first again. -/
theorem test_channel_of_address : pcOf 255 = 0 ∧ pcOf 256 = 1 ∧ pcOf 32768 = 0 := by decide
/-- A parameter structure of `n` bytes with little-endian fields (offset, size, value). -/
def paramOf (n : Nat) (l : List (Nat × Nat × Nat)) : Bytes := l.foldl (fun b e => wr b e.1 (toLe e.2.1 e.2.2)) (zeros n)
/-- Chapter 11: 256 ML-DSA-44 signatures are 1,482 slots of 11,200 cc with 20 HBM units each. -/
theorem test_cost_mldsa44 : cryptoStages 0x0203 (paramOf 64 [(0, 4, 256), (4, 1, 0x11), (0x28, 4, 128)]) =
    some [poolStage 1482 0 11200 20] := by decide +kernel
/-- Chapter 12: 12 RSA-3072 signatures, staged 2 × 1,714,286 cc, with 41 HBM units in the first stage only. -/
theorem test_cost_rsa3072 : cryptoStages 0x0301 (paramOf 64 [(0, 4, 12), (4, 1, 0x62), (0x28, 4, 48)]) =
    some [poolStage 12 3 1714286 41, poolStage 12 3 1714286 0] := by decide +kernel
/-- Chapter 13: 4,000 HMAC-SHA-256 tags from cached states are 392 cc and 28 HBM units each. -/
theorem test_cost_hmac : digestStages (paramOf 64 [(0, 4, 4000), (4, 1, 1), (6, 1, 1), (0x20, 8, 768), (0x28, 4, 2)]) =
    some [poolStage 4000 4 392 28] := by decide +kernel
/-- Chapter 9: 2,100 ML-DSA-44 events: 10,000 cc, 33 AMU cc and 116 HBM units each; then one unit of 16,811 cc, 12,719 HBM units. -/
theorem test_cost_ingest : (ingestStages (paramOf 160 [(0x14, 4, 2100), (0x18, 1, 1), (0x19, 1, 1), (0x1A, 2, 64), (0x1D, 1, 1),
      (128, 1, 6), (132, 4, 8064)])).map (fun l => l.map (fun v => (v.u, nth v.pool 0 0, nth v.amu 0 0, v.hbm, v.fieldCc))) =
    some [(2100, 10000, 33, 116, 0), (1, 0, 0, 12719, 16811)] := by decide +kernel
/-- Chapter 23: an EXCHANGE frame of 8,192 bytes costs 130 units on its port. -/
theorem test_cost_frame : cdiv (8192 + 70) 64 = 130 := by decide
/-- Chapter 3: a lattice share of 384 parts of 43,200,000 cc is 16,200,000 cc. -/
theorem test_entitlement : ({ run with live := [(shareA 12 1, 384)], adm := { Admit.reset with capC := [(16, 43200000)] } } :
    State).entitle 12 1 = 16200000 := by decide +kernel
/-- Table 18.1: source 203 is a fence source; REACT(130) resets to INT. -/
theorem test_fault_sources : (faultKind 203).isSome = true ∧ reactMask 130 (run.cfgN (reactA 130)) = 1 := by decide +kernel
/-- R53: the boundary adds one to SWN and opens the headland at offset 0. -/
theorem test_boundary : answers (exec (.swathBoundary 0) run) (fun t => t.glob.swn == 101 && t.glob.inHeadland && t.glob.offset == 0) =
    true := by decide +kernel
/-- R432: a fuse named in Open is pending at once and acts after the next chip reset. -/
theorem test_fuse : answers (exec (.fuseReq .pf 0xF05E 4 true) run) (fun t => t.tamper.blown == 4 && t.tamper.eff == 0 &&
    (t.chipReset causeRequest).tamper.eff == 4) = true := by decide +kernel
/-- R441: closing an Open device. -/
theorem test_close : answers (exec (.lcClose .pf true) run) (fun t => t.life.closed && t.life.result == 1) = true := by
  decide +kernel
/-- R429, chapter 19: three tamper resets within 327,680 sc leave the device HELD. -/
theorem test_held : let s := { run with backup := { Backup.reset with now := { BkRegs.reset with rtc := 327681, hist := [1, 9] } } }
    s.tamperReset.backup.held = true ∧
    ({ s with backup := { s.backup with now := { s.backup.now with rtc := 327682 } } } : State).tamperReset.backup.held = false := by
  decide +kernel
/-- R31, Table 25.3: a 2-byte access through a VF's BAR0 leaves the live words alone. -/
theorem test_unchecked : accessOk 0x80 2 = false ∧ vfScope (.vf 1) = .inst 1 ∧ vfScope .pf = .all := by decide
/-- R22, R40: a shadowed register's live word waits for the commit step. -/
theorem test_shadow : answers (exec (.registerWrite .pf 0x100000 4 9) run) (fun t => t.cfgW 0x100000 == 9 && t.liveW 0x100000 == 6 &&
    answers (exec .commitStep t) (fun u => u.liveW 0x100000 == 9)) = true := by decide +kernel

/-! ## Witnesses: a state and operands that meet each statement's hypotheses, clause by clause -/

theorem witness_StepRunsFrontCommand : ({ run with pending := [.tickOutPulse] } : State).pending = .tickOutPulse :: [] ∧
    run.pending = [] := ⟨rfl, rfl⟩
theorem witness_StepKeepsCanonical : run.Canonical ∧ ∃ t, step run = .next t := ⟨by unfold State.Canonical; decide, run, rfl⟩
theorem witness_FallowLeftOnlyByChipReset : fallow.faults.fallow = true ∧
    ∃ t, exec (.resetReq .pf 0x5EED 1) fallow = .next t := ⟨rfl, _, rfl⟩
theorem witness_FallowStopsWork : stopsInFallow .admissionStep = true ∧ fallow.faults.fallow = true := ⟨rfl, rfl⟩
theorem witness_SwathBoundaryAdvances : run.up = true ∧ run.glob.timer = true ∧ run.commons.align ≠ 1 ∧ run.running = true ∧
    bit (({ run with live := [(0xD00000, 1)] } : State).liveN 0xD00000) 0 = true ∧ bit (run.liveN 0xD00000) 0 = false := by decide
theorem witness_ReplanStepValuesCapacity : run.running = true ∧ mwf (fun _ => 0) run.adm.capC = true ∧
    mwf (fun _ => 0) run.adm.capT = true := by decide
/-- A shadow that differs from its live word, one whose parity is wrong, and one held back by CFG_HOLD. -/
theorem witness_CommitStepMakesShadowsLive :
    (let s := { run with cfg := [(0x100000, 7)] }
     s.running = true ∧ s.tablesWf = true ∧ bit (s.cfgN 0x40) 0 = false ∧ s.badShadows = [] ∧ shadowed 0x100000 = true) ∧
    (let s := { run with cfg := [(0x100000, 7)], parBad := [0x100000] }
     s.running = true ∧ s.tablesWf = true ∧ bit (s.cfgN 0x40) 0 = false ∧ s.glob.relPend = false ∧ 0x100000 ∈ s.badShadows ∧
       cfgBit (blockOf 0x100000) < 15) ∧
    (let s := { run with cfg := [(0x40, 1), (0x100000, 7)] }
     s.running = true ∧ bit (s.cfgN 0x40) 0 = true) := by decide
/-- A DRAIN to PS1 with fields 0–14, met; the same while a job holds field 2 and names no field; entries of PS4 and PS3. -/
theorem witness_PowerCommandsTakeEffect :
    (let s := { run with power := { Power.reset with drain := some 0x7FFF0001 } }
     s.running = true ∧ s.tablesWf = true ∧ s.drainMet 0x7FFF0001 = true ∧ 15 ∈ pwrNames 0x7FFF0001) ∧
    (let j := { jobOf 4 0x0100 with stages := [{ StageRec.empty with u := 4, nfields := 1, fieldCc := 10 }], pls := [plOf 100] }
     let s := withJobs { run with power := { Power.reset with drain := some 1 } } [j]
     s.running = true ∧ s.power.drain = some 1 ∧ s.drainMet 1 = false) ∧
    (let s := { run with power := { Power.reset with entering := some 4 } }
     s.running = true ∧ s.power.entering = some 4 ∧ 4 ≤ 4) ∧
    (let s := { run with power := { Power.reset with entering := some 3 } }; s.running = true ∧ s.power.entering = some 3) ∧
    run.power.drain = none ∧ run.power.entering = none := by
  decide
theorem witness_PlaneSwitchActivatesResidentPlanes : run.running = true ∧ run.tablesWf = true ∧
    ({ run with fields := [(3, { Field.init with active := true })] } : State).tablesWf = true ∧
    (({ run with fields := [(3, { Field.init with active := true })] } : State).field 3).active = true := by decide
/-- Field 15, the last: a plane waits for its load; a load is in progress, on channels in service and on one that is fenced. -/
theorem witness_PlaneLoadFillsPlane :
    (let s := { run with fields := [(15, { Field.init with planes := [(2, { Plane.empty with state := 1, digest := [1] })] })] }
     s.running = true ∧ s.nextLoad 15 = some 2) ∧
    (let s := { run with fields := [(15, { Field.init with
        planes := [(2, { Plane.empty with state := 1, digest := [1], len := 512 })], loading := some 2 })] }
     s.running = true ∧ s.tablesWf = true ∧ (s.field 15).loading = some 2 ∧ ((s.field 15).plane 2).digest ≠ [] ∧
       mwf (fun _ => Plane.empty) (s.field 15).planes = true ∧
       s.meetsFence ((s.field 15).plane 2).src ((s.field 15).plane 2).len = false ∧
       (let t := { s with hbmc := { Hbmc.reset with pcFenced := 2 } }
        t.running = true ∧ t.meetsFence ((t.field 15).plane 2).src ((t.field 15).plane 2).len = true)) ∧
    (run.running = true ∧ run.nextLoad 15 = none ∧ (run.field 15).loading = none) ∧
    (mwf hbmDefault run.hbm = true ∧ 0 + 512 ≤ ledgerBase ∧ 511 < 512) := by decide
theorem witness_FieldsPrepareForTheirStage :
    (let j := { jobOf 4 0x0100 with stages := [{ StageRec.empty with u := 4, nfields := 1, fieldCc := 10 }], pls := [plOf 100] }
     let s := withJobs { run with fields := [(2, { Field.init with active := true })] } [j]
     s.running = true ∧ s.tablesWf = true ∧ s.claimOn s.swnN 2 = some (j, plOf 100, 0) ∧ j.inst ≠ (s.field 2).owner ∧
      s.fieldOn 2 = true ∧ (s.field 2).active = true ∧
      (s.fieldOn 3 && (s.field 3).active && (s.claimOn s.swnN 3).isSome) = false) ∧
    (let j := { jobOf 4 0x0700 with stages := [{ StageRec.empty with u := 4, nfields := 1, fieldCc := 10 }], pls := [plOf 100] }
     let s := withJobs { run with fields := [(2, { Field.init with active := true })] } [j]
     s.claimOn s.swnN 2 = some (j, plOf 100, 0) ∧ j.opcode ≠ 0x0100) ∧
    (run.running = true ∧ run.claimOn run.swnN 2 = none) := by decide
/-- A list that the pass of unit 3 takes; passes that did and did not fit, with their job; a unit without list or pass. -/
theorem witness_EditPassAppliesItsList :
    (let l : EditList := { job := 4, inst := 1, row := 100, bytes := oneEdit }
     let s := withJobs { run with amus := [(3, { Amu.init with lists := [l] })] } [{ jobOf 4 0x0801 with pls := [plOf 100] }]
     s.running = true ∧ s.amuOn 3 = true ∧ (s.amu 3).pass = none ∧ (s.amu 3).upsets = [] ∧ s.passList 3 = some l ∧ s.tablesWf = true ∧
       mwf (fun _ => AmuEntry.empty) (s.amu 3).table = true ∧ (s.listEdits l.bytes).1 = editsOf l.bytes) ∧
    (∀ b ∈ [true, false], let p : AmuPass := { job := 4, full := b, p0 := 0, oldCount := 0 }
     let s := withJobs { run with amus := [(0, { Amu.init with pass := some p })] } [{ jobOf 4 0x0801 with param := oneEdit }]
     s.running = true ∧ s.tablesWf = true ∧ (s.amu 0).pass = some p ∧ p.full = b ∧
       s.job? p.job = some { jobOf 4 0x0801 with param := oneEdit } ∧ (jobOf 4 0x0801).status = none ∧ editsBad oneEdit = false ∧
       descBad [] = false) ∧
    (run.running = true ∧ run.passList 0 = none ∧ (run.amu 0).pass = none) := by decide +kernel
theorem witness_LookupFindsLowestMatch : mwf (fun _ => AmuEntry.empty) [(3, { AmuEntry.empty with tag := 5 })] = true := by decide
/-- SCRUB on and its channel in service: an entry that agrees with its shadow, and one that does not. -/
theorem witness_ScrubAndProbe_entry :
    (let s := { run with live := [(0x500010, 1)] }
     s.running = true ∧ s.tablesWf = true ∧ s.amuOn 0 = true ∧ bit (s.liveN 0x500010) 0 = true ∧ (s.amu 0).pass = none ∧
       s.hbmc.pcFenced.getLsbD (pcOf (s.shadowOf 0 (s.amu 0).scrubPos)) = false ∧
       (entryOf (s.hbmPeek (s.shadowOf 0 (s.amu 0).scrubPos) 64)).norm = AmuEntry.empty) ∧
    (let s := { run with amus := [(0, { Amu.init with count := 1, table := [(0, { AmuEntry.empty with tag := 5 })] })] }
     s.tablesWf = true ∧ mget (fun _ => AmuEntry.empty) (s.amu 0).table (s.amu 0).scrubPos ≠ AmuEntry.empty) := by decide +kernel
/-- SCRUB on with its channel fenced; SCRUB off; a probe; a unit out of service. -/
theorem witness_ScrubAndProbe :
    (let s := { run with live := [(0x500010, 1)], hbmc := { Hbmc.reset with pcFenced := 1 } }
     s.running = true ∧ s.amuOn 0 = true ∧ bit (s.liveN 0x500010) 0 = true ∧ (s.amu 0).pass = none ∧
       s.hbmc.pcFenced.getLsbD (pcOf (s.shadowOf 0 (s.amu 0).scrubPos)) = true) ∧
    (run.running = true ∧ (run.amu 3).pass = none ∧ bit (run.liveN (0x500010 + 0x1000 * 3)) 0 = false) ∧
    (let s := { run with amus := [(3, { Amu.init with probe := some (1, 2) })] }
     s.running = true ∧ s.amuOn 3 = true ∧ (s.amu 3).pass = none ∧ (s.amu 3).probe = some (1, 2)) ∧
    (let s := { run with amus := [(3, { Amu.init with fenced := true })] }
     s.running = true ∧ s.tablesWf = true ∧ s.amuOn 3 = false) := by decide +kernel
theorem witness_AdmissionDecidesInletInOrder :
    (let s := { run with glob := { run.glob with admitOpen := false } }; s.running = true ∧ s.glob.admitOpen = false) ∧
    (let e : InletEntry := { inst := 1, sq := 0, gen := 0, desc := zeros 128 }
     let s := { run with adm := { Admit.reset with inlet := [e] } }
     s.running = true ∧ s.glob.admitOpen = true ∧ (∀ x ∈ s.insts, x.2.thawReq = false) ∧ s.commons.rsv = [] ∧
       s.commons.cjobs = [] ∧ s.tableFull = false ∧ s.adm.inlet = [e] ∧ opcodeKnown (dOpcode e.desc) = false) := by decide
/-- Row 100 is past the reseeds of its thousand; row 48, the last reseed, with exactly its 48 bytes. -/
theorem witness_AllotmentServesReseeds :
    (let s := { run with seed := { Seedbank.reset with phase := 2 } }
     s.running = true ∧ s.seed.phase = 2 ∧ (∀ k, k < 49 → (s.stream k).due = none) ∧ 48 < s.swnN % 1024 ∧
       s.rowPlacements s.swnN = []) ∧
    (let s := { run with glob := { run.glob with swn := 48 }, seed := { Seedbank.reset with phase := 2, queue := zeros 48 } }
     s.running = true ∧ s.seed.phase = 2 ∧ (∀ k, k < 49 → (s.stream k).due = none) ∧ s.swnN % 1024 ≤ 48 ∧
       s.rowPlacements s.swnN = [] ∧ s.seed.allot = [] ∧ 48 ≤ s.rowCnt s.swnN 27 ∧ s.rowCnt s.swnN 27 ≤ s.seed.queue.length) := by
  decide
theorem witness_SeedbankFills :
    (let s := { run with seed := { Seedbank.reset with phase := 1 } }
     s.running = true ∧ s.seed.phase = 1 ∧ s.seed.fenced.getLsbD 7 = false ∧ s.seed.queue.length + 32 ≤ 65536 ∧
       s.seed.queue.length < 4096) ∧
    (let s := { run with seed := { Seedbank.reset with phase := 1, fenced := 0x80 } }
     s.running = true ∧ s.seed.fenced.getLsbD 7 = true) ∧
    (run.running = true ∧ run.seed.phase = 0 ∧ run.designLeft 0 = true ∧ run.designLeft 1 = true) ∧
    (let s := { run with seed := { Seedbank.reset with fenced := 0xF0 } }
     s.running = true ∧ s.seed.phase = 0 ∧ s.designLeft 1 = false) := by decide
theorem witness_SeedbankFills_floor :
    let s := { run with seed := { Seedbank.reset with phase := 1, queue := zeros 4096 } }
    s.running = true ∧ s.seed.phase = 1 ∧ 4096 ≤ s.seed.queue.length :=
  ⟨rfl, rfl, Nat.le_of_eq (length_zeros 4096).symm⟩
/-- A source in its start-up test; and one with its third alarm at the edge of the 1,024 swaths. -/
theorem witness_SeedAlarmFencesSource : (run.running = true ∧ run.seed.phase ≠ 3 ∧ run.seed.phase = 0 ∧
    run.seed.fenced.getLsbD 7 = false) ∧
    (let s := { run with glob := { run.glob with swn := 1124 }, seed := { Seedbank.reset with phase := 2, recent := [(7, [100, 1124])] } }
     s.running = true ∧ s.seed.phase = 2 ∧ s.seed.fenced.getLsbD 7 = false ∧
       2 ≤ ((mget (fun _ => []) s.seed.recent 7).filter (fun t => decide (s.swnN - t ≤ 1024))).length) := by decide
theorem witness_WorkWindowAndTail : (run.running = true ∧ run.glob.inHeadland = true ∧ run.tablesWf = true ∧ run.glob.timer = true ∧
    0 < run.swnN ∧ ∀ j ∈ run.adm.jobs, j.opcode ≠ 0x0900 ∧ j.opcode ≠ 0x0901) ∧
    (let s := { run with glob := { run.glob with inHeadland := false } }; s.running = true ∧ s.glob.inHeadland = false) := by decide
/-- A unit of an ingest past its last record, and one whose key a field refuses; a query that reads nothing; a lookup; each with an open
job. -/
theorem witness_UnitEndsAndCuts :
    (let sl := { sliceOf 4 with start := 1 }
     let s := withJobs { run with fields := [(2, { Field.init with slices := [sl] })] } [ingestJob]
     s.running = true ∧ s.fieldOn 2 = true ∧ (s.field 2).slices = sl :: [] ∧ s.job? 4 = some ingestJob ∧
       ingestJob.unchecked = false ∧
       s.fieldUnit ingestJob sl 2 = some (s, true) ∧ s.tablesWf = true ∧ ingestJob.status = none) ∧
    (let s := withJobs { run with fields := [(2, { Field.init with slices := [sliceOf 4], seals := [{ tile := 0, slot := 0, use := 4, key := [], refused := true }] })] } [ingestJob]
     s.running = true ∧ s.fieldOn 2 = true ∧ (s.field 2).slices = sliceOf 4 :: [] ∧ s.job? 4 = some ingestJob ∧
       s.fieldUnit ingestJob (sliceOf 4) 2 = some (s.setStatus 4 0x21, false)) ∧
    (let s := { run with fields := [(15, { Field.init with fenced := true })] }; s.running = true ∧ s.fieldOn 15 = false) ∧
    (let s := withJobs { run with fields := [(2, { Field.init with slices := [sliceOf 4] })] } [jobOf 4 0x0100]
     s.running = true ∧ s.tablesWf = true ∧ s.job? 4 = some (jobOf 4 0x0100) ∧
       (s.sliceCtx (jobOf 4 0x0100) (sliceOf 4)).stop false = none ∧ mwf hbmDefault s.hbm = true) ∧
    (let s := withJobs { run with amus := [(3, { Amu.init with slices := [sliceOf 4] })] } [jobOf 4 0x0800]
     s.running = true ∧ s.tablesWf = true ∧ s.amuOn 3 = true ∧ (s.amu 3).slices = sliceOf 4 :: [] ∧
       s.job? 4 = some (jobOf 4 0x0800) ∧ (jobOf 4 0x0800).status = none ∧ (jobOf 4 0x0800).unchecked = false) := by decide +kernel
/-- Core 7 of the big-number pool, pipeline 11, and core 15 of the lattice pool with a waiting core below it. -/
theorem witness_EngineUnitsEnd :
    (let s := withJobs { run with cores := [(29, busyCore 4)] } [jobOf 4 0x0600]
     let t := s.modCore 29 (fun x => { x.start (x.pieces.drop 1) with ram := x.ram.wiped })
     s.running = true ∧ 7 < coreCount (poolIx .bignum) ∧ (s.core (coreBase (poolIx .bignum) + 7)).head? = some (pieceOf 4) ∧
       s.job? 4 = some (jobOf 4 0x0600) ∧ (jobOf 4 0x0600).status = none ∧ (pieceOf 4).part = 0 ∧ t.unitOpen (pieceOf 4) = false ∧
       (t.engUnit (jobOf 4 0x0600) false 29 (pieceOf 4) (s.core 29).ram).isSome = true) ∧
    (let s := withJobs { run with pipes := [(11, busyCore 4)] } [jobOf 4 0x0500]
     let t := s.modPipe 11 (fun x => { x.start (x.pieces.drop 1) with ram := x.ram.wiped })
     s.running = true ∧ (s.pipe 11).head? = some (pieceOf 4) ∧ s.job? 4 = some (jobOf 4 0x0500) ∧
       t.unitOpen (pieceOf 4) = false ∧ (t.engUnit (jobOf 4 0x0500) true 11 (pieceOf 4) (s.pipe 11).ram).isSome = true) ∧
    (run.running = true ∧ (run.core (coreBase (poolIx .lattice) + 0)).head? = none ∧ (run.pipe 11).head? = none ∧
      (run.eng true 11).out = none) ∧
    (∀ l ∈ [[{ pieceOf 4 with part := 2 }], [pieceOf 5, { pieceOf 4 with part := 2 }]],
     let s := { run with cores := [(3, { Core.init with busy := true, moving := true, pieces := l }), (15, { Core.init with moving := true, out := some (pieceOf 4, OpHeld.empty) })] }
     s.running = true ∧ s.tablesWf = true ∧ 15 < coreCount 0 ∧ (s.eng false 15).out = some (pieceOf 4, OpHeld.empty) ∧
       ((s.modEng false 15 (fun x => { x with out := none })).engsWith false (fun p => p.same (pieceOf 4) && p.part == 2)).head? = some 3 ∧
       ((s.eng false 3).head?.any (fun p => p.same (pieceOf 4)) = true ↔ l.length = 1)) := by
  decide
/-- A job with FENCED_LOST, one whose units are all over, with its queue in HBM; one that has its record; one with units left. -/
theorem witness_JobEndsOnce :
    (let j := { jobOf 4 0x0500 with status := some 0x10 }
     let s := withJobs run [j]
     s.running = true ∧ s.job? 4 = some j ∧ j.recorded = false ∧ j.held = none ∧ j.part = none ∧ j.status = some 0x10) ∧
    (let j := jobOf 4 0x0500
     let s := withJobs { run with cfg := [(cqCfgA 1 0, 0x80000000)] } [j]
     s.running = true ∧ s.job? 4 = some j ∧ j.status = none ∧ j.allOver = true ∧ j.opcode ≠ 0x0900 ∧ j.opcode ≠ 0x0901 ∧
       s.cqInHbm j.inst j.cq = true ∧ s.hbmc.pcFenced = 0 ∧ mwf hbmDefault s.hbm = true ∧ j.gen = s.genOf j.inst) ∧
    (let j := { jobOf 4 0x0500 with recorded := true, relPend := true }
     let s := withJobs run [j]
     s.running = true ∧ s.job? 4 = some j ∧ j.recorded = true) ∧
    (let j := { jobOf 4 0x0500 with stages := [{ StageRec.empty with u := 4 }], pls := [plOf 100] }
     let s := withJobs run [j]
     s.running = true ∧ s.job? 4 = some j ∧ j.status = none ∧ j.allOver = false) := by decide
theorem witness_KeyStoreBecomesDurable :
    (let k : KSlot := { KSlot.empty with state := 2, secret := [1], markPend := [16777216, 33554432] }
     let s := { run with keys := { KeyStore.reset with slots := [(16383, k)], nv := [(16383, { KSlot.empty with state := 2, secret := [1] })] } }
     s.running = true ∧ (s.slot 16383).markPend = 16777216 :: [33554432] ∧ 0 < 16777216 ∧
       (mget (fun _ => KSlot.empty) s.keys.nv 16383).state = 2 ∧
       (mget (fun _ => KSlot.empty) s.keys.nv 16383).secret = (s.slot 16383).secret) ∧
    (let c : KCommit := { swn := 90, sets := [(7, { KSlot.empty with state := 2 })], counter := some 5 }
     let s := { run with keys := { KeyStore.reset with commits := [c] } }
     s.running = true ∧ s.slotsWf = true ∧ mwf (fun _ => KSlot.empty) s.keys.nv = true ∧ s.keys.commits = c :: [] ∧
       c.counter = some 5 ∧ (c.sets.map (·.1)).Nodup) ∧
    (let s := { run with keys := { KeyStore.reset with remask := true, slots := [(6, { KSlot.empty with state := 2 })] } }
     s.running = true ∧ s.keys.remask = true ∧ s.slotsWf = true ∧ (s.slot 6).state ≠ 0 ∧ (s.slot 7).bad = false) ∧
    (run.running = true ∧ (run.slot 0).markPend = [] ∧ run.keys.commits = [] ∧ run.keys.remask = false) := by decide
/-- Instances 1 and 256, the first and the last, in the states each command acts in. -/
theorem witness_InstanceCommandsAct :
    (let s := { run with hostif := { HostIf.reset with numvfs := 256 } }
     s.running = true ∧ s.tablesWf = true ∧ reachesPf .pf = true ∧ realInst 256 = true ∧ (s.inst 256).state = 0 ∧
       256 ≤ s.hostif.numvfs) ∧
    (∀ k ∈ [1, 3, 4], let s := { run with insts := [(1, { Inst.init 1 with state := k })] }
      s.running = true ∧ s.tablesWf = true ∧ realInst 1 = true ∧ (s.inst 1).state = k) ∧
    (let s := { run with hostif := { HostIf.reset with numvfs := 256 }, insts := [(256, { Inst.init 256 with state := 1 })] }
     s.running = true ∧ s.tablesWf = true ∧ 255 < 256 ∧ 256 ≤ s.hostif.numvfs ∧ (s.inst 256).state = 1 ∧ (s.inst 255).state ≠ 1) := by
  decide
theorem witness_QueuesAndFetch :
    (let s := { run with cfg := [(sqCfgA 1 0, 0x80000004)], insts := [(1, { Inst.init 1 with state := 1 })] }
     s.running = true ∧ s.tablesWf = true ∧ s.sqOn 1 0 = true ∧ (15#32).toNat % 4096 < s.sqSize 1 0 ∧
       (0 + s.sqSize 1 0 - 0) % s.sqSize 1 0 ≤ (15 + s.sqSize 1 0 - 0) % s.sqSize 1 0) ∧
    (run.running = true ∧ run.tablesWf = true ∧ run.sqOn 1 0 = false ∧ reachesInst (.vf 1) 1 = true ∧
      mwf (fun _ => Sq.init) (run.inst 1).sqs = true ∧ mwf (fun _ => Cq.init) (run.inst 1).cqs = true ∧
      (run.cfgW (cqCfgA 1 7)).getLsbD 31 = false ∧ run.cqBusy 1 7 = false ∧ run.nextSq = none ∧ 3 ≤ asleep.power.state) := by
  decide +kernel
theorem witness_QueuesAndFetch_ready :
    let s := { run with cfg := [(sqCfgA 1 0, 0x80000004)]
                        insts := [(1, { Inst.init 1 with state := 1, sqs := [(0, { head := 0, tail := 1 })] })] }
    s.running = true ∧ s.tablesWf = true ∧ s.adm.inlet.length < 1024 ∧ s.power.state < 3 ∧ s.nextSq = some 8 ∧
      mwf (fun _ => Sq.init) (s.inst (8 / 8)).sqs = true := by decide +kernel
theorem witness_QueuesAndFetch_full :
    let s := { run with adm := { Admit.reset with inlet := List.replicate 1024 { inst := 1, sq := 0, gen := 0, desc := [] } } }
    s.running = true ∧ 1024 ≤ s.adm.inlet.length :=
  ⟨rfl, Nat.le_of_eq (List.length_replicate (n := 1024)).symm⟩
/-- A queue with one record due: the function awake with its vector open or masked, and the function in D3 with a signal held. -/
theorem witness_SignalsSentOrHeld :
    (∀ m : Fin 2, let i : Inst := { Inst.init 1 with state := 1, cqs := [(0, { Cq.init with count := 1 })] }
     let s := { run with cfg := [(cqCfgA 1 0, 0x80000404), (cqCfgA 1 0 + 4, 0x10000)], insts := [(1, i)]
                         hostif := { HostIf.reset with vfMsix := [((1 * 64 + 0) * 4 + 3, BitVec.ofNat 32 m.val)] } }
     s.running = true ∧ s.up = true ∧ s.tablesWf = true ∧ bit (s.cfgN (cqCfgA 1 0)) 31 = true ∧
      bit (s.cfgN (cqCfgA 1 0)) 10 = true ∧
      fld (s.cfgN (cqCfgA 1 0 + 4)) 16 16 ≠ 0 ∧ ((s.inst 1).cq 0).count ≠ 0 ∧ (s.inst 1).low = false ∧
      s.hostif.linkLow = false ∧ s.hostif.linkUp = true ∧ s.msixMasked 1 (fld (s.cfgN (cqCfgA 1 0)) 16 10) = decide (m = 1) ∧
      (({ s with insts := [(1, { i with low := true })] } : State).inst 1).low = true) ∧
    (let i : Inst := { Inst.init 1 with state := 1, low := true, cqs := [(7, { Cq.init with intPend := true })] }
     let s := { run with insts := [(1, i)], hostif := { HostIf.reset with vfMsix := [((1 * 64 + 0) * 4 + 3, 0)] } }
     s.up = true ∧ s.tablesWf = true ∧ s.hostif.linkUp = true ∧ mwf (fun _ => Cq.init) (s.inst 1).cqs = true ∧
       ((s.inst 1).cq 7).intPend = true ∧ s.msixMasked 1 (fld (s.cfgN (cqCfgA 1 7)) 16 10) = false) ∧
    (run.running = true ∧ bit (run.cfgN (cqCfgA 1 0)) 31 = false) := by decide +kernel
/-- The last index within a ring whose consumer stands at 0, and vectors of the PF and of a VF that are open. -/
theorem witness_MailboxesAndHostWindow :
    (run.running = true ∧ run.tablesWf = true ∧ realInst 256 = true ∧ run.hostif.linkUp = true ∧ run.hostif.bar2Held = [] ∧
      ringBad 16 (run.inst 256).upCons = false ∧ ringBad 16 (run.inst 256).dnCons = false ∧ ringBad 17 (run.inst 256).upCons = true) ∧
    (let s := { run with cfg := [(msixMaskA 0, 0)], hostif := { HostIf.reset with vfMsix := [((1 * 64 + 0) * 4 + 3, 0)] } }
     s.msixMasked 0 (fld (s.cfgN (mbxVecA 1)) 16 10) = false ∧ s.msixMasked 1 (fld (s.cfgN (mbxVecA 1)) 0 6) = false) ∧
    (let s := { run with live := [(0x100004, 1)] }; s.running = true ∧ s.windowFull = false) ∧
    (let s := { run with live := [(0x100004, 1)], hostif := { HostIf.reset with winUsed := 1000000 } }
     s.up = true ∧ s.hostif.linkUp = true ∧ s.windowFull = true) ∧
    (let s := { run with hostif := { HostIf.reset with bar2Held := [(false, 0, 1, [])] } }; s.hostif.bar2Held ≠ []) := by decide
theorem witness_LinkKeepsDeviceState : run.up = true ∧ run.hostif.linkUp = true ∧ 2 ^ 64 - 1 < 2 ^ 64 ∧ 0 < 1 := by decide
theorem witness_InterruptsPend : run.up = true ∧ run.running = true ∧ intcReserved 882 = false ∧ intcReserved 883 = true ∧
    intcReserved 896 = false ∧ 0 < (1#32).toNat ∧ cget ({ run with intc := { Intc.reset with timers := [(15, 9)] } } : State).intc.timers
      15 ≠ 0 ∧ cget run.intc.timers 15 = 0 := by decide
/-- A timer's source pending at its core, which is enabled; and no source pending. -/
theorem witness_ClaimTakesHighestPriority :
    (let s := { run with cfg := [(0xA00000 + 4 * 879, 5), (targetCtlA 15, 1)], intc := { Intc.reset with pend := [879] } }
     s.up = true ∧ isCore (.cm 3) 15 = true ∧ s.best 15 = some 879) ∧
    (run.up = true ∧ isCore (.cm 3) 15 = true ∧ run.best 15 = none ∧ isCore .pf 15 = false) := by decide
theorem witness_CompletePopsTheStack :
    (let s := { run with intc := { Intc.reset with stk := [(0, [(864, 3)])], active := [(864, 1)] } }
     s.running = true ∧ isCore (.cc 0) 0 = true ∧ s.stack 0 = (864, 3) :: [] ∧ mwf (fun _ => []) s.intc.stk = true ∧
       mwf (fun _ => 0) s.intc.active = true) ∧
    (run.running = true ∧ isCore (.cc 1) 0 = false ∧ mwf (fun _ => 0) run.intc.assigned = true) := by decide
theorem witness_TaskWritesJoinTheInlet :
    (run.running = true ∧ mayTask .pf = true ∧ run.tasks.inlet.length < 256 ∧ run.tasks.stalled = [] ∧ mayTask (.vf 1) = false) ∧
    256 ≤ ({ run with tasks := { Tasks.reset with inlet := List.replicate 256 (.signal 1) } } : State).tasks.inlet.length ∧
    ({ run with tasks := { Tasks.reset with stalled := [(12, .signal 1)] } } : State).tasks.stalled ≠ [] ∧
    (∃ k n, Instr.taskArm .pf 1 2 = .taskArm .pf k n ∧ TEvent.arm 1 2 = .arm k.toNat n.toNat) := by
  exact ⟨by decide, Nat.le_of_eq (List.length_replicate (n := 256)).symm, List.cons_ne_nil _ _, 1, 2, rfl, rfl⟩
theorem witness_TaskScheduling :
    (∀ n ∈ [1, 2], let s := { run with tasks := { Tasks.reset with inlet := [.signal 8], tds := [(8, { Td.init with state := 1, count := n })] } }
      s.running = true ∧ s.tasks.succ = [] ∧ s.tasks.admBuf = [] ∧ s.tasks.stalled = [] ∧ s.tasks.inlet = .signal 8 :: [] ∧
        (s.td 8).state = 1 ∧ (s.td 8).count = n ∧ (s.readyList (s.tdPrio 8)).length < 1024) ∧
    (let s := { run with cfg := [(0xA04000, 1), (0xA80100, 1), (tdA 8 + 8, 0x1007)], tasks := { Tasks.reset with lists := [(7, [8])] } }
     s.running = true ∧ (∀ i, i < 12 → s.offer? i = none) ∧ s.bestOffer 8 = some (7, 8, 0)) ∧
    (let s := { run with tasks := { Tasks.reset with offers := [(11, (9, 7))] } }
     s.running = true ∧ s.offer? 11 = some (8, 7) ∧ mwf (fun _ => (0, 0)) s.tasks.offers = true ∧ s.offer? 10 = none) := by decide
theorem witness_SampledEventIsRecorded :
    (let s := { run with faults := { Faults.reset with reports := [reportOf 468] } }
     s.up = true ∧ s.faults.fallow = false ∧ s.faults.reports = reportOf 468 :: [] ∧ mwf (fun _ => zeros 32) s.faults.fq = true ∧
       (s.faults.prod.toNat + 512 - s.cfgN 0xB00014 % 512) % 512 ≠ 256) ∧
    (let s := { run with faults := { Faults.reset with reports := [reportOf 468], prod := 256 } }
     (s.faults.prod.toNat + 512 - s.cfgN 0xB00014 % 512) % 512 = 256) ∧ 0xB00014 ∉ run.parBad ∧
    (fallow.up = true ∧ fallow.faults.fallow = true) := by decide
/-- Each reaction in turn at the front of a group; no group; fences of pseudo-channel 127 and port 3, the last; a target's reset. -/
theorem witness_ReactionsTakenInOrder :
    (∀ r ∈ [4, 5, 2, 0, 1, 3], run.nextGroup r = none ∧
      (let g : FGroup := { reports := [reportOf 75], todo := [r] }
       let s := { run with faults := { Faults.reset with groups := [g] } }
       s.running = true ∧ s.tablesWf = true ∧ s.nextGroup r = some g)) ∧
    (∀ n ∈ [435, 448], let g : FGroup := { reports := [reportOf n], todo := [5] }
     let s := { run with cfg := [(reactA n, 32)], faults := { Faults.reset with groups := [g] } }
     s.running = true ∧ s.tablesWf = true ∧ s.nextGroup 5 = some g ∧ (s.chosen g 5).any (fun x => x.source.val == n) = true) ∧
    (let g : FGroup := { reports := [reportOf 467], todo := [2] }
     let s := { run with cfg := [(reactA 467, 4)], faults := { Faults.reset with groups := [g] } }
     s.running = true ∧ s.nextGroup 2 = some g ∧ g.reports = [reportOf 467] ∧ (reportOf 467).source.val = 452 + 15 ∧
       bit (s.maskOf (452 + 15)) 2 = true ∧ mwf (fun _ => []) s.intc.stk = true) := by decide +kernel
theorem witness_FaultPinFollowsHold :
    (let s := { run with faults := { Faults.reset with pulse := true } }; s.running = true ∧ s.faults.pulse = true) ∧
    run.running = true ∧ run.tablesWf = true ∧ reachesPf .pf = true ∧ reachesPf (.vf 1) = false := by decide
theorem witness_FallowEntryStopsTheDevice : run.running = true ∧
    (let s := { run with faults := { Faults.reset with sticky := BitVec.ofNat 512 (2 ^ 47) } }
     s.running = true ∧ ∃ n : Fin 512, FallowCause.guard 47 = .guard n ∧ 45 ≤ n.val ∧ n.val ≤ 47 ∧
       s.faults.sticky.getLsbD n.val = true) := ⟨by decide, by decide, 47, rfl, by decide, by decide, by decide +kernel⟩
/-- SHARE of instance 0 for the votes, and RESERVE for a parity flip of its bit 4. -/
theorem witness_VotesAndParity :
    (run.up = true ∧ run.tablesWf = true ∧ ∃ r i j, regAt 0x110000 = some (r, i, j) ∧ r.guard = .triple ∧
      5#32 &&& BitVec.ofNat 32 r.known = 5#32 ∧ 7#32 &&& BitVec.ofNat 32 r.known = 7#32 ∧ 9#32 &&& BitVec.ofNat 32 r.known = 9#32) ∧
    (run.parBad = [] ∧ ∃ r i j, regAt 0x100000 = some (r, i, j) ∧ r.guard = .parity ∧ bit r.rw 4 = true) :=
  ⟨⟨by decide, by decide, _, _, _, rfl, by decide⟩, rfl, _, _, _, rfl, by decide⟩
theorem witness_BusReads : run.up = true ∧ mwf (fun _ => 0#32) run.hold = true ∧ 0x20 % 4 = 0 ∧ 0x20 % 8 = 0 ∧ Loc.of .pf 0x20 = .reg 0x20 ∧
    Loc.of .pf (0x20 + 4) = .reg (0x20 + 4) ∧ blockOf (0x20 + 4) = blockOf 0x20 ∧ accessOk 0x24 8 = false ∧
    ∃ r i, regAt 0x20 = some (r, i, 0) ∧ regAt (0x20 + 4) = some (r, i, 1) ∧ r.wide = true :=
  ⟨by decide, by decide, by decide, by decide, by decide, by decide, by decide, by decide, _, _, rfl, rfl, rfl⟩
theorem witness_RegisterWritesReachTheShadow :
    (run.running = true ∧ run.tablesWf = true ∧ 0x100000 % 4 = 0 ∧ Loc.of .pf 0x100000 = .reg 0x100000 ∧
      run.writeUnchecked .pf 0x100000 25#32 = none ∧ run.writeUnchecked .pf 0x100000 26#32 = some .all ∧
      ∃ r i j, regAt 0x100000 = some (r, i, j) ∧ r.shadow = true) ∧
    (reachesPf .pf = true ∧ bit (({ run with cfg := [(0x40, 1)] } : State).cfgN 0x40) 0 = true ∧ accessOk 0x100000 2 = false) :=
  ⟨⟨by decide, by decide, by decide, by decide, by decide, by decide, _, _, _, rfl, rfl⟩, by decide, by decide, by decide⟩
theorem witness_BackupRegistersWork :
    (let s := { run with backup := { Backup.reset with slow := [(0xBC0004, 7)] } }
     s.backup.aux = true ∧ s.tablesWf = true ∧ s.backup.slow = [(0xBC0004, 7)]) ∧
    (let s := { run with backup := { Backup.reset with slow := [(0xBC0038, 5), (0xBC003C, 0), (0xBC0040, 1)] } }
     s.backup.vbat = true ∧ s.tablesWf = true) ∧
    (run.up = true ∧ run.running = true ∧ reachesPf (.cm 0) = true ∧ run.tablesWf = true) ∧
    (let s := { run with cfg := [(0xBC0048, 5), (0xBC004C, 0)], backup := { Backup.reset with now := { BkRegs.reset with rtc := 5 } } }
     s.backup.now.rtc.toNat = s.cfgN 0xBC0048 + 2 ^ 32 * s.cfgN 0xBC004C ∧
       ({ s with cfg := [(0xBC0048, 6), (0xBC004C, 0)] } : State).cfgN 0xBC0048 + 2 ^ 32 * s.cfgN 0xBC004C ≠ 5) := by decide
theorem witness_ChipResetClears : run.up = true ∧ run.start.up = true ∧ run.power.ps4Ready = false ∧ State.reset.start.up = false ∧
    (0#16 ≠ 0x5EED#16) := by decide
/-- Each phase; a root that the partition was made for, which KMAC gives, and a well that has lost its power. -/
theorem witness_StartSequence :
    (State.reset.start.up = false ∧ State.reset.backup.held = false ∧ State.reset.start.thermLow = false) ∧
    (run.up = true ∧ ({ run with start := { run.start with phase := 1, trained := false } } : State).up = true) ∧
    (∀ r, let s := { run with
        keys := { KeyStore.reset with nvRoot := r }
        seed := { Seedbank.reset with phase := 2 }
        backup := { Backup.reset with root := true, now := { BkRegs.reset with powerLost := false } } }
     s.running = true ∧ s.keys.phase = 0 ∧ s.seed.phase = 2 ∧ s.life.mark = 0 ∧ s.start.fwOk = true ∧ s.backup.root = true ∧
       s.backup.now.tamperBk = false ∧ s.backup.now.powerLost = false ∧ (r = s.deviceRoot → s.keys.nvRoot = s.deviceRoot)) ∧
    (let s := { run with seed := { Seedbank.reset with phase := 2 } }; s.keys.phase = 0 ∧ s.backup.now.powerLost = true) ∧
    (let s := { run with start := { run.start with phase := 15 } }; s.start.up = true ∧ s.start.phase = 15) ∧ run.start.phase ≠ 15 :=
  ⟨by decide, by decide, fun _ => ⟨rfl, rfl, rfl, rfl, rfl, rfl, rfl, rfl, fun h => h⟩, by decide, by decide, by decide⟩
theorem witness_ManagementMessagesAnswered :
    (run.up = true ∧ run.mctpHears .pcie = true ∧ run.mctpHears (.smbus 0x60) = true ∧ run.mctpHears (.smbus 0x61) = false ∧
      run.mctpAnswers (.smbus 0x60) [1] = true ∧ run.mctpAnswers .pcie [5] = false) ∧
    (let s : State := { run with start := Startup.reset, backup := { Backup.reset with held := true } }
     s.up = false ∧ s.backup.held = true ∧ s.mctpHears (.smbus 0x60) = true ∧ s.mctpAnswers (.smbus 0x60) [0, 0, 2] = true ∧
       s.mctpAnswers .pcie [0, 0, 2] = false ∧ s.backup.smbAddr = some 0x60 ∧
       ({ s with backup := { s.backup with smbAddr := none } } : State).backup.smbAddr = none) ∧
    1 ≤ (1#8).toNat ∧ (8#8).toNat ≤ 8 ∧ (0#8).toNat = 0 ∧ 8 < (9#8).toNat ∧ run.backup.held = false := by decide
theorem witness_RailsAndSupplies : run.start.up = true ∧ run.power.ps4Ready = false ∧ asleep.power.ps4Ready = true ∧ run.hubOn = true ∧
    asleep.hubOn = false ∧ run.backup.vbat = true ∧
    run.backup.aux = true ∧ ({ run with backup := { Backup.reset with vbat := false } } : State).backup.vbat = false := by decide
theorem witness_TamperAlarmsAct :
    (let s := { run with tamper := { Tamper.reset with armed := 0x401 } }
     s.hubOn = true ∧ s.tamperOn 0 = true ∧ s.tamperOn 10 = true ∧ s.tamperOn 1 = false ∧
       s.faults.reports.any (fun r => decide (480 ≤ r.source.val)) = false) ∧
    (let s := { run with cfg := [(0xBC0004, 7)] }; s.tamperOn 13 = true ∧ s.tamperOn 15 = true) ∧
    (let s := { run with cfg := [(0xBC0004, 0)] }; s.tamperOn 13 = false) := by decide
theorem witness_FuseRequestBlowsFuses : run.running = true ∧ reachesPf .pf = true ∧ run.life.closed = false ∧ 0#16 ≠ 0xF05E#16 ∧
    ({ run with life := { Life.reset with closed := true } } : State).life.closed = true := by decide
/-- Open, Closed, Closed with FINAL blown, and each mark of an opening. -/
theorem witness_LifeCycleTransitions :
    (run.running = true ∧ mayLife .pf = true ∧ mayLife (.cc 0) = false ∧ run.life.mark = 0 ∧ run.life.closed = false) ∧
    (∀ b ∈ [true, false], let s := { run with life := { Life.reset with closed := true, final := b } }
      s.running = true ∧ s.life.mark = 0 ∧ s.life.closed = true ∧ s.life.final = b) ∧
    (∀ m ∈ [2, 3, 4], let s := { run with life := { Life.reset with closed := true, mark := m } }; s.up = true ∧ s.life.mark = m) := by
  decide
theorem witness_FinalRequestIsForGood :
    let s := { run with life := { Life.reset with closed := true, final := true } }
    s.running = true ∧ mayLife (.cm 3) = true ∧ s.life.mark = 0 ∧ s.life.closed = true ∧ s.life.final = true ∧ 0#16 ≠ 0xF17A#16 ∧
      run.life.closed = false ∧ answers (exec (.lcOpen .pf true) s) (fun t => t.life.closed) = true := by decide
theorem witness_DebugWorksOnlyInOpen :
    ({ run with life := { Life.reset with closed := true } } : State).life.closed = true ∧ run.tapDebug = true ∧
    mwf (fun _ => []) run.intc.stk = true ∧ run.ctrl.dbgHalted.contains 15 = false ∧ mwf hostDefault run.ctrl.mem = true ∧
    run.running = true ∧ run.tablesWf = true ∧ Loc.of .jtag 0x100000 = .reg 0x100000 ∧
    run.writeUnchecked .jtag 0x100000 25#32 = none ∧ ∃ r i j, regAt 0x100000 = some (r, i, j) ∧ r.shadow = true :=
  ⟨by decide, by decide, by decide, by decide, by decide, by decide, by decide, by decide, by decide, _, _, _, rfl, rfl⟩
theorem witness_AgeingPlanKeepsMargins :
    (let s := { run with power := { Power.reset with measuring := true } }
     s.running = true ∧ s.power.measuring = true ∧ mwf (fun _ => 0) s.power.mons = true) ∧
    (let s := { run with power := { Power.reset with measured := true } }; s.running = true ∧ s.power.measured = true) ∧
    (let p : Plan := { step := 20, vw := 880, ve := 880 }
     let s := { run with power := { Power.reset with planned := some p, vddW := 850 } }
     s.running = true ∧ s.power.planned = some p ∧ s.railV false < p.rail false) ∧
    (([false, false, false, true] : List Bool).take 4).any id = true ∧ (([] : List Bool).take 4).any id = false := by decide
/-- A frame of member 3 for a part this member holds, accepted at the last SLOT_CAP byte and one past it; one from afar. -/
theorem witness_CommonsFramesActOrAreDropped :
    let fr := frameOf 9 (zeros 64)
    let s := withJobs { run with live := [(peerHiA 3, 0x80000000), (slotA 5 + 8, 64)], commons := { Commons.reset with linkUp := 1 } } [partJob]
    s.running = true ∧ s.hears fr = true ∧ s.frameOk fr = true ∧
      (∃ p, s.partOf fr.cjob = some (partJob, p) ∧ p.coord = fr.src.toNat) ∧
      fr.offset.toNat + fr.payload.length ≤ s.slotCap fr.slot.val ∧
      s.slotCap fr.slot.val < ({ fr with offset := 1 } : Frame).offset.toNat + fr.payload.length ∧
      s.frameOk { fr with swn := 102 } = false ∧ s.frameOk { fr with swn := 101 } = true ∧ fr.etherType ≠ 0x88F7 ∧
      run.hears fr = false ∧ s.commons.align ≠ 1 ∧ s.frameOk { fr with etherType := 0x88F7 } = false ∧
      (let t := { s with commons := { s.commons with align := 1 } }
       t.running = true ∧ t.hears { fr with swn := 500 } = true ∧ t.swnNear { fr with swn := 500 } = false ∧
         t.frameOk { fr with swn := t.glob.swn } = true) := by
  refine ⟨by decide, by decide, by decide, ⟨_, rfl, by decide⟩, by decide, by decide, by decide, by decide, by decide, by decide,
    by decide, by decide, by decide⟩
theorem witness_CommonsClockAndPorts :
    (run.running = true ∧ run.up = true ∧ bit run.ctl 31 = false ∧ run.commons.linkUp.getLsbD 3 = false) ∧
    (∀ k ∈ [1, 2], let s := { run with live := [(0xD00000, BitVec.ofNat 32 (0x80000000 + 256 * k))] }
      s.running = true ∧ bit s.ctl 31 = true ∧ s.follows k = true) ∧
    (let s := { run with live := [(peerHiA 1023, 0x80000000)], commons := { Commons.reset with peers := [(1023, { state := 1, lastAlive := 36 })] } }
     s.running = true ∧ s.peerOn 1023 = true ∧ (s.peer 1023).lastAlive + 64 ≤ s.swnN) ∧
    (let s := { run with live := [(peerHiA 1023, 0x80000000)], commons := { Commons.reset with peers := [(1023, { state := 1, lastAlive := 37 })] } }
     s.swnN < (s.peer 1023).lastAlive + 64) ∧
    (∀ n ∈ [7, 8], let s := { run with commons := { Commons.reset with align := 3, holdSwaths := n } }
      s.running = true ∧ s.commons.align = 3 ∧ s.commons.holdSwaths = n) := by decide
theorem witness_HbmReadsWhatWasWritten : mwf hbmDefault run.hbm = true ∧ run.hbmc.pcFenced = 0 ∧
    0x17FFFFFFFF + (zeros 1).length ≤ 0x1800000000 ∧
    ({ run with hbmc := { Hbmc.reset with pcFenced := 2 } } : State).hbmc.pcFenced.getLsbD (pcOf 256) = true := by decide
theorem witness_QuietCommandsKeepTheStores : quiet (.claim (.cc 0) 0) run = true ∧ (∃ t, exec (.claim (.cc 0) 0) run = .next t) ∧
    quiet (.mbxUpProd 1 16) run = true ∧ quiet (.mbxUpProd 1 17) run = false := ⟨rfl, ⟨_, rfl⟩, rfl, rfl⟩
end Sys2Proof.Tests
end

section
/-! The statements of the scope chapter: every command completes (R7, R9), and where the instance commands (chapter 16) do more than stated. -/

namespace Sys2Proof.Machine

/-! ## Every command completes -/

theorem whenRun_completes_always (s t : State) : ∃ u, whenRun s t = .next u := ⟨_, whenRun_next t⟩
theorem whenUp_completes_always (s t : State) : ∃ u, whenUp s t = .next u := ⟨_, whenUp_next t⟩

/-- A message on a path that the device does not hear is dropped; on any other it is answered or dropped. -/
theorem execMctpMessage_completes (via : MctpVia) (msg : Bytes) (s : State) : ∃ t, execMctpMessage via msg s = .next t := by
  unfold execMctpMessage
  split
  · exact ⟨_, rfl⟩
  · exact ⟨_, rfl⟩

/-- Settles O6. Each meaning is one of three: it acts while the device runs, while the device is up, or in every state; in the other
states of the first two the command completes and changes nothing. -/
theorem everyCommandCompletes : Obligations.EveryCommandCompletes := by
  unfold Obligations.EveryCommandCompletes
  intro c s
  cases c
  case tickOutPulse | replanStep | commitStep | drainComplete | planeSwitch | admissionStep | mirrorRefresh | editPass | editPassEnd |
      planeLoad | planeLoadEnd | fieldStoreClear | seedbankAllotment | latePlaneSwitch | lookaheadStart | workWindowBegins | tailBegins |
      psEntryAtSwathEnd | unitEnd | sliceCut | operationEnd | digestUnitEnd | splitHandover | jobEnd | highWaterDurable |
      nvCommitDurable | slotReload | remaskComplete | amuScrubStep | probeTagWrite | probeAnswer | conditionedBlock | seedAlarm |
      seedStartupTestEnd | seedFloorReached | complete | swiSetC | swiSetM | timerWrite | taskArm | taskSignal | taskCancel |
      taskInletEvent | taskOffer | offerTimeout | faultPinHoldWrite | fallowEntry | cfgHoldWrite | keystoreReloadEnd | fuseReq |
      tamperEnableWrite | rtcLoad | lcClose | lcOpen | finalReq | ageingMeasurementEnd | marginPlan | avsCommand | instEnable |
      instReset | instRemove | instFreeze | instThaw | instVfReset | numvfsLowered | sqTailDoorbell | cqHeadDoorbell | queueEnable |
      descriptorArrives | cqTimer | mbxUpProd | mbxDnProd | exchange | end_ | reserve | ack | commit | abandon | partDone | alive |
      aliveSend | peerTimeout | ptpSync | tickInEdge | referenceLost | holdoverTimeout =>
    exact whenRun_completes_always s _
  case swathBoundary | intcEvent | intcReassign | claim | timerExpiry | faultGroupSampled | reactionPin | reactionFence |
      reactionBlockReset | reactionInt | reactionNmi | reactionChipReset | faultPinTimer | registerVote | paritySweep | busTimeout |
      counterLowRead | firmwareVerify | hbmTrainingEnd | spdmGetMeasurements | rtcAlarm | hostD0Return | bar2Access |
      dmaErrorCompletion | pcieLinkDown | pcieLinkUp | portLinkDrop | portRetrained | openingStepEnd | d3hotOrL1Entry | numvfsRaised =>
    exact whenUp_completes_always s _
  case mctpMessage via msg => exact execMctpMessage_completes via msg s
  case registerWrite | slowWriteApply | resetReq | perstAssert | startEdge | pldmFirmwareUpdate | heldStatusRequest | mainRailLoss |
      thermtrip | tamperAlarm | backupTamperAlarm | auxRailFall | backupSupplyChange | dbgCore | dbgReg | tamperMonitorArmed |
      risingSclkEdge | vbatLowChange =>
    exact ⟨_, rfl⟩

/-! ## A job number that two instances' jobs share -/

/-- An instance in state ENABLED. -/
def enabledInst (n : Nat) : Inst := { Inst.init n with state := 1 }
/-- Job 5 of an instance: an AMU_LOOKUP of which nothing is placed, admitted under GEN 0. -/
def bareJob (inst : Nat) : Job :=
  { id := 5, inst, sq := 0, cq := 0, gen := 0, tag := 7, opcode := 0x0800, desc := [], param := [], image := HandleC.empty, a := 90
    deadline := 120, stages := [], pls := [], lost := [], status := none, finish := 0, trunc := false, sat := false
    rows := [], recorded := false, relPend := false, held := none, tent := false, part := none, carryId := 0, carryKey := []
    worst := none, budgetOut := false, signs := [], dealt := 0, cursor := 0, levels := [], work := [], carries := []
    overflow := false, sent := [], dest := [], scratch := [] }
/-- A running device with NumVFs 2, both instances ENABLED, completion queue 0 of instance 1 enabled, and a job numbered 5 of each. -/
def sharedNumber : State := { State.reset with
  start := { Startup.reset with up := true, phase := 10, trained := true, fwOk := true }
  cfg := [(cqCfgA 1 0, 0x80000000)]
  hostif := { HostIf.reset with numvfs := 2 }
  insts := [(1, enabledInst 1), (2, enabledInst 2)]
  adm := { Admit.reset with jobs := [bareJob 1, bareJob 2], nextJob := 6 } }

theorem sharedNumber_running : sharedNumber.running = true := by decide
theorem sharedNumber_tablesWf : sharedNumber.tablesWf = true := by decide

/-- What NUMVFS_LOWERED leaves of a running device: the ENABLED instances above `k` are removed in turn. -/
def State.loweredTo (s : State) (k : Nat) : State :=
  ((upTo 257).filter (fun n => decide (k < n) && decide (n ≤ s.hostif.numvfs) && (s.inst n).state == 1)).foldl
    (fun t n => t.resetCmd n true) { s with hostif := { s.hostif with numvfs := min s.hostif.numvfs k } }
theorem exec_numvfsLowered {s : State} (h : s.running = true) (k : Fin 257) :
    exec (.numvfsLowered k) s = .next (s.loweredTo k.val) := whenRun_of_running h _

/-- The end of instance 2's job finds instance 1's under its number, and its record counts in instance 1's completion queue. -/
theorem loweredTo_counts_in_kept_instance :
    ((sharedNumber.inst 1).cq 0).count = 0 ∧ (((sharedNumber.loweredTo 1).inst 1).cq 0).count = 1 := by decide +kernel

/-- Refutes O29 in its clause on NumVFs: in `sharedNumber`, where jobs of two instances bear one number, lowering NumVFs to 1 changes
instance 1, which should stay. A job is ended by its number, and the statement has no premise that the numbers differ, though admission
counts them up (`nextJob`). -/
theorem not_instanceCommandsAct : ¬ Obligations.InstanceCommandsAct := by
  unfold Obligations.InstanceCommandsAct
  intro ⟨_, _, _, _, hLower, _⟩
  obtain ⟨t, ht, _, _, _, hKept, _⟩ := hLower sharedNumber 1 sharedNumber_running sharedNumber_tablesWf
  obtain rfl : t = sharedNumber.loweredTo 1 :=
    (Host.Outcome.next.inj ((exec_numvfsLowered sharedNumber_running 1).symm.trans ht)).symm
  have hSame : (sharedNumber.loweredTo 1).inst 1 = sharedNumber.inst 1 := hKept 1 (.inl (by decide))
  obtain ⟨hBefore, hAfter⟩ := loweredTo_counts_in_kept_instance
  rw [hSame, hBefore] at hAfter
  exact absurd hAfter (by decide)

end Sys2Proof.Machine
end

section
/-! The statements of the architecture chapter (chapters 1 and 2). -/

namespace Sys2Proof.Machine

/-! ## Rows of the register maps -/

/-- A row names its own words only: word `j` of unit `i` stands at its base, so many strides further. -/
theorem hit_row {x r : RegRow} {a i j : Nat} (h : x.hit a = some (r, i, j)) :
    x = r ∧ ∃ k, k < r.n1 ∧ j < r.n2 ∧ a = r.base + (k * r.s1 + j * r.s2) := by
  simp only [RegRow.hit, Option.ite_none_left_eq_some, Option.ite_none_right_eq_some, Option.some.injEq, Prod.mk.injEq] at h
  obtain ⟨hle, ⟨hi, hj, hd⟩, rfl, -, rfl⟩ := h
  exact ⟨rfl, _, hi, hj, by omega⟩

/-- The row that names an address is one of its block, and names it. -/
theorem regAt_row {a i j : Nat} {r : RegRow} (h : regAt a = some (r, i, j)) :
    r ∈ rowsAt a ∧ ∃ k, k < r.n1 ∧ j < r.n2 ∧ a = r.base + (k * r.s1 + j * r.s2) := by
  obtain ⟨x, hx, hit⟩ := List.exists_of_findSome?_eq_some h
  obtain ⟨rfl, hk⟩ := hit_row hit
  exact ⟨hx, hk⟩

/-- What holds of all rows of each map holds of the rows at an address. -/
theorem rowsAt_all {P : RegRow → Bool} (h : [rowsGlobal, rowsAdmit, rowsMeadow, rowsSward, rowsAmu, rowsPoolsA, rowsPoolsB,
    rowsDigestSeed, rowsKeystore, rowsInstance, rowsIntc, rowsTasks, rowsFault, rowsTamperPower, rowsLife, rowsCommons,
    rowsHbm].all (·.all P) = true) {a i j : Nat} {r : RegRow} (hr : regAt a = some (r, i, j)) : P r = true := by
  have hm := (regAt_row hr).1
  have hall : (rowsAt a).all P = true := by
    simp only [List.all_cons, List.all_nil, Bool.and_true, Bool.and_eq_true] at h
    simp only [rowsAt, apply_ite (List.all · P), h, ite_self]
  exact List.all_eq_true.1 hall r hm

/-- A 64-bit counter is neither CLAIM nor a free reading, and none of them shows the causes of the fault collector. -/
theorem wide_row {a i j : Nat} {r : RegRow} (h : regAt a = some (r, i, j)) (hw : r.wide = true) :
    r.id ≠ .claim ∧ readsFree r.id = false ∧ r.id ≠ .liveBits := by
  have := rowsAt_all (P := fun r => !r.wide || (r.id != .claim && !readsFree r.id && r.id != .liveBits)) (by decide +kernel) h
  simpa [hw, and_assoc] using this

/-- The bits of a shadowed register that its map defines are the writable ones. -/
theorem shadow_known {a i j : Nat} {r : RegRow} (h : regAt a = some (r, i, j)) (hs : r.shadow = true) : r.known = r.rw ∧ r.rw ≠ 0 := by
  have := rowsAt_all (P := fun r => !r.shadow || (r.known == r.rw && r.rw != 0)) (by decide +kernel) h
  simpa [hs] using this

/-- SEALER is one register. -/
theorem sealer_at {a i j : Nat} {r : RegRow} (h : regAt a = some (r, i, j)) (hs : r.id = .ksSealer) : a = 0x800018 := by
  obtain ⟨-, k, hk, hj, ha⟩ := regAt_row h
  have := rowsAt_all (P := fun r => r.id != .ksSealer || (r.base == 0x800018 && r.n1 == 1 && r.n2 == 1)) (by decide +kernel) h
  simp only [hs, bne_self_eq_false, Bool.false_or, Bool.and_eq_true, beq_iff_eq] at this
  obtain ⟨⟨hb, h1⟩, h2⟩ := this
  obtain rfl : k = 0 := by omega
  obtain rfl : j = 0 := by omega
  simpa [hb] using ha

/-! ## Reads of counters (R31, R39) -/

theorem exec_counterLowRead {s : State} (h : s.up = true) (who : Requester) (a size : Nat) :
    exec (.counterLowRead who ⟨a, size⟩) s = .next (s.regRead who a size) := whenUp_of_up h _

/-- What waits at the collector and its causes show in LIVE alone. -/
theorem regC_faults (s : State) (l : List FaultReport) (c : BitVec 512) (a : Nat) (id : RegId) (i j : Nat) :
    State.regC { s with faults := { s.faults with reports := l, live := c } } a id i j =
      if id = .liveBits then c.toNat / 2 ^ (32 * i) else s.regC a id i j := by
  cases id <;> rfl

/-- A parity check changes no register's value but the causes that it raises. -/
theorem readReg_checkParity (s : State) (b : Nat) (who : Requester) {a i j : Nat} {r : RegRow} (h : regAt a = some (r, i, j))
    (hl : r.id ≠ .liveBits) : (s.checkParity b).readReg who a = s.readReg who a := by
  obtain ⟨l, c, e⟩ := checkParity_only (s := s) b
  simp only [e, State.readReg, h, regC_faults, if_neg hl]
  rfl

section Counter

variable {s : State} {who : Requester} {a i j : Nat} {r : RegRow}

/-- A word of a counter answers itself, and its parity is checked. -/
theorem readWord_wide (h : regAt a = some (r, i, j)) (hw : r.wide = true) :
    s.readWord who (.reg a) = (s.readReg who a, s.checkParity a) := by
  obtain ⟨hc, hf, -⟩ := wide_row h hw
  simp [State.readWord, h, hc, hf]

/-- The low half answers itself and keeps the high half of that moment. -/
theorem read32_low (hl : Loc.of who a = .reg a) (h : regAt a = some (r, i, 0)) (hw : r.wide = true) :
    s.read32 who a = ({ s with hold := mput (fun _ => 0#32) s.hold (holdKey who a) (s.readReg who (a + 4)) }).setResp
      (.word (s.readReg who a)) := by
  simp [State.read32, hl, h, hw]

/-- The high half answers what its requester's holding register keeps. -/
theorem read32_high (hl : Loc.of who a = .reg a) (h : regAt a = some (r, i, 1)) (hw : r.wide = true) :
    s.read32 who a = s.setResp (.word (mget (fun _ => 0#32) s.hold (holdKey who a))) := by
  simp [State.read32, hl, h, hw]

/-- Both halves of one moment. -/
theorem read64_wide (hl : Loc.of who a = .reg a) (hl' : Loc.of who (a + 4) = .reg (a + 4)) (h : regAt a = some (r, i, 0))
    (h' : regAt (a + 4) = some (r, i, 1)) (hw : r.wide = true) :
    s.read64 who a = ((s.checkParity a).checkParity (a + 4)).setResp (.dword (s.readReg who (a + 4) ++ s.readReg who a)) := by
  simp only [State.read64, hl, hl', readWord_wide h hw, readWord_wide h' hw, readReg_checkParity s a who h' (wide_row h' hw).2.2]

end Counter

/-- Settles O44: a counter's row sends its reads past CLAIM and the free readings, and a parity check on the way changes no counter. -/
theorem busReads : Obligations.BusReads := by
  unfold Obligations.BusReads
  refine ⟨fun s who h => whenUp_of_up h _, ?low, ?both, ?unaligned⟩
  case low =>
    intro s who a r i hup hhold ha hl hl' h h' hw hb
    refine ⟨_, exec_counterLowRead hup who a 4, ?_⟩
    have hok : accessOk a 4 = true := by simp [accessOk, ha]
    have hok' : accessOk (a + 4) 4 = true := by simp [accessOk]; omega
    have hk : holdKey who (a + 4) = holdKey who a := by simp [holdKey, hb]
    have hread : s.regRead who a 4 = s.read32 who a := by simp [State.regRead, hok]
    rw [hread, read32_low hl h hw]
    refine ⟨rfl, rfl, rfl, fun u hu he => ?_⟩
    have hread' : u.regRead who (a + 4) 4 = u.read32 who (a + 4) := by simp [State.regRead, hok']
    rw [exec_counterLowRead hu, hread', read32_high hl' h' hw, he, hk, State.setResp_hold, mget_mput_same hhold]
  case both =>
    intro s who a r i hup ha hl hl' h h' hw
    refine ⟨_, exec_counterLowRead hup who a 8, ?_⟩
    have hread : s.regRead who a 8 = s.read64 who a := by simp [State.regRead, accessOk, ha]
    obtain ⟨l, c, e⟩ := checkParity_only (s := s) a
    obtain ⟨l', c', e'⟩ := checkParity_only (s := s.checkParity a) (a + 4)
    rw [hread, read64_wide hl hl' h h' hw, e', e]
    exact ⟨rfl, rfl, rfl, rfl⟩
  case unaligned =>
    intro s who a size hup hbad
    refine ⟨_, exec_counterLowRead hup who a size, ?_⟩
    simp only [State.regRead, hbad, Bool.false_eq_true, if_false]
    exact ⟨_, rfl⟩

/-! ## Writes of stored words (R40, R44, R47) -/

/-- A vote or parity check that passes again touches the lists of bad words and the causes alone. -/
theorem rewritten_only (s : State) (a : Nat) : ∃ p v c, s.rewritten a =
    { s with parBad := p, voteBad := v, faults := { s.faults with live := c } } ∧ a ∉ p := by
  unfold State.rewritten State.settleCause
  by_cases h : (!s.parBad.contains a && !s.voteBad.any (fun e => e.1 == a)) = true
  · rw [if_pos h]
    simp only [Bool.and_eq_true, Bool.not_eq_true', List.contains_eq_mem, decide_eq_false_iff_not] at h
    exact ⟨_, _, _, rfl, h.1⟩
  · rw [if_neg h]
    have hmem : a ∉ s.parBad.filter (· != a) := by simp
    dsimp only
    split <;> split <;> exact ⟨_, _, _, rfl, hmem⟩

theorem settleSkip_only (s : State) : ∃ k, s.settleSkip = { s with glob := { s.glob with cfgSkip := k } } := by
  unfold State.settleSkip
  split
  · exact ⟨_, rfl⟩
  · exact ⟨_, rfl⟩

/-- A write of a stored word sets the bits of its mask, leaves the word with right parity, and touches nothing else but the lists of bad
words, their causes and CFG_SKIP. -/
theorem storeWord_only (s : State) (a mask : Nat) (w : Word) : ∃ p v c k, s.storeWord a mask w =
    { s.setCfg a ((s.cfgW a &&& ~~~BitVec.ofNat 32 mask) ||| (w &&& BitVec.ofNat 32 mask)) with
      parBad := p, voteBad := v, faults := { s.faults with live := c }, glob := { s.glob with cfgSkip := k } } ∧ a ∉ p := by
  unfold State.storeWord
  obtain ⟨p, v, c, e, hp⟩ := rewritten_only (s.setCfg a ((s.cfgW a &&& ~~~BitVec.ofNat 32 mask) ||| (w &&& BitVec.ofNat 32 mask))) a
  dsimp only
  rw [e]
  obtain ⟨k, e⟩ := settleSkip_only { s.setCfg a ((s.cfgW a &&& ~~~BitVec.ofNat 32 mask) ||| (w &&& BitVec.ofNat 32 mask)) with
      parBad := p, voteBad := v, faults := { s.faults with live := c } }
  exact ⟨p, v, c, k, e, hp⟩

/-- Registers whose write only stores a word, among them every shadowed one but SEALER. -/
def storedIds : List RegId :=
  [.reserve, .hostWin, .share, .lend, .fieldCtl, .regOn, .regOnLast, .regDigest, .regInst, .amuShadow, .amuCtl, .latCtl, .hsgCtl,
    .bnCtl, .rngWait, .pwrCmd, .comCtl, .member, .etype, .ptp, .tickDelay, .migSlot, .commonsInst, .epoch, .portCfg, .peerLo, .peerHi,
    .slotBaseLo, .slotBaseHi, .slotCap]

theorem shadow_stored {a i j : Nat} {r : RegRow} (h : regAt a = some (r, i, j)) (hs : r.shadow = true) (ha : a ≠ 0x800018) :
    r.id ∈ storedIds := by
  have := rowsAt_all (P := fun r => !r.shadow || r.id == .ksSealer || storedIds.contains r.id) (by decide +kernel) h
  simp only [hs, Bool.not_true, Bool.false_or, Bool.or_eq_true, beq_iff_eq, List.contains_eq_mem, decide_eq_true_eq] at this
  exact this.resolve_left (fun hk => ha (sealer_at h hk))

theorem writeReg_stored (s : State) (who : Requester) {a i j : Nat} {r : RegRow} (w : Word) (h : regAt a = some (r, i, j))
    (hid : r.id ∈ storedIds) : s.writeReg who a w = if r.rw = 0 then s else s.storeWord a (r.rw &&& reachMask who r) w := by
  simp only [State.writeReg, h]
  generalize r.id = id at hid
  fin_cases hid <;> rfl

/-- A write of a shadowed register stores its word. -/
theorem writeReg_shadow (s : State) {a i j : Nat} {r : RegRow} (w : Word) (h : regAt a = some (r, i, j)) (hs : r.shadow = true)
    (ha : a ≠ 0x800018) : s.writeReg .pf a w = s.storeWord a r.rw w := by
  obtain ⟨hk, h0⟩ := shadow_known h hs
  rw [writeReg_stored s .pf w h (shadow_stored h hs ha), if_neg h0, show reachMask .pf r = r.known from rfl, hk, Nat.and_self]

/-! ## Writes of memory -/

/-- A fold of steps that keep a part of the state keeps it. -/
theorem foldl_keeps {α β : Type} {f : State → α → State} {g : State → β} (hf : ∀ s x, g (f s x) = g s) (l : List α) (s : State) :
    g (l.foldl f s) = g s := by
  induction l generalizing s with
  | nil => rfl
  | cons x l ih => exact (ih (f s x)).trans (hf s x)

/-- A write of HBM by requests changes HBM and the count of requests. -/
theorem hbmWrite_only (s : State) (a : Nat) (b : Bytes) : ∃ m n, s.hbmWrite a b =
    { s with hbm := m, hbmc := { s.hbmc with servedNow := n } } := by
  obtain ⟨m, e⟩ := hbmPoke_only (s := s.countReqs (reqs a b.length)) a b
  exact ⟨m, _, e⟩

/-- A DMA write changes host memory and the armed errors. -/
theorem hostWrite_only (s : State) (a : Nat) (b : Bytes) : ∃ m l, s.hostWrite a b =
    { s with host := m, hostif := { s.hostif with dmaErr := l } } := by
  unfold State.hostWrite State.dropErrs
  have hput : ∀ (hits : List (Nat × Nat)) (l : List (Byte × Nat)) (u : State), ∃ m, l.foldl (fun s e =>
      if hits.any (fun r => overlaps (a + e.2 + 2 ^ 64) 1 r.1 r.2) then s else s.hostPut (a + e.2) e.1) u = { u with host := m } := by
    intro hits l
    induction l with
    | nil => exact fun u => ⟨u.host, rfl⟩
    | cons e l ih =>
      intro u
      rw [List.foldl_cons]
      split
      · exact ih u
      · obtain ⟨m, hm⟩ := ih (u.hostPut (a + e.2) e.1)
        exact ⟨m, hm⟩
  split
  · exact ⟨_, _, rfl⟩
  · obtain ⟨m, hm⟩ := hput (s.errHits true a b.length) b.zipIdx s
    dsimp only
    rw [hm]
    split
    · exact ⟨m, _, rfl⟩
    · exact ⟨m, _, rfl⟩

theorem memWrite_only (s : State) (host : Bool) (a : Nat) (b : Bytes) : ∃ m k n l, s.memWrite host a b =
    { s with hbm := m, host := k, hbmc := { s.hbmc with servedNow := n }, hostif := { s.hostif with dmaErr := l } } := by
  unfold State.memWrite
  split
  · obtain ⟨k, l, e⟩ := hostWrite_only s a b
    exact ⟨s.hbm, k, s.hbmc.servedNow, l, e⟩
  · obtain ⟨m, n, e⟩ := hbmWrite_only s a b
    exact ⟨m, s.host, n, s.hostif.dmaErr, e⟩

/-! ## Unchecked accesses by instances (scope Q of Table 25.1) -/

/-- What lies beside the queues and the memories. -/
def State.besideQueues (s : State) := (s.keys, s.live, s.life, s.tamper, s.backup, s.fields, s.glob, s.adm)

/-- An unchecked access of scope Q leaves everything beside those queues as it is. -/
theorem queueAnything_besideQueues (s : State) (n : Nat) : (s.queueAnything n).besideQueues = s.besideQueues := by
  unfold State.queueAnything
  split
  · rfl
  · refine (foldl_keeps (g := State.besideQueues) (fun u a => ?reg) _ _).trans
      (foldl_keeps (g := State.besideQueues) (fun u q => ?queue) (upTo 8) { s with free := s.free + 1 })
    case reg =>
      split
      · split
        · rfl
        · rfl
      · rfl
    case queue =>
      dsimp only
      split
      · rfl
      · obtain ⟨m, k, c, l, e⟩ := memWrite_only (u.drawBytes (32 * 2 ^ fld (u.cfgN (cqCfgA n q)) 0 5)).2
          (bit (u.cfgN (cqCfgA n q)) 8) (u.cfgN (cqCfgA n q - 8) + 2 ^ 32 * u.cfgN (cqCfgA n q - 4))
          (u.drawBytes (32 * 2 ^ fld (u.cfgN (cqCfgA n q)) 0 5)).1
        exact (congrArg State.besideQueues e).trans rfl

/-! ## REGISTER_WRITE and CFG_HOLD_WRITE -/

theorem running_powered {s : State} (h : s.running = true) : (!s.start.up || s.power.ps4Ready) = false := by
  have h := running_up h
  simp only [State.up, Bool.and_eq_true, Bool.not_eq_true'] at h
  simp [h]

theorem exec_registerWrite {s : State} (h : s.running = true) (who : Requester) (a size : Nat) (v : DWord) :
    exec (.registerWrite who a size v) s = .next (s.regWrite who a size v) := by
  show Host.Outcome.next _ = _
  rw [running_powered h]
  rfl

/-- A 32-bit write of the PF to a checked value is a write of that register. -/
theorem regWrite_word {s : State} {a : Nat} {w : Word} (h : s.running = true) (ha : a % 4 = 0) (hl : Loc.of .pf a = .reg a)
    (hu : s.writeUnchecked .pf a w = none) : s.regWrite .pf a 4 (w.setWidth 64) = s.writeReg .pf a w := by
  have hw : (w.setWidth 64).setWidth 32 = w := by simp
  simp [State.regWrite, accessOk, ha, accessWords, hw, hl, h, State.locUnchecked, hu, State.writeLoc]

/-- A write of wrong size or alignment through a VF BAR0 is of scope Q. -/
theorem regWrite_vf_unaligned {s : State} (h : s.running = true) (n : Fin 257) {a size : Nat} (hbad : accessOk a size = false)
    (v : DWord) : s.regWrite (.vf n) a size v = s.queueAnything n.val := by
  simp [State.regWrite, hbad, h, vfScope, State.unchecked]

theorem bit_toNat {n : Nat} (w : BitVec n) (i : Nat) : bit w.toNat i = w.getLsbD i := by
  rw [bit, BitVec.getLsbD, Nat.testBit_eq_decide_div_mod_eq, beq_eq_decide]

/-- The lowest bit of a word reads back after its write. -/
theorem getLsbD_bitWrite (w : Word) (v : Bool) :
    ((w &&& ~~~BitVec.ofNat 32 1) ||| (BitVec.ofNat 32 (b2n v) &&& BitVec.ofNat 32 1)).getLsbD 0 = v := by
  cases v <;> simp [b2n]

/-- Settles O45: every row that is shadowed, SEALER apart, is written by storing its word alone. -/
theorem registerWritesReachTheShadow : Obligations.RegisterWritesReachTheShadow := by
  unfold Obligations.RegisterWritesReachTheShadow
  refine ⟨?shadow, ?hold, ?unaligned⟩
  case shadow =>
    intro s a r i j w hrun hwf ha hl hr hs hne hu
    refine ⟨_, exec_registerWrite hrun .pf a 4 _, ?_⟩
    obtain ⟨hcfg, -⟩ := tablesWf_iff.1 hwf
    obtain ⟨p, v, c, k, e, hp⟩ := storeWord_only s a r.rw w
    rw [regWrite_word hrun ha hl hu, writeReg_shadow s w hr hs hne, e]
    have hset := cfgW_setCfg hcfg a
    refine ⟨(hset a _).trans (if_pos rfl), rfl, fun b hb => (hset b _).trans (if_neg hb), hp, rfl, rfl, rfl⟩
  case hold =>
    intro s who hold hrun hwf hpf
    refine ⟨s.holdWrite hold, (whenRun_of_running hrun _).trans (by rw [hpf]; rfl), ?_⟩
    obtain ⟨hcfg, -⟩ := tablesWf_iff.1 hwf
    obtain ⟨p, v, c, k, e, -⟩ := storeWord_only s 0x40 1 (BitVec.ofNat 32 (b2n hold))
    have hset := cfgW_setCfg hcfg 0x40 0x40
    unfold State.holdWrite
    dsimp only
    rw [e]
    have hbit : bit ((s.setCfg 0x40 ((s.cfgW 0x40 &&& ~~~BitVec.ofNat 32 1) |||
        (BitVec.ofNat 32 (b2n hold) &&& BitVec.ofNat 32 1))).cfgN 0x40) 0 = hold := by
      rw [State.cfgN, hset, if_pos rfl, bit_toNat, getLsbD_bitWrite]
    split
    · exact ⟨hbit, rfl, rfl, fun _ _ => rfl⟩
    · rename_i hstay
      exact ⟨hbit, rfl, rfl, fun hwas hfree => absurd (by simp [hwas, hfree]) hstay⟩
  case unaligned =>
    intro s n a size v hrun hbad
    refine ⟨_, exec_registerWrite hrun _ _ _ _, ?_⟩
    have h := queueAnything_besideQueues s n.val
    rw [regWrite_vf_unaligned hrun n hbad]
    simp only [State.besideQueues, Prod.mk.injEq] at h
    obtain ⟨hkeys, hlive, hlife, htamper, hbackup, hfields, hglob, hadm⟩ := h
    exact ⟨hkeys, hlive, hlife, htamper, hbackup, hfields, hglob, hadm⟩

/-! ## Mailboxes (R376) -/

/-- A vector that is sent or waits: the bits that wait and what has left the package. -/
theorem msix_only (s : State) (fn v : Nat) : ∃ p o, s.msix fn v =
    { s with hostif := { s.hostif with msixPend := p }, outbox := o } ∧ (s.msixMasked fn v = false → o = s.outbox ++ [.msix fn v]) := by
  unfold State.msix
  split
  · rename_i hm
    exact ⟨_, s.outbox, rfl, fun h => absurd (hm.symm.trans h) (by decide)⟩
  · exact ⟨s.hostif.msixPend, _, rfl, fun _ => rfl⟩

/-- A producer index stands once it has signalled: the vector's words are checked, the index is stored, the vector is sent or waits. -/
theorem mbxSignal_only (s : State) (as : List Nat) (n : Nat) (g : Inst → Inst) (fn v : Nat) : ∃ f p o,
    ((s.uses as).modInst n g).msix fn v = { s.modInst n g with
      faults := f, hostif := { s.hostif with msixPend := p }, outbox := o } ∧
    (s.msixMasked fn v = false → o = s.outbox ++ [.msix fn v]) := by
  obtain ⟨l, c, e⟩ := uses_only (s := s) as
  rw [e]
  obtain ⟨p, o, e', ho⟩ := msix_only
    (State.modInst { s with faults := { s.faults with reports := s.faults.reports ++ l, live := c } } n g) fn v
  exact ⟨_, p, o, e', ho⟩

theorem pendSrc_only (s : State) (n : Nat) : ∃ l, s.pendSrc n = { s with intc := { s.intc with pend := l } } := by
  rcases pendSrc_cases (s := s) n with e | ⟨-, e⟩
  · exact ⟨_, e⟩
  · exact ⟨_, e⟩

/-- Instances read back after their change. -/
theorem inst_modInst_same {s : State} (h : mwf Inst.init s.insts = true) (n : Nat) (g : Inst → Inst) :
    (s.modInst n g).inst n = g (s.inst n) := mget_mput_same h

/-- The sources of the up mailboxes are not reserved (Table 17.2). -/
theorem mailboxSource {n : Nat} (h : realInst n = true) : intcReserved (511 + n) = false := by
  simp only [realInst, Bool.and_eq_true, decide_eq_true_eq] at h
  simp only [intcReserved, Bool.or_eq_false_iff, Bool.and_eq_false_iff, decide_eq_false_iff_not]
  omega

/-- An up index within the ring. -/
theorem mbxUp_within {s : State} {n : Nat} {ix : BitVec 5} (hn : realInst n = true) (hix : ringBad ix (s.inst n).upCons = false) :
    s.mbxUp n ix = (((s.uses [mbxVecA n]).modInst n (fun i => { i with upProd := ix })).msix 0
      (fld (s.cfgN (mbxVecA n)) 16 10)).pendSrc (511 + n) := by
  simp [State.mbxUp, hn, State.mbxCheck, hix]
/-- A down index within the ring. -/
theorem mbxDn_within {s : State} {n : Nat} {ix : BitVec 5} (hn : realInst n = true) (hix : ringBad ix (s.inst n).dnCons = false) :
    s.mbxDn n ix = ((s.uses [mbxVecA n]).modInst n (fun i => { i with dnProd := ix })).msix n
      (fld (s.cfgN (mbxVecA n)) 0 6) := by
  simp [State.mbxDn, hn, State.mbxCheck, hix]

/-! ## The host window (R28, R34) -/

theorem fencedReads_only (s : State) (q n : Nat) : ∃ k l, s.fencedReads q n =
    { s with hbmc := { s.hbmc with fencedReads := k }, faults := { s.faults with reports := l } } := by
  induction n generalizing s q with
  | zero => exact ⟨_, _, rfl⟩
  | succ n ih =>
    unfold State.fencedReads
    dsimp only
    split
    · rcases raise_cases (s := { s with hbmc := { s.hbmc with fencedReads := satInc 32 s.hbmc.fencedReads } }) 440 0
        (q * 64 % 2 ^ 37) 0 with e | ⟨-, -, e⟩
      · rw [e]
        obtain ⟨k, l, e'⟩ := ih { s with hbmc := { s.hbmc with fencedReads := satInc 32 s.hbmc.fencedReads } } (q + 1)
        exact ⟨k, l, e'⟩
      · rw [e]
        obtain ⟨k, l, e'⟩ := ih _ (q + 1)
        exact ⟨k, l, e'⟩
    · exact ih s (q + 1)

/-- A request that comes while the allowance lasts, and behind none that waits, goes through. -/
theorem bar2_goes {s : State} (hw : s.windowFull = false) (hq : s.hostif.bar2Held = []) (r : Bool × Nat × Nat × Bytes) :
    s.bar2 r = s.bar2Do r := by
  simp [State.bar2, hw, hq]
/-- Any other request is held. -/
theorem bar2_waits {s : State} (h : s.windowFull = true ∨ s.hostif.bar2Held ≠ []) (r : Bool × Nat × Nat × Bytes) :
    s.bar2 r = { s.setResp .held with hostif := { s.hostif with bar2Held := s.hostif.bar2Held ++ [r] } } := by
  simp [State.bar2, h]

theorem exec_bar2Access {s : State} (h : s.up = true) (hl : s.hostif.linkUp = true) (write : Bool) (a len : Nat) (d : Bytes) :
    exec (.bar2Access write a len d) s = .next (s.bar2 (write, a, len, d)) :=
  (whenUp_of_up h _).trans (by rw [if_pos hl])

/-- Settles O32. -/
theorem mailboxesAndHostWindow : Obligations.MailboxesAndHostWindow := by
  unfold Obligations.MailboxesAndHostWindow
  refine ⟨?up, ?down, ?through, ?held⟩
  case up =>
    intro s n ix hrun hwf hn hix v
    refine ⟨_, whenRun_of_running hrun _, ?_⟩
    obtain ⟨-, -, -, -, -, -, hinst⟩ := tablesWf_iff.1 hwf
    obtain ⟨f, p, o, e, ho⟩ := mbxSignal_only s [mbxVecA n.val] n.val (fun i => { i with upProd := ix }) 0 v
    have hpend := mem_pendSrc (s := ((s.uses [mbxVecA n.val]).modInst n.val (fun i => { i with upProd := ix })).msix 0 v)
      (511 + n.val) (mailboxSource hn)
    rw [mbxUp_within hn hix]
    obtain ⟨l, e'⟩ := pendSrc_only (((s.uses [mbxVecA n.val]).modInst n.val (fun i => { i with upProd := ix })).msix 0 v)
      (511 + n.val)
    have hset := congrArg Inst.upProd (inst_modInst_same hinst n.val (fun i => { i with upProd := ix }))
    refine ⟨?_, hpend, ?_⟩
    · rw [e', e]
      exact hset
    · rw [e', e]
      exact ⟨rfl, rfl, rfl, ho⟩
  case down =>
    intro s n ix hrun hwf hn hix v
    refine ⟨_, whenRun_of_running hrun _, ?_⟩
    obtain ⟨-, -, -, -, -, -, hinst⟩ := tablesWf_iff.1 hwf
    obtain ⟨f, p, o, e, ho⟩ := mbxSignal_only s [mbxVecA n.val] n.val (fun i => { i with dnProd := ix }) n.val v
    have hset := congrArg Inst.dnProd (inst_modInst_same hinst n.val (fun i => { i with dnProd := ix }))
    rw [mbxDn_within hn hix, e]
    exact ⟨hset, rfl, rfl, rfl, rfl, ho⟩
  case through =>
    intro s a len d hrun hl hw hq
    have hup := running_up hrun
    refine ⟨?_, _, (exec_bar2Access hup hl _ _ _ _).trans (by rw [bar2_goes hw hq]), ?_⟩
    · rw [exec_bar2Access hup hl, bar2_goes hw hq]
      simp [State.bar2Do, running_not_fallow hrun]
    · obtain ⟨k, l, e⟩ := fencedReads_only
        (State.countReqs { s with hostif := { s.hostif with winUsed := s.hostif.winUsed + len } } (reqs a len)) (a / 64) (reqs a len)
      simp only [State.bar2Do, State.hbmRead, Bool.false_eq_true, if_false, e]
      exact ⟨rfl, rfl, rfl, rfl⟩
  case held =>
    intro s w a len d hup hl h
    rw [exec_bar2Access hup hl, bar2_waits h]

/-! ## Engines that begin (R275, R294) -/

/-- The cores and the digest pipelines. -/
def State.engines (s : State) := (s.cores, s.pipes)

section Begin

variable (s : State)

@[simp] theorem raise_engines (n : Nat) (u : BitVec 16) (d0 d1 : Nat) : (s.raise n u d0 d1).engines = s.engines := by
  rcases raise_cases (s := s) n u d0 d1 with e | ⟨-, -, e⟩
  · rw [e]
  · rw [e]; rfl
@[simp] theorem hbmRead_engines (a n : Nat) : (s.hbmRead a n).2.engines = s.engines := by
  obtain ⟨k, l, e⟩ := fencedReads_only (s.countReqs (reqs a n)) (a / 64) (reqs a n)
  exact (congrArg State.engines e).trans rfl
@[simp] theorem dropErrs_engines (l : List (Nat × Nat)) : (s.dropErrs l).engines = s.engines := by
  unfold State.dropErrs; split <;> rfl
@[simp] theorem hostRead_engines (a n : Nat) : (s.hostRead a n).2.engines = s.engines := by
  unfold State.hostRead
  split
  · exact raise_engines ..
  · exact (foldl_keeps (fun u _ => raise_engines u ..) _ _).trans (dropErrs_engines ..)
@[simp] theorem memRead_engines (host : Bool) (a n : Nat) : (s.memRead host a n).2.engines = s.engines := by
  unfold State.memRead; split <;> simp
@[simp] theorem readIf_engines (on host : Bool) (a n : Nat) : (s.readIf on host a n).2.engines = s.engines := by
  unfold State.readIf; split <;> simp
@[simp] theorem opReads_engines (j : Job) (op : CryptoOp) (pub i : Nat) : (s.opReads j op pub i).2.engines = s.engines := by
  simp [State.opReads]
@[simp] theorem streamBytes_engines (k n : Nat) : (s.streamBytes k n).2.engines = s.engines := rfl
@[simp] theorem streamMoved_engines (k : Nat) : (s.streamMoved k).engines = s.engines := rfl
@[simp] theorem rsaBlind_engines (k n : Nat) : (s.rsaBlind k n).engines = s.engines := rfl
@[simp] theorem freeRandom_engines (v n : Nat) : (s.freeRandom v n).2.engines = s.engines := rfl
@[simp] theorem streamIf_engines (on : Bool) (v n : Nat) : (s.streamIf on v n).2.engines = s.engines := by
  unfold State.streamIf; split <;> rfl
@[simp] theorem signRandom_engines (set : Nat) (p : PSet) (v : Nat) (det : Bool) (e sec : Bytes) :
    (s.signRandom set p v det e sec).2.engines = s.engines := by
  simp only [State.signRandom, apply_ite Prod.snd, apply_ite State.engines, rsaBlind_engines, streamIf_engines, streamBytes_engines,
    streamMoved_engines, freeRandom_engines, ite_self]
@[simp] theorem opRandom_engines (op : CryptoOp) (set : Nat) (p : PSet) (v : Nat) (det : Bool) (e sec : Bytes) :
    (s.opRandom op set p v det e sec).2.engines = s.engines := by
  cases op <;> simp [State.opRandom, apply_ite Prod.snd, apply_ite State.engines]
@[simp] theorem maskFor_engines (on : Bool) (c n : Nat) : (s.maskFor on c n).2.engines = s.engines := by
  unfold State.maskFor; split <;> rfl
@[simp] theorem seedFor_engines (op : CryptoOp) (n : Nat) : (s.seedFor op n).2.engines = s.engines := by
  unfold State.seedFor State.takeAllot
  split
  · rfl
  · split
    · rename_i h
      split at h
      · cases h
      · obtain ⟨rfl, rfl⟩ := Prod.mk.inj (Option.some.inj h)
        rfl
    · rfl
@[simp] theorem latchTamper_engines (src : Nat) (a b : Bool) : (s.latchTamper src a b).engines = s.engines := by
  unfold State.latchTamper State.engines; split <;> rfl
@[simp] theorem alarm_engines (src : Nat) (a b : Bool) : (s.alarm src a b).engines = s.engines := by
  rw [State.alarm, apply_ite State.engines, raise_engines, latchTamper_engines, ite_self]
@[simp] theorem mismatch_engines (k : Nat) : (s.mismatch k).engines = s.engines := (alarm_engines ..).trans rfl
@[simp] theorem cellFails_engines (n : Nat) : (s.cellFails n).engines = s.engines := by
  unfold State.cellFails
  split
  · rfl
  · exact (raise_engines ..).trans rfl
@[simp] theorem cellCheck_engines (n inst need : Nat) : (s.cellCheck n inst need).engines = s.engines := by
  unfold State.cellCheck
  dsimp only
  split
  · exact (mismatch_engines ..).trans rfl
  · split
    · exact cellFails_engines ..
    · rfl
@[simp] theorem opBegin_engines (j : Job) (op : CryptoOp) (set : Nat) (p : PSet) (pub c i : Nat) :
    (s.opBegin j op set p pub c i).2.engines = s.engines := by
  simp [State.opBegin, apply_ite Prod.snd, apply_ite State.engines]
@[simp] theorem carryIn_engines (j : Job) (a cb i k : Nat) : (s.carryIn j a cb i k).2.engines = s.engines := hbmRead_engines ..
@[simp] theorem unitBegins_engines (j : Job) (pool c k u : Nat) : (s.unitBegins j pool c k u).2.engines = s.engines := by
  unfold State.unitBegins
  dsimp only
  split
  · split
    · rfl
    · split
      · split
        · rfl
        · exact opBegin_engines ..
      · split
        · split
          · exact carryIn_engines s j _ _ u (k - 1)
          · exact carryIn_engines s j _ _ u (k - 1)
        · exact opBegin_engines ..
  · rfl
theorem coreHolds_engines (k : Nat) (e : Piece) : (s.coreHolds k e).2.engines = s.engines := by
  unfold State.coreHolds
  split
  · rfl
  · split
    · exact unitBegins_engines ..
    · rfl
@[simp] theorem partReads_engines (j : Job) (a : DigAlg) (k i : Nat) : (s.partReads j a k i).2.engines = s.engines := by
  unfold State.partReads
  dsimp only
  split
  · simp
  · split
    · rfl
    · split
      · exact carryIn_engines s j _ _ i (k - 1)
      · exact carryIn_engines s j _ _ i (k - 1)
@[simp] theorem partBegin_engines (j : Job) (a : DigAlg) (k i : Nat) : (s.partBegin j a k i).2.engines = s.engines := by
  unfold State.partBegin
  dsimp only
  split <;> simp [apply_ite State.engines]
theorem pipeHolds_engines (p : Nat) (e : Piece) : (s.pipeHolds p e).2.engines = s.engines := by
  unfold State.pipeHolds
  split
  · rfl
  · split
    · split
      · exact partBegin_engines ..
      · rfl
    · rfl

end Begin

/-! ## What holds of every value of a sparse map -/

section Values

variable {α : Type} [DecidableEq α] {d : Nat → α} {m : SMap α} {P : α → Prop}

omit [DecidableEq α] in
theorem forall_mdel (h : ∀ e ∈ m, P e.2) (k : Nat) : ∀ e ∈ mdel m k, P e.2 := by
  induction m with
  | nil => exact h
  | cons x m ih => grind [mdel]
omit [DecidableEq α] in
theorem forall_mins (h : ∀ e ∈ m, P e.2) (k : Nat) {v : α} (hv : P v) : ∀ e ∈ mins m k v, P e.2 := by
  induction m with
  | nil => simpa [mins] using hv
  | cons x m ih => grind [mins]
theorem forall_mput (h : ∀ e ∈ m, P e.2) (k : Nat) {v : α} (hv : P v) : ∀ e ∈ mput d m k v, P e.2 := by
  unfold mput
  split
  · exact forall_mdel h k
  · exact forall_mins h k hv
omit [DecidableEq α] in
theorem forall_mget (h : ∀ e ∈ m, P e.2) (k : Nat) (hd : P (d k)) : P (mget d m k) := by
  induction m with
  | nil => exact hd
  | cons x m ih => grind [mget]
theorem forall_mmap {f : Nat → α → α} (hf : ∀ k x, P (f k x)) : ∀ e ∈ mmap d f m, P e.2 := by
  induction m with
  | nil => simp [mmap]
  | cons x m ih => grind [mmap]

end Values

/-! ## Pieces that have left the queues -/

/-- A core has no piece that `q` picks. -/
def Core.rid (q : Piece → Bool) (x : Core) : Prop := ∀ p ∈ x.pieces, q p = false
/-- No core or pipeline has a piece that `q` picks. -/
def State.rid (s : State) (q : Piece → Bool) : Prop := (∀ e ∈ s.cores, e.2.rid q) ∧ ∀ e ∈ s.pipes, e.2.rid q

theorem rid_init (q : Piece → Bool) : Core.init.rid q := by simp [Core.rid, Core.init]

theorem rid_of_engines {s t : State} {q : Piece → Bool} (e : t.engines = s.engines) (h : s.rid q) : t.rid q := by
  obtain ⟨hc, hp⟩ := Prod.mk.inj e
  exact ⟨hc ▸ h.1, hp ▸ h.2⟩

/-- An operation that begins brings no piece. -/
theorem rid_coreBegins {s : State} {q : Piece → Bool} (h : s.rid q) (k : Nat) : (s.coreBegins k).rid q := by
  unfold State.coreBegins
  split
  · rename_i e _ _
    have h := rid_of_engines (coreHolds_engines s k e) h
    refine ⟨?_, h.2⟩
    rw [State.modCore_eq, State.setCore_cores]
    refine forall_mput (P := Core.rid q) h.1 k ?_
    exact forall_mget (P := Core.rid q) (d := fun _ => Core.init) h.1 k (rid_init q)
  · exact h
theorem rid_pipeBegins {s : State} {q : Piece → Bool} (h : s.rid q) (k : Nat) : (s.pipeBegins k).rid q := by
  unfold State.pipeBegins
  split
  · rename_i e _ _
    have h := rid_of_engines (pipeHolds_engines s k e) h
    refine ⟨h.1, ?_⟩
    rw [State.modPipe_eq, State.setPipe_pipes]
    refine forall_mput (P := Core.rid q) h.2 k ?_
    exact forall_mget (P := Core.rid q) (d := fun _ => Core.init) h.2 k (rid_init q)
  · exact h
theorem rid_begins {s : State} {q : Piece → Bool} (h : s.rid q) : s.begins.rid q :=
  List.foldlRecOn (motive := fun u => State.rid u q) _ _
    (List.foldlRecOn (motive := fun u => State.rid u q) _ _ h (fun _ hu k _ => rid_coreBegins hu k)) (fun _ hu k _ => rid_pipeBegins hu k)

theorem pieces_start (x : Core) (ps : List Piece) : (x.start ps).pieces = ps := by cases ps <;> rfl
/-- A core without the pieces that `q` picks has none of them left. -/
theorem rid_without (x : Core) (q : Piece → Bool) : (x.without q).rid q := by
  have : (x.without q).pieces = x.pieces.filter (fun e => !q e) := by simp [Core.without, apply_ite Core.pieces, pieces_start]
  simp [Core.rid, this]

/-- Pieces that are taken off: counts change, the cores and pipelines lose them, and whatever has come to run begins. -/
theorem dropPieces_begins (s : State) (q : Piece → Bool) : ∃ p d, s.dropPieces q = ({ s with
    pools := p
    cores := mmap (fun _ => Core.init) (fun _ x => x.without q) s.cores
    pipes := mmap (fun _ => Core.init) (fun _ x => x.without q) s.pipes
    digest := { s.digest with wipes := d } } : State).begins := by
  have hwipes : ∀ (l : SMap Core) (u : State), ∃ p, l.foldl (fun s e =>
      if e.2.runs q then s.modPool (corePool e.1) (fun c => { c with wipes := satInc 32 c.wipes }) else s) u = { u with pools := p } := by
    intro l
    induction l with
    | nil => exact fun u => ⟨_, rfl⟩
    | cons e l ih =>
      intro u
      rw [List.foldl_cons]
      split
      · obtain ⟨p, h⟩ := ih (u.modPool (corePool e.1) (fun c => { c with wipes := satInc 32 c.wipes }))
        exact ⟨p, h⟩
      · exact ih u
  obtain ⟨p, h⟩ := hwipes s.cores s
  unfold State.dropPieces
  dsimp only
  rw [h]
  exact ⟨p, _, rfl⟩

theorem rid_dropPieces (s : State) (q : Piece → Bool) : (s.dropPieces q).rid q := by
  obtain ⟨p, d, e⟩ := dropPieces_begins s q
  rw [e]
  exact rid_begins ⟨forall_mmap (P := Core.rid q) (fun _ x => rid_without x q),
    forall_mmap (P := Core.rid q) (fun _ x => rid_without x q)⟩

/-! ## What stopping a job's units leaves -/

/-- What the stop of a job's units, and the operations that begin then, leave as it is. -/
structure StopKeeps (s t : State) : Prop where
  cfg : t.cfg = s.cfg
  live : t.live = s.live
  glob : t.glob = s.glob
  hbm : t.hbm = s.hbm
  fences : t.hbmc.pcFenced = s.hbmc.pcFenced
  lostN : t.adm.lostN = s.adm.lostN
  jobs : t.adm.jobs.map Job.still = s.adm.jobs.map Job.still
  keys : KeysKept s t

theorem stopKeeps_engines {s t : State} (h : EnginesOnly s t) : StopKeeps s t := by
  have g : ∀ {α : Type} (f : State → α), f t.withoutEngines = f s.withoutEngines := fun f => congrArg f h.rest
  exact ⟨g State.cfg, g State.live, g State.glob, g State.hbm, g (·.hbmc.pcFenced), g (·.adm.lostN), g (·.adm.jobs), g State.keys,
    h.slots⟩

theorem stopKeeps_dropPieces (s : State) (q : Piece → Bool) : StopKeeps s (s.dropPieces q) := by
  obtain ⟨p, d, e⟩ := dropPieces_begins s q
  have h := stopKeeps_engines (EnginesOnly.begins { s with
    pools := p
    cores := mmap (fun _ => Core.init) (fun _ x => x.without q) s.cores
    pipes := mmap (fun _ => Core.init) (fun _ x => x.without q) s.pipes
    digest := { s.digest with wipes := d } })
  rw [← e] at h
  generalize s.dropPieces q = t at h
  obtain ⟨hcfg, hlive, hglob, hhbm, hf, hlost, hjobs, hkeys, hslots⟩ := h
  exact ⟨hcfg, hlive, hglob, hhbm, hf, hlost, hjobs, hkeys, hslots⟩

/-- A stopped job's pieces and slices are gone. -/
theorem stopJob_eq (s : State) (id : Nat) : s.stopJob id = { s.dropPieces (fun e => e.job == id) with
    fields := mmap (fun _ => Field.init) (fun _ x => { x with slices := x.slices.filter (fun e => e.job != id) })
      (s.dropPieces (fun e => e.job == id)).fields
    amus := mmap (fun _ => Amu.init) (fun _ x => { x with slices := x.slices.filter (fun e => e.job != id) })
      (s.dropPieces (fun e => e.job == id)).amus } := rfl

theorem stopKeeps_stopJob (s : State) (id : Nat) : StopKeeps s (s.stopJob id) := by
  have h := stopKeeps_dropPieces s (fun e => e.job == id)
  rw [stopJob_eq]
  generalize s.dropPieces _ = t at h
  obtain ⟨hcfg, hlive, hglob, hhbm, hf, hlost, hjobs, hkeys, hslots⟩ := h
  exact ⟨hcfg, hlive, hglob, hhbm, hf, hlost, hjobs, hkeys, hslots⟩

/-- No unit of a stopped job runs any longer. -/
theorem stopJob_idle (s : State) (id : Nat) :
    (∀ f, ∀ sl ∈ ((s.stopJob id).field f).slices, sl.job ≠ id) ∧ (∀ u, ∀ sl ∈ ((s.stopJob id).amu u).slices, sl.job ≠ id) ∧
    (∀ e ∈ (s.stopJob id).cores ++ (s.stopJob id).pipes, ∀ p ∈ e.2.pieces, p.job ≠ id) := by
  obtain ⟨hc, hp⟩ := rid_dropPieces s (fun e => e.job == id)
  rw [stopJob_eq]
  generalize s.dropPieces _ = t at hc hp
  refine ⟨fun f => ?_, fun u => ?_, fun e he p hpe => ?_⟩
  · exact forall_mget (P := fun (x : Field) => ∀ sl ∈ x.slices, sl.job ≠ id)
      (forall_mmap (P := fun (x : Field) => ∀ sl ∈ x.slices, sl.job ≠ id) (by simp)) f (by simp [Field.init])
  · exact forall_mget (P := fun (x : Amu) => ∀ sl ∈ x.slices, sl.job ≠ id)
      (forall_mmap (P := fun (x : Amu) => ∀ sl ∈ x.slices, sl.job ≠ id) (by simp)) u (by simp [Amu.init])
  · have : (p.job == id) = false := by
      rcases List.mem_append.1 he with he | he
      · exact hc e he p hpe
      · exact hp e he p hpe
    simpa using this

/-! ## What a job lets go of before its record is written -/

/-- The registers, the timebase, the key store and the fences of HBM. -/
def State.aside (s : State) := (s.cfg, s.live, s.glob, s.keys, s.hbmc.pcFenced)

/-- From `s` to `t` a job lets go of what it holds: HBM stays in canonical form, and the instances keep their GEN and completion
queues. -/
structure LetsGo (s t : State) : Prop where
  aside : t.aside = s.aside
  lostN : t.adm.lostN = s.adm.lostN
  hbm : mwf hbmDefault s.hbm = true → mwf hbmDefault t.hbm = true
  inst : ∀ n, (t.inst n).gen = (s.inst n).gen ∧ (t.inst n).cqs = (s.inst n).cqs

/-- Instances with a claim read back, whatever the rest of the table holds. -/
theorem inst_setInst_claims {s : State} {n : Nat} {x : Inst} (h : x.claims ≠ []) (m : Nat) :
    (s.setInst n x).inst m = if m = n then x else s.inst m := by
  have hx : x ≠ Inst.init n := fun e => h (e ▸ rfl)
  rw [State.inst, State.setInst_insts, mput, if_neg hx, mget_mins]
  rfl

namespace LetsGo

variable {s t u : State}

theorem refl (s : State) : LetsGo s s := ⟨rfl, rfl, id, fun _ => ⟨rfl, rfl⟩⟩
theorem trans (a : LetsGo s t) (b : LetsGo t u) : LetsGo s u :=
  ⟨b.aside.trans a.aside, b.lostN.trans a.lostN, b.hbm ∘ a.hbm,
    fun n => ⟨(b.inst n).1.trans (a.inst n).1, (b.inst n).2.trans (a.inst n).2⟩⟩
theorem ite {c : Prop} [Decidable c] (a : LetsGo s t) (b : LetsGo s u) : LetsGo s (if c then t else u) := by
  split
  · exact a
  · exact b
theorem foldl {β : Type} {f : State → β → State} (hf : ∀ s b, LetsGo s (f s b)) (l : List β) (s : State) : LetsGo s (l.foldl f s) := by
  induction l generalizing s with
  | nil => exact refl s
  | cons b l ih => exact (hf s b).trans (ih _)

theorem hbmPut (s : State) (a : Nat) (b : Byte) : LetsGo s (s.hbmPut a b) := by
  unfold State.hbmPut
  split
  · exact refl s
  · exact ⟨rfl, rfl, mwf_mput, fun _ => ⟨rfl, rfl⟩⟩
theorem hbmPoke (s : State) (a : Nat) (b : Bytes) : LetsGo s (s.hbmPoke a b) := by
  induction b generalizing s a with
  | nil => exact refl s
  | cons x b ih => exact (hbmPut s a x).trans (ih _ _)
theorem modJob (s : State) (id : Nat) (g : Job → Job) : LetsGo s (s.modJob id g) := ⟨rfl, rfl, fun h => h, fun _ => ⟨rfl, rfl⟩⟩
theorem unplace (s : State) (i r : Nat) (dem : List (Nat × Nat)) (n : Nat) : LetsGo s (s.unplace i r dem n) :=
  foldl (fun s (e : Nat × Nat) => trans (t := s.setRowCnt r e.1 (s.rowCnt r e.1 - n * e.2)) ⟨rfl, rfl, id, fun _ => ⟨rfl, rfl⟩⟩ (hbmPoke _ _ _)) _ _
/-- A job's reservations fall. -/
theorem releaseJob (s : State) (j : Job) : LetsGo s (s.releaseJob j) := by
  refine trans (foldl (fun u p => ?_) _ _) (modJob _ _ _)
  have h := unplace u j.inst p.row ((j.stage p.stage).demand p.fields) (p.count - p.ended - p.gone.length)
  exact ite (refl u) (ite (h.trans (unplace _ _ _ _ _)) h)
theorem blur (s : State) (rs : List (Nat × Nat)) : LetsGo s (s.blur rs) :=
  foldl (fun s r => trans (t := (s.drawBytes r.2).2) ⟨rfl, rfl, id, fun _ => ⟨rfl, rfl⟩⟩ (hbmPoke _ _ _)) _ _
/-- A receipt claim joins the claims that stand. -/
theorem recordClaim (s : State) (j : Job) : LetsGo s (s.recordClaim j) := by
  obtain ⟨k, c, e⟩ : ∃ k c, s.recordClaim j = State.modInst { s with free := k } j.inst
      (fun i => { i with claims := (if i.claims.length ≥ 16 then i.claims.drop 1 else i.claims) ++ [c] }) := ⟨_, _, rfl⟩
  rw [e]
  refine ⟨rfl, rfl, id, fun n => ?_⟩
  rw [State.modInst, inst_setInst_claims (by simp)]
  split
  · subst_vars
    exact ⟨rfl, rfl⟩
  · exact ⟨rfl, rfl⟩
theorem ingestEnd (s : State) (j : Job) (st : Nat) : LetsGo s (s.ingestEnd j st) :=
  ite (refl s) (ite (blur s _) (ite (blur s _) (refl s)))
theorem setHandle (s : State) (k : Nat) (x : Handle) : LetsGo s (s.setHandle k x) := ⟨rfl, rfl, id, fun _ => ⟨rfl, rfl⟩⟩
theorem jobCleanup (s : State) (j : Job) (st : Nat) : LetsGo s (s.jobCleanup j st) := by
  refine ite (ite (setHandle s _ _) (ite (setHandle s _ _) (refl s))) (ite ?_ (ite (recordClaim s j) (ite (ingestEnd s j st) (refl s))))
  exact ⟨rfl, rfl, id, fun _ => ⟨rfl, rfl⟩⟩

end LetsGo

/-! ## The bytes of a completion record (Table 16.4) -/

theorem slice_append_right (x y : Bytes) (k n : Nat) : slice (x ++ y) (x.length + k) n = slice y k n := by
  have : (x ++ y).drop (x.length + k) = y.drop k := by rw [← List.drop_drop, List.drop_left]
  rw [slice, slice, this]
theorem rd_toLe_skip {m off : Nat} (h : m ≤ off) (v n : Nat) (y : Bytes) : rd (toLe m v ++ y) off n = rd y (off - m) n := by
  have := slice_append_right (toLe m v) y (off - m) n
  rw [length_toLe, Nat.add_sub_cancel' h] at this
  rw [rd, rd, this]
theorem rd_toLe_append (n v : Nat) (y : Bytes) : rd (toLe n v ++ y) 0 n = v % 256 ^ n := by
  have : slice (toLe n v ++ y) 0 n = toLe n v := by
    simp [slice, zeros]
  rw [rd, this, leNat_toLe]
theorem wr_append (x y z w : Bytes) (h : w.length = y.length) : wr (x ++ (y ++ z)) x.length w = x ++ (w ++ z) := by
  simp [wr, slice, zeros, h, List.drop_append]

section Record

variable (tag dl fin kind st fl sq gen cost : Nat)

@[simp] theorem length_mkRecord : (mkRecord tag dl fin kind st fl sq gen cost).length = 32 := by simp [mkRecord]
theorem mkRecord_tag : rd (mkRecord tag dl fin kind st fl sq gen cost) 0 8 = tag % 2 ^ 64 := by
  simp [mkRecord, List.append_assoc, rd_toLe_append]
theorem mkRecord_deadline : rd (mkRecord tag dl fin kind st fl sq gen cost) 8 8 = dl % 2 ^ 64 := by
  simp [mkRecord, List.append_assoc, rd_toLe_append, rd_toLe_skip]
theorem mkRecord_kind : rd (mkRecord tag dl fin kind st fl sq gen cost) 0x18 1 = kind % 256 := by
  simp [mkRecord, List.append_assoc, rd_toLe_append, rd_toLe_skip]
theorem mkRecord_status : rd (mkRecord tag dl fin kind st fl sq gen cost) 0x19 1 = st % 256 := by
  simp [mkRecord, List.append_assoc, rd_toLe_append, rd_toLe_skip]
theorem mkRecord_gen : rd (mkRecord tag dl fin kind st fl sq gen cost) 0x1C 2 = gen % 2 ^ 16 := by
  simp [mkRecord, List.append_assoc, rd_toLe_append, rd_toLe_skip]
/-- The kind byte is written over, the rest stays. -/
theorem wr_mkRecord_kind (k : Nat) :
    wr (mkRecord tag dl fin kind st fl sq gen cost) 0x18 (toLe 1 k) = mkRecord tag dl fin k st fl sq gen cost := by
  have := wr_append (toLe 8 tag ++ (toLe 8 dl ++ toLe 8 fin)) (toLe 1 kind) (toLe 1 st ++ (toLe 1 fl ++ (toLe 1 sq ++ (toLe 2 gen ++ toLe 2 cost))))
    (toLe 1 k) (by simp)
  simpa [mkRecord, List.append_assoc] using this

end Record

/-! ## Bytes of HBM read back -/

/-- An address below the ledgers names a byte of HBM that is not the device's own. -/
theorem below_ledgers {a : Nat} (ha : a < ledgerBase) : a % 2 ^ 37 = a ∧ internalA a = false := by
  unfold ledgerBase at ha
  have hmod : a % 2 ^ 37 = a := Nat.mod_eq_of_lt (by omega)
  rw [internalA, hmod]
  exact ⟨rfl, decide_eq_false (by omega)⟩
theorem inService_below {s : State} (hf : s.hbmc.pcFenced = 0) {a : Nat} (ha : a < ledgerBase) : s.hbmGone a = false := by
  rw [State.hbmGone, (below_ledgers ha).1, hf, BitVec.ofNat_eq_ofNat, BitVec.getLsbD_zero, Bool.or_false]
  unfold ledgerBase at ha
  exact decide_eq_false (by omega)
theorem hbmByte_below {s : State} (hf : s.hbmc.pcFenced = 0) {a : Nat} (ha : a < ledgerBase) :
    s.hbmByte a = mget hbmDefault s.hbm a := by
  obtain ⟨hmod, hint⟩ := below_ledgers ha
  rw [State.hbmByte, inService_below hf ha, hint, hmod]
  rfl
theorem hbmPut_below {s : State} (hf : s.hbmc.pcFenced = 0) {a : Nat} (ha : a < ledgerBase) (b : Byte) :
    s.hbmPut a b = { s with hbm := mput hbmDefault s.hbm a b } := by
  rw [State.hbmPut, inService_below hf ha, (below_ledgers ha).1]
  rfl

/-- Bytes written from `a` on stand there, and every other byte is as before. -/
theorem mget_hbmPoke {s : State} (h : mwf hbmDefault s.hbm = true) (hf : s.hbmc.pcFenced = 0) {a : Nat} {b : Bytes}
    (hab : a + b.length ≤ ledgerBase) (x : Nat) : mget hbmDefault (s.hbmPoke a b).hbm x =
      if a ≤ x ∧ x < a + b.length then b.getD (x - a) 0 else mget hbmDefault s.hbm x := by
  induction b generalizing s a with
  | nil => rw [if_neg (by simp)]; rfl
  | cons c b ih =>
    rw [List.length_cons] at hab ⊢
    rw [State.hbmPoke, hbmPut_below hf (by omega),
      ih (s := { s with hbm := mput hbmDefault s.hbm a c }) (mwf_mput h) hf (by omega), mget_mput h]
    by_cases hx : x = a
    · subst hx
      rw [if_neg (by omega), if_pos rfl, if_pos (by omega), Nat.sub_self]
      rfl
    · rw [if_neg hx]
      by_cases hin : a + 1 ≤ x ∧ x < a + 1 + b.length
      · rw [if_pos hin, if_pos (by omega), show x - a = x - (a + 1) + 1 by omega, List.getD_cons_succ]
      · rw [if_neg hin, if_neg (by omega)]

/-- What a later state of the same HBM reads of bytes that were written below the ledgers. -/
theorem hbmPeek_written {s t : State} (h : mwf hbmDefault s.hbm = true) (hf : s.hbmc.pcFenced = 0) (ht : t.hbmc.pcFenced = 0) {a : Nat}
    {b : Bytes} (hab : a + b.length ≤ ledgerBase) (hm : t.hbm = (s.hbmPoke a b).hbm) : t.hbmPeek a b.length = b := by
  refine List.ext_getElem (length_hbmPeek _ _) (fun i hi hi' => ?_)
  rw [length_hbmPeek] at hi
  simp only [State.hbmPeek, upTo, List.getElem_map, List.getElem_range]
  rw [hbmByte_below ht (by omega), hm, mget_hbmPoke h hf hab, if_pos (by omega), Nat.add_sub_cancel_left]
  simp [List.getD_eq_getElem?_getD, hi']

/-! ## A record at its completion queue (R370–R375) -/

theorem cqSignal_only (s : State) (n q : Nat) : ∃ i x o st, s.cqSignal n q =
    { s with insts := i, hostif := x, outbox := o, start := st } := by
  unfold State.cqSignal
  dsimp only
  split
  · split
    · exact ⟨_, _, _, _, rfl⟩
    · exact ⟨_, s.hostif, s.outbox, s.start, rfl⟩
  · obtain ⟨p, o, e, -⟩ := msix_only (s.setInst n ((s.inst n).setCq q { (s.inst n).cq q with count := 0 })) n
      (fld (s.cfgN (cqCfgA n q)) 16 10)
    exact ⟨_, _, o, s.start, e⟩

/-- What HBM holds after a write hangs on what it held and on its fences. -/
theorem hbmPoke_congr {s t : State} (h : t.hbm = s.hbm) (hf : t.hbmc.pcFenced = s.hbmc.pcFenced) (a : Nat) (b : Bytes) :
    (t.hbmPoke a b).hbm = (s.hbmPoke a b).hbm := by
  induction b generalizing s t a with
  | nil => exact h
  | cons x b ih =>
    have hgone : t.hbmGone a = s.hbmGone a := by rw [State.hbmGone, State.hbmGone, hf]
    refine ih ?_ ?_ (a + 1)
    · rw [State.hbmPut, State.hbmPut, hgone]
      split
      · exact h
      · rw [h]
    · rw [State.hbmPut, State.hbmPut, hgone]
      split
      · exact hf
      · exact hf

/-- Bytes that go to HBM stand where a write puts them. -/
theorem memWrite_hbm (s : State) (a : Nat) (b : Bytes) : (s.memWrite false a b).hbm = (s.hbmPoke a b).hbm :=
  hbmPoke_congr (s := s) (t := s.countReqs (reqs a b.length)) rfl rfl a b

/-- A record with its queue's phase. -/
def State.phased (s : State) (n q : Nat) (r : Bytes) : Bytes :=
  wr r 0x18 (toLe 1 (rd r 0x18 1 % 128 + 128 * b2n ((s.inst n).cq q).phase))

/-- A queue that is enabled takes the record at its tail; its indices move on, and a signal may be due. -/
theorem cqWrite_on {s u : State} {n q : Nat} (hu : s.uses (cqWords n q) = u) (hon : bit (u.cfgN (cqCfgA n q)) 31 = true) (r : Bytes) :
    ∃ t x, t = (u.memWrite (bit (u.cfgN (cqCfgA n q)) 8) (u.cqTailA n q) (u.phased n q r)).setInst n x ∧
      (s.cqWrite n q r = t ∨ s.cqWrite n q r = t.cqSignal n q) := by
  unfold State.cqWrite
  rw [hu]
  dsimp only
  rw [if_neg (by simp [hon])]
  exact ⟨_, _, rfl, (ite_eq_or_eq _ _ _).symm⟩
theorem cqWrite_off {s u : State} {n q : Nat} (hu : s.uses (cqWords n q) = u) (hon : bit (u.cfgN (cqCfgA n q)) 31 = false) (r : Bytes) :
    s.cqWrite n q r = u := by
  unfold State.cqWrite
  rw [hu]
  exact if_pos (by simp [hon])

/-- A record reaches the memory that its queue lies in, and the host interface tells of it; in a queue of HBM it stands at the tail. -/
theorem cqWrite_only (s : State) (n q : Nat) (r : Bytes) : ∃ f i m k c x o st, s.cqWrite n q r =
    { s with faults := f, insts := i, hbm := m, host := k, hbmc := { s.hbmc with servedNow := c }, hostif := x, outbox := o, start := st } ∧
    (s.cqInHbm n q = true → m = (s.hbmPoke (s.cqTailA n q) (s.phased n q r)).hbm) := by
  obtain ⟨u, f, hu, huf⟩ : ∃ u f, s.uses (cqWords n q) = u ∧ u = { s with faults := f } := by
    obtain ⟨l, c, e⟩ := uses_only (s := s) (cqWords n q)
    exact ⟨_, _, e, rfl⟩
  cases hon : bit (u.cfgN (cqCfgA n q)) 31 with
  | false =>
    rw [cqWrite_off hu hon r]
    subst huf
    refine ⟨f, s.insts, s.hbm, s.host, s.hbmc.servedNow, s.hostif, s.outbox, s.start, rfl, fun h => ?_⟩
    simp only [State.cqInHbm, Bool.and_eq_true] at h
    exact absurd (h.1.1.symm.trans hon) (by decide)
  | true =>
    obtain ⟨t, y, ht, e⟩ := cqWrite_on hu hon r
    have hin : s.cqInHbm n q = true →
        (u.memWrite (bit (u.cfgN (cqCfgA n q)) 8) (u.cqTailA n q) (u.phased n q r)).hbm =
          (s.hbmPoke (s.cqTailA n q) (s.phased n q r)).hbm := by
      intro h
      simp only [State.cqInHbm, Bool.and_eq_true, Bool.not_eq_true'] at h
      subst huf
      rw [show bit (State.cfgN { s with faults := f } (cqCfgA n q)) 8 = false from h.1.2, memWrite_hbm]
      exact hbmPoke_congr (s := s) (t := { s with faults := f }) rfl rfl _ _
    obtain ⟨m, k, c, x, e'⟩ := memWrite_only u (bit (u.cfgN (cqCfgA n q)) 8) (u.cqTailA n q) (u.phased n q r)
    rw [e'] at hin ht
    obtain ⟨i, z, o, st, e''⟩ := cqSignal_only t n q
    subst huf
    rcases e with e | e
    · exact ⟨f, _, m, k, c, _, s.outbox, s.start, e.trans ht, hin⟩
    · rw [ht] at e''
      exact ⟨f, i, m, k, c, z, o, st, e.trans (ht ▸ e''), hin⟩

/-- A posted record is written, waits for the link, or is dropped where its GEN is out of date (R373, R85); one for an enabled
queue of HBM stands at its tail. -/
theorem post_only (s : State) (n q dl : Nat) (r : Bytes) : ∃ f i m k c x o st, s.post n q dl r =
    { s with faults := f, insts := i, hbm := m, host := k, hbmc := { s.hbmc with servedNow := c }, hostif := x, outbox := o, start := st } ∧
    (s.cqInHbm n q = true → rd r 0x1C 2 = (s.genOf n).toNat → m = (s.hbmPoke (s.cqTailA n q) (s.phased n q r)).hbm) := by
  unfold State.post
  split
  · rename_i hgen
    exact ⟨s.faults, s.insts, s.hbm, s.host, s.hbmc.servedNow, s.hostif, s.outbox, s.start, rfl, fun _ h => absurd h hgen⟩
  · split
    · rename_i hlate
      refine ⟨s.faults, s.insts, s.hbm, s.host, s.hbmc.servedNow, _, s.outbox, s.start, rfl, fun h => ?_⟩
      simp only [Bool.and_eq_true] at hlate
      simp [State.cqInHbm, hlate.1] at h
    · obtain ⟨f, i, m, k, c, x, o, st, e, hm⟩ := cqWrite_only s n q r
      exact ⟨f, i, m, k, c, x, o, st, e, fun h _ => hm h⟩

/-! ## The end of a job (R26, R72) -/

/-- The DONE record of job `j` stands at `a`, with its status and phase. -/
def State.doneAt (t : State) (a : Nat) (j : Job) (st : Nat) (phase : Bool) : Prop :=
  let r := t.hbmPeek a 32
  rd r 0 8 = j.tag.toNat ∧ rd r 8 8 = j.deadline % 2 ^ 64 ∧ rd r 0x19 1 = st % 256 ∧ rd r 0x18 1 = 1 + 128 * b2n phase

/-- The record of a job's end leaves the registers aside; in an enabled queue of HBM it stands until HBM is written again. -/
theorem doneRecord_only (s : State) (j : Job) (st : Nat) : (s.doneRecord j st).aside = s.aside ∧
    (s.doneRecord j st).adm = s.adm ∧
    (s.cqInHbm j.inst j.cq = true → s.hbmc.pcFenced = 0 → mwf hbmDefault s.hbm = true → j.gen = s.genOf j.inst → ∀ t : State,
      t.hbm = (s.doneRecord j st).hbm → t.hbmc.pcFenced = 0 →
      t.doneAt (s.cqTailA j.inst j.cq) j st ((s.inst j.inst).cq j.cq).phase) := by
  unfold State.doneRecord
  dsimp only
  obtain ⟨f, i, m, k, c, x, o, b, e, hm⟩ := post_only s j.inst j.cq j.deadline (mkRecord j.tag.toNat j.deadline
    (if j.finish = 0 then s.swnN else j.finish) 1 st (b2n j.trunc + 2 * b2n j.sat) j.sq j.gen.toNat (min 0xFFFF j.rows.length))
  rw [e]
  refine ⟨rfl, rfl, fun hq hf hw hg t ht htf => ?_⟩
  have hm := hm hq (by rw [mkRecord_gen, hg]; exact Nat.mod_eq_of_lt (s.genOf j.inst).isLt)
  rw [State.phased, wr_mkRecord_kind, mkRecord_kind] at hm
  simp only [State.cqInHbm, Bool.and_eq_true, decide_eq_true_eq] at hq
  have hpeek := hbmPeek_written hw hf htf (by rw [length_mkRecord]; exact hq.2) (ht.trans hm)
  rw [length_mkRecord] at hpeek
  unfold State.doneAt
  dsimp only
  rw [hpeek, mkRecord_tag, mkRecord_deadline, mkRecord_status, mkRecord_kind]
  refine ⟨Nat.mod_eq_of_lt j.tag.isLt, rfl, rfl, ?_⟩
  cases ((s.inst j.inst).cq j.cq).phase <;> rfl

/-- What a job's end does before its record is written. -/
def State.closing (s : State) (j : Job) (st : Nat) (later : Bool) : State :=
  let t := s.jobCleanup j st
  let t := if st = 0x10 then { t with adm := { t.adm with lostN := t.adm.lostN + 1 } } else t
  if later then t else t.releaseJob j

/-- It leaves the registers and the completion queues as they are, and counts a job with FENCED_LOST. -/
theorem closing_keeps (s : State) (j : Job) (st : Nat) (later : Bool) : let t := s.closing j st later
    t.aside = s.aside ∧ t.adm.lostN = s.adm.lostN + (if st = 0x10 then 1 else 0) ∧
    (mwf hbmDefault s.hbm = true → mwf hbmDefault t.hbm = true) ∧
    ∀ n, (t.inst n).gen = (s.inst n).gen ∧ (t.inst n).cqs = (s.inst n).cqs := by
  have hclean := LetsGo.jobCleanup s j st
  unfold State.closing
  generalize s.jobCleanup j st = u at hclean
  have hrel : ∀ v : State, LetsGo v (if later then v else v.releaseJob j) := fun v => .ite (.refl v) (.releaseJob v j)
  dsimp only
  by_cases h : st = 0x10
  · rw [if_pos h, if_pos h]
    obtain ⟨ha, hl, hm, hi⟩ := hrel { u with adm := { u.adm with lostN := u.adm.lostN + 1 } }
    exact ⟨ha.trans hclean.aside, hl.trans (congrArg (· + 1) hclean.lostN), hm ∘ hclean.hbm,
      fun n => ⟨(hi n).1.trans (hclean.inst n).1, (hi n).2.trans (hclean.inst n).2⟩⟩
  · rw [if_neg h, if_neg h]
    obtain ⟨ha, hl, hm, hi⟩ := hclean.trans (hrel u)
    exact ⟨ha, hl.trans (add_zero _).symm, hm, hi⟩

theorem readyEvent_only (s : State) (j : Job) : ∃ f k, s.readyEvent j = { s with faults := f, tasks := k } := by
  obtain ⟨f, hu⟩ : ∃ f, (if j.inst = 0 then s.uses [0xA80200 + 4 * j.sq] else s) = { s with faults := f } := by
    split
    · obtain ⟨l, c, e⟩ := uses_only (s := s) [0xA80200 + 4 * j.sq]
      exact ⟨_, e⟩
    · exact ⟨s.faults, rfl⟩
  unfold State.readyEvent
  rw [hu]
  dsimp only
  split
  · exact ⟨f, _, rfl⟩
  · exact ⟨f, _, rfl⟩

/-- A job's state once its record is written and its units are stopped. -/
def State.closed (s : State) (j : Job) (id st : Nat) (later : Bool) : State :=
  (((s.closing j st later).doneRecord j st).modJob id (fun j => { j with recorded := true, relPend := later, status := some st })).stopJob id

/-- A job that is no part of a Commons job is closed, passes its ready event on, and leaves the table unless it still holds something. -/
theorem closeJob_closed {s : State} {id : Nat} {j : Job} (h : s.job? id = some j) (hr : j.recorded = false) (hp : j.part = none)
    (st : Nat) (later : Bool) : ∃ f k, s.closeJob id st later =
      State.sweepJobs { s.closed j id st later with faults := f, tasks := k } := by
  have e : s.closeJob id st later =
      (if later then s.closed j id st later else (s.closed j id st later).readyEvent j).sweepJobs := by
    unfold State.closeJob
    rw [h]
    dsimp only
    rw [hr, hp]
    rfl
  rw [e]
  generalize s.closed j id st later = t
  split
  · exact ⟨t.faults, t.tasks, rfl⟩
  · obtain ⟨f, k, e⟩ := readyEvent_only t j
    rw [e]
    exact ⟨f, k, rfl⟩

theorem keysKept_congr {s t u : State} (e : t.keys = s.keys) (h : KeysKept t u) : KeysKept s u := by
  obtain ⟨hrest, hslots⟩ := h
  unfold State.slotsWf State.slot at hslots
  rw [e] at hrest hslots
  exact ⟨hrest, hslots⟩

/-- A stopped job's units leave every job as it is but for its working state. -/
theorem stopJob_jobs {s : State} {id : Nat} {k : Job} (hk : k ∈ (s.stopJob id).adm.jobs) :
    ∃ y ∈ s.adm.jobs, y.id = k.id ∧ y.recorded = k.recorded ∧ y.status = k.status := by
  have hmem : k.still ∈ s.adm.jobs.map Job.still := (stopKeeps_stopJob s id).jobs ▸ List.mem_map_of_mem hk
  obtain ⟨y, hy, hyk⟩ := List.mem_map.1 hmem
  have hfields := congrArg (fun x : Job => (x.id, x.recorded, x.status)) hyk
  simp only [Job.still, Prod.mk.injEq] at hfields
  exact ⟨y, hy, hfields⟩

/-- A closed job is recorded with its status, under whatever entry of the table bears its number. -/
theorem closed_recorded {s : State} {j : Job} {id st : Nat} {later : Bool} {k : Job} (hk : k ∈ (s.closed j id st later).adm.jobs)
    (hid : k.id = id) : k.recorded = true ∧ k.status = some st := by
  unfold State.closed at hk
  obtain ⟨y, hy, hyid, hrec, hst⟩ := stopJob_jobs hk
  generalize (s.closing j st later).doneRecord j st = u at hy
  obtain ⟨x, -, rfl⟩ := List.mem_map.1 hy
  by_cases hx : x.id = id
  · rw [if_pos hx] at hrec hst
    exact ⟨hrec.symm, hst.symm⟩
  · rw [if_neg hx] at hyid
    exact absurd (hyid.trans hid) hx

/-- Where a queue's next record goes hangs on the queue's words and indices. -/
theorem cq_congr {s t : State} {n q : Nat} (hcfg : t.cfg = s.cfg) (hi : (t.inst n).cqs = (s.inst n).cqs) :
    (t.inst n).cq q = (s.inst n).cq q ∧ t.cqTailA n q = s.cqTailA n q ∧ t.cqInHbm n q = s.cqInHbm n q := by
  have hc : (t.inst n).cq q = (s.inst n).cq q := by rw [Inst.cq, Inst.cq, hi]
  have hw : ∀ a, t.cfgN a = s.cfgN a := fun a => by rw [State.cfgN, State.cfgN, State.cfgW, State.cfgW, hcfg]
  have ht : t.cqTailA n q = s.cqTailA n q := by rw [State.cqTailA, State.cqTailA, hw, hw, hc]
  exact ⟨hc, ht, by rw [State.cqInHbm, State.cqInHbm, hw, ht]⟩
theorem genOf_congr {s t : State} {n : Nat} (hi : (t.inst n).gen = (s.inst n).gen) : t.genOf n = s.genOf n := by
  rw [State.genOf, State.genOf, hi]

/-- What the end of a job leaves (R26, R72). -/
theorem closed_ends (s : State) (j : Job) (id st : Nat) (later : Bool) : let t := s.closed j id st later
    t.adm.lostN = s.adm.lostN + (if st = 0x10 then 1 else 0) ∧
    (s.cqInHbm j.inst j.cq = true → s.hbmc.pcFenced = 0 → mwf hbmDefault s.hbm = true → j.gen = s.genOf j.inst →
      t.doneAt (s.cqTailA j.inst j.cq) j st ((s.inst j.inst).cq j.cq).phase) ∧
    t.cfg = s.cfg ∧ t.live = s.live ∧ t.glob = s.glob ∧ KeysKept s t := by
  obtain ⟨haside, hlost, hmwf, hinst⟩ := closing_keeps s j st later
  unfold State.closed
  generalize s.closing j st later = u at haside hlost hmwf hinst
  simp only [State.aside, Prod.mk.injEq] at haside
  obtain ⟨hcfg, hlive, hglob, hkeys, hfence⟩ := haside
  obtain ⟨haside', hadm', hdone⟩ := doneRecord_only u j st
  generalize hv : u.doneRecord j st = v at haside' hadm' hdone
  simp only [State.aside, Prod.mk.injEq] at haside'
  obtain ⟨hcfg', hlive', hglob', hkeys', hfence'⟩ := haside'
  have hstop := stopKeeps_stopJob (v.modJob id (fun j => { j with recorded := true, relPend := later, status := some st })) id
  generalize State.stopJob _ id = t at hstop
  refine ⟨hstop.lostN.trans ((congrArg Admit.lostN hadm').trans hlost), fun hq hf hw hg => ?_, hstop.cfg.trans (hcfg'.trans hcfg),
    hstop.live.trans (hlive'.trans hlive), hstop.glob.trans (hglob'.trans hglob), ?_⟩
  · obtain ⟨hcq, htail, hin⟩ := cq_congr (q := j.cq) hcfg (hinst j.inst).2
    rw [← htail, ← hcq]
    exact hdone (hin.trans hq) (hfence.trans hf) (hmwf hw) (hg.trans (genOf_congr (hinst j.inst).1).symm) t
      (hstop.hbm.trans (State.modJob_hbm v id _)) (hstop.fences.trans (hfence'.trans (hfence.trans hf)))
  · exact keysKept_congr ((State.modJob_keys v id _).trans (hkeys'.trans hkeys)) hstop.keys

/-- JOB_END closes a job that an event has ended, and one whose units are all over. -/
theorem endJob_closes {s : State} {j : Job} {st : Nat} (hr : j.recorded = false) (hh : j.held = none) (hp : j.part = none)
    (h : j.status = some st ∨ (j.status = none ∧ j.allOver = true ∧ j.opcode ≠ 0x0900 ∧ j.opcode ≠ 0x0901 ∧ st = j.endStatus)) :
    ∃ later, s.endJob j = s.closeJob j.id st later := by
  unfold State.endJob
  rw [hr, hh]
  rcases h with h | ⟨h, hover, hsave, hrestore, rfl⟩
  · rw [h]
    exact ⟨_, rfl⟩
  · rw [h, hover, hp]
    exact ⟨false, by simp [hsave, hrestore]⟩

/-- It leaves a job alone that has its record, that is held, or that has units left. -/
theorem endJob_waits {s : State} {j : Job} (h : j.recorded = true ∨ j.held ≠ none ∨ (j.status = none ∧ j.allOver = false)) :
    s.endJob j = s := by
  unfold State.endJob
  split
  · rfl
  · rename_i hopen
    simp only [Bool.or_eq_true, not_or, Bool.not_eq_true, Option.isSome_eq_false_iff, Option.isNone_iff_eq_none] at hopen
    rcases h with h | h | ⟨h, hover⟩
    · exact absurd (h.symm.trans hopen.1) (by decide)
    · exact absurd hopen.2 h
    · rw [h, hover]
      rfl

theorem exec_jobEnd {s : State} (h : s.running = true) (id : Nat) :
    exec (.jobEnd id) s = .next (match s.job? id with | none => s | some j => s.endJob j) := whenRun_of_running h _

/-- Settles O27: the record is written after the job has let go, and the stop of its units leaves HBM and the jobs as they are. -/
theorem jobEndsOnce : Obligations.JobEndsOnce := by
  unfold Obligations.JobEndsOnce
  refine ⟨?ends, ?waits⟩
  case ends =>
    intro s id j st hrun hj hr hh hp hst
    have hid : j.id = id := by simpa using List.find?_some hj
    obtain ⟨later, he⟩ := endJob_closes (s := s) hr hh hp hst
    obtain ⟨f, k, hc⟩ := closeJob_closed hj hr hp st later
    obtain ⟨hslices, hamus, hpieces⟩ := stopJob_idle (((s.closing j st later).doneRecord j st).modJob id
      (fun j => { j with recorded := true, relPend := later, status := some st })) id
    have hend := closed_ends s j id st later
    have hrec : ∀ k ∈ (s.closed j id st later).adm.jobs, k.id = id → k.recorded = true ∧ k.status = some st :=
      fun _ => closed_recorded
    refine ⟨_, exec_jobEnd hrun id, ?_⟩
    rw [hj]
    dsimp only
    rw [he, hid, hc]
    rw [← State.closed] at hslices hamus hpieces
    generalize s.closed j id st later = t at hslices hamus hpieces hend hrec
    obtain ⟨hlost, hdone, hcfg, hlive, hglob, hkeys⟩ := hend
    refine ⟨fun k hk => ?_, hslices, hamus, hpieces, hlost, hdone, hcfg, hlive, hglob, ⟨hkeys.rest, hkeys.slots⟩⟩
    exact hrec k (List.mem_filter.1 (List.mem_of_find?_eq_some hk)).1 (by simpa using List.find?_some hk)
  case waits =>
    intro s id hrun h
    rw [exec_jobEnd hrun]
    cases hj : s.job? id with
    | none => rfl
    | some j => exact congrArg _ (endJob_waits (h j hj))

/-! ## The register stores under the end of jobs -/

/-- The register stores and the timebase. -/
abbrev State.regs (s : State) := (s.cfg, s.live, s.glob)

theorem regs_of_aside {s t : State} (h : t.aside = s.aside) : t.regs = s.regs := by
  simp only [State.aside, Prod.mk.injEq] at h
  simp only [State.regs, h]
theorem regs_of_stop {s t : State} (h : StopKeeps s t) : t.regs = s.regs := by
  simp only [State.regs, h.cfg, h.live, h.glob]

theorem sendFrame_regs (s : State) (any : Bool) (kind dst : Nat) (c : DWord) (slot off : Nat) (b : Bytes) :
    (s.sendFrame any kind dst c slot off b).regs = s.regs := by
  unfold State.sendFrame State.sendOn
  dsimp only
  split
  · rfl
  · split
    · rfl
    · rfl

theorem closePart_regs (s : State) (j : Job) (p : Part) (st : Nat) (later : Bool) : (s.closePart j p st later).regs = s.regs := by
  have hrel : (if later then s else s.releaseJob j).regs = s.regs := by
    split
    · rfl
    · exact regs_of_aside (LetsGo.releaseJob s j).aside
  have hstop := (regs_of_stop (stopKeeps_stopJob (if later then s else s.releaseJob j) j.id)).trans hrel
  unfold State.closePart
  dsimp only
  generalize State.stopJob _ j.id = u at hstop
  split
  · exact hstop
  · exact (sendFrame_regs u ..).trans hstop

/-- The end of a job writes no register and moves no clock. -/
theorem closeJob_regs (s : State) (id st : Nat) (later : Bool) : (s.closeJob id st later).regs = s.regs := by
  cases hj : s.job? id with
  | none => simp [State.closeJob, hj]
  | some j =>
    cases hr : j.recorded with
    | true => simp [State.closeJob, hj, hr]
    | false =>
      cases hp : j.part with
      | some p => simp [State.closeJob, hj, hr, hp, closePart_regs]
      | none =>
        obtain ⟨f, k, e⟩ := closeJob_closed hj hr hp st later
        obtain ⟨-, -, hcfg, hlive, hglob, -⟩ := closed_ends s j id st later
        rw [e]
        generalize s.closed j id st later = t at hcfg hlive hglob
        exact Prod.ext hcfg (Prod.ext hlive hglob)

/-! ## Parts of the commit step -/

section

variable (s : State)

theorem foldl_regs {β : Type} {f : State → β → State} (hf : ∀ s x, (f s x).regs = s.regs) (l : List β) (s : State) :
    (l.foldl f s).regs = s.regs := foldl_keeps hf l s

theorem pendSrc_regs (n : Nat) : (s.pendSrc n).regs = s.regs := by
  obtain ⟨l, e⟩ := pendSrc_only s n
  rw [e]
theorem modPower_regs (g : Power → Power) : (s.modPower g).regs = s.regs := rfl
theorem modField_regs (f : Nat) (g : Field → Field) : (s.modField f g).regs = s.regs := rfl
theorem fieldsUp_regs (fs : List Nat) : (s.fieldsUp fs).regs = s.regs := by
  unfold State.fieldsUp
  exact modPower_regs s _
theorem fieldsDown_regs (off gate : List Nat) : (s.fieldsDown off gate).regs = s.regs := by
  have hfold (g : Field → Field) (l : List Nat) (u : State) : (l.foldl (fun s f => s.modField f g) u).regs = u.regs :=
    foldl_regs (fun u f => modField_regs u f g) l u
  unfold State.fieldsDown
  exact (modPower_regs _ _).trans ((hfold _ gate _).trans (foldl_regs (fun u f => modField_regs u f _) off s))
/-- The fields that a power command switches keep the registers. -/
theorem pwrFieldsSwitched_regs (w : Word) (all : List Nat) :
    (match pwrTarget w with
      | 0 => s.fieldsUp all
      | 1 => (s.fieldsUp (all.filter (fun f => bit (pwrFields w) f))).fieldsDown (pwrNames w) []
      | 2 => s.fieldsDown [] all
      | _ => s.fieldsDown [] all).regs = s.regs := by
  rcases pwrTarget w with _ | _ | _ | k
  · exact fieldsUp_regs s all
  · exact (fieldsDown_regs _ _ _).trans (fieldsUp_regs s _)
  · exact fieldsDown_regs s [] all
  · exact fieldsDown_regs s [] all
theorem regs_ite {c : Prop} [Decidable c] {t u : State} (ht : t.regs = s.regs) (hu : u.regs = s.regs) :
    (if c then t else u).regs = s.regs := by
  split <;> assumption
theorem regs_ctrl (c : Cores) : ({ s with ctrl := c } : State).regs = s.regs := rfl
/-- A power command that takes effect writes no register. -/
theorem pwrEffect_regs (w : Word) : (s.pwrEffect w).regs = s.regs := by
  have h := pwrFieldsSwitched_regs s w (upTo 16)
  unfold State.pwrEffect
  refine (pendSrc_regs _ 899).trans ?_
  exact regs_ite s ((regs_ctrl _ _).trans ((modPower_regs _ _).trans h)) ((modPower_regs _ _).trans h)
theorem powerCut_regs (xs : List Nat) : (s.powerCut xs).regs = s.regs := by
  unfold State.powerCut
  exact foldl_regs (fun u (j : Job) => closeJob_regs u j.id 0x11 false) _ s
/-- A power command that becomes live writes no register. -/
theorem pwrLive_regs (w : Word) : (s.pwrLive w).regs = s.regs := by
  unfold State.pwrLive
  dsimp only
  split
  · rfl
  · split
    · exact pwrEffect_regs _ w
    · split
      · exact (pwrEffect_regs _ w).trans (powerCut_regs _ _)
      · rfl
theorem joinChange_regs (was : Bool) : (s.joinChange was).regs = s.regs := by
  unfold State.joinChange
  dsimp only
  split
  · rfl
  · rfl
theorem settleCause_regs (b : Nat) : (s.settleCause b).regs = s.regs := by
  unfold State.settleCause
  dsimp only
  split <;> split <;> rfl
theorem liveAgain_regs (a : Nat) : (s.liveAgain a).regs = s.regs := by
  unfold State.liveAgain
  split
  · rfl
  · exact (settleCause_regs _ _).trans rfl
theorem keyCommit_regs : s.keyCommit.regs = s.regs := by
  unfold State.keyCommit
  split
  · split
    · rfl
    · rfl
  · rfl
theorem holdJob_regs (f : Nat) (j : Job) : (s.holdJob f j).regs = s.regs := by
  refine foldl_regs (fun u p => ?_) _ _
  have h := LetsGo.unplace u j.inst p.row ((j.stage p.stage).demand p.fields) (p.live - p.ended)
  exact regs_of_aside (LetsGo.ite (h.trans (.unplace _ _ _ _ _)) h).aside
theorem freezeNow_regs : s.freezeNow.regs = s.regs := by
  unfold State.freezeNow
  refine foldl_regs (fun u (e : Nat × Inst) => ?_) _ s
  exact foldl_regs (f := fun (v : State) (j : Job) => v.holdJob s.swnN j) (fun v j => holdJob_regs v s.swnN j) _ _
theorem commitCaps_regs : s.commitCaps.regs = s.regs := rfl

end

/-- What follows the registers in the commit step writes none of them. -/
theorem commitStep_regs (s : State) : s.commitStep.regs = s.commitRegs.regs :=
  ((commitCaps_regs _).trans (freezeNow_regs _)).trans (keyCommit_regs _)

/-! ## Shadows that become live -/

/-- A key that a map does not list reads its default. -/
theorem mget_unlisted {α : Type} {d : Nat → α} {m : SMap α} {k : Nat} (h : k ∉ m.map (·.1)) : mget d m k = d k := by
  induction m with
  | nil => rfl
  | cons e m ih =>
    obtain ⟨j, v⟩ := e
    simp only [List.map_cons, List.mem_cons, not_or] at h
    simp only [mget, if_neg h.1, ih h.2, ite_self]

/-- A shadowed register that the two stores do not list has its reset value in both. -/
theorem cfgW_eq_liveW {s : State} {a : Nat} (hs : shadowed a = true) (h : a ∉ s.shadowAddrs) : s.cfgW a = s.liveW a := by
  have hl : a ∉ s.cfg.map (·.1) ∧ a ∉ s.live.map (·.1) := by
    refine not_or.1 fun hm => h ?_
    exact List.mem_filter.2 ⟨List.mem_eraseDups.2 (List.mem_append.2 hm), hs⟩
  rw [State.cfgW, State.liveW, mget_unlisted hl.1, mget_unlisted hl.2]

/-- `t` is `s` with the shadows of `as` live. -/
structure MadeLive (s : State) (as : List Nat) (t : State) : Prop where
  cfg : t.cfg = s.cfg
  glob : t.glob = s.glob
  live : ∀ a, t.liveW a = if a ∈ as then s.cfgW a else s.liveW a

/-- Writes of the live store alone. -/
theorem setLive_shadows {s : State} (h : mwf regReset s.live = true) (as : List Nat) :
    MadeLive s as (as.foldl (fun s a => s.setLive a (s.cfgW a)) s) := by
  induction as generalizing s with
  | nil => exact ⟨rfl, rfl, fun _ => rfl⟩
  | cons b as ih =>
    obtain ⟨hcfg, hglob, hlive⟩ := ih (s := s.setLive b (s.cfgW b)) (mwf_mput h)
    refine ⟨hcfg, hglob, fun a => (hlive a).trans ?_⟩
    rw [liveW_setLive h, show (s.setLive b (s.cfgW b)).cfgW a = s.cfgW a from rfl]
    by_cases hab : a = b
    · subst hab
      simp
    · simp [hab]

/-- The registers decide which shadows are live. -/
theorem MadeLive.congr {s s' t t' : State} {as : List Nat} (h : MadeLive s as t) (hs : s'.regs = s.regs) (ht : t'.regs = t.regs) :
    MadeLive s' as t' := by
  simp only [State.regs, Prod.mk.injEq] at hs ht
  obtain ⟨hsc, hsl, hsg⟩ := hs
  obtain ⟨htc, htl, htg⟩ := ht
  refine ⟨htc.trans (h.cfg.trans hsc.symm), htg.trans (h.glob.trans hsg.symm), fun a => ?_⟩
  simpa only [State.cfgW, State.liveW, hsc, hsl, htl] using h.live a

/-- Shadows that differ from the live words become live, and the rest is live already. -/
theorem MadeLive.of_differing {s t : State} {as : List Nat}
    (h : MadeLive s (as.filter (fun a => decide (s.cfgW a ≠ s.liveW a))) t) : MadeLive s as t := by
  refine ⟨h.cfg, h.glob, fun a => (h.live a).trans ?_⟩
  by_cases he : s.cfgW a = s.liveW a <;> simp [he]

theorem makeLive_madeLive {s : State} (h : mwf regReset s.live = true) (as : List Nat) : MadeLive s as (s.makeLive as) := by
  unfold State.makeLive
  dsimp only
  generalize hu : List.foldl (fun (s : State) (e : Nat × Bool) => s.liveAgain e.1) s _ = u
  have hregs : s.regs = u.regs := hu ▸ (foldl_regs (fun v (e : Nat × Bool) => liveAgain_regs v e.1) _ s).symm
  have hlive : u.live = s.live := congrArg (·.2.1) hregs.symm
  have hset := setLive_shadows (s := u) (hlive ▸ h) (as.filter (fun a => decide (u.cfgW a ≠ u.liveW a)))
  generalize List.foldl (fun (s : State) a => s.setLive a (s.cfgW a)) u _ = v at hset
  refine (hset.congr rfl ((joinChange_regs _ _).trans ?_)).of_differing.congr hregs rfl
  exact regs_ite v (pwrLive_regs v _) rfl

/-- The reports of mismatches write no register. -/
theorem reports_regs (bad : List Nat) (s : State) :
    (bad.foldl (fun s a => (s.raise (3 * blockOf a + 2) 0 a 0).setCause (3 * blockOf a + 2) true) s).regs = s.regs := by
  refine foldl_regs (fun u a => ?_) bad s
  have hraise : (u.raise (3 * blockOf a + 2) 0 a 0).regs = u.regs := by
    rcases raise_cases (s := u) (3 * blockOf a + 2) 0 a 0 with e | ⟨-, -, e⟩
    · rw [e]
    · rw [e]
  exact hraise

/-- CFG_SKIP for a list of words: the bits of their blocks (Table 2.5). -/
def skipBits (l : List Nat) : BitVec 15 := BitVec.ofNat 15 (l.foldl (fun m a => m ||| 2 ^ cfgBit (blockOf a)) 0)

/-- CFG_SKIP tells the block of each word of the list. -/
theorem skipBits_block {l : List Nat} {a : Nat} (h : a ∈ l) (ha : cfgBit (blockOf a) < 15) :
    (skipBits l).getLsbD (cfgBit (blockOf a)) = true := by
  have hkeep (l : List Nat) (m n : Nat) (hm : m.testBit n = true) :
      (l.foldl (fun m a => m ||| 2 ^ cfgBit (blockOf a)) m).testBit n = true := by
    induction l generalizing m with
    | nil => exact hm
    | cons b l ih => exact ih _ (by simp [hm])
  have hbit (m : Nat) : (l.foldl (fun m a => m ||| 2 ^ cfgBit (blockOf a)) m).testBit (cfgBit (blockOf a)) = true := by
    induction l generalizing m with
    | nil => cases h
    | cons b l ih =>
      rcases List.mem_cons.1 h with rfl | h
      · exact hkeep l _ _ (by simp)
      · exact ih h _
  simp [skipBits, BitVec.getLsbD_ofNat, ha, hbit]

theorem commitRegs_held {s : State} (h : bit (s.cfgN 0x40) 0 = true) : s.commitRegs = s := if_pos h

/-- Outside a release the shadows of the blocks without a mismatch become live, and CFG_SKIP names the other blocks. -/
theorem commitRegs_unreleased {s : State} (hh : bit (s.cfgN 0x40) 0 = false) (hrel : s.glob.relPend = false) :
    ∃ u : State, u.regs = (s.cfg, s.live, { s.glob with cfgSkip := skipBits s.badShadows }) ∧
      s.commitRegs = u.makeLive (s.shadowAddrs.filter (fun a => !(s.badShadows.map blockOf).eraseDups.contains (blockOf a))) := by
  have ht := reports_regs s.badShadows s
  unfold State.commitRegs
  dsimp only
  generalize List.foldl _ s _ = t at ht
  simp only [State.regs, Prod.mk.injEq] at ht
  obtain ⟨hcfg, hlive, hglob⟩ := ht
  refine ⟨{ t with glob := { t.glob with cfgSkip := skipBits s.badShadows } }, ?_, ?_⟩
  · simp only [State.regs, hcfg, hlive, hglob]
  · simp only [hh, hglob, hrel, Bool.false_eq_true, if_false, skipBits, State.shadowAddrs, hcfg, hlive]

/-- A release with no mismatch: every shadow becomes live. -/
theorem commitRegs_released {s : State} (hh : bit (s.cfgN 0x40) 0 = false) (hrel : s.glob.relPend = true)
    (hb : s.badShadows = []) : ∃ g, s.commitRegs = { s.makeLive s.shadowAddrs with glob := g } :=
  ⟨{ s.glob with relPend := false, cfgSkip := 0 }, by simp [State.commitRegs, hh, hb, hrel]⟩

/-- Without a mismatch each listed shadow becomes live, in a release or out of one. -/
theorem commitRegs_clean {s : State} (hwf : mwf regReset s.live = true) (hh : bit (s.cfgN 0x40) 0 = false) (hb : s.badShadows = []) :
    s.commitRegs.cfg = s.cfg ∧ ∀ a, s.commitRegs.liveW a = if a ∈ s.shadowAddrs then s.cfgW a else s.liveW a := by
  cases hrel : s.glob.relPend with
  | true =>
    obtain ⟨g, e⟩ := commitRegs_released hh hrel hb
    have h := makeLive_madeLive hwf s.shadowAddrs
    rw [e]
    exact ⟨h.cfg, h.live⟩
  | false =>
    obtain ⟨u, hu, e⟩ := commitRegs_unreleased hh hrel
    simp only [State.regs, Prod.mk.injEq] at hu
    obtain ⟨hcfg, hlive, -⟩ := hu
    have h := makeLive_madeLive (hlive ▸ hwf) (s := u) s.shadowAddrs
    have hall : s.shadowAddrs.filter (fun a => !(s.badShadows.map blockOf).eraseDups.contains (blockOf a)) = s.shadowAddrs := by
      simp [hb]
    rw [e, hall]
    exact ⟨h.cfg.trans hcfg, by simpa only [State.cfgW, State.liveW, hcfg, hlive] using h.live⟩

/-- Outside a release a block with a mismatch keeps its live words, and CFG_SKIP tells it. -/
theorem commitRegs_skips {s : State} {a : Nat} (hwf : mwf regReset s.live = true) (hh : bit (s.cfgN 0x40) 0 = false)
    (hrel : s.glob.relPend = false) (ha : a ∈ s.badShadows) :
    s.commitRegs.cfg = s.cfg ∧ s.commitRegs.glob.cfgSkip = skipBits s.badShadows ∧
      ∀ b, blockOf b = blockOf a → s.commitRegs.liveW b = s.liveW b := by
  obtain ⟨u, hu, e⟩ := commitRegs_unreleased hh hrel
  simp only [State.regs, Prod.mk.injEq] at hu
  obtain ⟨hcfg, hlive, hglob⟩ := hu
  have h := makeLive_madeLive (hlive ▸ hwf) (s := u)
    (s.shadowAddrs.filter (fun a => !(s.badShadows.map blockOf).eraseDups.contains (blockOf a)))
  rw [e]
  refine ⟨h.cfg.trans hcfg, by rw [h.glob, hglob], fun b hb => ?_⟩
  have hblock : blockOf b ∈ s.badShadows.map blockOf := hb ▸ List.mem_map_of_mem ha
  rw [h.live, if_neg (by simpa using fun _ => by simpa using hblock)]
  simp only [State.liveW, hlive]

theorem exec_commitStep {s : State} (h : s.running = true) : exec .commitStep s = .next (s.commitStep.setOffset 8192) :=
  whenRun_of_running h _

/-- Settles O11: the commit step changes the register stores by `commitRegs` alone, which copies the listed shadows of the blocks
without a mismatch; a shadow that no store lists has its reset value on both sides. -/
theorem commitStepMakesShadowsLive : Obligations.CommitStepMakesShadowsLive := by
  unfold Obligations.CommitStepMakesShadowsLive
  have hregs (s : State) : s.commitStep.cfg = s.commitRegs.cfg ∧ s.commitStep.live = s.commitRegs.live ∧
      s.commitStep.glob = s.commitRegs.glob := by
    simpa only [State.regs, Prod.mk.injEq] using commitStep_regs s
  refine ⟨?clean, ?skips, ?held⟩
  case clean =>
    intro s hrun hwf hh hb
    obtain ⟨hcfg, hlive⟩ := commitRegs_clean (tablesWf_iff.1 hwf).2.1 hh hb
    obtain ⟨hc, hl, -⟩ := hregs s
    refine ⟨_, exec_commitStep hrun, rfl, fun a ha => ?_⟩
    generalize s.commitStep = t at hc hl
    have hlw : t.liveW a = s.cfgW a := by
      rw [State.liveW, hl, ← State.liveW, hlive]
      split
      · rfl
      · exact (cfgW_eq_liveW ha ‹_›).symm
    exact ⟨hlw, by rw [State.cfgW]; exact congrArg (mget regReset · a) (hc.trans hcfg)⟩
  case skips =>
    intro s a hrun hwf hh hrel ha
    obtain ⟨hcfg, hskip, hkeep⟩ := commitRegs_skips (tablesWf_iff.1 hwf).2.1 hh hrel ha
    obtain ⟨hc, hl, hg⟩ := hregs s
    refine ⟨_, exec_commitStep hrun, rfl, hc.trans hcfg, fun hbit => ?_, fun b hb => ?_⟩
    · have hs : (s.commitStep.setOffset 8192).glob.cfgSkip = skipBits s.badShadows := (congrArg Glob.cfgSkip hg).trans hskip
      rw [hs]
      exact skipBits_block ha hbit
    · exact (congrArg (mget regReset · b) hl).trans (hkeep b hb)
  case held =>
    intro s hrun hh
    obtain ⟨hc, hl, -⟩ := hregs s
    rw [commitRegs_held hh] at hc hl
    exact ⟨_, exec_commitStep hrun, hl, hc, rfl⟩

end Sys2Proof.Machine
end

section
/-! The statements of the register chapter: votes and parity (R45–R48), and the backup domain (R50, R51, R431–R436). -/

namespace Sys2Proof.Machine

/-! ## Sources of register blocks (Table 18.1) -/

theorem blockOf_le (a : Nat) : blockOf a ≤ 22 := by
  have hite {c : Prop} [Decidable c] {m n : Nat} (hm : m ≤ 22) (hn : n ≤ 22) : (if c then m else n) ≤ 22 := by
    split
    · exact hm
    · exact hn
  unfold blockOf
  iterate 22 refine hite (by decide) ?_
  exact Nat.le_refl 22

/-- The three sources of a register block are not reserved and have no fence unit. -/
theorem faultKind_block {b k : Nat} (hb : b ≤ 22) (hk : k < 3) : ∃ f, faultKind (3 * b + k) = some f ∧ f.fence = false := by
  have hlt : 3 * b + k < 69 := by omega
  have hmod : (3 * b + k) % 3 = k := by omega
  simp only [faultKind, if_pos hlt, hmod]
  interval_cases k
  · exact ⟨_, rfl, rfl⟩
  · exact ⟨_, rfl, rfl⟩
  · exact ⟨_, rfl, rfl⟩

/-- What source `k` of the block of address `a` reports of that address. -/
def blockReport (a k : Nat) : FaultReport :=
  { source := Fin.ofNat 512 (3 * blockOf a + k), unit := 0, detail0 := BitVec.ofNat 64 a, detail1 := BitVec.ofNat 64 0 }

theorem blockReport_source {k : Nat} (hk : k < 3) (a : Nat) : (blockReport a k).source.val = 3 * blockOf a + k := by
  have hb := blockOf_le a
  exact Nat.mod_eq_of_lt (by omega)

/-- A source of a register block always reports: no fence stops it. -/
theorem raise_block (s : State) (a : Nat) {k : Nat} (hk : k < 3) : s.raise (3 * blockOf a + k) 0 a 0 =
    { s with faults := { s.faults with reports := s.faults.reports ++ [blockReport a k] } } := by
  obtain ⟨f, hf, hfence⟩ := faultKind_block (blockOf_le a) hk
  have hopen : s.fencedAlready (3 * blockOf a + k) 0 = false := by simp [State.fencedAlready, hf, hfence]
  simp only [State.raise, hf, hopen]
  rfl

/-- A cause that is set is present (R412), and so is every one that was. -/
theorem setCause_live (s : State) {n : Nat} (hn : n < 512) (m : Nat) : (s.setCause n true).faults.live.getLsbD m =
    (s.faults.live.getLsbD m || decide (m = n)) := by
  show (s.faults.live ||| BitVec.ofNat 512 (2 ^ n)).getLsbD m = _
  rw [BitVec.getLsbD_or, BitVec.getLsbD_ofNat, Nat.testBit_two_pow]
  by_cases hm : m = n
  · simp [hm, hn]
  · simp [hm, Ne.symm hm]

/-- The cause of source `n` is present, and a report of it that names address `a` waits. -/
def State.tells (s : State) (n a : Nat) : Prop :=
  s.faults.live.getLsbD n = true ∧ ∃ e ∈ s.faults.reports, e.source.val = n ∧ e.detail0 = BitVec.ofNat 64 a

/-- A report with a lasting condition is told. -/
theorem tells_raised (s : State) (a : Nat) {k : Nat} (hk : k < 3) :
    ((s.raise (3 * blockOf a + k) 0 a 0).setCause (3 * blockOf a + k) true).tells (3 * blockOf a + k) a := by
  have hb := blockOf_le a
  refine ⟨by rw [setCause_live _ (by omega)]; simp, blockReport a k, ?_, blockReport_source hk a, rfl⟩
  rw [raise_block s a hk]
  exact List.mem_append_right _ (List.mem_singleton_self _)

/-- Nothing but the collector changes by it. -/
theorem raised_only (s : State) (n d0 d1 : Nat) (u : BitVec 16) : ∃ f, (s.raise n u d0 d1).setCause n true = { s with faults := f } := by
  rcases raise_cases (s := s) n u d0 d1 with e | ⟨-, -, e⟩
  · exact ⟨_, by rw [e]; rfl⟩
  · exact ⟨_, by rw [e]; rfl⟩

/-! ## Votes (R45, R46) -/

theorem triple_known {a i j : Nat} {r : RegRow} (h : regAt a = some (r, i, j)) (hg : r.guard = .triple) : r.known < 2 ^ 32 := by
  have := rowsAt_all (P := fun r => r.guard != .triple || decide (r.known < 2 ^ 32)) (by decide +kernel) h
  simpa [hg] using this

section Vote

variable {s : State} {a i j : Nat} {r : RegRow}

/-- A vote on the stored copies of a triplicated register, whose values have its defined bits alone. -/
theorem exec_registerVote (hup : s.up = true) (hr : regAt a = some (r, i, j)) (hg : r.guard = .triple) {x y z : Word}
    (hx : x &&& BitVec.ofNat 32 r.known = x) (hy : y &&& BitVec.ofNat 32 r.known = y) (hz : z &&& BitVec.ofNat 32 r.known = z) :
    exec (.registerVote a (BitVec.ofNat 32 r.known) false x y z) s = .next (s.vote a r.known false x.toNat y.toNat z.toNat) := by
  have hmask : (BitVec.ofNat 32 r.known).toNat = r.known := Nat.mod_eq_of_lt (triple_known hr hg)
  refine (whenUp_of_up hup _).trans ?_
  rw [hx, hy, hz, hmask]

theorem tripleFields_triple (hg : r.guard = .triple) (j : Nat) : tripleFields r j = [r.known] := by simp [tripleFields, hg]
theorem setTriple_triple (hg : r.guard = .triple) (mask : Nat) (lost : Bool) (w : Nat) :
    s.setTriple a r i j mask false lost w = s.setCfg a (BitVec.ofNat 32 w) := by simp [State.setTriple, hg]

/-- The minority copy takes the majority's value, VOTE_COUNT counts and REG_VOTE reports. -/
theorem vote_minority (hr : regAt a = some (r, i, j)) (hg : r.guard = .triple) {c d : Nat} (hne : c ≠ d) :
    s.vote a r.known false c d c = { s.setCfg a (BitVec.ofNat 32 c) with
      glob := { s.glob with voteCount := satInc 16 s.glob.voteCount }
      faults := { s.faults with reports := s.faults.reports ++ [blockReport a 0] } } := by
  have hraise := raise_block { s.setCfg a (BitVec.ofNat 32 c) with
    glob := { s.glob with voteCount := satInc 16 s.glob.voteCount } } a (k := 0) (by omega)
  simp only [State.vote, hr, tripleFields_triple hg, setTriple_triple hg, Bool.false_and]
  simpa [hne, hne.symm] using hraise

/-- Without a majority the safe value stands, the copies stay as they are, and REG_VOTE_LOST is told. -/
theorem vote_lost (hr : regAt a = some (r, i, j)) (hg : r.guard = .triple) {c d e : Nat} (hcd : c ≠ d) (hde : d ≠ e) (hce : c ≠ e) :
    ∃ v f, s.vote a r.known false c d e =
        { s.setCfg a (BitVec.ofNat 32 (s.safeValue r i r.known)) with voteBad := v, faults := f } ∧
      (a, false) ∈ v ∧ (s.vote a r.known false c d e).tells (3 * blockOf a + 1) a := by
  have hvote : s.vote a r.known false c d e =
      (State.raise { s.setCfg a (BitVec.ofNat 32 (s.safeValue r i r.known)) with
        voteBad := if s.voteBad.contains (a, false) then s.voteBad else s.voteBad ++ [(a, false)] }
          (3 * blockOf a + 1) 0 a 0).setCause (3 * blockOf a + 1) true := by
    simp only [State.vote, hr, tripleFields_triple hg, setTriple_triple hg, Bool.false_and]
    simp [hcd, hde, hce]
  rw [hvote]
  obtain ⟨f, e⟩ := raised_only { s.setCfg a (BitVec.ofNat 32 (s.safeValue r i r.known)) with
    voteBad := if s.voteBad.contains (a, false) then s.voteBad else s.voteBad ++ [(a, false)] } (3 * blockOf a + 1) a 0 0
  refine ⟨_, f, e, ?_, tells_raised _ a (by omega)⟩
  split
  · exact List.contains_iff_mem.1 ‹_›
  · exact List.mem_append_right _ (List.mem_singleton_self _)

/-- Copies that agree tell nothing. -/
theorem vote_agree (s : State) (a mask : Nat) (live : Bool) (c : Nat) : s.vote a mask live c c c = s := by
  cases h : regAt a with
  | none => simp [State.vote, h]
  | some e => simp [State.vote, h]

end Vote

/-! ## Parity (R47, R48) -/

/-- The sweep checks the words with wrong parity, as a use of them does. -/
theorem exec_paritySweep {s : State} (hup : s.up = true) (ups : List Upset) :
    exec (.paritySweep ups) s = .next ((ups.foldl State.disturb s).uses (ups.foldl State.disturb s).parBad) := by
  have huses (u : State) : u.parBad.foldl State.checkParity u = u.uses u.parBad := by
    unfold State.uses
    cases u.parBad with
    | nil => rfl
    | cons a l => rfl
  exact (whenUp_of_up hup _).trans (congrArg _ (huses _))

/-- A word with wrong parity is told by its check. -/
theorem tells_checkParity {s : State} {a : Nat} (h : a ∈ s.parBad) : (s.checkParity a).tells (3 * blockOf a + 2) a := by
  rw [State.checkParity, if_pos (by simpa using h)]
  exact tells_raised s a (by omega)

/-- A check silences nothing. -/
theorem tells_checkParity_of {s : State} {n a : Nat} (h : s.tells n a) (b : Nat) : (s.checkParity b).tells n a := by
  obtain ⟨hlive, e, he, hsrc, hdet⟩ := h
  have hb := blockOf_le b
  unfold State.checkParity
  split
  · rw [raise_block s b (by omega)]
    refine ⟨?_, e, List.mem_append_left _ he, hsrc, hdet⟩
    rw [setCause_live _ (by omega)]
    exact Bool.or_eq_true_iff.2 (.inl hlive)
  · exact ⟨hlive, e, he, hsrc, hdet⟩

/-- Checks of several words tell each of them that has wrong parity. -/
theorem tells_checkParities {s : State} {as : List Nat} {a : Nat} (ha : a ∈ as) (h : a ∈ s.parBad) :
    (as.foldl State.checkParity s).tells (3 * blockOf a + 2) a := by
  induction as generalizing s with
  | nil => cases ha
  | cons b as ih =>
    rw [List.foldl_cons]
    rcases List.mem_cons.1 ha with rfl | ha
    · exact List.foldlRecOn (motive := fun u => State.tells u (3 * blockOf a + 2) a) _ _ (tells_checkParity h)
        (fun _ hu b _ => tells_checkParity_of hu b)
    · obtain ⟨l, c, e⟩ := checkParity_only (s := s) b
      exact ih ha (by rw [e]; exact h)

/-- The use of words tells each of them that has wrong parity. -/
theorem tells_uses {s : State} {as : List Nat} {a : Nat} (ha : a ∈ as) (h : a ∈ s.parBad) :
    (s.uses as).tells (3 * blockOf a + 2) a := by
  have hbad : ¬ s.parBad.isEmpty = true := fun hn => by simp [List.isEmpty_iff.1 hn] at h
  rw [State.uses, if_neg hbad]
  exact tells_checkParities ha h

/-- The first upset bit of a parity-guarded word changes the stored value, and its parity no longer fits. -/
theorem flip_clean {s : State} {a k i j : Nat} {r : RegRow} (hr : regAt a = some (r, i, j)) (hg : r.guard = .parity)
    (hk : bit r.rw k = true) (hb : s.parBad = []) (hwf : mwf regReset s.cfg = true) :
    (s.flip a k).parBad = [a] ∧ (s.flip a k).cfgW a = s.cfgW a ^^^ BitVec.ofNat 32 (2 ^ k) ∧ (s.flip a k).hbm = s.hbm := by
  have hflip : s.flip a k = { s.setCfg a (s.cfgW a ^^^ BitVec.ofNat 32 (2 ^ k)) with parBad := [a] } := by
    simp [State.flip, hr, hg, hk, hb, State.setCfg]
  rw [hflip]
  exact ⟨rfl, (cfgW_setCfg hwf a a _).trans (if_pos rfl), rfl⟩

/-- Settles O43: a vote's outcome follows its copies, no fence stops a block's report, and a sweep is a use of all bad words. -/
theorem votesAndParity : Obligations.VotesAndParity := by
  unfold Obligations.VotesAndParity
  refine ⟨?minority, ?lost, ?agree, ?sweep, ?flip⟩
  case minority =>
    intro s a r i j w x hup hwf hr hg hw hx hne
    have hset := cfgW_setCfg (tablesWf_iff.1 hwf).1 a
    refine ⟨_, exec_registerVote hup hr hg hw hx hw, ?_⟩
    rw [vote_minority hr hg (fun h => hne (BitVec.eq_of_toNat_eq h)), BitVec.ofNat_toNat, BitVec.setWidth_eq]
    refine ⟨(hset a w).trans (if_pos rfl), rfl, rfl, fun b hb => (hset b w).trans (if_neg hb), ?_, rfl⟩
    exact ⟨blockReport a 0, by simp, blockReport_source (by omega) a, rfl⟩
  case lost =>
    intro s a r i j w x y hup hwf hr hg hw hx hy hwx hxy hwy
    have hset := cfgW_setCfg (tablesWf_iff.1 hwf).1 a a (BitVec.ofNat 32 (s.safeValue r i r.known))
    have hne {u v : Word} (h : u ≠ v) : u.toNat ≠ v.toNat := fun e => h (BitVec.eq_of_toNat_eq e)
    refine ⟨_, exec_registerVote hup hr hg hw hx hy, ?_⟩
    obtain ⟨v, f, e, hv, htells⟩ := vote_lost (s := s) hr hg (hne hwx) (hne hxy) (hne hwy)
    obtain ⟨hlive, p, hp, hsrc, -⟩ := htells
    rw [e] at hlive hp ⊢
    exact ⟨hset.trans (if_pos rfl), rfl, hv, hlive, ⟨p, hp, hsrc⟩, rfl⟩
  case agree =>
    intro s a mask live w hup
    exact (whenUp_of_up hup _).trans (congrArg _ (vote_agree s a mask.toNat live _))
  case sweep =>
    intro s hup
    refine ⟨_, exec_paritySweep hup [], ?_⟩
    rw [List.foldl_nil]
    have htells : ∀ a ∈ s.parBad, (s.uses s.parBad).tells (3 * blockOf a + 2) a := fun a ha => tells_uses ha ha
    obtain ⟨l, c, e⟩ := uses_only (s := s) s.parBad
    rw [e] at htells ⊢
    exact ⟨rfl, rfl, rfl, htells⟩
  case flip =>
    intro s a k r i j hup hwf hr hg hbit hk hb
    have hval : (Fin.ofNat 32 k).val = k := Nat.mod_eq_of_lt hk
    have hflip : [Upset.word a (Fin.ofNat 32 k)].foldl State.disturb s = s.flip a k := congrArg (s.flip a) hval
    obtain ⟨hbad, hcfg, hhbm⟩ := flip_clean hr hg hbit hb (tablesWf_iff.1 hwf).1
    refine ⟨_, exec_paritySweep hup _, ?_⟩
    rw [hflip]
    generalize s.flip a k = u at hbad hcfg hhbm
    have ha : a ∈ u.parBad := hbad ▸ List.mem_singleton_self a
    obtain ⟨hlive, -⟩ := tells_uses ha ha
    obtain ⟨l, c, e⟩ := uses_only (s := u) u.parBad
    rw [e] at hlive ⊢
    exact ⟨hbad, hcfg, hlive, hhbm⟩

/-! ## The backup domain (R50, R51, R436) -/

/-- The stored words as the waiting slow writes leave them; LOAD is not stored. -/
def State.slowCfg (s : State) : SMap Word :=
  (s.backup.slow.filter (fun e => e.1 ≠ 0xBC0040)).foldl (fun m e => mput regReset m e.1 e.2) s.cfg
/-- The RTC that a LOAD takes from RTC_SET among these words. -/
def rtcOf (m : SMap Word) : DWord :=
  BitVec.ofNat 64 ((mget regReset m 0xBC0038).toNat + 2 ^ 32 * (mget regReset m 0xBC003C).toNat)
/-- A LOAD waits. -/
def State.loadWaits (s : State) : Bool := s.backup.slow.any (fun e => e.1 = 0xBC0040 && e.2.getLsbD 0)
/-- The RTC after an edge with or without a LOAD, which checks the parity of RTC_SET. -/
def State.loadRtc (s : State) (load : Bool) : State :=
  if load then (s.uses [0xBC0038, 0xBC003C]).modNow (fun n => { n with rtc := rtcOf s.cfg }) else s

theorem loadRtc_only (s : State) (load : Bool) : ∃ f, s.loadRtc load = { s with
    faults := f, backup := { s.backup with now := if load then { s.backup.now with rtc := rtcOf s.cfg } else s.backup.now } } := by
  cases load with
  | true =>
    obtain ⟨l, c, e⟩ := uses_only (s := s) [0xBC0038, 0xBC003C]
    exact ⟨_, by rw [State.loadRtc, if_pos rfl, e]; rfl⟩
  | false => exact ⟨s.faults, rfl⟩

/-- The stages of an edge on which writes wait: the words, LOAD, the empty buffers and source 902. -/
theorem applySlow_stages {s : State} (h : s.backup.slow ≠ []) : s.applySlow =
    ((((s.backup.slow.filter (fun e => e.1 ≠ 0xBC0040)).foldl (fun s e => (s.setCfg e.1 e.2).rewritten e.1) s).loadRtc
      s.loadWaits).modBk (fun b => { b with slow := [] })).pendSrc 902 :=
  if_neg (fun hn => h (List.isEmpty_iff.1 hn))

/-- An event at a source that is not reserved changes what is pending alone, and leaves the source pending. -/
theorem pendSrc_pending (s : State) {n : Nat} (h : intcReserved n = false) :
    ∃ l, s.pendSrc n = { s with intc := { s.intc with pend := l } } ∧ n ∈ l := by
  obtain ⟨l, e⟩ := pendSrc_only s n
  have hmem := mem_pendSrc (s := s) n h
  rw [e] at hmem
  exact ⟨l, e, hmem⟩

/-- Writes of stored words in turn touch these words, the lists of bad words and the causes. -/
theorem storeAll_only (l : SMap Word) (s : State) : ∃ p v c, l.foldl (fun s e => (s.setCfg e.1 e.2).rewritten e.1) s =
    { s with cfg := l.foldl (fun m e => mput regReset m e.1 e.2) s.cfg, parBad := p, voteBad := v,
             faults := { s.faults with live := c } } := by
  induction l generalizing s with
  | nil => exact ⟨_, _, _, rfl⟩
  | cons e l ih =>
    obtain ⟨p, v, c, h, -⟩ := rewritten_only (s.setCfg e.1 e.2) e.1
    obtain ⟨p', v', c', h'⟩ := ih ((s.setCfg e.1 e.2).rewritten e.1)
    rw [List.foldl_cons, h', h]
    exact ⟨p', v', c', rfl⟩

/-- The waiting writes take effect at one edge: the words first, then a LOAD from them. -/
theorem applySlow_only {s : State} (h : s.backup.slow ≠ []) : ∃ p v f l, s.applySlow = { s with
    cfg := s.slowCfg, parBad := p, voteBad := v, faults := f
    backup := { s.backup with
      slow := [], now := if s.loadWaits then { s.backup.now with rtc := rtcOf s.slowCfg } else s.backup.now }
    intc := { s.intc with pend := l } } ∧ 902 ∈ l := by
  obtain ⟨p, v, c, e⟩ := storeAll_only (s.backup.slow.filter (fun e => e.1 ≠ 0xBC0040)) s
  rw [applySlow_stages h, e]
  obtain ⟨f, e⟩ := loadRtc_only { s with cfg := s.slowCfg, parBad := p, voteBad := v, faults := { s.faults with live := c } } s.loadWaits
  rw [← State.slowCfg, e]
  obtain ⟨l, e, hl⟩ := pendSrc_pending _ (n := 902) (by decide)
  rw [e]
  exact ⟨_, _, _, _, rfl, hl⟩

theorem exec_slowWriteApply {s : State} (h : s.backup.aux = true ∨ s.backup.vbat = true) :
    exec .slowWriteApply s = .next s.applySlow := by
  have hwell : (s.backup.aux || s.backup.vbat) = true := by simpa using h
  show Host.Outcome.next _ = _
  rw [if_pos hwell]

theorem exec_rtcAlarm {s : State} (h : s.up = true) : exec .rtcAlarm s = .next
    (if s.backup.now.rtc.toNat = s.cfgN 0xBC0048 + 2 ^ 32 * s.cfgN 0xBC004C
      then (s.uses [0xBC0048, 0xBC004C]).pendSrc 903 else s.uses [0xBC0048, 0xBC004C]) := by
  refine (whenUp_of_up h _).trans ?_
  obtain ⟨l, c, e⟩ := uses_only (s := s) [0xBC0048, 0xBC004C]
  rw [e]
  rfl

/-- An SCLK edge in a powered well advances the RTC; the mirrors follow in a started device, whose START_SC may count. -/
theorem exec_risingSclkEdge {s : State} (h : s.backup.aux = true ∨ s.backup.vbat = true) :
    ∃ st, exec .risingSclkEdge s = .next { s with
      backup := { s.backup with
        now := { s.backup.now with rtc := s.backup.now.rtc + 1 }
        mirror := if s.start.up then { s.backup.now with rtc := s.backup.now.rtc + 1 } else s.backup.mirror }
      start := st } := by
  have hwell : (s.backup.aux || s.backup.vbat) = true := by simpa using h
  have hexec : exec .risingSclkEdge s = execRisingSclkEdge s := rfl
  rw [hexec, execRisingSclkEdge, if_pos hwell]
  by_cases hup : s.start.up = true
  · by_cases hopen : s.glob.admitOpen = true
    · exact ⟨s.start, by simp [hup, hopen, State.modNow, State.modBk]⟩
    · exact ⟨{ s.start with sc := satInc 16 s.start.sc }, by simp [hup, hopen, State.modNow, State.modBk]⟩
  · exact ⟨s.start, by simp [hup, State.modNow, State.modBk]⟩

/-! ## Tamper enables (R431, R433) -/

/-- The enables of sources 0–10 as a write leaves them: in Closed those that stand are kept, and fused sources are off. -/
def State.enablesAfter (s : State) (v : BitVec 16) : Word :=
  (if s.life.closed then s.cfgW 0xB80004 ||| (v.setWidth 32 &&& 0x7FF#32) else v.setWidth 32 &&& 0x7FF#32) &&&
    ~~~(s.tamper.eff.setWidth 32)

theorem enablesAfter_bit (s : State) (v : BitVec 16) {i : Nat} (hi : i < 11) : (s.enablesAfter v).getLsbD i =
    ((v.getLsbD i || (s.life.closed && (s.cfgW 0xB80004).getLsbD i)) && !s.tamper.eff.getLsbD i) := by
  have h32 : i < 32 := by omega
  have hall : ∀ k < 11, (0x7FF#32).getLsbD k = true := by decide
  have hmask : (0x7FF#32)[i] = true := (BitVec.getLsbD_eq_getElem h32).symm.trans (hall i hi)
  unfold State.enablesAfter
  cases s.life.closed with
  | true => simp [h32, hmask, Bool.or_comm]
  | false => simp [h32, hmask]

theorem enableWrite_agreed {s : State} {who : Requester} (h : reachesPf who = true) (v : BitVec 16) :
    s.enableWrite who false v true = (s.setCfg 0xB80004 (s.enablesAfter v)).rewritten 0xB80004 := by
  simp [State.enableWrite, h, State.enablesAfter]

theorem enableWrite_refused {s : State} {who : Requester} (h : reachesPf who = true) (backup : Bool) (v : BitVec 16) :
    s.enableWrite who backup v false = s.mismatch 1 := by
  simp [State.enableWrite, h]

/-- Settles O46: the words of one edge are stored before its LOAD, and a written enable is a bit of `enablesAfter`. -/
theorem backupRegistersWork : Obligations.BackupRegistersWork := by
  unfold Obligations.BackupRegistersWork
  refine ⟨?word, ?load, ?loadWrite, ?alarm, ?noAlarm, ?edge, ?vbat, ?enables, ?disagree⟩
  case word =>
    intro s a w hwell hwf hs ha
    refine ⟨_, exec_slowWriteApply hwell, ?_⟩
    have hcfg : s.slowCfg = mput regReset s.cfg a w := by simp [State.slowCfg, hs, ha]
    have hload : s.loadWaits = false := by simp [State.loadWaits, hs, ha]
    obtain ⟨p, v, f, l, e, hl⟩ := applySlow_only (s := s) (by simp [hs])
    rw [e, hcfg, hload]
    exact ⟨rfl, (cfgW_setCfg (tablesWf_iff.1 hwf).1 a a w).trans (if_pos rfl), hl, rfl, rfl, rfl⟩
  case load =>
    intro s lo hi hwell hwf hs
    refine ⟨_, exec_slowWriteApply hwell, ?_⟩
    have hm := (tablesWf_iff.1 hwf).1
    have hcfg : s.slowCfg = mput regReset (mput regReset s.cfg 0xBC0038 lo) 0xBC003C hi := by simp [State.slowCfg, hs]
    have hload : s.loadWaits = true := by simp [State.loadWaits, hs]
    have hrtc : rtcOf s.slowCfg = BitVec.ofNat 64 (lo.toNat + 2 ^ 32 * hi.toNat) := by
      rw [rtcOf, hcfg, mget_mput (mwf_mput hm), mget_mput hm, mget_mput_same (mwf_mput hm)]
      rfl
    obtain ⟨p, v, f, l, e, hl⟩ := applySlow_only (s := s) (by simp [hs])
    rw [e, hload, hrtc]
    exact ⟨rfl, rfl, hl⟩
  case loadWrite =>
    intro s who hrun hpf
    exact (whenRun_of_running hrun _).trans (by rw [if_pos hpf])
  case alarm =>
    intro s hup heq
    rw [exec_rtcAlarm hup, if_pos heq]
  case noAlarm =>
    intro s hup hne
    rw [exec_rtcAlarm hup, if_neg hne]
  case edge =>
    intro s hwell
    obtain ⟨st, e⟩ := exec_risingSclkEdge hwell
    exact ⟨_, e, rfl, fun h => if_pos h, fun h => if_neg (by simp [h]), rfl, rfl, rfl⟩
  case vbat =>
    intro s mv
    exact ⟨_, rfl, rfl, rfl, rfl, rfl⟩
  case enables =>
    intro s who v hrun hwf hpf
    refine ⟨_, (whenRun_of_running hrun _).trans (congrArg _ (enableWrite_agreed hpf v)), ?_⟩
    have hset := cfgW_setCfg (tablesWf_iff.1 hwf).1 0xB80004 0xB80004 (s.enablesAfter v)
    obtain ⟨p, b, c, e, -⟩ := rewritten_only (s.setCfg 0xB80004 (s.enablesAfter v)) 0xB80004
    rw [e]
    have hbit (i : Nat) (hi : i < 11) := (congrArg (·.getLsbD i) (hset.trans (if_pos rfl))).trans (enablesAfter_bit s v hi)
    refine ⟨rfl, rfl, rfl, fun i hi => ⟨fun hf => ?_, fun hf => ?_⟩⟩
    · exact (hbit i hi).trans (by simp [hf])
    · exact (hbit i hi).trans (by simp [hf])
  case disagree =>
    intro s who b v hrun hpf
    exact (whenRun_of_running hrun _).trans (congrArg _ (enableWrite_refused hpf b v))

end Sys2Proof.Machine
end

section
/-! The statements of the swath and admission chapter: the boundary and the figures of a swath (R53–R55, R478). -/

namespace Sys2Proof.Machine

/-! ## The figures of a swath (R54, R55) -/

/-- C leaves at least the 2,048 cycles of the tail that T leaves. -/
theorem cCc_le_tCc (s : State) : s.cCc ≤ s.tCc := Nat.sub_le_sub_left (le_max_right _ _) _

/-- Settles O9: the figures at reset are computed; the general ones are the definitions, and C and T differ in the reserve alone. -/
theorem swathFigures : Obligations.SwathFigures := by
  unfold Obligations.SwathFigures
  exact ⟨by decide, by decide, by decide, by decide, fun s => ⟨rfl, rfl, rfl, rfl, rfl, cCc_le_tCc s⟩⟩

/-! ## The boundary (R53) -/

/-- What a boundary sets of the timebase, and the monitors and the life cycle, which it leaves alone. -/
def State.clock (s : State) := (s.glob.swn, s.glob.inHeadland, s.glob.offset, s.tamper, s.life)

section

variable (s : State)

theorem rollField_only (f : Nat) : ∃ m n, s.rollField f = { s with fields := m, free := n } := by
  unfold State.rollField
  dsimp only
  split
  · exact ⟨_, s.free, rfl⟩
  · exact ⟨_, s.free + 1, rfl⟩

theorem drawUnless_only (c : Prop) [Decidable c] (b : Nat) :
    ∃ x n, (if c then (0, s) else s.draw b) = (x, { s with free := n }) := by
  split
  · exact ⟨0, s.free, rfl⟩
  · exact ⟨_, _, rfl⟩

/-- The counts of the last swath are those of the units, of HBM and of the loads. -/
theorem rollCounts_only : ∃ m a c p h n, s.rollCounts = { s with
    fields := m, amus := a, cores := c, pipes := p, hbmc := h, free := n, loadsLast := 0, lateLast := 0 } := by
  have hfold (l : List Nat) : ∀ u : State, ∃ m n, l.foldl (fun s f => s.rollField f) u = { u with fields := m, free := n } := by
    induction l with
    | nil => exact fun u => ⟨u.fields, u.free, rfl⟩
    | cons f l ih =>
      intro u
      obtain ⟨m, n, e⟩ := rollField_only u f
      obtain ⟨m', n', e'⟩ := ih (u.rollField f)
      exact ⟨m', n', by rw [List.foldl_cons, e', e]⟩
  obtain ⟨m, n, e⟩ := hfold (upTo 16) s
  unfold State.rollCounts
  rw [e]
  obtain ⟨x, k, e⟩ := drawUnless_only { s with fields := m, free := n } (s.hbmc.servedNow = 0) 26
  obtain ⟨y, j, e'⟩ := drawUnless_only { s with fields := m, free := k } (s.hbmc.servedNow = 0) 22
  dsimp only
  rw [e]
  dsimp only
  rw [e']
  exact ⟨_, _, _, _, _, _, rfl⟩

theorem sendOn_only (w : WaitFrame) : ∃ c o, s.sendOn w = { s with commons := c, outbox := o } ∧ c.align = s.commons.align := by
  unfold State.sendOn
  dsimp only
  split
  · exact ⟨_, _, rfl, rfl⟩
  · exact ⟨_, _, rfl, rfl⟩

theorem resend_only (w : WaitFrame) : ∃ c o, s.resend w = { s with commons := c, outbox := o } ∧ c.align = s.commons.align := by
  unfold State.resend
  dsimp only
  split
  · exact sendOn_only s w
  · split
    · exact ⟨_, _, rfl, rfl⟩
    · rename_i k _
      obtain ⟨c, o, e, h⟩ := sendOn_only (s.modCommons (fun c => { c with rot := (c.rot + 1) % 4 })) { w with port := k }
      exact ⟨c, o, e, h⟩

/-- Frames that waited go on; the alignment stays. -/
theorem resendAll_only : ∃ c o, s.resendAll = { s with commons := c, outbox := o } ∧ c.align = s.commons.align := by
  have hfold (l : List WaitFrame) : ∀ u : State, ∃ c o, l.foldl State.resend u = { u with commons := c, outbox := o } ∧
      c.align = u.commons.align := by
    induction l with
    | nil => exact fun u => ⟨u.commons, u.outbox, rfl, rfl⟩
    | cons w l ih =>
      intro u
      obtain ⟨c, o, e, h⟩ := resend_only u w
      obtain ⟨c', o', e', h'⟩ := ih (u.resend w)
      exact ⟨c', o', by rw [List.foldl_cons, e', e], by rw [h', e, h]⟩
  unfold State.resendAll
  dsimp only
  exact hfold _ _

/-- Only a member that seeks its reference takes SWN from it (Table 23.3). -/
theorem alignStep_only (h : s.commons.align ≠ 1) (off : Word) : ∃ c, s.alignStep off = { s with commons := c } := by
  unfold State.alignStep
  dsimp only
  split
  · exact ⟨_, rfl⟩
  · split
    case h_1 heq => exact absurd heq h
    case h_2 => split_ifs <;> exact ⟨_, rfl⟩
    case h_3 => split_ifs <;> exact ⟨_, rfl⟩
    case h_4 => split_ifs <;> exact ⟨_, rfl⟩
    case h_5 => exact ⟨_, rfl⟩

theorem holdStep_clock : s.holdStep.clock = s.clock := by
  unfold State.holdStep
  split
  · rfl
  · rfl
theorem retireRow_clock (r : Nat) : (s.retireRow r).clock = s.clock := rfl
theorem epochs_clock : s.epochs.clock = s.clock := by
  unfold State.epochs
  dsimp only
  split <;> split <;> rfl
theorem applyPlan_clock : s.applyPlan.clock = s.clock := by
  unfold State.applyPlan
  split
  · rfl
  · split
    · rfl
    · split
      · rfl
      · rfl
theorem openAdmission_clock : s.openAdmission.clock = s.clock := by
  unfold State.openAdmission
  dsimp only
  split
  · rfl
  · rfl

/-- What a new swath brings beside its number; a member that seeks its reference is left out. -/
theorem newSwath_clock (h : s.commons.align ≠ 1) (off : Word) (r : Nat) :
    (((((s.rollCounts.resendAll.alignStep off).holdStep).retireRow r).epochs).applyPlan).openAdmission.clock = s.clock := by
  obtain ⟨m, a, c, p, x, n, e⟩ := rollCounts_only s
  obtain ⟨c', o, e', h'⟩ := resendAll_only s.rollCounts
  have hal : s.rollCounts.resendAll.commons.align ≠ 1 := by rw [e', h', e]; exact h
  obtain ⟨d, e''⟩ := alignStep_only s.rollCounts.resendAll hal off
  rw [openAdmission_clock, applyPlan_clock, epochs_clock, retireRow_clock, holdStep_clock, e'', e', e]
  rfl

/-- A request of the host window reaches HBM, its counters, the collector and the requester. -/
theorem bar2Do_clock (r : Bool × Nat × Nat × Bytes) : (s.bar2Do r).clock = s.clock := by
  unfold State.bar2Do
  dsimp only
  split
  · split
    · rfl
    · obtain ⟨m, n, e⟩ := hbmWrite_only { s with hostif := { s.hostif with winUsed := s.hostif.winUsed + r.2.2.1 } } r.2.1
        (fitB r.2.2.2 r.2.2.1)
      rw [e]
      rfl
  · obtain ⟨k, l, e⟩ := fencedReads_only
      (State.countReqs { s with hostif := { s.hostif with winUsed := s.hostif.winUsed + r.2.2.1 } } (reqs r.2.1 r.2.2.1)) (r.2.1 / 64)
      (reqs r.2.1 r.2.2.1)
    simp only [State.hbmRead, e]
    rfl

theorem releaseBar2_clock (l : List (Bool × Nat × Nat × Bytes)) (s : State) : (releaseBar2 l s).clock = s.clock := by
  induction l generalizing s with
  | nil => rfl
  | cons r l ih =>
    unfold releaseBar2
    split
    · rfl
    · rw [ih, bar2Do_clock]

/-- The timebase after a boundary. -/
theorem boundary_clock (h : s.commons.align ≠ 1) (off : Word) :
    (s.boundary off).clock = (s.glob.swn + 1, true, 0, s.tamper, s.life) := by
  unfold State.boundary
  rw [releaseBar2_clock]
  dsimp only
  split
  · rfl
  · exact newSwath_clock { s with
      glob := { s.glob with swn := s.glob.swn + 1, inHeadland := true, offset := 0 }
      hostif := { s.hostif with winUsed := 0 } } h off _

end

/-- Settles O8: everything that a boundary brings beside SWN and the headland leaves them alone, but for a member that seeks its
reference. -/
theorem swathBoundaryAdvances : Obligations.SwathBoundaryAdvances := by
  unfold Obligations.SwathBoundaryAdvances
  refine ⟨?boundary, ?enabled, ?disabled⟩
  case boundary =>
    intro s off hup htimer halign
    have h := boundary_clock s halign off
    simp only [State.clock, Prod.mk.injEq] at h
    exact ⟨_, (whenUp_of_up hup _).trans (by rw [if_pos htimer]), h⟩
  case enabled =>
    intro s hrun hbit
    exact (whenRun_of_running hrun _).trans (by rw [if_pos hbit])
  case disabled =>
    intro s hrun hbit
    exact (whenRun_of_running hrun _).trans (by rw [if_neg (by simp [hbit])])

end Sys2Proof.Machine
end

section
/-! The link's statement (Table 22.2, R85, R412, R517): what a link up sends out leaves jobs and keys alone. -/

namespace Sys2Proof.Machine

section

variable (s : State)

/-! ## Reports of a source that fences nothing -/

/-- A report of a source that does not fence is not held back (R407). -/
theorem raise_open {n : Nat} {k : FaultKind} (hk : faultKind n = some k) (hf : k.fence = false) (u : BitVec 16) (d0 d1 : Nat) :
    s.raise n u d0 d1 = { s with faults := { s.faults with reports := s.faults.reports ++
      [{ source := Fin.ofNat 512 n, unit := u, detail0 := BitVec.ofNat 64 d0, detail1 := BitVec.ofNat 64 d1 }] } } := by
  have hopen : s.fencedAlready n u = false := by simp [State.fencedAlready, hk, hf]
  simp [State.raise, hk, hopen]

/-! ## The link up -/

/-- What PCIE_LINK_UP is about: the link, the records that wait for it, its cause, and what it leaves alone. -/
def State.linkView := (s.hostif.linkUp, s.hostif.latePost, s.faults.live.getLsbD 473, s.adm, s.keys, s.cfg)

/-- The parity sources are below 69. -/
theorem checkParity_linkView (a : Nat) : (s.checkParity a).linkView = s.linkView := by
  have hb := blockOf_le a
  unfold State.checkParity
  split
  · rw [raise_block s a (by decide)]
    unfold State.linkView
    rw [setCause_live _ (by omega), decide_eq_false (by omega), Bool.or_false]
    rfl
  · rfl

theorem uses_linkView (as : List Nat) : (s.uses as).linkView = s.linkView := by
  unfold State.uses
  split
  · rfl
  · exact foldl_keeps checkParity_linkView as s

theorem msix_linkView (fn v : Nat) : (s.msix fn v).linkView = s.linkView := by
  obtain ⟨p, o, e, -⟩ := msix_only s fn v
  rw [e]
  rfl

theorem cqSignal_linkView (n q : Nat) : (s.cqSignal n q).linkView = s.linkView := by
  unfold State.cqSignal
  dsimp only
  split
  · split <;> rfl
  · exact msix_linkView _ _ _

theorem memWrite_linkView (host : Bool) (a : Nat) (b : Bytes) : (s.memWrite host a b).linkView = s.linkView := by
  obtain ⟨m, k, n, l, e⟩ := memWrite_only s host a b
  rw [e]
  rfl

theorem cqWrite_linkView (n q : Nat) (r : Bytes) : (s.cqWrite n q r).linkView = s.linkView := by
  have hu : (s.uses (cqWords n q)).linkView = s.linkView := uses_linkView s _
  cases hon : bit ((s.uses (cqWords n q)).cfgN (cqCfgA n q)) 31 with
  | false => rw [cqWrite_off rfl hon r, hu]
  | true =>
    obtain ⟨t, x, ht, e⟩ := cqWrite_on rfl hon r
    have hw : t.linkView = s.linkView := by
      rw [ht]
      exact (memWrite_linkView _ _ _ _).trans hu
    rcases e with e | e
    · rw [e, hw]
    · rw [e, cqSignal_linkView, hw]

/-- With the link up, no record is put to wait for it. -/
theorem post_linkView (h : s.hostif.linkUp = true) (n q d : Nat) (r : Bytes) : (s.post n q d r).linkView = s.linkView := by
  unfold State.post
  rw [h, Bool.not_true, Bool.and_false]
  split
  · rfl
  · exact cqWrite_linkView s n q r

theorem linkUp_of_linkView {s t : State} (h : t.linkView = s.linkView) : t.hostif.linkUp = s.hostif.linkUp := congrArg Prod.fst h

theorem postAll_linkView (f : State → Nat × Nat × Nat × Bytes → Bytes) (l : List (Nat × Nat × Nat × Bytes)) :
    ∀ u : State, u.hostif.linkUp = true → (l.foldl (fun s e => s.post e.1 e.2.1 e.2.2.1 (f s e)) u).linkView = u.linkView := by
  induction l with
  | nil => exact fun _ _ => rfl
  | cons e l ih =>
    intro u hu
    have h := post_linkView u hu e.1 e.2.1 e.2.2.1 (f u e)
    exact (ih _ ((linkUp_of_linkView h).trans hu)).trans h

theorem postLate_linkView (h : s.hostif.linkUp = true) :
    s.postLate.linkView = ({ s with hostif := { s.hostif with latePost := [] } } : State).linkView :=
  postAll_linkView (fun s e => if s.swnN > e.2.2.1 then lateFlag e.2.2.2 else e.2.2.2) _ _ h

theorem sendHeld_linkView (n : Nat) : (s.sendHeld n).linkView = s.linkView := by
  refine foldl_keeps (fun u q => ?_) _ s
  dsimp only
  split
  · exact msix_linkView _ _ _
  · rfl

theorem sendAllHeld_linkView : s.sendAllHeld.linkView = s.linkView := by
  unfold State.sendAllHeld
  split
  · rfl
  · exact foldl_keeps (f := fun u (e : Nat × Inst) => u.sendHeld e.1) (g := State.linkView) (fun u e => sendHeld_linkView u e.1) _ s

theorem setCause_false_live (n : Nat) (hn : n < 512) : (s.setCause n false).faults.live.getLsbD n = false := by
  show (s.faults.live &&& ~~~(BitVec.ofNat 512 (2 ^ n))).getLsbD n = false
  rw [BitVec.getLsbD_and, BitVec.getLsbD_not, BitVec.getLsbD_ofNat, Nat.testBit_two_pow]
  simp [hn]

/-! ## A read that ends in error (R517) -/

/-- A read of bytes for which an error completion is armed gives 0xFF in each of them. -/
theorem hostRead_armed (a len : Nat) (hup : s.hostif.linkUp = true) (harm : (a, len) ∈ s.hostif.dmaErr) :
    (s.hostRead a len).1 = List.replicate len 0xFF#8 := by
  have hhit (i : Nat) (hi : i < len) : (s.errHits false a len).any (fun r => overlaps (a + i) 1 r.1 r.2) = true := by
    refine List.any_eq_true.2 ⟨(a, len), List.mem_filter.2 ⟨harm, ?_⟩, ?_⟩
    · simp [overlaps, b2n]
      omega
    · simp [overlaps]
      omega
  unfold State.hostRead
  rw [hup]
  refine List.ext_getElem (by simp [upTo]) fun i h₁ h₂ => ?_
  simp [upTo] at h₁
  simp [upTo, hhit i h₁]

theorem foldl_raise_reports {α : Type} (n : Nat) {k : FaultKind} (hk : faultKind n = some k) (hf : k.fence = false) (l : List α) :
    ∀ u : State, l ≠ [] ∨ (∃ r ∈ u.faults.reports, r.source = Fin.ofNat 512 n) →
      ∃ r ∈ (l.foldl (fun s _ => s.raise n 0 0 0) u).faults.reports, r.source = Fin.ofNat 512 n := by
  induction l with
  | nil => exact fun u h => h.resolve_left (fun h => h rfl)
  | cons x l ih =>
    intro u _
    refine ih _ (.inr ?_)
    dsimp only
    rw [raise_open u hk hf]
    exact ⟨_, List.mem_append_right _ (List.mem_singleton_self _), rfl⟩

theorem hostRead_reports (a len : Nat) (hup : s.hostif.linkUp = true) (harm : (a, len) ∈ s.hostif.dmaErr) (hlen : 0 < len) :
    ∃ r ∈ (s.hostRead a len).2.faults.reports, r.source = 472 := by
  have hhit : (a, len) ∈ s.errHits false a len := by
    refine List.mem_filter.2 ⟨harm, ?_⟩
    simp [overlaps, b2n]
    omega
  unfold State.hostRead
  rw [hup]
  exact foldl_raise_reports 472 (k := _) rfl rfl _ _ (.inl (List.ne_nil_of_mem hhit))

end

/-- Settles O33: LINK_DOWN is one report and its cause; what the link brings out as it comes up writes records and signals alone. -/
theorem linkKeepsDeviceState : Obligations.LinkKeepsDeviceState := by
  unfold Obligations.LinkKeepsDeviceState
  refine ⟨?down, ?up, ?armed, ?read⟩
  case down =>
    intro s hup
    refine ⟨_, whenUp_of_up hup _, ?_⟩
    dsimp only
    rw [raise_open _ (n := 473) rfl rfl]
    refine ⟨rfl, rfl, rfl, rfl, rfl, ?_, ⟨_, List.mem_append_right _ (List.mem_singleton_self _), rfl⟩, rfl, rfl, rfl, rfl, rfl, rfl⟩
    rw [setCause_live _ (by decide)]
    simp
  case up =>
    intro s hup
    refine ⟨_, whenUp_of_up hup _, ?_⟩
    have h := (sendAllHeld_linkView _).trans
      (postLate_linkView (({ s with hostif := { s.hostif with linkUp := true } } : State).setCause 473 false) rfl)
    simp only [State.linkView, Prod.mk.injEq] at h
    obtain ⟨hlink, hlate, hcause, hadm, hkeys, hcfg⟩ := h
    exact ⟨hlink, hlate, hcause.trans (setCause_false_live _ 473 (by decide)), hadm, hkeys, hcfg⟩
  case armed =>
    intro s w a len hup
    exact whenUp_of_up hup _
  case read =>
    intro s a len hup hlink ha hlen
    refine ⟨_, whenUp_of_up hup _, ?_⟩
    have harm : (a, len) ∈ s.hostif.dmaErr ++ [(a % 2 ^ 64 + b2n false * 2 ^ 64, len)] := by
      rw [Nat.mod_eq_of_lt ha]
      exact List.mem_append_right _ (List.mem_singleton_self _)
    exact ⟨hostRead_armed _ a len hlink harm, hostRead_reports _ a len hlink harm hlen⟩

end Sys2Proof.Machine
end

section
/-! The statement of the queues and the fetch (R66, R367–R369, R452). -/

namespace Sys2Proof.Machine

section

variable (s : State)

/-! ## A check of configuration words changes no word and no queue -/

@[simp] theorem uses_cfgN (as : List Nat) (a : Nat) : (s.uses as).cfgN a = s.cfgN a := by
  obtain ⟨l, c, e⟩ := uses_only (s := s) as
  rw [e]
  rfl
@[simp] theorem uses_inst (as : List Nat) (n : Nat) : (s.uses as).inst n = s.inst n := by
  obtain ⟨l, c, e⟩ := uses_only (s := s) as
  rw [e]
  rfl
@[simp] theorem uses_sqOn (as : List Nat) (n q : Nat) : (s.uses as).sqOn n q = s.sqOn n q := by simp [State.sqOn]
@[simp] theorem uses_cqOn (as : List Nat) (n q : Nat) : (s.uses as).cqOn n q = s.cqOn n q := by simp [State.cqOn]
@[simp] theorem uses_sqSize (as : List Nat) (n q : Nat) : (s.uses as).sqSize n q = s.sqSize n q := by simp [State.sqSize]

/-! ## Doorbells (R368) -/

theorem sqDoorbell_on {n q : Nat} (hon : s.sqOn n q = true) (v : Nat) (hlt : v % 4096 < s.sqSize n q)
    (hahead : (((s.inst n).sq q).tail + s.sqSize n q - ((s.inst n).sq q).head) % s.sqSize n q ≤
      (v % 4096 + s.sqSize n q - ((s.inst n).sq q).head) % s.sqSize n q) :
    s.sqDoorbell n q v = (s.uses [sqCfgA n q]).modInst n (fun i => i.setSq q { (s.inst n).sq q with tail := v % 4096 }) := by
  simp only [State.sqDoorbell, uses_sqOn, uses_sqSize, uses_inst, hon, Bool.not_true, Bool.false_eq_true, if_false]
  exact if_pos ⟨hlt, hahead⟩

theorem sqDoorbell_off {n q : Nat} (hoff : s.sqOn n q = false) (v : Nat) : s.sqDoorbell n q v = s.uses [sqCfgA n q] := by
  simp [State.sqDoorbell, hoff]

theorem cqDoorbell_eq (n q v : Nat) : s.cqDoorbell n q v =
    if s.cqOn n q then (s.uses [cqCfgA n q]).modInst n (fun i => i.setCq q { i.cq q with head := v % 65536 })
    else s.uses [cqCfgA n q] := by
  cases h : s.cqOn n q
  · simp [State.cqDoorbell, h]
  · simp [State.cqDoorbell, h]

/-! ## Enables (R367) -/

/-- A queue's configuration word with EN as given. -/
def enWord (w : Word) (en : Bool) : Word := (w &&& 0x7FFFFFFF#32) ||| (if en then 0x80000000#32 else 0#32)

theorem enWord_bit31 (w : Word) (en : Bool) : (enWord w en).getLsbD 31 = en := by
  cases en
  · simp [enWord]
  · simp [enWord]

/-- Only EN changes. -/
theorem enWord_rest (w : Word) (en : Bool) : (w ^^^ enWord w en) &&& 0x7FFFFFFF#32 = 0#32 := by
  have he : (if en then 0x80000000#32 else 0#32) &&& 0x7FFFFFFF#32 = 0#32 := by cases en <;> decide
  refine BitVec.eq_of_getLsbD_eq fun i _ => ?_
  have hi := congrArg (·.getLsbD i) he
  simp only [BitVec.getLsbD_and] at hi
  simp only [enWord, BitVec.getLsbD_and, BitVec.getLsbD_xor, BitVec.getLsbD_or]
  cases hm : (0x7FFFFFFF#32).getLsbD i
  · simp
  · rw [hm, Bool.and_true] at hi
    simp [hi]

/-- The address of a queue's configuration word. -/
def queueCfgA (cq : Bool) (n q : Nat) : Nat := if cq then cqCfgA n q else sqCfgA n q

/-- A change of EN alone, not cleared under outstanding jobs, is one that Table 25.3 does not leave unchecked. -/
theorem cfgUnchecked_enWord (cq : Bool) (n q : Nat) (en : Bool) (hbusy : cq = true → en = false → s.cqBusy n q = false) :
    s.cfgUnchecked cq n q (enWord (s.cfgW (queueCfgA cq n q)) en) = false := by
  unfold State.cfgUnchecked
  dsimp only
  rw [show (if cq then cqCfgA n q else sqCfgA n q) = queueCfgA cq n q from rfl, enWord_rest, enWord_bit31]
  cases cq
  · simp
  · cases en
    · simp [hbusy]
    · simp

/-- A queue's enable stored: its indices start anew as EN goes to 1. -/
theorem setQueueCfg_enWord (cq : Bool) (n q : Nat) (en : Bool) (hbusy : cq = true → en = false → s.cqBusy n q = false) :
    let a := queueCfgA cq n q
    let t := (s.setCfg a (enWord (s.cfgW a) en)).rewritten a
    s.setQueueCfg cq n q (enWord (s.cfgW a) en) =
      if (s.cfgW a).getLsbD 31 = false ∧ en = true then
        if cq then t.modInst n (fun i => i.setCq q { i.cq q with tail := 0, head := 0, phase := true, count := 0 })
        else t.modInst n (fun i => i.setSq q Sq.init)
      else t := by
  intro a t
  unfold State.setQueueCfg
  dsimp only
  rw [cfgUnchecked_enWord s cq n q en hbusy, enWord_bit31, State.cfgN, bit_toNat]
  cases hold : (s.cfgW a).getLsbD 31 <;> cases en <;> simp [a, t, queueCfgA] at hold ⊢ <;> simp [hold]

/-! ## The fetch (R369) -/

/-- The descriptor that the fetch takes, as its memory holds it. -/
def State.nextDesc (n q : Nat) : Bytes :=
  let a := s.cfgN (sqCfgA n q - 8) + 2 ^ 32 * s.cfgN (sqCfgA n q - 4) + 128 * ((s.inst n).sq q).head
  if bit (s.cfgN (sqCfgA n q)) 16 then s.hostPeek a 128 else s.hbmPeek a 128

/-- A queue whose oldest entry was taken. -/
def State.fetched (n q : Nat) : State :=
  s.modInst n (fun v => v.setSq q { (s.inst n).sq q with head := (((s.inst n).sq q).head + 1) % s.sqSize n q })

theorem genOf_fetched (h : mwf Inst.init s.insts = true) (n q : Nat) : (s.fetched n q).genOf n = s.genOf n := by
  simp only [State.genOf, State.fetched, inst_modInst_same h]
  rfl

/-- A read of a descriptor supplies its bytes and touches counters and reports alone. -/
theorem descRead_only (host : Bool) (a n : Nat) : ∃ f b, (if host = true then (s.hostPeek a n, s) else s.hbmRead a n) =
    (if host = true then s.hostPeek a n else s.hbmPeek a n, { s with faults := f, hbmc := b }) := by
  cases host
  · obtain ⟨k, l, e⟩ := fencedReads_only (s.countReqs (reqs a n)) (a / 64) (reqs a n)
    exact ⟨_, _, congrArg (Prod.mk _) e⟩
  · exact ⟨s.faults, s.hbmc, rfl⟩

/-- The fetch takes the queue's oldest entry into the inlet; beside that it reads. -/
theorem fetchFrom_only (h : mwf Inst.init s.insts = true) (i : Nat) : ∃ f b, s.fetchFrom i =
    { s with
      faults := f, hbmc := b
      insts := (s.fetched (i / 8) (i % 8)).insts
      adm := { s.adm with
        inlet := s.adm.inlet ++ [{ inst := i / 8, sq := i % 8, gen := s.genOf (i / 8), desc := s.nextDesc (i / 8) (i % 8) }]
        turn := i + 1 } } := by
  rw [← genOf_fetched s h (i / 8) (i % 8)]
  unfold State.fetchFrom
  obtain ⟨l, c, hu⟩ := uses_only (s := s) [sqCfgA (i / 8) (i % 8) - 8, sqCfgA (i / 8) (i % 8) - 4, sqCfgA (i / 8) (i % 8)]
  dsimp only
  generalize s.uses _ = u at hu ⊢
  obtain ⟨f, b, e⟩ := descRead_only u (bit (u.cfgN (sqCfgA (i / 8) (i % 8))) 16)
    (u.cfgN (sqCfgA (i / 8) (i % 8) - 8) + 2 ^ 32 * u.cfgN (sqCfgA (i / 8) (i % 8) - 4) +
      128 * ((u.inst (i / 8)).sq (i % 8)).head) 128
  rw [e]
  subst hu
  exact ⟨f, b, rfl⟩

end

/-- Settles O30: each doorbell checks the word it uses; an enable changes EN alone; the fetch takes the oldest entry. -/
theorem queuesAndFetch : Obligations.QueuesAndFetch := by
  unfold Obligations.QueuesAndFetch
  refine ⟨?tail, ?tailOff, ?head, ?enable, ?fetch, ?noFetch⟩
  case tail =>
    intro s n q v hrun hon hlt hahead
    exact (whenRun_of_running hrun _).trans (congrArg _ (sqDoorbell_on s hon v.toNat hlt hahead))
  case tailOff =>
    intro s n q v hrun hoff
    exact (whenRun_of_running hrun _).trans (congrArg _ (sqDoorbell_off s hoff v.toNat))
  case head =>
    intro s n q v hrun
    exact (whenRun_of_running hrun _).trans (congrArg _ (cqDoorbell_eq s n.val q.val v.toNat))
  case enable =>
    intro s who n cq q en hrun hwf hreach hsqs hcqs hbusy a
    obtain ⟨hcfg, -, -, -, -, -, hinsts⟩ := tablesWf_iff.1 hwf
    refine ⟨_, (whenRun_of_running hrun _).trans (congrArg _ ((if_pos hreach).trans (setQueueCfg_enWord s cq n.val q.val en hbusy))), ?_⟩
    have hword (b : Nat) := cfgW_setCfg hcfg a b (enWord (s.cfgW a) en)
    have hsame := (hword a).trans (if_pos rfl)
    have hother (b : Nat) (hb : b ≠ a) := (hword b).trans (if_neg hb)
    obtain ⟨p, v, c, e, -⟩ := rewritten_only (s.setCfg a (enWord (s.cfgW a) en)) a
    dsimp only
    rw [show queueCfgA cq n.val q.val = a from rfl]
    generalize (s.setCfg a (enWord (s.cfgW a) en)).rewritten a = u at e ⊢
    have hu : mwf Inst.init u.insts = true := by rw [e]; exact hinsts
    have hinst : u.inst n.val = s.inst n.val := by rw [e]; rfl
    have hkept : (∀ b, u.cfgW b = (s.setCfg a (enWord (s.cfgW a) en)).cfgW b) ∧ u.adm = s.adm ∧ u.hbm = s.hbm ∧ u.keys = s.keys := by
      rw [e]
      exact ⟨fun _ => rfl, rfl, rfl, rfl⟩
    obtain ⟨hcfgW, hadm, hhbm, hkeys⟩ := hkept
    replace hsame := (hcfgW a).trans hsame
    replace hother (b : Nat) (hb : b ≠ a) := (hcfgW b).trans (hother b hb)
    split
    · cases cq
      · refine ⟨hsame, hother, hadm, hhbm, hkeys, fun _ _ => ⟨fun _ => ?_, nofun⟩⟩
        rw [if_neg (by decide), inst_modInst_same hu, hinst]
        exact mget_mput_same (k := q.val) (v := Sq.init) hsqs
      · refine ⟨hsame, hother, hadm, hhbm, hkeys, fun _ _ => ⟨nofun, fun _ => ?_⟩⟩
        rw [if_pos rfl, inst_modInst_same hu, hinst]
        have hcq := mget_mput_same (k := q.val) (v := { (s.inst n.val).cq q.val with tail := 0, head := 0, phase := true, count := 0 }) hcqs
        exact ⟨congrArg Cq.head hcq, congrArg Cq.tail hcq, congrArg Cq.phase hcq⟩
    · rename_i hrise
      exact ⟨hsame, hother, hadm, hhbm, hkeys, fun hen hold => absurd ⟨hold, hen⟩ hrise⟩
  case fetch =>
    intro s i hrun hwf hroom hps hnext hsqs c a d
    obtain ⟨-, -, -, -, -, -, hinsts⟩ := tablesWf_iff.1 hwf
    obtain ⟨f, b, e⟩ := fetchFrom_only s hinsts i
    have hhead : ((s.fetched (i / 8) (i % 8)).inst (i / 8)).sq (i % 8) = { (s.inst (i / 8)).sq (i % 8) with
        head := (((s.inst (i / 8)).sq (i % 8)).head + 1) % s.sqSize (i / 8) (i % 8) } := by
      rw [State.fetched, inst_modInst_same hinsts]
      exact mget_mput_same hsqs
    have hopen : ¬(s.adm.inlet.length ≥ 1024 || s.power.state ≥ 3) = true := by simp; omega
    refine ⟨s.fetchFrom i, (whenRun_of_running hrun _).trans (congrArg _ (by rw [if_neg hopen, hnext])), ?_⟩
    rw [e]
    exact ⟨rfl, (congrArg Sq.head hhead :), (congrArg Sq.tail hhead :), rfl, rfl, rfl⟩
  case noFetch =>
    intro s hrun h
    refine (whenRun_of_running hrun _).trans (congrArg _ ?_)
    split
    · rfl
    · rename_i hopen
      simp only [Bool.or_eq_true, decide_eq_true_eq, not_or, not_le] at hopen
      rw [(h.resolve_left (by omega)).resolve_left (by omega)]

end Sys2Proof.Machine
end

section
/-! The statement of the power commands (R81, R449, R452). -/

namespace Sys2Proof.Machine

section

variable (s : State)

/-! ## Fields whose power a command takes -/

/-- Fields that each lose their power: of the state only the fields change. -/
theorem modFields_unpowered (g : State → Field → Field) (hg : ∀ u x, (g u x).powered = false) (l : List Nat) :
    ∀ u : State, mwf (fun _ => Field.init) u.fields = true → ∃ m, l.foldl (fun s f => s.modField f (g s)) u = { u with fields := m } ∧
      mwf (fun _ => Field.init) m = true ∧
      ∀ f, f ∈ l ∨ (u.field f).powered = false → (mget (fun _ => Field.init) m f).powered = false := by
  induction l with
  | nil => exact fun u hu => ⟨u.fields, rfl, hu, fun f h => h.resolve_left (List.not_mem_nil)⟩
  | cons k l ih =>
    intro u hu
    obtain ⟨m, e, hm, hoff⟩ := ih (u.modField k (g u)) (mwf_mput hu)
    refine ⟨m, e, hm, fun f hf => hoff f ?_⟩
    have hget : (u.modField k (g u)).field f = if f = k then g u (u.field k) else u.field f := field_setField hu k f _
    rw [hget]
    by_cases hk : f = k
    · exact .inr (by rw [if_pos hk, hg])
    · rw [if_neg hk]
      exact hf.imp_left fun h => (List.mem_cons.1 h).resolve_left hk

theorem fieldsDown_only (h : mwf (fun _ => Field.init) s.fields = true) (off gate : List Nat) : ∃ m p,
    s.fieldsDown off gate = { s with fields := m, power := p } ∧
      ∀ f, f ∈ off ∨ f ∈ gate → (mget (fun _ => Field.init) m f).powered = false := by
  unfold State.fieldsDown
  dsimp only
  obtain ⟨m, e, hm, hoff⟩ := modFields_unpowered (fun u x => { x with
    powered := false, planes := [], loading := none, slices := [], clean := false, active := false, seals := [], ringDest := []
    lookahead := false, ahead := Ahead.none, banks := (upTo 40).foldl (fun m b => cput m b (1024 * u.free + 1023)) x.banks })
    (fun _ _ => rfl) off s h
  obtain ⟨m', e', -, hgate⟩ := modFields_unpowered (fun _ x => { x with powered := false }) (fun _ _ => rfl) gate { s with fields := m } hm
  refine ⟨m', _, by rw [e, e']; rfl, fun f hf => hgate f ?_⟩
  exact hf.symm.imp_right fun hf => hoff f (.inl hf)

/-- The fields as a power command switches them. -/
def State.pwrSwitched (w : Word) : State :=
  match pwrTarget w with
  | 0 => s.fieldsUp (upTo 16)
  | 1 => (s.fieldsUp ((upTo 16).filter (fun f => bit (pwrFields w) f))).fieldsDown (pwrNames w) []
  | 2 => s.fieldsDown [] (upTo 16)
  | _ => s.fieldsDown [] (upTo 16)

/-- What a power command makes of the state once its fields are switched. -/
theorem pwrEffect_eq (w : Word) : s.pwrEffect w =
    (let u := (s.pwrSwitched w).modPower (fun p => { p with
        state := min 4 (pwrTarget w), drain := none, cmdSwn := (s.pwrSwitched w).glob.swn
        entering := if min 4 (pwrTarget w) ≥ 3 then some (min 4 (pwrTarget w)) else none
        leaving := (decide (s.power.state ≥ 3) && decide (min 4 (pwrTarget w) < 3)) || (p.leaving && decide (min 4 (pwrTarget w) < 3)) })
     (if (decide (s.power.state ≥ 3) && decide (min 4 (pwrTarget w) < 3)) = true then
        { u with ctrl := { u.ctrl with halted := u.ctrl.halted.filter (fun c => decide (c ≥ 12)) } } else u).pendSrc 899) := rfl

theorem pwrSwitched_only (h : mwf (fun _ => Field.init) s.fields = true) (w : Word) : ∃ m p,
    s.pwrSwitched w = { s with fields := m, power := p } ∧
      ∀ f, f < 16 → f ∈ pwrNames w → (mget (fun _ => Field.init) m f).powered = false := by
  unfold State.pwrSwitched
  have hall (f : Nat) (hf : f < 16) : f ∈ upTo 16 := List.mem_range.2 hf
  split
  case h_1 ht => exact ⟨s.fields, _, rfl, fun f _ hf => by simp [pwrNames, ht] at hf⟩
  case h_2 ht =>
    obtain ⟨m, p, e, hoff⟩ := fieldsDown_only (s.fieldsUp ((upTo 16).filter (fun f => bit (pwrFields w) f))) h (pwrNames w) []
    exact ⟨m, p, e, fun f _ hf => hoff f (.inl hf)⟩
  case h_3 =>
    obtain ⟨m, p, e, hoff⟩ := fieldsDown_only s h [] (upTo 16)
    exact ⟨m, p, e, fun f hf _ => hoff f (.inr (hall f hf))⟩
  case h_4 =>
    obtain ⟨m, p, e, hoff⟩ := fieldsDown_only s h [] (upTo 16)
    exact ⟨m, p, e, fun f hf _ => hoff f (.inr (hall f hf))⟩

/-- A power command's effect (R449): its target stands and source 899 is pending; fields it takes away are off. -/
theorem pwrEffect_only (h : mwf (fun _ => Field.init) s.fields = true) (w : Word) : ∃ m p c l,
    s.pwrEffect w = { s with fields := m, power := p, ctrl := c, intc := { s.intc with pend := l } } ∧
      p.state = min 4 (pwrTarget w) ∧ p.drain = none ∧ p.cmdSwn = s.glob.swn ∧ 899 ∈ l ∧
      ∀ f, f < 16 → f ∈ pwrNames w → (mget (fun _ => Field.init) m f).powered = false := by
  obtain ⟨m, p, e, hoff⟩ := pwrSwitched_only s h w
  rw [pwrEffect_eq, e]
  dsimp only
  split
  · obtain ⟨l, e', hl⟩ := pendSrc_pending _ (n := 899) rfl
    exact ⟨m, _, _, l, e', rfl, rfl, rfl, hl, hoff⟩
  · obtain ⟨l, e', hl⟩ := pendSrc_pending _ (n := 899) rfl
    exact ⟨m, _, s.ctrl, l, e', rfl, rfl, rfl, hl, hoff⟩

/-! ## Cores that halt -/

theorem dropStack_only (t : Nat) : ∃ i k, s.dropStack t = { s with intc := i, tasks := k } := by
  have hact (l : List (Nat × Nat)) : ∀ u : State, ∃ i, l.foldl (fun s e =>
      ({ s with intc := { s.intc with active := cput s.intc.active e.1 0 } } : State)) u = { u with intc := i } := by
    induction l with
    | nil => exact fun u => ⟨u.intc, rfl⟩
    | cons e l ih => exact fun u => ih _
  have hreq (l : List Nat) : ∀ u : State, ∃ k, l.foldl (fun s k => s.requeue k) u = { u with tasks := k } := by
    induction l with
    | nil => exact fun u => ⟨u.tasks, rfl⟩
    | cons e l ih => exact fun u => ih _
  unfold State.dropStack
  obtain ⟨i, e⟩ := hact (s.stack t) s
  rw [e]
  obtain ⟨k, e'⟩ := hreq ((({ s with intc := i } : State).setStack t []).running? t) (({ s with intc := i } : State).setStack t [])
  dsimp only
  rw [e']
  exact ⟨_, _, rfl⟩

/-- A core that halts is among the halted; those that were stay so. -/
theorem haltCore_only (t : Nat) : ∃ i k c, s.haltCore t = { s with intc := i, tasks := k, ctrl := c } ∧
    t ∈ c.halted ∧ ∀ x ∈ s.ctrl.halted, x ∈ c.halted := by
  unfold State.haltCore
  split
  · rename_i h
    exact ⟨s.intc, s.tasks, s.ctrl, rfl, by simpa using h, fun _ h => h⟩
  · obtain ⟨i, k, e⟩ := dropStack_only s t
    rw [e]
    exact ⟨i, k, _, rfl, by simp, fun x hx => by simp [hx]⟩

theorem haltCores_only (l : List Nat) : ∀ u : State, ∃ i k c, l.foldl (fun s c => s.haltCore c) u =
    { u with intc := i, tasks := k, ctrl := c } ∧ ∀ x, x ∈ l ∨ x ∈ u.ctrl.halted → x ∈ c.halted := by
  induction l with
  | nil => exact fun u => ⟨u.intc, u.tasks, u.ctrl, rfl, fun x h => h.resolve_left List.not_mem_nil⟩
  | cons t l ih =>
    intro u
    obtain ⟨i, k, c, e, ht, hc⟩ := haltCore_only u t
    obtain ⟨i', k', c', e', hc'⟩ := ih (u.haltCore t)
    refine ⟨i', k', c', by rw [List.foldl_cons, e', e], fun x hx => hc' x ?_⟩
    rw [e]
    rcases hx with hx | hx
    · rcases List.mem_cons.1 hx with rfl | hx
      · exact .inr ht
      · exact .inl hx
    · exact .inr (hc x hx)

/-! ## Marks and commits that become durable (R167, R348) -/

theorem markCopies_only (n m : Nat) : ∃ k, s.markCopies n m = { s with keys := k } ∧ k.commits.length = s.keys.commits.length :=
  ⟨_, rfl, List.length_map _⟩

theorem markDurable_only (n : Nat) : ∃ k, s.markDurable n = { s with keys := k } ∧ k.commits.length = s.keys.commits.length := by
  unfold State.markDurable
  split
  · exact ⟨s.keys, rfl, rfl⟩
  · exact markCopies_only (s.modSlot n _) n _

theorem marksDurable_only (n j : Nat) : ∃ k, s.marksDurable n j = { s with keys := k } ∧ k.commits.length = s.keys.commits.length := by
  induction j generalizing s with
  | zero => exact ⟨s.keys, rfl, rfl⟩
  | succ j ih =>
    obtain ⟨k, e, hk⟩ := markDurable_only s n
    obtain ⟨k', e', hk'⟩ := ih (s.markDurable n)
    exact ⟨k', by rw [State.marksDurable, e', e], by rw [hk', e, ← hk]⟩

theorem allMarks_only : ∃ k, s.allMarks = { s with keys := k } ∧ k.commits.length = s.keys.commits.length := by
  have hfold (l : List (Nat × KSlot)) : ∀ u : State, ∃ k, l.foldl (fun s e => s.marksDurable e.1 e.2.markPend.length) u =
      { u with keys := k } ∧ k.commits.length = u.keys.commits.length := by
    induction l with
    | nil => exact fun u => ⟨u.keys, rfl, rfl⟩
    | cons e l ih =>
      intro u
      obtain ⟨k, h, hk⟩ := marksDurable_only u e.1 e.2.markPend.length
      obtain ⟨k', h', hk'⟩ := ih (u.marksDurable e.1 e.2.markPend.length)
      exact ⟨k', by rw [List.foldl_cons, h', h], by rw [hk', h, ← hk]⟩
  exact hfold _ s

theorem firstMark_only (e : Nat × KSlot) : ∃ k, s.firstMark e = { s with keys := k } ∧ k.commits.length = s.keys.commits.length := by
  unfold State.firstMark
  split
  · exact ⟨s.keys, rfl, rfl⟩
  · obtain ⟨k, h, hk⟩ := markCopies_only s e.1 e.2.markFirst
    rw [h]
    exact ⟨_, rfl, hk⟩

theorem firstMarks_only (l : List (Nat × KSlot)) : ∀ u : State, ∃ k, l.foldl State.firstMark u = { u with keys := k } ∧
    k.commits.length = u.keys.commits.length := by
  induction l with
  | nil => exact fun u => ⟨u.keys, rfl, rfl⟩
  | cons e l ih =>
    intro u
    obtain ⟨k, h, hk⟩ := firstMark_only u e
    obtain ⟨k', h', hk'⟩ := ih (u.firstMark e)
    exact ⟨k', by rw [List.foldl_cons, h', h], by rw [hk', h, ← hk]⟩

/-- The oldest commit leaves the list. -/
theorem durableOne_only : ∃ k b, s.durableOne = { s with keys := k, backup := b } ∧
    k.commits.length = s.keys.commits.length - 1 := by
  unfold State.durableOne
  split
  · rename_i h
    exact ⟨s.keys, s.backup, rfl, by rw [h]; rfl⟩
  · rename_i c rest h
    obtain ⟨k, e, hk⟩ := firstMarks_only c.sets s
    rw [e]
    dsimp only
    split
    · exact ⟨_, s.backup, rfl, by rw [List.length_drop, hk]⟩
    · exact ⟨_, _, rfl, by rw [List.length_drop, hk]⟩

theorem durableN_only (n : Nat) : ∃ k b, s.durableN n = { s with keys := k, backup := b } ∧
    k.commits.length = s.keys.commits.length - n := by
  induction n generalizing s with
  | zero => exact ⟨s.keys, s.backup, rfl, rfl⟩
  | succ n ih =>
    obtain ⟨k, b, e, hk⟩ := durableOne_only s
    obtain ⟨k', b', e', hk'⟩ := ih s.durableOne
    exact ⟨k', b', by rw [State.durableN, e', e], by rw [hk', e, hk]; omega⟩

/-- Every mark and every commit on its way is durable: none waits. -/
theorem allDurable_only : ∃ k b, s.allMarks.durableN s.keys.commits.length = { s with keys := k, backup := b } ∧ k.commits = [] := by
  obtain ⟨k, e, hk⟩ := allMarks_only s
  obtain ⟨k', b, e', hk'⟩ := durableN_only s.allMarks s.keys.commits.length
  refine ⟨k', b, by rw [e', e], List.length_eq_zero_iff.1 ?_⟩
  rw [hk', e, hk, Nat.sub_self]

end

/-- Settles O12: the effect of a command is its fields and its power state; an entry halts CC0–CC11, and for PS4 leaves no commit. -/
theorem powerCommandsTakeEffect : Obligations.PowerCommandsTakeEffect := by
  unfold Obligations.PowerCommandsTakeEffect
  refine ⟨?effect, ?waits, ?entry, ?none⟩
  case effect =>
    intro s w hrun hwf hdrain hmet
    obtain ⟨-, -, hfields, -⟩ := tablesWf_iff.1 hwf
    obtain ⟨m, p, c, l, e, hstate, hnone, hswn, hpend, hoff⟩ := pwrEffect_only s hfields w
    refine ⟨(s.pwrEffect w).commitCaps, (whenRun_of_running hrun _).trans (congrArg _ (by simp only [hdrain]; exact if_pos hmet)), ?_⟩
    rw [e]
    exact ⟨hstate, hnone, hswn, hpend, hoff, rfl, rfl, rfl, rfl, rfl⟩
  case waits =>
    intro s hrun h
    refine (whenRun_of_running hrun _).trans (congrArg _ ?_)
    rcases h with h | ⟨w, h, hmet⟩
    · simp only [h]
    · simp only [h, hmet, Bool.false_eq_true, if_false]
  case entry =>
    intro s k hrun hentering
    obtain ⟨i, t, c, e, hhalt⟩ := haltCores_only (upTo 12) s
    have hhalted (x : Nat) (hx : x < 12) : x ∈ c.halted := hhalt x (.inl (List.mem_range.2 hx))
    refine ⟨_, whenRun_of_running hrun _, ?_⟩
    simp only [hentering]
    rw [e]
    split
    · rename_i hk
      exact ⟨rfl, hhalted, fun h => absurd h (by omega), fun _ => ⟨rfl, rfl⟩, rfl, rfl, rfl⟩
    · rename_i hk
      obtain ⟨q, b, e', hq⟩ := allDurable_only (State.modPower { s with intc := i, tasks := t, ctrl := c } (fun p => { p with entering := none }))
      rw [e']
      exact ⟨rfl, hhalted, fun _ => ⟨rfl, rfl, hq, rfl⟩, fun h => absurd h hk, rfl, rfl, rfl⟩
  case none =>
    intro s hrun h
    exact (whenRun_of_running hrun _).trans (by simp only [h])

end Sys2Proof.Machine
end

section
/-! The timebase, the registers, the life cycle, the inlet and the capacities stand still under whatever jobs do. -/

namespace Sys2Proof.Machine

/-- What admission, the re-plan step and the end of jobs leave alone. -/
def State.steady (s : State) := (s.glob, s.cfg, s.live, s.life, s.adm.inlet, s.adm.capC, s.adm.capT)

/-- From `s` to `t` all of it stands. -/
structure Steady (s t : State) : Prop where
  kept : t.steady = s.steady

namespace Steady

variable {s t u : State}

theorem refl (s : State) : Steady s s := ⟨rfl⟩
theorem trans (a : Steady s t) (b : Steady t u) : Steady s u := ⟨b.kept.trans a.kept⟩
theorem ite {c : Prop} [Decidable c] (a : Steady s t) (b : Steady s u) : Steady s (if c then t else u) := by
  split
  · exact a
  · exact b
theorem foldl {β : Type} {f : State → β → State} (hf : ∀ s b, Steady s (f s b)) (l : List β) (s : State) : Steady s (l.foldl f s) :=
  ⟨foldl_keeps (fun s b => (hf s b).kept) l s⟩
/-- Whatever begins touches the engines only. -/
theorem engines (h : EnginesOnly s t) : Steady s t := by
  have e := congrArg State.steady h.rest
  exact ⟨e⟩

theorem glob (h : Steady s t) : t.glob = s.glob := congrArg (·.1) h.kept
theorem cfg (h : Steady s t) : t.cfg = s.cfg := congrArg (·.2.1) h.kept
theorem live (h : Steady s t) : t.live = s.live := congrArg (·.2.2.1) h.kept
theorem life (h : Steady s t) : t.life = s.life := congrArg (·.2.2.2.1) h.kept
theorem inlet (h : Steady s t) : t.adm.inlet = s.adm.inlet := congrArg (·.2.2.2.2.1) h.kept
theorem capC (h : Steady s t) : t.adm.capC = s.adm.capC := congrArg (·.2.2.2.2.2.1) h.kept
theorem capT (h : Steady s t) : t.adm.capT = s.adm.capT := congrArg (·.2.2.2.2.2.2) h.kept

/-! ## Stores -/

theorem hbmPut (s : State) (a : Nat) (b : Byte) : Steady s (s.hbmPut a b) := by
  unfold State.hbmPut
  exact ite (refl s) ⟨rfl⟩
theorem hbmPoke (s : State) (a : Nat) (b : Bytes) : Steady s (s.hbmPoke a b) := by
  induction b generalizing s a with
  | nil => exact refl s
  | cons x b ih => exact (hbmPut s a x).trans (ih _ _)
theorem hbmRead (s : State) (a n : Nat) : Steady s (s.hbmRead a n).2 := engines (EnginesOnly.hbmRead s a n)
theorem modJob (s : State) (id : Nat) (g : Job → Job) : Steady s (s.modJob id g) := ⟨rfl⟩
theorem modCJobs (s : State) (g : CJob → CJob) : Steady s (s.modCJobs g) := ⟨rfl⟩
theorem modInst (s : State) (n : Nat) (g : Inst → Inst) : Steady s (s.modInst n g) := ⟨rfl⟩
theorem modField (s : State) (f : Nat) (g : Field → Field) : Steady s (s.modField f g) := ⟨rfl⟩
theorem modAmu (s : State) (f : Nat) (g : Amu → Amu) : Steady s (s.modAmu f g) := ⟨rfl⟩
theorem setHandle (s : State) (k : Nat) (x : Handle) : Steady s (s.setHandle k x) := ⟨rfl⟩
theorem sweepJobs (s : State) : Steady s s.sweepJobs := ⟨rfl⟩
theorem uses (s : State) (as : List Nat) : Steady s (s.uses as) := by
  obtain ⟨l, c, e⟩ := uses_only (s := s) as
  rw [e]
  exact ⟨rfl⟩
theorem raise (s : State) (n : Nat) (u : BitVec 16) (d0 d1 : Nat) : Steady s (s.raise n u d0 d1) :=
  engines (EnginesOnly.raise s n u d0 d1)
theorem pendSrc (s : State) (n : Nat) : Steady s (s.pendSrc n) := by
  obtain ⟨l, e⟩ := pendSrc_only s n
  rw [e]
  exact ⟨rfl⟩

/-! ## Calendar and ledgers -/

theorem setUsed (s : State) (i p r v : Nat) : Steady s (s.setUsed i p r v) := hbmPoke s _ _
theorem setRowCnt (s : State) (r x v : Nat) : Steady s (s.setRowCnt r x v) := ⟨rfl⟩
theorem unplace (s : State) (i r : Nat) (dem : List (Nat × Nat)) (n : Nat) : Steady s (s.unplace i r dem n) :=
  foldl (fun u (e : Nat × Nat) => (setRowCnt u r e.1 (u.rowCnt r e.1 - n * e.2)).trans (setUsed _ _ _ _ _)) dem s
theorem releaseJob (s : State) (j : Job) : Steady s (s.releaseJob j) := by
  refine trans (foldl (fun u p => ?_) _ _) (modJob _ _ _)
  have h := unplace u j.inst p.row ((j.stage p.stage).demand p.fields) (p.count - p.ended - p.gone.length)
  exact ite (refl u) (ite (h.trans (unplace _ _ _ _ _)) h)
theorem chargeLenders (s : State) (p r : Nat) (l : List Nat) (e : Nat) : Steady s (s.chargeLenders p r l e) := by
  induction l generalizing s e with
  | nil => cases e <;> exact refl s
  | cons a l ih =>
    cases e with
    | zero => exact refl s
    | succ e =>
      unfold State.chargeLenders
      dsimp only
      refine trans ?_ (ih _ _)
      exact ite (refl s) (setUsed s _ _ _ _)
theorem chargeLedger (s : State) (i p r amt : Nat) (lend : Bool) : Steady s (s.chargeLedger i p r amt lend) := by
  unfold State.chargeLedger
  split
  · exact refl s
  · dsimp only
    refine trans ?_ (setUsed _ _ _ _ _)
    exact ite (chargeLenders s _ _ _ _) (refl s)
theorem lose (s : State) (id seq : Nat) (us : List Nat) : Steady s (s.lose id seq us) := ⟨rfl⟩
theorem displace (s : State) (j : Job) (p : Placement) (us : List Nat) : Steady s (s.displace j p us) :=
  (unplace s _ _ _ _).trans (lose _ _ _ _)

/-! ## The end of a job -/

theorem blur (s : State) (rs : List (Nat × Nat)) : Steady s (s.blur rs) :=
  foldl (fun s r => trans (t := (s.drawBytes r.2).2) ⟨rfl⟩ (hbmPoke _ _ _)) _ _
theorem ingestEnd (s : State) (j : Job) (st : Nat) : Steady s (s.ingestEnd j st) :=
  ite (refl s) (ite (blur s _) (ite (blur s _) (refl s)))
theorem jobCleanup (s : State) (j : Job) (st : Nat) : Steady s (s.jobCleanup j st) :=
  ite (ite (setHandle s _ _) (ite (setHandle s _ _) (refl s))) (ite ⟨rfl⟩ (ite ⟨rfl⟩ (ite (ingestEnd s j st) (refl s))))
theorem post (s : State) (n q d : Nat) (r : Bytes) : Steady s (s.post n q d r) := by
  obtain ⟨f, i, m, k, c, x, o, st, e, -⟩ := post_only s n q d r
  rw [e]
  exact ⟨rfl⟩
theorem doneRecord (s : State) (j : Job) (st : Nat) : Steady s (s.doneRecord j st) := post s _ _ _ _
theorem readyEvent (s : State) (j : Job) : Steady s (s.readyEvent j) := by
  obtain ⟨f, k, e⟩ := readyEvent_only s j
  rw [e]
  exact ⟨rfl⟩
theorem dropPieces (s : State) (q : Piece → Bool) : Steady s (s.dropPieces q) := by
  obtain ⟨p, d, e⟩ := dropPieces_begins s q
  rw [e]
  refine trans ?_ (engines (EnginesOnly.begins _))
  exact ⟨rfl⟩
theorem stopJob (s : State) (id : Nat) : Steady s (s.stopJob id) := by
  have h := dropPieces s (fun e => e.job == id)
  rw [stopJob_eq]
  generalize s.dropPieces _ = t at h
  exact ⟨h.kept⟩
theorem sendOn (s : State) (w : WaitFrame) : Steady s (s.sendOn w) := by
  obtain ⟨c, o, e, -⟩ := sendOn_only s w
  rw [e]
  exact ⟨rfl⟩
theorem sendFrame (s : State) (any : Bool) (kind dst : Nat) (c : DWord) (slot off : Nat) (b : Bytes) :
    Steady s (s.sendFrame any kind dst c slot off b) := by
  unfold State.sendFrame
  dsimp only
  split
  · exact refl s
  · refine trans ?_ (sendOn _ _)
    exact ⟨rfl⟩
theorem lostCounted (s : State) (c : Prop) [Decidable c] :
    Steady s (if c then { s with adm := { s.adm with lostN := s.adm.lostN + 1 } } else s) := ite ⟨rfl⟩ (refl s)
theorem closePart (s : State) (j : Job) (p : Part) (st : Nat) (later : Bool) : Steady s (s.closePart j p st later) := by
  have h : Steady s ((if later = true then s else s.releaseJob j).stopJob j.id) :=
    (ite (refl s) (releaseJob s j)).trans (stopJob _ _)
  unfold State.closePart
  dsimp only
  generalize State.stopJob _ j.id = u at h
  exact h.trans (ite ((modJob u _ _).trans (modCJobs _ _)) ((sendFrame u ..).trans ((modJob _ _ _).trans (sweepJobs _))))
theorem closed (s : State) (j : Job) (id st : Nat) (later : Bool) : Steady s (s.closed j id st later) := by
  have h : Steady s (s.closing j st later) := by
    have h := (jobCleanup s j st).trans (lostCounted _ (st = 0x10))
    exact ite h (h.trans (releaseJob _ _))
  exact h.trans ((doneRecord _ _ _).trans ((modJob _ _ _).trans (stopJob _ _)))
theorem closeJob (s : State) (id st : Nat) (later : Bool) : Steady s (s.closeJob id st later) := by
  cases hj : s.job? id with
  | none => simpa [State.closeJob, hj] using refl s
  | some j =>
    cases hr : j.recorded with
    | true => simpa [State.closeJob, hj, hr] using refl s
    | false =>
      cases hp : j.part with
      | some p => simpa [State.closeJob, hj, hr, hp] using closePart s j p st later
      | none =>
        obtain ⟨f, k, e⟩ := closeJob_closed hj hr hp st later
        rw [e]
        have h := closed s j id st later
        generalize s.closed j id st later = t at h
        exact ⟨h.kept⟩

/-! ## Parts of Commons jobs -/

theorem dropPart (s : State) (j : Job) : Steady s (s.dropPart j) :=
  (releaseJob s j).trans ((stopJob _ _).trans ((modJob _ _ _).trans (sweepJobs _)))
theorem finalDone (s : State) (c : CJob) (st : Nat) : Steady s (s.finalDone c st) := by
  unfold State.finalDone
  split
  · exact modCJobs s _
  · exact (jobCleanup s _ st).trans ((lostCounted _ _).trans ((releaseJob _ _).trans ((stopJob _ _).trans ((doneRecord _ _ _).trans
      ((modJob _ _ _).trans ((modCJobs _ _).trans ((readyEvent _ _).trans (sweepJobs _))))))))
theorem sendAbandon (s : State) (c : CJob) : Steady s (s.sendAbandon c) := foldl (fun s _ => sendFrame s _ _ _ _ _ _ _) _ s
theorem loseCJob (s : State) (c : CJob) : Steady s (s.loseCJob c) := (sendAbandon s c).trans (finalDone _ _ _)
theorem sweepCJobs (s : State) : Steady s s.sweepCJobs := ⟨rfl⟩

/-! ## Placement -/

theorem book (s : State) (f : Nat) (j : Job) (v : StageRec) (i r : Nat) : Steady s (s.book f j v i r) := by
  unfold State.book
  dsimp only
  split
  · exact refl s
  · split
    · exact refl s
    · exact modField s _ _
theorem place (s : State) (id k : Nat) (fields : List Nat) (r : Nat) (runs : List (Nat × Nat)) (replaced records : Bool) :
    Steady s (s.place id k fields r runs replaced records) := by
  unfold State.place
  split
  · exact refl s
  · dsimp only
    split
    · exact refl s
    · refine trans ?_ (foldl (fun u run => ?_) _ _)
      · refine trans ?_ (foldl (fun u e => chargeLedger u _ _ _ _ _) _ _)
        refine ite (trans ?_ (setRowCnt _ _ _ _)) ?_
        · exact foldl (fun u e => setRowCnt u _ _ _) _ s
        · exact foldl (fun u e => setRowCnt u _ _ _) _ s
      · exact ⟨rfl⟩

end Steady

end Sys2Proof.Machine
end

section
/-! The statement of the re-plan step (R57, R62). -/

namespace Sys2Proof.Machine

namespace Steady

variable {s t u : State}

/-- A fold that carries a number beside the state. -/
theorem foldl_fst {α β : Type} {f : State × α → β → State × α} (hf : ∀ a b, Steady a.1 (f a b).1) (l : List β) (a : State × α) :
    Steady a.1 (l.foldl f a).1 := by
  induction l generalizing a with
  | nil => exact refl a.1
  | cons b l ih => exact (hf a b).trans (ih _)

/-! ## Displacement and re-placement (R78, R79) -/

theorem displaceOn (s : State) (x : Nat) (e : Job × Placement) : Steady s (s.displaceOn x e) := by
  unfold State.displaceOn
  split
  · exact refl s
  · exact ite (refl s) (displace s _ _ _)
theorem displaceAll (s : State) (c : Nat) : Steady s (s.displaceAll c) :=
  (foldl (fun u _ => ite (refl u) (displace u _ _ _)) _ s).trans (foldl (fun u x => foldl (fun u e => displaceOn u x e) _ u) _ _)

theorem replanRows (c id k last n r : Nat) (s : State) (b : Nat) : Steady s (State.replanRows c id k last n r s b).1 := by
  induction n generalizing r s b with
  | zero => exact refl s
  | succ n ih =>
    unfold State.replanRows
    split
    · exact refl s
    · dsimp only
      split
      · exact refl s
      · refine trans ?_ (ih _ _ _)
        split
        · exact refl s
        · refine ite (refl s) (trans ?_ (place _ _ _ _ _ _ _ _))
          refine (modJob s id _).trans (ite (refl _) (foldl (fun u i => book u _ _ _ _ _) _ _))

theorem replanJob (s : State) (c id b : Nat) : Steady s (s.replanJob c id b).1 := by
  unfold State.replanJob
  split
  · exact refl s
  · refine foldl_fst (fun a k => ?_) _ (s, b)
    split
    · exact refl a.1
    · split
      · exact refl a.1
      · exact replanRows _ _ _ _ _ _ _ _

/-- A job of the re-plan order is given up for want of budget, or placed anew and given up if units are left over. -/
theorem replanAll (c : Nat) (l : List Nat) (s : State) (b : Nat) : Steady s (State.replanAll c l s b).1 := by
  induction l generalizing s b with
  | nil => exact refl s
  | cons id l ih =>
    have hlost (u : State) : Steady u (match u.job? id with
        | none => u
        | some j => if j.lost.any (fun l => decide (l.count > 0)) then u.closeJob id 0x10 false else u) := by
      split
      · exact refl u
      · exact ite (closeJob u _ _ _) (refl u)
    unfold State.replanAll
    split
    · exact (closeJob s _ _ _).trans (ih _ _)
    · refine trans (trans ?_ (hlost _)) (ih _ _)
      split
      · exact refl s
      · split
        · exact refl s
        · exact replanJob s _ _ _

theorem replanParts (s : State) : Steady s s.replanParts := by
  unfold State.replanParts
  refine trans (trans (trans (foldl (fun u c => loseCJob u c) _ s) (foldl (fun u j => ?_) _ _)) (foldl (fun u c => modJob u _ _) _ _))
    (sweepCJobs _)
  split
  · exact refl u
  · exact ite (dropPart u _) (ite (modJob u _ _) (refl u))

end Steady

/-! ## The values of the step (R62) -/

/-- RESETTING ends in the registers and one entry of the instances alone. -/
theorem endResetting_only (s : State) : ∃ c i, s.endResetting = { s with cfg := c, insts := i } := by
  have hfold {β : Type} (f : State → β → State) (hf : ∀ u b, ∃ c i, f u b = { u with cfg := c, insts := i }) (l : List β) :
      ∀ u : State, ∃ c i, l.foldl f u = { u with cfg := c, insts := i } := by
    induction l with
    | nil => exact fun u => ⟨u.cfg, u.insts, rfl⟩
    | cons b l ih =>
      intro u
      obtain ⟨c, i, e⟩ := hf u b
      obtain ⟨c', i', e'⟩ := ih (f u b)
      exact ⟨c', i', by rw [List.foldl_cons, e', e]⟩
  exact hfold _ (fun u e => ⟨_, _, rfl⟩) _ s

/-- A fold of writes over distinct keys leaves each key's own value. -/
theorem cget_foldl_cput (f : Nat → Nat) (l : List Nat) (m : SMap Nat) (h : mwf (fun _ => 0) m = true) {x : Nat} (hx : x ∈ l) :
    cget (l.foldl (fun m x => cput m x (f x)) m) x = f x := by
  have hkept (l : List Nat) : ∀ m : SMap Nat, mwf (fun _ => 0) m = true → (x ∈ l ∨ cget m x = f x) →
      cget (l.foldl (fun m x => cput m x (f x)) m) x = f x := by
    induction l with
    | nil => exact fun m _ hx => hx.resolve_left List.not_mem_nil
    | cons k l ih =>
      intro m hm hx
      refine ih _ (mwf_mput hm) ?_
      rw [cget_cput hm]
      by_cases hk : x = k
      · exact .inr (by rw [if_pos hk, hk])
      · rw [if_neg hk]
        exact hx.imp_left fun hx => (List.mem_cons.1 hx).resolve_left hk
  exact hkept l m h (.inl hx)

/-- The step's end: the capacities that the units in service have. -/
theorem replan_only (s : State) : ∃ (u : State) (a g : Nat), u.glob = s.glob ∧ u.adm.capC = s.adm.capC ∧ u.adm.capT = s.adm.capT ∧
    s.replan = { u.setCaps u.capCNow u.capTNow with
      adm := { (u.setCaps u.capCNow u.capTNow).adm with replanLast := a, hbmGross := g } } := by
  have hon (l : List Nat) (back : BitVec 16) (u : State) : Steady u
      (l.foldl (fun s f => if back.getLsbD f then s.modField f (fun x => { x with powered := true }) else s) u) :=
    .foldl (fun u f => .ite (.modField u f _) (.refl u)) l u
  have hrel (u : State) : Steady u ((u.adm.jobs.filter (fun j => j.relPend)).foldl (fun s j =>
      let s := s.releaseJob j
      if j.recorded && j.part.isNone then s.readyEvent j else s) u) :=
    .foldl (fun u j => (Steady.releaseJob u j).trans (.ite (.readyEvent _ _) (.refl _))) _ u
  obtain ⟨v, a, hv, e⟩ : ∃ (v : State) (a : Nat), Steady s v ∧ s.replan =
      (let u := v.endResetting
       let t := u.setCaps u.capCNow u.capTNow
       { t with adm := { t.adm with replanLast := a, hbmGross := t.hbmGrossNow } }) := by
    refine ⟨_, _, ?_, rfl⟩
    refine Steady.trans ?_ (.ite (.refl _) (.pendSrc _ _))
    refine Steady.trans ?_ (.replanAll _ _ _ _)
    refine Steady.trans ?_ (.displaceAll _ _)
    refine Steady.trans ?_ (.replanParts _)
    refine Steady.trans ?_ (.sweepJobs _)
    refine Steady.trans ?_ (hrel _)
    refine Steady.trans ?_ (hon _ _ _)
    exact ⟨rfl⟩
  obtain ⟨c, i, hu⟩ := endResetting_only v
  refine ⟨v.endResetting, a, _, ?_, ?_, ?_, e⟩
  · rw [hu]; exact hv.glob
  · rw [hu]; exact hv.capC
  · rw [hu]; exact hv.capT

/-- Settles O10: nothing before the values are stored touches them, the timebase or the registers. -/
theorem replanStepValuesCapacity : Obligations.ReplanStepValuesCapacity := by
  unfold Obligations.ReplanStepValuesCapacity
  intro s hrun hC hT
  refine ⟨_, whenRun_of_running hrun _, ?_⟩
  obtain ⟨u, a, g, hglob, hcapC, hcapT, e⟩ := replan_only s
  rw [e]
  refine ⟨rfl, (congrArg Glob.swn hglob :), fun x hx => ⟨?_, ?_⟩⟩
  · exact cget_foldl_cput u.capCNow (upTo 28) _ (hcapC ▸ hC) (List.mem_range.2 hx)
  · exact cget_foldl_cput u.capTNow (upTo 28) _ (hcapT ▸ hT) (List.mem_range.2 hx)

end Sys2Proof.Machine
end

section
/-! The statement of the admission step (R66, R67, R72). -/

namespace Sys2Proof.Machine

namespace Steady

variable {s t u : State}

/-! ## Reads of the control plane -/

theorem draw (s : State) (n : Nat) : Steady s (s.draw n).2 := ⟨rfl⟩
theorem fencedReads (s : State) (q n : Nat) : Steady s (s.fencedReads q n) := engines (EnginesOnly.fencedReads s q n)
theorem handlesReady (s : State) : Steady s s.handlesReady := foldl (fun u _ => setHandle u _ _) _ s
theorem certDerive (s : State) (img : HandleC) (c : Bytes) : Steady s (s.certDerive img c).2 := hbmRead s _ _
theorem certRead (s : State) (a : Nat) : Steady s (s.certRead a).2 := (hbmRead s a 128).trans (hbmRead _ _ _)
theorem readPlan (s : State) (a : Nat) : Steady s (s.readPlan a).2 := (hbmRead s a 64).trans (hbmRead _ _ _)
theorem ite_snd {α : Type} {c : Prop} [Decidable c] {x y : α × State} (a : Steady s x.2) (b : Steady s y.2) :
    Steady s (if c then x else y).2 := by
  split
  · exact a
  · exact b
theorem ite_fst {α : Type} {c : Prop} [Decidable c] {x y : State × α} (a : Steady s x.1) (b : Steady s y.1) :
    Steady s (if c then x else y).1 := by
  split
  · exact a
  · exact b
theorem derive (s : State) (i : Nat) (d : Bytes) : Steady s (s.derive i d).2 := by
  have once (a n : Nat) : Steady s (s.hbmRead a n).2 := hbmRead s a n
  have twice (a n b m : Nat) : Steady s ((s.hbmRead a n).2.hbmRead b m).2 := (once a n).trans (hbmRead _ b m)
  unfold State.derive
  refine ite_snd ?_ ?_
  · dsimp only
    exact (twice _ _ _ _).trans (hbmRead _ _ _)
  refine ite_snd ?_ ?_
  · exact refl s
  refine ite_snd ?_ ?_
  · dsimp only
    exact once _ _
  refine ite_snd ?_ ?_
  · dsimp only
    exact once _ _
  refine ite_snd ?_ ?_
  · dsimp only
    exact once _ _
  refine ite_snd ?_ ?_
  · dsimp only
    exact once _ _
  refine ite_snd ?_ ?_
  · dsimp only
    exact once _ _
  refine ite_snd ?_ ?_
  · dsimp only
    exact once _ _
  refine ite_snd ?_ ?_
  · dsimp only
    exact twice _ _ _ _
  refine ite_snd ?_ ?_
  · dsimp only
    exact once _ _
  refine ite_snd ?_ ?_
  · exact refl s
  refine ite_snd ?_ ?_
  · dsimp only
    exact twice _ _ _ _
  exact refl s

/-! ## Decisions -/

theorem addJob (s : State) (j : Job) : Steady s (s.addJob j) := ⟨rfl⟩
theorem countRefused (s : State) (i : Nat) : Steady s (s.countRefused i) := ⟨rfl⟩
theorem countAccepted (s : State) : Steady s s.countAccepted := ⟨rfl⟩
theorem admitRecord (s : State) (i sq cq : Nat) (gen : BitVec 16) (tag d a st cost : Nat) :
    Steady s (s.admitRecord i sq cq gen tag d a st cost) := post s _ _ _ _
theorem sendReserve (s : State) (i : Nat) (plan : Bytes) (c : DWord) (a d k : Nat) : Steady s (s.sendReserve i plan c a d k) := by
  unfold State.sendReserve
  dsimp only
  split
  · exact refl s
  · exact (certRead s _).trans (sendFrame _ _ _ _ _ _ _ _)
theorem afterAccept (s : State) (id : Nat) : Steady s (s.afterAccept id) := by
  unfold State.afterAccept
  split
  · exact refl s
  · split
    · dsimp only
      split
      · exact setHandle s _ _
      · exact refl s
    · split
      · split
        · exact refl s
        · exact modAmu s _ _
      · exact refl s

end Steady

/-! ## The placement loop (R69) -/

theorem placeRows_steady {id k last : Nat} {drained : List Nat} {fuel : Nat} : ∀ {runs : List (Nat × Nat)} {fields : Option (List Nat)}
    {d d' : Dec}, placeRows id k last drained fuel runs fields d = .placed d' → Steady d.s d'.s := by
  induction fuel with
  | zero => intro runs fields d d' h; simp [placeRows] at h
  | succ fuel ih =>
    intro runs fields d d' h
    unfold placeRows at h
    dsimp only at h
    split at h
    · injection h with h
      exact h ▸ .refl d.s
    · split at h
      · split at h <;> simp at h
      · split at h
        · simp at h
        · split at h
          · simp at h
          · cases fields with
            | some fs =>
              dsimp only at h
              exact (Steady.place d.s _ _ _ _ _ _ _).trans (ih h)
            | none =>
              dsimp only at h
              split at h
              · have hd := ih h
                exact hd
              · refine Steady.trans (Steady.trans ?_ (Steady.place _ _ _ _ _ _ _ _)) (ih h)
                exact Steady.ite_fst (.refl _) (.foldl (fun u i => Steady.book u _ _ _ _ _) _ _)

theorem placeJob_steady {id : Nat} {drained : List Nat} {runs : Nat → List (Nat × Nat)} {lo last : Nat → Nat} {vs : List StageRec} :
    ∀ {k : Nat} {d d' : Dec}, placeJob id drained runs lo last vs k d = .placed d' → Steady d.s d'.s := by
  induction vs with
  | nil =>
    intro k d d' h
    simp only [placeJob, DecEnd.placed.injEq] at h
    exact h ▸ .refl d.s
  | cons v vs ih =>
    intro k d d' h
    unfold placeJob at h
    dsimp only at h
    split at h
    · simp at h
    · rename_i e hrows
      have hd := placeRows_steady hrows
      exact Steady.trans hd (ih h)

/-! ## Verdicts -/

/-- What a verdict may be: an accepted or refused decision keeps to its cycles and leaves the rest alone. -/
def Verdict.within (s : State) (left : Nat) : Verdict → Prop
  | .abandon => True
  | .refuse t _ _ cost => Steady s t ∧ cost ≤ left
  | .accept t _ cost => Steady s t ∧ cost ≤ left

/-- A decision that is worked out counts within the cycles left, or it is abandoned (R67). -/
theorem judge_within (s : State) (inst sq cq : Nat) (gen : BitVec 16) (desc : Bytes) (dv : Derived) (a d : Nat) (part : Option Part)
    (left : Nat) : (s.judge inst sq cq gen desc dv a d part left).within s left := by
  have hno (st re ex : Nat) : (if 16 + 8 * ex > left then Verdict.abandon else Verdict.refuse s st re (16 + 8 * ex)).within s left := by
    split
    · trivial
    · exact ⟨.refl s, by omega⟩
  unfold State.judge
  dsimp only
  split
  · exact hno _ _ _
  · split
    · exact hno _ _ _
    · split
      · exact hno _ _ _
      · split
        · exact hno _ _ _
        · rename_i dn hplaced
          split
          · trivial
          · rename_i hleft
            simp only [Bool.or_eq_true, decide_eq_true_eq, not_or, not_lt] at hleft
            have hd := placeJob_steady hplaced
            exact ⟨((Steady.addJob s _).trans hd).trans (.afterAccept _ _), hleft.1⟩

theorem judge_refused {s t : State} {inst sq cq : Nat} {gen : BitVec 16} {desc : Bytes} {dv : Derived} {a d : Nat} {part : Option Part}
    {left st re cost : Nat} (h : s.judge inst sq cq gen desc dv a d part left = .refuse t st re cost) : Steady s t ∧ cost ≤ left := by
  have hw := judge_within s inst sq cq gen desc dv a d part left
  rw [h] at hw
  exact hw
theorem judge_accepted {s t : State} {inst sq cq : Nat} {gen : BitVec 16} {desc : Bytes} {dv : Derived} {a d : Nat} {part : Option Part}
    {left id cost : Nat} (h : s.judge inst sq cq gen desc dv a d part left = .accept t id cost) : Steady s t ∧ cost ≤ left := by
  have hw := judge_within s inst sq cq gen desc dv a d part left
  rw [h] at hw
  exact hw

/-- A decision that is taken. -/
def decisionWithin (s : State) (left : Nat) (o : Option (State × Nat)) : Prop := ∀ t c, o = some (t, c) → Steady s t ∧ c ≤ left

theorem decisionWithin_none (s : State) (left : Nat) : decisionWithin s left none := by
  intro t c h
  simp at h
theorem decisionWithin_some {s t : State} {left c : Nat} (h : Steady s t) (hc : c ≤ left) : decisionWithin s left (some (t, c)) := by
  rintro u k ⟨⟩
  exact ⟨h, hc⟩
theorem decisionWithin_ite {s : State} {left : Nat} {c : Prop} [Decidable c] {o p : Option (State × Nat)} (ho : c → decisionWithin s left o)
    (hp : ¬c → decisionWithin s left p) : decisionWithin s left (if c then o else p) := by
  split
  · exact ho ‹_›
  · exact hp ‹_›

theorem decideOne_within (s : State) (e : InletEntry) (left : Nat) : decisionWithin s left (s.decideOne e left) := by
  have hrefuse (t : State) (ht : Steady s t) (st re cost : Nat) (hc : cost ≤ left) (d : Nat) : decisionWithin s left
      (some ((t.countRefused e.inst).admitRecord e.inst e.sq (fld (s.cfgN (sqCfgA e.inst e.sq)) 20 3) e.gen (dTag e.desc) d s.swnN st re,
        cost)) :=
    decisionWithin_some ((ht.trans (.countRefused t _)).trans (.admitRecord _ _ _ _ _ _ _ _ _ _)) hc
  have hsmall (st re d : Nat) : decisionWithin s left (if left < 16 then none else
      some ((s.countRefused e.inst).admitRecord e.inst e.sq (fld (s.cfgN (sqCfgA e.inst e.sq)) 20 3) e.gen (dTag e.desc) d s.swnN st re, 16)) :=
    decisionWithin_ite (fun _ => decisionWithin_none s left) (fun h => hrefuse s (.refl s) st re 16 (by omega) d)
  unfold State.decideOne
  dsimp only
  refine decisionWithin_ite (fun _ => hsmall _ _ _) fun _ => decisionWithin_ite (fun _ => hsmall _ _ _) fun _ =>
    decisionWithin_ite (fun _ => ?commons) fun _ => ?own
  case commons =>
    have hread (a b : Nat) (img : HandleC) : Steady s ((((s.readPlan a).2.certRead b).2.certDerive img ((s.readPlan a).2.certRead b).1)).2 :=
      ((Steady.readPlan s a).trans (.certRead _ b)).trans (.certDerive _ _ _)
    split
    · exact decisionWithin_none s left
    · rename_i t st re cost hv
      obtain ⟨ht, hc⟩ := judge_refused hv
      exact hrefuse t ((hread _ _ _).trans ht) st re cost hc _
    · rename_i t id cost hv
      obtain ⟨ht, hc⟩ := judge_accepted hv
      refine decisionWithin_some (((hread _ _ _).trans ht).trans ?_) hc
      refine Steady.trans ?_ (.foldl (fun u i => .sendReserve u _ _ _ _ _ _) _ _)
      exact ⟨rfl⟩
  case own =>
    have hread := Steady.derive s e.inst e.desc
    split
    · exact decisionWithin_none s left
    · rename_i t st re cost hv
      obtain ⟨ht, hc⟩ := judge_refused hv
      exact hrefuse t (hread.trans ht) st re cost hc _
    · rename_i t id cost hv
      obtain ⟨ht, hc⟩ := judge_accepted hv
      exact decisionWithin_some ((hread.trans ht).trans ((Steady.countAccepted t).trans (.admitRecord _ _ _ _ _ _ _ _ _ _))) hc

theorem decideReserve_within (s : State) (fr : Frame) (left : Nat) : decisionWithin s left (s.decideReserve fr left) := by
  unfold State.decideReserve
  dsimp only
  split
  · split
    · exact decisionWithin_none s left
    · exact decisionWithin_some ((Steady.certDerive s _ _).trans (.sendFrame _ _ _ _ _ _ _ _)) (by omega)
  · split
    · exact decisionWithin_none s left
    · rename_i t st re cost hv
      obtain ⟨ht, hc⟩ := judge_refused hv
      exact decisionWithin_some (((Steady.certDerive s _ _).trans ht).trans (.sendFrame _ _ _ _ _ _ _ _)) hc
    · rename_i t id cost hv
      obtain ⟨ht, hc⟩ := judge_accepted hv
      exact decisionWithin_some (((Steady.certDerive s _ _).trans ht).trans (.sendFrame _ _ _ _ _ _ _ _)) hc

theorem decideReserves_within (l : List Frame) (s : State) (used : Nat) (hu : used ≤ 32768) :
    Steady s (State.decideReserves l s used).1 ∧ (State.decideReserves l s used).2 ≤ 32768 := by
  induction l generalizing s used with
  | nil => exact ⟨⟨rfl⟩, hu⟩
  | cons fr l ih =>
    unfold State.decideReserves
    split
    · exact ⟨⟨rfl⟩, hu⟩
    · rename_i t c h
      have hw : decisionWithin s (32768 - used) (if s.tableFull then none else s.decideReserve fr (32768 - used)) :=
        decisionWithin_ite (fun _ => decisionWithin_none s _) (fun _ => decideReserve_within s fr _)
      obtain ⟨ht, hc⟩ := hw t c h
      obtain ⟨hs, hle⟩ := ih t (used + c) (by omega)
      exact ⟨ht.trans hs, hle⟩

/-! ## Thaws (R84, R381) -/

theorem readmitJobs_steady (n : Nat) (l : List Job) (s : State) (cost : Nat) : ∀ t c, readmitJobs n l s cost = some (t, c) → Steady s t := by
  induction l generalizing s cost with
  | nil =>
    intro t c h
    simp only [readmitJobs, Option.some.injEq, Prod.mk.injEq] at h
    exact h.1 ▸ .refl s
  | cons j l ih =>
    intro t c h
    unfold readmitJobs at h
    dsimp only at h
    split at h
    · simp at h
    · split at h
      · simp at h
      · rename_i d hplaced
        have hd := placeJob_steady hplaced
        exact (((Steady.modJob s _ _).trans hd).trans (.modJob _ _ _)).trans (ih _ _ t c h)

theorem thaw_within (s : State) (n used : Nat) (hu : used ≤ 32768) : Steady s (s.thaw n used).1 ∧ (s.thaw n used).2 ≤ 32768 := by
  unfold State.thaw
  dsimp only
  split
  · rename_i u cost h
    split
    · exact ⟨⟨rfl⟩, hu⟩
    · have ht := readmitJobs_steady _ _ _ _ u cost h
      have hs := (Steady.modInst s n _).trans ht
      exact ⟨⟨hs.kept⟩, by dsimp only; omega⟩
  · exact ⟨⟨rfl⟩, hu⟩

theorem thaws_within (l : List Nat) (s : State) (used : Nat) (hu : used ≤ 32768) :
    Steady s (l.foldl (fun (a : State × Nat) n => a.1.thaw n a.2) (s, used)).1 ∧
      (l.foldl (fun (a : State × Nat) n => a.1.thaw n a.2) (s, used)).2 ≤ 32768 := by
  induction l generalizing s used with
  | nil => exact ⟨.refl s, hu⟩
  | cons n l ih =>
    obtain ⟨ht, hc⟩ := thaw_within s n used hu
    obtain ⟨hs, hle⟩ := ih (s.thaw n used).1 (s.thaw n used).2 hc
    exact ⟨ht.trans hs, hle⟩

/-! ## The descriptors present (R66, R67) -/

/-- The descriptors are taken from the inlet's front, one after another, while the cycles last. -/
theorem decideAll_within (n : Nat) : ∀ (s : State) (used dn : Nat), used ≤ 32768 → ∃ k,
    (State.decideAll n s used dn).1.adm.inlet = s.adm.inlet.drop k ∧ (State.decideAll n s used dn).2.2 = dn + k ∧
    (State.decideAll n s used dn).2.1 ≤ 32768 ∧ (State.decideAll n s used dn).1.glob = s.glob ∧
    (State.decideAll n s used dn).1.life = s.life := by
  induction n with
  | zero => exact fun s used dn hu => ⟨0, rfl, rfl, hu, rfl, rfl⟩
  | succ n ih =>
    intro s used dn hu
    have hstop : ∃ k, s.adm.inlet = s.adm.inlet.drop k ∧ dn = dn + k ∧ used ≤ 32768 ∧ s.glob = s.glob ∧ s.life = s.life :=
      ⟨0, rfl, rfl, hu, rfl, rfl⟩
    unfold State.decideAll
    split
    · exact hstop
    · rename_i e rest hin
      split
      · exact hstop
      · split
        · exact hstop
        · rename_i t c h
          obtain ⟨ht, hc⟩ := decideOne_within s e (32768 - used) t c h
          obtain ⟨k, hi, hd, hle, hg, hl⟩ := ih { t with adm := { t.adm with inlet := rest } } (used + c) (dn + 1) (by omega)
          exact ⟨k + 1, by rw [hi, hin, List.drop_succ_cons], by rw [hd]; omega, hle, hg.trans ht.glob, hl.trans ht.life⟩

/-! ## Commons jobs at the step (R486, R487) -/

namespace Steady

theorem commonsAdmit (s : State) (c : CJob) : Steady s (s.commonsAdmit c) := by
  unfold State.commonsAdmit
  split
  · exact modCJobs s _
  · dsimp only
    split
    · refine trans ?_ (foldl (fun u m => sendFrame u _ _ _ _ _ _ _) _ _)
      refine trans ?_ (modCJobs _ _)
      refine trans ?_ (modJob _ _ _)
      exact (countAccepted s).trans (admitRecord _ _ _ _ _ _ _ _ _ _)
    · refine trans ?_ (dropPart _ _)
      refine trans ?_ (sendAbandon _ _)
      refine trans ?_ (modCJobs _ _)
      exact (admitRecord s _ _ _ _ _ _ _ _ _).trans (countRefused _ _)
theorem commonsDone (s : State) (c : CJob) : Steady s (s.commonsDone c) := by
  unfold State.commonsDone
  dsimp only
  exact ite (finalDone s _ _) (ite (loseCJob s _) (refl s))
theorem commonsStep (s : State) : Steady s s.commonsStep := by
  unfold State.commonsStep
  exact ((foldl (fun u c => commonsAdmit u c) _ s).trans (foldl (fun u c => commonsDone u c) _ _)).trans (sweepCJobs _)

end Steady

/-- The control plane's own reads take free values and meet fences. -/
theorem ownReads_only (n : Nat) (s : State) : ∃ k h f, State.ownReads n s = { s with free := k, hbmc := h, faults := f } := by
  induction n generalizing s with
  | zero => exact ⟨s.free, s.hbmc, s.faults, rfl⟩
  | succ n ih =>
    unfold State.ownReads
    dsimp only
    obtain ⟨k, l, e⟩ := fencedReads_only (s.draw 37).2 ((s.draw 37).1 / 64) 1
    obtain ⟨k', h', f', e'⟩ := ih ((s.draw 37).2.fencedReads ((s.draw 37).1 / 64) 1)
    exact ⟨k', h', f', by rw [e', e]; rfl⟩
theorem ownFenced_only (s : State) : ∃ k h f, s.ownFenced = { s with free := k, hbmc := h, faults := f } := by
  unfold State.ownFenced
  split
  · exact ⟨s.free, s.hbmc, s.faults, rfl⟩
  · obtain ⟨k, h, f, e⟩ := ownReads_only (s.draw 24).1 (s.draw 24).2
    exact ⟨k, h, f, e⟩

/-! ## The step -/

/-- The step's counters and its source, once the inlet and the Commons jobs are decided. -/
def State.admitted (s : State) (used dn present : Nat) : State :=
  let s := s.commonsStep
  let s := { s with adm := { s.adm with stepLast := used, decided := dn, carried := present - dn } }
  s.ownFenced.pendSrc 880

theorem admission_eq (s : State) : s.admission =
    (let a := ((s.handlesReady.insts.filter (fun e => e.2.thawReq && e.2.state == 4)).map (·.1)).foldl
      (fun (a : State × Nat) n => a.1.thaw n a.2) (s.handlesReady, 0)
     let b := State.decideReserves a.1.commons.rsv a.1 a.2
     let d := State.decideAll b.1.adm.inlet.length b.1 b.2 0
     d.1.admitted d.2.1 d.2.2 b.1.adm.inlet.length) := rfl

theorem admitted_keeps (s : State) (used dn present : Nat) : let t := s.admitted used dn present
    t.glob = s.glob ∧ t.life = s.life ∧ t.adm.inlet = s.adm.inlet ∧ 880 ∈ t.intc.pend ∧ t.adm.stepLast = used ∧ t.adm.decided = dn ∧
      t.adm.carried = present - dn := by
  have hc := Steady.commonsStep s
  intro t
  obtain ⟨k, h, f, e⟩ := ownFenced_only
    { s.commonsStep with adm := { s.commonsStep.adm with stepLast := used, decided := dn, carried := present - dn } }
  obtain ⟨l, e', hl⟩ := pendSrc_pending (State.ownFenced
    { s.commonsStep with adm := { s.commonsStep.adm with stepLast := used, decided := dn, carried := present - dn } }) (n := 880) rfl
  have ht : t = _ := e'
  rw [ht, e]
  exact ⟨hc.glob, hc.life, hc.inlet, hl, rfl, rfl, rfl⟩

/-- A job-free Commons side has nothing to do. -/
theorem commonsStep_idle (s : State) (h : s.commons.cjobs = []) : s.commonsStep = s.sweepCJobs := by
  simp [State.commonsStep, h]
theorem admitted_idle (s : State) (h : s.commons.cjobs = []) (used dn present : Nat) : ∃ k b f i, s.admitted used dn present =
    { s.sweepCJobs with
      adm := { s.adm with stepLast := used, decided := dn, carried := present - dn }
      free := k, hbmc := b, faults := f, intc := i } := by
  unfold State.admitted
  rw [commonsStep_idle s h]
  obtain ⟨k, b, f, e⟩ := ownFenced_only
    { s.sweepCJobs with adm := { s.sweepCJobs.adm with stepLast := used, decided := dn, carried := present - dn } }
  dsimp only
  rw [e]
  obtain ⟨l, e'⟩ := pendSrc_only _ 880
  exact ⟨k, b, f, _, e'⟩

/-- A descriptor with an opcode that no table names is refused, and counted, at 16 cycles (R71, R72). -/
theorem decideOne_unknown (s : State) (e : InletEntry) (left : Nat) (hop : opcodeKnown (dOpcode e.desc) = false) (hleft : 16 ≤ left) :
    ∃ t, s.decideOne e left = some (t, 16) ∧ t.adm = (s.countRefused e.inst).adm ∧ t.cfg = s.cfg ∧ t.keys = s.keys ∧
      t.commons = s.commons := by
  unfold State.decideOne State.admitRecord
  dsimp only
  rw [if_pos (by simp [hop]), if_neg (by omega)]
  refine ⟨_, rfl, ?_⟩
  obtain ⟨f, i, m, k, c, x, o, st, hpost, -⟩ := post_only (s.countRefused e.inst) e.inst (fld (s.cfgN (sqCfgA e.inst e.sq)) 20 3)
    (if reasonOpcode = 3 then s.swnN else s.swnN + dD e.desc)
    (mkRecord (dTag e.desc) (if reasonOpcode = 3 then s.swnN else s.swnN + dD e.desc) s.swnN 0 3 0 e.sq e.gen.toNat reasonOpcode)
  rw [hpost]
  exact ⟨rfl, rfl, rfl, rfl⟩

theorem satInc_pos {b : Nat} (hb : 0 < b) (n : Nat) : satInc b n ≠ 0 := by
  have : 1 < 2 ^ b := Nat.one_lt_two_pow hb.ne'
  unfold satInc
  split <;> omega

theorem handlesReady_only (s : State) : ∃ h, s.handlesReady = { s with handles := h } := by
  have hfold (l : List (Nat × Handle)) : ∀ u : State, ∃ h, l.foldl (fun s e => s.setHandle e.1 { e.2 with state := 2, ready := false }) u =
      { u with handles := h } := by
    induction l with
    | nil => exact fun u => ⟨u.handles, rfl⟩
    | cons e l ih => exact fun u => ih _
  exact hfold _ s

theorem decideAll_one {s t : State} {e : InletEntry} {c : Nat} (h : s.decideOne e 32768 = some (t, c))
    (hin : s.adm.inlet = [e]) (hfull : s.tableFull = false) : State.decideAll 1 s 0 0 = ({ t with adm := { t.adm with inlet := [] } }, c, 1) := by
  simp [State.decideAll, hin, hfull, h]

/-- A step with nothing to do but one descriptor. -/
theorem admission_one {s : State} {e : InletEntry} (hthaw : ∀ x ∈ s.insts, x.2.thawReq = false) (hrsv : s.commons.rsv = [])
    (hin : s.adm.inlet = [e]) : ∃ h, let u := { s with handles := h, commons := { s.commons with rsv := [] } }
    s.admission = ((State.decideAll 1 u 0 0).1.admitted (State.decideAll 1 u 0 0).2.1 (State.decideAll 1 u 0 0).2.2 1) := by
  obtain ⟨h, eh⟩ := handlesReady_only s
  have hnone : (s.insts.filter (fun e => e.2.thawReq && e.2.state == 4)).map (·.1) = [] := by
    rw [List.map_eq_nil_iff, List.filter_eq_nil_iff]
    intro x hx
    simp [hthaw x hx]
  refine ⟨h, ?_⟩
  rw [admission_eq, eh]
  dsimp only
  rw [hnone, List.foldl_nil]
  dsimp only
  rw [hrsv, State.decideReserves]
  dsimp only
  rw [hin]
  rfl

/-- Settles O20: every decision counts within the cycles left and leaves the inlet alone, from which it is then taken. -/
theorem admissionDecidesInletInOrder : Obligations.AdmissionDecidesInletInOrder := by
  unfold Obligations.AdmissionDecidesInletInOrder
  refine ⟨?closed, ?order, ?unknown⟩
  case closed =>
    intro s hrun hclosed
    exact (whenRun_of_running hrun _).trans (by rw [hclosed]; rfl)
  case order =>
    intro s hrun hopen
    refine ⟨_, (whenRun_of_running hrun _).trans (by rw [if_pos hopen]), ?_⟩
    rw [admission_eq]
    dsimp only
    obtain ⟨ha, hac⟩ := thaws_within ((s.handlesReady.insts.filter (fun e => e.2.thawReq && e.2.state == 4)).map (·.1))
      s.handlesReady 0 (by decide)
    generalize List.foldl _ (s.handlesReady, 0) _ = a at ha hac
    obtain ⟨hb, hbc⟩ := decideReserves_within a.1.commons.rsv a.1 a.2 hac
    generalize State.decideReserves _ _ _ = b at hb hbc
    obtain ⟨k, hi, hd, hle, hg, hl⟩ := decideAll_within b.1.adm.inlet.length b.1 b.2 0 hbc
    generalize State.decideAll _ _ _ _ = d at hi hd hle hg hl
    have hs := ((Steady.handlesReady s).trans ha).trans hb
    obtain ⟨hglob, hlife, hinlet, hpend, hlast, hdec, hcar⟩ := admitted_keeps d.1 d.2.1 d.2.2 b.1.adm.inlet.length
    generalize d.1.admitted d.2.1 d.2.2 b.1.adm.inlet.length = t at hglob hlife hinlet hpend hlast hdec hcar
    rw [Nat.zero_add] at hd
    refine ⟨rfl, (congrArg Glob.swn (hglob.trans (hg.trans hs.glob)) :), hpend, hlast ▸ hle, hlife.trans (hl.trans hs.life), k, ?_, ?_, ?_⟩
    · exact (hinlet.trans hi).trans (congrArg _ hs.inlet)
    · exact hdec.trans hd
    · exact hcar.trans (by rw [hd, hs.inlet])
  case unknown =>
    intro s e hrun hopen hthaw hrsv hcjobs hfull hinlet hop
    obtain ⟨h, hstep⟩ := admission_one hthaw hrsv hinlet
    obtain ⟨t, hdec, hadm, hcfg, hkeys, hcommons⟩ := decideOne_unknown
      { s with handles := h, commons := { s.commons with rsv := [] } } e 32768 hop (by decide)
    dsimp only at hstep
    rw [decideAll_one hdec hinlet hfull] at hstep
    have hidle : t.commons.cjobs = [] := by rw [hcommons]; exact hcjobs
    obtain ⟨k, b, f, i, hend⟩ := admitted_idle { t with adm := { t.adm with inlet := [] } } hidle 16 1 1
    refine ⟨_, (whenRun_of_running hrun _).trans (by rw [if_pos hopen, hstep]), ?_⟩
    dsimp only
    rw [hend, hadm]
    exact ⟨rfl, rfl, rfl, rfl, rfl, rfl, mget_mput_get _ _ (satInc_pos (by decide) _), hcfg, hkeys⟩

end Sys2Proof.Machine
end

section
/-! The work window's half of the statement of window and tail (R57, R90). -/

namespace Sys2Proof.Machine

/-- From `s` to `t` the registers, the timebase, the key store and the fences of HBM stand. -/
structure Apart (s t : State) : Prop where
  kept : t.aside = s.aside

namespace Apart

variable {s t u : State}

theorem refl (s : State) : Apart s s := ⟨rfl⟩
theorem trans (a : Apart s t) (b : Apart t u) : Apart s u := ⟨b.kept.trans a.kept⟩
theorem ite {c : Prop} [Decidable c] (a : Apart s t) (b : Apart s u) : Apart s (if c then t else u) := by
  split
  · exact a
  · exact b
theorem foldl {β : Type} {f : State → β → State} (hf : ∀ s b, Apart s (f s b)) (l : List β) (s : State) : Apart s (l.foldl f s) :=
  ⟨foldl_keeps (fun s b => (hf s b).kept) l s⟩

/-! ## What units are laid out of -/

theorem modJob (s : State) (id : Nat) (g : Job → Job) : Apart s (s.modJob id g) := ⟨rfl⟩
theorem modField (s : State) (f : Nat) (g : Field → Field) : Apart s (s.modField f g) := ⟨rfl⟩
theorem modAmu (s : State) (u : Nat) (g : Amu → Amu) : Apart s (s.modAmu u g) := ⟨rfl⟩
theorem modCore (s : State) (k : Nat) (g : Core → Core) : Apart s (s.modCore k g) := ⟨rfl⟩
theorem modPipe (s : State) (k : Nat) (g : Core → Core) : Apart s (s.modPipe k g) := ⟨rfl⟩
theorem setInSlot (s : State) (k : Nat) (x : SlotSt) : Apart s (s.setInSlot k x) := ⟨rfl⟩
theorem setStatus (s : State) (id st : Nat) : Apart s (s.setStatus id st) := ⟨rfl⟩
theorem modSeed (s : State) (g : Seedbank → Seedbank) : Apart s (s.modSeed g) := ⟨rfl⟩
theorem countRows (s : State) : Apart s s.countRows := ⟨rfl⟩
theorem lose (s : State) (id seq : Nat) (us : List Nat) : Apart s (s.lose id seq us) := ⟨rfl⟩

theorem slotCheck (s : State) (j : Job) (k : Nat) : Apart s (s.slotCheck j k) := by
  unfold State.slotCheck
  dsimp only
  refine trans (trans (foldl (fun u q => setInSlot u _ _) _ s) (ite (refl _) (setStatus _ _ _))) (foldl (fun u q => setInSlot u _ _) _ _)
theorem slotChecks (s : State) : Apart s s.slotChecks :=
  foldl (fun u _ => ite (refl u) (foldl (fun u _ => slotCheck u _ _) _ u)) _ s
theorem seedEnds (s : State) (j : Job) (p : Placement) : Apart s (s.seedEnds j p) := ⟨rfl⟩
theorem startSlices (s : State) (e : Job × Placement) : Apart s (s.startSlices e) := by
  obtain ⟨j, p⟩ := e
  unfold State.startSlices
  dsimp only
  split
  · exact lose s _ _ _
  · split
    · split
      · exact lose s _ _ _
      · exact foldl (fun u i => modField u _ _) _ s
    · split
      · split
        · split
          · exact modAmu s _ _
          · exact lose s _ _ _
        · split
          · exact seedEnds s j p
          · exact modJob s _ _
      · exact refl s
theorem sliceBegins (s : State) (f : Nat) : Apart s (s.sliceBegins f) := by
  unfold State.sliceBegins
  dsimp only
  split
  · exact modField s _ _
  · split
    · exact refl s
    · exact modField s _ _
theorem unfit (s : State) (ps : List Piece) : Apart s (s.unfit ps) := by
  refine foldl (fun u p => ?_) _ s
  split
  · exact lose u _ _ _
  · exact refl u
theorem layCores (s : State) (q : Nat) : Apart s (s.layCores q) := by
  unfold State.layCores
  dsimp only
  exact trans (foldl (fun u e => modCore u _ _) _ s) (unfit _ _)
theorem layPipes (s : State) (keccak : Bool) : Apart s (s.layPipes keccak) := by
  unfold State.layPipes
  dsimp only
  exact trans (foldl (fun u e => modPipe u _ _) _ s) (unfit _ _)

end Apart

/-! ## Engines with units run -/

/-- An engine with units runs. -/
def Core.going (x : Core) : Prop := x.pieces ≠ [] → x.busy = true
/-- Every engine with units runs. -/
def State.going (s : State) : Prop := (∀ e ∈ s.cores, e.2.going) ∧ ∀ e ∈ s.pipes, e.2.going

theorem going_init : Core.init.going := by simp [Core.going, Core.init]
theorem going_started (x : Core) : (if x.busy || x.pieces.isEmpty then x else x.start x.pieces).going := by
  intro h
  cases hb : x.busy <;> cases hp : x.pieces <;> simp_all [Core.start]
theorem going_of_engines {s t : State} (e : t.engines = s.engines) (h : s.going) : t.going := by
  obtain ⟨hc, hp⟩ := Prod.mk.inj e
  exact ⟨hc ▸ h.1, hp ▸ h.2⟩

theorem going_coreBegins {s : State} (h : s.going) (k : Nat) : (s.coreBegins k).going := by
  unfold State.coreBegins
  split
  · rename_i e _ _
    have h := going_of_engines (coreHolds_engines s k e) h
    refine ⟨?_, h.2⟩
    rw [State.modCore_eq, State.setCore_cores]
    refine forall_mput (P := Core.going) h.1 k ?_
    exact forall_mget (P := Core.going) (d := fun _ => Core.init) h.1 k going_init
  · exact h
theorem going_pipeBegins {s : State} (h : s.going) (k : Nat) : (s.pipeBegins k).going := by
  unfold State.pipeBegins
  split
  · rename_i e _ _
    have h := going_of_engines (pipeHolds_engines s k e) h
    refine ⟨h.1, ?_⟩
    rw [State.modPipe_eq, State.setPipe_pipes]
    refine forall_mput (P := Core.going) h.2 k ?_
    exact forall_mget (P := Core.going) (d := fun _ => Core.init) h.2 k going_init
  · exact h
theorem going_begins {s : State} (h : s.going) : s.begins.going :=
  List.foldlRecOn (motive := State.going) _ _
    (List.foldlRecOn (motive := State.going) _ _ h (fun _ hu k _ => going_coreBegins hu k)) (fun _ hu k _ => going_pipeBegins hu k)

/-- Engines that start: beside them only what their first operations read changes. -/
theorem startEngines_keeps (s : State) : StopKeeps s s.startEngines ∧ s.startEngines.going := by
  unfold State.startEngines
  dsimp only
  constructor
  · obtain ⟨hcfg, hlive, hglob, hhbm, hf, hlost, hjobs, hrest, hslots⟩ := stopKeeps_engines (EnginesOnly.begins { s with
      cores := mmap (fun _ => Core.init) (fun _ x => if x.busy || x.pieces.isEmpty then x else x.start x.pieces) s.cores
      pipes := mmap (fun _ => Core.init) (fun _ x => if x.busy || x.pieces.isEmpty then x else x.start x.pieces) s.pipes })
    exact ⟨hcfg, hlive, hglob, hhbm, hf, hlost, hjobs, hrest, hslots⟩
  · exact going_begins ⟨forall_mmap (P := Core.going) (fun _ x => going_started x), forall_mmap (P := Core.going) (fun _ x => going_started x)⟩

/-- The window begins: units are laid out, then every engine starts. -/
theorem workWindow_starts (s : State) : ∃ u, Apart { s with glob := { s.glob with inHeadland := false, offset := s.hCc } } u ∧
    s.workWindow = u.startEngines := by
  refine ⟨_, ?_, rfl⟩
  refine Apart.trans ?_ (.layPipes _ _)
  refine Apart.trans ?_ (.layPipes _ _)
  refine Apart.trans ?_ (.foldl (fun u q => .layCores u q) _ _)
  refine Apart.trans ?_ (.foldl (fun u f => .sliceBegins u f) _ _)
  refine Apart.trans ?_ (.modSeed _ _)
  refine Apart.trans ?_ (.foldl (fun u e => .startSlices u e) _ _)
  exact (Apart.countRows _).trans (.slotChecks _)

end Sys2Proof.Machine
end

section
/-! What the running unit of a slice may change as it is cut (R105): its counts, its draws, its areas and its job's status. -/

namespace Sys2Proof.Machine

/-! ## Steps of a unit -/

/-- The state around the units: without what a unit that stops may touch. -/
def State.aroundUnits (s : State) : State :=
  { s with
    fields := [], amus := [], keys := KeyStore.reset, free := 0, hbm := []
    hbmc := { s.hbmc with servedNow := 0, fencedReads := 0 }
    faults := { s.faults with reports := [] }
    adm := { s.adm with jobs := [] } }

/-- From `s` to `t` the fields keep their slices and cuts, the match units their slices, the jobs their opcodes. -/
structure UnitStep (s t : State) : Prop where
  rest : t.aroundUnits = s.aroundUnits
  fields : mwf (fun _ => Field.init) s.fields = true → mwf (fun _ => Field.init) t.fields = true ∧
    ∀ g, (t.field g).slices = (s.field g).slices ∧ (t.field g).cuts = (s.field g).cuts
  amus : mwf (fun _ => Amu.init) s.amus = true → mwf (fun _ => Amu.init) t.amus = true ∧ ∀ u, (t.amu u).slices = (s.amu u).slices
  opcodes : ∀ j ∈ t.adm.jobs, ∃ i ∈ s.adm.jobs, i.opcode = j.opcode

namespace UnitStep

variable {s t u : State}

theorem refl (s : State) : UnitStep s s := ⟨rfl, fun h => ⟨h, fun _ => ⟨rfl, rfl⟩⟩, fun h => ⟨h, fun _ => rfl⟩, fun j h => ⟨j, h, rfl⟩⟩
theorem trans (a : UnitStep s t) (b : UnitStep t u) : UnitStep s u where
  rest := b.rest.trans a.rest
  fields h := by
    obtain ⟨ht, hs⟩ := a.fields h
    obtain ⟨hu, ht⟩ := b.fields ht
    exact ⟨hu, fun g => ⟨(ht g).1.trans (hs g).1, (ht g).2.trans (hs g).2⟩⟩
  amus h := by
    obtain ⟨ht, hs⟩ := a.amus h
    obtain ⟨hu, ht⟩ := b.amus ht
    exact ⟨hu, fun g => (ht g).trans (hs g)⟩
  opcodes j h := by
    obtain ⟨i, hi, e⟩ := b.opcodes j h
    obtain ⟨k, hk, e'⟩ := a.opcodes i hi
    exact ⟨k, hk, e'.trans e⟩
theorem ite {c : Prop} [Decidable c] (a : UnitStep s t) (b : UnitStep s u) : UnitStep s (if c then t else u) := by
  split
  · exact a
  · exact b
theorem foldl {β : Type} {f : State → β → State} (hf : ∀ s b, UnitStep s (f s b)) (l : List β) (s : State) : UnitStep s (l.foldl f s) := by
  induction l generalizing s with
  | nil => exact refl s
  | cons b l ih => exact (hf s b).trans (ih _)
theorem steady (h : UnitStep s t) : Steady s t := by
  have e := congrArg State.steady h.rest
  exact ⟨e⟩
theorem fences (h : UnitStep s t) : t.hbmc.pcFenced = s.hbmc.pcFenced := by
  have e := congrArg (fun u : State => u.hbmc.pcFenced) h.rest
  exact e

/-- A step that leaves fields, match units and jobs alone. -/
theorem same (h : t.aroundUnits = s.aroundUnits) (hf : t.fields = s.fields) (ha : t.amus = s.amus) (hj : t.adm.jobs = s.adm.jobs) :
    UnitStep s t where
  rest := h
  fields w := by
    have e (g : Nat) : t.field g = s.field g := by rw [State.field, hf, State.field]
    exact ⟨hf ▸ w, fun g => by rw [e]; exact ⟨rfl, rfl⟩⟩
  amus w := by
    have e (g : Nat) : t.amu g = s.amu g := by rw [State.amu, ha, State.amu]
    exact ⟨ha ▸ w, fun g => by rw [e]⟩
  opcodes j h := ⟨j, hj ▸ h, rfl⟩

theorem modField (s : State) (f : Nat) (g : Field → Field) (hg : ∀ x, (g x).slices = x.slices ∧ (g x).cuts = x.cuts) :
    UnitStep s (s.modField f g) where
  rest := rfl
  fields w := by
    refine ⟨mwf_mput w, fun k => ?_⟩
    have e : (s.modField f g).field k = if k = f then g (s.field f) else s.field k := field_setField w f k _
    rw [e]
    split
    · subst_vars
      exact hg _
    · exact ⟨rfl, rfl⟩
  amus w := ⟨w, fun _ => rfl⟩
  opcodes j h := ⟨j, h, rfl⟩
theorem modAmu (s : State) (a : Nat) (g : Amu → Amu) (hg : ∀ x, (g x).slices = x.slices) : UnitStep s (s.modAmu a g) where
  rest := rfl
  fields w := ⟨w, fun _ => ⟨rfl, rfl⟩⟩
  amus w := by
    refine ⟨mwf_mput w, fun k => ?_⟩
    have e : (s.modAmu a g).amu k = if k = a then g (s.amu a) else s.amu k := amu_setAmu w a k _
    rw [e]
    split
    · subst_vars
      exact hg _
    · rfl
  opcodes j h := ⟨j, h, rfl⟩
theorem modJob (s : State) (id : Nat) (g : Job → Job) (hg : ∀ j, (g j).opcode = j.opcode) : UnitStep s (s.modJob id g) where
  rest := rfl
  fields w := ⟨w, fun _ => ⟨rfl, rfl⟩⟩
  amus w := ⟨w, fun _ => rfl⟩
  opcodes j h := by
    obtain ⟨i, hi, e⟩ := List.mem_map.1 h
    refine ⟨i, hi, ?_⟩
    rw [← e]
    split
    · exact (hg i).symm
    · rfl

theorem hbmPoke (s : State) (a : Nat) (b : Bytes) : UnitStep s (s.hbmPoke a b) := by
  obtain ⟨m, e⟩ := hbmPoke_only (s := s) a b
  rw [e]
  exact same rfl rfl rfl rfl
theorem blur (s : State) (rs : List (Nat × Nat)) : UnitStep s (s.blur rs) :=
  foldl (fun u r => trans (t := (u.drawBytes r.2).2) (same rfl rfl rfl rfl) (hbmPoke _ _ _)) rs s
theorem setStatus (s : State) (id st : Nat) : UnitStep s (s.setStatus id st) := modJob s _ _ fun j => by split <;> rfl
theorem wrote (s : State) (id : Nat) (d r : List (Nat × Nat)) : UnitStep s (s.wrote id d r) := modJob s _ _ fun _ => rfl
theorem blurJob (s : State) (id st : Nat) : UnitStep s (s.blurJob id st) := by
  unfold State.blurJob
  split
  · exact refl s
  · rename_i j _
    have h : UnitStep s (if st = 0x08 ∨ st = 0x21 ∨ st = 0x24 then s.blur j.scratch else s) := ite (blur s _) (refl s)
    exact ite (h.trans (blur _ _)) h

end UnitStep

/-! ## Counts and draws -/

/-- A step of a unit that writes no byte and marks no job. -/
structure Counts (s t : State) : Prop where
  unit : UnitStep s t
  jobs : t.adm.jobs = s.adm.jobs
  hbm : t.hbm = s.hbm

namespace Counts

variable {s t u : State}

theorem refl (s : State) : Counts s s := ⟨.refl s, rfl, rfl⟩
theorem trans (a : Counts s t) (b : Counts t u) : Counts s u := ⟨a.unit.trans b.unit, b.jobs.trans a.jobs, b.hbm.trans a.hbm⟩
theorem ite {c : Prop} [Decidable c] (a : Counts s t) (b : Counts s u) : Counts s (if c then t else u) := by
  split
  · exact a
  · exact b
theorem foldl {β : Type} {f : State → β → State} (hf : ∀ s b, Counts s (f s b)) (l : List β) (s : State) : Counts s (l.foldl f s) := by
  induction l generalizing s with
  | nil => exact refl s
  | cons b l ih => exact (hf s b).trans (ih _)
theorem same (h : t.aroundUnits = s.aroundUnits) (hf : t.fields = s.fields) (ha : t.amus = s.amus) (hj : t.adm.jobs = s.adm.jobs)
    (hm : t.hbm = s.hbm) : Counts s t := ⟨.same h hf ha hj, hj, hm⟩

theorem modField (s : State) (f : Nat) (g : Field → Field) (hg : ∀ x, (g x).slices = x.slices ∧ (g x).cuts = x.cuts) :
    Counts s (s.modField f g) := ⟨.modField s f g hg, rfl, rfl⟩
theorem raise (s : State) (n : Nat) (u : BitVec 16) (d0 d1 : Nat) : Counts s (s.raise n u d0 d1) := by
  rcases raise_cases (s := s) n u d0 d1 with e | ⟨-, -, e⟩
  · rw [e]
    exact refl s
  · rw [e]
    exact same rfl rfl rfl rfl rfl
theorem hbmRead (s : State) (a n : Nat) : Counts s (s.hbmRead a n).2 := by
  obtain ⟨k, l, e⟩ := fencedReads_only (s.countReqs (reqs a n)) (a / 64) (reqs a n)
  unfold State.hbmRead
  rw [e]
  exact same rfl rfl rfl rfl rfl
theorem draw (s : State) (n : Nat) : Counts s (s.draw n).2 := same rfl rfl rfl rfl rfl
theorem touch (s : State) (rs : List (Nat × Nat)) : Counts s (s.touch rs) := foldl (fun u (r : Nat × Nat) => hbmRead u r.1 r.2) rs s
theorem countKeys (s : State) (u n : Nat) : Counts s (s.countKeys u n) := by
  unfold State.countKeys
  split
  · exact refl s
  · refine ⟨UnitStep.modAmu s _ _ ?_, rfl, rfl⟩
    exact fun _ => rfl
theorem modKeys (s : State) (g : KeyStore → KeyStore) : Counts s (s.modKeys g) := same rfl rfl rfl rfl rfl
theorem setSlot (s : State) (n : Nat) (k : KSlot) : Counts s (s.setSlot n k) := same rfl rfl rfl rfl rfl
theorem halfCopies (s : State) (n : Nat) (b : Bytes) : Counts s (s.halfCopies n b) := by
  unfold State.halfCopies
  exact modKeys s _
theorem drawVersion {n : Nat} {v : Nat} (h : s.drawVersion n = some (v, t)) : Counts s t := by
  unfold State.drawVersion at h
  dsimp only at h
  split at h
  · simp at h
  · simp only [Option.some.injEq, Prod.mk.injEq] at h
    rw [← h.2]
    exact ite (((setSlot s _ _).trans (halfCopies _ _ _)).trans (raise _ _ _ _ _)) (setSlot s _ _)
theorem nextVersion {n : Nat} {v : DWord} (h : s.nextVersion n = some (v, t)) : Counts s t := by
  unfold State.nextVersion at h
  obtain ⟨r, hr, e⟩ := Option.map_eq_some_iff.1 h
  obtain ⟨-, rfl⟩ := Prod.mk.inj e
  exact drawVersion hr
/-- VERSION values drawn under a slot (R166). -/
theorem drawMany (s : State) (slot n : Nat) : Counts s (s.drawMany slot n) := by
  induction n generalizing s with
  | zero => exact refl s
  | succ n ih =>
    unfold State.drawMany
    split
    · rename_i r h
      exact (nextVersion h).trans (ih _)
    · exact refl s

theorem counted (c : UnitCtx) (s : State) (reads : List (Nat × Nat)) (keys : Nat → Nat) (egr ring : Nat) :
    Counts s (c.counted s reads keys egr ring) := by
  unfold UnitCtx.counted
  dsimp only
  refine trans ?_ (modField _ _ _ fun _ => ⟨rfl, rfl⟩)
  exact (touch s reads).trans (foldl (fun u (e : Nat × Nat) => countKeys u _ _) _ _)
theorem partDraws (c : UnitCtx) (s : State) : Counts s (c.partDraws s) := by
  refine foldl (fun u e => ?_) _ s
  split
  · exact ite (refl u) (drawMany u _ _)
  · exact refl u
/-- What a unit that stops before its end has moved. -/
theorem partCounted (c : UnitCtx) (s : State) : Counts s (c.partCounted s) := by
  unfold UnitCtx.partCounted
  dsimp only
  refine trans ?_ (partDraws _ _)
  refine trans ?_ (counted _ _ _ _ _ _)
  exact same rfl rfl rfl rfl rfl
/-- A unit of the parse-and-seal stage that is cut has moved a part of its bytes. -/
theorem ingestBroken (s : State) (j : Job) (p u f : Nat) : Counts s (s.ingestBroken j p u f false) := by
  unfold State.ingestBroken
  dsimp only
  split
  · exact refl s
  · rw [if_pos (by decide)]
    refine trans ?_ (modField _ _ _ fun _ => ⟨rfl, rfl⟩)
    exact ((draw s 192).trans (touch _ _)).trans (drawMany _ _ _)

end Counts

/-! ## A unit that is cut -/

namespace UnitStep

variable (s : State)

theorem broken_cut (c : UnitCtx) : UnitStep s (c.broken s .cut) :=
  ((Counts.partCounted c s).unit.trans (blur _ _)).trans (wrote _ _ _ _)
theorem broken_failed (c : UnitCtx) : UnitStep s (c.broken s .failed) :=
  ((Counts.partCounted c s).unit.trans (blur _ _)).trans (wrote _ _ _ _)
theorem breakUnit_cut (j : Job) (sl : Slice) (f : Nat) : UnitStep s (s.breakUnit j sl f .cut) := by
  unfold State.breakUnit
  split
  · exact (Counts.ingestBroken s j _ _ f).unit
  · dsimp only
    split
    · exact broken_cut s _
    · split
      · exact broken_cut s _
      · have h (st : Nat) := ((broken_failed s (s.sliceCtx j sl)).trans (setStatus _ j.id st)).trans (blurJob _ j.id st)
        split
        · exact (h _).trans (Counts.raise _ _ _ _ _).unit
        · exact h _

end UnitStep

end Sys2Proof.Machine
end

section
/-! The statement of the ends and cuts of units (R59, R105, R110, R248). -/

namespace Sys2Proof.Machine

/-! ## Units of a match unit (R248) -/

section Lookup

variable (s : State)

/-- Beside bytes and free values, an unchecked unit leaves its job's status open. -/
theorem settle_only (t : State) (j : Job) (bad : Bool) : ∃ m k n l, s.settle t j bad =
    { t with hbm := m, host := k, free := n, adm := { t.adm with jobs := l } } := by
  have hput (l : List (Nat × Byte)) : ∀ u : State, ∃ m, l.foldl (fun t e => t.hbmPut e.1 e.2) u = { u with hbm := m } := by
    induction l with
    | nil => exact fun u => ⟨u.hbm, rfl⟩
    | cons e l ih =>
      intro u
      obtain ⟨m, e'⟩ := hbmPoke_only (s := u) e.1 [e.2]
      obtain ⟨m', e''⟩ := ih (u.hbmPut e.1 e.2)
      exact ⟨m', by rw [List.foldl_cons, e'', show u.hbmPut e.1 e.2 = { u with hbm := m } from e']⟩
  have hhost (l : List (Nat × Byte)) : ∀ u : State, ∃ k, l.foldl (fun t e => t.hostPut e.1 e.2) u = { u with host := k } := by
    induction l with
    | nil => exact fun u => ⟨u.host, rfl⟩
    | cons e l ih => exact fun u => ih _
  have hany (u : State) (id : Nat) : ∃ n l, u.anyStatus id = { u with free := n, adm := { u.adm with jobs := l } } := by
    unfold State.anyStatus
    dsimp only
    split
    · exact ⟨_, _, rfl⟩
    · exact ⟨_, u.adm.jobs, rfl⟩
  unfold State.settle
  split
  · exact ⟨t.hbm, t.host, t.free, t.adm.jobs, rfl⟩
  · dsimp only
    obtain ⟨m, e⟩ := hput (((cellsChanged hbmDefault s.hbm t.hbm).filter (fun k => !isLedger k)).zip (t.drawBytes
      (((cellsChanged hbmDefault s.hbm t.hbm).filter (fun k => !isLedger k)).length + (cellsChanged hostDefault s.host t.host).length)).1)
      (t.drawBytes (((cellsChanged hbmDefault s.hbm t.hbm).filter (fun k => !isLedger k)).length +
        (cellsChanged hostDefault s.host t.host).length)).2
    rw [e]
    obtain ⟨k, e'⟩ := hhost _ _
    rw [e']
    obtain ⟨n, l, e''⟩ := hany _ _
    exact ⟨m, k, n, l, e''⟩

/-- What a unit of an AMU_LOOKUP writes: an answer word for each of its keys. -/
def State.answers (j : Job) (i : Nat) : Bytes :=
  let n := min 4096 (dImm0 j.desc / 2 ^ 32 - 4096 * i)
  let keys := s.hbmPeek (dOp j.desc 0 + 65536 * i) (16 * n)
  (upTo n).flatMap (fun q => toLe 4 ((s.amu (dImm0 j.desc % 4)).answer (BitVec.ofNat 16 (fld (dImm0 j.desc) 16 16))
    (BitVec.ofNat 128 (rd keys (16 * q) 16))).toNat)

/-- Two match units that hold the same and have the same units to run. -/
def Amu.alike (x y : Amu) : Prop := x.slices = y.slices ∧ x.table = y.table ∧ x.count = y.count

theorem countKeys_only (h : mwf (fun _ => Amu.init) s.amus = true) (u n : Nat) : ∃ a, s.countKeys u n = { s with amus := a } ∧
    mwf (fun _ => Amu.init) a = true ∧ ∀ v, Amu.alike (mget (fun _ => Amu.init) a v) (s.amu v) := by
  unfold State.countKeys
  split
  · exact ⟨s.amus, rfl, h, fun v => ⟨rfl, rfl, rfl⟩⟩
  · refine ⟨_, rfl, mwf_mput h, fun v => ?_⟩
    rw [mget_mput h]
    split
    · subst_vars
      exact ⟨rfl, rfl, rfl⟩
    · exact ⟨rfl, rfl, rfl⟩

/-- A read supplies the bytes as they stand; its counts and reports change, the fences do not. -/
theorem hbmRead_only (a n : Nat) : ∃ b f, s.hbmRead a n = (s.hbmPeek a n, { s with hbmc := b, faults := f }) ∧
    b.pcFenced = s.hbmc.pcFenced := by
  obtain ⟨k, l, e⟩ := fencedReads_only (s.countReqs (reqs a n)) (a / 64) (reqs a n)
  exact ⟨_, _, congrArg (Prod.mk _) e, rfl⟩

/-- A unit's answers stand in HBM and its keys are counted; where its job is unchecked, bytes and statuses are free. -/
theorem lookupUnit_only (h : mwf (fun _ => Amu.init) s.amus = true) (j : Job) (i : Nat) : ∃ m k n l b f a, s.lookupUnit j i =
    { s with hbm := m, host := k, free := n, hbmc := b, faults := f, amus := a, adm := { s.adm with jobs := l } } ∧
    mwf (fun _ => Amu.init) a = true ∧ (∀ v, Amu.alike (mget (fun _ => Amu.init) a v) (s.amu v)) ∧
    (j.unchecked = false → l = s.adm.jobs ∧ m = (s.hbmWrite (dOp j.desc 1 + 16384 * i) (s.answers j i)).hbm) := by
  obtain ⟨b, f, hr, hf⟩ := hbmRead_only s (dOp j.desc 0 + 65536 * i) (16 * min 4096 (dImm0 j.desc / 2 ^ 32 - 4096 * i))
  unfold State.lookupUnit
  dsimp only
  rw [hr]
  obtain ⟨m, c, hw⟩ := hbmWrite_only { s with hbmc := b, faults := f } (dOp j.desc 1 + 16384 * i) (s.answers j i)
  have hcongr := hbmPoke_congr (s := s.countReqs (reqs (dOp j.desc 1 + 16384 * i) (s.answers j i).length))
    (t := State.countReqs { s with hbmc := b, faults := f } (reqs (dOp j.desc 1 + 16384 * i) (s.answers j i).length)) rfl hf
    (dOp j.desc 1 + 16384 * i) (s.answers j i)
  have hm : m = (s.hbmWrite (dOp j.desc 1 + 16384 * i) (s.answers j i)).hbm := (congrArg State.hbm hw).symm.trans hcongr
  obtain ⟨a, ha, hwf, halike⟩ := countKeys_only { s with hbm := m, hbmc := { b with servedNow := c }, faults := f } h (dImm0 j.desc % 4)
    (min 4096 (dImm0 j.desc / 2 ^ 32 - 4096 * i))
  have hu : (State.hbmWrite { s with hbmc := b, faults := f } (dOp j.desc 1 + 16384 * i) (s.answers j i)).countKeys (dImm0 j.desc % 4)
      (min 4096 (dImm0 j.desc / 2 ^ 32 - 4096 * i)) =
        { s with hbm := m, hbmc := { b with servedNow := c }, faults := f, amus := a } := by rw [hw, ha]
  cases hj : j.unchecked with
  | false =>
    refine ⟨m, s.host, s.free, s.adm.jobs, { b with servedNow := c }, f, a, ?_, hwf, halike, fun _ => ⟨rfl, hm⟩⟩
    rw [settle_checked hj]
    exact hu
  | true =>
    obtain ⟨m', k, n, l, hs⟩ := settle_only s { s with hbm := m, hbmc := { b with servedNow := c }, faults := f, amus := a } j false
    refine ⟨m', k, n, l, { b with servedNow := c }, f, a, ?_, hwf, halike, nofun⟩
    exact (congrArg (fun t => s.settle t j false) hu).trans hs

/-- The next unit of a match unit's slice, once one has ended. -/
theorem amuUnitEnd_eq {a : Nat} {sl : Slice} {rest : List Slice} {j : Job} (hsl : (s.amu a).slices = sl :: rest)
    (hj : s.job? sl.job = some j) (hst : j.status = none) : s.amuUnitEnd a =
      ((s.lookupUnit j (sl.start + sl.done)).unitDone sl.job sl.seq 0).modAmu a (fun x => { x with slices := sl.next ++ rest }) := by
  simp only [State.amuUnitEnd, hsl, hj, hst]
  rfl

end Lookup

/-! ## Bytes that a cut leaves alone (R105) -/

/-- From `s` to `t` no byte below the device's own changes outside the ranges `rs`. -/
structure Spares (rs : List (Nat × Nat)) (s t : State) : Prop where
  wf : mwf hbmDefault s.hbm = true → mwf hbmDefault t.hbm = true
  byte : mwf hbmDefault s.hbm = true → ∀ x, x < 0x17E8280000 → (∀ r ∈ rs, ¬ InRange x r) → t.hbmByte x = s.hbmByte x

namespace Spares

variable {rs rs' : List (Nat × Nat)} {s t u : State}

theorem trans (a : Spares rs s t) (b : Spares rs t u) : Spares rs s u :=
  ⟨fun h => b.wf (a.wf h), fun h x hx hr => (b.byte (a.wf h) x hx hr).trans (a.byte h x hx hr)⟩
theorem mono (a : Spares rs s t) (h : ∀ r ∈ rs, r ∈ rs') : Spares rs' s t :=
  ⟨a.wf, fun w x hx hr => a.byte w x hx fun r hm => hr r (h r hm)⟩

theorem own_above {x : Nat} (hx : x < 0x17E8280000) : x % 2 ^ 37 = x ∧ internalA x = false := by
  have hmod : x % 2 ^ 37 = x := Nat.mod_eq_of_lt (by omega)
  rw [internalA, hmod]
  exact ⟨rfl, decide_eq_false (by omega)⟩
/-- What writes no byte and fences no channel. -/
theorem same (h : t.hbm = s.hbm) (hf : t.hbmc.pcFenced = s.hbmc.pcFenced) (rs : List (Nat × Nat)) : Spares rs s t := by
  refine ⟨fun w => h ▸ w, fun _ x hx _ => ?_⟩
  have hgone : t.hbmGone x = s.hbmGone x := by rw [State.hbmGone, State.hbmGone, hf]
  rw [State.hbmByte, State.hbmByte, hgone, (own_above hx).2, h]
  rfl
theorem counts (h : Counts s t) (rs : List (Nat × Nat)) : Spares rs s t := same h.hbm h.unit.fences rs
theorem wrote (s : State) (id : Nat) (d r rs : List (Nat × Nat)) : Spares rs s (s.wrote id d r) := same (by rfl) (by rfl) rs
theorem hbmPut (s : State) {a : Nat} (ha : ∃ r ∈ rs, InRange (a % 2 ^ 37) r) (b : Byte) : Spares rs s (s.hbmPut a b) := by
  refine ⟨fun w => ?_, fun w x hx hr => ?_⟩
  · unfold State.hbmPut
    split
    · exact w
    · exact mwf_mput w
  · have hne : ¬ x % 2 ^ 37 = a % 2 ^ 37 := by
      rw [(own_above hx).1]
      rintro rfl
      obtain ⟨r, hm, hin⟩ := ha
      exact hr r hm hin
    rw [hbmByte_hbmPut w, (own_above hx).2]
    by_cases hg : s.hbmGone x = true
    · rw [if_pos hg, State.hbmByte, if_pos hg]
    · rw [if_neg hg, if_neg (by decide), if_neg (fun h => hne h.2)]
theorem hbmPoke (s : State) (a : Nat) (b : Bytes) (h : ∀ i, i < b.length → ∃ r ∈ rs, InRange ((a + i) % 2 ^ 37) r) :
    Spares rs s (s.hbmPoke a b) := by
  induction b generalizing s a with
  | nil => exact same rfl rfl rs
  | cons x b ih =>
    refine trans (hbmPut s (h 0 (by simp)) x) (ih _ (a + 1) fun i hi => ?_)
    have := h (i + 1) (by simpa using hi)
    rwa [Nat.add_assoc, Nat.add_comm 1 i]
theorem blur (s : State) (rs : List (Nat × Nat)) : Spares rs s (s.blur rs) := by
  have hfold (l : List (Nat × Nat)) : ∀ u : State, (∀ r ∈ l, r ∈ rs) → Spares rs u (u.blur l) := by
    induction l with
    | nil => exact fun u _ => same rfl rfl rs
    | cons r l ih =>
      intro u hl
      have hdraw : Spares rs u (u.drawBytes r.2).2 := same (by rfl) (by rfl) rs
      refine trans (hdraw.trans (hbmPoke _ r.1 (u.drawBytes r.2).1 fun i hi => ?_))
        (ih _ fun q hq => hl q (List.mem_cons_of_mem _ hq))
      exact ⟨r, hl r List.mem_cons_self, i, by simpa [State.drawBytes] using hi, rfl⟩
  exact hfold rs s fun _ h => h

theorem blurJob (s : State) (id : Nat) {j : Job} (hj : s.job? id = some j) : Spares j.scratch s (s.blurJob id 0x08) := by
  simp only [State.blurJob, hj]
  exact blur s j.scratch

end Spares

/-! ## The job of a unit that is cut -/

theorem job?_congr {s t : State} (h : t.adm.jobs = s.adm.jobs) (id : Nat) : t.job? id = s.job? id := by rw [State.job?, h, State.job?]
theorem job?_id {s : State} {id : Nat} {j : Job} (h : s.job? id = some j) : j.id = id := by simpa using List.find?_some h
theorem blur_only (s : State) (rs : List (Nat × Nat)) : ∃ m n, s.blur rs = { s with hbm := m, free := n } := by
  induction rs generalizing s with
  | nil => exact ⟨s.hbm, s.free, rfl⟩
  | cons r rs ih =>
    obtain ⟨m, e⟩ := hbmPoke_only (s := (s.drawBytes r.2).2) r.1 (s.drawBytes r.2).1
    obtain ⟨m', n', e'⟩ := ih ((s.drawBytes r.2).2.hbmPoke r.1 (s.drawBytes r.2).1)
    exact ⟨m', n', e'.trans (by rw [e]; rfl)⟩
theorem job?_blur (s : State) (rs : List (Nat × Nat)) (id : Nat) : (s.blur rs).job? id = s.job? id := by
  obtain ⟨m, n, e⟩ := blur_only s rs
  rw [e]
  rfl
theorem job?_blurJob (s : State) (k st id : Nat) : (s.blurJob k st).job? id = s.job? id := by
  unfold State.blurJob
  split
  · rfl
  · dsimp only
    split <;> split <;> simp [job?_blur]

theorem job?_wrote (s : State) (id : Nat) (d r : List (Nat × Nat)) : (s.wrote id d r).job? id =
    (s.job? id).map (fun j => { j with dest := (j.dest ++ d).eraseDups, scratch := (j.scratch ++ r).eraseDups }) := by
  unfold State.wrote
  rw [job?_modJob _ _ _ (by intro _; rfl)]
  cases h : s.job? id with
  | none => rfl
  | some j => simp [job?_id h]

/-- What a check that stops a unit gives its job (R172, R174, R175). -/
theorem stop_status {c : UnitCtx} {st : Nat} {b : Option BEnt} (h : c.stop false = some (st, b)) : st = 0x21 ∨ st = 0x24 := by
  unfold UnitCtx.stop at h
  split at h
  · simp at h
    exact .inl h.1.symm
  · split at h
    · simp at h
      exact .inr h.1.symm
    · simp at h

/-- A query unit that is cut: its job keeps its status, and its scratch areas take in what the unit writes there. -/
theorem broken_cut_job (c : UnitCtx) (s : State) {j : Job} (hj : s.job? c.job.id = some j) : ∃ rs,
    (c.broken s .cut).job? c.job.id = some { j with dest := (j.dest ++ []).eraseDups, scratch := (j.scratch ++ rs).eraseDups } ∧
    Spares rs s (c.broken s .cut) := by
  have hc := Counts.partCounted c s
  refine ⟨rangesOf c.out.writes, ?_, ?_⟩
  · unfold UnitCtx.broken
    dsimp only
    rw [job?_wrote, job?_blur, job?_congr hc.jobs, hj]
    rfl
  · have hblur := (Spares.counts hc (rangesOf c.out.writes)).trans (.blur _ _)
    unfold UnitCtx.broken
    exact hblur.trans (.wrote _ _ _ _ _)

/-- A unit whose check failed: its job keeps its status, and its destination and scratch areas take in what the unit writes there. -/
theorem broken_failed_job (c : UnitCtx) (s : State) {j : Job} (hj : s.job? c.job.id = some j) : ∃ d rs,
    (c.broken s .failed).job? c.job.id = some { j with dest := (j.dest ++ d).eraseDups, scratch := (j.scratch ++ rs).eraseDups } := by
  refine ⟨c.outRanges false, rangesOf c.out.writes, ?_⟩
  unfold UnitCtx.broken
  dsimp only
  rw [job?_wrote, job?_blur, job?_congr (Counts.partCounted c s).jobs, hj]
  rfl

/-- The job of a unit that is cut, before its own status: a check that stops the unit may have given it one. -/
theorem breakUnit_cut_job {s : State} {j : Job} {sl : Slice} (hj : s.job? sl.job = some j) (hst : j.status = none) (f : Nat) :
    ∃ k, (s.breakUnit j sl f .cut).job? sl.job = some k ∧ (k.status = none ∨ k.status = some 0x21 ∨ k.status = some 0x24) ∧
      (j.opcode = 0x0700 ∨ (s.sliceCtx j sl).stop false = none → k.status = none) ∧
      (j.opcode = 0x0100 → (s.sliceCtx j sl).stop false = none → Spares k.scratch s (s.breakUnit j sl f .cut)) := by
  have hid : (s.sliceCtx j sl).job.id = sl.job := job?_id hj
  generalize hc : s.sliceCtx j sl = c at hid
  have hjc : s.job? c.job.id = some j := hid ▸ hj
  have hcut : ∃ k, (c.broken s .cut).job? sl.job = some k ∧ k.status = none ∧ Spares k.scratch s (c.broken s .cut) := by
    obtain ⟨rs, hk, hs⟩ := broken_cut_job c s hjc
    refine ⟨{ j with dest := (j.dest ++ []).eraseDups, scratch := (j.scratch ++ rs).eraseDups }, hid ▸ hk, hst, hs.mono fun r hr => ?_⟩
    simp [hr]
  unfold State.breakUnit
  rw [hc]
  split
  · rename_i hop
    have hcounts := Counts.ingestBroken s j sl.pos (sl.start + sl.done) f
    refine ⟨j, ?_, .inl hst, fun _ => hst, fun h => absurd (hop.symm.trans h) (by decide)⟩
    exact (job?_congr hcounts.jobs _).trans hj
  · rename_i hop
    dsimp only
    split
    · obtain ⟨k, hk, hs, hsp⟩ := hcut
      exact ⟨k, hk, .inl hs, fun _ => hs, fun _ _ => hsp⟩
    · rename_i st b hstop
      obtain ⟨k, hk, hs, hsp⟩ := hcut
      obtain ⟨d, rs, hfail⟩ := broken_failed_job c s hjc
      have hnone : ¬ (j.opcode = 0x0700 ∨ c.stop false = none) := by simp [hop, hstop]
      have hmark : ∃ k, (((c.broken s .failed).setStatus j.id st).blurJob j.id st).job? sl.job = some k ∧
          (k.status = some 0x21 ∨ k.status = some 0x24) := by
        rw [hid] at hfail
        rw [job?_id hj, job?_blurJob, job?_setStatus, hfail, Option.map_some]
        refine ⟨_, rfl, ?_⟩
        simpa [hst] using stop_status hstop
      split
      · exact ⟨k, hk, .inl hs, fun _ => hs, fun _ _ => hsp⟩
      · obtain ⟨k, hk, hs⟩ := hmark
        refine ⟨k, ?_, .inr hs, fun h => absurd h hnone, fun _ h => absurd (.inr h) hnone⟩
        split
        · exact (job?_congr (Counts.raise _ _ _ _ _).jobs _).trans hk
        · exact hk

/-! ## A slice that leaves its field -/

/-- The first slice of a field whose job still runs begins; the slices before it are gone. -/
theorem sliceBegins_only {s : State} (h : mwf (fun _ => Field.init) s.fields = true) (f : Nat) : ∃ m,
    s.sliceBegins f = { s with fields := m } ∧ mwf (fun _ => Field.init) m = true ∧
    (mget (fun _ => Field.init) m f).slices = (s.field f).slices.dropWhile s.sliceDead ∧
    (mget (fun _ => Field.init) m f).cuts = (s.field f).cuts ∧ ∀ g, g ≠ f → mget (fun _ => Field.init) m g = s.field g := by
  have hmod (g : Field → Field) (hs : (g (s.field f)).slices = (s.field f).slices.dropWhile s.sliceDead)
      (hc : (g (s.field f)).cuts = (s.field f).cuts) : ∃ m, s.modField f g = { s with fields := m } ∧
        mwf (fun _ => Field.init) m = true ∧ (mget (fun _ => Field.init) m f).slices = (s.field f).slices.dropWhile s.sliceDead ∧
        (mget (fun _ => Field.init) m f).cuts = (s.field f).cuts ∧ ∀ k, k ≠ f → mget (fun _ => Field.init) m k = s.field k := by
    refine ⟨_, rfl, mwf_mput h, ?_, ?_, fun k hk => ?_⟩
    · rw [mget_mput h, if_pos rfl]
      exact hs
    · rw [mget_mput h, if_pos rfl]
      exact hc
    · rw [mget_mput h, if_neg hk]
      rfl
  unfold State.sliceBegins
  dsimp only
  split
  · rename_i hnil
    exact hmod _ hnil.symm rfl
  · rename_i sl rest hlive
    have hdead : s.sliceDead sl = false := by
      have := List.head?_dropWhile_not s.sliceDead (s.field f).slices
      simpa [hlive] using this
    split
    · rename_i hjob
      simp [State.sliceDead, hjob] at hdead
    · exact hmod _ rfl rfl

/-- The slice at the head of a field leaves it, and the next that can run begins. -/
theorem dropSlice_only {s : State} (h : mwf (fun _ => Field.init) s.fields = true) (f : Nat) : ∃ m,
    s.dropSlice f = { s with fields := m } ∧ mwf (fun _ => Field.init) m = true ∧
    (mget (fun _ => Field.init) m f).slices = ((s.field f).slices.drop 1).dropWhile s.sliceDead ∧
    (mget (fun _ => Field.init) m f).cuts = (s.field f).cuts ∧ ∀ g, g ≠ f → mget (fun _ => Field.init) m g = s.field g := by
  have hfield (g : Nat) : (s.modField f (fun x => { x with slices := x.slices.drop 1 })).field g =
      if g = f then { s.field f with slices := (s.field f).slices.drop 1 } else s.field g := field_setField h f g _
  obtain ⟨m, e, hm, hs, hc, hg⟩ := sliceBegins_only (s := s.modField f (fun x => { x with slices := x.slices.drop 1 })) (mwf_mput h) f
  have hown := (hfield f).trans (if_pos rfl)
  refine ⟨m, e, hm, hs.trans ?_, hc.trans (congrArg Field.cuts hown :), fun g hne => (hg g hne).trans ((hfield g).trans (if_neg hne))⟩
  exact congrArg (fun x : Field => x.slices.dropWhile s.sliceDead) hown

/-- The state of a cut before its slice leaves: the unit stopped, and its job marked unless a check of the unit did. -/
def State.cutUnit (s : State) (j : Job) (sl : Slice) (f : Nat) : State :=
  ((s.breakUnit j sl f .cut).setStatus sl.job 0x08).blurJob sl.job 0x08

theorem UnitStep.cutUnit (s : State) (j : Job) (sl : Slice) (f : Nat) : UnitStep s (s.cutUnit j sl f) :=
  ((breakUnit_cut s j sl f).trans (setStatus _ _ _)).trans (blurJob _ _ _)

/-- The job of a slice that is cut: its status, and the bytes that a query's cut leaves alone (R105). -/
theorem cutUnit_job {s : State} {j : Job} {sl : Slice} (hj : s.job? sl.job = some j) (hst : j.status = none) (f : Nat) :
    ∃ k, (s.cutUnit j sl f).job? sl.job = some k ∧ (k.status = some 0x08 ∨ k.status = some 0x21 ∨ k.status = some 0x24) ∧
      (j.opcode = 0x0700 ∨ (s.sliceCtx j sl).stop false = none → k.status = some 0x08) ∧
      (j.opcode = 0x0100 → (s.sliceCtx j sl).stop false = none → Spares k.scratch s (s.cutUnit j sl f)) := by
  obtain ⟨k, hk, hst', hnone, hspares⟩ := breakUnit_cut_job hj hst f
  have hset := job?_setStatus (s := s.breakUnit j sl f .cut) sl.job 0x08
  rw [hk, Option.map_some] at hset
  have hblur := (job?_blurJob ((s.breakUnit j sl f .cut).setStatus sl.job 0x08) sl.job 0x08 sl.job).trans hset
  have hbytes := Spares.blurJob ((s.breakUnit j sl f .cut).setStatus sl.job 0x08) sl.job hset
  have hmark : Spares k.scratch (s.breakUnit j sl f .cut) ((s.breakUnit j sl f .cut).setStatus sl.job 0x08) :=
    .same (by rfl) (by rfl) _
  cases hs : k.status with
  | none =>
    rw [hs, Option.isNone_none, if_pos rfl] at hblur hbytes
    exact ⟨_, hblur, .inl rfl, fun _ => rfl, fun hop hstop => ((hspares hop hstop).trans hmark).trans hbytes⟩
  | some x =>
    rw [hs, Option.isNone_some, if_neg Bool.false_ne_true] at hblur hbytes
    refine ⟨k, hblur, .inr ?_, fun h => absurd ((hnone h).symm.trans hs) nofun,
      fun hop hstop => ((hspares hop hstop).trans hmark).trans hbytes⟩
    exact hst'.resolve_left (by simp [hs])

/-- The end of a cut: the slice leaves its field, and the field counts the cut. -/
theorem dropCut_only {u : State} (h : mwf (fun _ => Field.init) u.fields = true) (f : Nat) : ∃ m,
    (u.modField f (fun x => { x with cuts := satInc 32 x.cuts })).dropSlice f = { u with fields := m } ∧
    mwf (fun _ => Field.init) m = true ∧ (mget (fun _ => Field.init) m f).slices = ((u.field f).slices.drop 1).dropWhile u.sliceDead ∧
    (mget (fun _ => Field.init) m f).cuts = satInc 32 (u.field f).cuts ∧ ∀ g, g ≠ f → mget (fun _ => Field.init) m g = u.field g := by
  have hfield (g : Nat) : (u.modField f (fun x => { x with cuts := satInc 32 x.cuts })).field g =
      if g = f then { u.field f with cuts := satInc 32 (u.field f).cuts } else u.field g := field_setField h f g _
  have hown := (hfield f).trans (if_pos rfl)
  obtain ⟨m, e, hm, hs, hc, hg⟩ := dropSlice_only (s := u.modField f (fun x => { x with cuts := satInc 32 x.cuts })) (mwf_mput h) f
  refine ⟨m, e, hm, ?_, hc.trans (congrArg Field.cuts hown :), fun g hne => (hg g hne).trans ((hfield g).trans (if_neg hne))⟩
  exact hs.trans (congrArg (fun x : Field => (x.slices.drop 1).dropWhile u.sliceDead) hown :)

theorem cutSlice_eq {s : State} {f : Nat} {sl : Slice} {rest : List Slice} {j : Job} (hsl : (s.field f).slices = sl :: rest)
    (hj : s.job? sl.job = some j) :
    s.cutSlice f = ((s.cutUnit j sl f).modField f (fun x => { x with cuts := satInc 32 x.cuts })).dropSlice f := by
  simp only [State.cutSlice, hsl, hj]
  rfl

/-! ## The statement -/

/-- Settles O25: a field's end is its unit's definition; an answered lookup changes bytes and counts alone; and a cut stops its unit,
marks its job and drops its slice. -/
theorem unitEndsAndCuts : Obligations.UnitEndsAndCuts := by
  unfold Obligations.UnitEndsAndCuts
  refine ⟨?ends, ?idle, ?answered, ?cut, ?cutQuery⟩
  case ends =>
    intro s f sl rest j hrun hon hsl hj
    have hexec : exec (.unitEnd (.field f)) s = .next (s.fieldUnitEnd f.val) :=
      (whenRun_of_running hrun _).trans (congrArg _ (if_pos hon))
    refine ⟨fun u hu => ?_, fun u hu => ?_, fun hu => ?_⟩
    all_goals
      rw [hexec]
      simp only [State.fieldUnitEnd, hsl, hj, hu]
  case idle =>
    intro s f hrun h
    refine (whenRun_of_running hrun _).trans (congrArg _ ?_)
    cases hon : s.fieldOn f.val with
    | false => exact if_neg (by simp [hon])
    | true =>
      refine (if_pos hon).trans ?_
      rw [State.fieldUnitEnd, h.resolve_left (by simp [hon])]
  case answered =>
    intro s a sl rest j hrun hwf hon hsl hj hst
    obtain ⟨-, -, -, hamus, -, -, -⟩ := tablesWf_iff.1 hwf
    obtain ⟨m, k, n, l, b, f, x, e, hx, halike, hchecked⟩ := lookupUnit_only s hamus j (sl.start + sl.done)
    obtain ⟨-, htable, hcount⟩ := halike a.val
    refine ⟨s.amuUnitEnd a.val, (whenRun_of_running hrun _).trans (congrArg _ (if_pos hon)), ?_⟩
    rw [amuUnitEnd_eq s hsl hj hst, e]
    have hamu := (amu_setAmu (s := { s with amus := x }) hx a.val a.val { mget (fun _ => Amu.init) x a.val with
      slices := sl.next ++ rest }).trans (if_pos rfl)
    refine ⟨(congrArg Amu.slices hamu :), (congrArg Amu.table hamu :).trans htable, (congrArg Amu.count hamu :).trans hcount,
      fun hj' => ?_, rfl, rfl⟩
    obtain ⟨hjobs, hbytes⟩ := hchecked hj'
    refine ⟨?_, hbytes⟩
    subst hjobs
    have hdone := job?_modJob (s := s) sl.job sl.job (fun j => { j with pls := j.pls.map (fun p =>
      if p.seq = sl.seq then { p with done := modNth p.done 0 (· + 1) } else p) }) (fun _ => rfl)
    rw [hj, Option.map_some, if_pos (job?_id hj)] at hdone
    exact hdone
  case cut =>
    intro s f sl rest j hrun hwf hsl hj hst
    obtain ⟨-, -, hfields, -, -, -, -⟩ := tablesWf_iff.1 hwf
    obtain ⟨k, hk, hmarked, hsliceOverrun, hspares⟩ := cutUnit_job hj hst f.val
    have hunit := UnitStep.cutUnit s j sl f.val
    have hsteady := hunit.steady
    obtain ⟨hwf, hkept⟩ := hunit.fields hfields
    obtain ⟨m, e, -, hslices, hcuts, -⟩ := dropCut_only hwf f.val
    refine ⟨s.cutSlice f.val, whenRun_of_running hrun _, ?_⟩
    rw [cutSlice_eq hsl hj, e]
    rw [(hkept f.val).1, hsl] at hslices
    rw [(hkept f.val).2] at hcuts
    exact ⟨hslices, hcuts, ⟨k, hk, hmarked, hsliceOverrun, fun hop hstop hw => (hspares hop hstop).byte hw⟩, hsteady.cfg, hsteady.live⟩
  case cutQuery =>
    intro s a sl rest j hrun hwf hsl hj hst
    obtain ⟨-, -, -, hamus, -, -, -⟩ := tablesWf_iff.1 hwf
    have hset := job?_setStatus (s := s) sl.job 0x08
    have hamu : ((s.setStatus sl.job 0x08).modAmu a.val (fun x => { x with slices := rest })).amu a.val =
      { s.amu a.val with slices := rest } := (amu_setAmu hamus a.val a.val _).trans (if_pos rfl)
    refine ⟨s.cutLookup a.val, whenRun_of_running hrun _, ?_⟩
    simp only [State.cutLookup, hsl]
    rw [hj, Option.map_some, hst] at hset
    exact ⟨(congrArg Amu.slices hamu :), rfl, ⟨_, hset, rfl⟩, rfl, rfl⟩

end Sys2Proof.Machine
end

section
/-! The statement of work window and tail (R57, R90, R105): every unit stops at the tail, and the end of jobs starts none. -/

namespace Sys2Proof.Machine

/-! ## Units that stop -/

/-- The tables of fields and match units are in canonical form. -/
def State.orderly (s : State) : Prop := mwf (fun _ => Field.init) s.fields = true ∧ mwf (fun _ => Amu.init) s.amus = true

/-- From `s` to `t` units may stop and none joins; the jobs keep their opcodes, and the timebase and the registers stand. -/
structure Stops (s t : State) : Prop where
  steady : Steady s t
  opcodes : ∀ j ∈ t.adm.jobs, ∃ i ∈ s.adm.jobs, i.opcode = j.opcode
  orderly : t.orderly
  fields : ∀ f, (t.field f).slices.length ≤ (s.field f).slices.length
  amus : ∀ u, (t.amu u).slices.length ≤ (s.amu u).slices.length

namespace Stops

variable {s t u : State}

theorem refl (h : s.orderly) : Stops s s := ⟨.refl s, fun j h => ⟨j, h, rfl⟩, h, fun _ => le_rfl, fun _ => le_rfl⟩
theorem trans (a : Stops s t) (b : Stops t u) : Stops s u where
  steady := a.steady.trans b.steady
  opcodes j h := by
    obtain ⟨i, hi, e⟩ := b.opcodes j h
    obtain ⟨k, hk, e'⟩ := a.opcodes i hi
    exact ⟨k, hk, e'.trans e⟩
  orderly := b.orderly
  fields f := (b.fields f).trans (a.fields f)
  amus f := (b.amus f).trans (a.amus f)
theorem of_unit (w : s.orderly) (h : UnitStep s t) : Stops s t where
  steady := h.steady
  opcodes := h.opcodes
  orderly := ⟨(h.fields w.1).1, (h.amus w.2).1⟩
  fields f := (congrArg List.length ((h.fields w.1).2 f).1).le
  amus u := (congrArg List.length ((h.amus w.2).2 u)).le

/-- What a cut leaves of a field's slices. -/
theorem dropCut (h : u.orderly) (f : Nat) :
    Stops u ((u.modField f (fun x => { x with cuts := satInc 32 x.cuts })).dropSlice f) ∧
    (((u.modField f (fun x => { x with cuts := satInc 32 x.cuts })).dropSlice f).field f).slices.length ≤ (u.field f).slices.length - 1 := by
  obtain ⟨m, e, hm, hs, -, hg⟩ := dropCut_only h.1 f
  have hlen : (mget (fun _ => Field.init) m f).slices.length ≤ (u.field f).slices.length - 1 := by
    rw [hs, ← List.length_drop]
    exact (List.dropWhile_suffix _).length_le
  rw [e]
  refine ⟨⟨⟨rfl⟩, fun j h => ⟨j, h, rfl⟩, ⟨hm, h.2⟩, fun g => ?_, fun _ => le_rfl⟩, hlen⟩
  by_cases hgf : g = f
  · subst hgf
    exact hlen.trans (Nat.sub_le _ _)
  · exact (congrArg (fun x : Field => x.slices.length) (hg g hgf)).le

/-- A cut at a field: its slices are fewer by one at least. -/
theorem cutSlice (h : s.orderly) (f : Nat) :
    Stops s (s.cutSlice f) ∧ ((s.cutSlice f).field f).slices.length ≤ (s.field f).slices.length - 1 := by
  cases hsl : (s.field f).slices with
  | nil =>
    rw [State.cutSlice, hsl]
    exact ⟨refl h, by simp [hsl]⟩
  | cons sl rest =>
    rw [← hsl]
    cases hj : s.job? sl.job with
    | none =>
      simp only [State.cutSlice, hsl, hj]
      rw [← hsl]
      exact dropCut h f
    | some j =>
      rw [cutSlice_eq hsl hj]
      have hu := of_unit h (UnitStep.cutUnit s j sl f)
      generalize s.cutUnit j sl f = u at hu
      obtain ⟨hd, hlen⟩ := dropCut hu.orderly f
      exact ⟨hu.trans hd, hlen.trans (Nat.sub_le_sub_right (hu.fields f) 1)⟩

/-- A cut at a match unit: its slices are fewer by one. -/
theorem cutLookup (h : s.orderly) (a : Nat) :
    Stops s (s.cutLookup a) ∧ ((s.cutLookup a).amu a).slices.length ≤ (s.amu a).slices.length - 1 := by
  cases hsl : (s.amu a).slices with
  | nil =>
    rw [State.cutLookup, hsl]
    exact ⟨refl h, by simp [hsl]⟩
  | cons sl rest =>
    have hu := of_unit h (UnitStep.setStatus s sl.job 0x08)
    simp only [State.cutLookup, hsl]
    have hamu : (s.setStatus sl.job 0x08).amu a = s.amu a := rfl
    generalize s.setStatus sl.job 0x08 = u at hu hamu
    have hget (k : Nat) : (u.modAmu a (fun x => { x with slices := rest })).amu k =
        if k = a then { u.amu a with slices := rest } else u.amu k := amu_setAmu hu.orderly.2 a k _
    have hown : ((u.modAmu a (fun x => { x with slices := rest })).amu a).slices = rest :=
      (congrArg Amu.slices ((hget a).trans (if_pos rfl)) :)
    refine ⟨hu.trans ⟨⟨rfl⟩, fun j h => ⟨j, h, rfl⟩, ⟨hu.orderly.1, mwf_mput hu.orderly.2⟩, fun _ => le_rfl, fun k => ?_⟩, (congrArg List.length hown).le⟩
    by_cases hk : k = a
    · subst hk
      rw [hown, hamu, hsl]
      exact Nat.le_succ _
    · rw [hget k, if_neg hk]

/-- Steps that each take away one of what `m` counts take away as many as they are. -/
theorem drained {β : Type} {m : State → Nat} {g : State → State} (hg : ∀ s, s.orderly → Stops s (g s) ∧ m (g s) ≤ m s - 1)
    (l : List β) (h : s.orderly) :
    Stops s (l.foldl (fun s _ => g s) s) ∧ m (l.foldl (fun s _ => g s) s) ≤ m s - l.length := by
  induction l generalizing s with
  | nil => exact ⟨refl h, le_rfl⟩
  | cons b l ih =>
    obtain ⟨hs, hm⟩ := hg s h
    obtain ⟨hs', hm'⟩ := ih hs.orderly
    refine ⟨hs.trans hs', ?_⟩
    rw [List.foldl_cons, List.length_cons]
    omega
/-- Steps that each empty one place of `m`, of which no step adds any, empty every place. -/
theorem emptied {m : State → Nat → Nat} {g : State → Nat → State} (hm : ∀ {s t}, Stops s t → ∀ k, m t k ≤ m s k)
    (hg : ∀ s k, s.orderly → Stops s (g s k) ∧ m (g s k) k = 0) (l : List Nat) (h : s.orderly) :
    Stops s (l.foldl g s) ∧ ∀ k ∈ l, m (l.foldl g s) k = 0 := by
  induction l generalizing s with
  | nil => exact ⟨refl h, nofun⟩
  | cons b l ih =>
    obtain ⟨hs, h0⟩ := hg s b h
    obtain ⟨hs', h0'⟩ := ih hs.orderly
    refine ⟨hs.trans hs', fun k hk => ?_⟩
    rcases List.mem_cons.1 hk with rfl | hk
    · exact Nat.le_zero.1 ((hm hs' k).trans h0.le)
    · exact h0' k hk

end Stops

/-! ## States in which no unit runs -/

/-- No unit runs in any field, match unit, core or pipeline. -/
structure State.Quiet (s : State) : Prop where
  orderly : s.orderly
  fields : ∀ f, f < 16 → (s.field f).slices = []
  amus : ∀ u, u < 4 → (s.amu u).slices = []
  cores : ∀ e ∈ s.cores, e.2.pieces = []
  pipes : ∀ e ∈ s.pipes, e.2.pieces = []

theorem mem_upTo {n k : Nat} : k ∈ upTo n ↔ k < n := by simp [upTo]

theorem Stops.losses {s : State} (h : s.orderly) (l : List Piece) : Stops s (l.foldl (fun s p => s.lose p.job p.seq [p.unit]) s) := by
  refine .of_unit h (.foldl (fun u p => .modJob u _ _ fun j => ?_) l s)
  split <;> rfl

/-- At the tail every unit that runs is cut (R105). -/
theorem stopAll_quiet {s : State} (h : s.orderly) : s.stopAll.Quiet ∧ Steady s s.stopAll ∧
    ∀ j ∈ s.stopAll.adm.jobs, ∃ i ∈ s.adm.jobs, i.opcode = j.opcode := by
  obtain ⟨h1, hfields⟩ := Stops.emptied (m := fun s f => (s.field f).slices.length)
    (g := fun s f => (s.field f).slices.foldl (fun s _ => s.cutSlice f) s) (fun h => h.fields) (fun s f h => by
      obtain ⟨hs, hlen⟩ := Stops.drained (m := fun s => (s.field f).slices.length) (fun s h => Stops.cutSlice h f) (s.field f).slices h
      exact ⟨hs, by simpa using hlen⟩) (upTo 16) h
  unfold State.stopAll
  dsimp only
  generalize (upTo 16).foldl _ s = t at h1 hfields
  obtain ⟨h2, hamus⟩ := Stops.emptied (m := fun s a => (s.amu a).slices.length)
    (g := fun s a => (s.amu a).slices.foldl (fun s _ => s.cutLookup a) s) (fun h => h.amus) (fun s a h => by
      obtain ⟨hs, hlen⟩ := Stops.drained (m := fun s => (s.amu a).slices.length) (fun s h => Stops.cutLookup h a) (s.amu a).slices h
      exact ⟨hs, by simpa using hlen⟩) (upTo 4) h1.orderly
  generalize (upTo 4).foldl _ t = u at h2 hamus
  have h3 := Stops.losses h2.orderly ((u.cores ++ u.pipes).flatMap (fun e => e.2.pieces))
  generalize List.foldl _ u _ = v at h3
  have hall := h1.trans (h2.trans h3)
  refine ⟨⟨hall.orderly, fun f hf => ?_, fun a ha => ?_, ?_, ?_⟩, hall.steady.trans ⟨rfl⟩, hall.opcodes⟩
  · have := (h2.trans h3).fields f
    exact List.eq_nil_of_length_eq_zero (Nat.le_zero.1 (this.trans (hfields f (mem_upTo.2 hf)).le))
  · exact List.eq_nil_of_length_eq_zero (Nat.le_zero.1 ((h3.amus a).trans (hamus a (mem_upTo.2 ha)).le))
  · exact forall_mmap (P := fun x : Core => x.pieces = []) fun _ _ => rfl
  · exact forall_mmap (P := fun x : Core => x.pieces = []) fun _ _ => rfl

end Sys2Proof.Machine
end

section
/-! The end of jobs at the tail (R70–R72): their records are written, and no unit starts. -/

namespace Sys2Proof.Machine

/-- What units run on, and the allotments of the seedbank. -/
def State.workset (s : State) := (s.fields, s.amus, s.cores, s.pipes, s.seed.allot)

/-- From `s` to `t` no unit starts where none ran, and the jobs keep their opcodes. -/
structure Rests (s t : State) : Prop where
  opcodes : ∀ j ∈ t.adm.jobs, ∃ i ∈ s.adm.jobs, i.opcode = j.opcode
  quiet : s.Quiet → t.Quiet ∧ t.seed.allot = s.seed.allot

namespace Rests

variable {s t u : State}

theorem refl (s : State) : Rests s s := ⟨fun j h => ⟨j, h, rfl⟩, fun q => ⟨q, rfl⟩⟩
theorem trans (a : Rests s t) (b : Rests t u) : Rests s u where
  opcodes j h := by
    obtain ⟨i, hi, e⟩ := b.opcodes j h
    obtain ⟨k, hk, e'⟩ := a.opcodes i hi
    exact ⟨k, hk, e'.trans e⟩
  quiet q := by
    obtain ⟨q, ha⟩ := a.quiet q
    obtain ⟨q, hb⟩ := b.quiet q
    exact ⟨q, hb.trans ha⟩
theorem ite {c : Prop} [Decidable c] (a : Rests s t) (b : Rests s u) : Rests s (if c then t else u) := by
  split
  · exact a
  · exact b
theorem foldl {β : Type} {f : State → β → State} (hf : ∀ s b, Rests s (f s b)) (l : List β) (s : State) : Rests s (l.foldl f s) := by
  induction l generalizing s with
  | nil => exact refl s
  | cons b l ih => exact (hf s b).trans (ih _)

theorem quiet_congr (h : t.workset = s.workset) (q : s.Quiet) : t.Quiet ∧ t.seed.allot = s.seed.allot := by
  obtain ⟨hf, ha, hc, hp, hallot⟩ : t.fields = s.fields ∧ t.amus = s.amus ∧ t.cores = s.cores ∧ t.pipes = s.pipes ∧
    t.seed.allot = s.seed.allot := by simpa [State.workset] using h
  obtain ⟨⟨hwf, hwa⟩, hfields, hamus, hcores, hpipes⟩ := q
  refine ⟨⟨⟨hf ▸ hwf, ha ▸ hwa⟩, fun f => ?_, fun a => ?_, hc ▸ hcores, hp ▸ hpipes⟩, hallot⟩
  · rw [State.field, hf]
    exact hfields f
  · rw [State.amu, ha]
    exact hamus a
/-- What leaves engines, fields, match units and jobs alone. -/
theorem same (h : t.workset = s.workset) (hj : t.adm.jobs = s.adm.jobs) : Rests s t :=
  ⟨fun j hm => ⟨j, hj ▸ hm, rfl⟩, quiet_congr h⟩
/-- What changes jobs alone, and keeps their opcodes. -/
theorem jobs (h : t.workset = s.workset) (hj : ∀ j ∈ t.adm.jobs, ∃ i ∈ s.adm.jobs, i.opcode = j.opcode) : Rests s t :=
  ⟨hj, quiet_congr h⟩

/-! ## Stores, calendar and ledgers -/

theorem modJob (s : State) (id : Nat) (g : Job → Job) (hg : ∀ j, (g j).opcode = j.opcode) : Rests s (s.modJob id g) :=
  jobs rfl (UnitStep.modJob s id g hg).opcodes
theorem setStatus (s : State) (id st : Nat) : Rests s (s.setStatus id st) := modJob s _ _ fun j => by split <;> rfl
theorem modCJobs (s : State) (g : CJob → CJob) : Rests s (s.modCJobs g) := same rfl rfl
theorem setHandle (s : State) (k : Nat) (x : Handle) : Rests s (s.setHandle k x) := same rfl rfl
theorem hbmPoke (s : State) (a : Nat) (b : Bytes) : Rests s (s.hbmPoke a b) := by
  obtain ⟨m, e⟩ := hbmPoke_only (s := s) a b
  rw [e]
  exact same rfl rfl
theorem blur (s : State) (rs : List (Nat × Nat)) : Rests s (s.blur rs) := by
  obtain ⟨m, n, e⟩ := blur_only s rs
  rw [e]
  exact same rfl rfl
theorem sweepJobs (s : State) : Rests s s.sweepJobs := jobs rfl fun j h => ⟨j, (List.mem_filter.1 h).1, rfl⟩
theorem setUsed (s : State) (i p r v : Nat) : Rests s (s.setUsed i p r v) := hbmPoke s _ _
theorem setRowCnt (s : State) (r x v : Nat) : Rests s (s.setRowCnt r x v) := same rfl rfl
theorem unplace (s : State) (i r : Nat) (dem : List (Nat × Nat)) (n : Nat) : Rests s (s.unplace i r dem n) :=
  foldl (fun u (e : Nat × Nat) => (setRowCnt u r e.1 (u.rowCnt r e.1 - n * e.2)).trans (setUsed _ _ _ _ _)) dem s
theorem releaseJob (s : State) (j : Job) : Rests s (s.releaseJob j) := by
  refine trans (foldl (fun u p => ?_) _ _) (modJob _ _ _ fun _ => rfl)
  have h := unplace u j.inst p.row ((j.stage p.stage).demand p.fields) (p.count - p.ended - p.gone.length)
  exact ite (refl u) (ite (h.trans (unplace _ _ _ _ _)) h)

/-! ## What a job lets go of -/

theorem keepLists (s : State) (id : Nat) : Rests s { s with
    amus := mmap (fun _ => Amu.init) (fun _ u => { u with lists := u.lists.filter (fun l => l.job != id) }) s.amus } := by
  refine ⟨fun j h => ⟨j, h, rfl⟩, fun ⟨⟨hwf, hwa⟩, hfields, hamus, hcores, hpipes⟩ => ?_⟩
  refine ⟨⟨⟨hwf, mwf_mmap _ hwa⟩, hfields, fun a ha => ?_, hcores, hpipes⟩, rfl⟩
  refine (congrArg Amu.slices (mget_mmap _ ?_ hwa) :).trans (hamus a ha)
  exact fun _ => rfl
theorem recordClaim (s : State) (j : Job) : Rests s (s.recordClaim j) := by
  unfold State.recordClaim
  exact same rfl rfl
theorem ingestEnd (s : State) (j : Job) (st : Nat) : Rests s (s.ingestEnd j st) :=
  ite (refl s) (ite (blur s _) (ite (blur s _) (refl s)))
theorem jobCleanup (s : State) (j : Job) (st : Nat) : Rests s (s.jobCleanup j st) :=
  ite (ite (setHandle s _ _) (ite (setHandle s _ _) (refl s)))
    (ite (keepLists s j.id) (ite (recordClaim s j) (ite (ingestEnd s j st) (refl s))))
theorem lostCounted (s : State) (c : Prop) [Decidable c] :
    Rests s (if c then { s with adm := { s.adm with lostN := s.adm.lostN + 1 } } else s) := ite (same rfl rfl) (refl s)
theorem doneRecord (s : State) (j : Job) (st : Nat) : Rests s (s.doneRecord j st) := by
  obtain ⟨f, i, m, k, c, x, o, n, e, -⟩ := post_only s j.inst j.cq j.deadline (mkRecord j.tag.toNat j.deadline
    (if j.finish = 0 then s.swnN else j.finish) 1 st (b2n j.trunc + 2 * b2n j.sat) j.sq j.gen.toNat (min 0xFFFF j.rows.length))
  unfold State.doneRecord
  dsimp only
  rw [e]
  exact same rfl rfl
theorem sendFrame (s : State) (any : Bool) (kind dst : Nat) (c : DWord) (slot off : Nat) (b : Bytes) :
    Rests s (s.sendFrame any kind dst c slot off b) := by
  unfold State.sendFrame
  dsimp only
  split
  · exact refl s
  · rename_i k _
    obtain ⟨x, o, e, -⟩ := sendOn_only (s.modCommons (fun c => { c with rot := (c.rot + 1) % 4 }))
      { port := k, any, kind, dst, cjob := c, slot, off, payload := b }
    rw [e]
    exact same rfl rfl

/-! ## The units of a job stop -/

/-- Where no engine has units, none begins. -/
theorem begins_of_quiet (hc : ∀ e ∈ s.cores, e.2.pieces = []) (hp : ∀ e ∈ s.pipes, e.2.pieces = []) : s.begins = s := by
  have hcore (k : Nat) : (s.core k).head? = none := by
    have : (s.core k).pieces = [] := forall_mget (P := fun x : Core => x.pieces = []) hc k rfl
    simp [Core.head?, this]
  have hpipe (k : Nat) : (s.pipe k).head? = none := by
    have : (s.pipe k).pieces = [] := forall_mget (P := fun x : Core => x.pieces = []) hp k rfl
    simp [Core.head?, this]
  have hcores : (upTo 30).foldl State.coreBegins s = s :=
    List.foldlRecOn (motive := (· = s)) _ _ rfl fun u hu k _ => by rw [hu, State.coreBegins, hcore]
  rw [State.begins, hcores]
  exact List.foldlRecOn (motive := (· = s)) _ _ rfl fun u hu k _ => by rw [hu, State.pipeBegins, hpipe]

theorem without_quiet (q : Piece → Bool) {x : Core} (h : x.pieces = []) : (x.without q).pieces = [] := by
  unfold Core.without
  simp only [h, List.filter_nil]
  split <;> rfl

theorem forall_mmap_of {α : Type} [DecidableEq α] {d : Nat → α} {P : α → Prop} {f : Nat → α → α} {m : SMap α}
    (hf : ∀ k x, P x → P (f k x)) (h : ∀ e ∈ m, P e.2) : ∀ e ∈ mmap d f m, P e.2 := by
  induction m with
  | nil => simp [mmap]
  | cons x m ih => grind [mmap]

theorem opcodes_of_still (h : t.adm.jobs.map Job.still = s.adm.jobs.map Job.still) :
    ∀ j ∈ t.adm.jobs, ∃ i ∈ s.adm.jobs, i.opcode = j.opcode := by
  intro j hj
  obtain ⟨i, hi, e⟩ := List.mem_map.1 (h ▸ List.mem_map_of_mem (f := Job.still) hj)
  exact ⟨i, hi, (congrArg Job.opcode e :)⟩

theorem dropPieces (s : State) (q : Piece → Bool) : Rests s (s.dropPieces q) := by
  have hkeeps := stopKeeps_dropPieces s q
  obtain ⟨p, d, e⟩ := dropPieces_begins s q
  refine ⟨opcodes_of_still hkeeps.jobs, fun ⟨hord, hfields, hamus, hcores, hpipes⟩ => ?_⟩
  have hc := forall_mmap_of (d := fun _ => Core.init) (P := fun x : Core => x.pieces = []) (f := fun _ x => x.without q)
    (fun _ _ => without_quiet q) hcores
  have hp := forall_mmap_of (d := fun _ => Core.init) (P := fun x : Core => x.pieces = []) (f := fun _ x => x.without q)
    (fun _ _ => without_quiet q) hpipes
  rw [e, begins_of_quiet hc hp]
  exact ⟨⟨hord, hfields, hamus, hc, hp⟩, rfl⟩
theorem stopJob (s : State) (id : Nat) : Rests s (s.stopJob id) := by
  have h := dropPieces s (fun e => e.job == id)
  rw [stopJob_eq]
  generalize s.dropPieces _ = t at h
  refine h.trans ⟨fun j h => ⟨j, h, rfl⟩, fun ⟨⟨hwf, hwa⟩, hfields, hamus, hcores, hpipes⟩ => ?_⟩
  refine ⟨⟨⟨mwf_mmap _ hwf, mwf_mmap _ hwa⟩, fun f hf => ?_, fun a ha => ?_, hcores, hpipes⟩, rfl⟩
  · have hget := mget_mmap (k := f) (d := fun _ => Field.init)
      (fun _ x => { x with slices := x.slices.filter (fun e => e.job != id) }) (fun _ => rfl) hwf
    exact (congrArg Field.slices hget :).trans (congrArg (·.filter (fun e => e.job != id)) (hfields f hf))
  · have hget := mget_mmap (k := a) (d := fun _ => Amu.init)
      (fun _ x => { x with slices := x.slices.filter (fun e => e.job != id) }) (fun _ => rfl) hwa
    exact (congrArg Amu.slices hget :).trans (congrArg (·.filter (fun e => e.job != id)) (hamus a ha))

/-! ## A job closes -/

theorem closePart (s : State) (j : Job) (p : Part) (st : Nat) (later : Bool) : Rests s (s.closePart j p st later) := by
  have h : Rests s ((if later = true then s else s.releaseJob j).stopJob j.id) :=
    (ite (refl s) (releaseJob s j)).trans (stopJob _ _)
  unfold State.closePart
  dsimp only
  generalize State.stopJob _ j.id = u at h
  exact h.trans (ite ((modJob u _ _ (by intro _; rfl)).trans (modCJobs _ _))
    ((sendFrame u ..).trans ((modJob _ _ _ (by intro _; rfl)).trans (sweepJobs _))))
theorem closed (s : State) (j : Job) (id st : Nat) (later : Bool) : Rests s (s.closed j id st later) := by
  have h : Rests s (s.closing j st later) := by
    have h := (jobCleanup s j st).trans (lostCounted _ (st = 0x10))
    exact ite h (h.trans (releaseJob _ _))
  exact h.trans ((doneRecord _ _ _).trans ((modJob _ _ _ (by intro _; rfl)).trans (stopJob _ _)))
theorem closeJob (s : State) (id st : Nat) (later : Bool) : Rests s (s.closeJob id st later) := by
  cases hj : s.job? id with
  | none => simpa [State.closeJob, hj] using refl s
  | some j =>
    cases hr : j.recorded with
    | true => simpa [State.closeJob, hj, hr] using refl s
    | false =>
      cases hp : j.part with
      | some p => simpa [State.closeJob, hj, hr, hp] using closePart s j p st later
      | none =>
        obtain ⟨f, k, e⟩ := closeJob_closed hj hr hp st later
        rw [e]
        have h := closed s j id st later
        generalize s.closed j id st later = t at h
        refine h.trans (trans (t := { t with faults := f, tasks := k }) ?_ (sweepJobs _))
        exact same rfl rfl

end Rests

/-! ## The steps of the tail -/

/-- A job that is neither INST_SAVE nor INST_RESTORE ends, if its units have. -/
theorem endJob_rests (s : State) {j : Job} (h : j.opcode ≠ 0x0900 ∧ j.opcode ≠ 0x0901) : Rests s (s.endJob j) ∧ Steady s (s.endJob j) := by
  unfold State.endJob
  rw [if_neg h.1, if_neg h.2]
  split
  · exact ⟨.refl s, .refl s⟩
  · split
    · exact ⟨.closeJob s _ _ _, .closeJob s _ _ _⟩
    · split
      · exact ⟨.refl s, .refl s⟩
      · exact ⟨.closeJob s _ _ _, .closeJob s _ _ _⟩

/-- Jobs whose deadline has come are lost. -/
theorem deadlines_rests (s : State) : Rests s s.deadlines ∧ Steady s s.deadlines :=
  ⟨.foldl (fun u (j : Job) => (Rests.setStatus u j.id 0x10).trans (Rests.closeJob _ j.id 0x10 true)) _ s,
    .foldl (fun u (j : Job) => (Steady.modJob u j.id _).trans (Steady.closeJob _ j.id 0x10 true)) _ s⟩

/-- The end of the swath for the seedbank: no allotment is left, and streams past their limit stop (R331). -/
theorem seedTail_rests (s : State) (h : s.Quiet) : s.seedTail.Quiet ∧ s.seedTail.seed.allot = [] ∧ Steady s s.seedTail ∧
    ∀ j ∈ s.seedTail.adm.jobs, ∃ i ∈ s.adm.jobs, i.opcode = j.opcode := by
  have hcut (g : Seedbank → Seedbank) (hg : (g s.seed).allot = []) : (s.modSeed g).Quiet ∧ (s.modSeed g).seed.allot = [] ∧
      Steady s (s.modSeed g) ∧ (s.modSeed g).adm.jobs = s.adm.jobs :=
    ⟨⟨h.orderly, h.fields, h.amus, h.cores, h.pipes⟩, hg, ⟨rfl⟩, rfl⟩
  unfold State.seedTail
  dsimp only
  obtain ⟨hq, ha, hs, hj⟩ := hcut (fun b => { b with queue := (b.allot ++ b.queue).take 65536, allot := [] }) rfl
  generalize s.modSeed (fun b => { b with queue := (b.allot ++ b.queue).take 65536, allot := [] }) = t at hq ha hs hj
  generalize t.seed.waiting.filter _ = late
  have hkeep (v : State) (hr : Rests t v) (hv : Steady t v) : v.Quiet ∧ v.seed.allot = [] ∧ Steady s v ∧
      ∀ j ∈ v.adm.jobs, ∃ i ∈ s.adm.jobs, i.opcode = j.opcode := by
    obtain ⟨q, e⟩ := hr.quiet hq
    exact ⟨q, e.trans ha, hs.trans hv, hj ▸ hr.opcodes⟩
  refine hkeep _ ?_ ?_
  · refine .trans ?_ (.foldl (fun u k => ?_) _ _)
    · refine .trans ?_ (.foldl (fun u (w : Nat × Nat × Nat) => .setStatus u w.1 0x13) _ _)
      exact .same rfl rfl
    · split
      · exact .ite (.same rfl rfl) (.refl u)
      · exact .refl u
  · refine .trans ?_ (.foldl (fun u k => ?_) _ _)
    · refine .trans ?_ (.foldl (fun u (w : Nat × Nat × Nat) => .modJob u w.1 _) _ _)
      exact ⟨rfl⟩
    · split
      · exact .ite ⟨rfl⟩ (.refl u)
      · exact .refl u

/-- Jobs whose units have ended end, unless they are INST_SAVE or INST_RESTORE. -/
theorem endJobs_rests (l : List Job) (s : State) (h : ∀ j ∈ s.adm.jobs, j.opcode ≠ 0x0900 ∧ j.opcode ≠ 0x0901) :
    let t := l.foldl (fun s j => match s.job? j.id with | some j => s.endJob j | none => s) s
    Rests s t ∧ Steady s t := by
  induction l generalizing s with
  | nil => exact ⟨.refl s, .refl s⟩
  | cons j l ih =>
    have hstep : Rests s (match s.job? j.id with | some j => s.endJob j | none => s) ∧
        Steady s (match s.job? j.id with | some j => s.endJob j | none => s) := by
      split
      · rename_i k hk
        exact endJob_rests s (h k (List.mem_of_find?_eq_some hk))
      · exact ⟨.refl s, .refl s⟩
    obtain ⟨hr, hs⟩ := hstep
    obtain ⟨hr', hs'⟩ := ih _ fun k hk => by
      obtain ⟨i, hi, e⟩ := hr.opcodes k hk
      exact e ▸ h i hi
    exact ⟨hr.trans hr', hs.trans hs'⟩

/-- The look-aheads of fields fall. -/
theorem lookaheadsOff_only (l : List Nat) (s : State) (h : mwf (fun _ => Field.init) s.fields = true) : ∃ m,
    l.foldl (fun s f => s.modField f (fun x => { x with lookahead := false, ahead := Ahead.none })) s = { s with fields := m } ∧
    ∀ f, (mget (fun _ => Field.init) m f).slices = (s.field f).slices ∧
      (f ∈ l ∨ (s.field f).lookahead = false → (mget (fun _ => Field.init) m f).lookahead = false) := by
  induction l generalizing s with
  | nil => exact ⟨s.fields, rfl, fun f => ⟨rfl, fun h => h.resolve_left List.not_mem_nil⟩⟩
  | cons k l ih =>
    obtain ⟨m, e, hm⟩ := ih (s.modField k (fun x => { x with lookahead := false, ahead := Ahead.none })) (mwf_mput h)
    refine ⟨m, e, fun f => ?_⟩
    have hfield : (s.modField k (fun x => { x with lookahead := false, ahead := Ahead.none })).field f =
      if f = k then { s.field k with lookahead := false, ahead := Ahead.none } else s.field f := field_setField h k f _
    obtain ⟨hslices, hoff⟩ := hm f
    rw [hfield] at hslices hoff
    by_cases hf : f = k
    · subst hf
      rw [if_pos rfl] at hslices hoff
      exact ⟨hslices, fun _ => hoff (.inr rfl)⟩
    · rw [if_neg hf] at hslices hoff
      exact ⟨hslices, fun h => hoff (h.imp_left fun hm => (List.mem_cons.1 hm).resolve_left hf)⟩

/-! ## The statement -/

/-- Settles O24: units are laid out and engines start; at the tail every unit is cut, and neither the end of jobs nor their loss starts
one. -/
theorem workWindowAndTail : Obligations.WorkWindowAndTail := by
  unfold Obligations.WorkWindowAndTail
  refine ⟨?window, ?later, ?tail⟩
  case window =>
    intro s hrun hhead
    obtain ⟨u, hu, e⟩ := workWindow_starts s
    obtain ⟨hkeeps, hcores, hpipes⟩ := startEngines_keeps u
    refine ⟨s.workWindow, (whenRun_of_running hrun _).trans (congrArg _ (if_pos hhead)), ?_⟩
    rw [e]
    obtain ⟨hcfg, hlive, hglob, hkeys, -⟩ : u.cfg = s.cfg ∧ u.live = s.live ∧
      u.glob = { s.glob with inHeadland := false, offset := s.hCc } ∧ u.keys = s.keys ∧ u.hbmc.pcFenced = s.hbmc.pcFenced := by
        simpa [State.aside] using hu.kept
    have hclock := hkeeps.glob.trans hglob
    refine ⟨(congrArg Glob.inHeadland hclock :), (congrArg Glob.offset hclock :), (congrArg Glob.swn hclock :), hcores, hpipes,
      hkeeps.cfg.trans hcfg, hkeeps.live.trans hlive, keysKept_congr hkeys hkeeps.keys⟩
  case later =>
    intro s hrun hhead
    exact (whenRun_of_running hrun _).trans (congrArg _ (if_neg (by simp [hhead])))
  case tail =>
    intro s hrun hwf htimer hswn hops
    obtain ⟨-, -, hfields, hamus, -, -, -⟩ := tablesWf_iff.1 hwf
    refine ⟨s.tail, (whenRun_of_running hrun _).trans (congrArg _ (if_pos (by simp [htimer, hswn]))), ?_⟩
    obtain ⟨hquiet, hcut, hjobs⟩ := stopAll_quiet ⟨hfields, hamus⟩
    unfold State.tail
    dsimp only
    generalize s.stopAll = t at hquiet hcut hjobs
    obtain ⟨hquiet, hallot, hseed, hjobs'⟩ := seedTail_rests t hquiet
    generalize t.seedTail = u at hquiet hallot hseed hjobs'
    obtain ⟨hends, hended⟩ := endJobs_rests u.adm.jobs u fun j hm => by
      obtain ⟨i, hi, e⟩ := hjobs' j hm
      obtain ⟨k, hk, e'⟩ := hjobs i hi
      exact e ▸ e' ▸ hops k hk
    generalize List.foldl _ u u.adm.jobs = v at hends hended
    obtain ⟨hlosses, hlost⟩ := deadlines_rests v
    generalize v.deadlines = w at hlosses hlost
    obtain ⟨⟨⟨hwf, -⟩, hslices, hlookups, hcores, hpipes⟩, hnone⟩ := (hends.trans hlosses).quiet hquiet
    have hsteady := hcut.trans (hseed.trans (hended.trans hlost))
    obtain ⟨m, e, hm⟩ := lookaheadsOff_only (upTo 16) w hwf
    have hglob := hsteady.glob
    have hn : w.nCc = s.nCc := by rw [State.nCc, hglob, State.nCc]
    rw [e, show State.nCc { w with fields := m } = s.nCc from hn]
    generalize s.nCc - 2048 = offset
    refine ⟨rfl, (congrArg Glob.swn hglob :), hnone.trans hallot, fun f hf => ?_, hlookups, hcores, hpipes, hsteady.life, hsteady.cfg⟩
    obtain ⟨hsame, hoff⟩ := hm f
    exact ⟨hsame.trans (hslices f hf), hoff (.inl (mem_upTo.2 hf))⟩

end Sys2Proof.Machine
end

section
/-! The ends of pieces on crypto cores and digest pipelines, and the handover of split units (R90, R271, R285, R303). -/

namespace Sys2Proof.Machine

variable {s u : State} {pipe : Bool} {k c : Nat} {e : Piece} {h : OpHeld} {j : Job}

/-! ## One engine, whichever its kind -/

@[simp] theorem modEng_hbm (g : Core → Core) : (s.modEng pipe k g).hbm = s.hbm := by cases pipe <;> rfl
@[simp] theorem modEng_keys (g : Core → Core) : (s.modEng pipe k g).keys = s.keys := by cases pipe <;> rfl
@[simp] theorem modEng_adm (g : Core → Core) : (s.modEng pipe k g).adm = s.adm := by cases pipe <;> rfl

theorem tablesWf_modEng (hwf : s.tablesWf = true) (g : Core → Core) : (s.modEng pipe k g).tablesWf = true := by
  obtain ⟨hcfg, hlive, hfields, hamus, hcores, hpipes, hinsts⟩ := tablesWf_iff.1 hwf
  cases pipe with
  | false => exact tablesWf_iff.2 ⟨hcfg, hlive, hfields, hamus, mwf_mput hcores, hpipes, hinsts⟩
  | true => exact tablesWf_iff.2 ⟨hcfg, hlive, hfields, hamus, hcores, mwf_mput hpipes, hinsts⟩

theorem eng_modEng (hwf : s.tablesWf = true) (g : Core → Core) (i : Nat) :
    (s.modEng pipe k g).eng pipe i = if i = k then g (s.eng pipe k) else s.eng pipe i := by
  obtain ⟨-, -, -, -, hcores, hpipes, -⟩ := tablesWf_iff.1 hwf
  cases pipe with
  | false => exact core_setCore hcores k i _
  | true => exact pipe_setPipe hpipes k i _

/-- A field that a change of one engine leaves alone reads on every engine as before. -/
theorem eng_modEng_of_keeps {β : Type} (hwf : s.tablesWf = true) {g : Core → Core} {p : Core → β} (hp : ∀ x, p (g x) = p x) (i : Nat) :
    p ((s.modEng pipe k g).eng pipe i) = p (s.eng pipe i) := by
  rw [eng_modEng hwf]
  split
  case isTrue hik => rw [hik, hp]
  case isFalse => rfl

/-! ## The end of a piece -/

theorem pieceEnd_of_idle (hidle : (s.eng pipe k).head? = none) : s.pieceEnd pipe k = s := by
  unfold State.pieceEnd
  simp only [hidle]

/-- What a piece leaves behind on its engine: the next one starts, over secrets that are overwritten. -/
def Core.pieceLeft (x : Core) : Core := { x.start (x.pieces.drop 1) with ram := x.ram.wiped }

/-- A unit held whole takes its effect on what its engine held, once its piece has left. -/
theorem pieceEnd_of_whole (hhead : (s.eng pipe k).head? = some e) (hjob : s.job? e.job = some j) (hstatus : j.status = none)
    (hwhole : e.part = 0) (hclosed : (s.modEng pipe k Core.pieceLeft).unitOpen e = false)
    (hunit : (s.modEng pipe k Core.pieceLeft).engUnit j pipe k e (s.eng pipe k).ram = some u) :
    s.pieceEnd pipe k = (u.unitOver e).begins := by
  unfold State.pieceEnd
  simp only [hhead, hjob, hstatus, hwhole, Option.isSome_none, Bool.false_eq_true, OfNat.zero_ne_ofNat, zero_ne_one, false_and,
    if_false]
  refine (if_neg (ne_true_of_eq_false hclosed)).trans ?_
  unfold Core.pieceLeft at hunit
  rw [hunit]

/-- The shares are overwritten, and with them the secret that they make (R285). -/
theorem wiped_secret (x : OpHeld) : x.wiped.secret = zeros (min x.share0.length x.share1.length) := List.zipWith_replicate

/-! ## The handover of a split unit -/

/-- What the state of piece `e` does on the engine where it arrives: it goes on there, or waits for its turn. -/
def Core.receives (e : Piece) (h : OpHeld) (x : Core) : Core :=
  if x.head?.any (fun p => p.same e) then { x with moving := false, begun := true, ram := h }
  else { x with moving := false, got := some (e, h) }

theorem receives_moving (x : Core) : (x.receives e h).moving = false := by
  unfold Core.receives
  split <;> rfl
theorem receives_out (x : Core) : (x.receives e h).out = x.out := by
  unfold Core.receives
  split <;> rfl
theorem receives_running {x : Core} (hrun : x.head?.any (fun p => p.same e) = true) :
    (x.receives e h).ram = h ∧ (x.receives e h).begun = true := by simp [Core.receives, hrun]
theorem receives_waiting {x : Core} (hwait : x.head?.any (fun p => p.same e) = false) :
    (x.receives e h).got = some (e, h) := by simp [Core.receives, hwait]

theorem handover_of_none (hout : (s.eng pipe k).out = none) : s.handover pipe k = s := by
  unfold State.handover
  simp only [hout]

theorem handover_of_sent (hout : (s.eng pipe k).out = some (e, h))
    (hto : ((s.modEng pipe k (fun x => { x with out := none })).engsWith pipe (fun p => p.same e && p.part == 2)).head? = some c) :
    s.handover pipe k = (s.modEng pipe k (fun x => { x with out := none })).modEng pipe c (Core.receives e h) := by
  obtain ⟨l, hl⟩ := List.head?_eq_some_iff.1 hto
  unfold State.handover
  simp only [hout, hl]
  rfl

/-- The sender holds nothing more, and the engine with the remainder has the state; the sender may be that engine. -/
theorem handover_delivers (hwf : s.tablesWf = true) (hout : (s.eng pipe k).out = some (e, h))
    (hto : ((s.modEng pipe k (fun x => { x with out := none })).engsWith pipe (fun p => p.same e && p.part == 2)).head? = some c) :
    ((s.handover pipe k).eng pipe k).out = none ∧
    ∃ x : Core, (s.handover pipe k).eng pipe c = x.receives e h ∧ x.head? = (s.eng pipe c).head? := by
  rw [handover_of_sent hout hto]
  have hwf' := tablesWf_modEng (pipe := pipe) (k := k) hwf (fun x => { x with out := none })
  constructor
  · rw [eng_modEng_of_keeps (p := Core.out) hwf' receives_out, eng_modEng hwf, if_pos rfl]
  · have hsame : ∀ x : Core, Core.head? { x with out := none } = x.head? := fun _ => rfl
    exact ⟨_, (eng_modEng hwf' _ c).trans (if_pos rfl), eng_modEng_of_keeps hwf hsame c⟩

/-- The stores of the device stand in a handover. -/
theorem handover_keeps (s : State) (pipe : Bool) (k : Nat) :
    (s.handover pipe k).hbm = s.hbm ∧ (s.handover pipe k).keys = s.keys ∧ (s.handover pipe k).adm = s.adm := by
  unfold State.handover
  split
  · exact ⟨rfl, rfl, rfl⟩
  · dsimp only
    split <;> simp

/-! ## The commands -/

theorem exec_operationEnd (hrun : s.running = true) (pool : CorePool) (core : Nat) : exec (.operationEnd pool core) s =
    .next (if core < coreCount (poolIx pool) then s.pieceEnd false (coreBase (poolIx pool) + core) else s) :=
  whenRun_of_running hrun _
theorem exec_digestUnitEnd (hrun : s.running = true) (p : Fin 12) : exec (.digestUnitEnd p) s = .next (s.pieceEnd true p.val) :=
  whenRun_of_running hrun _
/-- The digest engine is the fifth pool, with its 12 pipelines. -/
theorem exec_splitHandover (hrun : s.running = true) (q : Fin 5) (core : Nat) : exec (.splitHandover q core) s =
    .next (if core < (if q.val = 4 then 12 else coreCount q.val)
      then s.handover (q.val == 4) (if q.val = 4 then core else coreBase q.val + core) else s) := by
  refine (whenRun_of_running hrun _).trans (congrArg _ ?_)
  by_cases hq : q.val = 4
  · simp only [hq, if_true, beq_self_eq_true]
  · simp only [hq, if_false, beq_false_of_ne hq]

/-- Settles O26. A piece of part 0 passes the tests for a split unit's parts; a handover reads the one engine that sends and writes the
one that receives. -/
theorem engineUnitsEnd : Obligations.EngineUnitsEnd := by
  unfold Obligations.EngineUnitsEnd
  refine ⟨?core, ?pipeline, ?noPiece, ?noUnit, ?wiped, ?handover, ?nothingSent⟩
  case core =>
    intro s pool core e j u hrun hcore k hhead hjob hstatus hwhole t hclosed hunit
    rw [exec_operationEnd hrun, if_pos hcore, pieceEnd_of_whole (pipe := false) hhead hjob hstatus hwhole hclosed hunit]
  case pipeline =>
    intro s p e j u hrun hhead hjob hstatus hwhole t hclosed hunit
    rw [exec_digestUnitEnd hrun, pieceEnd_of_whole (pipe := true) hhead hjob hstatus hwhole hclosed hunit]
  case noPiece =>
    intro s pool core hrun hidle
    rw [exec_operationEnd hrun]
    split
    case isTrue hcore => rw [pieceEnd_of_idle (pipe := false) (hidle.resolve_left (Nat.not_le.2 hcore))]
    case isFalse => rfl
  case noUnit =>
    intro s p hrun hidle
    rw [exec_digestUnitEnd hrun, pieceEnd_of_idle (pipe := true) hidle]
  case wiped => exact fun x => ⟨wiped_secret x, rfl⟩
  case handover =>
    intro s q core e h c hrun hwf hcore pipe k hout hto
    refine ⟨_, (exec_splitHandover hrun q core).trans (congrArg _ (if_pos hcore)), ?_⟩
    obtain ⟨hsent, x, hx, hhead⟩ := handover_delivers hwf hout hto
    refine ⟨hsent, ?_, fun hgoes => ?_, fun hwaits => ?_, handover_keeps s pipe k⟩
    · exact (congrArg Core.moving hx).trans (receives_moving x)
    · rw [← hhead] at hgoes
      exact hx ▸ receives_running hgoes
    · rw [← hhead] at hwaits
      exact hx ▸ receives_waiting hwaits
  case nothingSent =>
    intro s q core hrun hout
    rw [exec_splitHandover hrun, handover_of_none hout, ite_self]

end Sys2Proof.Machine
end

section
/-! HBM reads back what was written, and a fenced channel reads zero (R65, R123, R129). -/

namespace Sys2Proof.Machine

variable {s : State}

/-! ## HBM below the device's own bytes (R65, R123) -/

/-- With every channel in service each address below 0x18_0000_0000 names a byte. -/
theorem hbmGone_inService (hf : s.hbmc.pcFenced = 0) {x : Nat} (hx : x < 0x1800000000) : s.hbmGone x = false := by
  have hmod : x % 2 ^ 37 = x := Nat.mod_eq_of_lt (by omega)
  rw [State.hbmGone, hmod, hf, BitVec.ofNat_eq_ofNat, BitVec.getLsbD_zero, Bool.or_false]
  exact decide_eq_false (by omega)

theorem hbmPut_pcFenced (a : Nat) (b : Byte) : (s.hbmPut a b).hbmc.pcFenced = s.hbmc.pcFenced := by
  unfold State.hbmPut
  split <;> rfl
theorem mwf_hbmPut (h : mwf hbmDefault s.hbm = true) (a : Nat) (b : Byte) : mwf hbmDefault (s.hbmPut a b).hbm = true := by
  unfold State.hbmPut
  split
  · exact h
  · exact mwf_mput h

/-- A byte below the device's own reads back, and every other one reads as before, the device's own among them. -/
theorem hbmByte_hbmPut_inService (h : mwf hbmDefault s.hbm = true) (hf : s.hbmc.pcFenced = 0) {a x : Nat}
    (ha : a < 0x17E8280000) (hx : x < 0x1800000000) (b : Byte) :
    (s.hbmPut a b).hbmByte x = if x = a then b else s.hbmByte x := by
  have hxm : x % 2 ^ 37 = x := Nat.mod_eq_of_lt (by omega)
  have ham : a % 2 ^ 37 = a := Nat.mod_eq_of_lt (by omega)
  rw [hbmByte_hbmPut h, hbmGone_inService hf hx, hbmGone_inService hf (show a < 0x1800000000 by omega), hxm, ham,
    if_neg Bool.false_ne_true]
  by_cases hown : internalA x = true
  · have hle : 0x17E8280000 ≤ x := hxm ▸ of_decide_eq_true hown
    rw [if_pos hown, if_neg (by omega)]
  · simp only [if_neg hown, true_and]

/-- Bytes written from `a` on stand there, and every other byte reads as before. -/
theorem hbmByte_hbmPoke (h : mwf hbmDefault s.hbm = true) (hf : s.hbmc.pcFenced = 0) {a : Nat} {b : Bytes}
    (hab : a + b.length ≤ 0x17E8280000) {x : Nat} (hx : x < 0x1800000000) :
    (s.hbmPoke a b).hbmByte x = if a ≤ x ∧ x < a + b.length then b.getD (x - a) 0 else s.hbmByte x := by
  induction b generalizing s a with
  | nil => exact (if_neg (by simp)).symm
  | cons c b ih =>
    rw [List.length_cons] at hab ⊢
    rw [State.hbmPoke, ih (mwf_hbmPut h a c) ((hbmPut_pcFenced a c).trans hf) (by omega),
      hbmByte_hbmPut_inService h hf (by omega) hx]
    by_cases hfirst : x = a
    · subst hfirst
      rw [if_neg (by omega), if_pos rfl, if_pos (by omega), Nat.sub_self, List.getD_cons_zero]
    · rw [if_neg hfirst]
      by_cases hrest : a + 1 ≤ x ∧ x < a + 1 + b.length
      · rw [if_pos hrest, if_pos (by omega), show x - a = x - (a + 1) + 1 by omega, List.getD_cons_succ]
      · rw [if_neg hrest, if_neg (by omega)]

theorem hbmByte_hbmWrite (h : mwf hbmDefault s.hbm = true) (hf : s.hbmc.pcFenced = 0) {a : Nat} {b : Bytes}
    (hab : a + b.length ≤ 0x17E8280000) {x : Nat} (hx : x < 0x1800000000) :
    (s.hbmWrite a b).hbmByte x = if a ≤ x ∧ x < a + b.length then b.getD (x - a) 0 else s.hbmByte x :=
  hbmByte_hbmPoke (s := s.countReqs (reqs a b.length)) h hf hab hx

theorem hbmPeek_hbmWrite (h : mwf hbmDefault s.hbm = true) (hf : s.hbmc.pcFenced = 0) {a : Nat} {b : Bytes}
    (hab : a + b.length ≤ 0x17E8280000) : (s.hbmWrite a b).hbmPeek a b.length = b := by
  refine List.ext_getElem (length_hbmPeek _ _) (fun i hi hb => ?_)
  simp only [State.hbmPeek, upTo, List.getElem_map, List.getElem_range]
  rw [hbmByte_hbmWrite h hf hab (by omega), if_pos (by omega), Nat.add_sub_cancel_left, List.getD_eq_getElem _ _ hb]

theorem hbmGone_of_fenced {a : Nat} (hf : s.hbmc.pcFenced.getLsbD (pcOf a) = true) : s.hbmGone a = true := by
  rw [State.hbmGone, hf, Bool.or_true]

/-- Settles O59: a write changes the bytes of its range alone, and a fenced channel's byte is gone for reads and writes. -/
theorem hbmReadsWhatWasWritten : Obligations.HbmReadsWhatWasWritten := by
  unfold Obligations.HbmReadsWhatWasWritten
  refine ⟨fun s a b hwf hf hab => ⟨hbmPeek_hbmWrite hwf hf hab, fun x hx hout => ?_⟩, fun s a b hf => ?_⟩
  · rw [hbmByte_hbmWrite hwf hf hab hx, if_neg (by omega)]
  · have hgone := hbmGone_of_fenced hf
    exact ⟨if_pos hgone, if_pos hgone⟩

end Sys2Proof.Machine
end

section
/-! The fields prepare for the stages that claim them: the clear of a store and the first reads of a swath (R119, R125). -/

namespace Sys2Proof.Machine

variable {s : State}

/-! ## The clear of a field's store (R119) -/

theorem exec_fieldStoreClear_of_claim (hrun : s.running = true) {f : Fin 16} {j : Job} {p : Placement} {i : Nat}
    (hc : s.claimOn s.swnN f.val = some (j, p, i)) : exec (.fieldStoreClear f) s = .next
      (if j.inst = (s.field f.val).owner then s else s.modField f.val (fun x => { x with clean := true, banks := [] })) := by
  refine (whenRun_of_running hrun _).trans (congrArg _ ?_)
  rw [hc]
theorem exec_fieldStoreClear_of_none (hrun : s.running = true) {f : Fin 16} (hc : s.claimOn s.swnN f.val = none) :
    exec (.fieldStoreClear f) s = .next s := by
  refine (whenRun_of_running hrun _).trans (congrArg _ ?_)
  rw [hc]

/-! ## The first reads of a swath (R125) -/

/-- Reads whose bytes are taken elsewhere change counts and reports alone. -/
theorem touch_only (rs : List (Nat × Nat)) (s : State) : ∃ b c, s.touch rs = { s with hbmc := b, faults := c } := by
  induction rs generalizing s with
  | nil => exact ⟨s.hbmc, s.faults, rfl⟩
  | cons r rs ih =>
    obtain ⟨b, c, e, -⟩ := hbmRead_only s r.1 r.2
    obtain ⟨b', c', e'⟩ := ih (s.hbmRead r.1 r.2).2
    exact ⟨b', c', e'.trans (by rw [e])⟩

/-- Two changes of a field with reads between them. -/
theorem modField_touch_modField (h : mwf (fun _ => Field.init) s.fields = true) (f : Nat) (g g' : Field → Field)
    (rs : List (Nat × Nat)) : ∃ b c, ((s.modField f g).touch rs).modField f g' = { s with
      fields := mput (fun _ => Field.init) (mput (fun _ => Field.init) s.fields f (g (s.field f))) f (g' (g (s.field f)))
      hbmc := b, faults := c } := by
  obtain ⟨b, c, e⟩ := touch_only rs (s.modField f g)
  have hf : (s.modField f g).field f = g (s.field f) := mget_mput_same h
  refine ⟨b, c, ?_⟩
  rw [e]
  exact congrArg (fun x => ({ s.modField f g with hbmc := b, faults := c } : State).setField f (g' x)) hf

/-- What the beginning of the lookahead makes of field `f`: a field in service that is active and claimed looks ahead, and one that runs
no query reads nothing; any other is as before. -/
structure LooksAhead (s : State) (f : Nat) (x : Field) : Prop where
  idle : (s.fieldOn f && (s.field f).active && (s.claimOn s.swnN f).isSome) = false → x = s.field f
  claimed : ∀ j p i, s.fieldOn f = true → (s.field f).active = true → s.claimOn s.swnN f = some (j, p, i) →
    (j.opcode ≠ 0x0100 → x = { s.field f with lookahead := true }) ∧
    ∃ n a, x = { s.field f with lookahead := true, ingNow := (s.field f).ingNow + n, ahead := a }

theorem lookAhead_of_idle {f : Nat} (h : (s.fieldOn f && (s.field f).active && (s.claimOn s.swnN f).isSome) = false) :
    s.lookAhead f = s := by
  unfold State.lookAhead
  cases hc : s.claimOn s.swnN f with
  | none => exact ite_self _
  | some c =>
    rw [hc, Option.isSome_some, Bool.and_true] at h
    rw [h]
    rfl

/-- A claimed field looks ahead; reads are made for the first unit of a query alone. -/
theorem lookAhead_of_claim {f : Nat} (hon : s.fieldOn f = true) (hact : (s.field f).active = true) {j : Job} {p : Placement} {i : Nat}
    (hc : s.claimOn s.swnN f = some (j, p, i)) :
    s.lookAhead f = s.modField f (fun x => { x with lookahead := true }) ∨
    j.opcode = 0x0100 ∧ ∃ rs a, s.lookAhead f = ((s.modField f (fun x => { x with lookahead := true })).touch rs).modField f
      (fun x => { x with ingNow := x.ingNow + readBytes rs, ahead := a }) := by
  simp only [State.lookAhead, hon, hact, hc, Bool.and_self, Bool.not_true, Bool.false_eq_true, if_false]
  split
  · exact .inr ⟨‹_›, _, _, rfl⟩
  · exact .inl rfl

/-- The lookahead of a field begins in its own entry of the table; beside it counts and reports change. -/
theorem lookAhead_only (h : mwf (fun _ => Field.init) s.fields = true) (f : Nat) : ∃ m b c,
    s.lookAhead f = { s with fields := m, hbmc := b, faults := c } ∧ mwf (fun _ => Field.init) m = true ∧
    LooksAhead s f (mget (fun _ => Field.init) m f) ∧ ∀ g, g ≠ f → mget (fun _ => Field.init) m g = s.field g := by
  cases hb : s.fieldOn f && (s.field f).active && (s.claimOn s.swnN f).isSome with
  | false =>
    refine ⟨s.fields, s.hbmc, s.faults, lookAhead_of_idle hb, h, ⟨fun _ => rfl, fun j p i hon hact hc => ?_⟩, fun g _ => rfl⟩
    simp [hon, hact, hc] at hb
  | true =>
    obtain ⟨⟨hon, hact⟩, hsome⟩ : (s.fieldOn f = true ∧ (s.field f).active = true) ∧ (s.claimOn s.swnN f).isSome = true := by
      simpa only [Bool.and_eq_true] using hb
    obtain ⟨⟨j, p, i⟩, hc⟩ := Option.isSome_iff_exists.1 hsome
    have hidle {x : Field} (hn : (s.fieldOn f && (s.field f).active && (s.claimOn s.swnN f).isSome) = false) : x = s.field f :=
      Bool.noConfusion (hn.symm.trans hb)
    have hj {k : Job} {q : Placement} {l : Nat} (hk : s.claimOn s.swnN f = some (k, q, l)) : k = j :=
      (Prod.mk.inj (Option.some.inj (hk.symm.trans hc))).1
    rcases lookAhead_of_claim hon hact hc with e | ⟨hop, rs, a, e⟩
    · refine ⟨_, s.hbmc, s.faults, e, mwf_mput h, ?_, fun g hg => mget_mput_ne h hg⟩
      rw [mget_mput_same h]
      exact ⟨hidle, fun k q l _ _ _ => ⟨fun _ => rfl, 0, (s.field f).ahead, rfl⟩⟩
    · obtain ⟨b, c, et⟩ := modField_touch_modField h f (fun x => { x with lookahead := true })
        (fun x => { x with ingNow := x.ingNow + readBytes rs, ahead := a }) rs
      refine ⟨_, b, c, e.trans et, mwf_mput (mwf_mput h), ?_, fun g hg => (mget_mput_ne (mwf_mput h) hg).trans (mget_mput_ne h hg)⟩
      rw [mget_mput_same (mwf_mput h)]
      exact ⟨hidle, fun k q l _ _ hk => ⟨fun hne => absurd (hj hk ▸ hop) hne, readBytes rs, a, rfl⟩⟩

/-- Each field of a list without repetition looks ahead as if it alone did. -/
theorem lookAheads_only (l : List Nat) (hl : l.Nodup) (s : State) (h : mwf (fun _ => Field.init) s.fields = true) : ∃ m b c,
    l.foldl State.lookAhead s = { s with fields := m, hbmc := b, faults := c } ∧
    (∀ f, f ∈ l → LooksAhead s f (mget (fun _ => Field.init) m f)) ∧
    ∀ f, f ∉ l → mget (fun _ => Field.init) m f = s.field f := by
  induction l generalizing s with
  | nil => exact ⟨s.fields, s.hbmc, s.faults, rfl, fun f hf => absurd hf List.not_mem_nil, fun f _ => rfl⟩
  | cons k l ih =>
    obtain ⟨hk, hl⟩ := List.nodup_cons.1 hl
    obtain ⟨m, b, c, e, hm, hlook, hother⟩ := lookAhead_only h k
    obtain ⟨m', b', c', e', hin, hout⟩ := ih hl { s with fields := m, hbmc := b, faults := c } hm
    refine ⟨m', b', c', by rw [List.foldl_cons, e, e'], fun f hf => ?_, fun f hf => ?_⟩
    · rcases List.mem_cons.1 hf with rfl | hf
      · rw [hout f hk]
        exact hlook
      · have hne : f ≠ k := fun e => hk (e ▸ hf)
        obtain ⟨hidle, hclaimed⟩ := hin f hf
        have hsame : State.field { s with fields := m, hbmc := b, faults := c } f = s.field f := hother f hne
        simp only [State.fieldOn, hsame] at hidle hclaimed
        exact ⟨hidle, hclaimed⟩
    · obtain ⟨hne, hf⟩ := not_or.1 (mt List.mem_cons.2 hf)
      exact (hout f hf).trans (hother f hne)

theorem exec_lookaheadStart (hrun : s.running = true) :
    exec .lookaheadStart s = .next (((upTo 16).foldl State.lookAhead s).setOffset (s.hCc - 512)) := whenRun_of_running hrun _

/-- Settles O15: the clear hangs on the claim's owner, and each of the 16 fields looks ahead as if it alone did. -/
theorem fieldsPrepareForTheirStage : Obligations.FieldsPrepareForTheirStage := by
  unfold Obligations.FieldsPrepareForTheirStage
  refine ⟨?newOwner, ?sameOwner, ?lookahead⟩
  case newOwner =>
    intro s f j p i hrun hc hne
    rw [exec_fieldStoreClear_of_claim hrun hc, if_neg hne]
  case sameOwner =>
    intro s f hrun hsame
    cases hc : s.claimOn s.swnN f.val with
    | none => exact exec_fieldStoreClear_of_none hrun hc
    | some e => rw [exec_fieldStoreClear_of_claim hrun hc, if_pos (hsame _ _ _ hc)]
  case lookahead =>
    intro s hrun hwf
    obtain ⟨-, -, hfields, -⟩ := tablesWf_iff.1 hwf
    obtain ⟨m, b, c, e, hin, -⟩ := lookAheads_only (upTo 16) List.nodup_range s hfields
    refine ⟨_, exec_lookaheadStart hrun, ?_⟩
    rw [e]
    refine ⟨rfl, State.setOffset_hbm _ _, fun f hf => ?_⟩
    obtain ⟨hidle, hclaimed⟩ := hin f (mem_upTo.2 hf)
    exact ⟨hidle, hclaimed⟩

end Sys2Proof.Machine
end

section
/-! The plane switches: a field becomes active on a RESIDENT plane alone (R154, R155). -/

namespace Sys2Proof.Machine

/-! ## What displaced units leave -/

/-- The state without its jobs, their calendar and their ledgers. -/
def State.besidesJobs (s : State) : State := { s with adm := Admit.reset, hbm := [] }

theorem setUsed_besidesJobs (s : State) (i p r v : Nat) : (s.setUsed i p r v).besidesJobs = s.besidesJobs := by
  obtain ⟨m, e⟩ := setUsed_only (s := s) i p r v
  rw [e]
  rfl
theorem unplace_besidesJobs (s : State) (i r : Nat) (dem : List (Nat × Nat)) (n : Nat) :
    (s.unplace i r dem n).besidesJobs = s.besidesJobs :=
  foldl_keeps (fun u (e : Nat × Nat) => (setUsed_besidesJobs (u.setRowCnt r e.1 (u.rowCnt r e.1 - n * e.2)) _ _ _ _).trans rfl) dem s
theorem displace_besidesJobs (s : State) (j : Job) (p : Placement) (us : List Nat) :
    (s.displace j p us).besidesJobs = s.besidesJobs :=
  Eq.trans (b := (s.unplace j.inst p.row ((j.stage p.stage).demand p.fields) us.length).besidesJobs) rfl (unplace_besidesJobs ..)

/-! ## A plane that fails (R155) -/

theorem only_of_besidesJobs {s t : State} (h : t.besidesJobs = s.besidesJobs) : ∃ a m, t = { s with adm := a, hbm := m } :=
  ⟨t.adm, t.hbm, congrArg (fun u : State => { u with adm := t.adm, hbm := t.hbm }) h⟩
/-- The jobs that hold plane `p` of field `f` lose their units on it; then the plane falls and is reported. -/
theorem planeFail_loses (s : State) (f p : Nat) : ∃ t : State, t.besidesJobs = s.besidesJobs ∧ s.planeFail f p =
    ((t.modField f (fun x => x.setPlane p Plane.empty)).raise 169 (unitCode 2 f) 0 0).pendSrc 882 := by
  refine ⟨_, foldl_keeps (fun t h => ?_) _ s, rfl⟩
  split
  · rfl
  · exact foldl_keeps (fun u q => displace_besidesJobs u _ q _) _ t

/-- An event of a source that is not reserved changes PENDING alone, to which it adds its source. -/
theorem pendSrc_pends (s : State) {n : Nat} (h : intcReserved n = false) :
    ∃ l, s.pendSrc n = { s with intc := { s.intc with pend := l } } ∧ n ∈ l ∧ ∀ m ∈ s.intc.pend, m ∈ l := by
  have hmem := mem_pendSrc (s := s) n h
  have hmono (m : Nat) (hm : m ∈ s.intc.pend) := pendSrc_mono n m hm
  obtain ⟨l, e⟩ := pendSrc_only s n
  rw [e] at hmem hmono
  exact ⟨l, e, hmem, hmono⟩

/-- A plane that fails is EMPTY, PLANE_FAIL is reported and source 882 is pending; beside it jobs lose units. -/
theorem planeFail_only (s : State) (f p : Nat) : ∃ a m r l, s.planeFail f p = { s with
      adm := a, hbm := m, fields := mput (fun _ => Field.init) s.fields f ((s.field f).setPlane p Plane.empty)
      faults := { s.faults with reports := s.faults.reports ++ [r] }, intc := { s.intc with pend := l } } ∧
    r.source = 169 ∧ 882 ∈ l ∧ ∀ n ∈ s.intc.pend, n ∈ l := by
  obtain ⟨t, ht, e⟩ := planeFail_loses s f p
  obtain ⟨a, m, rfl⟩ := only_of_besidesJobs ht
  rw [e, raise_open _ (n := 169) rfl rfl]
  obtain ⟨l, el, hmem, hmono⟩ := pendSrc_pends _ (n := 882) rfl
  exact ⟨a, m, _, l, el, rfl, hmem, hmono⟩

/-! ## The uses of key cells (R344, R426) -/

/-- What the claims of fields (R64) and the sections of stages are read from. -/
def State.claimBasis (s : State) := (s.glob, s.adm, s.hbm, s.hbmc.pcFenced, s.free)
/-- What the sward loader reads and the check of a key cell leaves alone. -/
def State.sward (s : State) := (s.claimBasis, s.fields, s.intc)

section Cells

variable (s : State)

theorem raise_sward (n : Nat) (u : BitVec 16) (d0 d1 : Nat) : (s.raise n u d0 d1).sward = s.sward := by
  rcases raise_cases (s := s) n u d0 d1 with e | ⟨-, -, e⟩
  · rw [e]
  · rw [e]
    rfl
theorem latchTamper_only (src : Nat) (a b : Bool) : ∃ x, s.latchTamper src a b = { s with backup := x } := by
  unfold State.latchTamper
  split
  · exact ⟨s.backup, rfl⟩
  · exact ⟨_, rfl⟩
theorem mismatch_sward (k : Nat) : (s.mismatch k).sward = s.sward := by
  unfold State.mismatch State.alarm
  dsimp only
  split
  · obtain ⟨x, e⟩ := latchTamper_only { s with tamper := { s.tamper with
      mismatch := cput s.tamper.mismatch k (satInc 32 (cget s.tamper.mismatch k)) } } 10 true true
    rw [raise_sward, e]
    rfl
  · rfl
theorem cellFails_sward (n : Nat) : (s.cellFails n).sward = s.sward := by
  unfold State.cellFails
  split
  · rfl
  · exact raise_sward ..
theorem cellCheck_sward (n inst need : Nat) : (s.cellCheck n inst need).sward = s.sward := by
  unfold State.cellCheck
  dsimp only
  split
  · exact mismatch_sward ..
  · split
    · exact cellFails_sward ..
    · rfl
theorem sealChecks_sward (inst : Nat) (ts : List SealTile) : (s.sealChecks inst ts).sward = s.sward := by
  unfold State.sealChecks
  exact foldl_keeps (g := State.sward) (fun u t => cellCheck_sward u _ _ _) ts s
theorem sealChecks_fields (inst : Nat) (ts : List SealTile) : (s.sealChecks inst ts).fields = s.fields :=
  congrArg (·.2.1) (sealChecks_sward s inst ts)
theorem sealChecks_intc (inst : Nat) (ts : List SealTile) : (s.sealChecks inst ts).intc = s.intc :=
  congrArg (·.2.2) (sealChecks_sward s inst ts)

end Cells

/-! ## What claims and sections are read from -/

/-- The RESIDENT plane of field `f` that holds section `x`. -/
def State.residentPlane (s : State) (f : Nat) (x : Sect) : Option Nat :=
  (s.planeOf f x).filter (fun q => ((s.field f).plane q).state == 2)

section Basis

variable {s t : State}

theorem resident_of_residentPlane {f q : Nat} {x : Sect} (h : s.residentPlane f x = some q) : ((s.field f).plane q).state = 2 :=
  eq_of_beq (Option.filter_eq_some_iff.1 h).2
theorem residentPlane_congr {f : Nat} (h : t.field f = s.field f) (x : Sect) : t.residentPlane f x = s.residentPlane f x := by
  rw [State.residentPlane, State.planeOf, h]
  rfl
theorem claimOn_congr (h : t.claimBasis = s.claimBasis) (f : Nat) : t.claimOn t.swnN f = s.claimOn s.swnN f := by
  obtain ⟨hglob, hadm, -⟩ : t.glob = s.glob ∧ t.adm = s.adm ∧ _ := by simpa only [State.claimBasis, Prod.mk.injEq] using h
  rw [State.claimOn, State.swnN, hglob, hadm]
  rfl
theorem sectOf_congr (h : t.claimBasis = s.claimBasis) (j : Job) (v : StageRec) (i : Nat) : t.sectOf j v i = s.sectOf j v i := by
  obtain ⟨-, -, hhbm, hfence, hfree⟩ : t.glob = s.glob ∧ t.adm = s.adm ∧ t.hbm = s.hbm ∧ t.hbmc.pcFenced = s.hbmc.pcFenced ∧
    t.free = s.free := by simpa only [State.claimBasis, Prod.mk.injEq] using h
  have hpeek : t.hbmPeek = s.hbmPeek := by
    funext a n
    simp only [State.hbmPeek, State.hbmByte, State.hbmGone, hhbm, hfence, hfree]
    rfl
  rw [State.sectOf, hpeek]
  rfl

end Basis

/-! ## The switch of one field (R154, R155) -/

/-- Field `f` finds no RESIDENT plane: PLANE_LATE (R155). -/
def State.lateField (s : State) (f : Nat) : State :=
  { ((s.idleField f).raise 168 (unitCode 2 f) 0 0).pendSrc 882 with
    lateLast := ((s.idleField f).raise 168 (unitCode 2 f) 0 0).lateLast + 1 }

/-- What the switch of field `f` can do. -/
inductive SwitchOutcome (s : State) (ecc : Bool) (f : Nat) (t : State) : Prop
  | unclaimed (hc : s.claimOn s.swnN f = none) (e : t = s.idleField f)
  | late {j : Job} {p : Placement} {i : Nat} (hc : s.claimOn s.swnN f = some (j, p, i))
      (hr : s.residentPlane f (s.sectOf j (j.stage p.stage) i) = none) (e : t = s.lateField f)
  | failed {j : Job} {p : Placement} {i q : Nat} (hc : s.claimOn s.swnN f = some (j, p, i))
      (hr : s.residentPlane f (s.sectOf j (j.stage p.stage) i) = some q) (hecc : ecc = true) (e : t = (s.idleField f).planeFail f q)
  | resident {j : Job} {p : Placement} {i q : Nat} {ts : List SealTile} {g : Field → Field} (hc : s.claimOn s.swnN f = some (j, p, i))
      (hr : s.residentPlane f (s.sectOf j (j.stage p.stage) i) = some q) (hecc : ecc = false)
      (e : t = (s.sealChecks j.inst ts).modField f g)
      (hg : ∀ x, (g x).active = true ∧ (g x).activePlane = q ∧ (g x).planes = x.planes)

theorem switchField_outcome (s : State) (ecc : Bool) (f : Nat) : SwitchOutcome s ecc f (s.switchField ecc f) := by
  cases hc : s.claimOn s.swnN f with
  | none => exact .unclaimed hc (by rw [State.switchField, hc])
  | some c =>
    obtain ⟨j, p, i⟩ := c
    cases hr : s.residentPlane f (s.sectOf j (j.stage p.stage) i) with
    | none =>
      refine .late hc hr ?_
      unfold State.residentPlane at hr
      simp only [State.switchField, hc, hr]
      rfl
    | some q =>
      have hr' := hr
      unfold State.residentPlane at hr'
      cases ecc with
      | true =>
        refine .failed hc hr rfl ?_
        simp only [State.switchField, hc, hr', if_true]
      | false =>
        obtain ⟨ts, g, e, hg⟩ : ∃ ts g, s.switchField false f = (s.sealChecks j.inst ts).modField f g ∧
            ∀ x : Field, (g x).active = true ∧ (g x).activePlane = q ∧ (g x).planes = x.planes := by
          simp only [State.switchField, hc, hr', Bool.false_eq_true, if_false]
          exact ⟨_, _, rfl, fun x => ⟨rfl, rfl, rfl⟩⟩
        exact .resident hc hr rfl e hg

/-- A field without a RESIDENT plane is off, and source 882 is pending. -/
theorem lateField_only (s : State) (f : Nat) : ∃ x l n, s.lateField f =
      { s.idleField f with faults := x, intc := { s.intc with pend := l }, lateLast := n } ∧ 882 ∈ l ∧ ∀ m ∈ s.intc.pend, m ∈ l := by
  obtain ⟨x, hraise⟩ : ∃ x, (s.idleField f).raise 168 (unitCode 2 f) 0 0 = { s.idleField f with faults := x } :=
    ⟨_, raise_open _ (n := 168) rfl rfl ..⟩
  obtain ⟨l, hpend, hmem, hmono⟩ := pendSrc_pends { s.idleField f with faults := x } (n := 882) rfl
  rw [State.lateField, hraise, hpend]
  exact ⟨x, l, _, rfl, hmem, hmono⟩

/-- From `s` to `t` of the fields only `f` changes, and what is pending stays pending. -/
structure ChangesField (f : Nat) (s t : State) : Prop where
  fields : mwf (fun _ => Field.init) s.fields = true → mwf (fun _ => Field.init) t.fields = true ∧ ∀ g, g ≠ f → t.field g = s.field g
  pend : ∀ n ∈ s.intc.pend, n ∈ t.intc.pend

namespace ChangesField

variable {f : Nat} {s t u : State}

theorem trans (a : ChangesField f s t) (b : ChangesField f t u) : ChangesField f s u where
  fields h := by
    obtain ⟨ht, hs⟩ := a.fields h
    obtain ⟨hu, ht⟩ := b.fields ht
    exact ⟨hu, fun g hg => (ht g hg).trans (hs g hg)⟩
  pend n hn := b.pend n (a.pend n hn)
/-- A change of one entry of the table. -/
theorem of_mput {x : Field} (e : t.fields = mput (fun _ => Field.init) s.fields f x) (hp : ∀ n ∈ s.intc.pend, n ∈ t.intc.pend) :
    ChangesField f s t where
  fields h := by
    refine ⟨e ▸ mwf_mput h, fun g hg => ?_⟩
    rw [State.field, e]
    exact mget_mput_ne h hg
  pend := hp
theorem idleField (s : State) (f : Nat) : ChangesField f s (s.idleField f) := of_mput rfl fun _ hn => hn
theorem lateField (s : State) (f : Nat) : ChangesField f s (s.lateField f) := by
  obtain ⟨x, l, n, e, -, hmono⟩ := lateField_only s f
  rw [e]
  exact of_mput rfl hmono
theorem planeFail (s : State) (f p : Nat) : ChangesField f s (s.planeFail f p) := by
  obtain ⟨a, m, r, l, e, -, -, hmono⟩ := planeFail_only s f p
  rw [e]
  exact of_mput rfl hmono
theorem sealed (s : State) (inst : Nat) (ts : List SealTile) (g : Field → Field) :
    ChangesField f s ((s.sealChecks inst ts).modField f g) := by
  refine of_mput (x := g ((s.sealChecks inst ts).field f)) ?_ fun n hn => ?_
  · rw [← sealChecks_fields s inst ts]
    rfl
  · exact (congrArg (fun x => n ∈ x.pend) (sealChecks_intc s inst ts)).mpr hn

theorem switchField (s : State) (ecc : Bool) (f : Nat) : ChangesField f s (s.switchField ecc f) := by
  cases switchField_outcome s ecc f with
  | unclaimed hc e => exact e ▸ idleField s f
  | late hc hr e => exact e ▸ lateField s f
  | failed hc hr hecc e => exact e ▸ (idleField s f).trans (planeFail _ f _)
  | resident hc hr hecc e hg => exact e ▸ sealed s _ _ _

end ChangesField

section Switch

variable {s : State}

theorem field_modField_same (h : mwf (fun _ => Field.init) s.fields = true) (f : Nat) (g : Field → Field) :
    (s.modField f g).field f = g (s.field f) := mget_mput_same h
theorem idleField_inactive (h : mwf (fun _ => Field.init) s.fields = true) (f : Nat) : ((s.idleField f).field f).active = false :=
  congrArg Field.active (field_modField_same h f _)
theorem lateField_inactive (h : mwf (fun _ => Field.init) s.fields = true) (f : Nat) : ((s.lateField f).field f).active = false := by
  obtain ⟨x, l, n, e, -⟩ := lateField_only s f
  rw [e]
  exact idleField_inactive h f
theorem field_planeFail (h : mwf (fun _ => Field.init) s.fields = true) (f p : Nat) :
    (s.planeFail f p).field f = (s.field f).setPlane p Plane.empty := by
  obtain ⟨a, m, r, l, e, -⟩ := planeFail_only s f p
  rw [e]
  exact mget_mput_same h
theorem idle_planeFail_inactive (h : mwf (fun _ => Field.init) s.fields = true) (f p : Nat) :
    (((s.idleField f).planeFail f p).field f).active = false := by
  rw [field_planeFail (mwf_mput h)]
  exact idleField_inactive h f
theorem field_sealed (h : mwf (fun _ => Field.init) s.fields = true) (inst : Nat) (ts : List SealTile) (f : Nat) (g : Field → Field) :
    ((s.sealChecks inst ts).modField f g).field f = g (s.field f) := by
  have hf := sealChecks_fields s inst ts
  rw [field_modField_same (hf ▸ h), State.field, hf]
  rfl

/-- Without a failed read the switch of a field changes nothing that claims and sections are read from. -/
theorem switchField_basis (s : State) (f : Nat) : (s.switchField false f).claimBasis = s.claimBasis := by
  cases switchField_outcome s false f with
  | unclaimed hc e => exact e ▸ rfl
  | late hc hr e =>
    obtain ⟨x, l, n, e', -⟩ := lateField_only s f
    rw [e, e']
    rfl
  | failed hc hr hecc e => exact absurd hecc Bool.false_ne_true
  | resident hc hr hecc e hg =>
    rw [e]
    exact congrArg Prod.fst (sealChecks_sward s _ _)

/-- A field that is active after its switch is on a RESIDENT plane. -/
theorem switchField_safe (h : mwf (fun _ => Field.init) s.fields = true) (ecc : Bool) (f : Nat)
    (ha : ((s.switchField ecc f).field f).active = true) :
    (((s.switchField ecc f).field f).plane ((s.switchField ecc f).field f).activePlane).state = 2 := by
  have hoff {t : State} (e : s.switchField ecc f = t) (ht : (t.field f).active = false) : False :=
    Bool.false_ne_true (ht.symm.trans (e ▸ ha))
  cases switchField_outcome s ecc f with
  | unclaimed hc e => exact (hoff e (idleField_inactive h f)).elim
  | late hc hr e => exact (hoff e (lateField_inactive h f)).elim
  | failed hc hr hecc e => exact (hoff e (idle_planeFail_inactive h f _)).elim
  | @resident j p i q ts g hc hr hecc e hg =>
    have hx := field_sealed h j.inst ts f g
    obtain ⟨-, hplane, hplanes⟩ := hg (s.field f)
    rw [e, hx, Field.plane, hplane, hplanes]
    exact resident_of_residentPlane hr

/-- The switch follows the claim of field `f` in state `s`, where no plane's read fails. -/
inductive FollowsClaim (s : State) (f : Nat) (t : State) : Prop
  | unclaimed (hc : s.claimOn s.swnN f = none) (hoff : (t.field f).active = false)
  | late {j : Job} {p : Placement} {i : Nat} (hc : s.claimOn s.swnN f = some (j, p, i))
      (hr : s.residentPlane f (s.sectOf j (j.stage p.stage) i) = none) (hoff : (t.field f).active = false) (hpend : 882 ∈ t.intc.pend)
  | resident {j : Job} {p : Placement} {i q : Nat} (hc : s.claimOn s.swnN f = some (j, p, i))
      (hr : s.residentPlane f (s.sectOf j (j.stage p.stage) i) = some q) (hon : (t.field f).active = true)
      (hplane : (t.field f).activePlane = q)

theorem switchField_follows (h : mwf (fun _ => Field.init) s.fields = true) (f : Nat) : FollowsClaim s f (s.switchField false f) := by
  cases switchField_outcome s false f with
  | unclaimed hc e => exact .unclaimed hc (e ▸ idleField_inactive h f)
  | late hc hr e =>
    obtain ⟨x, l, n, e', hmem, -⟩ := lateField_only s f
    refine .late hc hr (e ▸ lateField_inactive h f) ?_
    rw [e, e']
    exact hmem
  | failed hc hr hecc e => exact absurd hecc Bool.false_ne_true
  | @resident j p i q ts g hc hr hecc e hg =>
    obtain ⟨hon, hplane, -⟩ := hg (s.field f)
    have hx := field_sealed h j.inst ts f g
    rw [← e] at hx
    exact .resident hc hr (hx ▸ hon) (hx ▸ hplane)

/-- What follows a claim hangs on the field itself and on what claims and sections are read from, and later switches of other fields
keep it. -/
theorem FollowsClaim.congr {t u v : State} {f : Nat} (hu : FollowsClaim u f v) (hbasis : u.claimBasis = s.claimBasis)
    (hfield : u.field f = s.field f) (hv : t.field f = v.field f) (hp : ∀ n ∈ v.intc.pend, n ∈ t.intc.pend) : FollowsClaim s f t := by
  have hclaim := claimOn_congr hbasis f
  have hplane (j : Job) (p : Placement) (i : Nat) : u.residentPlane f (u.sectOf j (j.stage p.stage) i) =
      s.residentPlane f (s.sectOf j (j.stage p.stage) i) := by
    rw [sectOf_congr hbasis, residentPlane_congr hfield]
  cases hu with
  | unclaimed hc hoff => exact .unclaimed (hclaim ▸ hc) (hv ▸ hoff)
  | late hc hr hoff hpend => exact .late (hclaim ▸ hc) (hplane .. ▸ hr) (hv ▸ hoff) (hp _ hpend)
  | resident hc hr hon hq => exact .resident (hclaim ▸ hc) (hplane .. ▸ hr) (hv ▸ hon) (hv ▸ hq)

end Switch

/-! ## The switches of a headland (R154) -/

/-- The fields of `l` are switched in order; `ecc` names the fields whose plane's read fails. -/
def State.switchFields (s : State) (ecc : List (Fin 16)) (l : List Nat) : State :=
  l.foldl (fun s f => s.switchField (ecc.any (fun e => e.val == f)) f) s

section Switches

variable {s : State} {ecc : List (Fin 16)}

/-- The switches from `s` to `t` switch field `f` once, in the state `u`. -/
structure SwitchedIn (ecc : List (Fin 16)) (s t : State) (f : Nat) (u : State) : Prop where
  wf : mwf (fun _ => Field.init) u.fields = true
  before : u.field f = s.field f
  basis : ecc = [] → u.claimBasis = s.claimBasis
  after : t.field f = (u.switchField (ecc.any (fun e => e.val == f)) f).field f
  pend : ∀ n ∈ (u.switchField (ecc.any (fun e => e.val == f)) f).intc.pend, n ∈ t.intc.pend

/-- Each field of a list without repetition is switched once; the others stay, and what is pending stays pending. -/
theorem switchFields_each (ecc : List (Fin 16)) {l : List Nat} (hl : l.Nodup) (h : mwf (fun _ => Field.init) s.fields = true) :
    (∀ f, f ∉ l → (s.switchFields ecc l).field f = s.field f) ∧ (∀ n ∈ s.intc.pend, n ∈ (s.switchFields ecc l).intc.pend) ∧
    ∀ f, f ∈ l → ∃ u, SwitchedIn ecc s (s.switchFields ecc l) f u := by
  induction l generalizing s with
  | nil => exact ⟨fun _ _ => rfl, fun _ hn => hn, fun f hf => absurd hf List.not_mem_nil⟩
  | cons k l ih =>
    obtain ⟨hk, hl⟩ := List.nodup_cons.1 hl
    have hstep := ChangesField.switchField s (ecc.any (fun e => e.val == k)) k
    obtain ⟨hwf, hothers⟩ := hstep.fields h
    obtain ⟨hout, hpend, hin⟩ := ih hl hwf
    refine ⟨fun f hf => ?_, fun n hn => hpend n (hstep.pend n hn), fun f hf => ?_⟩
    · obtain ⟨hne, hf⟩ := not_or.1 (mt List.mem_cons.2 hf)
      exact (hout f hf).trans (hothers f hne)
    · rcases List.mem_cons.1 hf with rfl | hf
      · exact ⟨s, h, rfl, fun _ => rfl, hout f hk, hpend⟩
      · obtain ⟨u, hu⟩ := hin f hf
        have hne : f ≠ k := fun e => hk (e ▸ hf)
        refine ⟨u, hu.wf, hu.before.trans (hothers f hne), fun hecc => (hu.basis hecc).trans ?_, hu.after, hu.pend⟩
        rw [hecc]
        exact switchField_basis s k

theorem SwitchedIn.safe {t u : State} {f : Nat} (h : SwitchedIn ecc s t f u) (ha : (t.field f).active = true) :
    ((t.field f).plane (t.field f).activePlane).state = 2 := by
  rw [h.after] at ha ⊢
  exact switchField_safe h.wf _ f ha
theorem SwitchedIn.follows {t u : State} {f : Nat} (h : SwitchedIn [] s t f u) : FollowsClaim s f t :=
  (switchField_follows h.wf f).congr (h.basis rfl) h.before h.after h.pend

theorem field_setOffset (t : State) (o f : Nat) : (t.setOffset o).field f = t.field f := rfl
theorem FollowsClaim.setOffset {t : State} {f : Nat} (h : FollowsClaim s f t) (o : Nat) : FollowsClaim s f (t.setOffset o) :=
  h.congr rfl rfl (field_setOffset t o f) fun _ hn => hn

theorem inactive_of_newlyClaimed {f : Nat} (h : s.newlyClaimed f = true) : (s.field f).active = false := by
  unfold State.newlyClaimed at h
  split at h
  · simpa using (Bool.and_eq_true_iff.1 h).2
  · exact absurd h Bool.false_ne_true

theorem exec_planeSwitch (hrun : s.running = true) (ecc : List (Fin 16)) :
    exec (.planeSwitch ecc) s = .next ((s.switchFields ecc (upTo 16)).setOffset 8704) := whenRun_of_running hrun _
/-- The late switch takes the fields newly claimed; the mirror then names their planes. -/
theorem exec_latePlaneSwitch (hrun : s.running = true) (ecc : List (Fin 16)) : ∃ m, exec (.latePlaneSwitch ecc) s =
    .next (State.setOffset { s.switchFields ecc ((upTo 16).filter s.newlyClaimed) with mirror := m } 49152) :=
  ⟨_, whenRun_of_running hrun _⟩

/-- Settles O13: each field is switched once; its switch follows its claim, and makes it active on a RESIDENT plane alone. -/
theorem planeSwitchActivatesResidentPlanes : Obligations.PlaneSwitchActivatesResidentPlanes := by
  unfold Obligations.PlaneSwitchActivatesResidentPlanes
  refine ⟨?exact, ?safe, ?late⟩
  case exact =>
    intro s hrun hwf
    obtain ⟨-, -, hfields, -⟩ := tablesWf_iff.1 hwf
    obtain ⟨-, -, hin⟩ := switchFields_each [] (l := upTo 16) List.nodup_range hfields
    have hexec := exec_planeSwitch hrun []
    generalize s.switchFields [] (upTo 16) = t at hin hexec
    refine ⟨_, hexec, rfl, fun f hf => ?_⟩
    obtain ⟨u, hu⟩ := hin f (mem_upTo.2 hf)
    cases hu.follows.setOffset 8704 with
    | unclaimed hc hoff =>
      rw [hc]
      exact hoff
    | late hc hr hoff hpend =>
      unfold State.residentPlane at hr
      simp only [hc, hr]
      exact ⟨hoff, hpend⟩
    | resident hc hr hon hplane =>
      unfold State.residentPlane at hr
      simp only [hc, hr]
      exact ⟨hon, hplane⟩
  case safe =>
    intro s ecc hrun hwf
    obtain ⟨-, -, hfields, -⟩ := tablesWf_iff.1 hwf
    obtain ⟨-, -, hin⟩ := switchFields_each ecc (l := upTo 16) List.nodup_range hfields
    have hexec := exec_planeSwitch hrun ecc
    generalize s.switchFields ecc (upTo 16) = t at hin hexec
    refine ⟨_, hexec, rfl, fun f hf ha => ?_⟩
    obtain ⟨u, hu⟩ := hin f (mem_upTo.2 hf)
    exact hu.safe ha
  case late =>
    intro s ecc hrun hwf
    obtain ⟨-, -, hfields, -⟩ := tablesWf_iff.1 hwf
    obtain ⟨hout, -, hin⟩ := switchFields_each ecc (l := (upTo 16).filter s.newlyClaimed) (List.nodup_range.filter _) hfields
    obtain ⟨m, hexec⟩ := exec_latePlaneSwitch hrun ecc
    have hnew (f : Nat) (hmem : f ∈ (upTo 16).filter s.newlyClaimed) := inactive_of_newlyClaimed (List.mem_filter.1 hmem).2
    generalize s.switchFields ecc ((upTo 16).filter s.newlyClaimed) = t at hout hin hexec
    refine ⟨_, hexec, rfl, fun f _ => ⟨fun ha => hout f fun hmem => ?_, fun hoff ha => ?_⟩⟩
    · exact Bool.false_ne_true ((hnew f hmem).symm.trans ha)
    · by_cases hmem : f ∈ (upTo 16).filter s.newlyClaimed
      · obtain ⟨u, hu⟩ := hin f hmem
        exact hu.safe ha
      · have hsame : (t.field f).active = false := (congrArg Field.active (hout f hmem)).trans hoff
        exact absurd (hsame.symm.trans ha) Bool.false_ne_true

end Switches

end Sys2Proof.Machine
end

section
/-! The loads of planes: the section's bytes in HBM, or PLANE_FAIL (R153, R155). -/

namespace Sys2Proof.Machine

/-! ## Sparse maps that are cut out and shifted -/

section Cut

variable {α : Type} [DecidableEq α] {d d' : Nat → α} {m : SMap α} {lo : Nat}

/-- Of a canonical map the entries that pass `q` read as before; where the default itself does not pass, all else reads the new default. -/
theorem mget_filter (h : mwfFrom d lo m = true) (q : Nat × α → Bool) (k : Nat) (hq : q (k, d k) = false) :
    mget d' (m.filter q) k = if q (k, mget d m k) then mget d m k else d' k := by
  induction m generalizing lo with
  | nil => simp [mget, hq]
  | cons e m ih =>
    obtain ⟨a, v⟩ := e
    obtain ⟨-, -, hm⟩ := mwfFrom_cons.1 h
    have hbelow (hk : k < a + 1) : mget d' (m.filter q) k = d' k := by
      rw [ih hm, mget_below hm hk, hq]
      rfl
    rcases Nat.lt_trichotomy k a with hk | rfl | hk
    · have hv : mget d ((a, v) :: m) k = d k := mget_below (lo := a) (mwfFrom_cons.2 ⟨le_rfl, (mwfFrom_cons.1 h).2⟩) hk
      rw [hv, hq, List.filter_cons]
      split
      · simp [mget, hk.ne, hk]
      · exact hbelow (by omega)
    · rw [List.filter_cons]
      split <;> simp_all [mget]
    · have hv : mget d ((a, v) :: m) k = mget d m k := by simp [mget, hk.ne', hk.not_gt]
      rw [hv, ← ih hm, List.filter_cons]
      split
      · simp [mget, hk.ne', hk.not_gt]
      · rfl

omit [DecidableEq α] in
/-- A map whose keys are all at `a` or above, with its keys counted from there. -/
theorem mget_map_sub (c : α) (a k : Nat) (h : ∀ e ∈ m, a ≤ e.1) :
    mget (fun _ => c) (m.map (fun e => (e.1 - a, e.2))) k = mget (fun _ => c) m (a + k) := by
  induction m with
  | nil => rfl
  | cons e m ih =>
    obtain ⟨b, v⟩ := e
    obtain ⟨hb, hm⟩ := List.forall_mem_cons.1 h
    have hb : a ≤ b := hb
    have heq : k = b - a ↔ a + k = b := by omega
    have hlt : k < b - a ↔ a + k < b := by omega
    simp only [List.map_cons, mget, ih hm, heq, hlt]

end Cut

/-- A loaded section reads as HBM does (R153). -/
theorem mget_hbmSparse {s : State} (h : mwf hbmDefault s.hbm = true) {a n k : Nat} (hn : a + n ≤ ledgerBase) (hk : k < n) :
    mget (fun _ => 0#8) (s.hbmSparse a n) k = s.hbmByte (a + k) := by
  have hbase : a + k < 0x17C0000000 := lt_of_lt_of_le (Nat.add_lt_add_left hk a) hn
  have hmod : (a + k) % 2 ^ 37 = a + k := Nat.mod_eq_of_lt (by omega)
  have hdef : hbmDefault (a + k) = 0#8 := if_pos hbase
  have hown : internalA (a + k) = false := decide_eq_false (by omega)
  rw [State.hbmSparse, mget_map_sub _ _ _ fun e he => ?lower, mget_filter h _ _ ?zero, State.hbmByte, hown, hmod]
  case lower => simp_all
  case zero => simp [hdef]
  have hrange : decide (a ≤ a + k) = true ∧ decide (a + k < a + n) = true := by simp [hk]
  by_cases hgone : s.hbmGone (a + k) = true
  · simp [hgone]
  · by_cases hz : mget hbmDefault s.hbm (a + k) = 0#8
    · simp [hgone, hz]
    · simp [hgone, hz, hk]

/-! ## The beginning of a load -/

section Loads

variable {s : State}

theorem exec_planeLoad_of_none (hrun : s.running = true) {f : Fin 16} (h : s.nextLoad f.val = none) : exec (.planeLoad f) s = .next s := by
  refine (whenRun_of_running hrun _).trans (congrArg _ ?_)
  rw [h]
theorem exec_planeLoad_of_some (hrun : s.running = true) {f : Fin 16} {p : Nat} (h : s.nextLoad f.val = some p) :
    exec (.planeLoad f) s = .next { s.modField f.val (fun x => { x with loading := some p }) with
      loadsLast := s.loadsLast + 1, loads := s.loads + 1 } := by
  refine (whenRun_of_running hrun _).trans (congrArg _ ?_)
  rw [h]
  rfl

/-! ## The end of a load -/

/-- The load of field `f` is no longer in progress. -/
def State.loadEnded (s : State) (f : Nat) : State := s.modField f (fun x => { x with loading := none })

theorem exec_planeLoadEnd_of_none (hrun : s.running = true) {f : Fin 16} (h : (s.field f.val).loading = none) (ecc : Bool) :
    exec (.planeLoadEnd f ecc) s = .next s := by
  refine (whenRun_of_running hrun _).trans (congrArg _ ?_)
  rw [h]

section Ends

variable {f : Fin 16} {p : Nat} {pl : Plane} (hrun : s.running = true) (h : (s.field f.val).loading = some p)
  (hpl : (s.field f.val).plane p = pl)

include hrun h hpl

/-- A plane of the built-in sections is read from nowhere (R231). -/
theorem exec_planeLoadEnd_builtIn (hd : pl.digest = []) (ecc : Bool) : exec (.planeLoadEnd f ecc) s =
    .next ((s.loadEnded f.val).modField f.val (fun x => x.setPlane p { pl with state := 2 })) := by
  refine (whenRun_of_running hrun _).trans (congrArg _ ?_)
  simp only [h, hpl, hd, List.isEmpty_nil, if_true]
  rfl
theorem exec_planeLoadEnd_read (hd : pl.digest ≠ []) (hm : s.meetsFence pl.src pl.len = false) : exec (.planeLoadEnd f false) s =
    .next (((s.loadEnded f.val).countReqs (reqs pl.src pl.len)).modField f.val (fun x => x.setPlane p
      { pl with state := 2, data := s.hbmSparse pl.src pl.len })) := by
  refine (whenRun_of_running hrun _).trans (congrArg _ ?_)
  simp only [h, hpl, List.isEmpty_eq_false_iff.2 hd, hm, Bool.or_self, Bool.false_eq_true, if_false]
  rfl
theorem exec_planeLoadEnd_fails (hd : pl.digest ≠ []) {ecc : Bool} (hm : ecc = true ∨ s.meetsFence pl.src pl.len = true) :
    exec (.planeLoadEnd f ecc) s = .next ((((s.loadEnded f.val).countReqs (reqs pl.src pl.len)).fencedReads (pl.src / 64)
      (reqs pl.src pl.len)).planeFail f.val p) := by
  refine (whenRun_of_running hrun _).trans (congrArg _ ?_)
  simp only [h, hpl, List.isEmpty_eq_false_iff.2 hd, Bool.or_eq_true_iff.2 hm, Bool.false_eq_true, if_false, if_true]
  rfl

end Ends

/-- Requests that are counted, and reads of fenced granules, change no field. -/
theorem field_of_loadEnded (hwf : mwf (fun _ => Field.init) s.fields = true) {t : State} {f : Nat}
    (ht : t.fields = (s.loadEnded f).fields) : t.field f = { s.field f with loading := none } := by
  rw [State.field, ht]
  exact field_modField_same hwf f _

theorem plane_setPlane (x : Field) (h : mwf (fun _ => Plane.empty) x.planes = true) (p : Nat) (pl : Plane) :
    (x.setPlane p pl).plane p = pl := mget_mput_same h
/-- A RESIDENT plane reads back after it is set, whatever the rest of the field's planes hold. -/
theorem plane_setPlane_resident (x : Field) (p : Nat) {pl : Plane} (h : pl.state = 2) : (x.setPlane p pl).plane p = pl :=
  mget_mput_get p pl fun e => absurd (h.symm.trans (congrArg Plane.state e)) (by decide)

/-- A load that ends well leaves its plane as it was read, and is no longer in progress. -/
theorem load_ends (hwf : mwf (fun _ => Field.init) s.fields = true) {t : State} {f : Nat} (ht : t.fields = (s.loadEnded f).fields)
    (p : Nat) {pl : Plane} (h : pl.state = 2) : ((t.modField f (fun x => x.setPlane p pl)).field f).loading = none ∧
      ((t.modField f (fun x => x.setPlane p pl)).field f).plane p = pl := by
  rw [field_modField_same (ht ▸ mwf_mput hwf), field_of_loadEnded hwf ht]
  exact ⟨rfl, plane_setPlane_resident _ p h⟩
/-- A load that fails is no longer in progress, its plane is EMPTY, and PLANE_FAIL is reported (R155). -/
theorem load_fails (hwf : mwf (fun _ => Field.init) s.fields = true) {t : State} {f : Nat} (ht : t.fields = (s.loadEnded f).fields)
    (hplanes : mwf (fun _ => Plane.empty) (s.field f).planes = true) (p : Nat) :
    ((t.planeFail f p).field f).loading = none ∧ ((t.planeFail f p).field f).plane p = Plane.empty ∧
      882 ∈ (t.planeFail f p).intc.pend ∧ ∃ r ∈ (t.planeFail f p).faults.reports, r.source = 169 := by
  rw [field_planeFail (ht ▸ mwf_mput hwf), field_of_loadEnded hwf ht]
  obtain ⟨a, m, r, l, e, hsrc, hmem, -⟩ := planeFail_only t f p
  rw [e]
  exact ⟨rfl, plane_setPlane { s.field f with loading := none } hplanes p _, hmem, r, List.mem_append_right _ List.mem_cons_self, hsrc⟩

/-- Settles O14: a load begins and ends in its field's own entry; its end reads the section, or fails. -/
theorem planeLoadFillsPlane : Obligations.PlaneLoadFillsPlane := by
  unfold Obligations.PlaneLoadFillsPlane
  refine ⟨?begins, ?idle, ?ends, ?bytes, ?fails, ?none⟩
  case begins =>
    intro s f p hrun h
    have hbusy : { s.field f.val with loading := some p } ≠ Field.init := fun e => nomatch congrArg Field.loading e
    have hfield : (s.modField f.val (fun x => { x with loading := some p })).field f.val = { s.field f.val with loading := some p } :=
      mget_mput_get f.val _ hbusy
    exact ⟨_, exec_planeLoad_of_some hrun h, congrArg Field.loading hfield, rfl, rfl, rfl, rfl⟩
  case idle => exact fun s f hrun h => exec_planeLoad_of_none hrun h
  case ends =>
    intro s f p hrun hwf h hm
    obtain ⟨-, -, hfields, -⟩ := tablesWf_iff.1 hwf
    generalize hpl : (s.field f.val).plane p = pl at hm ⊢
    by_cases hd : pl.digest = []
    · obtain ⟨hload, hplane⟩ := load_ends (t := s.loadEnded f.val) hfields rfl p (pl := { pl with state := 2 }) rfl
      refine ⟨_, exec_planeLoadEnd_builtIn hrun h hpl hd false, hload, ?_, fun hne => absurd hd hne, rfl, rfl⟩
      rw [hplane]
    · obtain ⟨hload, hplane⟩ := load_ends (t := (s.loadEnded f.val).countReqs (reqs pl.src pl.len)) hfields rfl p
        (pl := { pl with state := 2, data := s.hbmSparse pl.src pl.len }) rfl
      refine ⟨_, exec_planeLoadEnd_read hrun h hpl hd (hm.resolve_left hd), hload, ?_, fun _ => ?_, rfl, rfl⟩
      · rw [hplane]
      · rw [hplane]
  case bytes => exact fun s a n k hwf hn hk => mget_hbmSparse hwf hn hk
  case fails =>
    intro s f p ecc hrun hwf hplanes h hd hm
    obtain ⟨-, -, hfields, -⟩ := tablesWf_iff.1 hwf
    generalize hpl : (s.field f.val).plane p = pl at hd hm
    obtain ⟨k, l, e⟩ := fencedReads_only ((s.loadEnded f.val).countReqs (reqs pl.src pl.len)) (pl.src / 64) (reqs pl.src pl.len)
    refine ⟨_, exec_planeLoadEnd_fails hrun h hpl hd hm, load_fails hfields ?_ hplanes p⟩
    rw [e]
    rfl
  case none => exact fun s f ecc hrun h => exec_planeLoadEnd_of_none hrun h ecc

end Loads

end Sys2Proof.Machine
end

section
/-! Marks and commits become durable, slots reload, and cells are re-masked (R167, R343, R344, R348). -/

namespace Sys2Proof.Machine

/-! ## Listed entries, and folds of writes -/

section Listed

variable {α : Type} [DecidableEq α] {d : Nat → α} {m : SMap α} {l : List (Nat × α)} {lo k : Nat} {v : α}

/-- What a canonical map lists stands at or above its bound, and reads as listed. -/
theorem mget_of_mem (h : mwfFrom d lo m = true) (hmem : (k, v) ∈ m) : lo ≤ k ∧ mget d m k = v := by
  induction m generalizing lo with
  | nil => exact absurd hmem List.not_mem_nil
  | cons e m ih =>
    obtain ⟨a, w⟩ := e
    obtain ⟨hlo, -, hm⟩ := mwfFrom_cons.1 h
    rcases List.mem_cons.1 hmem with heq | hmem
    · cases heq
      exact ⟨hlo, by simp [mget]⟩
    · obtain ⟨ha, hv⟩ := ih hm hmem
      exact ⟨by omega, by simp [mget, show k ≠ a by omega, show ¬ k < a by omega, hv]⟩

variable (g : α → α)

/-- Writes elsewhere leave a key as it was. -/
theorem mget_foldl_mput_ne (h : mwf d m = true) (hk : k ∉ l.map (·.1)) :
    mget d (l.foldl (fun m e => mput d m e.1 (g e.2)) m) k = mget d m k := by
  induction l generalizing m with
  | nil => rfl
  | cons e l ih =>
    obtain ⟨hne, hl⟩ := not_or.1 (mt List.mem_cons.2 hk)
    exact (ih (mwf_mput h) hl).trans (mget_mput_ne h hne)

/-- Of writes to different keys each one reads back. -/
theorem mget_foldl_mput (h : mwf d m = true) (hl : (l.map (·.1)).Nodup) {e : Nat × α} (he : e ∈ l) :
    mget d (l.foldl (fun m e => mput d m e.1 (g e.2)) m) e.1 = g e.2 := by
  induction l generalizing m with
  | nil => exact absurd he List.not_mem_nil
  | cons x l ih =>
    obtain ⟨hx, hl⟩ := List.nodup_cons.1 hl
    rcases List.mem_cons.1 he with rfl | he
    · exact (mget_foldl_mput_ne g (mwf_mput h) hx).trans (mget_mput_same h)
    · exact ih (mwf_mput h) hl he

end Listed

/-! ## One slot of the key store -/

theorem slot_setSlot {s : State} (h : s.slotsWf = true) (n j : Nat) (k : KSlot) :
    (s.setSlot n k).slot j = if j = n then k else s.slot j := mget_mput h
theorem slotsWf_setSlot {s : State} (h : s.slotsWf = true) (n : Nat) (k : KSlot) : (s.setSlot n k).slotsWf = true := mwf_mput h

/-- The key in a slot without its marks. -/
def KSlot.unmarked (k : KSlot) : KSlot := { k with mark := 0, markFirst := 0, markPend := [] }
def KCommit.unmarked (c : KCommit) : KCommit := { c with sets := c.sets.map (fun e => (e.1, e.2.unmarked)) }
/-- The state without the slots, the partition and the marks in waiting commits. -/
def State.withoutMarks (s : State) : State :=
  { s with keys := { s.keys with slots := [], nv := [], commits := s.keys.commits.map KCommit.unmarked } }

/-- Equal but for their marks: what the statements say of a key is equal. -/
theorem KSlot.eq_of_unmarked {x y : KSlot} (h : x.unmarked = y.unmarked) :
    x.secret = y.secret ∧ x.state = y.state ∧ x.ctr = y.ctr ∧ x.owner = y.owner :=
  ⟨(congrArg KSlot.secret h :), (congrArg KSlot.state h :), (congrArg KSlot.ctr h :), (congrArg KSlot.owner h :)⟩

theorem KSlot.unmarked_firm (k : KSlot) : k.firm.unmarked = k.unmarked := by
  unfold KSlot.firm
  split <;> rfl
theorem KSlot.markPend_firm (k : KSlot) : k.firm.markPend = k.markPend := by
  unfold KSlot.firm
  split <;> rfl

/-! ## What a mark that becomes durable may touch (R167) -/

/-- From `s` to `t` marks have become durable and nothing else has changed: a slot's waiting marks leave from the head of its list. -/
structure MarksOnly (s t : State) : Prop where
  rest : t.withoutMarks = s.withoutMarks
  nv : mwf (fun _ => KSlot.empty) s.keys.nv = true → mwf (fun _ => KSlot.empty) t.keys.nv = true
  slots : s.slotsWf = true → t.slotsWf = true ∧
    ∀ n, (t.slot n).unmarked = (s.slot n).unmarked ∧ (t.slot n).markPend <:+ (s.slot n).markPend

namespace MarksOnly

variable {s t u : State}

theorem refl (s : State) : MarksOnly s s := ⟨rfl, id, fun h => ⟨h, fun _ => ⟨rfl, List.suffix_rfl⟩⟩⟩

theorem trans (a : MarksOnly s t) (b : MarksOnly t u) : MarksOnly s u where
  rest := b.rest.trans a.rest
  nv := b.nv ∘ a.nv
  slots h := by
    obtain ⟨ht, ha⟩ := a.slots h
    obtain ⟨hu, hb⟩ := b.slots ht
    exact ⟨hu, fun n => ⟨(hb n).1.trans (ha n).1, (hb n).2.trans (ha n).2⟩⟩

theorem foldl {β : Type} {f : State → β → State} (hf : ∀ s b, MarksOnly s (f s b)) (l : List β) (s : State) :
    MarksOnly s (l.foldl f s) := by
  induction l generalizing s with
  | nil => exact refl s
  | cons b l ih => exact (hf s b).trans (ih _)

/-- A slot is set to its own key with other marks. -/
theorem setSlot {n : Nat} {k : KSlot} (hk : k.unmarked = (s.slot n).unmarked) (hp : k.markPend <:+ (s.slot n).markPend) :
    MarksOnly s (s.setSlot n k) where
  rest := rfl
  nv := id
  slots h := by
    refine ⟨slotsWf_setSlot h n k, fun j => ?_⟩
    rw [slot_setSlot h]
    split
    next hj => exact hj ▸ ⟨hk, hp⟩
    next => exact ⟨rfl, List.suffix_rfl⟩

/-- The copies of a key take its mark. -/
theorem markCopies (s : State) (n m : Nat) : MarksOnly s (s.markCopies n m) where
  rest := by
    simp only [State.withoutMarks, State.markCopies, List.map_map]
    congr 2
    refine List.map_congr_left fun c _ => ?_
    simp only [Function.comp, KCommit.unmarked, List.map_map]
    congr 1
    refine List.map_congr_left fun e _ => ?_
    simp only [Function.comp]
    split
    next h =>
      rw [← h]
      split <;> rfl
    next => rfl
  nv := mwf_mput
  slots h := ⟨h, fun _ => ⟨rfl, List.suffix_rfl⟩⟩

theorem markDurable (s : State) (n : Nat) : MarksOnly s (s.markDurable n) := by
  unfold State.markDurable
  split
  · exact refl s
  · rename_i m rest h
    have hslot : MarksOnly s (s.setSlot n { s.slot n with mark := m, markPend := rest }) := setSlot rfl (h ▸ List.suffix_cons m rest)
    exact hslot.trans (markCopies _ n m)

theorem marksDurable (s : State) (n k : Nat) : MarksOnly s (s.marksDurable n k) := by
  induction k generalizing s with
  | zero => exact refl s
  | succ k ih => exact (markDurable s n).trans (ih _)

theorem allMarks (s : State) : MarksOnly s s.allMarks := 
  foldl (fun u (e : Nat × KSlot) => marksDurable u e.1 e.2.markPend.length) _ s

theorem firstMark (s : State) (e : Nat × KSlot) : MarksOnly s (s.firstMark e) := by
  unfold State.firstMark
  split
  · exact refl s
  · refine (markCopies s e.1 e.2.markFirst).trans ?_
    simp only [State.modSlot_eq]
    split
    · exact setSlot (KSlot.unmarked_firm _) (by rw [KSlot.markPend_firm])
    · exact setSlot rfl List.suffix_rfl

theorem firstMarks (s : State) (l : List (Nat × KSlot)) : MarksOnly s (l.foldl State.firstMark s) := foldl firstMark l s

end MarksOnly

/-! ## Every mark on its way is durable -/

section Marks

variable {s : State} {n m : Nat} {rest : List Nat}

theorem markDurable_of_nil (h : (s.slot n).markPend = []) : s.markDurable n = s := by
  simp only [State.markDurable, h]
theorem markDurable_of_cons (h : (s.slot n).markPend = m :: rest) :
    s.markDurable n = (s.setSlot n { s.slot n with mark := m, markPend := rest }).markCopies n m := by
  simp only [State.markDurable, h, State.modSlot_eq]

theorem markPend_markDurable (h : s.slotsWf = true) (n : Nat) :
    ((s.markDurable n).slot n).markPend = (s.slot n).markPend.tail := by
  cases hp : (s.slot n).markPend with
  | nil => rw [markDurable_of_nil hp, hp, List.tail_nil]
  | cons m rest =>
    rw [markDurable_of_cons hp]
    exact congrArg KSlot.markPend ((slot_setSlot h n n _).trans (if_pos rfl))

theorem markPend_marksDurable (h : s.slotsWf = true) (n k : Nat) :
    ((s.marksDurable n k).slot n).markPend = (s.slot n).markPend.drop k := by
  induction k generalizing s with
  | zero => rfl
  | succ k ih =>
    obtain ⟨hwf, -⟩ := (MarksOnly.markDurable s n).slots h
    rw [State.marksDurable, ih hwf, markPend_markDurable h, List.drop_tail]

/-- A slot whose oldest mark is durable. A mark is never 0, so the slot stays listed. -/
theorem slot_markDurable (h : (s.slot n).markPend = m :: rest) (hm : 0 < m) :
    (s.markDurable n).slot n = { s.slot n with mark := m, markPend := rest } := by
  rw [markDurable_of_cons h]
  exact mget_mput_get n _ fun e => hm.ne' (congrArg KSlot.mark e)

/-- The copy of a LIVE slot's key in the partition takes its mark. -/
theorem nv_markCopies (hstate : (mget (fun _ => KSlot.empty) s.keys.nv n).state = 2)
    (hsecret : (mget (fun _ => KSlot.empty) s.keys.nv n).secret = (s.slot n).secret) (m : Nat) :
    mget (fun _ => KSlot.empty) (s.markCopies n m).keys.nv n =
      { mget (fun _ => KSlot.empty) s.keys.nv n with mark := m, markFirst := 0 } := by
  simp only [State.markCopies, if_pos (And.intro hstate hsecret)]
  exact mget_mput_get n _ fun e => absurd (hstate.symm.trans (congrArg KSlot.state e :)) (by decide)

theorem nv_markDurable (h : (s.slot n).markPend = m :: rest) (hm : 0 < m)
    (hstate : (mget (fun _ => KSlot.empty) s.keys.nv n).state = 2)
    (hsecret : (mget (fun _ => KSlot.empty) s.keys.nv n).secret = (s.slot n).secret) :
    mget (fun _ => KSlot.empty) (s.markDurable n).keys.nv n =
      { mget (fun _ => KSlot.empty) s.keys.nv n with mark := m, markFirst := 0 } := by
  have hslot := slot_markDurable h hm
  rw [markDurable_of_cons h] at hslot ⊢
  refine nv_markCopies (s := s.setSlot n _) hstate ?_ m
  exact hsecret.trans (congrArg KSlot.secret hslot :).symm

/-- Of each listed slot as many marks as listed have become durable, or all. -/
theorem length_markPend_foldl (l : List (Nat × KSlot)) (h : s.slotsWf = true) {e : Nat × KSlot} (he : e ∈ l) :
    ((l.foldl (fun s e => s.marksDurable e.1 e.2.markPend.length) s).slot e.1).markPend.length ≤
      (s.slot e.1).markPend.length - e.2.markPend.length := by
  induction l generalizing s with
  | nil => exact absurd he List.not_mem_nil
  | cons x l ih =>
    obtain ⟨hwf, hx⟩ := (MarksOnly.marksDurable s x.1 x.2.markPend.length).slots h
    rcases List.mem_cons.1 he with rfl | he
    · obtain ⟨-, hl⟩ := (MarksOnly.foldl (fun u (e : Nat × KSlot) => MarksOnly.marksDurable u e.1 e.2.markPend.length) l _).slots hwf
      have hlen := (hl e.1).2.length_le
      rwa [markPend_marksDurable h, List.length_drop] at hlen
    · have hlen := (hx e.1).2.length_le
      have hrest := ih hwf he
      rw [List.foldl_cons]
      omega

/-- No slot has a mark on its way any longer. -/
theorem markPend_allMarks (h : s.slotsWf = true) (n : Nat) : (s.allMarks.slot n).markPend = [] := by
  by_cases hn : n ∈ s.keys.slots.map (·.1)
  · obtain ⟨e, he, rfl⟩ := List.mem_map.1 hn
    have hlen := length_markPend_foldl s.keys.slots h he
    have hread : s.slot e.1 = e.2 := (mget_of_mem h he).2
    rw [hread, Nat.sub_self] at hlen
    exact List.eq_nil_of_length_eq_zero (Nat.le_zero.1 hlen)
  · have hread : s.slot n = KSlot.empty := mget_unlisted hn
    have hsuffix := (((MarksOnly.allMarks s).slots h).2 n).2
    rw [hread] at hsuffix
    exact List.suffix_nil.1 hsuffix

end Marks

/-! ## The oldest commit (R348) -/

section Commit

variable {s : State} {c : KCommit} {rest : List KCommit}

/-- Commits that differ in marks alone are of the same swaths, with the same counters. -/
theorem KCommit.map_of_unmarked {l l' : List KCommit} (h : l.map KCommit.unmarked = l'.map KCommit.unmarked) :
    l.map (fun x => (x.swn, x.counter)) = l'.map (fun x => (x.swn, x.counter)) := by
  simpa only [List.map_map, Function.comp_def, KCommit.unmarked] using congrArg (List.map (fun x : KCommit => (x.swn, x.counter))) h

/-- Commits that differ in marks alone change the same slots, with the same keys. -/
theorem KCommit.sets_of_unmarked {x y : KCommit} (h : x.unmarked = y.unmarked) :
    x.sets.map (·.1) = y.sets.map (·.1) ∧ ∀ e ∈ y.sets, ∃ f ∈ x.sets, f.1 = e.1 ∧ f.2.unmarked = e.2.unmarked := by
  have hsets : x.sets.map (fun e => (e.1, e.2.unmarked)) = y.sets.map (fun e => (e.1, e.2.unmarked)) := congrArg KCommit.sets h
  constructor
  · simpa only [List.map_map, Function.comp_def] using congrArg (List.map Prod.fst) hsets
  · intro e he
    have hmem : (e.1, e.2.unmarked) ∈ x.sets.map (fun e => (e.1, e.2.unmarked)) :=
      hsets ▸ List.mem_map_of_mem (f := fun e : Nat × KSlot => (e.1, e.2.unmarked)) he
    obtain ⟨f, hf, heq⟩ := List.mem_map.1 hmem
    exact ⟨f, hf, Prod.mk.inj heq⟩

/-- The backup domain with the counter of a durable commit mirrored, where it has one (R354). -/
def Backup.mirrored (b : Backup) : Option DWord → Backup
  | none => b
  | some v => { b with now := { b.now with ctrMirror := v } }

/-- The oldest commit's first marks, then its slots and its counter. -/
theorem durableOne_of_cons (h : s.keys.commits = c :: rest) : s.durableOne =
    let u := c.sets.foldl State.firstMark s
    { u with
      keys := { u.keys with
        commits := u.keys.commits.drop 1
        nv := c.sets.foldl (fun nv e => mput (fun _ => KSlot.empty) nv e.1 e.2.firm) u.keys.nv
        nvCounter := c.counter.getD u.keys.nvCounter }
      backup := u.backup.mirrored c.counter } := by
  simp only [State.durableOne, h]
  cases c.counter <;> rfl

/-- NV_DONE once the commits `rest` alone wait (R348). -/
def State.doneBefore (s : State) : List KCommit → DWord
  | [] => s.lastCommitSwn
  | d :: _ => BitVec.ofNat 64 (d.swn - 1)

theorem exec_nvCommitDurable_of_cons (hrun : s.running = true) (h : s.keys.commits = c :: rest) :
    exec .nvCommitDurable s = .next (s.allMarks.durableOne.modKeys (fun k => { k with nvDone := s.doneBefore rest })) := by
  refine (whenRun_of_running hrun _).trans (congrArg _ ?_)
  simp only [h]
  cases rest <;> rfl

theorem slot_durableOne (h : s.keys.commits = c :: rest) (n : Nat) :
    s.durableOne.slot n = (c.sets.foldl State.firstMark s).slot n := by
  rw [durableOne_of_cons h]
  rfl

/-- The counter record and its mirror take the commit's counter; memory and registers stay. -/
theorem durableOne_rest (h : s.keys.commits = c :: rest) : s.durableOne.keys.nvCounter = c.counter.getD s.keys.nvCounter ∧
    s.durableOne.backup = s.backup.mirrored c.counter ∧ s.durableOne.hbm = s.hbm ∧ s.durableOne.cfg = s.cfg := by
  have hrest := (MarksOnly.firstMarks s c.sets).rest
  have hcounter : (c.sets.foldl State.firstMark s).keys.nvCounter = s.keys.nvCounter :=
    (congrArg (fun t : State => t.keys.nvCounter) hrest :)
  have hbackup : (c.sets.foldl State.firstMark s).backup = s.backup := (congrArg State.backup hrest :)
  rw [durableOne_of_cons h, ← hcounter, ← hbackup]
  exact ⟨rfl, rfl, (congrArg State.hbm hrest :), (congrArg State.cfg hrest :)⟩

/-- What stands in the partition once the oldest commit is durable: the keys of its slots. -/
theorem nv_durableOne (h : s.keys.commits = c :: rest) (hnv : mwf (fun _ => KSlot.empty) s.keys.nv = true)
    (hnodup : (c.sets.map (·.1)).Nodup) {e : Nat × KSlot} (he : e ∈ c.sets) :
    (mget (fun _ => KSlot.empty) s.durableOne.keys.nv e.1).unmarked = e.2.unmarked := by
  have hread := mget_foldl_mput KSlot.firm ((MarksOnly.firstMarks s c.sets).nv hnv) hnodup he
  rw [durableOne_of_cons h]
  exact (congrArg KSlot.unmarked hread).trans (KSlot.unmarked_firm e.2)

/-- The commits that wait once the oldest is durable are the rest, but for marks. -/
theorem commits_durableOne (h : s.keys.commits = c :: rest) :
    s.durableOne.keys.commits.map KCommit.unmarked = rest.map KCommit.unmarked := by
  have hrest : (c.sets.foldl State.firstMark s).keys.commits.map KCommit.unmarked = s.keys.commits.map KCommit.unmarked :=
    congrArg (fun t : State => t.keys.commits) (MarksOnly.firstMarks s c.sets).rest
  rw [durableOne_of_cons h, List.map_drop, hrest, h]
  rfl

/-- Once every mark on its way and then a commit are durable, a slot holds its own key, and no mark of it waits. -/
theorem slot_allMarks_durableOne (hwf : s.slotsWf = true) (h : s.allMarks.keys.commits = c :: rest) (n : Nat) :
    (s.allMarks.durableOne.slot n).markPend = [] ∧ (s.allMarks.durableOne.slot n).unmarked = (s.slot n).unmarked := by
  obtain ⟨hwf', hslots⟩ := (MarksOnly.allMarks s).slots hwf
  obtain ⟨hkey, hpend⟩ := ((MarksOnly.firstMarks s.allMarks c.sets).slots hwf').2 n
  rw [markPend_allMarks hwf] at hpend
  rw [slot_durableOne h]
  exact ⟨List.suffix_nil.1 hpend, hkey.trans (hslots n).1⟩

end Commit

/-! ## Cells that fail (R344) -/

section Cells

variable {s : State}

theorem cellFails_of_empty {n : Nat} (h : (s.slot n).state = 0) : s.cellFails n = s := if_pos h
/-- A failed cell makes its slot wait for a reload, counts, and is reported as KS_CELL, which fences nothing. -/
theorem cellFails_of_ne {n : Nat} (h : (s.slot n).state ≠ 0) : s.cellFails n =
    let t := (s.setSlot n { s.slot n with reload := true }).modKeys (fun k => { k with cellErr := satInc 32 k.cellErr })
    { t with faults := { t.faults with reports := t.faults.reports ++ [{ source := 304, unit := 0, detail0 := 0, detail1 := 0 }] } } :=
  (if_neg h).trans (raise_open _ rfl rfl 0 0 0)

theorem slot_cellFails (h : s.slotsWf = true) (n j : Nat) :
    (s.cellFails n).slot j = if j = n ∧ (s.slot j).state ≠ 0 then { s.slot j with reload := true } else s.slot j := by
  by_cases h0 : (s.slot n).state = 0
  · rw [cellFails_of_empty h0, if_neg]
    rintro ⟨rfl, hj⟩
    exact hj h0
  · rw [cellFails_of_ne h0]
    refine (slot_setSlot h n j _).trans ?_
    by_cases hj : j = n
    · subst hj
      simp [h0]
    · simp [hj]

/-- Of many failed cells each one's slot waits for a reload; every other slot, and an empty one, stays. -/
theorem slot_foldl_cellFails (l : List Nat) (h : s.slotsWf = true) (j : Nat) : (l.foldl State.cellFails s).slot j =
    if j ∈ l ∧ (s.slot j).state ≠ 0 then { s.slot j with reload := true } else s.slot j := by
  induction l generalizing s with
  | nil => simp
  | cons n l ih =>
    rw [List.foldl_cons, ih ((EnginesOnly.cellFails s n).slots h).1, slot_cellFails h]
    by_cases hx : j = n ∧ (s.slot j).state ≠ 0
    · obtain ⟨rfl, h0⟩ := hx
      simp [h0]
    · simp only [if_neg hx, List.mem_cons]
      exact if_congr (by tauto) rfl rfl

theorem report_foldl_cellFails {l : List Nat} (h : s.slotsWf = true) {n : Nat} (hn : n ∈ l) (h0 : (s.slot n).state ≠ 0) :
    ∃ r ∈ (l.foldl State.cellFails s).faults.reports, r.source = 304 := by
  induction l generalizing s with
  | nil => exact absurd hn List.not_mem_nil
  | cons x l ih =>
    obtain ⟨hwf, hslots⟩ := (EnginesOnly.cellFails s x).slots h
    rcases List.mem_cons.1 hn with rfl | hn
    · obtain ⟨k, hk⟩ := (EnginesOnly.foldl EnginesOnly.cellFails l (s.cellFails n)).reports
      rw [List.foldl_cons, hk, cellFails_of_ne h0]
      exact ⟨_, List.mem_append_left k (List.mem_append_right _ List.mem_cons_self), rfl⟩
    · refine ih hwf hn ?_
      rw [hslots n]
      exact h0

/-- The cells that a re-masking finds bad: those it is told of, and those that an upset has met before. -/
def State.cellsBad (s : State) (bad : List (Fin 16384)) : List Nat :=
  (bad.map (·.val) ++ (s.keys.slots.filter (fun e => e.2.bad && !e.2.reload)).map (·.1)).eraseDups

theorem mem_cellsBad {bad : List (Fin 16384)} {n : Fin 16384} (h : n ∈ bad) : n.val ∈ s.cellsBad bad :=
  List.mem_eraseDups.2 (List.mem_append_left _ (List.mem_map_of_mem h))
theorem not_mem_cellsBad (hwf : s.slotsWf = true) {bad : List (Fin 16384)} {n : Fin 16384} (h : n ∉ bad)
    (hbad : (s.slot n.val).bad = false) : n.val ∉ s.cellsBad bad := by
  rw [State.cellsBad, List.mem_eraseDups, List.mem_append, not_or]
  constructor
  · intro hmem
    obtain ⟨m, hm, heq⟩ := List.mem_map.1 hmem
    exact h (Fin.ext heq ▸ hm)
  · intro hmem
    obtain ⟨e, he, heq⟩ := List.mem_map.1 hmem
    obtain ⟨he, hb⟩ := List.mem_filter.1 he
    have hread : s.slot n.val = e.2 := heq ▸ (mget_of_mem hwf he).2
    simp [← hread, hbad] at hb

theorem exec_remaskComplete_of_remask (hrun : s.running = true) (h : s.keys.remask = true) (bad : List (Fin 16384)) :
    exec (.remaskComplete bad) s = .next (((s.cellsBad bad).foldl State.cellFails s).modKeys (fun k => { k with remask := false })) :=
  (whenRun_of_running hrun _).trans (congrArg _ (if_pos h))

end Cells

/-- Settles O28: marks and commits on their way become durable, the oldest first; reloaded slots serve, and failed cells wait. -/
theorem keyStoreBecomesDurable : Obligations.KeyStoreBecomesDurable := by
  unfold Obligations.KeyStoreBecomesDurable
  refine ⟨?mark, ?noMark, ?commit, ?noCommit, ?reload, ?remask, ?noRemask⟩
  case mark =>
    intro s n m rest hrun hp hm
    have hslot := slot_markDurable hp hm
    have hrest := (MarksOnly.markDurable s n.val).rest
    refine ⟨s.markDurable n.val, whenRun_of_running hrun _, congrArg KSlot.mark hslot, congrArg KSlot.markPend hslot,
      (congrArg KSlot.secret hslot :), (congrArg KSlot.ctr hslot :), fun hstate hsecret => ?_,
      (congrArg State.hbm hrest :), (congrArg State.cfg hrest :), (congrArg State.backup hrest :)⟩
    exact congrArg KSlot.mark (nv_markDurable hp hm hstate hsecret)
  case noMark =>
    exact fun s n hrun hp => (whenRun_of_running hrun _).trans (congrArg _ (markDurable_of_nil hp))
  case commit =>
    intro s c rest hrun hwf hnv hc hnodup
    have hmarks := MarksOnly.allMarks s
    have hcommits : s.allMarks.keys.commits.map KCommit.unmarked = (c :: rest).map KCommit.unmarked :=
      hc ▸ congrArg (fun t : State => t.keys.commits) hmarks.rest
    obtain ⟨d, ds, hd, hcd, hds⟩ := List.map_eq_cons_iff.1 hcommits
    obtain ⟨hkeys, hsets⟩ := KCommit.sets_of_unmarked hcd
    obtain ⟨hcounter, hbackup, hhbm, hcfg⟩ := durableOne_rest hd
    have hdc : d.counter = c.counter := (congrArg KCommit.counter hcd :)
    rw [hdc] at hcounter hbackup
    refine ⟨_, exec_nvCommitDurable_of_cons hrun hc, ?_, fun e he => ?_, fun n => ?_, ?_, fun v hv => ?_, fun hv => ?_,
      hhbm.trans (congrArg State.hbm hmarks.rest :), hcfg.trans (congrArg State.cfg hmarks.rest :)⟩
    · exact KCommit.map_of_unmarked ((commits_durableOne hd).trans hds)
    · obtain ⟨f, hf, heq, hfe⟩ := hsets e he
      have hkey := (nv_durableOne hd (hmarks.nv hnv) (hkeys ▸ hnodup) hf).trans hfe
      rw [heq] at hkey
      obtain ⟨hsecret, hstate, -, howner⟩ := KSlot.eq_of_unmarked hkey
      exact ⟨hstate, hsecret, howner⟩
    · obtain ⟨hpend, hkey⟩ := slot_allMarks_durableOne hwf hd n
      obtain ⟨hsecret, hstate, hctr, -⟩ := KSlot.eq_of_unmarked hkey
      exact ⟨hpend, hsecret, hstate, hctr⟩
    · cases rest <;> rfl
    · rw [hv] at hcounter hbackup
      exact ⟨hcounter, congrArg (fun b : Backup => b.now.ctrMirror) hbackup⟩
    · rw [hv] at hcounter hbackup
      exact ⟨hcounter.trans (congrArg (fun t : State => t.keys.nvCounter) hmarks.rest :),
        hbackup.trans (congrArg State.backup hmarks.rest :)⟩
  case noCommit =>
    intro s hrun hc
    refine (whenRun_of_running hrun _).trans (congrArg _ ?_)
    simp only [hc]
  case reload => exact fun s n hrun => whenRun_of_running hrun _
  case remask =>
    intro s bad hrun hremask hwf
    have hrest := (EnginesOnly.foldl EnginesOnly.cellFails (s.cellsBad bad) s).rest
    have hslot (j : Nat) := slot_foldl_cellFails (s.cellsBad bad) hwf j
    refine ⟨_, exec_remaskComplete_of_remask hrun hremask bad, rfl, (congrArg (fun t : State => t.keys.nv) hrest :),
      (congrArg State.hbm hrest :), (congrArg State.cfg hrest :), fun n hn h0 => ⟨?_, report_foldl_cellFails hwf (mem_cellsBad hn) h0⟩,
      fun n hn hb => (hslot n).trans (if_neg fun h => not_mem_cellsBad hwf hn hb h.1)⟩
    exact congrArg KSlot.reload ((hslot n).trans (if_pos ⟨mem_cellsBad hn, h0⟩))
  case noRemask =>
    exact fun s bad hrun h => (whenRun_of_running hrun _).trans (congrArg _ (if_neg (by rw [h]; exact Bool.false_ne_true)))

end Sys2Proof.Machine
end

section
/-! The associative match units: lookups, edit passes, the scrubber and probes (R243–R263). -/

namespace Sys2Proof.Machine

/-! ## The lowest listed entry that passes a test -/

section Lowest

variable {α : Type} [DecidableEq α] {d : Nat → α} {m : SMap α} {lo : Nat} {q : Nat × α → Bool}

/-- Of a canonical map the first entry that passes `q` is the lowest key that does, where no default passes. -/
theorem find?_eq_some_iff_lowest (h : mwfFrom d lo m = true) (hq : ∀ k, q (k, d k) = false) (a : Nat) :
    (m.find? q).map (·.1) = some a ↔ q (a, mget d m a) = true ∧ ∀ b < a, ¬ q (b, mget d m b) = true := by
  induction m generalizing lo with
  | nil => simp [hq]
  | cons e m ih =>
    obtain ⟨k, v⟩ := e
    obtain ⟨-, -, hm⟩ := mwfFrom_cons.1 h
    have hself : mget d ((k, v) :: m) k = v := by simp [mget]
    have hbelow {b : Nat} (hb : b < k) : q (b, mget d ((k, v) :: m) b) = false := by simp [mget, hb.ne, hb, hq]
    rw [List.find?_cons]
    cases hv : q (k, v) with
    | true =>
      refine ⟨fun hk => ?_, fun ⟨ha, hlow⟩ => ?_⟩
      · obtain rfl : k = a := Option.some.inj hk
        exact ⟨by rw [hself, hv], fun b hb => by simp [hbelow hb]⟩
      · rcases Nat.lt_trichotomy a k with hlt | rfl | hgt
        · simp [hbelow hlt] at ha
        · rfl
        · exact absurd (by rw [hself, hv]) (hlow k hgt)
    | false =>
      have hrest (b : Nat) : q (b, mget d ((k, v) :: m) b) = q (b, mget d m b) := by
        rcases Nat.lt_trichotomy b k with hlt | rfl | hgt
        · rw [hbelow hlt, mget_below hm (by omega), hq]
        · rw [hself, mget_below hm (by omega), hv, hq]
        · simp [mget, hgt.ne', hgt.not_gt]
      simp only [hrest]
      exact ih hm

/-- A canonical map has no entry that passes `q` where no key passes. -/
theorem find?_eq_none_iff_forall (h : mwfFrom d lo m = true) (hq : ∀ k, q (k, d k) = false) :
    (m.find? q).map (·.1) = none ↔ ∀ a, ¬ q (a, mget d m a) = true := by
  rw [Option.eq_none_iff_forall_ne_some]
  refine ⟨fun hnone a ha => ?_, fun hno a ha => hno a ((find?_eq_some_iff_lowest h hq a).1 ha).1⟩
  have hex : ∃ b, q (b, mget d m b) = true := ⟨a, ha⟩
  exact hnone (Nat.find hex) ((find?_eq_some_iff_lowest h hq _).2 ⟨Nat.find_spec hex, fun _ => Nat.find_min hex⟩)

end Lowest

/-! ## Matching (R244) -/

theorem hits_iff (e : AmuEntry) (tag : BitVec 16) (key : BitVec 128) :
    e.hits tag key = true ↔ e.tag = tag ∧ tag ≠ 0 ∧ (key ^^^ e.key) &&& e.mask = 0 := by
  simp [AmuEntry.hits, and_assoc]

/-- An empty entry matches under no tag: its own is zero. -/
theorem hits_empty (tag : BitVec 16) (key : BitVec 128) : AmuEntry.empty.hits tag key = false :=
  Bool.eq_false_iff.2 fun h => let ⟨htag, hne, _⟩ := (hits_iff ..).1 h; hne htag.symm

/-- What a lookup asks of an address: that it is below COUNT, and that its entry matches. -/
def Amu.hitAt (x : Amu) (tag : BitVec 16) (key : BitVec 128) (e : Nat × AmuEntry) : Bool :=
  decide (e.1 < x.count) && e.2.hits tag key

theorem hitAt_iff (x : Amu) (tag : BitVec 16) (key : BitVec 128) (a : Nat) (e : AmuEntry) :
    x.hitAt tag key (a, e) = true ↔ a < x.count ∧ e.tag = tag ∧ tag ≠ 0 ∧ (key ^^^ e.key) &&& e.mask = 0 := by
  simp [Amu.hitAt, hits_iff]

theorem match?_eq (x : Amu) (tag : BitVec 16) (key : BitVec 128) :
    x.match? tag key = (x.table.find? (x.hitAt tag key)).map (·.1) := rfl

theorem answer_of_some {x : Amu} {tag : BitVec 16} {key : BitVec 128} {a : Nat} (h : x.match? tag key = some a) :
    x.answer tag key = BitVec.ofNat 32 (2 ^ 31 + a) := by
  simp only [Amu.answer, h]

theorem answer_of_none {x : Amu} {tag : BitVec 16} {key : BitVec 128} (h : x.match? tag key = none) :
    x.answer tag key = 0#32 := by
  simp only [Amu.answer, h]
  rfl

/-- Settles O18: the table is sorted by address and holds no empty entry, so the first that matches is the lowest. -/
theorem lookupFindsLowestMatch : Obligations.LookupFindsLowestMatch := by
  unfold Obligations.LookupFindsLowestMatch
  intro x tag key hwf e hit
  have hempty (t : BitVec 16) (a : Nat) : x.hitAt t key (a, AmuEntry.empty) = false := by simp [Amu.hitAt, hits_empty]
  have hhit (a : Nat) : x.hitAt tag key (a, e a) = true ↔ hit a := hitAt_iff x tag key a (e a)
  refine ⟨fun a => ?_, ?_, fun a => answer_of_some, answer_of_none, ?zero⟩
  · exact (find?_eq_some_iff_lowest hwf (hempty tag) a).trans (and_congr (hhit a) (forall₂_congr fun b _ => not_congr (hhit b)))
  · exact (find?_eq_none_iff_forall hwf (hempty tag)).trans (forall_congr' fun a => not_congr (hhit a))
  case zero => exact (find?_eq_none_iff_forall hwf (hempty 0)).2 fun a h => ((hitAt_iff ..).1 h).2.2.1 rfl

/-! ## Sparse maps in parts -/

section Parts

variable {α : Type} [DecidableEq α] {d : Nat → α} {m n : SMap α} {lo k : Nat}

/-- A canonical map lists its keys in rising order, none with its default. -/
theorem mwfFrom_iff : mwfFrom d lo m = true ↔ m.Pairwise (fun x y => x.1 < y.1) ∧ ∀ e ∈ m, lo ≤ e.1 ∧ e.2 ≠ d e.1 := by
  induction m generalizing lo with
  | nil => simp
  | cons e m ih =>
    obtain ⟨a, v⟩ := e
    rw [mwfFrom_cons, ih, List.pairwise_cons, List.forall_mem_cons]
    constructor
    · intro ⟨hlo, hv, hp, hm⟩
      exact ⟨⟨fun e he => (hm e he).1, hp⟩, ⟨hlo, hv⟩, fun e he => ⟨(Nat.le_succ_of_le hlo).trans (hm e he).1, (hm e he).2⟩⟩
    · exact fun ⟨⟨ha, hp⟩, ⟨hlo, hv⟩, hm⟩ => ⟨hlo, hv, hp, fun e he => ⟨ha e he, (hm e he).2⟩⟩

theorem mwf_iff : mwf d m = true ↔ m.Pairwise (fun x y => x.1 < y.1) ∧ ∀ e ∈ m, e.2 ≠ d e.1 := by
  simp [mwf, mwfFrom_iff]

omit [DecidableEq α] in
/-- What does not read as its default is listed. -/
theorem mem_of_mget_ne (h : mget d m k ≠ d k) : (k, mget d m k) ∈ m := by
  induction m with
  | nil => exact absurd rfl h
  | cons e m ih =>
    obtain ⟨a, v⟩ := e
    simp only [mget] at h ⊢
    split_ifs at h ⊢ with heq hlt
    · simp [heq]
    · exact absurd rfl h
    · exact List.mem_cons_of_mem _ (ih h)

omit [DecidableEq α] in
/-- Dropping a key's entries leaves its default, in whatever order the map stands. -/
theorem mget_filter_ne (d : Nat → α) (m : SMap α) (k : Nat) : mget d (m.filter (fun e => e.1 != k)) k = d k := by
  induction m with
  | nil => rfl
  | cons e m ih =>
    obtain ⟨a, v⟩ := e
    rw [List.filter_cons]
    split
    case isTrue hne => simp [mget, (bne_iff_ne.1 hne).symm, ih]
    case isFalse => exact ih

omit [DecidableEq α] in
/-- A sorted list is its part below a key and its part from there on. -/
theorem filter_below_append_from (h : m.Pairwise (fun x y => x.1 < y.1)) (p : Nat) :
    m.filter (fun e => decide (e.1 < p)) ++ m.filter (fun e => decide (p ≤ e.1)) = m := by
  induction m with
  | nil => rfl
  | cons e m ih =>
    obtain ⟨hlt, hm⟩ := List.pairwise_cons.1 h
    by_cases hp : e.1 < p
    · simp [hp, hp.not_ge, ih hm]
    · have hfrom (x) (hx : x ∈ m) : p ≤ x.1 := by have := hlt x hx; omega
      have hnil : m.filter (fun e => decide (e.1 < p)) = [] :=
        List.filter_eq_nil_iff.2 fun x hx => by simpa using hfrom x hx
      have hall : m.filter (fun e => decide (p ≤ e.1)) = m := List.filter_eq_self.2 fun x hx => by simpa using hfrom x hx
      simp [hp, Nat.le_of_not_lt hp, hnil, hall]

theorem mget_filter_below (h : mwf d m = true) (p k : Nat) :
    mget d (m.filter (fun e => decide (e.1 < p))) k = if k < p then mget d m k else d k := by
  have hlisted : m.filter (fun e => decide (e.1 < p)) = m.filter (fun e => decide (e.1 < p) && decide (e.2 ≠ d e.1)) :=
    List.filter_congr fun e he => by simp [(mwf_iff.1 h).2 e he]
  rw [hlisted, mget_filter (d' := d) h _ k (by simp)]
  by_cases hd : mget d m k = d k <;> simp [hd]

/-- Two canonical maps that agree below a key have the same part below it. -/
theorem filter_below_congr (hm : mwf d m = true) (hn : mwf d n = true) {p : Nat} (h : ∀ k < p, mget d m k = mget d n k) :
    m.filter (fun e => decide (e.1 < p)) = n.filter (fun e => decide (e.1 < p)) := by
  refine mget_ext (mwf_filter _ hm) (mwf_filter _ hn) fun k => ?_
  rw [mget_filter_below hm, mget_filter_below hn]
  exact ite_congr rfl (h k) fun _ => rfl

end Parts

/-! ## Edits (R252, R253) -/

/-- Entries of a canonical table in three parts, of which the middle one moves to other addresses, in order. -/
theorem mwf_moved {m : SMap AmuEntry} (h : mwf (fun _ => AmuEntry.empty) m = true) {p q r : Nat → Bool} {f : Nat → Nat}
    (hpq : ∀ j k, p j = true → q k = true → j < f k) (hq : ∀ j k, q j = true → q k = true → j < k → f j < f k)
    (hpr : ∀ j k, p j = true → r k = true → j < k) (hqr : ∀ j k, q j = true → r k = true → f j < k) :
    mwf (fun _ => AmuEntry.empty) (m.filter (fun x => p x.1) ++ (m.filter (fun x => q x.1)).map (fun x => (f x.1, x.2)) ++
      m.filter (fun x => r x.1)) = true := by
  obtain ⟨hsorted, hlisted⟩ := mwf_iff.1 h
  refine mwf_iff.2 ⟨?_, ?_⟩
  · simp only [List.pairwise_append, List.pairwise_map, List.mem_append, List.mem_map, List.mem_filter]
    refine ⟨⟨hsorted.filter _, ?_, ?_⟩, hsorted.filter _, ?_⟩
    · exact (hsorted.filter _).imp_of_mem fun ha hb hlt => hq _ _ (List.mem_filter.1 ha).2 (List.mem_filter.1 hb).2 hlt
    · rintro x ⟨-, hx⟩ _ ⟨y, ⟨-, hy⟩, rfl⟩
      exact hpq _ _ hx hy
    · rintro _ (⟨-, hx⟩ | ⟨x, ⟨-, hx⟩, rfl⟩) y ⟨-, hy⟩
      · exact hpr _ _ hx hy
      · exact hqr _ _ hx hy
  · simp only [List.mem_append, List.mem_map, List.mem_filter]
    rintro _ ((⟨hx, -⟩ | ⟨x, ⟨hx, -⟩, rfl⟩) | ⟨hx, -⟩)
    · exact hlisted _ hx
    · exact hlisted x hx
    · exact hlisted _ hx

/-- An edit keeps the table in canonical form. -/
theorem mwf_apply (e : Edit) (t : SMap AmuEntry × Nat) (h : mwf (fun _ => AmuEntry.empty) t.1 = true) :
    mwf (fun _ => AmuEntry.empty) (e.apply t).1 = true := by
  unfold Edit.apply
  dsimp only
  split
  case h_1 =>
    refine mwf_mput (mwf_moved h (p := fun k => decide (k < min e.addr t.2))
      (q := fun k => decide (min e.addr t.2 ≤ k) && decide (k < t.2)) (r := fun k => decide (t.2 < k)) (f := (· + 1)) ?_ ?_ ?_ ?_)
    all_goals
      simp only [Bool.and_eq_true, decide_eq_true_eq]
      omega
  case h_2 =>
    split
    · exact h
    · refine mwf_moved h (p := fun k => decide (k < e.addr))
        (q := fun k => decide (e.addr < k) && decide (k < t.2)) (r := fun k => decide (t.2 ≤ k)) (f := (· - 1)) ?_ ?_ ?_ ?_
      all_goals
        simp only [Bool.and_eq_true, decide_eq_true_eq]
        omega
  case h_3 =>
    split
    · exact h
    · exact mwf_mput h
  case h_4 => exact h

theorem mwf_foldl_apply (es : List Edit) (t : SMap AmuEntry × Nat) (h : mwf (fun _ => AmuEntry.empty) t.1 = true) :
    mwf (fun _ => AmuEntry.empty) (es.foldl (fun x e => e.apply x) t).1 = true := by
  induction es generalizing t with
  | nil => exact h
  | cons e es ih => exact ih _ (mwf_apply e t h)

/-! ## The first address that differs (R254) -/

/-- The number kept so far, or `a` where that is lower, or the first, and fails the test. -/
def keepLowest (q : Nat → Prop) [DecidablePred q] (b : Option Nat) (a : Nat) : Option Nat :=
  if q a then b else match b with | none => some a | some c => some (min a c)

theorem keepLowest_le_kept {q : Nat → Prop} [DecidablePred q] (a : Nat) {c k : Nat} (h : c ≤ k) :
    ∃ x ∈ keepLowest q (some c) a, x ≤ k := by
  unfold keepLowest
  split
  · exact ⟨c, rfl, h⟩
  · exact ⟨min a c, rfl, by omega⟩

theorem keepLowest_le_new {q : Nat → Prop} [DecidablePred q] (b : Option Nat) {a k : Nat} (hq : ¬ q a) (h : a ≤ k) :
    ∃ x ∈ keepLowest q b a, x ≤ k := by
  unfold keepLowest
  rw [if_neg hq]
  cases b with
  | none => exact ⟨a, rfl, h⟩
  | some c => exact ⟨min a c, rfl, by omega⟩

/-- The number kept of a list is at most each of its numbers that fails the test. -/
theorem foldl_keepLowest_le {q : Nat → Prop} [DecidablePred q] (l : List Nat) (b : Option Nat) {k : Nat}
    (h : (∃ c ∈ b, c ≤ k) ∨ ∃ a ∈ l, ¬ q a ∧ a ≤ k) : ∃ c ∈ l.foldl (keepLowest q) b, c ≤ k := by
  induction l generalizing b with
  | nil => simpa using h
  | cons a l ih =>
    refine ih _ ?_
    rcases h with ⟨c, rfl, hc⟩ | ⟨x, hx, hq, hle⟩
    · exact .inl (keepLowest_le_kept a hc)
    · rcases List.mem_cons.1 hx with rfl | hx
      · exact .inl (keepLowest_le_new b hq hle)
      · exact .inr ⟨x, hx, hq, hle⟩

theorem firstDiff_eq (m n : SMap AmuEntry) : firstDiff m n = (m.map (·.1) ++ n.map (·.1)).foldl
    (keepLowest fun a => mget (fun _ => AmuEntry.empty) m a = mget (fun _ => AmuEntry.empty) n a) none := rfl

/-- Two tables agree below the first address at which they differ. -/
theorem mget_eq_of_firstDiff {m n : SMap AmuEntry} {a : Nat} (h : ∀ c ∈ firstDiff m n, a < c) :
    mget (fun _ => AmuEntry.empty) m a = mget (fun _ => AmuEntry.empty) n a := by
  by_contra hne
  have hlisted : a ∈ m.map (·.1) ++ n.map (·.1) := by
    by_cases hm : mget (fun _ => AmuEntry.empty) m a = AmuEntry.empty
    · have hn : mget (fun _ => AmuEntry.empty) n a ≠ AmuEntry.empty := fun hn => hne (hm.trans hn.symm)
      exact List.mem_append_right _ (List.mem_map_of_mem (mem_of_mget_ne hn))
    · exact List.mem_append_left _ (List.mem_map_of_mem (mem_of_mget_ne hm))
  rw [firstDiff_eq] at h
  obtain ⟨c, hc, hle⟩ := foldl_keepLowest_le (q := fun a => mget (fun _ => AmuEntry.empty) m a = mget (fun _ => AmuEntry.empty) n a)
    _ none (.inr ⟨a, hlisted, hne, le_rfl⟩)
  exact absurd (h c hc) hle.not_gt

/-- The table and COUNT that a pass of `es` leaves: as they were when the list does not fit (R253). -/
def Amu.edited (x : Amu) (es : List Edit) : SMap AmuEntry × Nat :=
  if editsFull es x.count then (x.table, x.count) else es.foldl (fun t e => e.apply t) (x.table, x.count)

/-- The lowest address that the pass writes (R254). -/
def Amu.editedFrom (x : Amu) (es : List Edit) : Nat :=
  let hi := max x.count (x.edited es).2
  match firstDiff x.table (x.edited es).1 with | some a => min a hi | none => hi

theorem mwf_edited {x : Amu} (h : mwf (fun _ => AmuEntry.empty) x.table = true) (es : List Edit) :
    mwf (fun _ => AmuEntry.empty) (x.edited es).1 = true := by
  unfold Amu.edited
  split
  · exact h
  · exact mwf_foldl_apply es _ h

/-- The sweep leaves every entry as the edits say: those below its first address stood so already. -/
theorem swept_eq_edited {x : Amu} (h : mwf (fun _ => AmuEntry.empty) x.table = true) (es : List Edit) :
    x.table.filter (fun e => decide (e.1 < x.editedFrom es)) ++
      (x.edited es).1.filter (fun e => decide (x.editedFrom es ≤ e.1)) = (x.edited es).1 := by
  have hagree (k : Nat) (hk : k < x.editedFrom es) :
      mget (fun _ => AmuEntry.empty) x.table k = mget (fun _ => AmuEntry.empty) (x.edited es).1 k := by
    refine mget_eq_of_firstDiff fun c hc => ?_
    have hfrom : x.editedFrom es ≤ c := by
      simp only [Amu.editedFrom, Option.mem_def.1 hc]
      exact Nat.min_le_left ..
    omega
  rw [filter_below_congr h (mwf_edited h es) hagree]
  exact filter_below_append_from (mwf_iff.1 (mwf_edited h es)).1 _

/-! ## A pass begins -/

section

variable {s : State}

/-- A unit reads back what was set, where that differs from its reset value, whatever the rest of the table holds. -/
theorem amu_setAmu_self (u : Nat) {x : Amu} (h : x ≠ Amu.init) : (s.setAmu u x).amu u = x := mget_mput_get u x h

/-- Reading the edits of a list draws free values at most (log entry 26). -/
theorem listEdits_only (s : State) (b : Bytes) : ∃ n, (s.listEdits b).2 = { s with free := n } := by
  unfold State.listEdits
  split
  · exact ⟨s.free, rfl⟩
  · exact ⟨_, rfl⟩

/-- Without upset cells a pass stores what its edits say, and does not stop (R252, R253). -/
theorem startPass_of_noUpsets {u : Nat} {l : EditList} (hup : (s.amu u).upsets = [])
    (hwf : mwf (fun _ => AmuEntry.empty) (s.amu u).table = true) : ∃ n y p0,
      s.startPass u l = ({ s with free := n } : State).setAmu u y ∧
      (y.table, y.count) = (s.amu u).edited (s.listEdits l.bytes).1 ∧
      y.pass = some ⟨l.job, editsFull (s.listEdits l.bytes).1 (s.amu u).count, p0, (s.amu u).count⟩ := by
  obtain ⟨n, hn⟩ := listEdits_only s l.bytes
  have hamu : ({ s with free := n } : State).amu u = s.amu u := rfl
  have hcorrected : (s.amu u).corrected = (s.amu u).table := by rw [Amu.corrected, hup, List.foldl_nil]
  have hswept := swept_eq_edited hwf (s.listEdits l.bytes).1
  unfold State.startPass
  simp only [hn, hamu, hcorrected, hup, List.any_nil, Bool.and_false, Bool.false_eq_true, if_false]
  refine ⟨n, _, _, rfl, ?_, rfl⟩
  exact congrArg (fun t => (t, ((s.amu u).edited (s.listEdits l.bytes).1).2)) hswept

theorem exec_editPass_of_list (hrun : s.running = true) {u : Fin 4} (hon : s.amuOn u.val = true) (hpass : (s.amu u.val).pass = none)
    {l : EditList} (hl : s.passList u.val = some l) : exec (.editPass u) s = .next ((s.startPass u.val l).setOffset 41728) := by
  refine (whenRun_of_running hrun _).trans ?_
  simp [hon, hpass, hl]

theorem exec_editPass_of_idle (hrun : s.running = true) {u : Fin 4}
    (h : s.amuOn u.val = false ∨ (s.amu u.val).pass ≠ none ∨ s.passList u.val = none) : exec (.editPass u) s = .next s := by
  refine (whenRun_of_running hrun _).trans (congrArg _ ?_)
  rcases h with hoff | hpass | hlist
  · simp [hoff]
  · simp [Option.isSome_iff_ne_none.2 hpass]
  · simp [hlist]

/-! ## A pass ends (R255, R260) -/

/-- The pass is over and its job's status, under an unchecked condition, is free (log entry 26); the shadow and the job's unit wait. -/
def State.passOver (s : State) (u : Nat) (p : AmuPass) : State :=
  let t := s.setAmu u { s.amu u with pass := none }
  match s.job? p.job with
  | some j => if editsBad j.param || descBad j.desc then t.anyStatus p.job else t
  | none => t

/-- The shadow takes the entries that a pass may have changed (R255). -/
def State.shadowWrites (s : State) (u : Nat) (l : List Nat) : State := l.foldl (fun s a => s.shadowWrite u a) s

/-- The addresses from p₀ on, below the greater of the two counts (R254). -/
def AmuPass.swept (p : AmuPass) (x : Amu) : List Nat := (upTo (max p.oldCount x.count)).drop p.p0

theorem endPass_of_full {u : Nat} {p : AmuPass} (hp : (s.amu u).pass = some p) (hfull : p.full = true) :
    s.endPass u = (s.passOver u p).setStatus p.job 0x26 := by
  simp only [State.endPass, hp, hfull, if_true]
  rfl

theorem endPass_of_fits {u : Nat} {p : AmuPass} (hp : (s.amu u).pass = some p) (hfull : p.full = false) :
    s.endPass u = ((s.passOver u p).shadowWrites u (p.swept (s.amu u))).editEnded p.job := by
  simp only [State.endPass, hp, hfull, Bool.false_eq_true, if_false]
  rfl

theorem exec_editPassEnd_of_none (hrun : s.running = true) {u : Fin 4} (h : (s.amu u.val).pass = none) :
    exec (.editPassEnd u) s = .next s := by
  refine (whenRun_of_running hrun _).trans (congrArg _ ?_)
  simp only [State.endPass, h]

theorem anyStatus_only (s : State) (id : Nat) : ∃ n js, s.anyStatus id = { s with free := n, adm := { s.adm with jobs := js } } := by
  unfold State.anyStatus
  dsimp only
  split
  · exact ⟨_, _, rfl⟩
  · exact ⟨_, _, rfl⟩

theorem passOver_only (s : State) (u : Nat) (p : AmuPass) : ∃ n js, s.passOver u p =
    { s.setAmu u { s.amu u with pass := none } with free := n, adm := { s.adm with jobs := js } } := by
  unfold State.passOver
  split
  · split
    · exact anyStatus_only ..
    · exact ⟨_, _, rfl⟩
  · exact ⟨_, _, rfl⟩

theorem passOver_of_checked {u : Nat} {p : AmuPass} {j : Job} (hj : s.job? p.job = some j) (he : editsBad j.param = false)
    (hd : descBad j.desc = false) : s.passOver u p = s.setAmu u { s.amu u with pass := none } := by
  simp [State.passOver, hj, he, hd]

/-- Writes of the shadow change HBM and the count of requests. -/
theorem shadowWrites_only (u : Nat) (l : List Nat) (s : State) : ∃ m n, s.shadowWrites u l =
    { s with hbm := m, hbmc := { s.hbmc with servedNow := n } } := by
  induction l generalizing s with
  | nil => exact ⟨s.hbm, s.hbmc.servedNow, rfl⟩
  | cons a l ih =>
    obtain ⟨m, n, e⟩ := hbmWrite_only s (s.shadowOf u a) (mget (fun _ => AmuEntry.empty) (s.amu u).table a).bytes
    obtain ⟨m', n', e'⟩ := ih (s.shadowWrite u a)
    exact ⟨m', n', e'.trans (by rw [State.shadowWrite, e])⟩

/-- What a write of the shadow reads: HBM with its fences, SHADOW.BASE, and the unit's table. -/
def State.shadowView (s : State) (u : Nat) := (s.hbm, s.hbmc.pcFenced, s.live, (s.amu u).table)

theorem shadowWrite_congr {t : State} {u : Nat} (h : t.shadowView u = s.shadowView u) (a : Nat) :
    (t.shadowWrite u a).shadowView u = (s.shadowWrite u a).shadowView u := by
  simp only [State.shadowView, Prod.mk.injEq] at h
  obtain ⟨hhbm, hfence, hlive, htable⟩ := h
  have haddr : t.shadowOf u a = s.shadowOf u a := by
    rw [State.shadowOf, State.shadowOf, State.liveN, State.liveN, State.liveW, State.liveW, hlive]
  rw [State.shadowWrite, State.shadowWrite, haddr, htable]
  generalize s.shadowOf u a = b
  generalize (mget (fun _ => AmuEntry.empty) (s.amu u).table a).bytes = c
  have hw : (t.hbmWrite b c).hbm = (s.hbmWrite b c).hbm := hbmPoke_congr (s := s.countReqs _) (t := t.countReqs _) hhbm hfence b c
  obtain ⟨m, n, e⟩ := hbmWrite_only t b c
  obtain ⟨m', n', e'⟩ := hbmWrite_only s b c
  rw [e, e'] at hw ⊢
  simp only [State.shadowView, Prod.mk.injEq]
  exact ⟨hw, hfence, hlive, htable⟩

theorem shadowWrites_congr {t : State} {u : Nat} (h : t.shadowView u = s.shadowView u) (l : List Nat) :
    (t.shadowWrites u l).hbm = (s.shadowWrites u l).hbm :=
  congrArg Prod.fst (List.foldl_rel (r := fun (t s : State) => t.shadowView u = s.shadowView u) h fun a _ _ _ h => shadowWrite_congr h a)

theorem shadowView_passOver {u : Nat} (h : mwf (fun _ => Amu.init) s.amus = true) (p : AmuPass) :
    (s.passOver u p).shadowView u = s.shadowView u := by
  obtain ⟨n, js, hover⟩ := passOver_only s u p
  have hunit : (s.setAmu u { s.amu u with pass := none }).amu u = { s.amu u with pass := none } := (amu_setAmu h ..).trans (if_pos rfl)
  refine (congrArg (State.shadowView · u) hover).trans ?_
  exact congrArg (fun l => (s.hbm, s.hbmc.pcFenced, s.live, l)) (congrArg Amu.table hunit :)

/-- The job's unit has ended in the row of SWN. -/
theorem job?_editEnded {id : Nat} {j : Job} (h : s.job? id = some j) : (s.editEnded id).job? id =
    some { j with pls := j.pls.map (fun q => if q.row = s.swnN then { q with done := [q.count] } else q) } := by
  rw [State.editEnded, job?_modJob, h, Option.map_some, if_pos (job?_id h)]
  exact fun _ => rfl

/-- Of the match units a pass's end changes its own, which has no pass any more. -/
theorem endPass_amus {u : Nat} {p : AmuPass} (hp : (s.amu u).pass = some p) :
    (s.endPass u).amus = (s.setAmu u { s.amu u with pass := none }).amus := by
  obtain ⟨n, js, hover⟩ := passOver_only s u p
  cases hfull : p.full with
  | true =>
    rw [endPass_of_full hp hfull, hover]
    rfl
  | false =>
    obtain ⟨m, k, hwrites⟩ := shadowWrites_only u (p.swept (s.amu u)) (s.passOver u p)
    rw [endPass_of_fits hp hfull, hwrites, hover]
    rfl

end

/-- Settles O17: the edits keep the table sorted, so the sweep stores what they say; at the end only the shadow and the job change. -/
theorem editPassAppliesItsList : Obligations.EditPassAppliesItsList := by
  unfold Obligations.EditPassAppliesItsList
  refine ⟨?pass, fun s u hrun h => exec_editPass_of_idle hrun h, ?ends, fun s u hrun h => exec_editPassEnd_of_none hrun h⟩
  case pass =>
    intro s u l hrun hon hpass hup hwf hl
    obtain ⟨n, y, p0, hstart, hedited, hy⟩ := startPass_of_noUpsets (l := l) hup hwf
    have hself : ((s.startPass u.val l).setOffset 41728).amu u.val = y := by
      rw [hstart]
      exact amu_setAmu_self u.val fun h => by simp [h, Amu.init] at hy
    refine ⟨_, exec_editPass_of_list hrun hon hpass hl, rfl, ?_, ⟨_, by rw [hself, hy], rfl, rfl⟩, fun v hv htables => ?_, ?_⟩
    · rw [hself]
      exact hedited
    · obtain ⟨-, -, -, hamus, -⟩ := tablesWf_iff.1 htables
      rw [hstart]
      exact (amu_setAmu (s := { s with free := n }) hamus u.val v y).trans (if_neg hv)
    · rw [hstart]
      rfl
  case ends =>
    intro s u p hrun htables hp
    obtain ⟨-, -, -, hamus, -⟩ := tablesWf_iff.1 htables
    have hunit : (s.endPass u.val).amu u.val = { s.amu u.val with pass := none } :=
      (congrArg (mget (fun _ => Amu.init) · u.val) (endPass_amus hp)).trans (mget_mput_same hamus)
    refine ⟨_, whenRun_of_running hrun _, by rw [hunit], by rw [hunit], by rw [hunit], fun hfull => ?_, fun hfull => ?_⟩
    · rw [endPass_of_full hp hfull]
      refine ⟨?_, fun j hj hst he hd => ?_⟩
      · obtain ⟨n, js, hover⟩ := passOver_only s u.val p
        rw [hover]
        rfl
      · have hjob : (s.passOver u.val p).job? p.job = some j := by rwa [passOver_of_checked hj he hd]
        exact ⟨_, by rw [job?_setStatus, hjob]; rfl, by simp [hst]⟩
    · rw [endPass_of_fits hp hfull]
      refine ⟨?_, fun j hj he hd => ?_⟩
      · exact shadowWrites_congr (shadowView_passOver hamus p) _
      · obtain ⟨m, n, hwrites⟩ := shadowWrites_only u.val (p.swept (s.amu u.val)) (s.passOver u.val p)
        rw [hwrites, passOver_of_checked hj he hd]
        exact job?_editEnded hj

/-! ## The scrubber (R259–R262) -/

section

variable {s : State} {u : Nat}

/-- The unit with the scrubber at its next entry. -/
def Amu.scrubNext (x : Amu) : Amu := { x with scrubPos := (x.scrubPos + 1) % 65536 }
/-- The unit with the scrubber's entry read: its upset cells are whole again, and the scrubber has gone on. -/
def Amu.scrubbed (x : Amu) : Amu := { x.scrubNext with upsets := x.upsets.filter (fun e => e.1 != x.scrubPos) }
/-- The unit with the scrubber's entry rewritten as `e`. -/
def Amu.rewritten (x : Amu) (e : AmuEntry) : Amu :=
  { x.scrubbed with table := aput x.table x.scrubPos e, scrubFix := satInc 32 x.scrubFix }
/-- The entry that the scrubber reads. -/
def Amu.scrubHere (x : Amu) : AmuEntry := mget (fun _ => AmuEntry.empty) x.table x.scrubPos
/-- The unit after a scrub step that finds `e` in the shadow (R259). -/
def Amu.scrubbedAs (x : Amu) (e : AmuEntry) : Amu := if e = x.scrubHere then x.scrubbed else x.rewritten e
/-- What the shadow holds for the entry that the scrubber reads (R257, R259). -/
def State.scrubRead (s : State) (u : Nat) : AmuEntry := (entryOf (s.hbmPeek (s.shadowOf u (s.amu u).scrubPos) 64)).norm
/-- The scrubber's read counts as one request, and an entry that ECC cannot correct is reported (R30). -/
def State.scrubCounted (s : State) (u : Nat) : State :=
  if (s.amu u).multi (s.amu u).scrubPos then (s.countReqs 1).raise (177 + 4 * u) (unitCode 8 u) 0 0 else s.countReqs 1

theorem scrubStep_of_off (h : bit (s.liveN (0x500010 + 0x1000 * u)) 0 = false) : s.scrubStep u = s := by
  simp [State.scrubStep, h]

/-- While the scrubber is at work on a unit, its step hangs on the entry's channel and on what the shadow holds. -/
theorem scrubStep_eq (hon : s.amuOn u = true) (hscrub : bit (s.liveN (0x500010 + 0x1000 * u)) 0 = true)
    (hpass : (s.amu u).pass = none) : s.scrubStep u =
    if s.hbmc.pcFenced.getLsbD (pcOf (s.shadowOf u (s.amu u).scrubPos)) then s.setAmu u (s.amu u).scrubNext
    else if s.scrubRead u = (s.amu u).scrubHere then
      (s.scrubCounted u).setAmu u (s.amu u).scrubbed
    else ((s.scrubCounted u).setAmu u ((s.amu u).rewritten (s.scrubRead u))).raise (176 + 4 * u) (unitCode 8 u) 0 0 := by
  have hidle : (s.amu u).pass.isSome = false := Option.isSome_eq_false_iff.2 (Option.isNone_iff_eq_none.2 hpass)
  simp only [State.scrubStep, hon, hscrub, hidle, Bool.not_true, Bool.or_self, Bool.false_eq_true, if_false]
  rfl

theorem scrubCounted_only (s : State) (u : Nat) : ∃ n l, s.scrubCounted u =
    { s with hbmc := { s.hbmc with servedNow := n }, faults := { s.faults with reports := l } } := by
  unfold State.scrubCounted
  split
  · rcases raise_cases (s := s.countReqs 1) (177 + 4 * u) (unitCode 8 u) 0 0 with e | ⟨-, -, e⟩ <;> rw [e]
    · exact ⟨_, s.faults.reports, rfl⟩
    · exact ⟨_, _, rfl⟩
  · exact ⟨_, s.faults.reports, rfl⟩

/-- AMU_SCRUB fences nothing, so it is always reported. -/
theorem raise_amuScrub (s : State) (u : Fin 4) : ∃ f, s.raise (176 + 4 * u.val) (unitCode 8 u.val) 0 0 = { s with faults := f } ∧
    ∃ r ∈ f.reports, r.source = Fin.ofNat 512 (176 + 4 * u.val) := by
  have hkind : faultKind (176 + 4 * u.val) = some ⟨0, false, true, 0x01, 0⟩ := by
    revert u
    decide
  exact ⟨_, raise_open s hkind rfl _ _ _, _, List.mem_append_right _ (List.mem_singleton_self _), rfl⟩

/-- An entry whose channel is in service is read and, where it differs, rewritten and reported. -/
theorem scrubStep_of_inService {u : Fin 4} (hamus : mwf (fun _ => Amu.init) s.amus = true) (hon : s.amuOn u.val = true)
    (hscrub : bit (s.liveN (0x500010 + 0x1000 * u.val)) 0 = true) (hpass : (s.amu u.val).pass = none)
    (hf : s.hbmc.pcFenced.getLsbD (pcOf (s.shadowOf u.val (s.amu u.val).scrubPos)) = false) :
    (s.scrubStep u.val).amu u.val = (s.amu u.val).scrubbedAs (s.scrubRead u.val) ∧ (s.scrubStep u.val).hbm = s.hbm ∧
      (s.scrubRead u.val ≠ (s.amu u.val).scrubHere →
        ∃ r ∈ (s.scrubStep u.val).faults.reports, r.source = Fin.ofNat 512 (176 + 4 * u.val)) := by
  obtain ⟨n, l, hcounted⟩ := scrubCounted_only s u.val
  have hset (x : Amu) : (s.setAmu u.val x).amu u.val = x := (amu_setAmu hamus ..).trans (if_pos rfl)
  rw [scrubStep_eq hon hscrub hpass, if_neg (Bool.eq_false_iff.1 hf), hcounted, Amu.scrubbedAs]
  generalize s.scrubRead u.val = e
  by_cases he : e = (s.amu u.val).scrubHere
  · rw [if_pos he, if_pos he]
    exact ⟨hset _, rfl, fun hne => absurd he hne⟩
  · rw [if_neg he, if_neg he]
    obtain ⟨f, hraise, hreport⟩ := raise_amuScrub _ u
    rw [hraise]
    exact ⟨hset _, rfl, fun _ => hreport⟩

theorem scrubbedAs_of_agreeing {x : Amu} {e : AmuEntry} (h : e = x.scrubHere) : x.scrubbedAs e = x.scrubbed := if_pos h
theorem scrubbedAs_of_differing {x : Amu} {e : AmuEntry} (h : e ≠ x.scrubHere) : x.scrubbedAs e = x.rewritten e := if_neg h

theorem scrubPos_scrubbedAs (x : Amu) (e : AmuEntry) : (x.scrubbedAs e).scrubPos = (x.scrubPos + 1) % 65536 := by
  unfold Amu.scrubbedAs
  split <;> rfl
theorem count_scrubbedAs (x : Amu) (e : AmuEntry) : (x.scrubbedAs e).count = x.count := by
  unfold Amu.scrubbedAs
  split <;> rfl
theorem upsetAt_scrubbedAs (x : Amu) (e : AmuEntry) : (x.scrubbedAs e).upsetAt x.scrubPos = [] := by
  unfold Amu.scrubbedAs
  split <;> exact mget_filter_ne ..

theorem exec_amuScrubStep (hrun : s.running = true) (u : Fin 4) : exec (.amuScrubStep ⟨u, []⟩) s = .next (s.scrubStep u.val) := by
  refine (whenRun_of_running hrun _).trans (congrArg _ ?_)
  simp only [List.isEmpty_nil, Bool.true_or, if_true]

/-- With SCRUB off the command's upset cell alone is left of it (R261). -/
theorem exec_amuScrubStep_upset (hrun : s.running = true) {u : Fin 4} (hpass : (s.amu u.val).pass = none)
    (hscrub : bit (s.liveN (0x500010 + 0x1000 * u.val)) 0 = false) (a : Fin 65536) (b : Fin 272) :
    exec (.amuScrubStep ⟨u, [(a, b)]⟩) s = .next (s.modAmu u.val (fun x => x.upset a.val b.val)) := by
  refine (whenRun_of_running hrun _).trans (congrArg _ ?_)
  simp [scrubStep_of_off hscrub, hpass]

/-! ## Probes (R256) -/

/-- The unit with its probe answered. -/
def Amu.probed (x : Amu) (key : BitVec 128) (tag : BitVec 16) : Amu :=
  { x with probe := none, probeDone := true, probeHit := (x.match? tag key).isSome, probeAddr := (x.match? tag key).getD 0 }

theorem exec_probeAnswer_of_probe (hrun : s.running = true) {u : Fin 4} (hon : s.amuOn u.val = true) (hpass : (s.amu u.val).pass = none)
    {key : BitVec 128} {tag : BitVec 16} (hprobe : (s.amu u.val).probe = some (key, tag)) :
    exec (.probeAnswer u) s = .next (s.setAmu u.val ((s.amu u.val).probed key tag)) := by
  refine (whenRun_of_running hrun _).trans (congrArg _ ?_)
  simp only [hon, State.modAmu, Amu.probed, hprobe, hpass, Bool.not_true, Bool.false_eq_true, if_false]

/-- Setting what a unit holds changes nothing. -/
theorem setAmu_amu (h : mwf (fun _ => Amu.init) s.amus = true) (u : Nat) : s.setAmu u (s.amu u) = s := by
  have hamus : mput (fun _ => Amu.init) s.amus u (s.amu u) = s.amus := by
    refine mget_ext (mwf_mput h) h fun k => ?_
    rw [mget_mput h, ite_eq_right_iff]
    rintro rfl
    rfl
  rw [State.setAmu, hamus]

theorem exec_probeAnswer_of_waiting (hrun : s.running = true) (h : mwf (fun _ => Amu.init) s.amus = true) {u : Fin 4}
    (hw : s.amuOn u.val = false ∨ (s.amu u.val).pass ≠ none) : exec (.probeAnswer u) s = .next s := by
  refine (whenRun_of_running hrun _).trans (congrArg _ ?_)
  cases hon : s.amuOn u.val with
  | false => rfl
  | true =>
    have hpass : (s.amu u.val).pass ≠ none := hw.resolve_left (by simp [hon])
    simp only [State.modAmu, Bool.not_true, Bool.false_eq_true, if_false]
    split
    · exact absurd ‹_› hpass
    · exact setAmu_amu h u.val

end

/-- Settles O19: an entry that agrees keeps the table, one that differs takes the shadow's value; a probe is a lookup. -/
theorem scrubAndProbe : Obligations.ScrubAndProbe := by
  unfold Obligations.ScrubAndProbe
  refine ⟨?fenced, ?entry, fun s u a b hrun hpass hscrub => exec_amuScrubStep_upset hrun hpass hscrub a b, ?tag, ?answer, ?waits⟩
  case fenced =>
    intro s u hrun hon hscrub hpass hf
    rw [exec_amuScrubStep hrun, scrubStep_eq hon hscrub hpass, if_pos hf]
    rfl
  case entry =>
    intro s u hrun htables hon hscrub hpass hf e here
    obtain ⟨-, -, -, hamus, -⟩ := tablesWf_iff.1 htables
    have hread : s.scrubRead u.val = e := rfl
    obtain ⟨hset, hhbm, hreport⟩ := scrubStep_of_inService hamus hon hscrub hpass hf
    rw [hread] at hset hreport
    clear_value e -- nothing below looks into the bytes that were read
    refine ⟨_, exec_amuScrubStep hrun u, ?_⟩
    beta_reduce
    rw [hset]
    refine ⟨scrubPos_scrubbedAs .., upsetAt_scrubbedAs .., count_scrubbedAs .., fun h => ?_, fun h => ?_, hhbm⟩
    · rw [scrubbedAs_of_agreeing h]
      exact ⟨rfl, rfl⟩
    · rw [scrubbedAs_of_differing h]
      exact ⟨rfl, rfl, hreport h⟩
  case tag =>
    intro s u tag hrun
    have hself := amu_setAmu_self (s := s.setCfg (0x500110 + 0x1000 * u.val) (tag.setWidth 32)) u.val
      (x := { s.amu u.val with probe := some (s.probeKey u.val, tag), probeDone := false }) fun h => by simp [Amu.init] at h
    exact ⟨_, whenRun_of_running hrun _, congrArg Amu.probe hself, congrArg Amu.probeDone hself,
      (congrArg Amu.table hself :)⟩
  case answer =>
    intro s u key tag hrun hon hpass hprobe
    have hself := amu_setAmu_self (s := s) u.val (x := (s.amu u.val).probed key tag) fun h => by
      simp [Amu.probed, Amu.init] at h
    exact ⟨_, exec_probeAnswer_of_probe hrun hon hpass hprobe, congrArg Amu.probeDone hself, congrArg Amu.probe hself,
      congrArg Amu.probeHit hself, congrArg Amu.probeAddr hself, (congrArg Amu.table hself :)⟩
  case waits =>
    intro s u hrun htables hw
    obtain ⟨-, -, -, hamus, -⟩ := tablesWf_iff.1 htables
    exact exec_probeAnswer_of_waiting hrun hamus hw

end Sys2Proof.Machine
end

section
/-! The seedbank's allotment: what a reseed does to a stream, and what a row takes out of the queue (R266, R331). -/

namespace Sys2Proof.Machine

section

variable {s : State}

/-! ## Reseeds (R266) -/

/-- A value that the map lists reads back and leaves every other key as it was, in canonical form or not. -/
theorem mget_mput_of_ne_default {α : Type} [DecidableEq α] {d : Nat → α} {m : SMap α} {k j : Nat} {v : α} (hv : v ≠ d k) :
    mget d (mput d m k v) j = if j = k then v else mget d m j := by
  rw [mput, if_neg hv, mget_mins]

/-- The stream after its reseed with 48 bytes. -/
def Stream.reseed (x : Stream) (seed : Bytes) : Stream := { x.update seed with running := true, due := none }

/-- A reseeded stream is running, so that its table lists it. -/
theorem reseed_ne_init (x : Stream) (seed : Bytes) : x.reseed seed ≠ Stream.init := fun h =>
  Bool.noConfusion (congrArg Stream.running h : true = false)

theorem stream_reseeded (k j : Nat) (seed : Bytes) :
    (s.reseeded k seed).stream j = if j = k then (s.stream k).reseed seed else s.stream j :=
  mget_mput_of_ne_default (d := fun _ => Stream.init) (reseed_ne_init (s.stream k) seed)
theorem stream_reseeded_self (k : Nat) (seed : Bytes) : (s.reseeded k seed).stream k = (s.stream k).reseed seed :=
  (stream_reseeded k k seed).trans (if_pos rfl)

/-! ## The row's bytes (R331) -/

/-- The seedbank with the bytes that row SWN reserves moved from the queue to the allotment. -/
def State.setAside (s : State) : State := s.modSeed (fun b => { b with
  allot := b.allot ++ b.queue.take (s.rowCnt s.swnN 27), queue := b.queue.drop (s.rowCnt s.swnN 27) })

/-- The reseed that a row brings, served from the allotment or due from now on. -/
def State.rowReseed (s : State) (row : Nat) : State :=
  if row % 1024 > 48 then s else
    match s.takeAllot 48 with
    | some (x, s) => s.reseeded (row % 1024) x
    | none => s.setStream (row % 1024)
        { s.stream (row % 1024) with due := some ((s.stream (row % 1024)).due.getD row) }

theorem retryReseeds_of_none (hdue : ∀ k, k < 49 → (s.stream k).due = none) (want : Nat) : s.retryReseeds want = s := by
  refine List.foldlRecOn (motive := (· = s)) _ _ rfl fun t ht k hk => ?_
  rw [ht, hdue k (mem_upTo.1 hk)]

theorem takeAllot_of_le {n : Nat} (h : n ≤ s.seed.allot.length) : s.takeAllot n = some (s.seed.allot.take n,
    s.modSeed (fun b => { b with allot := b.allot.drop n, delivered := b.delivered + BitVec.ofNat 64 n })) :=
  if_neg (Nat.not_lt.2 h)

/-- A row's reseed is the seedbank's own. -/
theorem rowReseed_only (s : State) (row : Nat) : ∃ b, s.rowReseed row = { s with seed := b } := by
  unfold State.rowReseed
  split
  · exact ⟨s.seed, rfl⟩
  · by_cases h : 48 ≤ s.seed.allot.length
    · rw [takeAllot_of_le h]
      exact ⟨_, rfl⟩
    · rw [State.takeAllot, if_pos (Nat.not_le.1 h)]
      exact ⟨_, rfl⟩

/-- A running seedbank with nothing overdue, in a row that places no unit, moves the row's bytes and serves the row's reseed. -/
theorem allotment_eq (hphase : s.seed.phase = 2) (hdue : ∀ k, k < 49 → (s.stream k).due = none)
    (hrow : s.rowPlacements s.swnN = []) : s.allotment = s.setAside.rowReseed s.swnN := by
  obtain ⟨b, hb⟩ := rowReseed_only s.setAside s.swnN
  have hnone : (s.setAside.rowReseed s.swnN).rowPlacements s.swnN = [] := by
    rw [hb]
    exact hrow
  unfold State.allotment
  simp only [retryReseeds_of_none hdue, if_pos hphase]
  change List.foldl _ (s.setAside.rowReseed s.swnN) ((s.setAside.rowReseed s.swnN).rowPlacements s.swnN) = _
  rw [hnone]
  rfl

theorem rowReseed_past {row : Nat} (h : 48 < row % 1024) : s.rowReseed row = s := if_pos h

theorem rowReseed_of_served {row : Nat} (h : row % 1024 ≤ 48) (hallot : 48 ≤ s.seed.allot.length) : s.rowReseed row =
    (s.modSeed (fun b => { b with allot := b.allot.drop 48, delivered := b.delivered + 48 })).reseeded (row % 1024)
      (s.seed.allot.take 48) := by
  rw [State.rowReseed, if_neg (Nat.not_lt.2 h), takeAllot_of_le hallot]
  rfl

end

/-- Settles O21: with nothing overdue the row's bytes are set aside; from an empty allotment the row's reseed takes their first 48. -/
theorem allotmentServesReseeds : Obligations.AllotmentServesReseeds := by
  unfold Obligations.AllotmentServesReseeds
  refine ⟨fun s hrun hphase hdue hpast hrow => ?_, fun s hrun hphase hdue hmod hrow hempty hwant hqueue => ?_⟩
  · refine (whenRun_of_running hrun _).trans ?_
    rw [allotment_eq hphase hdue hrow, rowReseed_past hpast]
    rfl
  · have hallot : s.setAside.seed.allot = s.seed.queue.take (s.rowCnt s.swnN 27) := by
      simp only [State.setAside, State.modSeed_seed, hempty, List.nil_append]
    have hlen : 48 ≤ s.setAside.seed.allot.length := by
      rw [hallot, List.length_take]
      exact Nat.le_min.2 ⟨hwant, hwant.trans hqueue⟩
    have hseed : s.setAside.seed.allot.take 48 = s.seed.queue.take 48 := by
      rw [hallot, List.take_take, Nat.min_eq_left hwant]
    refine whenRun_completes hrun ?_
    rw [allotment_eq hphase hdue hrow, rowReseed_of_served hmod hlen, hseed]
    refine ⟨stream_reseeded_self .., congrArg (List.drop 48) hallot, rfl, rfl, ?hbm, ?keys, ?cfg⟩
    all_goals simp [State.reseeded, State.setAside]

end Sys2Proof.Machine
end

section
/-! The seedbank fills: conditioned blocks, the end of the start-up tests, the halt and the floor (R324, R325, R329, R336). -/

namespace Sys2Proof.Machine

section

variable {s : State}

/-! ## The halt (R336) -/

/-- What a seedbank source reports (Table 18.3 gives it no details). -/
def seedReport (n : Nat) (u : BitVec 16) : FaultReport :=
  { source := Fin.ofNat 512 n, unit := u, detail0 := BitVec.ofNat 64 0, detail1 := BitVec.ofNat 64 0 }

/-- The collector with one report more. -/
def Faults.told (f : Faults) (r : FaultReport) : Faults := { f with reports := f.reports ++ [r] }

/-- SEED_HALT fences nothing, so the halt always reports it. -/
theorem seedHalt_eq (s : State) : s.seedHalt = State.setCause { s with
    seed := { s.seed with phase := 3, queue := [], allot := [] }
    faults := s.faults.told (seedReport 300 0) } 300 true :=
  congrArg (·.setCause 300 true) (raise_open _ (n := 300) rfl rfl 0 0 0)

/-! ## Conditioned blocks (R324, R325) -/

theorem exec_conditionedBlock (hrun : s.running = true) (n : Fin 8) (b : Bytes) : exec (.conditionedBlock n b) s = .next
    (if (s.seed.phase = 1 ∨ s.seed.phase = 2) ∧ s.seed.fenced.getLsbD n.val = false ∧ s.seed.queue.length + 32 ≤ 65536 then
      s.modSeed (fun x => { x with queue := x.queue ++ sha256 (fitB b 256) }) else s) := by
  refine (whenRun_of_running hrun _).trans (congrArg _ (if_congr ?_ rfl rfl))
  simp [and_assoc]

/-! ## The end of the start-up tests (Table 14.3) -/

theorem exec_seedStartupTestEnd (hrun : s.running = true) (hphase : s.seed.phase = 0) : exec .seedStartupTestEnd s = .next
    (if s.designLeft 0 = true ∧ s.designLeft 1 = true then s.modSeed (fun b => { b with phase := 1 }) else s.seedHalt) := by
  refine (whenRun_of_running hrun _).trans (congrArg _ ?_)
  rw [if_neg (not_not_intro hphase)]
  exact if_congr Bool.and_eq_true_iff rfl rfl

/-! ## The floor (R329, R426) -/

/-- Everything but the streams. -/
def State.besidesStreams (s : State) : State := s.modSeed (fun b => { b with streams := [] })

/-- Streams that are reseeded in turn: each listed one takes its own bytes. -/
theorem stream_foldl_reseeded (seed : Nat → Bytes) {l : List Nat} (hl : l.Nodup) (k : Nat) (s : State) :
    (l.foldl (fun s j => s.reseeded j (seed j)) s).stream k = if k ∈ l then (s.stream k).reseed (seed k) else s.stream k := by
  induction l generalizing s with
  | nil => rfl
  | cons j l ih =>
    obtain ⟨hj, hl⟩ := List.nodup_cons.1 hl
    rw [List.foldl_cons, ih hl, stream_reseeded]
    by_cases hkj : k = j
    · subst hkj
      simp [hj]
    · simp [hkj]

/-- The seedbank with the 2,352 bytes of the instantiation taken out of its queue. -/
def State.floorDrawn (s : State) : State :=
  s.modSeed (fun b => { b with phase := 2, queue := b.queue.drop 2352, delivered := b.delivered + 2352 })
/-- Streams 0–48 instantiated from `seeds`, 48 bytes each. -/
def State.instantiated (s : State) (seeds : Bytes) : State :=
  (upTo 49).foldl (fun s k => s.reseeded k (slice seeds (48 * k) 48)) s

@[simp] theorem stream_floorDrawn (k : Nat) : s.floorDrawn.stream k = s.stream k := rfl
theorem stream_instantiated (seeds : Bytes) {k : Nat} (hk : k < 49) :
    (s.instantiated seeds).stream k = (s.stream k).reseed (slice seeds (48 * k) 48) :=
  (stream_foldl_reseeded (fun k => slice seeds (48 * k) 48) List.nodup_range k s).trans (if_pos (mem_upTo.2 hk))
theorem besidesStreams_instantiated (seeds : Bytes) : (s.instantiated seeds).besidesStreams = s.besidesStreams := by
  refine foldl_keeps (g := State.besidesStreams) (fun t k => ?_) (upTo 49) s
  rfl

theorem exec_seedFloorReached (hrun : s.running = true) : exec .seedFloorReached s = .next
    (if s.seed.phase = 1 ∧ 4096 ≤ s.seed.queue.length then
      { s.floorDrawn.instantiated (s.seed.queue.take 2352) with
        tamper := { (s.floorDrawn.instantiated (s.seed.queue.take 2352)).tamper with raw := false } } else s) := by
  refine (whenRun_of_running hrun _).trans (congrArg _ (if_congr ?_ rfl rfl))
  simp
/-- At the floor each stream takes its 48 bytes; beside the streams, the draw and the raw noise of delays nothing changes. -/
theorem exec_seedFloorReached_of_floor (hrun : s.running = true) (hphase : s.seed.phase = 1)
    (hlevel : 4096 ≤ s.seed.queue.length) :
    ∃ t : State, exec .seedFloorReached s = .next { t with tamper := { t.tamper with raw := false } } ∧
      t.besidesStreams = s.floorDrawn.besidesStreams ∧
      ∀ k, k < 49 → t.stream k = (s.stream k).reseed (slice (s.seed.queue.take 2352) (48 * k) 48) := by
  refine ⟨s.floorDrawn.instantiated (s.seed.queue.take 2352),
    (exec_seedFloorReached hrun).trans (congrArg _ (if_pos ⟨hphase, hlevel⟩)), besidesStreams_instantiated _, fun k hk => ?_⟩
  rw [stream_instantiated _ hk, stream_floorDrawn]

end

/-- Settles O22: each command's effect hangs on its one condition; the instantiation changes nothing but the streams. -/
theorem seedbankFills : Obligations.SeedbankFills := by
  unfold Obligations.SeedbankFills
  refine ⟨?joins, ?discarded, ?fills, ?halts, ?floor, ?waits⟩
  case joins =>
    intro s n b hrun hphase hin hroom
    rw [exec_conditionedBlock hrun, if_pos ⟨hphase, hin, hroom⟩]
  case discarded =>
    intro s n b hrun hno
    rw [exec_conditionedBlock hrun, if_neg]
    rintro ⟨hphase, hin, hroom⟩
    rcases hno with ⟨h1, h2⟩ | hfenced | hfull
    · exact hphase.elim h1 h2
    · exact Bool.noConfusion (hin.symm.trans hfenced)
    · exact absurd hroom (Nat.not_le.2 hfull)
  case fills =>
    intro s hrun hphase h0 h1
    rw [exec_seedStartupTestEnd hrun hphase, if_pos ⟨h0, h1⟩]
  case halts =>
    intro s hrun hphase hlost
    have hnot : ¬ (s.designLeft 0 = true ∧ s.designLeft 1 = true) := by
      rintro ⟨h0, h1⟩
      simp [h0, h1] at hlost
    refine ⟨_, exec_seedStartupTestEnd hrun hphase, ?_⟩
    rw [if_neg hnot, seedHalt_eq]
    refine ⟨rfl, rfl, rfl, ⟨seedReport 300 0, List.mem_append_right _ (List.mem_singleton_self _), rfl⟩, ?_⟩
    rw [setCause_live _ (by decide), decide_eq_true rfl, Bool.or_true]
  case floor =>
    intro s hrun hphase hlevel
    obtain ⟨t, hexec, hkept, hstreams⟩ := exec_seedFloorReached_of_floor hrun hphase hlevel
    have hrunning : t.seed.phase = 2 := congrArg (·.seed.phase) hkept
    have hqueue : t.seed.queue = s.seed.queue.drop 2352 := congrArg (·.seed.queue) hkept
    have hdelivered : t.seed.delivered = s.seed.delivered + 2352 := congrArg (·.seed.delivered) hkept
    have htamper : t.tamper = s.tamper := congrArg (·.tamper) hkept
    have hkeys : t.keys = s.keys := congrArg (·.keys) hkept
    exact ⟨_, hexec, hrunning, hqueue, hdelivered, hstreams, congrArg (fun x : Tamper => { x with raw := false }) htamper, hkeys⟩
  case waits =>
    intro s hrun hno
    rw [exec_seedFloorReached hrun, if_neg]
    rintro ⟨hphase, hlevel⟩
    exact hno.elim (absurd hphase) fun h => absurd hlevel (Nat.not_le.2 h)

end Sys2Proof.Machine
end

section
/-! Health-test alarms: what an alarm counts and reports, and what the failure of a source does (R327, R328). -/

namespace Sys2Proof.Machine

section

variable {s t u : State}

/-! ## What an alarm and a failure leave as it stands -/

/-- From `s` to `t` the alarm counts, admission and the registers stand, and no report was lost. -/
structure CountsStand (s t : State) : Prop where
  adm : t.adm = s.adm
  cfg : t.cfg = s.cfg
  rct : t.seed.rct = s.seed.rct
  apt : t.seed.apt = s.seed.apt
  reports : ∀ r ∈ s.faults.reports, r ∈ t.faults.reports

namespace CountsStand

theorem refl (s : State) : CountsStand s s := ⟨rfl, rfl, rfl, rfl, fun _ hr => hr⟩
theorem trans (h : CountsStand s t) (h' : CountsStand t u) : CountsStand s u :=
  ⟨h'.adm.trans h.adm, h'.cfg.trans h.cfg, h'.rct.trans h.rct, h'.apt.trans h.apt, fun r hr => h'.reports r (h.reports r hr)⟩

end CountsStand

/-! ## The failure of a source (R327) -/

theorem faultKind_sourceFail (n : Fin 8) : faultKind (292 + n.val) = some ⟨1, true, false, 0x21, 0x20⟩ := by
  revert n
  decide

/-- The failure of a source in service is reported: its fence unit is not yet fenced (R411). -/
theorem raise_sourceFail (n : Fin 8) (hin : s.seed.fenced.getLsbD n.val = false) : s.raise (292 + n.val) (unitCode 11 n.val) 0 0 =
    { s with faults := s.faults.told (seedReport (292 + n.val) (unitCode 11 n.val)) } := by
  have hopen : s.fencedAlready (292 + n.val) (unitCode 11 n.val) = false := by
    simp only [State.fencedAlready, faultKind_sourceFail]
    rw [if_neg (by decide), if_neg (by omega), if_neg (by omega), if_neg (by omega), if_neg (by omega), if_pos (by omega),
      Nat.add_sub_cancel_left, hin]
  simp only [State.raise, faultKind_sourceFail, hopen]
  rfl

theorem getLsbD_fence (x : BitVec 8) (n : Fin 8) : (x ||| BitVec.ofNat 8 (2 ^ n.val)).getLsbD n.val = true := by
  rw [BitVec.getLsbD_or, BitVec.getLsbD_ofNat, Nat.testBit_two_pow_self, decide_eq_true n.isLt, Bool.and_self, Bool.or_true]

/-- Source `n` has left service in `t`, and that is reported; the alarms and the start-up verdicts are as in `s`. -/
structure SourceFailed (n : Fin 8) (s t : State) : Prop where
  stands : CountsStand s t
  startFail : t.seed.startFail = s.seed.startFail
  fenced : t.seed.fenced.getLsbD n.val = true
  report : ∃ r ∈ t.faults.reports, r.source = Fin.ofNat 512 (292 + n.val)

/-- A fence halts the seedbank at most, and neither the fence nor a report is undone by that. -/
theorem sourceFailed_sourceFails (n : Fin 8) (hin : s.seed.fenced.getLsbD n.val = false) :
    SourceFailed n s (s.sourceFails n.val) := by
  have hfenced := getLsbD_fence s.seed.fenced n
  have hkept (r) (hr : r ∈ s.faults.reports) := List.mem_append_left [seedReport (292 + n.val) (unitCode 11 n.val)] hr
  have hnew := List.mem_append_right s.faults.reports (List.mem_singleton_self (seedReport (292 + n.val) (unitCode 11 n.val)))
  rw [State.sourceFails, raise_sourceFail n hin]
  unfold State.fenceSource
  dsimp only
  split
  · rw [seedHalt_eq]
    exact ⟨⟨rfl, rfl, rfl, rfl, fun r hr => List.mem_append_left _ (hkept r hr)⟩, rfl, hfenced,
      _, List.mem_append_left _ hnew, rfl⟩
  · exact ⟨⟨rfl, rfl, rfl, rfl, hkept⟩, rfl, hfenced, _, hnew, rfl⟩

/-! ## An alarm (R327) -/

/-- The swaths of the alarms of source `n` that still count, with one now. -/
def State.alarmTimes (s : State) (n : Nat) : List Nat :=
  (mget (fun _ => []) s.seed.recent n ++ [s.swnN]).filter (fun t => decide (s.swnN - t ≤ 1024))
/-- The seedbank with an alarm of source `n` counted, by the test that tripped. -/
def State.alarmSeed (s : State) (n : Nat) (rct : Bool) : Seedbank := { s.seed with
  rct := if rct then cput s.seed.rct n (satInc 16 (cget s.seed.rct n)) else s.seed.rct
  apt := if rct then s.seed.apt else cput s.seed.apt n (satInc 16 (cget s.seed.apt n))
  recent := mput (fun _ => []) s.seed.recent n (s.alarmTimes n) }
/-- The state with the alarm counted and reported; a failure may follow. -/
def State.alarmed (s : State) (n : Nat) (rct : Bool) : State :=
  { s with seed := s.alarmSeed n rct, faults := s.faults.told (seedReport (284 + n) (unitCode 11 n)) }
/-- The seedbank's note that source `n` did not pass its start-up test. -/
def State.startFailed (s : State) (n : Nat) : State :=
  s.modSeed (fun b => { b with startFail := b.startFail ||| BitVec.ofNat 8 (2 ^ n) })

theorem countsStand_startFailed (s : State) (n : Nat) : CountsStand s (s.startFailed n) :=
  ⟨rfl, rfl, rfl, rfl, fun _ hr => hr⟩

/-- SEED_ALARM fences nothing, so that it is always reported. -/
theorem raise_seedAlarm (s : State) (n : Fin 8) : s.raise (284 + n.val) (unitCode 11 n.val) 0 0 =
    { s with faults := s.faults.told (seedReport (284 + n.val) (unitCode 11 n.val)) } := by
  have hkind : faultKind (284 + n.val) = some ⟨0, false, false, 0x01, 0⟩ := by
    revert n
    decide
  exact raise_open s hkind rfl _ _ _

section Alarm

variable (n : Fin 8) (rct : Bool) (hphase : s.seed.phase ≠ 3) (hin : s.seed.fenced.getLsbD n.val = false)

include hin

theorem sourceFailed_alarmed : SourceFailed n (s.alarmed n.val rct) ((s.alarmed n.val rct).sourceFails n.val) :=
  sourceFailed_sourceFails n hin
theorem sourceFailed_startFailed : SourceFailed n ((s.alarmed n.val rct).startFailed n.val)
    (((s.alarmed n.val rct).startFailed n.val).sourceFails n.val) := sourceFailed_sourceFails n hin

include hphase

/-- An alarm of a source in service is counted and reported; then the source may fail. -/
theorem seedAlarm_eq : s.seedAlarm n.val rct =
    if s.seed.phase = 0 then ((s.alarmed n.val rct).startFailed n.val).sourceFails n.val
    else if 3 ≤ (s.alarmTimes n.val).length then (s.alarmed n.val rct).sourceFails n.val else s.alarmed n.val rct := by
  have hin : ¬ (decide (s.seed.phase = 3) || s.seed.fenced.getLsbD n.val) = true := by
    rw [decide_eq_false hphase, hin]
    exact Bool.false_ne_true
  unfold State.seedAlarm
  rw [if_neg hin]
  simp only [raise_seedAlarm]
  rfl

/-- Whether the source fails or not, the count and the report of the alarm stand. -/
theorem countsStand_seedAlarm : CountsStand (s.alarmed n.val rct) (s.seedAlarm n.val rct) := by
  rw [seedAlarm_eq n rct hphase hin]
  split
  · exact (countsStand_startFailed ..).trans (sourceFailed_startFailed n rct hin).stands
  · split
    · exact (sourceFailed_alarmed n rct hin).stands
    · exact .refl _

end Alarm

/-- The new alarm counts itself. -/
theorem length_alarmTimes (s : State) (n : Nat) : (s.alarmTimes n).length =
    ((mget (fun _ => []) s.seed.recent n).filter (fun t => decide (s.swnN - t ≤ 1024))).length + 1 := by
  simp [State.alarmTimes]

theorem cget_cput_satInc (m : SMap Nat) (n : Nat) : cget (cput m n (satInc 16 (cget m n))) n = satInc 16 (cget m n) :=
  mget_mput_get n _ (satInc_pos (by decide) _)

theorem cget_alarmed_rct (s : State) (n : Nat) (rct : Bool) : cget (s.alarmed n rct).seed.rct n =
    if rct then satInc 16 (cget s.seed.rct n) else cget s.seed.rct n := by
  cases rct with
  | true => exact cget_cput_satInc ..
  | false => rfl
theorem cget_alarmed_apt (s : State) (n : Nat) (rct : Bool) : cget (s.alarmed n rct).seed.apt n =
    if rct then cget s.seed.apt n else satInc 16 (cget s.seed.apt n) := by
  cases rct with
  | true => rfl
  | false => exact cget_cput_satInc ..

theorem exec_seedAlarm (hrun : s.running = true) (n : Fin 8) (test : HealthTest) :
    exec (.seedAlarm n test) s = .next (s.seedAlarm n.val (test == .rct)) := whenRun_of_running hrun _

end

/-- Settles O23: the count and the report stand whether the source fails or not; a failure in the start-up test is noted besides. -/
theorem seedAlarmFencesSource : Obligations.SeedAlarmFencesSource := by
  unfold Obligations.SeedAlarmFencesSource
  refine ⟨fun s n test hrun hphase hin => ?_, fun s n test hrun hphase hin => ?_, fun s n test hrun hphase hin hrecent => ?_⟩
  · have hstands := countsStand_seedAlarm n (test == .rct) hphase hin
    refine ⟨_, exec_seedAlarm hrun n test, ?_, ?_, ?_, hstands.adm, hstands.cfg⟩
    · rw [hstands.rct, cget_alarmed_rct]
      cases test <;> rfl
    · rw [hstands.apt, cget_alarmed_apt]
      cases test <;> rfl
    · exact ⟨_, hstands.reports _ (List.mem_append_right _ (List.mem_singleton_self _)), rfl⟩
  · have hfailed := sourceFailed_startFailed n (test == .rct) hin
    refine ⟨_, exec_seedAlarm hrun n test, ?_⟩
    rw [seedAlarm_eq n _ (by omega) hin, if_pos hphase]
    refine ⟨hfailed.fenced, ?_, hfailed.report⟩
    rw [hfailed.startFail]
    exact getLsbD_fence ..
  · have hfailed := sourceFailed_alarmed n (test == .rct) hin
    have hthird : 3 ≤ (s.alarmTimes n.val).length := by
      rw [length_alarmTimes]
      exact Nat.succ_le_succ hrecent
    refine ⟨_, exec_seedAlarm hrun n test, ?_⟩
    rw [seedAlarm_eq n _ (by omega) hin, if_neg (by omega), if_pos hthird]
    exact ⟨hfailed.fenced, hfailed.report⟩

end Sys2Proof.Machine
end

section
/-! The start goes on or stops at each of its phases (R347, R435, R443, R460–R464, R467). -/

namespace Sys2Proof.Machine

section

variable {s : State}

/-! ## The start edge (R443, R460, R461) -/

theorem exec_startEdge {env : StartEnv} (hstart : s.start.up = false) (hheld : s.backup.held = false)
    (htherm : s.start.thermLow = false) (hrails : env.railsOk = true) (hperst : env.perstHigh = true)
    (hclk : env.refclkRuns = true) : exec (.startEdge env) s = .next (s.startEdge env) :=
  congrArg _ (if_pos (by simp [hstart, hheld, htherm, hrails, hperst, hclk]))
theorem exec_startEdge_of_missing {env : StartEnv} (h : env.railsOk = false ∨ env.perstHigh = false ∨ env.refclkRuns = false ∨
    s.backup.held = true) : exec (.startEdge env) s = .next s :=
  congrArg _ (if_neg (by rcases h with h | h | h | h <;> simp [h]))

/-- The device has left reset at CCLK_STEP 24, and its fuses are being read. -/
def State.released (s : State) (e : StartEnv) : State :=
  { s with
    start := { s.start with
      up := true, phase := 1, perstLow := false, fuseCorrected := e.fusesCorrected, fuseLost := e.fusesLost }
    glob := { s.glob with timer := true, cclkStep := 24 } }
/-- The blown tamper fuses are in force, and the rails measure at 900 mV. -/
def State.fusesRead (s : State) : State :=
  { s with
    tamper := { s.tamper with eff := s.tamper.blown }
    power := { s.power with measuring := true, vddW := 900, vddE := 900 } }

theorem startEdge_of_lost {env : StartEnv} (h : env.fusesLost = true) : s.startEdge env = (s.released env).startStop 1 := if_pos h
theorem startEdge_of_read {env : StartEnv} (h : env.fusesLost = false) :
    s.startEdge env = (s.released env).fusesRead.mergeCounter.readJournal env.journalA env.journalB :=
  if_neg (h ▸ Bool.false_ne_true)
/-- Without a valid record the device is Closed, by a first record of its own (R443). -/
theorem readJournal_neither : s.readJournal false false = s.modLife (fun l => { l with
    closed := true, lost := true, mark := 0, seq := 1, resumed := 0
    slotA := { valid := true, seq := 1, mark := 0, target := 1 }, slotB := JRec.none }) := rfl

/-! ## The firmware banks (R462) -/

/-- The bank that a start takes, of those that verify: the active one, then the other. -/
def State.bankFor (s : State) (a b : Bool) : Option Bool :=
  if s.start.active then (if b then some true else if a then some false else none)
  else (if a then some false else if b then some true else none)

theorem bankFor_neither : s.bankFor false false = none := by simp [State.bankFor]
theorem bankFor_a (h : s.start.active = false) (b : Bool) : s.bankFor true b = some false := by simp [State.bankFor, h]
theorem bankFor_b (h : s.start.active = false) : s.bankFor false true = some true := by simp [State.bankFor, h]

variable {a b : Bool} (imgs : List Bytes) (ks : List (Bytes × Bool))

theorem exec_firmwareVerify_of_none (hup : s.up = true) (hphase : s.start.phase = 1) (h : s.bankFor a b = none) :
    exec (.firmwareVerify a b imgs ks) s = .next (s.startStop 2) := by
  refine (whenUp_of_up hup _).trans (congrArg _ ((if_neg (not_not_intro hphase)).trans ?_))
  unfold State.bankFor at h
  simp only [h]
theorem exec_firmwareVerify_of_some (hup : s.up = true) (hphase : s.start.phase = 1) {bank : Bool}
    (h : s.bankFor a b = some bank) : Completes (.firmwareVerify a b imgs ks) s (fun t =>
      t.start.phase = 2 ∧ t.start.bank = bank ∧ t.start.fwOk = true) := by
  refine ⟨_, (whenUp_of_up hup _).trans (congrArg _ (if_neg (not_not_intro hphase))), ?_⟩
  unfold State.bankFor at h
  simp only [h]
  exact ⟨rfl, rfl, rfl⟩

/-! ## Training of the pseudo-channels (R464) -/

/-- A pseudo-channel that fails in training is reported and leaves service. -/
def State.untrained (s : State) (i : Fin 128) : State := (s.raise (308 + i.val) (unitCode 9 i.val) 0 0).fencePc i.val

/-- Only the channel's service and the collector's input change. -/
theorem untrained_only (s : State) (i : Fin 128) : ∃ f, s.untrained i = { s with
    hbmc := { s.hbmc with pcFenced := s.hbmc.pcFenced ||| BitVec.ofNat 128 (2 ^ i.val) }, faults := f } := by
  unfold State.untrained
  rcases raise_cases (s := s) (308 + i.val) (unitCode 9 i.val) 0 0 with e | ⟨-, -, e⟩
  · exact ⟨_, by rw [e]; rfl⟩
  · exact ⟨_, by rw [e]; rfl⟩
theorem start_untrained (s : State) (i : Fin 128) : (s.untrained i).start = s.start := by
  obtain ⟨f, e⟩ := untrained_only s i
  rw [e]
theorem fenced_untrained (s : State) (i j : Fin 128) : (s.untrained i).hbmc.pcFenced.getLsbD j.val =
    (s.hbmc.pcFenced.getLsbD j.val || decide (i = j)) := by
  obtain ⟨f, e⟩ := untrained_only s i
  rw [e]
  show (s.hbmc.pcFenced ||| BitVec.ofNat 128 (2 ^ i.val)).getLsbD j.val = _
  rw [BitVec.getLsbD_or, BitVec.getLsbD_ofNat, Nat.testBit_two_pow, decide_eq_true j.isLt, Bool.true_and,
    decide_eq_decide.2 Fin.ext_iff]

/-- A channel is out of service after training just when it was before, or failed. -/
theorem fenced_foldl_untrained (failed : List (Fin 128)) (s : State) (j : Fin 128) :
    (failed.foldl State.untrained s).hbmc.pcFenced.getLsbD j.val = (s.hbmc.pcFenced.getLsbD j.val || decide (j ∈ failed)) := by
  induction failed generalizing s with
  | nil => simp
  | cons i failed ih =>
    rw [List.foldl_cons, ih, fenced_untrained, Bool.or_assoc, ← Bool.decide_or]
    simp only [List.mem_cons, eq_comm]

/-- The device with its failed channels out of service and counted. -/
def State.trainedBut (s : State) (failed : List (Fin 128)) : State :=
  (failed.foldl State.untrained s).modStart (fun x => { x with trainFailed := failed.eraseDups.length })

theorem phase_trainedBut (failed : List (Fin 128)) : (s.trainedBut failed).start.phase = s.start.phase :=
  congrArg (·.phase) (foldl_keeps (g := State.start) start_untrained failed s)
theorem fenced_trainedBut {failed : List (Fin 128)} {i : Fin 128} (hi : i ∈ failed) :
    (s.trainedBut failed).hbmc.pcFenced.getLsbD i.val = true :=
  (fenced_foldl_untrained failed s i).trans (by simp [hi])

theorem exec_hbmTrainingEnd (hup : s.up = true) (htrained : s.start.trained = false) (failed : List (Fin 128)) :
    exec (.hbmTrainingEnd failed) s = .next (if (s.trainedBut failed).pcCount < 64 then (s.trainedBut failed).startStop 4
      else (s.trainedBut failed).modStart (fun x => { x with trained := true })) :=
  (whenUp_of_up hup _).trans (congrArg _ (if_neg (htrained ▸ Bool.false_ne_true)))

/-! ## The key store (R347, R435, R463) -/

/-- The key store waits for its partition: the streams run, no opening is under way, and the firmware has been verified. -/
structure KeysDue (s : State) : Prop where
  running : s.running = true
  phase : s.keys.phase = 0
  streams : s.seed.phase = 2
  mark : s.life.mark = 0
  firmware : s.start.fwOk = true

theorem exec_keystoreReloadEnd_of_kept (hdue : KeysDue s) (hroot : s.backup.root = true) (hmade : s.keys.nvRoot = s.deviceRoot)
    (hbk : s.backup.now.tamperBk = false) (hpower : s.backup.now.powerLost = false) :
    exec (.keystoreReloadEnd false) s = .next ((s.modKeys (fun k => { k with
      slots := mmap (fun _ => KSlot.empty) (fun _ k => startMark k) s.keys.nv
      nv := mmap (fun _ => KSlot.empty) (fun _ k => startMark k) s.keys.nv
      rootLost := false, phase := 1 })).setCause 305 false) := by
  obtain ⟨hrun, hphase, hstreams, hmark, hfw⟩ := hdue
  exact (whenRun_of_running hrun _).trans (congrArg _ ((if_neg (by simp [hphase, hstreams, hmark, hfw])).trans
    (if_neg (by simp [hroot, hmade, hbk, hpower]))))
theorem exec_keystoreReloadEnd_of_lost (hdue : KeysDue s) (hlost : s.backup.now.tamperBk = true ∨ s.backup.now.powerLost = true ∨
    s.backup.root = false ∨ s.keys.nvRoot ≠ s.deviceRoot) (corrupt : Bool) :
    exec (.keystoreReloadEnd corrupt) s = .next s.bootEmpty := by
  obtain ⟨hrun, hphase, hstreams, hmark, hfw⟩ := hdue
  exact (whenRun_of_running hrun _).trans (congrArg _ ((if_neg (by simp [hphase, hstreams, hmark, hfw])).trans
    (if_pos (by rcases hlost with h | h | h | h <;> simp [h]))))

/-- The device with a new root from 32 bytes of the seed queue. -/
def State.newRoot (s : State) : State :=
  { s with
    backup := { s.backup with
      root := true, bbram := s.seed.queue.take 32, now := { s.backup.now with tamperBk := false, powerLost := false } }
    seed := { s.seed with queue := s.seed.queue.drop 32, delivered := s.seed.delivered + 32 } }
/-- The key store is formatted under the root it finds. -/
def State.formatted (s : State) : State :=
  s.modKeys (fun k => { k with slots := [], nv := [], nvRoot := s.deviceRoot, commits := [], rootLost := true, phase := 1 })

/-- ROOT_LOST fences nothing, so that a device which comes up empty always reports it. -/
theorem bootEmpty_eq : s.bootEmpty = State.setCause { s.newRoot.formatted with
    faults := s.faults.told (seedReport 305 0) } 305 true :=
  congrArg (·.setCause 305 true) (raise_open s.newRoot.formatted (n := 305) rfl rfl 0 0 0)

theorem deviceRoot_congr {t : State} (h : t.backup.bbram = s.backup.bbram) : t.deviceRoot = s.deviceRoot := by
  rw [State.deviceRoot, h, State.deviceRoot]
/-- The partition is made for the root that stays (R346). -/
theorem nvRoot_formatted : s.formatted.keys.nvRoot = s.formatted.deviceRoot := by
  rw [deviceRoot_congr (s := s) (t := s.formatted) rfl, State.formatted, State.modKeys_keys]

/-! ## Updates of the firmware (R467) -/

theorem exec_pldmFirmwareUpdate (img : Bytes) : exec (.pldmFirmwareUpdate img) s = .next
    (if s.start.up = true ∧ s.start.phase = 15 then { s with start := { s.start with active := false } } else s) :=
  congrArg _ (if_congr (by simp) rfl rfl)

end

/-- Settles O48: each phase goes on or stops by its one condition. -/
theorem startSequence : Obligations.StartSequence := by
  unfold Obligations.StartSequence
  refine ⟨?edge, fun s env h => exec_startEdge_of_missing h, ?firmware, ?training, ?keys, ?update, ?refused⟩
  case edge =>
    intro s env hstart hheld htherm hrails hperst hclk
    have hexec := exec_startEdge hstart hheld htherm hrails hperst hclk
    refine ⟨fun hread ha hb => ⟨_, hexec, ?_⟩, fun hlost => ⟨_, hexec, ?_⟩⟩
    · rw [startEdge_of_read hread, ha, hb, readJournal_neither]
      exact ⟨rfl, rfl, rfl, rfl, rfl, rfl, rfl, rfl, rfl, rfl, rfl, rfl, rfl⟩
    · rw [startEdge_of_lost hlost]
      exact ⟨rfl, rfl, hlost, rfl⟩
  case firmware =>
    intro s a b imgs ks hup hphase
    refine ⟨?neither, ?bankA, ?bankB⟩
    case neither =>
      rintro rfl rfl
      exact ⟨_, exec_firmwareVerify_of_none imgs ks hup hphase bankFor_neither, rfl, rfl, rfl⟩
    case bankA =>
      rintro hactive rfl
      exact exec_firmwareVerify_of_some imgs ks hup hphase (bankFor_a hactive b)
    case bankB =>
      rintro hactive rfl rfl
      exact exec_firmwareVerify_of_some imgs ks hup hphase (bankFor_b hactive)
  case training =>
    intro s failed hup htrained
    refine ⟨_, exec_hbmTrainingEnd hup htrained failed, ?_⟩
    split
    case isTrue hfew =>
      exact ⟨fun i hi => fenced_trainedBut hi, fun _ => ⟨rfl, rfl, rfl⟩, fun hmany => absurd hfew (Nat.not_lt.2 hmany)⟩
    case isFalse hmany =>
      exact ⟨fun i hi => fenced_trainedBut hi, fun hfew => absurd hfew hmany, fun _ => ⟨rfl, phase_trainedBut failed⟩⟩
  case keys =>
    intro s hrun hphase hstreams hmark hfw
    have hdue : KeysDue s := ⟨hrun, hphase, hstreams, hmark, hfw⟩
    refine ⟨fun hroot hmade hbk hpower => ⟨_, exec_keystoreReloadEnd_of_kept hdue hroot hmade hbk hpower, ?_⟩,
      fun hlost c => ⟨_, exec_keystoreReloadEnd_of_lost hdue hlost c, ?_⟩⟩
    · exact ⟨rfl, rfl, rfl, rfl, rfl⟩
    · rw [bootEmpty_eq]
      exact ⟨rfl, rfl, rfl, rfl, rfl, rfl, rfl, nvRoot_formatted.trans (deviceRoot_congr rfl), rfl, rfl, rfl,
        ⟨_, List.mem_append_right _ (List.mem_singleton_self _), rfl⟩, rfl⟩
  case update =>
    intro s img hstart hphase
    exact (exec_pldmFirmwareUpdate img).trans (congrArg _ (if_pos ⟨hstart, hphase⟩))
  case refused =>
    rintro s img h
    refine (exec_pldmFirmwareUpdate img).trans (congrArg _ (if_neg ?_))
    rintro ⟨hstart, hphase⟩
    rcases h with h | h
    · exact Bool.false_ne_true (h.symm.trans hstart)
    · exact h hphase

end Sys2Proof.Machine
end

section
/-! Management messages are answered, and a HELD device reports (R360, R429, R501). -/

namespace Sys2Proof.Machine

section

variable {s : State} (via : MctpVia) (msg : Bytes)

/-! ## MCTP messages (Table 17.2, R501) -/

/-- The state with the answer given, if a responder answers. -/
def State.mctpResponded (s : State) (via : MctpVia) (msg : Bytes) : State :=
  if s.mctpAnswers via msg then s.mctpReply via else s

theorem exec_mctpMessage_unheard (h : s.mctpHears via = false) : exec (.mctpMessage via msg) s = .next s :=
  if_pos (congrArg (!·) h)
theorem exec_mctpMessage_heard (h : s.mctpHears via = true) : exec (.mctpMessage via msg) s = .next
    (if s.up then (s.mctpResponded via msg).pendSrc (if via = .pcie then 898 else 897) else s.mctpResponded via msg) :=
  if_neg (by simp [h])

/-- An answer takes two free values, its length and its bytes, and goes out over the bus of the message. -/
theorem mctpReply_only : ∃ b, s.mctpReply via = { s with free := s.free + 2, outbox := s.outbox ++ [.mctp (via == .pcie) b] } :=
  ⟨_, rfl⟩

/-- A response is one answer more in the outbox, and only if a responder answers; besides it only free values are taken. -/
theorem mctpResponded_only : ∃ f o, s.mctpResponded via msg = { s with free := f, outbox := o } ∧
    (s.mctpAnswers via msg = false → o = s.outbox) ∧
    (s.mctpAnswers via msg = true → ∃ b, o = s.outbox ++ [.mctp (via == .pcie) b]) := by
  unfold State.mctpResponded
  cases h : s.mctpAnswers via msg with
  | false => exact ⟨s.free, s.outbox, if_neg Bool.false_ne_true, fun _ => rfl, fun h => absurd h Bool.false_ne_true⟩
  | true =>
    obtain ⟨b, e⟩ := mctpReply_only (s := s) via
    exact ⟨_, _, (if_pos rfl).trans e, fun h => absurd h.symm Bool.false_ne_true, fun _ => ⟨b, rfl⟩⟩

/-- What becomes pending depends on what was, not on the messages sent. -/
theorem intc_pendSrc_outbox (f : Nat) (o : List Out) (n : Nat) :
    (State.pendSrc { s with free := f, outbox := o } n).intc = (s.pendSrc n).intc := by
  unfold State.pendSrc
  split
  · rfl
  · rfl

/-- In HELD the responder of SMBus answers Get Endpoint ID and Get Message Type Support (R429). -/
theorem mctpAnswers_held (h : s.backup.held = true) : s.mctpAnswers via msg = true ↔
    via ≠ .pcie ∧ rd msg 0 1 % 128 = 0 ∧ (rd msg 2 1 = 2 ∨ rd msg 2 1 = 5) := by
  simp [State.mctpAnswers, h, and_assoc]

/-- The outbox grows just when a responder answers. -/
theorem outbox_mctpResponded : (s.mctpResponded via msg).outbox ≠ s.outbox ↔ s.mctpAnswers via msg = true := by
  obtain ⟨f, o, e, hsilent, hanswer⟩ := mctpResponded_only (s := s) via msg
  rw [e]
  cases h : s.mctpAnswers via msg with
  | false => simp [hsilent h]
  | true =>
    obtain ⟨b, rfl⟩ := hanswer h
    simp

/-! ## Measurements (R360) -/

theorem exec_spdmGetMeasurements (hup : s.up = true) (i : Byte) (nonce : Bytes) : exec (.spdmGetMeasurements i nonce) s = .next
    (if 1 ≤ i.toNat ∧ i.toNat ≤ 8 then (s.draw 512).2.emit (.spdm i.toNat (s.measurement i.toNat)
      ((ecdsaSign p384 (beNat ideSec) (ecNonce 0x72 (s.drawBytes 64).1) (sha384 (s.measurement i.toNat ++ nonce))).getD []))
    else s) := whenUp_of_up hup _

/-! ## The report of a HELD device (R429) -/

theorem exec_heldStatusRequest : exec .heldStatusRequest s = .next
    (if s.backup.held = true ∧ s.backup.smbAddr.isSome = true then s.emit (.held (toLe 1 1 ++
      toLe 4 s.backup.now.last.toNat ++ (upTo 3).flatMap (fun i => toLe 8 (nth s.backup.now.hist i 0).toNat))) else s) :=
  congrArg _ (if_congr (by simp) rfl rfl)

end

/-- Settles O49: a message acts where it is heard; its answer and its interrupt do not touch each other. -/
theorem managementMessagesAnswered : Obligations.ManagementMessagesAnswered := by
  unfold Obligations.ManagementMessagesAnswered
  refine ⟨fun s via m h => exec_mctpMessage_unheard via m h, ?running, ?held, ?measured, ?unmeasured, ?report, ?silent⟩
  case running =>
    intro s via m hheard hup
    obtain ⟨f, o, e, hsilent, hanswer⟩ := mctpResponded_only (s := s) via m
    refine ⟨_, (exec_mctpMessage_heard via m hheard).trans (congrArg _ (if_pos hup)), ?_⟩
    rw [e]
    have hintc := intc_pendSrc_outbox (s := s) f o (if via = .pcie then 898 else 897)
    obtain ⟨l, ep⟩ := pendSrc_only { s with free := f, outbox := o } (if via = .pcie then 898 else 897)
    rw [ep] at hintc ⊢
    exact ⟨hintc, rfl, rfl, rfl, hsilent, hanswer⟩
  case held =>
    intro s via m hheard hup hheld
    refine ⟨_, (exec_mctpMessage_heard via m hheard).trans (congrArg _ (if_neg (hup ▸ Bool.false_ne_true))), ?_,
      (outbox_mctpResponded via m).trans (mctpAnswers_held via m hheld)⟩
    obtain ⟨f, o, e, -, -⟩ := mctpResponded_only (s := s) via m
    rw [e]
  case measured =>
    intro s i nonce hup hlow hhigh
    exact ⟨_, (exec_spdmGetMeasurements hup i nonce).trans (congrArg _ (if_pos ⟨hlow, hhigh⟩)), ⟨_, rfl⟩, rfl⟩
  case unmeasured =>
    intro s i nonce hup hout
    exact (exec_spdmGetMeasurements hup i nonce).trans (congrArg _ (if_neg (by omega)))
  case report =>
    intro s hheld haddr
    exact exec_heldStatusRequest.trans (congrArg _ (if_pos ⟨hheld, haddr⟩))
  case silent =>
    rintro s (hheld | haddr)
    · exact exec_heldStatusRequest.trans (congrArg _ (if_neg (by simp [hheld])))
    · exact exec_heldStatusRequest.trans (congrArg _ (if_neg (by simp [haddr])))

end Sys2Proof.Machine
end

section
/-! The statements about the machine as such: the step, and the state after power-up (chapters 2 and 22, log entry 9). -/

open Sys2Proof Sys2Proof.Machine

namespace Sys2Proof.Machine

/-- Settles O1: a step looks at the front of the queue and at nothing else of it. -/
theorem stepRunsFrontCommand : Obligations.StepRunsFrontCommand := by
  unfold Obligations.StepRunsFrontCommand
  exact ⟨fun c rest _ h => step_front c rest h, fun _ h => step_idle h⟩

/-- Settles O2: after power-up every store and table is empty. -/
theorem canonicalAtReset : Obligations.CanonicalAtReset := by
  unfold Obligations.CanonicalAtReset
  rw [canonical_iff]
  exact ⟨⟨rfl, rfl, rfl⟩, rfl, rfl, rfl, rfl, rfl, rfl, rfl⟩

/-- Settles O7. No field and no instance is listed after power-up, so each of them reads as its initial value. -/
theorem resetRegisters : Obligations.ResetRegisters := by
  unfold Obligations.ResetRegisters
  have hinst : ∀ n, State.reset.inst n = Inst.init n := fun _ => rfl
  refine ⟨?_, rfl, rfl, rfl, rfl, fun f _ => ⟨rfl, rfl⟩, ?_, ?_, fun n => rfl, rfl, fun n hn => ?_, rfl, rfl⟩
  · decide +kernel
  · decide +kernel
  · decide +kernel
  · rw [hinst, Inst.init, if_neg (by omega)]

end Sys2Proof.Machine
end

section
/-! The state mirror (R418). -/

open Sys2Proof Sys2Proof.Machine

namespace Sys2Proof.Machine

/-- The mirror of the state at a headland; `skew` counts for each unit the refreshes in a row whose record differed. -/
def State.mirrored (s : State) (skew : SMap Nat) : State := { s with mirror :=
  { swn := s.glob.swn, fenced := s.fencedUnits, fieldsOn := s.power.fieldsOn
    planes := (upTo 16).map (fun f => (s.field f).activePlane), occupancy := (s.row s.swnN).cnt
    cclkStep := s.glob.cclkStep, reserve := s.liveN 0x100000, skew } }

/-- Reports of skewed units touch the fault collector alone. -/
theorem foldl_raise_only {α : Type} (n : Nat) (u : α → BitVec 16) (l : List α) (s : State) :
    ∃ f, l.foldl (fun t x => t.raise n (u x) 0 0) s = { s with faults := f } := by
  induction l generalizing s with
  | nil => exact ⟨_, rfl⟩
  | cons x l ih =>
    obtain ⟨f, hf⟩ := ih (s.raise n (u x) 0 0)
    rcases raise_cases (s := s) n (u x) 0 0 with e | ⟨_, _, e⟩
    · exact ⟨f, by rw [List.foldl_cons, hf, e]⟩
    · exact ⟨f, by rw [List.foldl_cons, hf, e]⟩

/-- A refresh writes the mirror, reports skewed units and makes its source pending. -/
theorem exec_mirrorRefresh {s : State} (hrun : s.running = true) (skew : List (BitVec 16)) : ∃ c f,
    exec (.mirrorRefresh skew) s = .next ((({ s.mirrored c with faults := f } : State).pendSrc 896).setOffset 41728) := by
  let units := (skew.map (·.toNat)).eraseDups
  let c : SMap Nat := units.foldl (fun m u => cput m u (cget s.mirror.skew u + 1)) []
  obtain ⟨f, hf⟩ := foldl_raise_only 449 (BitVec.ofNat 16) (units.filter (fun u => cget c u == 3)) (s.mirrored c)
  have h : exec (.mirrorRefresh skew) s = whenRun s (((if units.isEmpty then
        State.setCause { s.mirrored c with faults := f } 449 false
      else if units.any (fun u => decide (cget c u ≥ 3)) then State.setCause { s.mirrored c with faults := f } 449 true
      else { s.mirrored c with faults := f }).pendSrc 896).setOffset 41728) := by
    rw [← hf]; rfl
  rw [h, whenRun_of_running hrun]
  split
  · exact ⟨c, _, rfl⟩
  · split
    · exact ⟨c, _, rfl⟩
    · exact ⟨c, f, rfl⟩

/-- Settles O16. -/
theorem mirrorRefreshCopiesState : Obligations.MirrorRefreshCopiesState := by
  unfold Obligations.MirrorRefreshCopiesState
  intro s skew hrun
  obtain ⟨c, f, h⟩ := exec_mirrorRefresh hrun skew
  obtain ⟨l, hl⟩ := pendSrc_only ({ s.mirrored c with faults := f } : State) 896
  have hp : 896 ∈ l := by
    have := mem_pendSrc (s := ({ s.mirrored c with faults := f } : State)) 896 (by decide)
    rwa [hl] at this
  exact ⟨_, h, by rw [hl]; exact ⟨rfl, rfl, rfl, rfl, rfl, rfl, rfl, hp, rfl, rfl, rfl⟩⟩

end Sys2Proof.Machine
end

section
/-! The statements of interrupts and tasks: what becomes pending, claims and completions (R385–R396). -/

open Sys2Proof Sys2Proof.Machine

namespace Sys2Proof.Machine

variable {s : State}

/-! ## Events (R385–R387, R396) -/

theorem exec_intcEvent (hup : s.up = true) (n : Fin 1024) : exec (.intcEvent n) s = .next (s.pendSrc n.val) := whenUp_of_up hup _

theorem pendSrc_of_reserved {n : Nat} (h : intcReserved n = true) : s.pendSrc n = s := by simp [State.pendSrc, h]

theorem cget_cput_same {m : SMap Nat} (h : mwf (fun _ => 0) m = true) (k v : Nat) : cget (cput m k v) k = v := mget_mput_same h
theorem cget_cput_pos (m : SMap Nat) (k : Nat) {v : Nat} (h : 0 < v) : cget (cput m k v) k = v :=
  mget_mput_get k v (Nat.pos_iff_ne_zero.1 h)

theorem not_reserved_swiC (k : Fin 32) : intcReserved (960 + k.val) = false := by
  have := k.isLt; simp [intcReserved]; omega
theorem not_reserved_swiM (k : Fin 32) : intcReserved (992 + k.val) = false := by
  have := k.isLt; simp [intcReserved]; omega
theorem not_reserved_timer (t : Fin 16) : intcReserved (864 + t.val) = false := by
  have := t.isLt; simp [intcReserved]; omega
theorem not_reserved_dispatch {c p : Nat} (hc : c < 12) (hp : p < 8) : intcReserved (dispatchSrc c p) = false := by
  have h : dispatchSrc c p < 864 := by unfold dispatchSrc; omega
  simp [intcReserved, show ¬ 883 ≤ dispatchSrc c p by omega, show ¬ 904 ≤ dispatchSrc c p by omega,
    show dispatchSrc c p < 1024 by omega]

/-- Settles O34. -/
theorem interruptsPend : Obligations.InterruptsPend := by
  unfold Obligations.InterruptsPend
  refine ⟨?_, ?_, ?_, fun s k => ⟨mem_pendSrc _ (not_reserved_swiC k), mem_pendSrc _ (not_reserved_swiM k)⟩, ?_, ?_, ?_⟩
  · intro s n hup hn
    refine ⟨_, exec_intcEvent hup n, mem_pendSrc _ hn, fun m hm => pendSrc_mono _ _ hm, ?_⟩
    obtain ⟨l, hl⟩ := pendSrc_only s n.val
    rw [hl]; exact ⟨rfl, rfl, rfl⟩
  · intro s n hup hn
    rw [exec_intcEvent hup, pendSrc_of_reserved hn]
  · intro s k who hrun
    constructor
    · exact (whenRun_of_running hrun _).trans (by cases who <;> rfl)
    · exact (whenRun_of_running hrun _).trans (by cases who <;> rfl)
  · intro s t n hrun hn
    exact ⟨_, whenRun_of_running hrun _, cget_cput_pos _ _ hn, rfl, rfl, rfl⟩
  · intro s t hup ht
    refine ⟨_, whenUp_of_up hup _, ?_⟩
    rw [if_neg ht]
    refine ⟨mem_pendSrc _ (not_reserved_timer t), ?_⟩
    obtain ⟨l, hl⟩ := pendSrc_only ({ s with intc := { s.intc with timers := cput s.intc.timers t.val 0 } } : State) (864 + t.val)
    rw [hl]; exact ⟨rfl, rfl⟩
  · intro s t hup ht
    exact (whenUp_of_up hup _).trans (by rw [if_pos ht])

/-! ## The best source of a target (R389) -/

/-- Source `n` stands before source `m`: a higher PRIO, or the same and a lower number. -/
def State.outranks (s : State) (n m : Nat) : Prop := s.srcPrio m < s.srcPrio n ∨ (s.srcPrio m = s.srcPrio n ∧ n ≤ m)

theorem outranks_refl (n : Nat) : s.outranks n n := .inr ⟨rfl, le_refl n⟩
theorem outranks_trans {a b c : Nat} (h : s.outranks a b) (h' : s.outranks b c) : s.outranks a c := by
  unfold State.outranks at *; omega

/-- One source is looked at: the better of it and the best so far stays. -/
def State.bestSoFar (s : State) (t : Nat) (b : Option Nat) (n : Nat) : Option Nat :=
  if !s.eligible n t then b else
  match b with
  | none => some n
  | some m => if s.srcPrio n > s.srcPrio m || (s.srcPrio n == s.srcPrio m && decide (n < m)) then some n else some m

theorem best_eq (t : Nat) : s.best t = s.intc.pend.foldl (s.bestSoFar t) none := rfl

/-- `b` is the best of the sources of `l` that are eligible at `t`. -/
def State.bestOf (s : State) (t : Nat) (l : List Nat) (b : Option Nat) : Prop :=
  (∀ n, b = some n → s.eligible n t = true ∧ ∀ m ∈ l, s.eligible m t = true → s.outranks n m) ∧
  (b = none → ∀ m ∈ l, s.eligible m t = false)

theorem bestOf_bestSoFar {t n : Nat} {l : List Nat} {b : Option Nat} (h : s.bestOf t l b) :
    s.bestOf t (l ++ [n]) (s.bestSoFar t b n) := by
  obtain ⟨hsome, hnone⟩ := h
  have hmem : ∀ {m : Nat}, m ∈ l ++ [n] → m ∈ l ∨ m = n := by simp
  unfold State.bestSoFar
  cases he : s.eligible n t with
  | false =>
    refine ⟨fun k hk => ⟨(hsome k hk).1, fun m hm hme => ?_⟩, fun hb m hm => ?_⟩
    · rcases hmem hm with hm | rfl
      · exact (hsome k hk).2 m hm hme
      · simp [he] at hme
    · rcases hmem hm with hm | rfl
      · exact hnone hb m hm
      · exact he
  | true =>
    cases b with
    | none =>
      refine ⟨fun k hk => ?_, fun hb => by simp at hb⟩
      obtain rfl : n = k := by simpa using hk
      refine ⟨he, fun m hm hme => ?_⟩
      rcases hmem hm with hm | rfl
      · simp [hnone rfl m hm] at hme
      · exact outranks_refl _
    | some c =>
      obtain ⟨hc, hbest⟩ := hsome c rfl
      simp only [Bool.not_true, Bool.false_eq_true, if_false]
      split
      · rename_i hn
        refine ⟨fun k hk => ?_, fun hb => by simp at hb⟩
        obtain rfl : n = k := by simpa using hk
        have hnc : s.outranks n c := by
          simp only [Bool.or_eq_true, decide_eq_true_eq, Bool.and_eq_true, beq_iff_eq] at hn
          unfold State.outranks; omega
        refine ⟨he, fun m hm hme => ?_⟩
        rcases hmem hm with hm | rfl
        · exact outranks_trans hnc (hbest m hm hme)
        · exact outranks_refl _
      · rename_i hn
        refine ⟨fun k hk => ?_, fun hb => by simp at hb⟩
        obtain rfl : c = k := by simpa using hk
        have hcn : s.outranks c n := by
          simp only [Bool.or_eq_true, decide_eq_true_eq, Bool.and_eq_true, beq_iff_eq] at hn
          unfold State.outranks; omega
        refine ⟨hc, fun m hm hme => ?_⟩
        rcases hmem hm with hm | rfl
        · exact hbest m hm hme
        · exact hcn

theorem bestOf_foldl {t : Nat} (l : List Nat) : ∀ {l' : List Nat} {b : Option Nat}, s.bestOf t l' b →
    s.bestOf t (l' ++ l) (l.foldl (s.bestSoFar t) b) := by
  induction l with
  | nil => intro l' b h; simpa using h
  | cons n l ih =>
    intro l' b h
    have := ih (bestOf_bestSoFar (n := n) h)
    rwa [List.append_assoc, List.singleton_append] at this

theorem bestOf_best (s : State) (t : Nat) : s.bestOf t s.intc.pend (s.best t) := by
  have h : s.bestOf t [] none := ⟨by simp, by simp⟩
  have := bestOf_foldl s.intc.pend h
  rwa [List.nil_append, ← best_eq] at this

theorem pending_of_eligible {n t : Nat} (h : s.eligible n t = true) : n ∈ s.intc.pend := by
  simp only [State.eligible, Bool.and_eq_true, List.contains_iff_mem] at h
  exact h.1.1.1.1

theorem best_none_iff (s : State) (t : Nat) : s.best t = none ↔ ∀ n, s.eligible n t = false := by
  obtain ⟨hsome, hnone⟩ := bestOf_best s t
  constructor
  · intro h n
    by_contra hn
    rw [Bool.not_eq_false] at hn
    simp [hnone h n (pending_of_eligible hn)] at hn
  · intro h
    cases hb : s.best t with
    | none => rfl
    | some n => simpa [h n] using (hsome n hb).1

/-! ## Claims (R389–R392) -/

/-- A task that starts changes the scheduler alone. -/
theorem startTask_only (s : State) (n : Nat) : ∃ k, s.startTask n = { s with tasks := k } := by
  unfold State.startTask
  split
  · dsimp only
    split
    · exact ⟨_, rfl⟩
    · exact ⟨_, rfl⟩
  · exact ⟨_, rfl⟩

theorem exec_claim (hup : s.up = true) {who : Requester} {t : Fin 16} (hwho : isCore who t.val = true) :
    exec (.claim who t) s = .next (s.claimAt t.val) :=
  (whenUp_of_up hup _).trans (by rw [if_pos hwho])

/-- A claim takes the best source out of PENDING, pushes it, makes it ACTIVE and answers it. -/
theorem claimAt_some {t n : Nat} (h : s.best t = some n) : ∃ f k a,
    s.claimAt t = { s with
      faults := f, tasks := k, resp := .word (BitVec.ofNat 32 (2 ^ 31 + s.srcPrio n * 2 ^ 16 + n)),
      intc := { s.intc with
        pend := s.intc.pend.filter (· != n), assigned := cput s.intc.assigned n 0,
        stk := mput (fun _ => []) s.intc.stk t ((n, s.srcPrio n) :: s.stack t),
        active := cput s.intc.active n (t + 1), last := cput s.intc.last n (t + 1), claims := a } } := by
  obtain ⟨l, c, hu⟩ := uses_only (s := s) [0xA00000 + 4 * n, 0xA01000 + 4 * n, targetCtlA t]
  unfold State.claimAt
  rw [h]
  dsimp only
  rw [hu]
  obtain ⟨k, hk⟩ := startTask_only { s with
      faults := { s.faults with reports := s.faults.reports ++ l, live := c }
      intc := { s.intc with
        pend := s.intc.pend.filter (· != n), assigned := cput s.intc.assigned n 0,
        stk := mput (fun _ => []) s.intc.stk t ((n, s.srcPrio n) :: s.stack t),
        active := cput s.intc.active n (t + 1), last := cput s.intc.last n (t + 1),
        claims := cput s.intc.claims t (satInc 32 (cget s.intc.claims t)) } } n
  exact ⟨_, k, _, congrArg (fun u => State.setResp u _) hk⟩

theorem exec_complete_other {who : Requester} {t : Fin 16} (hwho : isCore who t.val = false) (src : BitVec 10) :
    exec (.complete who t src) s = .next s := by
  refine (whenRun_next _).trans ?_
  rw [hwho]; simp

/-- Settles O35. -/
theorem claimTakesHighestPriority : Obligations.ClaimTakesHighestPriority := by
  unfold Obligations.ClaimTakesHighestPriority
  refine ⟨fun s t n h => ?_, best_none_iff, fun s who t n hup hwho hbest => ?_, fun s who t hup hwho hbest => ?_,
    fun s who t hup hwho => ?_, fun s who t src hwho => exec_complete_other hwho src⟩
  · obtain ⟨he, hout⟩ := (bestOf_best s t).1 n h
    exact ⟨he, fun m hm => hout m (pending_of_eligible hm) hm⟩
  · obtain ⟨f, k, a, h⟩ := claimAt_some hbest
    refine ⟨_, exec_claim hup hwho, ?_⟩
    rw [h]
    have hstk : mget (fun _ => []) (mput (fun _ => []) s.intc.stk t.val ((n, s.srcPrio n) :: s.stack t.val)) t.val =
        (n, s.srcPrio n) :: s.stack t.val := mget_mput_get t.val _ (by simp)
    exact ⟨rfl, cget_cput_pos _ _ (Nat.succ_pos _), hstk, by simp, rfl, rfl⟩
  · rw [exec_claim hup hwho, State.claimAt, hbest]
  · exact (whenUp_of_up hup _).trans (by rw [if_neg (by simp [hwho])])

/-! ## Completions (R391) and reassignment (R388) -/

/-- A task that becomes READY changes the scheduler, and the collector with the check of its word. -/
theorem makeReady_only (s : State) (t : Nat) : ∃ f k, s.makeReady t = { s with faults := f, tasks := k } := by
  unfold State.makeReady
  obtain ⟨l, c, hu⟩ := uses_only (s := s) [tdA t + 8]
  rw [hu]
  dsimp only
  split
  · exact ⟨_, _, rfl⟩
  · exact ⟨_, _, rfl⟩

/-- So does the end of a task. -/
theorem endTask_only (s : State) (n : Nat) : ∃ f k, s.endTask n = { s with faults := f, tasks := k } := by
  unfold State.endTask
  split
  · dsimp only
    split
    · exact ⟨_, _, rfl⟩
    · rename_i t rest _
      obtain ⟨l, c, hu⟩ := uses_only (s := s) [tdA t + 4, tdA t + 0x18, tdA t + 0x1C]
      rw [hu]
      split
      · split
        · obtain ⟨f, k, h⟩ := makeReady_only (State.setTd _ t _) t
          exact ⟨f, k, h⟩
        · exact ⟨_, _, rfl⟩
      · exact ⟨_, _, rfl⟩
  · exact ⟨_, _, rfl⟩

theorem completeAt_cons {t n p : Nat} {rest : List (Nat × Nat)} (h : s.stack t = (n, p) :: rest) : ∃ f k,
    s.completeAt t = { s with
      faults := f, tasks := k,
      intc := { s.intc with stk := mput (fun _ => []) s.intc.stk t rest, active := cput s.intc.active n 0 } } := by
  unfold State.completeAt
  rw [h]
  exact endTask_only _ n

/-- A target that `nextTarget` names is eligible, and one exists when any of the sixteen is. -/
theorem nextTarget_some {n t : Nat} (h : s.nextTarget n = some t) : s.eligible n t = true := by
  simpa using List.find?_some h
theorem nextTarget_none {n : Nat} (h : s.nextTarget n = none) {k : Nat} (hk : k < 16) : s.eligible n k = false := by
  have hall := List.find?_eq_none.1 h
  have hmem : k ∈ (upTo 16).map (fun i => (cget s.intc.last n + i) % 16) :=
    List.mem_map.2 ⟨(k + 16 - cget s.intc.last n % 16) % 16, by simp [upTo]; omega, by omega⟩
  simpa using hall k hmem

/-- Settles O36. -/
theorem completePopsTheStack : Obligations.CompletePopsTheStack := by
  unfold Obligations.CompletePopsTheStack
  refine ⟨fun s who t src n p rest hrun hwho hstk hwstk hwact => ?_, fun s who t src _ hwho => exec_complete_other hwho src,
    fun s n hup hwf => ?_⟩
  · obtain ⟨f, k, h⟩ := completeAt_cons hstk
    refine ⟨_, whenRun_of_running hrun _, ?_⟩
    rw [if_pos hwho, h]
    exact ⟨mget_mput_same hwstk, cget_cput_same hwact n 0, rfl, rfl, rfl⟩
  · refine ⟨_, whenUp_of_up hup _, ?_⟩
    unfold State.assign
    dsimp only
    split
    · rename_i hkeep
      exact ⟨fun _ => hkeep.2, fun h0 => absurd h0 hkeep.1, rfl, rfl, rfl, rfl⟩
    · cases hnext : s.nextTarget n.val with
      | none =>
        refine ⟨fun h => absurd (cget_cput_same hwf n.val 0) h, fun _ k hk => nextTarget_none hnext hk, rfl, rfl, rfl, rfl⟩
      | some t =>
        have hget : cget (cput s.intc.assigned n.val (t + 1)) n.val = t + 1 := cget_cput_same hwf n.val (t + 1)
        refine ⟨fun _ => ?_, fun h0 => ?_, rfl, rfl, rfl, rfl⟩
        · simp only [hget, Nat.add_sub_cancel]; exact nextTarget_some hnext
        · simp only [hget] at h0; omega

end Sys2Proof.Machine
end

section
/-! The task scheduler: its inlet, its offers and their withdrawal (R398–R404). -/

open Sys2Proof Sys2Proof.Machine

namespace Sys2Proof.Machine

variable {s : State}

/-! ## The inlet (R403, R404) -/

theorem taskPush_room {who : Requester} {e : TEvent} (hlen : s.tasks.inlet.length < 256) (hst : s.tasks.stalled = []) :
    s.taskPush who e = { s with tasks := { s.tasks with inlet := s.tasks.inlet ++ [e] } } := by
  simp [State.taskPush, hlen, hst]
theorem taskPush_full {who : Requester} {e : TEvent} (h : 256 ≤ s.tasks.inlet.length ∨ s.tasks.stalled ≠ []) :
    s.taskPush who e = { s with tasks := { s.tasks with
      stalled := s.tasks.stalled ++ [(producerIx who, e)], stalls := satInc 32 s.tasks.stalls } } := by
  unfold State.taskPush
  rw [if_neg]
  rcases h with h | h
  · simp [Nat.not_lt.2 h]
  · simp [h]

/-- Settles O37: the three commands push their event, where their producer may. -/
theorem taskWritesJoinTheInlet : Obligations.TaskWritesJoinTheInlet := by
  unfold Obligations.TaskWritesJoinTheInlet
  intro s c who e hrun hc
  have hexec : exec c s = .next (if mayTask who then s.taskPush who e else s) := by
    rcases hc with ⟨k, n, rfl, rfl⟩ | ⟨k, rfl, rfl⟩ | ⟨k, rfl, rfl⟩ <;> exact whenRun_of_running hrun _
  rw [hexec]
  exact ⟨fun hmay hlen hst => by rw [if_pos hmay, taskPush_room hlen hst], fun hmay hfull => by rw [if_pos hmay, taskPush_full hfull],
    fun hmay => by rw [if_neg (by simp [hmay])]⟩

/-! ## An event leaves the inlet (R398, R403) -/

theorem td_setTd {t : Nat} {x : Td} (h : x ≠ Td.init) : (s.setTd t x).td t = x := mget_mput_get t x h
theorem readyList_setList_append (s : State) (p t : Nat) (l : List Nat) : (s.setList p (l ++ [t])).readyList p = l ++ [t] :=
  mget_mput_get p (l ++ [t]) (by simp)

/-- The scheduler has taken the event at the head of its inlet. -/
def State.eventTaken (s : State) (es : List TEvent) : State :=
  { s with tasks := { s.tasks with inlet := es, events := s.tasks.events + 1 } }

/-- With no successor, buffer or stalled producer the oldest event of the inlet is applied. -/
theorem takeEvent_inlet {e : TEvent} {es : List TEvent} (hsucc : s.tasks.succ = []) (hadm : s.tasks.admBuf = [])
    (hst : s.tasks.stalled = []) (hin : s.tasks.inlet = e :: es) : s.takeEvent = (s.eventTaken es).applyEvent e := by
  unfold State.takeEvent
  rw [hsucc, hin]
  simp [State.taskFill, State.eventTaken, Tasks.fill, hadm, hst]

theorem taskEvent_more {t : Nat} (hstate : (s.td t).state = 1) (hcount : 1 < (s.td t).count) :
    s.taskEvent t = s.setTd t { s.td t with count := (s.td t).count - 1 } := by
  simp [State.taskEvent, hstate, hcount]
theorem taskEvent_last {t : Nat} (hstate : (s.td t).state = 1) (hcount : (s.td t).count = 1) : s.taskEvent t = s.makeReady t := by
  simp [State.taskEvent, hstate, hcount]

theorem uses_tasks (as : List Nat) : (s.uses as).tasks = s.tasks := by
  obtain ⟨l, c, h⟩ := uses_only (s := s) as
  rw [h]

/-- A task with room on its list becomes READY at the list's end. -/
theorem makeReady_room {t : Nat} (h : (s.readyList (s.tdPrio t)).length < 1024) : ∃ f,
    s.makeReady t = { (s.setTd t { s.td t with state := 2, count := 0, deferred := false }).setList (s.tdPrio t)
      (s.readyList (s.tdPrio t) ++ [t]) with faults := f } := by
  obtain ⟨l, c, hu⟩ := uses_only (s := s) [tdA t + 8]
  unfold State.makeReady
  rw [hu]
  exact ⟨_, if_pos h⟩

/-! ## Offers (R400) -/

/-- The task and core of a pick: the task stands among the first sixteen of its list, may run on the core, and the core can take it. -/
theorem pick_some {p t c : Nat} (h : s.pick p = some (t, c)) :
    t ∈ (s.readyList p).take 16 ∧ bit (s.tdTarget t) c = true ∧ s.canTake c p = true ∧ c < 12 := by
  obtain ⟨u, hu, hf⟩ := List.exists_of_findSome?_eq_some h
  obtain ⟨d, hd, he⟩ := Option.map_eq_some_iff.1 hf
  obtain ⟨rfl, rfl⟩ := Prod.mk.inj he
  have hpred := List.find?_some hd
  have hmem := List.mem_of_find?_eq_some hd
  simp only [Bool.and_eq_true] at hpred
  refine ⟨hu, hpred.1, hpred.2, ?_⟩
  obtain ⟨i, _, rfl⟩ := List.mem_map.1 hmem
  exact Nat.mod_lt _ (by decide)

/-- The best offer is a pick, and no pick stands above it. -/
theorem bestOffer_some {n p t c : Nat} (h : s.bestOffer n = some (p, t, c)) :
    p < n ∧ s.pick p = some (t, c) ∧ ∀ q, p < q → q < n → s.pick q = none := by
  induction n with
  | zero => simp [State.bestOffer] at h
  | succ n ih =>
    unfold State.bestOffer at h
    cases hp : s.pick n with
    | some e =>
      rw [hp] at h
      simp only [Option.some.injEq, Prod.mk.injEq] at h
      obtain ⟨rfl, rfl, rfl⟩ := h
      exact ⟨Nat.lt_succ_self _, hp, fun q hq hq' => by omega⟩
    | none =>
      rw [hp] at h
      obtain ⟨hlt, hpick, hnone⟩ := ih h
      refine ⟨by omega, hpick, fun q hq hq' => ?_⟩
      by_cases hqn : q = n
      · rw [hqn]; exact hp
      · exact hnone q hq (by omega)

/-- The freed place of a list goes to a deferred task: lists and task states change, and nothing else. -/
theorem refill_only (s : State) (p : Nat) : ∃ d l, s.refill p = { s with tasks := { s.tasks with tds := d, lists := l } } := by
  unfold State.refill
  split
  · exact ⟨_, _, rfl⟩
  · split
    · exact ⟨_, _, rfl⟩
    · exact ⟨_, _, rfl⟩

theorem takeBack_none {c : Nat} (h : s.offer? c = none) : s.takeBack c = s := by simp [State.takeBack, h]

theorem offer?_some {c t p : Nat} (h : mget (fun _ => (0, 0)) s.tasks.offers c = (t + 1, p)) : s.offer? c = some (t, p) := by
  unfold State.offer?; rw [h]
theorem offer?_none {c : Nat} (h : mget (fun _ => (0, 0)) s.tasks.offers c = (0, 0)) : s.offer? c = none := by
  unfold State.offer?; rw [h]

/-- The offer of task `t` from list `p` stands at core `c`. -/
def State.offered (s : State) (p t c : Nat) : State :=
  { s.setList p ((s.readyList p).filter (· != t)) with tasks := { (s.setList p ((s.readyList p).filter (· != t))).tasks with
    offers := mput (fun _ => (0, 0)) s.tasks.offers c (t + 1, p), rr := (c + 1) % 12 } }

/-- An offer to a core without one stands there, with its source pending; reports, lists and task states apart, nothing else moves. -/
theorem makeOffer_new {p t c : Nat} (h : s.offer? c = none) : ∃ f d l r, s.makeOffer p t c = ({ s with
    faults := f
    tasks := { s.tasks with tds := d, lists := l, offers := mput (fun _ => (0, 0)) s.tasks.offers c (t + 1, p), rr := r } } :
      State).pendSrc (dispatchSrc c p) := by
  have hfree : ∀ as, (s.uses as).offer? c = none := fun as => by rw [State.offer?, uses_tasks]; exact h
  have hmake : s.makeOffer p t c = (((s.uses [tdA t + 8, 0xA80100 + 0x10 * c, targetCtlA c]).offered p t c).refill p).pendSrc
      (dispatchSrc c p) := by
    unfold State.makeOffer
    dsimp only
    rw [takeBack_none (hfree _)]
    rfl
  obtain ⟨d, l, hr⟩ := refill_only ((s.uses [tdA t + 8, 0xA80100 + 0x10 * c, targetCtlA c]).offered p t c) p
  obtain ⟨rs, cs, hu⟩ := uses_only (s := s) [tdA t + 8, 0xA80100 + 0x10 * c, targetCtlA c]
  rw [hmake, hr, hu]
  exact ⟨_, d, l, _, rfl⟩

/-- What TASK_OFFER does first at each core: an offer at a core no longer open is withdrawn. -/
def State.withdrawClosed (s : State) (c : Nat) : State :=
  match s.offer? c with
  | some (_, p) => if s.openTo c p then s else s.withdraw c
  | none => s
theorem withdrawClosed_none {c : Nat} (h : s.offer? c = none) : s.withdrawClosed c = s := by simp [State.withdrawClosed, h]
/-- Without an offer anywhere none is withdrawn. -/
theorem withdrawClosed_free (l : List Nat) (h : ∀ c ∈ l, s.offer? c = none) : l.foldl State.withdrawClosed s = s := by
  induction l with
  | nil => rfl
  | cons c l ih =>
    rw [List.foldl_cons, withdrawClosed_none (h c List.mem_cons_self)]
    exact ih fun d hd => h d (List.mem_cons_of_mem _ hd)

theorem exec_taskOffer_best (hrun : s.running = true) (hfree : ∀ i, i < 12 → s.offer? i = none) {p t c : Nat}
    (hbest : s.bestOffer 8 = some (p, t, c)) : exec .taskOffer s = .next (s.makeOffer p t c) := by
  have hkept : (upTo 12).foldl State.withdrawClosed s = s := withdrawClosed_free _ fun c hc => hfree c (by simpa [upTo] using hc)
  change execTaskOffer s = _
  unfold execTaskOffer
  generalize hu : List.foldl _ s (upTo 12) = u
  obtain rfl : u = s := hu.symm.trans hkept
  dsimp only
  rw [hbest]
  exact whenRun_of_running hrun _

/-- The task of a withdrawn offer goes back to the head of its list, and the withdrawal counts. -/
def State.withdrawn (s : State) (c k p : Nat) : State :=
  { s with
    intc := { s.intc with pend := s.intc.pend.filter (· != dispatchSrc c p), assigned := cput s.intc.assigned (dispatchSrc c p) 0 }
    tasks := { s.tasks with
      tds := mput (fun _ => Td.init) s.tasks.tds k { s.td k with state := 2, core := 0 }
      offers := mput (fun _ => (0, 0)) s.tasks.offers c (0, 0)
      lists := mput (fun _ => []) s.tasks.lists (s.tdPrio k) (k :: s.readyList (s.tdPrio k))
      offerTo := satInc 32 s.tasks.offerTo } }
theorem requeue_eq (s : State) (k : Nat) : s.requeue k = { s with tasks := { s.tasks with
    tds := mput (fun _ => Td.init) s.tasks.tds k { s.td k with state := 2, core := 0 }
    lists := mput (fun _ => []) s.tasks.lists (s.tdPrio k) (k :: s.readyList (s.tdPrio k)) } } := rfl
theorem withdraw_some {c k p : Nat} (h : s.offer? c = some (k, p)) : s.withdraw c = s.withdrawn c k p := by
  have hprio : ((s.clearOffer c).unpend (dispatchSrc c p)).tdPrio k = s.tdPrio k := rfl
  have htd : ((s.clearOffer c).unpend (dispatchSrc c p)).td k = s.td k := rfl
  have hlist : ∀ q, ((s.clearOffer c).unpend (dispatchSrc c p)).readyList q = s.readyList q := fun _ => rfl
  simp only [State.withdraw, State.takeBack, h, requeue_eq, hprio, htd, hlist]
  rfl

theorem readyList_withdrawn (s : State) (c k p : Nat) :
    (s.withdrawn c k p).readyList (s.tdPrio k) = k :: s.readyList (s.tdPrio k) :=
  show mget (fun _ => []) (mput (fun _ => []) s.tasks.lists (s.tdPrio k) (k :: s.readyList (s.tdPrio k))) (s.tdPrio k) =
    k :: s.readyList (s.tdPrio k) from mget_mput_get _ _ (by simp)
theorem withdrawn_pend (s : State) (c k p : Nat) : (s.withdrawn c k p).intc.pend = s.intc.pend.filter (· != dispatchSrc c p) := rfl
theorem withdrawn_offerTo (s : State) (c k p : Nat) : (s.withdrawn c k p).tasks.offerTo = satInc 32 s.tasks.offerTo := rfl
theorem withdrawn_offers (s : State) (c k p : Nat) :
    (s.withdrawn c k p).tasks.offers = mput (fun _ => (0, 0)) s.tasks.offers c (0, 0) := rfl

/-- An offer that times out leaves its core, and its task stands at the head of its list again. -/
theorem offerTimeout_withdraws {c : Fin 12} {k p : Nat} (hrun : s.running = true) (hoff : s.offer? c.val = some (k, p))
    (hwf : mwf (fun _ => (0, 0)) s.tasks.offers = true) :
    Completes (.offerTimeout c) s (fun t => t.offer? c.val = none ∧
      t.readyList (s.tdPrio k) = k :: s.readyList (s.tdPrio k) ∧ t.tasks.offerTo = satInc 32 s.tasks.offerTo ∧
      768 + 8 * c.val + p ∉ t.intc.pend ∧ t.cfg = s.cfg ∧ t.hbm = s.hbm) := by
  refine ⟨_, whenRun_of_running hrun _, ?_⟩
  rw [withdraw_some hoff]
  refine ⟨offer?_none ?_, readyList_withdrawn _ _ _ _, withdrawn_offerTo _ _ _ _, ?_, rfl, rfl⟩
  · rw [withdrawn_offers]; exact mget_mput_same hwf
  · rw [withdrawn_pend]; simp [dispatchSrc]

/-- Settles O38: events and offers act as `makeReady`, `makeOffer` and `withdraw` do. -/
theorem taskScheduling : Obligations.TaskScheduling := by
  unfold Obligations.TaskScheduling
  refine ⟨fun s k es hrun hsucc hadm hst hin hstate => ⟨fun hcount => ?_, fun hcount hroom => ?_⟩, fun s p t c h => ?_,
    fun s p t c hrun hfree hbest => ?_, fun s c k p hrun hoff hwf => ?_, fun s c hrun hoff => ?_⟩
  · have htake : s.takeEvent = (s.eventTaken es).setTd k { s.td k with count := (s.td k).count - 1 } :=
      (takeEvent_inlet hsucc hadm hst hin).trans (taskEvent_more (s := s.eventTaken es) hstate hcount)
    refine ⟨_, whenRun_of_running hrun _, ?_⟩
    rw [htake]
    refine ⟨td_setTd fun h => ?_, rfl, rfl, rfl, rfl⟩
    have : (s.td k).state = 0 := congrArg Td.state h
    omega
  · obtain ⟨f, hready⟩ := makeReady_room (s := s.eventTaken es) (t := k) hroom
    have htake : s.takeEvent = _ :=
      ((takeEvent_inlet hsucc hadm hst hin).trans (taskEvent_last (s := s.eventTaken es) hstate hcount)).trans hready
    refine ⟨_, whenRun_of_running hrun _, ?_⟩
    rw [htake]
    have htd : ∀ u : State, (u.setTd k { s.td k with state := 2, count := 0, deferred := false }).td k =
        { s.td k with state := 2, count := 0, deferred := false } := fun u => td_setTd (by simp [Td.init])
    exact ⟨congrArg Td.state (htd (s.eventTaken es)), congrArg Td.count (htd (s.eventTaken es)),
      readyList_setList_append _ _ _ _, rfl, rfl, rfl⟩
  · obtain ⟨_, hpick, hnone⟩ := bestOffer_some h
    obtain ⟨ht, hbit, hcan, _⟩ := pick_some hpick
    simp only [State.canTake, Bool.and_eq_true] at hcan
    exact ⟨hcan.1, hbit, ht, hnone⟩
  · obtain ⟨hp, hpick, _⟩ := bestOffer_some hbest
    obtain ⟨_, _, _, hc⟩ := pick_some hpick
    obtain ⟨f, d, l, r, hmake⟩ := makeOffer_new (s := s) (p := p) (t := t) (hfree c hc)
    refine ⟨_, exec_taskOffer_best hrun hfree hbest, ?_⟩
    rw [hmake]
    refine ⟨?_, mem_pendSrc _ (not_reserved_dispatch hc hp), ?_⟩
    · obtain ⟨l', hl⟩ := pendSrc_only (State.mk ..) (dispatchSrc c p)
      rw [hl]
      exact offer?_some (mget_mput_get c (t + 1, p) (by simp))
    · obtain ⟨l', hl⟩ := pendSrc_only (State.mk ..) (dispatchSrc c p)
      rw [hl]; exact ⟨rfl, rfl⟩
  · exact offerTimeout_withdraws hrun hoff hwf
  · exact (whenRun_of_running hrun _).trans (by rw [State.withdraw, hoff])

end Sys2Proof.Machine
end

section
/-! The statements of chip resets, the life cycle and the tamper fuses (R432, R438–R446, R468, Table 22.2). -/

open Sys2Proof Sys2Proof.Machine

namespace Sys2Proof.Machine

variable {s : State}

/-! ## A chip reset (R468, Table 22.2) -/

/-- How many marks a reset finds durable is drawn slot by slot. -/
theorem settledMarks_only (l : List (Nat × KSlot)) : ∀ u : State, ∃ k n,
    l.foldl (fun s e => (s.draw 32).2.marksDurable e.1 ((s.draw 32).1 % (e.2.markPend.length + 1))) u = { u with keys := k, free := n } := by
  induction l with
  | nil => exact fun u => ⟨u.keys, u.free, rfl⟩
  | cons e l ih =>
    intro u
    obtain ⟨k, hk, _⟩ := marksDurable_only (s := (u.draw 32).2) e.1 ((u.draw 32).1 % (e.2.markPend.length + 1))
    obtain ⟨k', n, h⟩ := ih ((u.draw 32).2.marksDurable e.1 ((u.draw 32).1 % (e.2.markPend.length + 1)))
    rw [List.foldl_cons, h, hk]
    exact ⟨k', n, rfl⟩

/-- What a reset finds of the waiting marks and commits concerns the key store and the counter mirror of the backup domain alone. -/
theorem settleCommits_only (s : State) : ∃ k b n, s.settleCommits = { s with keys := k, backup := b, free := n } := by
  unfold State.settleCommits
  dsimp only
  split
  · exact ⟨s.keys, s.backup, s.free, rfl⟩
  · split
    · obtain ⟨k, hk, _⟩ := allMarks_only (s := (s.draw 16).2)
      obtain ⟨k', b, h, _⟩ := durableN_only (s := (s.draw 16).2.allMarks) ((s.draw 16).1 % (s.keys.commits.length + 1))
      rw [h, hk]
      exact ⟨k', b, _, rfl⟩
    · obtain ⟨k, n, h⟩ := settledMarks_only (s.keys.slots.filter (fun e => !e.2.markPend.isEmpty)) (s.draw 16).2
      rw [h]
      exact ⟨k, _, n, rfl⟩

/-- A chip reset of a device that is not in PS4 leaves what Table 22.2 says, with its cause. -/
theorem chipReset_after (hps4 : s.power.ps4Ready = false) (c : BitVec 7) :
    AfterChipReset s (s.chipReset c) ∧ (s.chipReset c).start.cause = c ∧ (s.chipReset c).faults.cause = s.faults.cause := by
  obtain ⟨k, b, n, h⟩ := settleCommits_only s
  unfold State.chipReset
  rw [h]
  dsimp only
  have hps4' : (if s.power.ps4Ready = true then c ||| causePs4 else c) = c := by simp [hps4]
  have hhbm : (if s.power.ps4Ready = true then [] else s.hbm.filter (fun e => !isLedger e.1)) = s.hbm.filter (fun e => !isLedger e.1) := by
    simp [hps4]
  refine ⟨⟨⟨rfl, rfl, rfl⟩, rfl, rfl, ⟨rfl, rfl, rfl, rfl, rfl, rfl⟩, rfl, ⟨rfl, rfl⟩, fun a ha => ⟨?_, rfl⟩, hhbm, rfl, ⟨rfl, rfl, rfl⟩,
    ⟨rfl, rfl⟩, ⟨rfl, rfl, rfl, rfl⟩⟩, hps4', rfl⟩
  exact mget_unlisted (by simp [ha])

theorem up_ps4 (h : s.up = true) : s.power.ps4Ready = false := by
  simp only [State.up, Bool.and_eq_true, Bool.not_eq_true'] at h
  exact h.2

/-- A request that is no request of the PF or a management core for KIND 1 under the key resets nothing. -/
theorem resetWrite_none {who : Requester} {key kind : Nat} (h : key ≠ 0x5EED ∨ kind ≠ 1 ∨ ∃ m, who = .vf m) :
    s.resetWrite who key kind = s := by
  unfold State.resetWrite
  rw [if_neg]
  rcases h with h | h | ⟨m, rfl⟩
  · simp [h]
  · simp [h]
  · simp

theorem resetWrite_request {who : Requester} (hup : s.up = true) (hwho : who = .pf ∨ ∃ c, who = .cm c) :
    s.resetWrite who 0x5EED 1 = s.chipReset causeRequest := by
  have h := hup
  simp only [State.up, Bool.and_eq_true, Bool.not_eq_true'] at h
  unfold State.resetWrite
  rw [if_pos]
  rcases hwho with rfl | ⟨c, rfl⟩ <;> simp [h]

/-- PERST_N low holds the device in reset. -/
def State.heldInReset (s : State) : State := { s with start := { s.start with perstLow := true } }

/-- Settles O47. -/
theorem chipResetClears : Obligations.ChipResetClears := by
  unfold Obligations.ChipResetClears
  refine ⟨fun s who hup hwho => ⟨_, congrArg Host.Outcome.next (resetWrite_request hup hwho), ?_⟩, fun s who k n h => ?_,
    fun s hup hps4 => ?_, fun s hdown => ?_⟩
  · exact chipReset_after (up_ps4 hup) _
  · refine congrArg Host.Outcome.next (resetWrite_none ?_)
    rcases h with h | h | h
    · exact .inl fun e => h (BitVec.eq_of_toNat_eq e)
    · exact .inr (.inl fun e => h (BitVec.eq_of_toNat_eq e))
    · exact .inr (.inr h)
  · obtain ⟨⟨⟨hup', hphase, hboot⟩, hswath, hpower, hwork, hinst, hkeys, hregs, hhbm, hhost, hlife, hfuses, hcoll⟩, hcause, _⟩ :=
      chipReset_after hps4 causePerst
    exact ⟨(s.chipReset causePerst).heldInReset, congrArg Host.Outcome.next (congrArg State.heldInReset (if_pos hup)),
      ⟨⟨hup', hphase, hboot⟩, hswath, hpower, hwork, hinst, hkeys, hregs, hhbm, hhost, hlife, hfuses, hcoll⟩, hcause, rfl⟩
  · exact congrArg Host.Outcome.next (congrArg State.heldInReset (if_neg (by simp [hdown])))

/-! ## The tamper fuses (R432) -/

theorem exec_fuseReq (hrun : s.running = true) (who : Requester) (key src : BitVec 16) (agree : Bool) :
    exec (.fuseReq who key src agree) s = .next (s.fuseWrite who key.toNat src agree) := whenRun_of_running hrun _

theorem fuseWrite_of_key {who : Requester} {key : Nat} (h : key ≠ 0xF05E) (src : BitVec 16) (agree : Bool) :
    s.fuseWrite who key src agree = s := by simp [State.fuseWrite, h]
theorem fuseWrite_closed {who : Requester} (hc : s.life.closed = true) (key : Nat) (src : BitVec 16) :
    s.fuseWrite who key src true = s := by simp [State.fuseWrite, hc]

theorem eff_chipReset (s : State) (c : BitVec 7) : (s.chipReset c).tamper.eff = s.tamper.blown := by
  obtain ⟨k, b, n, h⟩ := settleCommits_only s
  unfold State.chipReset
  rw [h]

theorem regAt_fusePend : ∃ r, regAt 0xB80010 = some (r, 0, 0) ∧ r.id = .fusePend ∧ r.known = 0xFFFF := ⟨_, rfl, rfl, rfl⟩

/-- FUSE_PEND shows the blown bits. -/
theorem readReg_fusePend (s : State) : s.readReg .pf 0xB80010 = s.tamper.blown.setWidth 32 := by
  obtain ⟨r, hr, hid, hknown⟩ := regAt_fusePend
  have hval : s.readReg .pf 0xB80010 = BitVec.ofNat 32 (s.tamper.blown.toNat &&& 0xFFFF) := by
    unfold State.readReg reachMask
    rw [hr, ← hknown]
    dsimp only
    rw [hid]
    rfl
  have hmod : s.tamper.blown.toNat &&& 0xFFFF = s.tamper.blown.toNat :=
    (Nat.and_two_pow_sub_one_eq_mod _ 16).trans (Nat.mod_eq_of_lt s.tamper.blown.isLt)
  rw [hval, hmod, BitVec.ofNat_toNat]

/-- Settles O52. -/
theorem fuseRequestBlowsFuses : Obligations.FuseRequestBlowsFuses := by
  unfold Obligations.FuseRequestBlowsFuses
  refine ⟨fun s who src hrun hpf hopen => ?_, fun s src c => ⟨readReg_fusePend _, rfl, eff_chipReset _ c⟩, fun s who k src agree hrun hk => ?_,
    fun s who src hrun hclosed => ?_, fun s who src hrun hpf => ?_⟩
  · exact (exec_fuseReq hrun _ _ _ _).trans (by simp [State.fuseWrite, hpf, hopen])
  · exact (exec_fuseReq hrun _ _ _ _).trans (congrArg _ (fuseWrite_of_key (fun e => hk (BitVec.eq_of_toNat_eq e)) _ _))
  · exact (exec_fuseReq hrun _ _ _ _).trans (congrArg _ (fuseWrite_closed hclosed _ _))
  · exact (exec_fuseReq hrun _ _ _ _).trans (by simp [State.fuseWrite, hpf])

/-! ## The life cycle (R438–R445, Tables 20.2, 20.3) -/

theorem exec_lcClose (hrun : s.running = true) (who : Requester) (agree : Bool) :
    exec (.lcClose who agree) s = .next (s.closeReq who agree) := whenRun_of_running hrun _
theorem exec_lcOpen (hrun : s.running = true) (who : Requester) (agree : Bool) :
    exec (.lcOpen who agree) s = .next (s.openReq who agree) := whenRun_of_running hrun _
theorem exec_finalReq (hrun : s.running = true) (who : Requester) (key : BitVec 16) (blow agree : Bool) :
    exec (.finalReq who key blow agree) s = .next (s.finalReq who key.toNat blow agree) := whenRun_of_running hrun _

/-- A journal write concerns the journal's slots, its mark and its sequence number, and source 901. -/
theorem writeMark_only (s : State) (m t : Nat) : ∃ a b i, s.writeMark m t = { s with
    life := { s.life with slotA := a, slotB := b, mark := m, seq := s.life.seq + 1 }, intc := i } ∧ 901 ∈ i.pend := by
  have hmem : 901 ∈ (s.writeMark m t).intc.pend := mem_pendSrc _ rfl
  obtain ⟨l, h⟩ := pendSrc_only (s.modLife (fun l => { l with
    slotA := if s.life.slotA.valid && s.life.slotA.seq == s.life.seq then l.slotA else { valid := true, seq := s.life.seq + 1, mark := m, target := t }
    slotB := if s.life.slotA.valid && s.life.slotA.seq == s.life.seq then { valid := true, seq := s.life.seq + 1, mark := m, target := t } else l.slotB
    mark := m, seq := s.life.seq + 1 })) 901
  have hw : s.writeMark m t = _ := h
  rw [hw] at hmem ⊢
  exact ⟨_, _, _, rfl, hmem⟩

/-- A doubled check whose takings disagree counts its mismatch; the alarm concerns the backup domain and the collector's inputs. -/
theorem mismatch_only (s : State) (k : Nat) : ∃ b f, s.mismatch k = { s with
    tamper := { s.tamper with mismatch := cput s.tamper.mismatch k (satInc 32 (cget s.tamper.mismatch k)) }, backup := b, faults := f } := by
  unfold State.mismatch State.alarm
  dsimp only
  split
  · obtain ⟨x, hl⟩ := latchTamper_only (s := { s with tamper := { s.tamper with
      mismatch := cput s.tamper.mismatch k (satInc 32 (cget s.tamper.mismatch k)) } }) 10 true true
    rw [hl]
    rcases raise_cases (s := { s with tamper := { s.tamper with
      mismatch := cput s.tamper.mismatch k (satInc 32 (cget s.tamper.mismatch k)) }, backup := x }) (480 + 10) 0 0 0 with e | ⟨_, _, e⟩ <;>
      exact ⟨_, _, e⟩
  · exact ⟨_, _, rfl⟩

theorem closeReq_barred {who : Requester} (h : mayLife who = false ∨ s.life.mark ≠ 0) (agree : Bool) : s.closeReq who agree = s := by
  rcases h with h | h <;> simp [State.closeReq, h]
theorem openReq_barred {who : Requester} (h : mayLife who = false ∨ s.life.mark ≠ 0) (agree : Bool) : s.openReq who agree = s := by
  rcases h with h | h <;> simp [State.openReq, h]

/-- Closing a device that is Open ends debug access and writes the marks of a transition that is done at once. -/
theorem closeReq_open {who : Requester} (hwho : mayLife who = true) (hmark : s.life.mark = 0) (hopen : s.life.closed = false) :
    s.closeReq who true = (({ s with
      life := { s.life with result := 1, closed := true, session := false }
      ctrl := { s.ctrl with dbgHalted := [] } } : State).writeMark 1 1).writeMark 0 1 := by
  simp [State.closeReq, hwho, hmark, hopen, State.modLife, State.endDebug]

theorem lcClose_closes {who : Requester} (hrun : s.running = true) (hwho : mayLife who = true) (hmark : s.life.mark = 0)
    (hopen : s.life.closed = false) :
    Completes (.lcClose who true) s (fun t => t.life.closed = true ∧ t.life.result = 1 ∧ t.life.mark = 0 ∧
      t.life.seq = s.life.seq + 2 ∧ t.life.session = false ∧ t.ctrl.dbgHalted = [] ∧ 901 ∈ t.intc.pend ∧
      t.life.final = s.life.final ∧ t.keys = s.keys ∧ t.cfg = s.cfg ∧ t.hbm = s.hbm) := by
  refine ⟨_, (exec_lcClose hrun _ _).trans (congrArg _ (closeReq_open hwho hmark hopen)), ?_⟩
  obtain ⟨a, b, i, h, _⟩ := writeMark_only { s with
      life := { s.life with result := 1, closed := true, session := false }
      ctrl := { s.ctrl with dbgHalted := [] } } 1 1
  rw [h]
  obtain ⟨a', b', i', h', hmem⟩ := writeMark_only { s with
      life := { s.life with result := 1, closed := true, session := false, slotA := a, slotB := b, mark := 1, seq := s.life.seq + 1 }
      ctrl := { s.ctrl with dbgHalted := [] }, intc := i } 0 1
  rw [h']
  have hseq : s.life.seq + 1 + 1 = s.life.seq + 2 := by bv_omega
  exact ⟨rfl, rfl, rfl, hseq, rfl, rfl, hmem, rfl, rfl, rfl, rfl⟩

/-- Opening a Closed device writes OPENING and takes a chip reset (R440). -/
theorem openReq_opens {who : Requester} (hwho : mayLife who = true) (hmark : s.life.mark = 0) (hclosed : s.life.closed = true)
    (hfinal : s.life.final = false) :
    s.openReq who true = ((s.modLife (fun l => { l with result := 1 })).writeMark 2 2).chipReset causeOpening := by
  simp [State.openReq, hwho, hmark, hclosed, hfinal]

theorem lcOpen_opens {who : Requester} (hrun : s.running = true) (hwho : mayLife who = true) (hmark : s.life.mark = 0)
    (hclosed : s.life.closed = true) (hfinal : s.life.final = false) :
    Completes (.lcOpen who true) s (fun t => AfterChipReset { s with life := { s.life with mark := 2 } } t ∧
      t.start.cause = causeOpening) := by
  refine ⟨_, (exec_lcOpen hrun _ _).trans (congrArg _ (openReq_opens hwho hmark hclosed hfinal)), ?_⟩
  obtain ⟨a, b, i, h, _⟩ := writeMark_only (s.modLife (fun l => { l with result := 1 })) 2 2
  rw [h]
  obtain ⟨⟨hwaits, hswath, hpower, hwork, hinst, hkeys, hregs, hhbm, hhost, hlife, hfuses, hcoll⟩, hcause, _⟩ :=
    chipReset_after (s := { s.modLife (fun l => { l with result := 1 }) with
      life := { (s.modLife (fun l => { l with result := 1 })).life with slotA := a, slotB := b, mark := 2, seq := s.life.seq + 1 },
      intc := i }) (up_ps4 (running_up hrun)) causeOpening
  exact ⟨⟨hwaits, hswath, hpower, hwork, hinst, hkeys, hregs, hhbm, hhost, hlife, hfuses, hcoll⟩, hcause⟩

/-- Takings that disagree refuse a request for either state (R426, R438). -/
theorem request_refused {who : Requester} (hrun : s.running = true) (hwho : mayLife who = true) (hmark : s.life.mark = 0) {c : Instr}
    (hc : c = .lcClose who false ∨ c = .lcOpen who false) :
    exec c s = .next ((s.modLife (fun l => { l with result := 3 })).mismatch 1) := by
  rcases hc with rfl | rfl
  · exact (exec_lcClose hrun _ _).trans (by simp [State.closeReq, hwho, hmark])
  · exact (exec_lcOpen hrun _ _).trans (by simp [State.openReq, hwho, hmark])

theorem exec_openingStepEnd (hup : s.up = true) : exec .openingStepEnd s = .next (match s.life.mark with
    | 2 => ({ s with keys := { s.keys with nv := [], commits := [] } }).writeMark 3 2
    | 3 => (s.modLife (fun l => { l with usersErased := true })).writeMark 4 2
    | 4 => (((s.modBk (fun b => { b with root := false, bbram := [] })).writeMark 5 2).modLife (fun l => { l with closed := false })).writeMark 0 2
    | _ => s) := (whenUp_of_up hup _).trans rfl

/-- The three steps of an opening (Table 20.3). -/
theorem openingSteps (hup : s.up = true) :
    (s.life.mark = 2 → Completes .openingStepEnd s (fun t => t.keys.nv = [] ∧ t.keys.commits = [] ∧ t.life.mark = 3 ∧
      t.life.closed = s.life.closed ∧ t.keys.nvCounter = s.keys.nvCounter ∧ 901 ∈ t.intc.pend)) ∧
    (s.life.mark = 3 → Completes .openingStepEnd s (fun t => t.life.usersErased = true ∧ t.life.mark = 4 ∧
      t.life.closed = s.life.closed ∧ t.keys = s.keys)) ∧
    (s.life.mark = 4 → Completes .openingStepEnd s (fun t => t.backup.root = false ∧ t.life.mark = 0 ∧ t.life.closed = false ∧
      t.backup.now.ctrMirror = s.backup.now.ctrMirror ∧ t.keys = s.keys)) := by
  refine ⟨fun hmark => ⟨_, exec_openingStepEnd hup, ?_⟩, fun hmark => ⟨_, exec_openingStepEnd hup, ?_⟩,
    fun hmark => ⟨_, exec_openingStepEnd hup, ?_⟩⟩
  · rw [hmark]
    obtain ⟨a, b, i, h, hmem⟩ := writeMark_only { s with keys := { s.keys with nv := [], commits := [] } } 3 2
    dsimp only
    rw [h]
    exact ⟨rfl, rfl, rfl, rfl, rfl, hmem⟩
  · rw [hmark]
    obtain ⟨a, b, i, h, _⟩ := writeMark_only (s.modLife (fun l => { l with usersErased := true })) 4 2
    dsimp only
    rw [h]
    exact ⟨rfl, rfl, rfl, rfl⟩
  · rw [hmark]
    obtain ⟨a, b, i, h, _⟩ := writeMark_only (s.modBk (fun b => { b with root := false, bbram := [] })) 5 2
    dsimp only
    rw [h]
    obtain ⟨a', b', i', h', _⟩ := writeMark_only (State.modLife { s.modBk (fun b => { b with root := false, bbram := [] }) with
      life := { s.life with slotA := a, slotB := b, mark := 5, seq := s.life.seq + 1 }, intc := i } (fun l => { l with closed := false })) 0 2
    exact h' ▸ ⟨rfl, rfl, rfl, rfl, rfl⟩

/-- Settles O53. -/
theorem lifeCycleTransitions : Obligations.LifeCycleTransitions := by
  unfold Obligations.LifeCycleTransitions
  refine ⟨fun s who hrun hwho hmark hopen => lcClose_closes hrun hwho hmark hopen, fun s who hrun hwho hmark hclosed => ?_,
    fun s who hrun hwho hmark hopen => ?_, fun s who hrun hwho hmark hclosed hfinal => ?_,
    fun s who hrun hwho hmark hclosed hfinal => lcOpen_opens hrun hwho hmark hclosed hfinal, fun s who hrun hwho hmark c hc => ?_,
    fun s who agree hrun h => ⟨?_, ?_⟩, fun s hup => openingSteps hup⟩
  · exact (exec_lcClose hrun _ _).trans (by simp [State.closeReq, hwho, hmark, hclosed, State.modLife])
  · exact (exec_lcOpen hrun _ _).trans (by simp [State.openReq, hwho, hmark, hopen, State.modLife])
  · exact (exec_lcOpen hrun _ _).trans (by simp [State.openReq, hwho, hmark, hclosed, hfinal, State.modLife])
  · obtain ⟨b, f, h⟩ := mismatch_only (s.modLife (fun l => { l with result := 3 })) 1
    refine ⟨_, request_refused hrun hwho hmark hc, ?_⟩
    rw [h]
    exact ⟨rfl, mget_mput_get 1 _ (satInc_pos (by decide) _)⟩
  · exact (exec_lcClose hrun _ _).trans (congrArg _ (closeReq_barred h agree))
  · exact (exec_lcOpen hrun _ _).trans (congrArg _ (openReq_barred h agree))

/-! ## FINAL (R439) -/

theorem finalReq_of_key {who : Requester} {key : Nat} (h : key ≠ 0xF17A) (blow agree : Bool) : s.finalReq who key blow agree = s := by
  simp [State.finalReq, h]
theorem finalReq_open {who : Requester} (h : s.life.closed = false) (key : Nat) (blow : Bool) : s.finalReq who key blow true = s := by
  simp [State.finalReq, h]

/-- With FINAL blown a request for Open changes its result at most, or is refused as its takings disagree. -/
theorem openReq_final (hfinal : s.life.final = true) (hclosed : s.life.closed = true) (who : Requester) (agree : Bool) :
    s.openReq who agree = s ∨ s.openReq who agree = (s.modLife (fun l => { l with result := 3 })).mismatch 1 ∨
      s.openReq who agree = s.modLife (fun l => { l with result := 2 }) := by
  by_cases hbar : (!mayLife who || s.life.mark ≠ 0) = true
  · exact .inl (if_pos hbar)
  · cases agree with
    | false => exact .inr (.inl ((if_neg hbar).trans rfl))
    | true => exact .inr (.inr ((if_neg hbar).trans (by simp [hclosed, hfinal])))

/-- Settles O54. -/
theorem finalRequestIsForGood : Obligations.FinalRequestIsForGood := by
  unfold Obligations.FinalRequestIsForGood
  refine ⟨fun s who hrun hwho hmark hclosed => ?_, fun s who agree t hfinal hclosed ht => ?_, fun s who k blow agree hrun hk => ?_,
    fun s who hrun hopen => ?_, fun s who hrun hwho hmark => ?_⟩
  · exact (exec_finalReq hrun _ _ _ _).trans (by simp [State.finalReq, hwho, hmark, hclosed, State.modLife])
  · cases hrun : s.running with
    | false =>
      obtain rfl : s = t := Host.Outcome.next.inj ((by simp [exec, execLcOpen, whenRun, hrun] : exec (.lcOpen who agree) s = .next s).symm.trans ht)
      exact ⟨hclosed, rfl, hfinal, rfl⟩
    | true =>
      obtain rfl : s.openReq who agree = t := Host.Outcome.next.inj ((exec_lcOpen hrun _ _).symm.trans ht)
      rcases openReq_final hfinal hclosed who agree with h | h | h
      · rw [h]; exact ⟨hclosed, rfl, hfinal, rfl⟩
      · obtain ⟨b, f, hm⟩ := mismatch_only (s.modLife (fun l => { l with result := 3 })) 1
        rw [h, hm]
        exact ⟨hclosed, rfl, hfinal, rfl⟩
      · rw [h]; exact ⟨hclosed, rfl, hfinal, rfl⟩
  · exact (exec_finalReq hrun _ _ _ _).trans (congrArg _ (finalReq_of_key (fun e => hk (BitVec.eq_of_toNat_eq e)) _ _))
  · exact (exec_finalReq hrun _ _ _ _).trans (congrArg _ (finalReq_open hopen _ _))
  · exact (exec_finalReq hrun _ _ _ _).trans (by simp [State.finalReq, hwho, hmark])

end Sys2Proof.Machine
end

section
/-! The statements of FAULT_N, of rails, supplies and tamper alarms, of the debug port and of ageing (R415, R425–R434, R444–R458, R506–R514). -/

open Sys2Proof Sys2Proof.Machine

namespace Sys2Proof.Machine

variable {s : State}

/-! ## FAULT_N (R415) -/

theorem holdPin_only (s : State) (hold : Bool) : ∃ p v c, s.holdPin hold = { s.setCfg 0xB00008 (BitVec.ofNat 32 (b2n hold)) with
    parBad := p, voteBad := v
    faults := { s.faults with live := c, pinLow := if hold || s.faults.pulse then s.faults.pinLow else s.faults.fallow } } := by
  obtain ⟨p, v, c, h, _⟩ := rewritten_only (s.setCfg 0xB00008 (BitVec.ofNat 32 (b2n hold))) 0xB00008
  unfold State.holdPin
  dsimp only
  rw [h]
  split
  · rename_i hkeep
    exact ⟨p, v, c, by rw [if_pos (c := (hold || s.faults.pulse) = true) hkeep]; rfl⟩
  · rename_i hfree
    exact ⟨p, v, c, by rw [if_neg (c := (hold || s.faults.pulse) = true) hfree]; rfl⟩

/-- Settles O41. -/
theorem faultPinFollowsHold : Obligations.FaultPinFollowsHold := by
  unfold Obligations.FaultPinFollowsHold
  refine ⟨fun s hrun hpulse => ⟨_, (whenUp_of_up (running_up hrun) _).trans (congrArg _ (if_pos hpulse)), ?_⟩,
    fun s who hold hrun hwf hpf => ⟨_, (whenRun_of_running hrun _).trans (congrArg _ (if_pos hpf)), ?_⟩, fun s who hold hrun hpf => ?_⟩
  · obtain ⟨l, c, h⟩ := uses_only (s := s) [0xB00008]
    rw [h]
    have hpin : (s.pinHold || s.faults.fallow) = bit (s.cfgN 0xB00008) 0 := by rw [running_not_fallow hrun, Bool.or_false]; rfl
    exact ⟨rfl, hpin, rfl, rfl⟩
  · obtain ⟨p, v, c, h⟩ := holdPin_only s hold
    rw [h]
    have hcfg := (cfgW_setCfg (tablesWf_iff.1 hwf).1 0xB00008 0xB00008 (BitVec.ofNat 32 (b2n hold))).trans (if_pos rfl)
    have hbit : bit ((s.setCfg 0xB00008 (BitVec.ofNat 32 (b2n hold))).cfgN 0xB00008) 0 = hold := by
      rw [State.cfgN, hcfg]; cases hold <;> rfl
    have hpin : (if hold || s.faults.pulse then s.faults.pinLow else s.faults.fallow) =
        if hold || s.faults.pulse then s.faults.pinLow else false := by rw [running_not_fallow hrun]
    exact ⟨hbit, hpin, rfl, rfl, rfl⟩
  · exact (whenRun_of_running hrun _).trans (congrArg _ (if_neg (by simp [hpf])))

/-! ## Rails and supplies (R429, R434, R452, R506, R514) -/

/-- An alarm concerns the backup domain's record of it and the reports. -/
theorem alarm_only (s : State) (src : Nat) (a b : Bool) : ∃ x l, s.alarm src a b =
    { s with backup := x, faults := { s.faults with reports := s.faults.reports ++ l } } := by
  unfold State.alarm
  split
  · obtain ⟨x, hl⟩ := latchTamper_only (s := s) src a b
    rw [hl]
    rcases raise_cases (s := { s with backup := x }) (480 + src) 0 0 0 with e | ⟨_, _, e⟩ <;> rw [e]
    · exact ⟨x, [], by rw [List.append_nil]⟩
    · exact ⟨x, _, rfl⟩
  · exact ⟨s.backup, [], by rw [List.append_nil]⟩

theorem faultKind_therm : ∃ k, faultKind 468 = some k ∧ k.fence = false := ⟨_, rfl, rfl⟩
theorem faultKind_ageMargin : ∃ k, faultKind 469 = some k ∧ k.fence = false := ⟨_, rfl, rfl⟩
theorem faultKind_pwrRail : ∃ k, faultKind 470 = some k ∧ k.fence = false := ⟨_, rfl, rfl⟩

/-- A source that fences nothing is always reported. -/
theorem raise_reports {n : Nat} (h : ∃ k, faultKind n = some k ∧ k.fence = false) (s : State) :
    ∃ r : FaultReport, s.raise n 0 0 0 = { s with faults := { s.faults with reports := s.faults.reports ++ [r] } } ∧ r.source = Fin.ofNat 512 n := by
  obtain ⟨k, hk, hf⟩ := h
  exact ⟨_, raise_open s hk hf 0 0 0, rfl⟩

theorem mainRailLoss_raises {rail : Rail} (hup : s.start.up = true) (hps4 : s.power.ps4Ready = false) :
    Completes (.mainRailLoss rail) s (fun t =>
      (∃ r ∈ t.faults.reports, r.source = 470) ∧ t.cfg = s.cfg ∧ t.hbm = s.hbm ∧ t.keys = s.keys) := by
  refine ⟨_, congrArg Host.Outcome.next ((if_neg (by simp [hps4])).trans (if_neg (by simp [hup]))), ?_⟩
  obtain ⟨r, hr, hsrc⟩ := raise_reports faultKind_pwrRail s
  dsimp only
  rw [hr]
  cases railSource rail with
  | none => exact ⟨⟨r, by simp, hsrc⟩, rfl, rfl, rfl⟩
  | some src =>
    obtain ⟨x, l, h⟩ := alarm_only { s with faults := { s.faults with reports := s.faults.reports ++ [r] } } src true true
    dsimp only
    rw [h]
    exact ⟨⟨r, by simp, hsrc⟩, rfl, rfl, rfl⟩

/-- A chip reset out of PS4 finds no HBM contents (R452). -/
theorem chipReset_ps4 (hps4 : s.power.ps4Ready = true) (c : BitVec 7) : (s.chipReset c).start.up = false ∧
    (s.chipReset c).start.cause = c ||| causePs4 ∧ (s.chipReset c).hbm = [] ∧ (s.chipReset c).power.ps4Ready = false := by
  obtain ⟨k, b, n, h⟩ := settleCommits_only s
  unfold State.chipReset
  rw [h]
  exact ⟨rfl, if_pos hps4, if_pos hps4, rfl⟩

/-- Settles O50. -/
theorem railsAndSupplies : Obligations.RailsAndSupplies := by
  unfold Obligations.RailsAndSupplies
  refine ⟨fun s rail hup hps4 => mainRailLoss_raises hup hps4, fun s rail hps4 => ⟨_, congrArg Host.Outcome.next (if_pos hps4), ?_⟩,
    fun s hhub => ⟨_, congrArg Host.Outcome.next (if_pos hhub), ?_⟩, fun s hhub => congrArg Host.Outcome.next (if_neg ?_),
    fun s hvbat => ⟨_, congrArg Host.Outcome.next (if_pos hvbat), ?_⟩, fun s hvbat => ⟨_, congrArg Host.Outcome.next (if_neg ?_), ?_⟩,
    fun s => ⟨_, rfl, rfl, rfl, rfl⟩, fun s haux => congrArg Host.Outcome.next (if_pos haux), fun s vbat st => rfl, by decide, by decide⟩
  · obtain ⟨hup, hcause, hhbm, hps4'⟩ := chipReset_ps4 hps4 0
    exact ⟨hup, by rw [hcause]; decide, hhbm, hps4'⟩
  · obtain ⟨r, hr, hsrc⟩ := raise_reports faultKind_therm { s with start := { s.start with thermLow := true } }
    rw [hr]
    exact ⟨rfl, r, by simp, hsrc⟩
  · exact fun h => absurd (hhub.symm.trans h) (by decide)
  · exact ⟨rfl, rfl, rfl, rfl, rfl, rfl, rfl, rfl, rfl, rfl⟩
  · simp [hvbat]
  · exact ⟨rfl, rfl, rfl⟩

/-! ## Tamper alarms (R425, R427, R428) -/

theorem faultKind_tamper : ∀ n : Fin 11, ∃ k, faultKind (480 + n.val) = some k ∧ k.fence = false := by decide
theorem faultKind_backupTamper : ∀ n : Fin 3, ∃ k, faultKind (480 + (13 + n.val)) = some k ∧ k.fence = false := by decide

theorem alarm_off {src : Nat} (h : s.tamperOn src = false) (a b : Bool) : s.alarm src a b = s := by simp [State.alarm, h]

theorem alarm_on {src : Nat} (h : s.tamperOn src = true) (a b : Bool) :
    s.alarm src a b = (s.latchTamper src a b).raise (480 + src) 0 0 0 := if_pos h
theorem exec_tamperAlarm (s : State) (n : Fin 11) (a b : Bool) :
    exec (.tamperAlarm n a b) s = .next (if s.hubOn then s.alarm n.val a b else s) := rfl

/-- The backup domain with `w` as the word of its last alarm; its other contents are told by generic lemmas, for the kernel would
compute the word itself. -/
def Backup.telling (x : Backup) (w : Word) : Backup := { x with now := { x.now with last := w, lastRtc := x.now.rtc } }
def Backup.told (x : Backup) (src : Nat) (a b : Bool) : Backup := x.telling (lastWord src a b (!x.aux))
theorem telling_keeps (x : Backup) (w : Word) : (x.telling w).root = x.root ∧ (x.telling w).held = x.held ∧
    (x.telling w).now.ctrMirror = x.now.ctrMirror ∧ (x.telling w).now.last = w ∧ (x.telling w).now.lastRtc = x.now.rtc :=
  ⟨rfl, rfl, rfl, rfl, rfl⟩

theorem latchTamper_cases (s : State) (src : Nat) (a b : Bool) :
    s.latchTamper src a b = s ∨ s.latchTamper src a b = { s with backup := s.backup.told src a b } := by
  unfold State.latchTamper
  split
  · exact .inl rfl
  · exact .inr rfl

/-- An alarm that no waiting alarm of a lower source outranks names itself in TAMPER_LAST. -/
theorem latchTamper_first {src : Nat} {a b : Bool} (h : s.faults.reports.any (fun r => decide (480 ≤ r.source.val)) = false) :
    s.latchTamper src a b = { s with backup := s.backup.told src a b } := by
  refine if_neg fun hany => ?_
  obtain ⟨r, hr, hlow⟩ := List.any_eq_true.1 hany
  rw [List.any_eq_false] at h
  simp only [Bool.and_eq_true, decide_eq_true_eq] at hlow
  exact h r hr (decide_eq_true hlow.1)

/-- An alarm that no waiting alarm of a lower source outranks is told and reported. -/
theorem alarm_first {n : Fin 11} (hon : s.tamperOn n.val = true) (a b : Bool)
    (hfirst : s.faults.reports.any (fun r => decide (480 ≤ r.source.val)) = false) : ∃ r : FaultReport,
    s.alarm n.val a b = { s with backup := s.backup.told n.val a b, faults := { s.faults with reports := s.faults.reports ++ [r] } } ∧
      r.source.val = 480 + n.val := by
  obtain ⟨r, hr, hsrc⟩ := raise_reports (faultKind_tamper n) { s with backup := s.backup.told n.val a b }
  exact ⟨r, by rw [alarm_on hon, latchTamper_first hfirst, hr], by rw [hsrc, Fin.val_ofNat]; omega⟩

theorem tamperAlarm_records {n : Fin 11} {a b : Bool} (hhub : s.hubOn = true) (hon : s.tamperOn n.val = true)
    (hfirst : s.faults.reports.any (fun r => decide (480 ≤ r.source.val)) = false) :
    Completes (.tamperAlarm n a b) s (fun t => t.backup.now.last = lastWord n.val a b (!s.backup.aux) ∧
      t.backup.now.lastRtc = s.backup.now.rtc ∧ (∃ r ∈ t.faults.reports, r.source.val = 480 + n.val) ∧
      t.backup.root = s.backup.root ∧ t.keys = s.keys ∧ t.tamper = s.tamper ∧ t.cfg = s.cfg ∧ t.hbm = s.hbm) := by
  obtain ⟨r, h, hsrc⟩ := alarm_first hon a b hfirst
  obtain ⟨hroot, _, _, hlast, hrtc⟩ := telling_keeps s.backup (lastWord n.val a b (!s.backup.aux))
  exact ⟨_, (exec_tamperAlarm s n a b).trans (congrArg _ ((if_pos hhub).trans h)),
    hlast, hrtc, ⟨r, by simp, hsrc⟩, hroot, rfl, rfl, rfl, rfl⟩

/-- The backup domain after one of its own alarms: the root is zeroized (R428). -/
def Backup.zeroized (x : Backup) : Backup := { x with root := false, bbram := [], now := { x.now with tamperBk := true } }

theorem latchTamper_keeps (s : State) (src : Nat) (a b : Bool) : ∃ x, s.latchTamper src a b = { s with backup := x } ∧
    x.held = s.backup.held ∧ x.now.ctrMirror = s.backup.now.ctrMirror := by
  obtain ⟨_, hheld, hmirror, _, _⟩ := telling_keeps s.backup (lastWord src a b (!s.backup.aux))
  rcases latchTamper_cases s src a b with h | h
  · exact ⟨s.backup, h, rfl, rfl⟩
  · exact ⟨_, h, hheld, hmirror⟩

theorem backupTamperAlarm_zeroizes {n : Fin 3} {a b : Bool} (hon : s.tamperOn (13 + n.val) = true) :
    Completes (.backupTamperAlarm n a b) s (fun t =>
      t.backup.root = false ∧ t.backup.now.tamperBk = true ∧ t.backup.now.ctrMirror = s.backup.now.ctrMirror ∧
      (s.hubOn = true → ∃ r ∈ t.faults.reports, r.source.val = 493 + n.val) ∧ t.tamper = s.tamper ∧ t.cfg = s.cfg ∧ t.hbm = s.hbm) := by
  obtain ⟨x, hx, hheld, hmirror⟩ := latchTamper_keeps s (13 + n.val) a b
  obtain ⟨r, hr, hsrc⟩ := raise_reports (faultKind_backupTamper n) { s with backup := x.zeroized }
  have hval : r.source.val = 493 + n.val := by rw [hsrc, Fin.val_ofNat]; omega
  have hhub : ({ s with backup := x.zeroized } : State).hubOn = s.hubOn := by
    show (s.start.up && !s.power.ps4Ready && !x.held) = (s.start.up && !s.power.ps4Ready && !s.backup.held)
    rw [hheld]
  have hexec : exec (.backupTamperAlarm n a b) s = .next (if s.hubOn then
      { s with backup := x.zeroized, faults := { s.faults with reports := s.faults.reports ++ [r] } }
    else { s with backup := x.zeroized }) := by
    refine congrArg Host.Outcome.next ((if_pos hon).trans ?_)
    dsimp only
    rw [hx, ← hr, ← hhub]
    rfl
  cases hup : s.hubOn with
  | true => exact ⟨_, hexec.trans (congrArg _ (if_pos hup)), rfl, rfl, hmirror, fun _ => ⟨r, by simp, hval⟩, rfl, rfl, rfl⟩
  | false =>
    exact ⟨_, hexec.trans (congrArg _ (if_neg (by simp [hup]))), rfl, rfl, hmirror, fun h => absurd h (by decide), rfl, rfl, rfl⟩

/-- Settles O51. -/
theorem tamperAlarmsAct : Obligations.TamperAlarmsAct := by
  unfold Obligations.TamperAlarmsAct
  refine ⟨fun s n a b hhub hon hfirst => tamperAlarm_records hhub hon hfirst, fun s n a b hoff => ?_,
    fun s n a b hon => backupTamperAlarm_zeroizes hon, fun s n a b hoff => congrArg Host.Outcome.next (if_neg (by simp [hoff])),
    fun s n hhub hn => ⟨_, congrArg Host.Outcome.next (if_pos (by simp [hhub, hn])), rfl, rfl, rfl, rfl, rfl⟩,
    fun s n hn => congrArg Host.Outcome.next (if_neg (by simp; omega))⟩
  have hsame : (if s.hubOn then s.alarm n.val a b else s) = s := by rw [alarm_off hoff, ite_self]
  exact congrArg Host.Outcome.next hsame

end Sys2Proof.Machine
end

section
/-! The statements of the debug port and of ageing (R444, R445, R456–R458, R507, R508). -/

open Sys2Proof Sys2Proof.Machine

namespace Sys2Proof.Machine

variable {s : State}

/-! ## The debug port (R444, R445) -/

theorem tapDebug_off (h : s.life.closed = true ∨ s.life.mark ≠ 0) : s.tapDebug = false := by
  rcases h with h | h <;> simp [State.tapDebug, h]

/-- A debug session stands. -/
def State.inSession (s : State) : State := s.modLife (fun l => { l with session := true })

theorem exec_dbgCore_off (h : s.tapDebug = false) (t : Fin 16) (op : DbgCoreOp) : exec (.dbgCore t op) s = .next s :=
  congrArg Host.Outcome.next (if_pos (by simp [h]))
theorem exec_dbgReg_off (h : s.tapDebug = false) (w : Bool) (a : Nat) (v : Word) : exec (.dbgReg w a v) s = .next s :=
  congrArg Host.Outcome.next (if_pos (by simp [h]))
theorem exec_dbgCore_halt (h : s.tapDebug = true) (t : Fin 16) : exec (.dbgCore t .halt) s = .next
    (if s.ctrl.dbgHalted.contains t.val then s.inSession
      else { s.inSession.dropStack t.val with ctrl := { s.ctrl with dbgHalted := s.ctrl.dbgHalted ++ [t.val] } }) :=
  congrArg Host.Outcome.next (if_neg (by simp [h]))
theorem exec_dbgCore_resume (h : s.tapDebug = true) (t : Fin 16) : exec (.dbgCore t .resume) s = .next
    { s.inSession with ctrl := { s.ctrl with dbgHalted := s.ctrl.dbgHalted.filter (· != t.val) } } :=
  congrArg Host.Outcome.next (if_neg (by simp [h]))
theorem exec_dbgCore_read (h : s.tapDebug = true) (t : Fin 16) (a len : Nat) : exec (.dbgCore t (.read a len)) s = .next
    (s.inSession.setResp (.bytes ((upTo len).map (fun i => mget hostDefault s.ctrl.mem (coreMemA t.val (a + i)))))) :=
  congrArg Host.Outcome.next (if_neg (by simp [h]))
theorem exec_dbgCore_write (h : s.tapDebug = true) (t : Fin 16) (a : Nat) (b : Bytes) : exec (.dbgCore t (.write a b)) s = .next
    (s.inSession.corePoke t.val a b) :=
  congrArg Host.Outcome.next (if_neg (by simp [h]))
theorem exec_dbgReg_write (h : s.tapDebug = true) (hrun : s.running = true) (a : Nat) (v : Word) : exec (.dbgReg true a v) s = .next
    (s.inSession.regWrite .jtag a 4 (v.setWidth 64)) :=
  congrArg Host.Outcome.next ((if_neg (by simp [h])).trans ((if_pos rfl).trans
    (if_neg (fun hoff => absurd (hoff.symm.trans (running_powered hrun)) (by decide)))))

/-- A dropped stack is empty; what its entries and tasks return to is not part of it (R394). -/
theorem stk_dropStack (s : State) (t : Nat) : (s.dropStack t).intc.stk = mput (fun _ => []) s.intc.stk t [] := by
  have hact : ((s.stack t).foldl (fun s e => ({ s with intc := { s.intc with active := cput s.intc.active e.1 0 } } : State)) s).intc.stk =
      s.intc.stk :=
    foldl_keeps (f := fun s (e : Nat × Nat) => ({ s with intc := { s.intc with active := cput s.intc.active e.1 0 } } : State))
      (g := fun s : State => s.intc.stk) (fun _ _ => rfl) _ _
  unfold State.dropStack
  dsimp only
  exact (foldl_keeps (g := fun s : State => s.intc.stk) (f := fun s k => s.requeue k) (fun _ _ => rfl) _ _).trans
    (congrArg (fun m => mput (fun _ => []) m t []) hact)
theorem stack_dropStack (h : mwf (fun _ => []) s.intc.stk = true) (t : Nat) : (s.dropStack t).stack t = [] := by
  rw [State.stack, stk_dropStack]
  exact mget_mput_same h

/-- The JTAG port writes a shadowed register's word as the PF does. -/
theorem jtag_writes_shadow {a i j : Nat} {r : RegRow} {v : Word} (hrun : s.running = true) (ha : a % 4 = 0)
    (hl : Loc.of .jtag a = .reg a) (hr : regAt a = some (r, i, j)) (hs : r.shadow = true) (hne : a ≠ 0x800018)
    (hu : s.writeUnchecked .jtag a v = none) : s.regWrite .jtag a 4 (v.setWidth 64) = s.storeWord a r.rw v := by
  have hv : (v.setWidth 64).setWidth 32 = v := by simp
  obtain ⟨hk, h0⟩ := shadow_known hr hs
  have hstore : s.writeReg .jtag a v = s.storeWord a r.rw v := by
    rw [writeReg_stored s .jtag v hr (shadow_stored hr hs hne), if_neg h0, show reachMask .jtag r = r.known from rfl, hk, Nat.and_self]
  simp [State.regWrite, accessOk, ha, accessWords, hv, hl, hrun, State.locUnchecked, hu, State.writeLoc, hstore]

/-- Settles O55. -/
theorem debugWorksOnlyInOpen : Obligations.DebugWorksOnlyInOpen := by
  unfold Obligations.DebugWorksOnlyInOpen
  refine ⟨fun s t op h => exec_dbgCore_off (tapDebug_off h) t op, fun s w a v h => exec_dbgReg_off (tapDebug_off h) w a v,
    fun s t hdbg hstk hfree => ⟨_, (exec_dbgCore_halt hdbg t).trans (congrArg _ (if_neg (by rw [hfree]; decide))), ?_⟩,
    fun s t hdbg => ⟨_, exec_dbgCore_resume hdbg t, by simp, rfl, rfl, rfl, rfl⟩,
    fun s t a b hdbg hmem => ⟨_, exec_dbgCore_write hdbg t a [b], ?_⟩,
    fun s t a len hdbg => ⟨_, exec_dbgCore_read hdbg t a len, rfl, rfl, rfl⟩,
    fun s a r i j v hrun hdbg hwf ha hl hr hs hne hu => ⟨_, exec_dbgReg_write hdbg hrun a v, ?_⟩⟩
  · have hstack : (s.inSession.dropStack t.val).stack t.val = [] := stack_dropStack (s := s.inSession) hstk t.val
    obtain ⟨i, k, h⟩ := dropStack_only (s := s.inSession) t.val
    rw [h] at hstack ⊢
    exact ⟨by simp, hstack, rfl, rfl, rfl, rfl⟩
  · exact ⟨mget_mput_same hmem, fun x hx => mget_mput_ne hmem hx, rfl, rfl⟩
  · rw [jtag_writes_shadow (s := s.inSession) hrun ha hl hr hs hne hu]
    obtain ⟨p, c, l, k, h, _⟩ := storeWord_only s.inSession a r.rw v
    rw [h]
    exact ⟨(cfgW_setCfg (tablesWf_iff.1 hwf).1 a a _).trans (if_pos rfl), rfl, rfl, rfl⟩

/-! ## Ageing (R456–R458, R507, R508) -/

/-- The power block with the plan of its measurement. -/
def State.planPower (s : State) : Power := { s.power with
  measured := false, planned := s.plan.1, plans := satInc 16 s.power.plans, marginOut := s.plan.2
  nextStep := match s.plan.1 with | some x => x.step | none => s.glob.cclkStep }

/-- A plan stands in the power block; a point out of margin is reported, and a plan without a point ends the start's plan. -/
theorem exec_marginPlan (hrun : s.running = true) (hmeas : s.power.measured = true) : ∃ f b,
    exec .marginPlan s = .next (({ s with power := s.planPower, faults := f, start := b } : State).pendSrc 900) ∧
      (s.plan.2 = true → ∃ r ∈ f.reports, r.source = 469) := by
  obtain ⟨l, c, hu⟩ := uses_only (s := s) [0xC00010]
  obtain ⟨r, hr, hsrc⟩ := raise_reports faultKind_ageMargin
    { s with faults := { s.faults with reports := s.faults.reports ++ l, live := c }, power := s.planPower }
  have hexec : exec .marginPlan s = .next (State.pendSrc (
      let t : State := { s with faults := { s.faults with reports := s.faults.reports ++ l, live := c }, power := s.planPower }
      let t := if s.plan.2 then t.raise 469 0 0 0 else t
      if s.plan.1.isNone then { t with start := { t.start with startPlan := true } } else t) 900) := by
    refine (whenRun_of_running hrun _).trans (congrArg _ ((if_neg (by simp [hmeas])).trans ?_))
    dsimp only
    rw [hu]
    rfl
  rw [hexec]
  dsimp only
  rw [hr]
  cases s.plan.2 <;> cases s.plan.1.isNone
  · exact ⟨_, s.start, rfl, fun h => absurd h (by decide)⟩
  · exact ⟨_, _, rfl, fun h => absurd h (by decide)⟩
  · exact ⟨_, s.start, rfl, fun _ => ⟨r, by simp, hsrc⟩⟩
  · exact ⟨_, _, rfl, fun _ => ⟨r, by simp, hsrc⟩⟩

theorem ageStep_le (s : State) (lim k : Nat) : s.ageStep lim k ≤ k := by
  induction k with
  | zero => exact Nat.le_refl 0
  | succ k ih =>
    unfold State.ageStep
    split
    · exact Nat.le_refl _
    · exact Nat.le_succ_of_le ih

theorem ageOk_iff (s : State) (k lim : Nat) : s.ageOk k lim = true ↔ s.vNeed 0 k ≤ lim ∧ s.vNeed 1 k ≤ lim ∧ s.dieAge 2 ≤ Config.hubLimit k := by
  simp [State.ageOk, and_assoc]

/-- Every plan lies within the limits of R457; one in margin covers what the ageing needs. -/
theorem plan_limits (s : State) {p : Plan} (h : s.plan.1 = some p) :
    p.step ≤ s.glob.cclkStep ∧ 650 ≤ p.vw ∧ p.vw ≤ 900 ∧ 650 ≤ p.ve ∧ p.ve ≤ 900 ∧
      (s.plan.2 = false → s.vNeed 0 p.step ≤ p.vw ∧ s.vNeed 1 p.step ≤ p.ve ∧ s.dieAge 2 ≤ Config.hubLimit p.step) := by
  have hwithin : ∀ k, k ≤ s.glob.cclkStep → s.ageOk k 900 = true → p = { step := k, vw := max (s.vNeed 0 k) 650, ve := max (s.vNeed 1 k) 650 } →
      p.step ≤ s.glob.cclkStep ∧ 650 ≤ p.vw ∧ p.vw ≤ 900 ∧ 650 ≤ p.ve ∧ p.ve ≤ 900 ∧
      (s.vNeed 0 p.step ≤ p.vw ∧ s.vNeed 1 p.step ≤ p.ve ∧ s.dieAge 2 ≤ Config.hubLimit p.step) := by
    rintro k hk hok rfl
    obtain ⟨hw, he, hhub⟩ := (ageOk_iff s k 900).1 hok
    exact ⟨hk, Nat.le_max_right _ _, Nat.max_le.2 ⟨hw, by decide⟩, Nat.le_max_right _ _, Nat.max_le.2 ⟨he, by decide⟩,
      Nat.le_max_left _ _, Nat.le_max_left _ _, hhub⟩
  have hstep := ageStep_le s (if fld (s.cfgN 0xC00010) 0 2 = 0 then 900 else fld (s.cfgN 0xC00010) 16 10) s.glob.cclkStep
  unfold State.plan at h ⊢
  dsimp only at h ⊢
  generalize s.ageStep _ _ = k at h hstep ⊢
  split at h
  · split at h
    · rename_i hpol hok
      obtain ⟨hs, hw, hw', he, he', hneed⟩ := hwithin _ (Nat.le_refl _) hok (Option.some.inj h).symm
      exact ⟨hs, hw, hw', he, he', fun _ => hneed⟩
    · exact absurd h (by simp)
  · rename_i hpol
    split at h
    · rename_i hok
      obtain ⟨hs, hw, hw', he, he', hneed⟩ := hwithin _ hstep hok (Option.some.inj h).symm
      exact ⟨hs, hw, hw', he, he', fun _ => hneed⟩
    · rename_i hout
      obtain rfl := Option.some.inj h
      rw [if_neg hpol, if_neg hout]
      exact ⟨hstep, by simp, Nat.le_refl _, by simp, Nat.le_refl _, fun hin => absurd hin (by simp)⟩

/-- A rise of a planned point is what AVS_COMMAND asks of its rail. -/
theorem exec_avsCommand_rise (hrun : s.running = true) {east : Bool} {p : Plan} (hplan : s.power.planned = some p)
    (hrise : s.railV east < p.rail east) (acks : List Bool) : exec (.avsCommand east acks) s = .next
      (if (acks.take 4).any id then s.avsDone east (p.rail east) else s.avsFail) := by
  refine (whenRun_of_running hrun _).trans ?_
  rw [hplan]
  dsimp only
  rw [if_pos hrise]

theorem cget_measured {m : SMap Nat} (h : mwf (fun _ => 0) m = true) (d : List (BitVec 16)) {k : Nat} (hk : k < 96) :
    cget ((upTo 96).foldl (fun m i => cput m i (nth d i 0).toNat) m) k = (nth d k 0).toNat :=
  cget_foldl_cput (fun i => (nth d i 0).toNat) (upTo 96) m h (mem_upTo.2 hk)

/-- The state after a plan: its point, its count, its report and source 900. -/
theorem marginPlan_plans (hrun : s.running = true) (hmeas : s.power.measured = true) : Completes .marginPlan s (fun t =>
    t.power.planned = s.plan.1 ∧ t.power.marginOut = s.plan.2 ∧ t.power.measured = false ∧
    t.power.plans = satInc 16 s.power.plans ∧ 900 ∈ t.intc.pend ∧ t.glob = s.glob ∧
    (s.plan.2 = true → ∃ r ∈ t.faults.reports, r.source = 469)) := by
  obtain ⟨f, b, hexec, hrep⟩ := exec_marginPlan hrun hmeas
  refine ⟨_, hexec, ?_⟩
  have hmem : 900 ∈ (({ s with power := s.planPower, faults := f, start := b } : State).pendSrc 900).intc.pend := mem_pendSrc _ rfl
  obtain ⟨i, hi⟩ := pendSrc_only { s with power := s.planPower, faults := f, start := b } 900
  rw [hi] at hmem ⊢
  exact ⟨rfl, rfl, rfl, rfl, hmem, rfl, hrep⟩

/-- Settles O56. -/
theorem ageingPlanKeepsMargins : Obligations.AgeingPlanKeepsMargins := by
  unfold Obligations.AgeingPlanKeepsMargins
  refine ⟨fun s d hrun hmeas hwf => ⟨_, (whenRun_of_running hrun _).trans (congrArg _ (if_pos hmeas)), rfl, rfl,
      fun m hm => cget_measured hwf d hm, rfl⟩,
    fun s hrun hmeas => marginPlan_plans hrun hmeas, fun s p h => plan_limits s h,
    fun s east acks p hrun hplan hrise => ⟨fun hack => ?_, fun hack => ?_⟩⟩
  · exact (exec_avsCommand_rise hrun hplan hrise acks).trans (congrArg _ (if_pos hack))
  · refine ⟨_, (exec_avsCommand_rise hrun hplan hrise acks).trans (congrArg _ (if_neg (by simp [hack]))), ?_⟩
    obtain ⟨r, hr, hsrc⟩ := raise_reports faultKind_ageMargin { s.modPower (fun p => { p with planned := none, falls := [], marginOut := true })
      with start := { s.start with startPlan := true } }
    have hfail : s.avsFail = _ := hr
    rw [hfail]
    exact ⟨rfl, rfl, rfl, r, by simp, hsrc⟩

end Sys2Proof.Machine
end

section
/-! The statements of Commons frames (R475, R478, R485–R489, R492). -/

open Sys2Proof Sys2Proof.Machine

namespace Sys2Proof.Machine

variable {s : State} {fr : Frame}

/-! ## Receiving (R475) -/

theorem receive_unheard (h : s.hears fr = false) (act : State → State) : s.receive fr act = s := by simp [State.receive, h]
theorem receive_ok (h : s.hears fr = true) (hok : s.frameOk fr = true) (act : State → State) : s.receive fr act = act s := by
  simp [State.receive, h, hok]
theorem receive_dropped (h : s.hears fr = true) (hok : s.frameOk fr = false) (hbad : fr.fcsOk = false ∨ fr.etherType ≠ etherPtp)
    (act : State → State) : s.receive fr act = s.countDrop fr := by
  rcases hbad with hbad | hbad <;> simp [State.receive, h, hok, hbad]
/-- A PTP message is no Commons frame. -/
theorem receive_ptp (hok : s.frameOk fr = false) (hfcs : fr.fcsOk = true) (hptp : fr.etherType = etherPtp) (act : State → State) :
    s.receive fr act = s := by
  simp [State.receive, hok, hfcs, hptp]

/-- Every command of a frame but ALIVE receives the frame with some action of its own. -/
theorem exec_frame (hrun : s.running = true) {c : Instr}
    (hc : c ∈ [Instr.exchange fr, .end_ fr, .reserve fr, .ack fr, .commit fr, .abandon fr, .partDone fr]) :
    ∃ act, exec c s = .next (s.receive fr act) := by
  simp only [List.mem_cons, List.not_mem_nil, or_false] at hc
  rcases hc with rfl | rfl | rfl | rfl | rfl | rfl | rfl <;> exact ⟨_, whenRun_of_running hrun _⟩

theorem exec_exchange_ok (hrun : s.running = true) (h : s.hears fr = true) (hok : s.frameOk fr = true) :
    exec (.exchange fr) s = .next (s.takeRows fr) := (whenRun_of_running hrun _).trans (congrArg _ (receive_ok h hok _))
theorem exec_end_ok (hrun : s.running = true) (h : s.hears fr = true) (hok : s.frameOk fr = true) :
    exec (.end_ fr) s = .next (s.takeEnd fr) := (whenRun_of_running hrun _).trans (congrArg _ (receive_ok h hok _))
theorem exec_commit_ok (hrun : s.running = true) (h : s.hears fr = true) (hok : s.frameOk fr = true) {j : Job} {p : Part}
    (hpart : s.partOf fr.cjob = some (j, p)) : exec (.commit fr) s = .next
      (if p.coord = fr.src.toNat then s.modPart j.id (fun p => { p with committed := true }) else s) := by
  refine (whenRun_of_running hrun _).trans (congrArg _ ((receive_ok h hok _).trans ?_))
  rw [hpart]
theorem exec_abandon_ok (hrun : s.running = true) (h : s.hears fr = true) (hok : s.frameOk fr = true) {j : Job} {p : Part}
    (hpart : s.partOf fr.cjob = some (j, p)) : exec (.abandon fr) s = .next
      (if p.coord = fr.src.toNat then s.modPart j.id (fun p => { p with abandoned := true }) else s) := by
  refine (whenRun_of_running hrun _).trans (congrArg _ ((receive_ok h hok _).trans ?_))
  rw [hpart]
theorem exec_ack_ok (hrun : s.running = true) (h : s.hears fr = true) (hok : s.frameOk fr = true) :
    exec (.ack fr) s = .next (s.modOwn fr (fun c => if c.admitted then c else
      { c with acks := mput (fun _ => (256, 0)) c.acks fr.src.toNat (rd fr.payload 0 1, rd fr.payload 1 1) })) :=
  (whenRun_of_running hrun _).trans (congrArg _ (receive_ok h hok _))
theorem exec_partDone_ok (hrun : s.running = true) (h : s.hears fr = true) (hok : s.frameOk fr = true) :
    exec (.partDone fr) s = .next (s.modOwn fr (fun c =>
      { c with dones := mput (fun _ => (256, 0)) c.dones (partIx c.members fr.src.toNat) (rd fr.payload 0 1, rd fr.payload 1 1) })) :=
  (whenRun_of_running hrun _).trans (congrArg _ (receive_ok h hok _))

/-! ## The coordinator's jobs (R486, R487) -/

/-- An unfinished Commons job of the frame in which its sender takes part is changed, and found among the jobs. -/
theorem modOwn_mem {c : CJob} (hmem : c ∈ s.commons.cjobs) (hjob : c.cjob = fr.cjob) (hfin : c.finished = false)
    (hsender : c.members.contains fr.src.toNat = true) (g : CJob → CJob) : g c ∈ (s.modOwn fr g).commons.cjobs :=
  List.mem_map.2 ⟨c, hmem, if_pos ⟨hjob, by simp [hfin], hsender⟩⟩

theorem rd_byte_lt (b : Bytes) (off : Nat) : rd b off 1 < 256 := by
  have h := leNat_lt (slice b off 1)
  rwa [length_slice] at h
/-- No answer of a member reads as the mark of a member that has not answered. -/
theorem answer_ne_none (b : Bytes) (x : Nat) : (rd b 0 1, x) ≠ (256, 0) := fun h =>
  absurd (rd_byte_lt b 0) (by rw [(Prod.mk.inj h).1]; decide)

/-! ## ALIVE (R474, R478, R492) -/

theorem aliveSwn_only (s : State) (fr : Frame) : ∃ r, s.aliveSwn fr = { s with commons := { s.commons with refSwn := r } } := by
  unfold State.aliveSwn
  split
  · exact ⟨_, rfl⟩
  · exact ⟨s.commons.refSwn, rfl⟩

/-- An ALIVE frame that is not one of those a seeking member reads is received like any frame. -/
theorem exec_alive_received (hrun : s.running = true)
    (h : s.hears fr = false ∨ s.commons.align ≠ 1 ∨ s.swnNear fr = true) :
    exec (.alive fr) s = .next (s.receive fr (fun s => s.takeAlive fr)) := by
  refine (whenRun_of_running hrun _).trans (congrArg _ (if_neg ?_))
  rcases h with h | h | h <;> simp [h]

theorem exec_alive_seeking (hrun : s.running = true) (hears : s.hears fr = true) (hfar : s.swnNear fr = false)
    (hseek : s.commons.align = 1) (hok : s.frameOk { fr with swn := s.glob.swn } = true) :
    exec (.alive fr) s = .next ((s.countDrop fr).aliveSwn fr) :=
  (whenRun_of_running hrun _).trans (congrArg _ (if_pos (by simp [hears, hfar, hseek, hok])))

theorem frameOk_near (h : s.frameOk fr = true) : s.swnNear fr = true := by
  simp only [State.frameOk, Bool.and_eq_true] at h
  exact h.2

/-- ALIVE tells whether its sender is UP. -/
theorem takeAlive_peer (s : State) (fr : Frame) : ((s.takeAlive fr).peer fr.src.toNat).lastAlive = s.swnN ∧
    (((s.takeAlive fr).peer fr.src.toNat).state = 1 ↔ rd fr.payload 0 1 = 2 ∨ rd fr.payload 0 1 = 3) ∧
    (s.takeAlive fr).adm = s.adm ∧ (s.takeAlive fr).hbm = s.hbm := by
  unfold State.takeAlive
  dsimp only
  generalize hx : ({ state := if rd fr.payload 0 1 == 2 || rd fr.payload 0 1 == 3 then 1 else 2, lastAlive := s.swnN } : Peer) = x
  have hne : x ≠ Peer.init := by
    rintro rfl
    have := congrArg Peer.state hx
    simp only [Peer.init] at this
    split at this <;> omega
  have hpeer : mget (fun _ => Peer.init) (mput (fun _ => Peer.init) s.commons.peers fr.src.toNat x) fr.src.toNat = x := mget_mput_get _ x hne
  obtain ⟨r, h⟩ := aliveSwn_only (s.setPeer fr.src.toNat x) fr
  rw [h]
  have hget : ({ s.setPeer fr.src.toNat x with commons := { (s.setPeer fr.src.toNat x).commons with refSwn := r } } : State).peer
      fr.src.toNat = x := hpeer
  rw [hget, ← hx]
  refine ⟨rfl, ?_, rfl, rfl⟩
  dsimp only
  split
  · rename_i hup; simpa using hup
  · rename_i hup; simpa using hup

/-- Rows past the capacity of their slot set OVERFLOW and are not written. -/
theorem takeRows_overflow {j : Job} {p : Part} (hpart : s.partOf fr.cjob = some (j, p))
    (hover : s.slotCap fr.slot.val < fr.offset.toNat + fr.payload.length) :
    ((s.takeRows fr).inSlot fr.slot.val).overflow = true ∧ (s.takeRows fr).hbm = s.hbm := by
  have hrows : s.takeRows fr = s.setInSlot fr.slot.val { s.inSlot fr.slot.val with overflow := true } := by
    unfold State.takeRows
    rw [hpart]
    exact if_pos hover
  have hget : mget (fun _ => SlotSt.init) (mput (fun _ => SlotSt.init) s.commons.slots fr.slot.val
      { s.inSlot fr.slot.val with overflow := true }) fr.slot.val = { s.inSlot fr.slot.val with overflow := true } :=
    mget_mput_get _ _ fun h => absurd (congrArg SlotSt.overflow h) (by simp [SlotSt.init])
  rw [hrows]
  exact ⟨congrArg SlotSt.overflow hget, rfl⟩

theorem takeRows_part {j : Job} {p : Part} (hpart : s.partOf fr.cjob = some (j, p)) :
    s.takeRows fr = s.slotRows fr.slot.val p.members fr.src.toNat fr.offset.toNat fr.payload := by
  unfold State.takeRows; rw [hpart]
theorem takeEnd_part {j : Job} {p : Part} (hpart : s.partOf fr.cjob = some (j, p)) :
    s.takeEnd fr = s.slotEnd fr.slot.val p.members fr.src.toNat (rd fr.payload 0 8) := by
  unfold State.takeEnd; rw [hpart]

/-- Settles O57: a frame is received or not as R475 says, and one that is received acts on the job or peer that it names. -/
theorem commonsFramesActOrAreDropped : Obligations.CommonsFramesActOrAreDropped := by
  unfold Obligations.CommonsFramesActOrAreDropped
  refine ⟨fun s fr c hrun hc => ?_, fun s fr hrun => ⟨fun hears => ?_, fun hears hok halign hbad => ?_, fun hears hfar hseek hok => ?_⟩,
    fun s fr hrun hears hok => ⟨fun j p hpart => ⟨fun _ => ?_, fun hover => ?_, ?_, fun hcoord => ⟨?_, ?_⟩, fun hcoord => ⟨?_, ?_⟩⟩,
      ?_, ?_, ?_, ?_⟩⟩
  · obtain ⟨act, h⟩ := exec_frame hrun hc
    rw [h]
    exact ⟨fun hears => congrArg _ (receive_unheard hears _), fun hears hok hbad => congrArg _ (receive_dropped hears hok hbad _),
      fun hok hfcs hptp => congrArg _ (receive_ptp hok hfcs hptp _)⟩
  · exact (exec_alive_received hrun (.inl hears)).trans (congrArg _ (receive_unheard hears _))
  · exact (exec_alive_received hrun (.inr (.inl halign))).trans (congrArg _ (receive_dropped hears hok hbad _))
  · exact exec_alive_seeking hrun hears hfar hseek hok
  · exact (exec_exchange_ok hrun hears hok).trans (congrArg _ (takeRows_part hpart))
  · exact ⟨_, exec_exchange_ok hrun hears hok, takeRows_overflow hpart hover⟩
  · exact (exec_end_ok hrun hears hok).trans (congrArg _ (takeEnd_part hpart))
  · exact (exec_commit_ok hrun hears hok hpart).trans (congrArg _ (if_pos hcoord))
  · exact (exec_abandon_ok hrun hears hok hpart).trans (congrArg _ (if_pos hcoord))
  · exact (exec_commit_ok hrun hears hok hpart).trans (congrArg _ (if_neg hcoord))
  · exact (exec_abandon_ok hrun hears hok hpart).trans (congrArg _ (if_neg hcoord))
  · exact (whenRun_of_running hrun _).trans (congrArg _ (receive_ok hears hok _))
  · refine ⟨_, exec_ack_ok hrun hears hok, fun c hc hjob hfin hadm hsender => ⟨_, modOwn_mem hc hjob hfin hsender _, ?_⟩⟩
    rw [hadm]
    exact ⟨rfl, mget_mput_get _ _ (answer_ne_none _ _)⟩
  · exact ⟨_, exec_partDone_ok hrun hears hok, fun c hc hjob hfin hsender =>
      ⟨_, modOwn_mem hc hjob hfin hsender _, rfl, mget_mput_get _ _ (answer_ne_none _ _)⟩⟩
  · exact ⟨_, (exec_alive_received hrun (.inr (.inr (frameOk_near hok)))).trans (congrArg _ (receive_ok hears hok _)), takeAlive_peer s fr⟩

end Sys2Proof.Machine
end

section
/-! The statement of the queues' signals (R374, R375). -/

open Sys2Proof Sys2Proof.Machine

namespace Sys2Proof.Machine

variable {s t u : State}

/-! ## A signal -/

/-- A vector that is sent leaves the package; a masked one waits. -/
theorem msix_appends (s : State) (fn v : Nat) : ∃ p o, s.msix fn v =
    { s with hostif := { s.hostif with msixPend := p }, outbox := s.outbox ++ o } ∧ (s.msixMasked fn v = false → o = [.msix fn v]) := by
  unfold State.msix
  split
  · rename_i hm
    exact ⟨_, [], by rw [List.append_nil], fun h => absurd (hm.symm.trans h) (by decide)⟩
  · exact ⟨s.hostif.msixPend, _, rfl, fun _ => rfl⟩
theorem msix_sent {fn v : Nat} (h : s.msixMasked fn v = false) : s.msix fn v = s.emit (.msix fn v) := by simp [State.msix, h]
theorem msix_waits {fn v : Nat} (h : s.msixMasked fn v = true) : s.msix fn v = { s with hostif := { s.hostif with
    msixPend := mput (fun _ => false) s.hostif.msixPend (fn * 1024 + v) true } } := by simp [State.msix, h]

theorem cq_setCq_held (i : Inst) (q : Nat) {c : Cq} (h : c.intPend = true) : (i.setCq q c).cq q = c :=
  mget_mput_get q c fun e => absurd (h.symm.trans (congrArg Cq.intPend e)) (by decide)
/-- An instance that holds a signal is no instance at its reset value. -/
theorem ne_init_of_held {i : Inst} {n q : Nat} (h : (i.cq q).intPend = true) : i ≠ Inst.init n := by
  rintro rfl
  exact absurd h (by simp [Inst.cq, Inst.init, Cq.init])

theorem cqSignal_free {n q : Nat} (hlow : (s.inst n).low = false) (hlink : s.hostif.linkLow = false) (hup : s.hostif.linkUp = true) :
    s.cqSignal n q = (s.setInst n ((s.inst n).setCq q { (s.inst n).cq q with count := 0 })).msix n (fld (s.cfgN (cqCfgA n q)) 16 10) := by
  simp [State.cqSignal, hlow, hlink, hup]

/-- A held signal stands in its queue; WAKE_N is all that may leave the package. -/
theorem cqSignal_held {n q : Nat} (h : (s.inst n).low = true ∨ s.hostif.linkLow = true ∨ s.hostif.linkUp = false) : ∃ o st,
    s.cqSignal n q = { s.setInst n ((s.inst n).setCq q { (s.inst n).cq q with count := 0, intPend := true }) with
      outbox := o, start := st } ∧ ∀ f v, Out.msix f v ∈ o → Out.msix f v ∈ s.outbox := by
  unfold State.cqSignal
  dsimp only
  rw [if_pos (by rcases h with h | h | h <;> simp [h])]
  split
  · exact ⟨_, _, rfl, fun f v hmem => by simpa using hmem⟩
  · exact ⟨s.outbox, s.start, rfl, fun f v hmem => hmem⟩

/-- The timer of a queue that is enabled, has a timer and counts a record makes the queue's signal due. -/
theorem exec_cqTimer_due (hrun : s.running = true) {n : Fin 257} {q : Fin 8} (hen : bit (s.cfgN (cqCfgA n.val q.val)) 31 = true)
    (hint : bit (s.cfgN (cqCfgA n.val q.val)) 10 = true) (htime : fld (s.cfgN (cqCfgA n.val q.val + 4)) 16 16 ≠ 0)
    (hcount : ((s.inst n.val).cq q.val).count ≠ 0) :
    exec (.cqTimer n q) s = .next ((s.uses (cqWords n.val q.val)).cqSignal n.val q.val) := by
  refine (whenRun_of_running hrun _).trans (congrArg _ (if_pos ?_))
  simp [hen, hint, htime, hcount]

theorem exec_cqTimer_idle (hrun : s.running = true) {n : Fin 257} {q : Fin 8} (h : bit (s.cfgN (cqCfgA n.val q.val)) 31 = false ∨
    bit (s.cfgN (cqCfgA n.val q.val)) 10 = false ∨ fld (s.cfgN (cqCfgA n.val q.val + 4)) 16 16 = 0 ∨
    ((s.inst n.val).cq q.val).count = 0) : exec (.cqTimer n q) s = .next (s.uses (cqWords n.val q.val)) := by
  refine (whenRun_of_running hrun _).trans (congrArg _ (if_neg ?_))
  rcases h with h | h | h | h <;> simp [h]

/-! ## Held signals are sent (R375) -/

/-- Signals of instance `n` are sent: nothing but instances, waiting vectors and the outbox changes, the power state of `n` stays, and a
signal that it held is held still or has been sent. -/
structure Sends (n : Nat) (s t : State) : Prop where
  only : ∃ m o p, t = { s with insts := m, outbox := s.outbox ++ o, hostif := { s.hostif with msixPend := p } }
  wf : mwf Inst.init s.insts = true → mwf Inst.init t.insts = true
  low : mwf Inst.init s.insts = true → (t.inst n).low = (s.inst n).low
  cqs : mwf Inst.init s.insts = true → mwf (fun _ => Cq.init) (s.inst n).cqs = true → mwf (fun _ => Cq.init) (t.inst n).cqs = true ∧
    ∀ q, ((t.inst n).cq q).intPend = ((s.inst n).cq q).intPend ∨ ((t.inst n).cq q).intPend = false ∧
      (s.msixMasked n (fld (s.cfgN (cqCfgA n q)) 16 10) = false → Out.msix n (fld (s.cfgN (cqCfgA n q)) 16 10) ∈ t.outbox)

namespace Sends

theorem refl (n : Nat) (s : State) : Sends n s s :=
  ⟨⟨s.insts, [], s.hostif.msixPend, by rw [List.append_nil]⟩, id, fun _ => rfl, fun _ h => ⟨h, fun _ => .inl rfl⟩⟩

theorem outbox {n : Nat} (h : Sends n s t) {x : Out} (hx : x ∈ s.outbox) : x ∈ t.outbox := by
  obtain ⟨m, o, p, rfl⟩ := h.only
  exact List.mem_append_left _ hx
theorem vector {n : Nat} (h : Sends n s t) (a v : Nat) : t.cfgN a = s.cfgN a ∧ t.msixMasked n v = s.msixMasked n v := by
  obtain ⟨m, o, p, rfl⟩ := h.only
  exact ⟨rfl, rfl⟩

theorem trans {n : Nat} (a : Sends n s t) (b : Sends n t u) : Sends n s u where
  only := by
    obtain ⟨m, o, p, rfl⟩ := a.only
    obtain ⟨m', o', p', rfl⟩ := b.only
    exact ⟨m', o ++ o', p', by rw [List.append_assoc]⟩
  wf h := b.wf (a.wf h)
  low h := (b.low (a.wf h)).trans (a.low h)
  cqs h hq := by
    obtain ⟨hq', hs⟩ := a.cqs h hq
    obtain ⟨hq'', ht⟩ := b.cqs (a.wf h) hq'
    refine ⟨hq'', fun q => ?_⟩
    rcases ht q with ht | ⟨ht, hsent⟩
    · rcases hs q with hs | ⟨hs, hsent⟩
      · exact .inl (ht.trans hs)
      · exact .inr ⟨ht.trans hs, fun hm => b.outbox (hsent hm)⟩
    · obtain ⟨hcfg, hmask⟩ := a.vector (cqCfgA n q) (fld (s.cfgN (cqCfgA n q)) 16 10)
      rw [hcfg, hmask] at hsent
      exact .inr ⟨ht, hsent⟩

theorem foldl {β : Type} {n : Nat} {f : State → β → State} (hf : ∀ s b, Sends n s (f s b)) (l : List β) (s : State) :
    Sends n s (l.foldl f s) := by
  induction l generalizing s with
  | nil => exact refl n s
  | cons b l ih => exact (hf s b).trans (ih _)

end Sends

/-- What `sendHeld` does for queue `q` of instance `k`. -/
def State.sendOne (s : State) (k q : Nat) : State :=
  if ((s.inst k).cq q).intPend then
    (s.modInst k (fun i => i.setCq q { (s.inst k).cq q with intPend := false })).msix k (fld (s.cfgN (cqCfgA k q)) 16 10)
  else s

theorem cq_setCq {i : Inst} (h : mwf (fun _ => Cq.init) i.cqs = true) (q r : Nat) (c : Cq) :
    (i.setCq q c).cq r = if r = q then c else i.cq r := mget_mput h

theorem sendOne_sends (n : Nat) (s : State) (k q : Nat) : Sends n s (s.sendOne k q) := by
  unfold State.sendOne
  split
  · rename_i hpend
    obtain ⟨p, o, h, hsent⟩ := msix_appends (s.modInst k (fun i => i.setCq q { (s.inst k).cq q with intPend := false })) k
      (fld (s.cfgN (cqCfgA k q)) 16 10)
    rw [h]
    refine ⟨⟨_, o, p, rfl⟩, fun hwf => mwf_mput hwf, fun hwf => ?_, fun hwf hq => ?_⟩
    · have hinst := inst_setInst hwf k n ((s.inst k).setCq q { (s.inst k).cq q with intPend := false })
      by_cases hn : n = k
      · subst hn
        rw [if_pos rfl] at hinst
        have hlow := congrArg Inst.low hinst
        exact hlow
      · exact congrArg Inst.low (hinst.trans (if_neg hn))
    · have hinst := inst_setInst hwf k n ((s.inst k).setCq q { (s.inst k).cq q with intPend := false })
      by_cases hn : n = k
      · subst hn
        rw [if_pos rfl] at hinst
        have hcqs : mwf (fun _ => Cq.init) ((s.inst n).setCq q { (s.inst n).cq q with intPend := false }).cqs = true := mwf_mput hq
        refine ⟨(congrArg (fun i : Inst => mwf (fun _ => Cq.init) i.cqs) hinst).trans hcqs, fun r => ?_⟩
        have hcq := cq_setCq hq q r { (s.inst n).cq q with intPend := false }
        have hget := (congrArg (fun i : Inst => i.cq r) hinst).trans hcq
        by_cases hr : r = q
        · subst hr
          rw [if_pos rfl] at hget
          refine .inr ⟨congrArg Cq.intPend hget, fun hm => ?_⟩
          exact List.mem_append_right _ (by rw [hsent hm]; exact List.mem_singleton_self _)
        · rw [if_neg hr] at hget
          exact .inl (congrArg Cq.intPend hget)
      · rw [if_neg hn] at hinst
        exact ⟨(congrArg (fun i : Inst => mwf (fun _ => Cq.init) i.cqs) hinst).trans hq, fun r =>
          .inl (congrArg (fun i : Inst => (i.cq r).intPend) hinst)⟩
  · exact Sends.refl n s

theorem sendHeld_sends (n : Nat) (s : State) (k : Nat) : Sends n s (s.sendHeld k) := Sends.foldl (fun s q => sendOne_sends n s k q) _ s

/-- A step of a fold that establishes what every step keeps: it holds at the end. -/
theorem foldl_reaches {β : Type} {f : State → β → State} {W P : State → Prop} (hW : ∀ s b, W s → W (f s b))
    (hP : ∀ s b, W s → P s → P (f s b)) {l : List β} {b : β} (hb : b ∈ l) (hstep : ∀ s, W s → P (f s b)) (s : State) (hs : W s) :
    P (l.foldl f s) := by
  have hkeep : ∀ l s, W s → P s → P (List.foldl f s l) := by
    intro l
    induction l with
    | nil => exact fun _ _ h => h
    | cons c l ih => exact fun s hw hp => ih _ (hW s c hw) (hP s c hw hp)
  induction l generalizing s with
  | nil => exact absurd hb List.not_mem_nil
  | cons c l ih =>
    rcases List.mem_cons.1 hb with rfl | hb
    · exact hkeep l _ (hW s b hs) (hstep s hs)
    · exact ih hb _ (hW s c hs)

/-- The tables that the signals of instance `n` go through are in canonical form. -/
def State.signalWf (n : Nat) (s : State) : Prop := mwf Inst.init s.insts = true ∧ mwf (fun _ => Cq.init) (s.inst n).cqs = true
theorem Sends.signalWf {n : Nat} (h : Sends n s t) (hw : s.signalWf n) : t.signalWf n := ⟨h.wf hw.1, (h.cqs hw.1 hw.2).1⟩
theorem Sends.stays_sent {n q : Nat} (h : Sends n s t) (hw : s.signalWf n) (hs : ((s.inst n).cq q).intPend = false) :
    ((t.inst n).cq q).intPend = false := by
  rcases (h.cqs hw.1 hw.2).2 q with h | ⟨h, _⟩
  · exact h.trans hs
  · exact h

theorem sendOne_sent {n q : Nat} (hw : s.signalWf n) : (((s.sendOne n q).inst n).cq q).intPend = false := by
  cases hpend : ((s.inst n).cq q).intPend with
  | false =>
    have hsame : s.sendOne n q = s := if_neg (by simp [hpend])
    rw [hsame, hpend]
  | true =>
    obtain ⟨p, o, h, _⟩ := msix_appends (s.modInst n (fun i => i.setCq q { (s.inst n).cq q with intPend := false })) n
      (fld (s.cfgN (cqCfgA n q)) 16 10)
    have hsent : s.sendOne n q = _ := (if_pos hpend).trans h
    rw [hsent]
    have hinst := inst_setInst hw.1 n n ((s.inst n).setCq q { (s.inst n).cq q with intPend := false })
    rw [if_pos rfl] at hinst
    have hcq := cq_setCq hw.2 q q { (s.inst n).cq q with intPend := false }
    rw [if_pos rfl] at hcq
    exact congrArg Cq.intPend ((congrArg (fun i : Inst => i.cq q) hinst).trans hcq)

theorem sendHeld_sent {n q : Nat} (hq : q < 8) (hw : s.signalWf n) : (((s.sendHeld n).inst n).cq q).intPend = false :=
  foldl_reaches (W := State.signalWf n) (P := fun t => ((t.inst n).cq q).intPend = false) (fun s r h => (sendOne_sends n s n r).signalWf h)
    (fun s r hw h => (sendOne_sends n s n r).stays_sent hw h) (mem_upTo.2 hq) (fun _ h => sendOne_sent h) s hw

/-- With the link in L0 every function in D0 sends what it held. -/
theorem sendAllHeld_sent {n q : Nat} (hq : q < 8) (hw : s.signalWf n) (hlow : (s.inst n).low = false)
    (hheld : ((s.inst n).cq q).intPend = true) :
    ((((s.insts.filter (fun e => !e.2.low)).foldl (fun s e => s.sendHeld e.1) s).inst n).cq q).intPend = false := by
  have hlisted : (n, s.inst n) ∈ s.insts.filter (fun e => !e.2.low) :=
    List.mem_filter.2 ⟨mem_of_mget_ne (ne_init_of_held hheld), by simp [hlow]⟩
  exact foldl_reaches (f := fun s (e : Nat × Inst) => s.sendHeld e.1) (W := State.signalWf n)
    (P := fun t => ((t.inst n).cq q).intPend = false) (fun s e h => (sendHeld_sends n s e.1).signalWf h)
    (fun s e hw h => (sendHeld_sends n s e.1).stays_sent hw h) hlisted (fun _ h => sendHeld_sent hq h) s hw

/-- The function returns to D0 and the link to L0. -/
def State.awake (s : State) (n : Nat) : State :=
  { s.modInst n (fun i => { i with low := false }) with hostif := { s.hostif with linkLow := false } }
theorem exec_hostD0Return (hup : s.up = true) (n : Fin 257) : exec (.hostD0Return n) s = .next (s.awake n.val).sendAllHeld :=
  whenUp_of_up hup _

theorem hostD0Return_sends (hup : s.up = true) (hwf : s.tablesWf = true) (n : Fin 257) : Completes (.hostD0Return n) s (fun t =>
    (t.inst n.val).low = false ∧ t.hostif.linkLow = false ∧ (s.hostif.linkUp = true → t.start.wakeLow = false) ∧
    (s.hostif.linkUp = true → mwf (fun _ => Cq.init) (s.inst n.val).cqs = true → ∀ q, q < 8 →
      ((s.inst n.val).cq q).intPend = true → ((t.inst n.val).cq q).intPend = false ∧
        (s.msixMasked n.val (fld (s.cfgN (cqCfgA n.val q)) 16 10) = false →
          Out.msix n.val (fld (s.cfgN (cqCfgA n.val q)) 16 10) ∈ t.outbox)) ∧
    t.cfg = s.cfg ∧ t.hbm = s.hbm ∧ t.adm = s.adm) := by
  obtain ⟨_, _, _, _, _, _, hinsts⟩ := tablesWf_iff.1 hwf
  have hinst : (s.awake n.val).inst n.val = { s.inst n.val with low := false } :=
    (inst_setInst hinsts n.val n.val { s.inst n.val with low := false }).trans (if_pos rfl)
  have hinsts' : mwf Inst.init (s.awake n.val).insts = true := mwf_mput hinsts
  refine ⟨_, exec_hostD0Return hup n, ?_⟩
  cases hlink : s.hostif.linkUp with
  | false =>
    have hquiet : (s.awake n.val).sendAllHeld = s.awake n.val := if_pos (by
      show ((false || !s.hostif.linkUp) = true)
      rw [hlink]; rfl)
    rw [hquiet]
    exact ⟨congrArg Inst.low hinst, rfl, fun h => absurd h (by decide), fun h => absurd h (by decide), rfl, rfl, rfl⟩
  | true =>
    have hall : (s.awake n.val).sendAllHeld = { ((s.awake n.val).insts.filter (fun e => !e.2.low)).foldl (fun s e => s.sendHeld e.1)
        (s.awake n.val) with start := { (((s.awake n.val).insts.filter (fun e => !e.2.low)).foldl (fun s e => s.sendHeld e.1)
        (s.awake n.val)).start with wakeLow := false } } := if_neg (by
      show ¬ ((false || !s.hostif.linkUp) = true)
      rw [hlink]; decide)
    have hsends := Sends.foldl (n := n.val) (f := fun s (e : Nat × Inst) => s.sendHeld e.1) (fun s e => sendHeld_sends n.val s e.1)
      ((s.awake n.val).insts.filter (fun e => !e.2.low)) (s.awake n.val)
    have hsent := fun q hq hw => sendAllHeld_sent (s := s.awake n.val) (n := n.val) (q := q) hq hw (congrArg Inst.low hinst)
    rw [hall]
    generalize ((s.awake n.val).insts.filter (fun e => !e.2.low)).foldl (fun s e => s.sendHeld e.1) (s.awake n.val) = t at hsends hsent ⊢
    have hlow := (hsends.low hinsts').trans (congrArg Inst.low hinst)
    refine ⟨hlow, ?_, fun _ => rfl, fun _ hcqs q hq hheld => ?_, ?_⟩
    · obtain ⟨m, o, p, h⟩ := hsends.only
      rw [h]; rfl
    · have hcqs' : (s.awake n.val).signalWf n.val := ⟨hinsts', (congrArg (fun i : Inst => mwf (fun _ => Cq.init) i.cqs) hinst).trans hcqs⟩
      have hheld' : (((s.awake n.val).inst n.val).cq q).intPend = true :=
        (congrArg (fun i : Inst => (i.cq q).intPend) hinst).trans hheld
      have hgone := hsent q hq hcqs' hheld'
      refine ⟨hgone, fun hm => ?_⟩
      rcases (hsends.cqs hinsts' hcqs'.2).2 q with hsame | ⟨_, hout⟩
      · exact absurd (hgone.symm.trans (hsame.trans hheld')) (by decide)
      · exact hout hm
    · obtain ⟨m, o, p, h⟩ := hsends.only
      rw [h]; exact ⟨rfl, rfl, rfl⟩

/-- The three outcomes of a due signal: sent, waiting on a masked vector, held. -/
theorem dueSignal_outcomes (s : State) (n q : Nat) :
    ((s.inst n).low = false → s.hostif.linkLow = false → s.hostif.linkUp = true →
      (s.msixMasked n (fld (s.cfgN (cqCfgA n q)) 16 10) = false → (s.cqSignal n q).outbox =
        s.outbox ++ [.msix n (fld (s.cfgN (cqCfgA n q)) 16 10)] ∧ (s.cqSignal n q).hbm = s.hbm ∧ (s.cqSignal n q).cfg = s.cfg) ∧
      (s.msixMasked n (fld (s.cfgN (cqCfgA n q)) 16 10) = true → (s.cqSignal n q).outbox = s.outbox ∧ (s.cqSignal n q).hbm = s.hbm ∧
        (s.cqSignal n q).cfg = s.cfg ∧
        mget (fun _ => false) (s.cqSignal n q).hostif.msixPend (n * 1024 + fld (s.cfgN (cqCfgA n q)) 16 10) = true)) ∧
    ((s.inst n).low = true ∨ s.hostif.linkLow = true ∨ s.hostif.linkUp = false →
      (((s.cqSignal n q).inst n).cq q).intPend = true ∧ (∀ f v, Out.msix f v ∈ (s.cqSignal n q).outbox → Out.msix f v ∈ s.outbox) ∧
      (s.cqSignal n q).hbm = s.hbm ∧ (s.cqSignal n q).cfg = s.cfg) := by
  refine ⟨fun hlow hlink hup => ?_, fun h => ?_⟩
  · rw [cqSignal_free hlow hlink hup]
    constructor
    · intro hm
      rw [msix_sent (s := s.setInst n _) hm]
      exact ⟨rfl, rfl, rfl⟩
    · intro hm
      rw [msix_waits (s := s.setInst n _) hm]
      exact ⟨rfl, rfl, rfl, mget_mput_get _ true (by simp)⟩
  · obtain ⟨o, st, e, ho⟩ := cqSignal_held (q := q) h
    rw [e]
    have hheld : (((s.inst n).setCq q { (s.inst n).cq q with count := 0, intPend := true }).cq q).intPend = true := by
      rw [cq_setCq_held _ _ rfl]
    have hinst : mget Inst.init (mput Inst.init s.insts n ((s.inst n).setCq q { (s.inst n).cq q with count := 0, intPend := true })) n =
        (s.inst n).setCq q { (s.inst n).cq q with count := 0, intPend := true } := mget_mput_get _ _ (ne_init_of_held hheld)
    exact ⟨(congrArg (fun i : Inst => (i.cq q).intPend) hinst).trans hheld, ho, rfl, rfl⟩

/-- Settles O31: the use of the queue's words apart, a due signal has the outcomes of `dueSignal_outcomes`. -/
theorem signalsSentOrHeld : Obligations.SignalsSentOrHeld := by
  unfold Obligations.SignalsSentOrHeld
  refine ⟨fun s n q hrun hen hint htime hcount => ?_, fun s n q hrun h => exec_cqTimer_idle hrun h,
    fun s n hup hwf => hostD0Return_sends hup hwf n,
    fun s n hup => ⟨whenUp_of_up hup _, whenUp_of_up hup _, whenUp_of_up hup _⟩⟩
  have hexec := exec_cqTimer_due hrun hen hint htime hcount
  obtain ⟨l, c, hu⟩ := uses_only (s := s) (cqWords n.val q.val)
  rw [hu] at hexec
  obtain ⟨hfree, hheld⟩ := dueSignal_outcomes { s with faults := { s.faults with reports := s.faults.reports ++ l, live := c } } n.val q.val
  exact ⟨fun hlow hlink hup hm => ⟨_, hexec, (hfree hlow hlink hup).1 hm⟩, fun hlow hlink hup hm => ⟨_, hexec, (hfree hlow hlink hup).2 hm⟩,
    fun h => ⟨_, hexec, hheld h⟩⟩

end Sys2Proof.Machine
end

section
/-! The statements of the collector: a sampled group (R410–R413) and the entry into Fallow (R414, R419–R421, Table 18.5). -/

open Sys2Proof Sys2Proof.Machine

namespace Sys2Proof.Machine

variable {s t u : State}

/-! ## What an open job lets go of as Fallow is entered -/

/-- What the clean-up and the records of open jobs leave as it is. -/
def State.asleep (s : State) := (s.glob, s.cfg, s.fields, s.cores, s.pipes, s.keys, s.ctrl, s.life, s.tamper, s.adm.inlet,
  { s.faults with reports := [], live := 0 })
/-- No lookup and no edit pass is under way. -/
def State.amusRest (s : State) : Prop := ∀ e ∈ s.amus, e.2.slices = [] ∧ e.2.pass = none

/-- Jobs let go of what they hold: what sleeps stays asleep. -/
structure Sheds (s t : State) : Prop where
  kept : t.asleep = s.asleep
  amus : s.amusRest → t.amusRest

namespace Sheds

theorem refl (s : State) : Sheds s s := ⟨rfl, id⟩
theorem trans (a : Sheds s t) (b : Sheds t u) : Sheds s u := ⟨b.kept.trans a.kept, b.amus ∘ a.amus⟩
theorem ite {c : Prop} [Decidable c] (a : Sheds s t) (b : Sheds s u) : Sheds s (if c then t else u) := by
  split
  · exact a
  · exact b
theorem foldl {β : Type} {f : State → β → State} (hf : ∀ s b, Sheds s (f s b)) (l : List β) (s : State) : Sheds s (l.foldl f s) := by
  induction l generalizing s with
  | nil => exact refl s
  | cons b l ih => exact (hf s b).trans (ih _)

theorem same (h : t.asleep = s.asleep) (ha : t.amus = s.amus) : Sheds s t := ⟨h, fun hs e he => hs e (ha ▸ he)⟩
theorem blur (s : State) (rs : List (Nat × Nat)) : Sheds s (s.blur rs) := by
  obtain ⟨m, n, e⟩ := blur_only s rs
  rw [e]
  exact same rfl rfl
theorem setHandle (s : State) (k : Nat) (x : Handle) : Sheds s (s.setHandle k x) := same rfl rfl
theorem recordClaim (s : State) (j : Job) : Sheds s (s.recordClaim j) := by
  unfold State.recordClaim
  exact same rfl rfl
theorem ingestEnd (s : State) (j : Job) (st : Nat) : Sheds s (s.ingestEnd j st) :=
  ite (refl s) (ite (blur s _) (ite (blur s _) (refl s)))
theorem dropLists (s : State) (id : Nat) : Sheds s { s with
    amus := mmap (fun _ => Amu.init) (fun _ u => { u with lists := u.lists.filter (fun l => l.job != id) }) s.amus } :=
  ⟨rfl, fun h => Rests.forall_mmap_of (P := fun x : Amu => x.slices = [] ∧ x.pass = none) (fun _ _ hx => hx) h⟩
theorem jobCleanup (s : State) (j : Job) (st : Nat) : Sheds s (s.jobCleanup j st) :=
  ite (ite (setHandle s _ _) (ite (setHandle s _ _) (refl s)))
    (ite (dropLists s j.id) (ite (recordClaim s j) (ite (ingestEnd s j st) (refl s))))
theorem uses (s : State) (as : List Nat) : Sheds s (s.uses as) := by
  obtain ⟨l, c, e⟩ := uses_only (s := s) as
  rw [e]
  exact same rfl rfl
theorem memWrite (s : State) (host : Bool) (a : Nat) (b : Bytes) : Sheds s (s.memWrite host a b) := by
  obtain ⟨m, k, c, x, e⟩ := memWrite_only s host a b
  rw [e]
  exact same rfl rfl
theorem cqSignal (s : State) (n q : Nat) : Sheds s (s.cqSignal n q) := by
  obtain ⟨i, x, o, st, e⟩ := cqSignal_only s n q
  rw [e]
  exact same rfl rfl
theorem cqWrite (s : State) (n q : Nat) (r : Bytes) : Sheds s (s.cqWrite n q r) := by
  have hu := uses s (cqWords n q)
  cases hon : bit ((s.uses (cqWords n q)).cfgN (cqCfgA n q)) 31 with
  | false => rw [cqWrite_off rfl hon r]; exact hu
  | true =>
    obtain ⟨t, x, ht, e⟩ := cqWrite_on rfl hon r
    have hset : Sheds s t := by
      rw [ht]
      exact (hu.trans (memWrite _ _ _ _)).trans (same rfl rfl)
    rcases e with e | e <;> rw [e]
    · exact hset
    · exact hset.trans (cqSignal t n q)

/-- The open jobs of Fallow leave, with their records or without. -/
theorem fallowRecords (s : State) : Sheds s s.fallowRecords ∧ s.fallowRecords.adm.jobs = [] :=
  ⟨((foldl (fun u (j : Job) => jobCleanup u j 0x12) _ s).trans
    (foldl (fun u _ => ite (cqWrite u _ _ _) (refl u)) _ _)).trans (same rfl rfl), rfl⟩

end Sheds

/-! ## The entry (Table 18.5) -/

/-- Fallow as the collector enters it, before it stops the operations. -/
def State.sleeping (s : State) (cause : BitVec 10) : State := { s with
  faults := { s.faults with cause := s.faults.sticky, causeSwn := s.glob.swn, fallow := true, fallowCause := cause, pinLow := true
                            pulse := false, groups := [] }
  glob := { s.glob with devState := 2 }
  adm := { s.adm with inlet := [] }
  commons := { s.commons with rsv := [], waiting := [] } }
/-- The units stop and the working keys are zeroed. -/
def State.unitsStopped (s : State) : State := { s with
  fields := mmap (fun _ => Field.init) (fun _ x => { x with slices := [], seals := [], loading := none }) s.fields
  amus := mmap (fun _ => Amu.init) (fun _ x => { x with slices := [], pass := none, count := x.pass.elim x.count (·.oldCount) }) s.amus
  keys := { s.keys with slots := [], pend := [], phase := 2 } }

theorem enterFallow_eq (s : State) (cause : BitVec 10) : s.enterFallow cause = State.modFaults
    (((upTo 12).foldl (fun s c => s.haltCore c) ((s.sleeping cause).dropPieces (fun _ => true)).unitsStopped).fallowRecords)
    (fun f => { f with fallowDone := true }) := by
  unfold State.enterFallow State.unitsStopped
  dsimp only [State.copyCause, State.modFaults, State.sleeping]

theorem without_all (x : Core) : (x.without (fun _ => true)).pieces = [] := by
  have hnone : x.pieces.filter (fun e => !(fun _ : Piece => true) e) = [] := by simp
  unfold Core.without
  dsimp only at hnone ⊢
  rw [hnone]
  split <;> rfl

/-- Where every operation is dropped none begins: the cores and pipelines are left without pieces. -/
theorem dropPieces_all (s : State) : ∃ p d c q, s.dropPieces (fun _ => true) = { s with pools := p, digest := d, cores := c, pipes := q } ∧
    ∀ e ∈ c ++ q, e.2.pieces = [] := by
  obtain ⟨p, d, h⟩ := dropPieces_begins s (fun _ => true)
  have hc := forall_mmap (d := fun _ => Core.init) (m := s.cores) (P := fun x : Core => x.pieces = [])
    (f := fun _ x => x.without (fun _ => true)) fun _ x => without_all x
  have hp := forall_mmap (d := fun _ => Core.init) (m := s.pipes) (P := fun x : Core => x.pieces = [])
    (f := fun _ x => x.without (fun _ => true)) fun _ x => without_all x
  rw [Rests.begins_of_quiet hc hp] at h
  exact ⟨_, _, _, _, h, fun e he => (List.mem_append.1 he).elim (hc e) (hp e)⟩

theorem enterFallow_stops (s : State) (cause : BitVec 10) : let t := s.enterFallow cause
    t.faults.fallow = true ∧ t.faults.fallowDone = true ∧ t.glob.devState = 2 ∧
      t.faults.pinLow = true ∧ t.faults.groups = [] ∧ t.adm.inlet = [] ∧ t.adm.jobs = [] ∧ t.keys.slots = [] ∧
      t.faults.cause = s.faults.sticky ∧ t.faults.causeSwn = s.glob.swn ∧ (∀ c, c < 12 → c ∈ t.ctrl.halted) ∧
      (∀ f, (t.field f).slices = [] ∧ (t.field f).loading = none) ∧ (∀ u, (t.amu u).slices = [] ∧ (t.amu u).pass = none) ∧
      (∀ e ∈ t.cores ++ t.pipes, e.2.pieces = []) ∧ t.life = s.life ∧ t.tamper = s.tamper ∧ t.cfg = s.cfg := by
  obtain ⟨p, d, c, q, hdrop, hquiet⟩ := dropPieces_all (s.sleeping cause)
  obtain ⟨i, k, x, hhalt, hhalted⟩ := haltCores_only (upTo 12) ((s.sleeping cause).dropPieces (fun _ => true)).unitsStopped
  obtain ⟨⟨hkept, hamus⟩, hjobs⟩ := Sheds.fallowRecords
    ((upTo 12).foldl (fun s c => s.haltCore c) ((s.sleeping cause).dropPieces (fun _ => true)).unitsStopped)
  intro t
  have ht : t = _ := enterFallow_eq s cause
  rw [ht]
  generalize State.fallowRecords _ = v at hkept hamus hjobs
  rw [hhalt, hdrop] at hkept hamus
  simp only [State.asleep, Prod.mk.injEq] at hkept
  obtain ⟨hglob, hcfg, hfields, hcores, hpipes, hkeys, hctrl, hlife, htamper, hinlet, hfaults⟩ := hkept
  have hamu := hamus (forall_mmap (d := fun _ => Amu.init) (m := s.amus) (P := fun x : Amu => x.slices = [] ∧ x.pass = none)
    (f := fun _ x => { x with slices := [], pass := none, count := x.pass.elim x.count (·.oldCount) }) fun _ _ => ⟨rfl, rfl⟩)
  have hfield : ∀ e ∈ v.fields, e.2.slices = [] ∧ e.2.loading = none := by
    rw [hfields]
    exact forall_mmap (d := fun _ => Field.init) (P := fun x : Field => x.slices = [] ∧ x.loading = none) fun _ _ => ⟨rfl, rfl⟩
  have hpieces : ∀ e ∈ v.cores ++ v.pipes, e.2.pieces = [] := by rw [hcores, hpipes]; exact hquiet
  refine ⟨(congrArg Faults.fallow hfaults :), rfl, (congrArg Glob.devState hglob :), (congrArg Faults.pinLow hfaults :),
    (congrArg Faults.groups hfaults :), hinlet, hjobs, (congrArg KeyStore.slots hkeys :), (congrArg Faults.cause hfaults :),
    (congrArg Faults.causeSwn hfaults :), fun n hn => ?_, fun f => ?_, fun u => ?_, hpieces, hlife, htamper, hcfg⟩
  · have hmem := hhalted n (.inl (mem_upTo.2 hn))
    rw [← hctrl] at hmem
    exact hmem
  · exact forall_mget (P := fun x : Field => x.slices = [] ∧ x.loading = none) hfield f ⟨rfl, rfl⟩
  · exact forall_mget (P := fun x : Amu => x.slices = [] ∧ x.pass = none) hamu u ⟨rfl, rfl⟩

/-- Settles O42. -/
theorem fallowEntryStopsTheDevice : Obligations.FallowEntryStopsTheDevice := by
  unfold Obligations.FallowEntryStopsTheDevice
  intro s cause hrun hcause
  rcases hcause with rfl | ⟨n, rfl, hlo, hhi, hsticky⟩
  · exact ⟨_, whenRun_of_running hrun _, enterFallow_stops s 512⟩
  · exact ⟨_, (whenRun_of_running hrun _).trans (congrArg _ (if_pos ⟨hlo, hhi, by simp [hsticky]⟩)), enterFallow_stops s _⟩

/-! ## A sampled group (R410–R413) -/

/-- The use of a word whose parity holds tells nothing. -/
theorem uses_good {a : Nat} (h : a ∉ s.parBad) : s.uses [a] = s := by simp [State.uses, State.checkParity, h]

/-- The record of an event in the queue of a collector whose consumer stands at `cons`. -/
def Faults.recorded (f : Faults) (swn off taken cons : Nat) (r : FaultReport) : Faults :=
  let n := r.source.val
  let full := (f.prod.toNat + 512 - cons % 512) % 512 == 256
  { f with
    sticky := f.sticky ||| BitVec.ofNat 512 (2 ^ n)
    count := cput f.count n (satInc 16 (cget f.count n))
    fq := if full then f.fq else
      mput (fun _ => zeros 32) f.fq (f.prod.toNat % 256) (faultRecord swn off r
        (match faultKind n with | some k => k.cls | none => 0) (!f.sticky.getLsbD n) taken)
    prod := if full then f.prod else f.prod + 1
    dropped := if full then satInc 32 f.dropped else f.dropped }

/-- An event concerns the collector alone; the check of FQ_CONS may tell of a parity error. -/
theorem recordEvent_only (s : State) (off taken : Nat) (r : FaultReport) : ∃ l c, s.recordEvent off taken r = { s with
    faults := ({ s.faults with reports := s.faults.reports ++ l, live := c } : Faults).recorded s.swnN off taken (s.cfgN 0xB00014) r } ∧
      (0xB00014 ∉ s.parBad → l = []) := by
  unfold State.recordEvent
  dsimp only
  by_cases h : 0xB00014 ∈ s.parBad
  · obtain ⟨l, c, e⟩ := uses_only (s := s) [0xB00014]
    rw [e]
    exact ⟨l, c, rfl, fun hn => absurd h hn⟩
  · rw [uses_good h]
    exact ⟨[], s.faults.live, by rw [List.append_nil]; rfl, fun _ => rfl⟩

theorem wrongEvent_right (h : s.faults.fallow = false) (n : Nat) : s.wrongEvent n = s := by simp [State.wrongEvent, h]
/-- Wrong bits, counts and records of the collector leave what waits at it alone. -/
theorem wrongEvent_only (s : State) (n : Nat) : ∃ st c q k, s.wrongEvent n = { s with
    faults := { s.faults with sticky := st, count := c, fq := q }, free := k } := by
  unfold State.wrongEvent
  split
  · exact ⟨s.faults.sticky, s.faults.count, s.faults.fq, s.free, rfl⟩
  · exact ⟨_, _, _, _, rfl⟩

/-- The reports that a sample takes leave the waiting ones. -/
def State.sampled (s : State) (n : Nat) : State := s.modFaults (fun f => { f with reports := f.reports.drop n })
/-- The block's own reports of one sample. -/
theorem sample_own (s : State) (off n : Nat) : s.sample off n [] =
    let mask := if s.faults.fallow then 0 else (s.faults.reports.take n).foldl (fun m r => m ||| s.maskOf r.source.val) 0
    let t := (s.faults.reports.take n).foldl (fun s r => (s.recordEvent off mask r).wrongEvent r.source.val) (s.sampled n)
    if mask = 0 then t else t.modFaults (fun f => { f with groups := f.groups ++ [{ reports := s.faults.reports.take n, todo := reactions mask }] }) := by
  have hnone : (s.faults.reports.take n).drop (min n s.faults.reports.length) = [] :=
    List.drop_eq_nil_of_le (by rw [List.length_take])
  unfold State.sample
  simp only [List.map_nil, List.filter_nil, List.append_nil, hnone, List.foldl_nil]
  rfl

/-- A sampled event of a device outside Fallow is recorded; its group waits where its mask selects a reaction. -/
theorem sample_one {off : Nat} {r : FaultReport} {rs : List FaultReport} (hfallow : s.faults.fallow = false)
    (hreports : s.faults.reports = r :: rs) : s.sample off 1 [] =
      ((s.sampled 1).recordEvent off (s.maskOf r.source.val) r).modFaults (fun f => { f with groups := f.groups ++
        (if s.maskOf r.source.val = 0 then [] else [{ reports := [r], todo := reactions (s.maskOf r.source.val) }]) }) := by
  have htake : s.faults.reports.take 1 = [r] := by rw [hreports]; rfl
  have hright : ((s.sampled 1).recordEvent off (s.maskOf r.source.val) r).wrongEvent r.source.val =
      (s.sampled 1).recordEvent off (s.maskOf r.source.val) r := by
    refine wrongEvent_right ?_ _
    obtain ⟨l, c, e, _⟩ := recordEvent_only (s.sampled 1) off (s.maskOf r.source.val) r
    rw [e]
    exact hfallow
  rw [sample_own, htake, hfallow]
  simp only [List.foldl_cons, List.foldl_nil, Nat.zero_or, hright, Bool.false_eq_true, if_false]
  split
  · simp only [State.modFaults, List.append_nil]
  · rfl

/-- What a record leaves of the queue and its counts. -/
theorem recorded_queue {f : Faults} (hfq : mwf (fun _ => zeros 32) f.fq = true) (swn off taken cons : Nat) (r : FaultReport) :
    let full := (f.prod.toNat + 512 - cons % 512) % 512 = 256
    let g := f.recorded swn off taken cons r
    cget g.count r.source.val = satInc 16 (cget f.count r.source.val) ∧
    (¬ full → g.prod = f.prod + 1 ∧ g.dropped = f.dropped ∧ mget (fun _ => zeros 32) g.fq (f.prod.toNat % 256) =
      faultRecord swn off r (match faultKind r.source.val with | some k => k.cls | none => 0) (!f.sticky.getLsbD r.source.val) taken) ∧
    (full → g.prod = f.prod ∧ g.dropped = satInc 32 f.dropped) := by
  intro full g
  refine ⟨cget_cput_satInc _ _, fun h => ?_, fun h => ?_⟩
  · have hroom : ((f.prod.toNat + 512 - cons % 512) % 512 == 256) = false := by simpa using h
    refine ⟨if_neg (by simp [hroom]), if_neg (by simp [hroom]), ?_⟩
    have hq : g.fq = mput (fun _ => zeros 32) f.fq (f.prod.toNat % 256) (faultRecord swn off r
        (match faultKind r.source.val with | some k => k.cls | none => 0) (!f.sticky.getLsbD r.source.val) taken) :=
      if_neg (by simp [hroom])
    rw [hq]
    exact mget_mput_same hfq
  · have hfull : ((f.prod.toNat + 512 - cons % 512) % 512 == 256) = true := by simpa using h
    exact ⟨if_pos hfull, if_pos hfull⟩

theorem sampledEvent {off : BitVec 22} {r : FaultReport} {rs : List FaultReport} (hup : s.up = true) (hfallow : s.faults.fallow = false)
    (hreports : s.faults.reports = r :: rs) (hfq : mwf (fun _ => zeros 32) s.faults.fq = true) :
    let n := r.source.val
    let mask := s.maskOf n
    let full := (s.faults.prod.toNat + 512 - s.cfgN 0xB00014 % 512) % 512 = 256
    Completes (.faultGroupSampled off 1 []) s (fun t =>
      (∃ l, t.faults.reports = rs ++ l ∧ (0xB00014 ∉ s.parBad → l = [])) ∧
      t.faults.sticky = s.faults.sticky ||| BitVec.ofNat 512 (2 ^ n) ∧
      cget t.faults.count n = satInc 16 (cget s.faults.count n) ∧
      (¬ full → t.faults.prod = s.faults.prod + 1 ∧ t.faults.dropped = s.faults.dropped ∧
        mget (fun _ => zeros 32) t.faults.fq (s.faults.prod.toNat % 256) = faultRecord s.swnN off.toNat r
          (match faultKind n with | some k => k.cls | none => 0) (!s.faults.sticky.getLsbD n) mask) ∧
      (full → t.faults.prod = s.faults.prod ∧ t.faults.dropped = satInc 32 s.faults.dropped) ∧
      t.faults.groups = s.faults.groups ++ (if mask = 0 then [] else [{ reports := [r], todo := reactions mask }]) ∧
      t.cfg = s.cfg ∧ t.hbm = s.hbm ∧ t.keys = s.keys) := by
  intro n mask full
  refine ⟨_, whenUp_of_up hup _, ?_⟩
  rw [sample_one hfallow hreports]
  obtain ⟨l, c, e, hl⟩ := recordEvent_only (s.sampled 1) off.toNat mask r
  obtain ⟨hcount, hroom, hfull⟩ := recorded_queue
    (f := { (s.sampled 1).faults with reports := (s.sampled 1).faults.reports ++ l, live := c }) hfq s.swnN off.toNat mask (s.cfgN 0xB00014) r
  have hrs : s.faults.reports.drop 1 ++ l = rs ++ l := by rw [hreports]; rfl
  rw [e]
  exact ⟨⟨l, hrs, hl⟩, rfl, hcount, hroom, hfull, rfl, rfl, rfl, rfl⟩

/-- In Fallow a sample takes its reports and selects no reaction (R422). -/
theorem sampledInFallow {off : BitVec 22} {n : Nat} (hup : s.up = true) (hfallow : s.faults.fallow = true) :
    Completes (.faultGroupSampled off n []) s (fun t =>
      t.faults.groups = s.faults.groups ∧ (∃ l, t.faults.reports = s.faults.reports.drop n ++ l) ∧ t.cfg = s.cfg ∧ t.hbm = s.hbm) := by
  have hfold : ∀ (rs : List FaultReport) (u : State), ∃ f k, rs.foldl (fun s r => (s.recordEvent off.toNat 0 r).wrongEvent r.source.val) u =
      { u with faults := f, free := k } ∧ f.groups = u.faults.groups ∧ ∃ l, f.reports = u.faults.reports ++ l := by
    intro rs
    induction rs with
    | nil => exact fun u => ⟨u.faults, u.free, rfl, rfl, [], (List.append_nil _).symm⟩
    | cons r rs ih =>
      intro u
      obtain ⟨l, c, e, _⟩ := recordEvent_only u off.toNat 0 r
      obtain ⟨st, m, q, k, e'⟩ := wrongEvent_only (u.recordEvent off.toNat 0 r) r.source.val
      obtain ⟨f, k', h, hg, l', hl⟩ := ih ((u.recordEvent off.toNat 0 r).wrongEvent r.source.val)
      rw [e', e] at hg hl
      refine ⟨f, k', by rw [List.foldl_cons, h, e', e], hg, l ++ l', ?_⟩
      rw [hl]
      exact List.append_assoc _ _ _
  refine ⟨_, whenUp_of_up hup _, ?_⟩
  rw [sample_own]
  simp only [hfallow, if_true]
  obtain ⟨f, k, h, hg, hl⟩ := hfold (s.faults.reports.take n) (s.sampled n)
  rw [h]
  exact ⟨hg, hl, rfl, rfl⟩

/-- Settles O39. -/
theorem sampledEventIsRecorded : Obligations.SampledEventIsRecorded := by
  unfold Obligations.SampledEventIsRecorded
  exact ⟨fun s off r rs hup hfallow hreports hfq => sampledEvent hup hfallow hreports hfq,
    fun s off n hup hfallow => sampledInFallow hup hfallow, fun mask => List.filter_sublist⟩

end Sys2Proof.Machine
end

section
/-! What a fence and a block reset take away, and what they leave (R24, R132, R263, R286, R321, R409, R416). -/

open Sys2Proof Sys2Proof.Machine

namespace Sys2Proof.Machine

variable {s t u : State}

/-! ## Units out of service -/

/-- A field that is fenced stays so, one without slices gets none, and one that is fenced anew has none. -/
def FieldFences (x y : Field) : Prop :=
  (x.fenced = true → y.fenced = true) ∧ (x.slices = [] → y.slices = []) ∧ (y.fenced = true → x.fenced = true ∨ y.slices = [])
theorem FieldFences.refl (x : Field) : FieldFences x x := ⟨id, id, .inl⟩
theorem FieldFences.trans {x y z : Field} (a : FieldFences x y) (b : FieldFences y z) : FieldFences x z := by
  obtain ⟨af, as, an⟩ := a
  obtain ⟨bf, bs, bn⟩ := b
  refine ⟨bf ∘ af, bs ∘ as, fun hz => ?_⟩
  rcases bn hz with hy | hz
  · exact (an hy).imp id bs
  · exact .inr hz
/-- A field that keeps its fence and gets no slice where it had none. -/
theorem FieldFences.of_same {x y : Field} (hf : y.fenced = x.fenced) (hs : x.slices = [] → y.slices = []) : FieldFences x y :=
  ⟨fun h => hf.trans h, hs, fun h => .inl (hf.symm.trans h)⟩

/-- What fences and block resets leave alone. -/
def State.unfenced (s : State) := (s.cfg, s.live, s.host, s.ctrl, s.insts, s.start, s.life, s.faults.sticky, s.faults.fallow)

/-- From `s` to `t` units leave service and none enters it; the stores keep their canonical form. -/
structure Fences (s t : State) : Prop where
  kept : t.unfenced = s.unfenced
  hbm : mwf hbmDefault s.hbm = true → mwf hbmDefault t.hbm = true
  fields : mwf (fun _ => Field.init) s.fields = true →
    mwf (fun _ => Field.init) t.fields = true ∧ ∀ g, FieldFences (s.field g) (t.field g)
  amus : mwf (fun _ => Amu.init) s.amus = true →
    mwf (fun _ => Amu.init) t.amus = true ∧ ∀ a, (s.amu a).fenced = true → (t.amu a).fenced = true
  cores : mwf (fun _ => Core.init) s.cores = true →
    mwf (fun _ => Core.init) t.cores = true ∧ ∀ k, (s.core k).fenced = true → (t.core k).fenced = true
  pipes : mwf (fun _ => Core.init) s.pipes = true →
    mwf (fun _ => Core.init) t.pipes = true ∧ ∀ k, (s.pipe k).fenced = true → (t.pipe k).fenced = true
  pcs : ∀ i, s.hbmc.pcFenced.getLsbD i = true → t.hbmc.pcFenced.getLsbD i = true
  ports : ∀ k, s.commons.fenced.getLsbD k = true → t.commons.fenced.getLsbD k = true

/-- The parts of a state that `Fences` speaks of. -/
def State.fenceParts (s : State) :=
  (s.unfenced, s.hbm, s.fields, s.amus, s.cores, s.pipes, s.hbmc.pcFenced, s.commons.fenced)

namespace Fences

theorem refl (s : State) : Fences s s :=
  ⟨rfl, id, fun h => ⟨h, fun _ => .refl _⟩, fun h => ⟨h, fun _ => id⟩, fun h => ⟨h, fun _ => id⟩, fun h => ⟨h, fun _ => id⟩,
    fun _ => id, fun _ => id⟩
theorem trans (a : Fences s t) (b : Fences t u) : Fences s u where
  kept := b.kept.trans a.kept
  hbm := b.hbm ∘ a.hbm
  fields h := ⟨(b.fields (a.fields h).1).1, fun g => ((a.fields h).2 g).trans ((b.fields (a.fields h).1).2 g)⟩
  amus h := ⟨(b.amus (a.amus h).1).1, fun g => (b.amus (a.amus h).1).2 g ∘ (a.amus h).2 g⟩
  cores h := ⟨(b.cores (a.cores h).1).1, fun g => (b.cores (a.cores h).1).2 g ∘ (a.cores h).2 g⟩
  pipes h := ⟨(b.pipes (a.pipes h).1).1, fun g => (b.pipes (a.pipes h).1).2 g ∘ (a.pipes h).2 g⟩
  pcs i := b.pcs i ∘ a.pcs i
  ports k := b.ports k ∘ a.ports k
theorem ite {c : Prop} [Decidable c] (a : Fences s t) (b : Fences s u) : Fences s (if c then t else u) := by
  split
  · exact a
  · exact b
theorem foldl {β : Type} {f : State → β → State} (hf : ∀ s b, Fences s (f s b)) (l : List β) (s : State) : Fences s (l.foldl f s) := by
  induction l generalizing s with
  | nil => exact refl s
  | cons b l ih => exact (hf s b).trans (ih _)

/-- A step that touches none of these parts. -/
theorem same (h : t.fenceParts = s.fenceParts) : Fences s t := by
  simp only [State.fenceParts, Prod.mk.injEq] at h
  obtain ⟨hk, hh, hf, ha, hc, hp, hi, hq⟩ := h
  have e (g : Nat) : t.field g = s.field g := by rw [State.field, hf, State.field]
  have ea (g : Nat) : t.amu g = s.amu g := by rw [State.amu, ha, State.amu]
  have ec (g : Nat) : t.core g = s.core g := by rw [State.core, hc, State.core]
  have ep (g : Nat) : t.pipe g = s.pipe g := by rw [State.pipe, hp, State.pipe]
  exact ⟨hk, fun h => hh ▸ h, fun h => ⟨hf ▸ h, fun g => e g ▸ .refl _⟩, fun h => ⟨ha ▸ h, fun g h => ea g ▸ h⟩,
    fun h => ⟨hc ▸ h, fun g h => ec g ▸ h⟩, fun h => ⟨hp ▸ h, fun g h => ep g ▸ h⟩, fun i h => hi ▸ h, fun k h => hq ▸ h⟩
theorem engines (h : EnginesOnly s t) : Fences s t := by
  have g : ∀ {α : Type} (f : State → α), f t.withoutEngines = f s.withoutEngines := fun f => congrArg f h.rest
  have hk : t.unfenced = s.unfenced := g State.unfenced
  have hh : t.hbm = s.hbm := g State.hbm
  have hf : t.fields = s.fields := g State.fields
  have ha : t.amus = s.amus := g State.amus
  have hi : t.hbmc.pcFenced = s.hbmc.pcFenced := g (·.hbmc.pcFenced)
  have hq : t.commons = s.commons := g State.commons
  have e (g : Nat) : t.field g = s.field g := by rw [State.field, hf, State.field]
  have ea (g : Nat) : t.amu g = s.amu g := by rw [State.amu, ha, State.amu]
  refine ⟨hk, fun h => hh ▸ h, fun h => ⟨hf ▸ h, fun g => e g ▸ .refl _⟩, fun h => ⟨ha ▸ h, fun g h => ea g ▸ h⟩,
    fun w => ⟨(h.cores w).1, fun k hs => ?_⟩, fun w => ⟨(h.pipes w).1, fun k hs => ?_⟩, fun i h => hi ▸ h, fun k h => hq ▸ h⟩
  · have e : (t.core k).fenced = (s.core k).fenced := by simpa [Core.still] using congrArg Core.fenced ((h.cores w).2 k)
    exact e.trans hs
  · have e : (t.pipe k).fenced = (s.pipe k).fenced := by simpa [Core.still] using congrArg Core.fenced ((h.pipes w).2 k)
    exact e.trans hs

/-- Fences keep the canonical form. -/
theorem canonical (h : Fences s t) (hs : s.Canonical) : t.Canonical := by
  obtain ⟨hk, hh, hf, ha, hc, hp, -, -⟩ := h
  simp only [State.unfenced, Prod.mk.injEq] at hk
  obtain ⟨hcfg, hlive, hhost, hctrl, hinst, -⟩ := hk
  rw [canonical_iff] at *
  obtain ⟨⟨h1, h2, h3⟩, h4, h5, h6, h7, h8, h9, h10⟩ := hs
  exact ⟨⟨hh h1, hhost ▸ h2, hctrl ▸ h3⟩, hcfg ▸ h4, hlive ▸ h5, (hf h6).1, (ha h7).1, (hc h8).1, (hp h9).1, hinst ▸ h10⟩
theorem cfg (h : Fences s t) : t.cfg = s.cfg := congrArg (·.1) h.kept
theorem live (h : Fences s t) : t.live = s.live := congrArg (·.2.1) h.kept
theorem sticky (h : Fences s t) : t.faults.sticky = s.faults.sticky := congrArg (·.2.2.2.2.2.2.2.1) h.kept
theorem fallow (h : Fences s t) : t.faults.fallow = s.faults.fallow := congrArg (·.2.2.2.2.2.2.2.2) h.kept

/-! ## The units -/

theorem setField {f : Nat} {x : Field} (h : FieldFences (s.field f) x) : Fences s (s.setField f x) :=
  ⟨rfl, id, fun w => ⟨mwf_mput w, fun g => by
    rw [field_setField w]
    split
    · subst_vars
      exact h
    · exact .refl _⟩, fun h => ⟨h, fun _ => id⟩, fun h => ⟨h, fun _ => id⟩, fun h => ⟨h, fun _ => id⟩, fun _ => id, fun _ => id⟩
theorem modField (s : State) (f : Nat) {g : Field → Field} (h : ∀ x, FieldFences x (g x)) : Fences s (s.modField f g) := setField (h _)
theorem setAmu {a : Nat} {x : Amu} (h : (s.amu a).fenced = true → x.fenced = true) : Fences s (s.setAmu a x) :=
  ⟨rfl, id, fun h => ⟨h, fun _ => .refl _⟩, fun w => ⟨mwf_mput w, fun g => by
    rw [amu_setAmu w]
    split
    · subst_vars
      exact h
    · exact id⟩, fun h => ⟨h, fun _ => id⟩, fun h => ⟨h, fun _ => id⟩, fun _ => id, fun _ => id⟩
theorem modAmu (s : State) (a : Nat) {g : Amu → Amu} (h : ∀ x : Amu, x.fenced = true → (g x).fenced = true) : Fences s (s.modAmu a g) :=
  setAmu (h _)
theorem modCore (s : State) (k : Nat) {g : Core → Core} (h : ∀ x : Core, x.fenced = true → (g x).fenced = true) :
    Fences s (s.modCore k g) :=
  ⟨rfl, id, fun h => ⟨h, fun _ => .refl _⟩, fun h => ⟨h, fun _ => id⟩, fun w => ⟨mwf_mput w, fun j => by
    rw [show (s.modCore k g).core j = if j = k then g (s.core k) else s.core j from core_setCore w k j _]
    split
    · subst_vars
      exact h _
    · exact id⟩, fun h => ⟨h, fun _ => id⟩, fun _ => id, fun _ => id⟩
theorem modPipe (s : State) (k : Nat) {g : Core → Core} (h : ∀ x : Core, x.fenced = true → (g x).fenced = true) :
    Fences s (s.modPipe k g) :=
  ⟨rfl, id, fun h => ⟨h, fun _ => .refl _⟩, fun h => ⟨h, fun _ => id⟩, fun h => ⟨h, fun _ => id⟩, fun w => ⟨mwf_mput w, fun j => by
    rw [show (s.modPipe k g).pipe j = if j = k then g (s.pipe k) else s.pipe j from pipe_setPipe w k j _]
    split
    · subst_vars
      exact h _
    · exact id⟩, fun _ => id, fun _ => id⟩
theorem modEng (s : State) (pipe : Bool) (k : Nat) {g : Core → Core} (h : ∀ x : Core, x.fenced = true → (g x).fenced = true) :
    Fences s (s.modEng pipe k g) := ite (modPipe s k h) (modCore s k h)
theorem modJob (s : State) (id : Nat) (g : Job → Job) : Fences s (s.modJob id g) := same rfl
theorem raise (s : State) (n : Nat) (w : BitVec 16) (d0 d1 : Nat) : Fences s (s.raise n w d0 d1) := engines (.raise s n w d0 d1)
theorem draw (s : State) (n : Nat) : Fences s (s.draw n).2 := same rfl
theorem hbmPut (s : State) (a : Nat) (b : Byte) : Fences s (s.hbmPut a b) :=
  ite (refl s) ⟨rfl, mwf_mput, fun h => ⟨h, fun _ => .refl _⟩, fun h => ⟨h, fun _ => id⟩, fun h => ⟨h, fun _ => id⟩,
    fun h => ⟨h, fun _ => id⟩, fun _ => id, fun _ => id⟩
theorem hbmPoke (s : State) (a : Nat) (b : Bytes) : Fences s (s.hbmPoke a b) := by
  induction b generalizing s a with
  | nil => exact refl s
  | cons x b ih => exact (hbmPut s a x).trans (ih _ _)
theorem hbmWrite (s : State) (a : Nat) (b : Bytes) : Fences s (s.hbmWrite a b) := trans (t := s.countReqs _) (same rfl) (hbmPoke _ _ _)
theorem blur (s : State) (rs : List (Nat × Nat)) : Fences s (s.blur rs) :=
  foldl (fun u r => trans (t := (u.drawBytes r.2).2) (same rfl) (hbmPoke _ _ _)) rs s
theorem setStatus (s : State) (id st : Nat) : Fences s (s.setStatus id st) := modJob s _ _
theorem wrote (s : State) (id : Nat) (d r : List (Nat × Nat)) : Fences s (s.wrote id d r) := modJob s _ _
theorem blurJob (s : State) (id st : Nat) : Fences s (s.blurJob id st) := by
  unfold State.blurJob
  split
  · exact refl s
  · rename_i j _
    have h : Fences s (if st = 0x08 ∨ st = 0x21 ∨ st = 0x24 then s.blur j.scratch else s) := ite (blur s _) (refl s)
    exact ite (h.trans (blur _ _)) h
theorem lose (s : State) (id seq : Nat) (us : List Nat) : Fences s (s.lose id seq us) := modJob s _ _
theorem freshRnd (s : State) (id : Nat) : Fences s (s.freshRnd id) := modJob s _ _

/-! ## A unit that is aborted -/

theorem touch (s : State) (rs : List (Nat × Nat)) : Fences s (s.touch rs) :=
  foldl (fun u (r : Nat × Nat) => engines (.hbmRead u r.1 r.2)) rs s
theorem countKeys (s : State) (a n : Nat) : Fences s (s.countKeys a n) := by
  unfold State.countKeys
  split
  · exact refl s
  · exact modAmu s _ fun _ h => h
theorem setSlot (s : State) (n : Nat) (x : KSlot) : Fences s (s.setSlot n x) := same rfl
theorem halfCopies (s : State) (n : Nat) (b : Bytes) : Fences s (s.halfCopies n b) := by
  unfold State.halfCopies
  exact same rfl
theorem drawVersion {n v : Nat} (h : s.drawVersion n = some (v, t)) : Fences s t := by
  unfold State.drawVersion at h
  dsimp only at h
  split at h
  · simp at h
  · simp only [Option.some.injEq, Prod.mk.injEq] at h
    rw [← h.2]
    exact ite (((setSlot s _ _).trans (halfCopies _ _ _)).trans (raise _ _ _ _ _)) (setSlot s _ _)
theorem nextVersion {n : Nat} {v : DWord} (h : s.nextVersion n = some (v, t)) : Fences s t := by
  unfold State.nextVersion at h
  obtain ⟨r, hr, e⟩ := Option.map_eq_some_iff.1 h
  obtain ⟨-, rfl⟩ := Prod.mk.inj e
  exact drawVersion hr
theorem drawMany (s : State) (slot n : Nat) : Fences s (s.drawMany slot n) := by
  induction n generalizing s with
  | zero => exact refl s
  | succ n ih =>
    unfold State.drawMany
    split
    · rename_i r h
      exact (nextVersion h).trans (ih _)
    · exact refl s
theorem counted (c : UnitCtx) (s : State) (reads : List (Nat × Nat)) (keys : Nat → Nat) (egr ring : Nat) :
    Fences s (c.counted s reads keys egr ring) := by
  unfold UnitCtx.counted
  dsimp only
  refine trans ?_ (modField _ _ fun _ => .of_same rfl id)
  exact (touch s reads).trans (foldl (fun u (e : Nat × Nat) => countKeys u _ _) _ _)
theorem partDraws (c : UnitCtx) (s : State) : Fences s (c.partDraws s) := by
  refine foldl (fun u e => ?_) _ s
  split
  · exact ite (refl u) (drawMany u _ _)
  · exact refl u
/-- What a unit that stops before its end has moved. -/
theorem partCounted (c : UnitCtx) (s : State) : Fences s (c.partCounted s) := by
  unfold UnitCtx.partCounted
  dsimp only
  refine trans ?_ (partDraws _ _)
  refine trans ?_ (counted _ _ _ _ _ _)
  exact same rfl
theorem ingestBroken (s : State) (j : Job) (p n f : Nat) (aborted : Bool) : Fences s (s.ingestBroken j p n f aborted) := by
  unfold State.ingestBroken
  dsimp only
  refine ite (refl s) ?_
  have h (x : Field → Field) (hx : ∀ y, FieldFences y (x y)) (rs : List (Nat × Nat)) (n m : Nat) :
      Fences s ((((s.draw 192).2.touch rs).drawMany n m).modField f x) :=
    (((draw s 192).trans (touch _ _)).trans (drawMany _ _ _)).trans (modField _ _ hx)
  refine ite (h _ ?_ _ _ _) ((h _ ?_ _ _ _).trans (blur _ _))
  all_goals exact fun _ => .of_same rfl id
theorem broken (c : UnitCtx) (s : State) (how : Broken) : Fences s (c.broken s how) := by
  have h := partCounted c s
  cases how with
  | cut => exact (h.trans (blur _ _)).trans (wrote _ _ _ _)
  | failed => exact (h.trans (blur _ _)).trans (wrote _ _ _ _)
  | aborted => exact h.trans (blur _ _)
theorem breakUnit (s : State) (j : Job) (sl : Slice) (f : Nat) (how : Broken) : Fences s (s.breakUnit j sl f how) := by
  unfold State.breakUnit
  split
  · exact ingestBroken s j _ _ f _
  · dsimp only
    split
    · exact broken _ s how
    · split
      · exact broken _ s how
      · have h (st : Nat) := ((broken (s.sliceCtx j sl) s .failed).trans (setStatus _ j.id st)).trans (blurJob _ j.id st)
        split
        · exact (h _).trans (raise _ _ _ _ _)
        · exact h _

/-! ## Slices and pieces -/

theorem sliceBegins (s : State) (f : Nat) : Fences s (s.sliceBegins f) := by
  unfold State.sliceBegins
  dsimp only
  split
  · exact modField s f fun _ => .of_same rfl fun _ => rfl
  · rename_i sl rest hl
    split
    · exact refl s
    · refine setField (.of_same rfl fun hs => ?_)
      simp [hs] at hl
theorem abortSlice (s : State) (f : Nat) (sl : Slice) : Fences s (s.abortSlice f sl) := by
  unfold State.abortSlice
  dsimp only
  refine (lose s _ _ _).trans (foldl (fun u g => ?_) _ _)
  split
  · exact modField u g fun x => .of_same rfl fun h => by simp [h]
  · split
    · exact refl u
    · have h := setField (s := u) (f := g) (x := { u.field g with
        slices := (u.field g).slices.flatMap (fun y => y.upto sl.job sl.seq (sl.start + sl.done)) })
        (.of_same rfl fun h => by simp [h])
      exact ite h (h.trans (sliceBegins _ _))
theorem abortHead (s : State) (f : Nat) : Fences s (s.abortHead f) := by
  unfold State.abortHead
  split
  · exact refl s
  · dsimp only
    split
    · exact (abortSlice _ _ _).trans (sliceBegins _ _)
    · exact ((breakUnit _ _ _ _ _).trans (abortSlice _ _ _)).trans (sliceBegins _ _)
theorem abortField (s : State) (f : Nat) : Fences s (s.abortField f) :=
  (abortHead s f).trans (foldl (fun u sl => abortSlice u f sl) _ _)
theorem idleField (s : State) (f : Nat) : Fences s (s.idleField f) := modField s f fun _ => .of_same rfl id
/-- An engine without pieces that `q` picks keeps its fence. -/
theorem without_fenced (x : Core) (q : Piece → Bool) : (x.without q).fenced = x.fenced := by
  unfold Core.without
  dsimp only
  split
  · unfold Core.start
    split <;> rfl
  · rfl
theorem without_init (q : Piece → Bool) : Core.init.without q = Core.init := rfl
theorem dropPieces (s : State) (q : Piece → Bool) : Fences s (s.dropPieces q) := by
  obtain ⟨_, _, e⟩ := dropPieces_begins s q
  rw [e]
  refine trans ?_ (engines (EnginesOnly.begins _))
  refine ⟨rfl, id, fun h => ⟨h, fun _ => .refl _⟩, fun h => ⟨h, fun _ => id⟩, fun w => ⟨mwf_mmap _ w, fun k hk => ?_⟩,
    fun w => ⟨mwf_mmap _ w, fun k hk => ?_⟩, fun _ => id, fun _ => id⟩
  · have e := mget_mmap (d := fun _ => Core.init) (k := k) (fun _ x => x.without q) (fun _ => without_init q) w
    exact (congrArg Core.fenced e).trans ((without_fenced _ q).trans hk)
  · have e := mget_mmap (d := fun _ => Core.init) (k := k) (fun _ x => x.without q) (fun _ => without_init q) w
    exact (congrArg Core.fenced e).trans ((without_fenced _ q).trans hk)
theorem abortPieces (s : State) (ps : List Piece) : Fences s (s.abortPieces ps) :=
  ((dropPieces s _).trans (foldl (fun u _ => lose u _ _ _) _ _)).trans (foldl (fun u id => freshRnd u id) _ _)
theorem abortLookup (s : State) (a : Nat) (sl : Slice) : Fences s (s.abortLookup a sl) :=
  (lose s _ _ _).trans (modAmu _ _ fun _ h => h)
theorem stopPass (s : State) (a : Nat) : Fences s (s.stopPass a) := by
  unfold State.stopPass
  dsimp only
  split
  · exact refl s
  · rename_i p _
    have h := (draw s 65536).trans (foldl (f := fun u b => if bit (s.draw 65536).1 b && !p.full then u.shadowWrite a b else u)
      (fun u b => ite (hbmWrite u _ _) (refl u)) ((upTo (max p.oldCount (s.amu a).count)).drop p.p0) (s.draw 65536).2)
    refine (h.trans (modAmu _ a (g := fun x => { x with pass := none, count := p.oldCount }) fun _ h => h)).trans ?_
    split
    · exact refl _
    · exact foldl (fun u q => lose u _ _ _) _ _

/-! ## Fences (R416) -/

theorem fenceField (s : State) (f : Nat) : Fences s (s.fenceField f) := by
  refine ite (refl s) ?_
  have h := ((abortField s f).trans (idleField _ f)).trans
    (foldl (fun u g => abortField u g) ((upTo 16).filter (fun g => g != f && s.crosses f g)) _)
  exact h.trans (modField _ f fun _ => ⟨fun _ => rfl, fun _ => rfl, fun _ => .inr rfl⟩)
theorem fenceTile (s : State) (f k : Nat) : Fences s (s.fenceTile f k) :=
  ite (refl s) ((ite (refl s) (ite (idleField s f) (abortField s f))).trans (modField _ f fun _ => .of_same rfl id))
theorem fenceAmu (s : State) (a : Nat) : Fences s (s.fenceAmu a) := by
  refine ite (refl s) ?_
  refine trans (trans (trans (trans (stopPass s a) ?_) (abortPieces _ _)) (foldl (fun u sl => abortLookup u a sl) _ _))
    (modAmu _ a fun _ _ => rfl)
  exact foldl (fun u f => foldl (fun u sl => ite (ite (abortHead u f) (abortSlice u f sl)) (refl u)) _ u) _ _
theorem fenceEng (s : State) (pipe : Bool) (k : Nat) : Fences s (s.fenceEng pipe k) :=
  ite (refl s) ((abortPieces s _).trans (modEng _ _ _ fun _ _ => rfl))
theorem seedHalt (s : State) : Fences s s.seedHalt := by
  have h (g : Seedbank → Seedbank) : Fences s (s.modSeed g) := same rfl
  exact ((h _).trans (raise _ 300 0 0 0)).trans (t := State.raise _ _ _ _ _) (same rfl)
theorem fenceSource (s : State) (n : Nat) : Fences s (s.fenceSource n) :=
  trans (t := s.modSeed _) (same rfl) (ite (seedHalt _) (refl _))
theorem fencePc (s : State) (i : Nat) : Fences s (s.fencePc i) :=
  ⟨rfl, id, fun h => ⟨h, fun _ => .refl _⟩, fun h => ⟨h, fun _ => id⟩, fun h => ⟨h, fun _ => id⟩, fun h => ⟨h, fun _ => id⟩,
    fun k h => by simp [State.fencePc, h], fun _ => id⟩
theorem sendOn (s : State) (w : WaitFrame) : Fences s (s.sendOn w) := by
  unfold State.sendOn
  exact ite (same rfl) (same rfl)
theorem resend (s : State) (w : WaitFrame) : Fences s (s.resend w) := by
  unfold State.resend
  dsimp only
  split
  · exact sendOn s w
  · split
    · exact refl s
    · exact trans (t := s.modCommons _) (same rfl) (sendOn _ _)
theorem movePlanes (s : State) : Fences s s.movePlanes :=
  trans (t := s.modCommons _) (same rfl) (foldl (fun u w => resend u w) _ _)
theorem fencePort (s : State) (k : Nat) : Fences s (s.fencePort k) :=
  trans (t := s.modCommons _) ⟨rfl, id, fun h => ⟨h, fun _ => .refl _⟩, fun h => ⟨h, fun _ => id⟩, fun h => ⟨h, fun _ => id⟩,
    fun h => ⟨h, fun _ => id⟩, fun _ => id, fun i h => by simp [State.modCommons, h]⟩ (movePlanes _)
theorem fenceCore (s : State) (k : Nat) : Fences s (s.fenceCore k) := fenceEng s false k
theorem fenceBy (s : State) (n : Nat) (w : BitVec 16) : Fences s (s.fenceBy n w) := by
  unfold State.fenceBy
  split
  · exact refl s
  · refine ite (refl s) (ite (ite (fenceTile s _ _) (fenceField s _)) (ite (fenceAmu s _) (ite ?_ (ite (fenceEng s true _)
      (ite (fenceSource s _) (ite (fencePc s _) (fencePort s _)))))))
    split
    · exact fenceCore s _
    · exact refl s

end Fences

end Sys2Proof.Machine
end

section
/-! The statement of the reactions (R410, R414, R415, Table 18.2). -/

open Sys2Proof Sys2Proof.Machine

namespace Sys2Proof.Machine

variable {s t u : State}

/-! ## The turn of a reaction -/

theorem react_waits {r : Nat} (h : s.nextGroup r = none ∨ s.faults.fallow = true) (act : State → FGroup → State) : s.react r act = s := by
  unfold State.react
  rcases h with h | h <;> simp [h]
theorem react_turn {r : Nat} {g : FGroup} (hrun : s.running = true) (h : s.nextGroup r = some g) (act : State → FGroup → State) :
    s.react r act = act (s.taken r) g := by
  unfold State.react
  rw [if_neg (by simp [running_not_fallow hrun]), h]
/-- A reaction that is not the next one: the command does nothing. -/
theorem whenUp_react_waits {r : Nat} (h : s.nextGroup r = none ∨ s.faults.fallow = true) (act : State → FGroup → State) :
    whenUp s (s.react r act) = .next s := by
  rw [react_waits h, whenUp_next, ite_self]
/-- The next reaction of the group at the front is taken. -/
theorem whenUp_react_turn {r : Nat} {g : FGroup} (hrun : s.running = true) (h : s.nextGroup r = some g) (act : State → FGroup → State) :
    whenUp s (s.react r act) = .next (act (s.taken r) g) :=
  (whenUp_of_up (running_up hrun) _).trans (congrArg _ (react_turn hrun h act))

/-! ## FENCE -/

/-- The fences of a group's reports. -/
def State.fencedBy (s : State) (l : List FaultReport) : State := l.foldl (fun s x => s.fenceBy x.source.val x.unit) s
theorem Fences.fencedBy (s : State) (l : List FaultReport) : Fences s (s.fencedBy l) :=
  foldl (f := fun s (x : FaultReport) => s.fenceBy x.source.val x.unit) (fun u x => fenceBy u x.source.val x.unit) l s

/-- What the fence of a report establishes, and no later fence undoes, holds when all are taken. -/
theorem fencedBy_reaches {W P : State → Prop} (hW : ∀ {s t}, Fences s t → W s → W t) (hP : ∀ {s t}, Fences s t → P s → P t)
    {l : List FaultReport} {x : FaultReport} (hx : x ∈ l) (h : ∀ u, W u → P (u.fenceBy x.source.val x.unit)) (hs : W s) :
    P (s.fencedBy l) :=
  foldl_reaches (f := fun s (x : FaultReport) => s.fenceBy x.source.val x.unit) (fun u _ => hW (.fenceBy u _ _))
    (fun u _ _ => hP (.fenceBy u _ _)) hx h s hs

/-- The tables of fields, match units and cores are in canonical form. -/
def State.unitsWf (s : State) : Prop :=
  mwf (fun _ => Field.init) s.fields = true ∧ mwf (fun _ => Amu.init) s.amus = true ∧ mwf (fun _ => Core.init) s.cores = true
theorem unitsWf_of_tables (h : s.tablesWf = true) : s.unitsWf := by
  simp only [State.tablesWf, Bool.and_eq_true] at h
  obtain ⟨⟨⟨⟨⟨⟨-, -⟩, hf⟩, ha⟩, hc⟩, -⟩, -⟩ := h
  exact ⟨hf, ha, hc⟩
theorem Fences.unitsWf (h : Fences s t) (w : s.unitsWf) : t.unitsWf := ⟨(h.fields w.1).1, (h.amus w.2.1).1, (h.cores w.2.2).1⟩

/-- A property of canonical unit tables: `P` is kept by fences where the tables are in canonical form. -/
theorem fencedBy_fenced {P : State → Prop} (hP : ∀ {s t}, Fences s t → s.unitsWf → P s → P t) {l : List FaultReport} {x : FaultReport}
    (hx : x ∈ l) (h : ∀ u : State, u.unitsWf → P (u.fenceBy x.source.val x.unit)) (hs : s.unitsWf) : P (s.fencedBy l) :=
  (fencedBy_reaches (W := State.unitsWf) (P := fun u : State => u.unitsWf ∧ P u) (fun k w => k.unitsWf w)
    (fun k w => ⟨k.unitsWf w.1, hP k w.1 w.2⟩) hx (fun u w => ⟨(Fences.fenceBy u _ _).unitsWf w, h u w⟩) hs).2

theorem fenceBy_field (s : State) {f : Nat} (hf : f < 16) (w : BitVec 16) : s.fenceBy (75 + 6 * f) w = s.fenceField f := by
  interval_cases f <;> rfl
theorem fenceBy_amu (s : State) {a : Nat} (ha : a < 4) (w : BitVec 16) : s.fenceBy (178 + 4 * a) w = s.fenceAmu a := by
  interval_cases a <;> rfl
theorem fenceBy_core (s : State) {c : Nat} (hc : c < 16) (w : BitVec 16) : s.fenceBy (193 + 2 * c) w = s.fenceCore c := by
  interval_cases c <;> rfl
theorem fenceBy_port (s : State) {k : Nat} (hk : k < 4) (w : BitVec 16) : s.fenceBy (445 + k) w = s.fencePort k := by
  interval_cases k <;> rfl
theorem faultKind_pc {i : Nat} (hi : i < 128) : (faultKind (308 + i)).map (·.fence) = some true := by
  unfold faultKind
  rw [if_neg (by omega), if_neg (by omega), if_neg (by omega), if_neg (by omega), if_neg (by omega), if_neg (by omega), if_neg (by omega),
    if_neg (by omega), if_neg (by omega), if_neg (by omega), if_neg (by omega), if_neg (by omega), if_neg (by omega), if_neg (by omega),
    if_neg (by omega), if_neg (by omega), if_neg (by omega), if_neg (by omega), if_pos (by omega)]
  rfl
theorem fenceBy_pc (s : State) {i : Nat} (hi : i < 128) (w : BitVec 16) : s.fenceBy (308 + i) w = s.fencePc i := by
  obtain ⟨k, hk, hfence⟩ := Option.map_eq_some_iff.1 (faultKind_pc hi)
  unfold State.fenceBy
  rw [hk]
  simp only [hfence]
  rw [if_neg (by simp), if_neg (by omega), if_neg (by omega), if_neg (by omega), if_neg (by omega), if_neg (by omega), if_pos (by omega),
    Nat.add_sub_cancel_left]

theorem fenceField_fenced (h : mwf (fun _ => Field.init) s.fields = true) (f : Nat) : ((s.fenceField f).field f).fenced = true := by
  unfold State.fenceField
  split
  · assumption
  · dsimp only
    have k := ((Fences.abortField s f).trans (.idleField _ f)).trans
      (.foldl (fun u g => .abortField u g) ((upTo 16).filter (fun g => g != f && s.crosses f g)) _)
    exact congrArg Field.fenced ((field_setField (k.fields h).1 f f _).trans (if_pos rfl))
theorem fenceAmu_fenced (h : mwf (fun _ => Amu.init) s.amus = true) (a : Nat) : ((s.fenceAmu a).amu a).fenced = true := by
  unfold State.fenceAmu
  split
  · assumption
  · dsimp only
    refine congrArg Amu.fenced ((amu_setAmu ?_ a a _).trans (if_pos rfl))
    exact ((((Fences.stopPass s a).trans (.foldl (fun u f => .foldl (fun u sl => .ite (.ite (.abortHead u f) (.abortSlice u f sl)) (.refl u))
      _ u) _ _)).trans (.abortPieces _ _)).trans (.foldl (fun u sl => .abortLookup u a sl) _ _)).amus h |>.1
theorem fenceCore_fenced (h : mwf (fun _ => Core.init) s.cores = true) (c : Nat) : ((s.fenceCore c).core c).fenced = true := by
  show ((s.fenceEng false c).core c).fenced = true
  unfold State.fenceEng
  split
  · assumption
  · exact congrArg Core.fenced ((core_setCore ((Fences.abortPieces s _).cores h).1 c c _).trans (if_pos rfl))
theorem getLsbD_fenceBit {n i : Nat} (m : BitVec n) (hi : i < n) : (m ||| BitVec.ofNat n (2 ^ i)).getLsbD i = true := by
  rw [BitVec.getLsbD_or, BitVec.getLsbD_ofNat, Nat.testBit_two_pow_self]
  simp [hi]
theorem fencePort_fenced (s : State) {k : Nat} (hk : k < 4) : (s.fencePort k).commons.fenced.getLsbD k = true :=
  (Fences.movePlanes _).ports k (getLsbD_fenceBit _ hk)

/-- FENCE takes the units of the selecting sources out of service. -/
theorem fences_units {l : List FaultReport} (w : s.unitsWf) :
    (∀ f, f < 16 → (∃ x ∈ l, x.source.val = 75 + 6 * f) → ((s.fencedBy l).field f).fenced = true ∧
      ((s.field f).fenced = false → ((s.fencedBy l).field f).slices = [])) ∧
    (∀ a, a < 4 → (∃ x ∈ l, x.source.val = 178 + 4 * a) → ((s.fencedBy l).amu a).fenced = true) ∧
    (∀ c, c < 16 → (∃ x ∈ l, x.source.val = 193 + 2 * c) → ((s.fencedBy l).core c).fenced = true) ∧
    (∀ i, i < 128 → (∃ x ∈ l, x.source.val = 308 + i) → (s.fencedBy l).hbmc.pcFenced.getLsbD i = true) ∧
    (∀ k, k < 4 → (∃ x ∈ l, x.source.val = 445 + k) → (s.fencedBy l).commons.fenced.getLsbD k = true) := by
  refine ⟨fun f hf ⟨x, hx, hn⟩ => ?_, fun a ha ⟨x, hx, hn⟩ => ?_, fun c hc ⟨x, hx, hn⟩ => ?_, fun i hi ⟨x, hx, hn⟩ => ?_,
    fun k hk ⟨x, hx, hn⟩ => ?_⟩
  · have h : ((s.fencedBy l).field f).fenced = true :=
      fencedBy_fenced (P := fun u => (u.field f).fenced = true) (fun k w h => ((k.fields w.1).2 f).1 h) hx
        (fun u w => by rw [hn, fenceBy_field u hf]; exact fenceField_fenced w.1 f) w
    refine ⟨h, fun hin => ?_⟩
    exact ((((Fences.fencedBy s l).fields w.1).2 f).2.2 h).resolve_left (by simp [hin])
  · exact fencedBy_fenced (P := fun u => (u.amu a).fenced = true) (fun k w h => (k.amus w.2.1).2 a h) hx
      (fun u w => by rw [hn, fenceBy_amu u ha]; exact fenceAmu_fenced w.2.1 a) w
  · exact fencedBy_fenced (P := fun u => (u.core c).fenced = true) (fun k w h => (k.cores w.2.2).2 c h) hx
      (fun u w => by rw [hn, fenceBy_core u hc]; exact fenceCore_fenced w.2.2 c) w
  · exact fencedBy_fenced (P := fun u => u.hbmc.pcFenced.getLsbD i = true) (fun k _ => k.pcs i) hx
      (fun u _ => by rw [hn, fenceBy_pc u hi]; exact getLsbD_fenceBit _ hi) w
  · exact fencedBy_fenced (P := fun u => u.commons.fenced.getLsbD k = true) (fun k' _ => k'.ports k) hx
      (fun u _ => by rw [hn, fenceBy_port u hk]; exact fencePort_fenced u hk) w

theorem reactionFence_fences {g : FGroup} (hrun : s.running = true) (hwf : s.tablesWf = true) (hg : s.nextGroup 5 = some g) :
    Completes .reactionFence s (fun t =>
    (∀ f, f < 16 → (∃ x ∈ s.chosen g 5, x.source.val = 75 + 6 * f) → (t.field f).fenced = true ∧
      ((s.field f).fenced = false → (t.field f).slices = [])) ∧
    (∀ u, u < 4 → (∃ x ∈ s.chosen g 5, x.source.val = 178 + 4 * u) → (t.amu u).fenced = true) ∧
    (∀ c, c < 16 → (∃ x ∈ s.chosen g 5, x.source.val = 193 + 2 * c) → (t.core c).fenced = true) ∧
    (∀ i, i < 128 → (∃ x ∈ s.chosen g 5, x.source.val = 308 + i) → t.hbmc.pcFenced.getLsbD i = true) ∧
    (∀ k, k < 4 → (∃ x ∈ s.chosen g 5, x.source.val = 445 + k) → t.commons.fenced.getLsbD k = true) ∧
    t.cfg = s.cfg ∧ t.live = s.live ∧ t.faults.sticky = s.faults.sticky) := by
  have h := Fences.fencedBy (s.taken 5) (s.chosen g 5)
  obtain ⟨hfields, hamus, hcores, hpcs, hports⟩ := fences_units (s := s.taken 5) (l := s.chosen g 5) (unitsWf_of_tables hwf)
  exact ⟨_, whenUp_react_turn hrun hg _, hfields, hamus, hcores, hpcs, hports, h.cfg, h.live, h.sticky⟩

/-! ## BLOCK_RESET of a target -/

theorem resetBy_target (s : State) {k : Nat} (hk : k < 16) :
    s.resetBy (452 + k) = (s.dropStack k).clearSticky (· == 452 + k) := by
  interval_cases k <;> rfl

/-- A sticky bit that `q` picks is clear, whatever other bits clear with it. -/
theorem sticky_clearSticky (s : State) {q : Nat → Bool} {n : Nat} (hq : q n = true) (hn : n < 512) :
    (s.clearSticky q).faults.sticky.getLsbD n = false := by
  have hclear (m : BitVec 512) : (m &&& ~~~BitVec.ofNat 512 (2 ^ n)).getLsbD n = false := by
    rw [BitVec.getLsbD_and, BitVec.getLsbD_not, BitVec.getLsbD_ofNat, Nat.testBit_two_pow_self]
    simp [hn]
  have hkeep (m : BitVec 512) (i : Nat) (h : m.getLsbD n = false) :
      (if q i = true then m &&& ~~~BitVec.ofNat 512 (2 ^ i) else m).getLsbD n = false := by split <;> simp [h]
  have hfold (l : List Nat) : ∀ m : BitVec 512, (m.getLsbD n = false ∨ n ∈ l) →
      (l.foldl (fun m i => if q i = true then m &&& ~~~BitVec.ofNat 512 (2 ^ i) else m) m).getLsbD n = false := by
    induction l with
    | nil => exact fun m h => h.resolve_right List.not_mem_nil
    | cons i l ih =>
      refine fun m h => ih _ ?_
      rcases h with h | h
      · exact .inl (hkeep m i h)
      · rcases List.mem_cons.1 h with rfl | h
        · left
          dsimp only
          rw [if_pos hq]
          exact hclear m
        · exact .inr h
  have hmem : n ∈ upTo 512 := mem_upTo.2 hn
  unfold State.clearSticky State.modFaults
  generalize upTo 512 = l at hmem ⊢
  exact hfold l _ (.inr hmem)

theorem clearSticky_only (s : State) (q : Nat → Bool) : ∃ x, s.clearSticky q = { s with faults := { s.faults with sticky := x } } := by
  unfold State.clearSticky
  generalize upTo 512 = l
  exact ⟨_, rfl⟩
theorem clearSticky_intc (s : State) (q : Nat → Bool) : (s.clearSticky q).intc = s.intc := by
  obtain ⟨x, e⟩ := clearSticky_only s q
  rw [e]

theorem reactionBlockReset_target {g : FGroup} {k : Nat} {x : FaultReport} (hrun : s.running = true) (hg : s.nextGroup 2 = some g)
    (hk : k < 16) (hx : g.reports = [x]) (hn : x.source.val = 452 + k) (hm : bit (s.maskOf (452 + k)) 2 = true)
    (hw : mwf (fun _ => []) s.intc.stk = true) :
    Completes .reactionBlockReset s (fun t => t.stack k = [] ∧ t.faults.sticky.getLsbD (452 + k) = false ∧
      t.cfg = s.cfg ∧ t.hbm = s.hbm) := by
  have hchosen : (s.taken 2).chosen g 2 = [x] := by
    rw [State.chosen, hx, List.filter_cons_of_pos (by rw [hn]; exact hm), List.filter_nil]
  refine ⟨((s.taken 2).dropStack k).clearSticky (· == 452 + k), (whenUp_react_turn hrun hg _).trans ?_, ?_, ?_, ?_⟩
  · rw [hchosen, ← resetBy_target _ hk, ← hn]
    rfl
  · have h : ((s.taken 2).dropStack k).stack k = [] := stack_dropStack (s := s.taken 2) hw k
    rw [State.stack, clearSticky_intc]
    exact h
  · exact sticky_clearSticky _ (by simp) (by omega)
  · obtain ⟨i, j, e⟩ := dropStack_only (s := s.taken 2) k
    obtain ⟨x, e'⟩ := clearSticky_only ((s.taken 2).dropStack k) (· == 452 + k)
    rw [e', e]
    exact ⟨rfl, rfl⟩

/-! ## INT -/

/-- Every source of the collector is one of the INTC. -/
theorem intcReserved_source (n : Fin 512) : intcReserved n.val = false := by
  obtain ⟨n, hn⟩ := n
  simp only [intcReserved, Bool.or_eq_false_iff, Bool.and_eq_false_iff, decide_eq_false_iff_not]
  omega

/-- A fold of events pends their sources and keeps what is pending; it touches the pending sources only. -/
theorem pendAll (l : List FaultReport) (s : State) : ∃ p, l.foldl (fun s (x : FaultReport) => s.pendSrc x.source.val) s =
    { s with intc := { s.intc with pend := p } } ∧ (∀ x ∈ l, x.source.val ∈ p) ∧ ∀ n ∈ s.intc.pend, n ∈ p := by
  induction l generalizing s with
  | nil => exact ⟨s.intc.pend, rfl, by simp, fun _ h => h⟩
  | cons x l ih =>
    have hin := intcReserved_source x.source
    obtain ⟨p, e, hmem, hmono⟩ := pendSrc_pends s hin
    obtain ⟨p', e', hmem', hmono'⟩ := ih (s.pendSrc x.source.val)
    rw [e] at e' hmono'
    refine ⟨p', ?_, ?_, fun n h => hmono' n (hmono n h)⟩
    · rw [List.foldl_cons, e, e']
    · rintro y hy
      rcases List.mem_cons.1 hy with rfl | hy
      · exact hmono' _ hmem
      · exact hmem' y hy

theorem reactionInt_pends {g : FGroup} (hrun : s.running = true) (hg : s.nextGroup 0 = some g) : Completes .reactionInt s (fun t =>
    (∀ x ∈ s.chosen g 0, x.source.val ∈ t.intc.pend) ∧ (∀ n ∈ s.intc.pend, n ∈ t.intc.pend) ∧ t.cfg = s.cfg ∧ t.hbm = s.hbm) := by
  obtain ⟨p, e, hmem, hmono⟩ := pendAll (s.chosen g 0) (s.taken 0)
  refine ⟨_, (whenUp_react_turn hrun hg _).trans (congrArg Host.Outcome.next e), hmem, hmono, rfl, rfl⟩

/-! ## CHIP_RESET -/

/-- A tamper reset that follows the copy of the sticky bits, or a chip reset that does: CAUSE holds them, and the device is reset. -/
theorem reset_copiesCause (s : State) (tamper : Bool) :
    let t := if tamper = true then s.tamperReset else s.copyCause.chipReset causeFault
    t.faults.cause = s.faults.sticky ∧ t.faults.causeSwn = s.glob.swn ∧ t.faults.sticky = 0 ∧ t.faults.groups = [] ∧
      t.start.up = false ∧ t.start.boot = s.start.boot + 1 := by
  obtain ⟨k, b, n, e⟩ := settleCommits_only s.copyCause
  have h (c : BitVec 7) : (s.copyCause.chipReset c).faults.cause = s.faults.sticky ∧ (s.copyCause.chipReset c).faults.causeSwn = s.glob.swn ∧
      (s.copyCause.chipReset c).faults.sticky = 0 ∧ (s.copyCause.chipReset c).faults.groups = [] ∧
      (s.copyCause.chipReset c).start.up = false ∧ (s.copyCause.chipReset c).start.boot = s.start.boot + 1 := by
    unfold State.chipReset
    rw [e]
    exact ⟨rfl, rfl, rfl, rfl, rfl, rfl⟩
  dsimp only
  split
  · exact h causeTamper
  · exact h causeFault

/-- Settles O40, reaction by reaction. -/
theorem reactionsTakenInOrder : Obligations.ReactionsTakenInOrder := by
  unfold Obligations.ReactionsTakenInOrder
  refine ⟨fun s h => whenUp_react_waits h _, fun s h => whenUp_react_waits h _, fun s h => whenUp_react_waits h _,
    fun s h => whenUp_react_waits h _, fun s h => whenUp_react_waits h _, fun s h => whenUp_react_waits h _,
    fun s g hrun hg => whenUp_react_turn hrun hg _, fun s g hrun hwf hg => reactionFence_fences hrun hwf hg,
    fun s g k x hrun hg hk hx hn hm hw => reactionBlockReset_target hrun hg hk hx hn hm hw,
    fun s g hrun hg => reactionInt_pends hrun hg, fun s g hrun hg => ⟨_, whenUp_react_turn hrun hg _, rfl, rfl, rfl⟩,
    fun s g hrun hg => ?_⟩
  exact ⟨_, whenUp_react_turn hrun hg _, reset_copiesCause (s.taken 3)
    (((s.taken 3).chosen g 3).any (fun x => decide (480 ≤ x.source.val)))⟩

end Sys2Proof.Machine
end

section
/-! Commands that leave every store as it is (Table 25.3): what they are made of keeps the register words, the memories, the key store,
the life cycle, the tamper monitors and the backup domain, the mark of Fallow, and the canonical form of the unit tables. -/

open Sys2Proof Sys2Proof.Machine

namespace Sys2Proof.Machine

variable {s t u : State}

/-- The stores of `SameStores`, with the mark of Fallow. -/
def State.standing (s : State) :=
  (s.cfg, s.live, s.hbm, s.host, s.ctrl.mem, s.keys, s.life, s.tamper, s.backup, s.faults.fallow)
/-- What `Calm` speaks of. -/
def State.calmParts (s : State) := (s.standing, s.fields, s.amus, s.cores, s.pipes, s.insts)

/-- From `s` to `t` every store stands, and the unit tables keep their canonical form. -/
structure Calm (s t : State) : Prop where
  stands : t.standing = s.standing
  fields : mwf (fun _ => Field.init) s.fields = true → mwf (fun _ => Field.init) t.fields = true
  amus : mwf (fun _ => Amu.init) s.amus = true → mwf (fun _ => Amu.init) t.amus = true
  cores : mwf (fun _ => Core.init) s.cores = true → mwf (fun _ => Core.init) t.cores = true
  pipes : mwf (fun _ => Core.init) s.pipes = true → mwf (fun _ => Core.init) t.pipes = true
  insts : mwf Inst.init s.insts = true → mwf Inst.init t.insts = true

namespace Calm

theorem refl (s : State) : Calm s s := ⟨rfl, id, id, id, id, id⟩
theorem trans (a : Calm s t) (b : Calm t u) : Calm s u :=
  ⟨b.stands.trans a.stands, b.fields ∘ a.fields, b.amus ∘ a.amus, b.cores ∘ a.cores, b.pipes ∘ a.pipes, b.insts ∘ a.insts⟩
theorem ite {c : Prop} [Decidable c] (a : Calm s t) (b : Calm s u) : Calm s (if c then t else u) := by
  split
  · exact a
  · exact b
theorem foldl {β : Type} {f : State → β → State} (hf : ∀ s b, Calm s (f s b)) (l : List β) (s : State) : Calm s (l.foldl f s) := by
  induction l generalizing s with
  | nil => exact refl s
  | cons b l ih => exact (hf s b).trans (ih _)
/-- A step that touches none of these parts. -/
theorem same (h : t.calmParts = s.calmParts) : Calm s t := by
  simp only [State.calmParts, Prod.mk.injEq] at h
  obtain ⟨hs, hf, ha, hc, hp, hi⟩ := h
  exact ⟨hs, fun w => hf ▸ w, fun w => ha ▸ w, fun w => hc ▸ w, fun w => hp ▸ w, fun w => hi ▸ w⟩

theorem stores (h : Calm s t) : SameStores s t := by
  have e := h.stands
  simp only [State.standing, Prod.mk.injEq] at e
  obtain ⟨hcfg, hlive, hhbm, hhost, hmem, hkeys, hlife, htamper, hbackup, -⟩ := e
  exact ⟨hcfg, hlive, hhbm, hhost, hmem, hkeys, hlife, htamper, hbackup⟩
theorem fallow (h : Calm s t) : t.faults.fallow = s.faults.fallow := congrArg (·.2.2.2.2.2.2.2.2.2) h.stands
theorem canonical (h : Calm s t) (hs : s.Canonical) : t.Canonical := by
  obtain ⟨hcfg, hlive, hhbm, hhost, hmem, -⟩ := h.stores
  rw [canonical_iff] at *
  obtain ⟨⟨h1, h2, h3⟩, h4, h5, h6, h7, h8, h9, h10⟩ := hs
  exact ⟨⟨hhbm ▸ h1, hhost ▸ h2, hmem ▸ h3⟩, hcfg ▸ h4, hlive ▸ h5, h.fields h6, h.amus h7, h.cores h8, h.pipes h9, h.insts h10⟩

/-! ## One unit -/

theorem modField (s : State) (f : Nat) (g : Field → Field) : Calm s (s.modField f g) := ⟨rfl, mwf_mput, id, id, id, id⟩
theorem setAmu (s : State) (a : Nat) (x : Amu) : Calm s (s.setAmu a x) := ⟨rfl, id, mwf_mput, id, id, id⟩
theorem modAmu (s : State) (a : Nat) (g : Amu → Amu) : Calm s (s.modAmu a g) := setAmu s a _
theorem modEng (s : State) (pipe : Bool) (k : Nat) (g : Core → Core) : Calm s (s.modEng pipe k g) :=
  ite ⟨rfl, id, id, id, mwf_mput, id⟩ ⟨rfl, id, id, mwf_mput, id, id⟩
theorem setInst (s : State) (n : Nat) (x : Inst) : Calm s (s.setInst n x) := ⟨rfl, id, id, id, id, mwf_mput⟩
theorem modInst (s : State) (n : Nat) (g : Inst → Inst) : Calm s (s.modInst n g) := setInst s n _

/-! ## Reports, signals and counters -/

theorem raise (s : State) (n : Nat) (w : BitVec 16) (d0 d1 : Nat) : Calm s (s.raise n w d0 d1) := by
  rcases raise_cases (s := s) n w d0 d1 with e | ⟨-, -, e⟩
  · rw [e]
    exact refl s
  · rw [e]
    exact same rfl
theorem setCause (s : State) (n : Nat) (v : Bool) : Calm s (s.setCause n v) := same rfl
theorem uses (s : State) (as : List Nat) : Calm s (s.uses as) := by
  obtain ⟨l, c, e⟩ := uses_only (s := s) as
  rw [e]
  exact same rfl
theorem pendSrc (s : State) (n : Nat) : Calm s (s.pendSrc n) := by
  obtain ⟨l, e⟩ := pendSrc_only s n
  rw [e]
  exact same rfl
theorem msix (s : State) (fn v : Nat) : Calm s (s.msix fn v) := by
  obtain ⟨p, o, e, -⟩ := msix_only s fn v
  rw [e]
  exact same rfl
theorem countReqs (s : State) (n : Nat) : Calm s (s.countReqs n) := same rfl
theorem hbmRead (s : State) (a n : Nat) : Calm s (s.hbmRead a n).2 := by
  obtain ⟨k, l, e⟩ := fencedReads_only (s.countReqs (reqs a n)) (a / 64) (reqs a n)
  unfold State.hbmRead
  rw [e]
  exact same rfl
theorem touch (s : State) (rs : List (Nat × Nat)) : Calm s (s.touch rs) := foldl (fun u (r : Nat × Nat) => hbmRead u r.1 r.2) rs s
theorem draw (s : State) (n : Nat) : Calm s (s.draw n).2 := same rfl
theorem drawBytes (s : State) (n : Nat) : Calm s (s.drawBytes n).2 := same rfl
theorem setOffset (s : State) (o : Nat) : Calm s (s.setOffset o) := same rfl
theorem emit (s : State) (o : Out) : Calm s (s.emit o) := same rfl
theorem setResp (s : State) (r : Resp) : Calm s (s.setResp r) := same rfl
theorem modFaults (s : State) {g : Faults → Faults} (hg : ∀ f, (g f).fallow = f.fallow) : Calm s (s.modFaults g) :=
  same (by simp only [State.calmParts, State.standing, State.modFaults, hg])
theorem modStart (s : State) (g : Startup → Startup) : Calm s (s.modStart g) := same rfl
theorem modPower (s : State) (g : Power → Power) : Calm s (s.modPower g) := same rfl
theorem startStop (s : State) (p : Nat) : Calm s (s.startStop p) := same rfl
theorem adm (s : State) (x : Admit) : Calm s { s with adm := x } := same rfl
theorem modJob (s : State) (id : Nat) (g : Job → Job) : Calm s (s.modJob id g) := same rfl

/-! ## Tasks (R398–R404) -/

theorem setTd (s : State) (k : Nat) (x : Td) : Calm s (s.setTd k x) := same rfl
theorem setList (s : State) (p : Nat) (l : List Nat) : Calm s (s.setList p l) := same rfl
theorem stray (s : State) : Calm s s.stray := same rfl
theorem makeReady (s : State) (k : Nat) : Calm s (s.makeReady k) := by
  unfold State.makeReady
  dsimp only
  exact (uses s _).trans (ite ((setTd _ _ _).trans (setList _ _ _)) (setTd _ _ _))
theorem refill (s : State) (p : Nat) : Calm s (s.refill p) := by
  obtain ⟨d, l, e⟩ := refill_only s p
  rw [e]
  exact same rfl
theorem clearOffer (s : State) (c : Nat) : Calm s (s.clearOffer c) := same rfl
theorem unpend (s : State) (n : Nat) : Calm s (s.unpend n) := same rfl
theorem requeue (s : State) (k : Nat) : Calm s (s.requeue k) := (setTd s k _).trans (setList _ _ _)
theorem takeBack (s : State) (c : Nat) : Calm s (s.takeBack c) := by
  unfold State.takeBack
  split
  · exact refl s
  · exact ((clearOffer s c).trans (unpend _ _)).trans (requeue _ _)
theorem withdraw (s : State) (c : Nat) : Calm s (s.withdraw c) := by
  unfold State.withdraw
  split
  · exact refl s
  · exact (takeBack s c).trans (same rfl)
theorem makeOffer (s : State) (p k c : Nat) : Calm s (s.makeOffer p k c) := by
  unfold State.makeOffer
  dsimp only
  have h := (uses s [tdA k + 8, 0xA80100 + 0x10 * c, targetCtlA c]).trans (takeBack _ c)
  generalize State.takeBack _ c = v at h
  refine (h.trans ?_).trans ((refill _ p).trans (pendSrc _ _))
  exact same rfl
theorem taskPush (s : State) (who : Requester) (e : TEvent) : Calm s (s.taskPush who e) := ite (same rfl) (same rfl)
theorem taskEvent (s : State) (k : Nat) : Calm s (s.taskEvent k) := by
  unfold State.taskEvent
  dsimp only
  split
  · exact stray s
  · exact ite (setTd s _ _) (makeReady s k)
  · exact setTd s _ _
theorem armTask (s : State) (k n : Nat) : Calm s (s.armTask k n) :=
  ite (stray s) (ite ((setTd s _ _).trans (makeReady _ _)) (setTd s _ _))
theorem unlist (s : State) (k : Nat) : Calm s (s.unlist k) := by
  unfold State.unlist
  dsimp only
  refine ((foldl (fun u c => ?_) _ s).trans (setList _ _ _)).trans (refill _ _)
  split
  · exact ite (same rfl) (refl u)
  · exact refl u
theorem cancelTask (s : State) (k : Nat) : Calm s (s.cancelTask k) := by
  unfold State.cancelTask
  dsimp only
  split
  · exact setTd s _ _
  · exact (setTd s _ _).trans (unlist _ _)
  · exact setTd s _ _
  · exact refl s
theorem applyEvent (s : State) (e : TEvent) : Calm s (s.applyEvent e) := by
  cases e with
  | arm k n => exact armTask s k n
  | signal k => exact taskEvent s k
  | cancel k => exact cancelTask s k
theorem takeEvent (s : State) : Calm s s.takeEvent := by
  unfold State.takeEvent
  split
  · refine trans ?_ (taskEvent _ _)
    exact same rfl
  · refine trans ?_ (applyEvent _ _)
    exact same rfl
  · exact refl s
theorem startTask (s : State) (n : Nat) : Calm s (s.startTask n) := by
  obtain ⟨k, e⟩ := startTask_only s n
  rw [e]
  exact same rfl
theorem endTask (s : State) (n : Nat) : Calm s (s.endTask n) := by
  unfold State.endTask
  refine ite ?_ (refl s)
  dsimp only
  split
  · exact refl s
  · rename_i k _ _
    have h (x : Tasks) (l : List Nat) : Calm s { (s.uses [tdA k + 4, tdA k + 0x18, tdA k + 0x1C]).setRunning ((n - 768) / 8) l with tasks := x } :=
      (uses s _).trans (same rfl)
    refine ite (ite (((h _ _).trans (setTd _ _ _)).trans (makeReady _ _)) ((h _ _).trans (setTd _ _ _))) ((h _ _).trans (setTd _ _ _))
theorem taskOffers (s : State) : Calm s ((upTo 12).foldl (fun s c => match s.offer? c with
    | some (_, p) => if s.openTo c p then s else s.withdraw c
    | none => s) s) := by
  refine foldl (fun u c => ?_) _ s
  split
  · exact ite (refl u) (withdraw u c)
  · exact refl u

/-! ## The INTC (R384–R395) -/

theorem assign (s : State) (n : Nat) : Calm s (s.assign n) := ite (refl s) (same rfl)
theorem claimAt (s : State) (k : Nat) : Calm s (s.claimAt k) := by
  unfold State.claimAt
  split
  · exact setResp s _
  · rename_i n _
    dsimp only
    have h := uses s [0xA00000 + 4 * n, 0xA01000 + 4 * n, targetCtlA k]
    generalize State.uses s _ = v at h
    refine (h.trans ?_).trans ((startTask _ _).trans (setResp _ _))
    exact same rfl
theorem completeAt (s : State) (k : Nat) : Calm s (s.completeAt k) := by
  unfold State.completeAt
  split
  · exact refl s
  · refine trans ?_ (endTask _ _)
    exact same rfl

/-! ## The seedbank (R323–R336) -/

theorem seedHalt (s : State) : Calm s s.seedHalt := by
  have h (g : Seedbank → Seedbank) : Calm s (s.modSeed g) := same rfl
  exact ((h _).trans (raise _ 300 0 0 0)).trans (setCause _ _ _)
theorem fenceSource (s : State) (n : Nat) : Calm s (s.fenceSource n) :=
  trans (t := s.modSeed _) (same rfl) (ite (seedHalt _) (refl _))
theorem sourceFails (s : State) (n : Nat) : Calm s (s.sourceFails n) := (raise s _ _ _ _).trans (fenceSource _ n)
theorem seedAlarm (s : State) (n : Nat) (rct : Bool) : Calm s (s.seedAlarm n rct) := by
  have h (g : Seedbank → Seedbank) : Calm s ((s.modSeed g).raise (284 + n) (unitCode 11 n) 0 0) := trans (t := s.modSeed g) (same rfl) (raise _ _ _ _ _)
  have k (u : State) (g : Seedbank → Seedbank) : Calm u ((u.modSeed g).sourceFails n) := trans (t := u.modSeed g) (same rfl) (sourceFails _ _)
  unfold State.seedAlarm
  dsimp only
  exact ite (refl s) (ite ((h _).trans (k _ _)) (ite ((h _).trans (sourceFails _ _)) (h _)))

/-! ## Fields, match units and engines -/

theorem lookAhead (s : State) (f : Nat) : Calm s (s.lookAhead f) := by
  unfold State.lookAhead
  refine ite (refl s) ?_
  split
  · exact refl s
  · dsimp only
    split
    · exact ((modField s f _).trans (touch _ _)).trans (modField _ f _)
    · exact modField s f _
theorem scrubStep (s : State) (a : Nat) : Calm s (s.scrubStep a) := by
  have h : ∀ c : Prop, [Decidable c] → Calm s (if c then (s.countReqs 1).raise (177 + 4 * a) (unitCode 8 a) 0 0 else s.countReqs 1) :=
    fun c _ => ite ((countReqs s 1).trans (raise _ _ _ _ _)) (countReqs s 1)
  unfold State.scrubStep
  dsimp only
  exact ite (refl s) (ite (setAmu s _ _) (ite ((h _).trans (setAmu _ _ _)) (((h _).trans (setAmu _ _ _)).trans (raise _ _ _ _ _))))
theorem handover (s : State) (pipe : Bool) (k : Nat) : Calm s (s.handover pipe k) := by
  unfold State.handover
  split
  · exact refl s
  · dsimp only
    split
    · exact modEng s pipe k _
    · exact (modEng s pipe k _).trans (modEng _ pipe _ _)

/-! ## Instances, queues and signals (R363–R377) -/

theorem instCmd_freeze (s : State) (n : Nat) : Calm s (s.instCmd n 4) := ite (refl s) (ite (modInst s n _) (refl s))
theorem instCmd_thaw (s : State) (n : Nat) : Calm s (s.instCmd n 5) := ite (refl s) (ite (modInst s n _) (refl s))
theorem sqDoorbell (s : State) (n q v : Nat) : Calm s (s.sqDoorbell n q v) := by
  unfold State.sqDoorbell
  dsimp only
  exact (uses s _).trans (ite (refl _) (ite (modInst _ n _) ((draw _ 12).trans (modInst _ n _))))
theorem cqDoorbell (s : State) (n q v : Nat) : Calm s (s.cqDoorbell n q v) := by
  unfold State.cqDoorbell
  dsimp only
  exact (uses s _).trans (ite (refl _) (modInst _ n _))
theorem descRead (s : State) (host : Bool) (a n : Nat) : Calm s (if host = true then (s.hostPeek a n, s) else s.hbmRead a n).2 := by
  split
  · exact refl s
  · exact hbmRead s a n
theorem fetchFrom (s : State) (i : Nat) : Calm s (s.fetchFrom i) := by
  unfold State.fetchFrom
  dsimp only
  refine trans (t := State.modInst _ _ _) ?_ (adm _ _)
  exact ((uses s _).trans (descRead _ _ _ _)).trans (modInst _ (i / 8) _)
theorem cqSignal (s : State) (n q : Nat) : Calm s (s.cqSignal n q) := by
  unfold State.cqSignal
  dsimp only
  refine ite (ite ((setInst s _ _).trans (same rfl)) (setInst s _ _)) ((setInst s _ _).trans (msix _ _ _))
theorem sendHeld (s : State) (n : Nat) : Calm s (s.sendHeld n) :=
  foldl (fun u _ => ite ((modInst u n _).trans (msix _ _ _)) (refl u)) _ s
theorem sendAllHeld (s : State) : Calm s s.sendAllHeld :=
  ite (refl s) ((foldl (fun u (e : Nat × Inst) => sendHeld u e.1) _ s).trans (same rfl))
/-- A mailbox index within its ring's bounds. -/
theorem mbxCheck_good (s : State) (n : Nat) {p c : BitVec 5} (h : ringBad p c = false) : s.mbxCheck n p c = s := by
  simp [State.mbxCheck, h]
theorem mbxUp (s : State) {n : Nat} {ix : BitVec 5} (h : ringBad ix (s.inst n).upCons = false) : Calm s (s.mbxUp n ix) := by
  unfold State.mbxUp
  rw [mbxCheck_good _ n h]
  exact ite (refl s) ((((uses s _).trans (modInst _ n _)).trans (msix _ _ _)).trans (pendSrc _ _))
theorem mbxDn (s : State) {n : Nat} {ix : BitVec 5} (h : ringBad ix (s.inst n).dnCons = false) : Calm s (s.mbxDn n ix) := by
  unfold State.mbxDn
  rw [mbxCheck_good _ n h]
  exact ite (refl s) (((uses s _).trans (modInst _ n _)).trans (msix _ _ _))

/-! ## The Commons (R474–R492) -/

theorem modCommons (s : State) (g : Commons → Commons) : Calm s (s.modCommons g) := same rfl
theorem sendOn (s : State) (w : WaitFrame) : Calm s (s.sendOn w) := by
  obtain ⟨c, o, e, -⟩ := sendOn_only s w
  rw [e]
  exact same rfl
theorem resend (s : State) (w : WaitFrame) : Calm s (s.resend w) := by
  obtain ⟨c, o, e, -⟩ := resend_only s w
  rw [e]
  exact same rfl
theorem movePlanes (s : State) : Calm s s.movePlanes := (modCommons s _).trans (foldl (fun u w => resend u w) _ _)
theorem sendFrame (s : State) (any : Bool) (kind dst : Nat) (c : DWord) (slot off : Nat) (b : Bytes) :
    Calm s (s.sendFrame any kind dst c slot off b) := by
  unfold State.sendFrame
  dsimp only
  split
  · exact refl s
  · exact (modCommons s _).trans (sendOn _ _)
theorem receive (s : State) (fr : Frame) {act : State → State} (h : Calm s (act s)) : Calm s (s.receive fr act) :=
  ite (refl s) (ite h (ite (refl s) (modCommons s _)))
theorem modPart (s : State) (id : Nat) (g : Part → Part) : Calm s (s.modPart id g) := modJob s id _
theorem aliveSwn (s : State) (fr : Frame) : Calm s (s.aliveSwn fr) := ite (modCommons s _) (refl s)
theorem takeAlive (s : State) (fr : Frame) : Calm s (s.takeAlive fr) := by
  refine trans ?_ (aliveSwn _ fr)
  exact same rfl
theorem sendAlive (s : State) : Calm s s.sendAlive := foldl (fun u m => sendFrame u true 8 m 0 0 0 _) _ s

/-! ## Voltages (R507, R508) and training (R464) -/

theorem avsDone (s : State) (east : Bool) (mv : Nat) : Calm s (s.avsDone east mv) := (modPower s _).trans (emit _ _)
theorem avsFail (s : State) : Calm s s.avsFail := by
  refine trans ?_ (raise _ 469 0 0 0)
  exact same rfl
theorem untrained (s : State) (i : Fin 128) : Calm s (s.untrained i) := (raise s _ _ _ _).trans (same rfl)

end Calm

end Sys2Proof.Machine
end

section
/-! The statement of the commands of one unit that leave every store as it is (Table 25.3). -/

open Sys2Proof Sys2Proof.Machine

namespace Sys2Proof.Machine

variable {s t u : State}

/-- What holds where a command acts, and where it does not, holds after it. -/
theorem of_whenRun {P : State → Prop} (hs : P s) (hu : P u) (e : whenRun s u = .next t) : P t := by
  have e := (whenRun_next u).symm.trans e
  injection e with e
  rw [← e]
  split
  · exact hu
  · exact hs
theorem of_whenUp {P : State → Prop} (hs : P s) (hu : P u) (e : whenUp s u = .next t) : P t := by
  have e := (whenUp_next u).symm.trans e
  injection e with e
  rw [← e]
  split
  · exact hu
  · exact hs
theorem of_next {P : State → Prop} (hu : P u) (e : (.next u : Host.Outcome State Fault Refusal) = .next t) : P t := by
  injection e with e
  exact e ▸ hu

namespace Calm

theorem run (e : whenRun s u = .next t) (h : Calm s u) : Calm s t := of_whenRun (P := Calm s) (refl s) h e
theorem upTo (e : whenUp s u = .next t) (h : Calm s u) : Calm s t := of_whenUp (P := Calm s) (refl s) h e
theorem next (e : (.next u : Host.Outcome State Fault Refusal) = .next t) (h : Calm s u) : Calm s t := of_next h e

/-! ## The commands with more than one operation -/

theorem mirrorRefresh {skew : List (BitVec 16)} (e : exec (.mirrorRefresh skew) s = .next t) : Calm s t := by
  refine run e ?_
  refine trans (trans ?_ (pendSrc _ _)) (setOffset _ _)
  have h (m : Mirror) (l : List Nat) : Calm s (l.foldl (fun t u => t.raise 449 (BitVec.ofNat 16 u) 0 0) { s with mirror := m }) :=
    trans (t := { s with mirror := m }) (same rfl) (foldl (fun v n => raise v 449 _ 0 0) l _)
  exact ite ((h _ _).trans (setCause _ _ _)) (ite ((h _ _).trans (setCause _ _ _)) (h _ _))
theorem planeLoad {f : Fin 16} (e : exec (.planeLoad f) s = .next t) : Calm s t := by
  refine run e ?_
  split
  · exact refl s
  · exact ⟨rfl, mwf_mput, id, id, id, id⟩
theorem fieldStoreClear {f : Fin 16} (e : exec (.fieldStoreClear f) s = .next t) : Calm s t := by
  refine run e ?_
  split
  · exact ite (refl s) (modField s _ _)
  · exact refl s
theorem splitHandover {pool : Fin 5} {core : Nat} (e : exec (.splitHandover pool core) s = .next t) : Calm s t :=
  run e (ite (ite (handover s _ _) (refl s)) (ite (handover s _ _) (refl s)))
theorem conditionedBlock {src : Fin 8} {samples : Bytes} (e : exec (.conditionedBlock src samples) s = .next t) : Calm s t :=
  run e (ite (same rfl) (refl s))
theorem seedStartupTestEnd (e : exec .seedStartupTestEnd s = .next t) : Calm s t :=
  run e (ite (refl s) (ite (same rfl) (seedHalt s)))
theorem swiSetC {who : Requester} {k : Fin 32} (e : exec (.swiSetC who k) s = .next t) : Calm s t := by
  refine run e ?_
  cases who with
  | pf => exact pendSrc s _
  | cc _ => exact pendSrc s _
  | _ => exact refl s
theorem swiSetM {who : Requester} {k : Fin 32} (e : exec (.swiSetM who k) s = .next t) : Calm s t := by
  refine run e ?_
  cases who with
  | pf => exact pendSrc s _
  | cm _ => exact pendSrc s _
  | _ => exact refl s
theorem intc (s : State) (x : Intc) : Calm s { s with intc := x } := same rfl
theorem timerExpiry {k : Fin 16} (e : exec (.timerExpiry k) s = .next t) : Calm s t :=
  upTo e (ite (refl s) ((intc s _).trans (pendSrc _ _)))
theorem taskOffer (e : exec .taskOffer s = .next t) : Calm s t := by
  refine run e ?_
  split
  · exact (taskOffers s).trans (makeOffer _ _ _ _)
  · exact taskOffers s
theorem react (s : State) (r : Nat) {act : State → FGroup → State} (h : ∀ u g, Calm u (act u g)) : Calm s (s.react r act) := by
  unfold State.react
  refine ite (refl s) ?_
  split
  · exact refl s
  · exact trans (t := s.taken r) (same rfl) (h _ _)
theorem reactionPin (e : exec .reactionPin s = .next t) : Calm s t := upTo e (react s 4 fun u _ => modFaults u fun _ => rfl)
theorem reactionInt (e : exec .reactionInt s = .next t) : Calm s t :=
  upTo e (react s 0 fun u _ => foldl (fun v _ => pendSrc v _) _ u)
theorem reactionNmi (e : exec .reactionNmi s = .next t) : Calm s t := upTo e (react s 1 fun _ _ => same rfl)
theorem faultPinTimer (e : exec .faultPinTimer s = .next t) : Calm s t :=
  upTo e (ite ((uses s _).trans (modFaults _ fun _ => rfl)) (refl s))
theorem hbmTrainingEnd {l : List (Fin 128)} (e : exec (.hbmTrainingEnd l) s = .next t) : Calm s t := by
  refine upTo e (ite (refl s) ?_)
  have h := (foldl (f := State.untrained) untrained l s).trans (modStart _ (fun x => { x with trainFailed := l.eraseDups.length }))
  exact ite (h.trans (startStop _ 4)) (h.trans (modStart _ _))
theorem firmwareVerify {a b : Bool} {i : List Bytes} {k : List (Bytes × Bool)} (e : exec (.firmwareVerify a b i k) s = .next t) :
    Calm s t := by
  refine upTo e (ite (refl s) ?_)
  dsimp only
  split
  · exact startStop s 2
  · exact modStart s _
theorem mctpMessage {via : MctpVia} {msg : Bytes} (e : exec (.mctpMessage via msg) s = .next t) : Calm s t := by
  cases h : s.mctpHears via with
  | false => exact next ((if_pos (congrArg (!·) h)).symm.trans e) (refl s)
  | true =>
    obtain ⟨f, o, hr, -⟩ := mctpResponded_only (s := s) via msg
    have k : Calm s (s.mctpResponded via msg) := hr ▸ same rfl
    exact next ((exec_mctpMessage_heard via msg h).symm.trans e) (ite (k.trans (pendSrc _ _)) k)
theorem spdmGetMeasurements {i : Byte} {n : Bytes} (e : exec (.spdmGetMeasurements i n) s = .next t) : Calm s t :=
  upTo e (ite ((drawBytes s 64).trans (emit _ _)) (refl s))
theorem thermtrip (e : exec .thermtrip s = .next t) : Calm s t := by
  have h (b : Startup) : Calm s { s with start := b } := same rfl
  exact next e (ite ((h _).trans (raise _ 468 0 0 0)) (h _))
theorem marginPlan (e : exec .marginPlan s = .next t) : Calm s t := by
  refine run e (ite (refl s) (trans ?_ (pendSrc _ _)))
  have h (g : Power → Power) : Calm s ((s.uses [0xC00010]).modPower g) := (uses s _).trans (modPower _ g)
  have k (g : Power → Power) : Calm s (if s.plan.2 then ((s.uses [0xC00010]).modPower g).raise 469 0 0 0
      else (s.uses [0xC00010]).modPower g) := ite ((h g).trans (raise _ _ _ _ _)) (h g)
  exact ite ((k _).trans (same rfl)) (k _)
theorem avsCommand {east : Bool} {acks : List Bool} (e : exec (.avsCommand east acks) s = .next t) : Calm s t := by
  refine run e ?_
  split
  · exact refl s
  · exact ite (avsDone s _ _) (avsFail s)
theorem descriptorArrives (e : exec .descriptorArrives s = .next t) : Calm s t := by
  refine run e (ite (refl s) ?_)
  split
  · exact fetchFrom s _
  · exact refl s
theorem d3hotOrL1Entry {n : Fin 257} {kind : LowPower} (e : exec (.d3hotOrL1Entry n kind) s = .next t) : Calm s t := by
  refine upTo e ?_
  cases kind with
  | linkL1 => exact same rfl
  | d3hot => exact modInst s _ _
  | d3cold => exact modInst s _ _
theorem awake (s : State) (n : Nat) : Calm s (s.awake n) :=
  trans (t := s.modInst n fun i => { i with low := false }) (modInst s n _) (same rfl)
theorem hostD0Return {n : Fin 257} (e : exec (.hostD0Return n) s = .next t) : Calm s t :=
  upTo e ((awake s n.val).trans (sendAllHeld _))
theorem pcieLinkDown (e : exec .pcieLinkDown s = .next t) : Calm s t := by
  refine upTo e ?_
  have h (x : HostIf) : Calm s { s with hostif := x } := same rfl
  exact ((h _).trans (raise _ 473 0 0 0)).trans (setCause _ _ _)
theorem ofPart {fr : Frame} {g : Part → Part} (s : State) : Calm s (match s.partOf fr.cjob with
    | none => s
    | some (j, p) => if p.coord = fr.src.toNat then s.modPart j.id g else s) := by
  split
  · exact refl s
  · exact ite (modPart s _ _) (refl s)
theorem modOwn (s : State) (fr : Frame) (g : CJob → CJob) : Calm s (s.modOwn fr g) := same rfl
theorem alive {fr : Frame} (e : exec (.alive fr) s = .next t) : Calm s t :=
  run e (ite ((modCommons s _).trans (aliveSwn _ fr)) (receive s fr (takeAlive s fr)))
theorem peerTimeout {m : BitVec 10} (e : exec (.peerTimeout m) s = .next t) : Calm s t := run e (ite (same rfl) (refl s))
theorem portLinkDrop {k : Fin 4} (e : exec (.portLinkDrop k) s = .next t) : Calm s t :=
  upTo e ((modCommons s _).trans (movePlanes _))

end Calm

/-- A quiet command leaves every store as it is: by cases of the command. -/
theorem Calm.of_quiet {c : Instr} (hq : quiet c s = true) (e : exec c s = .next t) : Calm s t := by
  cases c with
  | tickOutPulse => exact run e (ite (emit s _) (refl s))
  | mirrorRefresh _ => exact mirrorRefresh e
  | planeLoad _ => exact planeLoad e
  | fieldStoreClear _ => exact fieldStoreClear e
  | lookaheadStart => exact run e ((foldl lookAhead _ s).trans (setOffset _ _))
  | amuScrubStep _ => exact run e (ite (scrubStep s _) ((scrubStep s _).trans (modAmu _ _ _)))
  | probeAnswer _ => exact run e (ite (refl s) (modAmu s _ _))
  | splitHandover _ _ => exact splitHandover e
  | conditionedBlock _ _ => exact conditionedBlock e
  | seedAlarm _ _ => exact run e (seedAlarm s _ _)
  | seedStartupTestEnd => exact seedStartupTestEnd e
  | intcEvent _ => exact upTo e (pendSrc s _)
  | intcReassign _ => exact upTo e (assign s _)
  | claim _ _ => exact upTo e (ite (claimAt s _) (setResp s _))
  | complete _ _ _ => exact run e (ite (completeAt s _) (refl s))
  | swiSetC _ _ => exact swiSetC e
  | swiSetM _ _ => exact swiSetM e
  | timerWrite _ _ => exact run e (same rfl)
  | timerExpiry _ => exact timerExpiry e
  | taskArm _ _ _ => exact run e (ite (taskPush s _ _) (refl s))
  | taskSignal _ _ => exact run e (ite (taskPush s _ _) (refl s))
  | taskCancel _ _ => exact run e (ite (taskPush s _ _) (refl s))
  | taskInletEvent => exact run e (takeEvent s)
  | taskOffer => exact taskOffer e
  | offerTimeout _ => exact run e (withdraw s _)
  | reactionPin => exact reactionPin e
  | reactionInt => exact reactionInt e
  | reactionNmi => exact reactionNmi e
  | faultPinTimer => exact faultPinTimer e
  | busTimeout _ => exact upTo e (same rfl)
  | hbmTrainingEnd _ => exact hbmTrainingEnd e
  | firmwareVerify _ _ _ _ => exact firmwareVerify e
  | pldmFirmwareUpdate _ => exact next e (ite (modStart s _) (refl s))
  | mctpMessage _ _ => exact mctpMessage e
  | spdmGetMeasurements _ _ => exact spdmGetMeasurements e
  | heldStatusRequest => exact next e (ite (emit s _) (refl s))
  | thermtrip => exact thermtrip e
  | rtcAlarm => exact upTo e (ite ((uses s _).trans (pendSrc _ _)) (uses s _))
  | ageingMeasurementEnd _ => exact run e (ite (modPower s _) (refl s))
  | marginPlan => exact marginPlan e
  | avsCommand _ _ => exact avsCommand e
  | instFreeze _ _ => exact run e (ite (instCmd_freeze s _) (refl s))
  | instThaw _ _ => exact run e (ite (instCmd_thaw s _) (refl s))
  | numvfsRaised _ => exact upTo e (same rfl)
  | sqTailDoorbell _ _ _ => exact run e (sqDoorbell s _ _ _)
  | cqHeadDoorbell _ _ _ => exact run e (cqDoorbell s _ _ _)
  | descriptorArrives => exact descriptorArrives e
  | cqTimer _ _ => exact run e (ite ((uses s _).trans (cqSignal _ _ _)) (uses s _))
  | hostD0Return _ => exact hostD0Return e
  | d3hotOrL1Entry _ _ => exact d3hotOrL1Entry e
  | mbxUpProd n ix => exact run e (mbxUp s ((Bool.not_eq_true' _).mp hq))
  | mbxDnProd n ix => exact run e (mbxDn s ((Bool.not_eq_true' _).mp hq))
  | dmaErrorCompletion _ _ _ => exact upTo e (same rfl)
  | pcieLinkDown => exact pcieLinkDown e
  | reserve fr => exact run e (receive s fr (modCommons s _))
  | ack fr => exact run e (receive s fr (modOwn s fr _))
  | commit fr => exact run e (receive s fr (ofPart s))
  | abandon fr => exact run e (receive s fr (ofPart s))
  | partDone fr => exact run e (receive s fr (modOwn s fr _))
  | alive _ => exact alive e
  | aliveSend => exact run e (ite (sendAlive s) (refl s))
  | peerTimeout _ => exact peerTimeout e
  | ptpSync _ => exact run e (ite (modCommons s _) (refl s))
  | tickInEdge => exact run e (ite (modCommons s _) (refl s))
  | referenceLost => exact run e (ite (modCommons s _) (refl s))
  | holdoverTimeout => exact run e (ite (modCommons s _) (refl s))
  | portLinkDrop _ => exact portLinkDrop e
  | portRetrained _ => exact upTo e (ite (refl s) (modCommons s _))
  | _ => exact absurd hq Bool.false_ne_true

/-- Settles O60. -/
theorem quietCommandsKeepTheStores : Obligations.QuietCommandsKeepTheStores :=
  fun _ _ _ hq e => (Calm.of_quiet hq e).stores

end Sys2Proof.Machine
end

section
/-! Operations that keep the canonical form of every store and the mark of Fallow (R422). -/

open Sys2Proof Sys2Proof.Machine

namespace Sys2Proof.Machine

variable {s t u : State}

/-- From `s` to `t` the stores keep their canonical form and Fallow is neither entered nor left. -/
structure Sound (s t : State) : Prop where
  canonical : s.Canonical → t.Canonical
  fallow : t.faults.fallow = s.faults.fallow

namespace Sound

theorem refl (s : State) : Sound s s := ⟨id, rfl⟩
theorem trans (a : Sound s t) (b : Sound t u) : Sound s u := ⟨b.canonical ∘ a.canonical, b.fallow.trans a.fallow⟩
theorem ite {c : Prop} [Decidable c] (a : Sound s t) (b : Sound s u) : Sound s (if c then t else u) := by
  split
  · exact a
  · exact b
theorem foldl {β : Type} {f : State → β → State} (hf : ∀ s b, Sound s (f s b)) (l : List β) (s : State) : Sound s (l.foldl f s) := by
  induction l generalizing s with
  | nil => exact refl s
  | cons b l ih => exact (hf s b).trans (ih _)
theorem same (h : t.stores = s.stores) (hf : t.faults.fallow = s.faults.fallow) : Sound s t := ⟨fun hs => canonical_same hs h, hf⟩
theorem calm (h : Calm s t) : Sound s t := ⟨h.canonical, h.fallow⟩
theorem fences (h : Fences s t) : Sound s t := ⟨h.canonical, h.fallow⟩

/-! ## Registers and memories -/

theorem setCfg (s : State) (a : Nat) (w : Word) : Sound s (s.setCfg a w) := ⟨fun h => canonical_setCfg h a w, rfl⟩
theorem setLive (s : State) (a : Nat) (w : Word) : Sound s (s.setLive a w) := ⟨fun h => canonical_setLive h a w, rfl⟩
theorem rewritten (s : State) (a : Nat) : Sound s (s.rewritten a) := by
  obtain ⟨p, v, c, e, -⟩ := rewritten_only s a
  rw [e]
  exact same rfl rfl
theorem hbmWrite (s : State) (a : Nat) (b : Bytes) : Sound s (s.hbmWrite a b) := fences (.hbmWrite s a b)
theorem memWrite (s : State) (host : Bool) (a : Nat) (b : Bytes) : Sound s (s.memWrite host a b) := by
  refine ⟨fun h => canonical_memWrite h host a b, ?_⟩
  obtain ⟨m, k, n, l, e⟩ := memWrite_only s host a b
  rw [e]
theorem checkParity (s : State) (a : Nat) : Sound s (s.checkParity a) := by
  obtain ⟨l, c, e⟩ := checkParity_only (s := s) a
  rw [e]
  exact same rfl rfl

/-! ## Completion records -/

theorem cqWrite (s : State) (n q : Nat) (r : Bytes) : Sound s (s.cqWrite n q r) := by
  unfold State.cqWrite
  dsimp only
  have h := calm (.uses s (cqWords n q))
  refine h.trans (ite (refl _) ?_)
  have k (u : State) (host : Bool) (a : Nat) (b : Bytes) (x : Inst) : Sound u ((u.memWrite host a b).setInst n x) :=
    (memWrite u host a b).trans (calm (.setInst _ n x))
  exact ite ((k ..).trans (calm (.cqSignal _ n q))) (k ..)
theorem post (s : State) (n q d : Nat) (r : Bytes) : Sound s (s.post n q d r) := by
  unfold State.post
  exact ite (refl s) (ite (same rfl rfl) (cqWrite s _ _ _))
theorem postLate (s : State) : Sound s s.postLate := by
  unfold State.postLate
  dsimp only
  refine trans ?_ (foldl (fun u e => post u _ _ _ _) _ _)
  exact same rfl rfl

/-! ## The swath boundary (R53–R57) -/

theorem drawUnless (s : State) (c : Prop) [Decidable c] (b : Nat) : Sound s (if c then (0, s) else s.draw b).2 := by
  split
  · exact refl s
  · exact same rfl rfl
theorem rollField (s : State) (f : Nat) : Sound s (s.rollField f) := by
  unfold State.rollField
  dsimp only
  refine (drawUnless s ((s.field f).busyNow = 0) 44).trans ?_
  exact ⟨fun h => canonical_setField h f _, rfl⟩
theorem rollEngines (s : State) (b : Hbmc) (l n : Nat) : Sound s { s with
    hbmc := b
    amus := mmap (fun _ => Amu.init) (fun _ u => { u with keys := BitVec.ofNat 64 u.keysNow, keysNow := 0 }) s.amus
    cores := mmap (fun _ => Core.init) (fun _ x => x.roll) s.cores
    pipes := mmap (fun _ => Core.init) (fun _ x => x.roll) s.pipes
    loadsLast := l
    lateLast := n } := by
  refine ⟨fun h => ?_, rfl⟩
  rw [canonical_iff] at *
  obtain ⟨hm, hcfg, hlive, hf, ha, hc, hp, hi⟩ := h
  exact ⟨hm, hcfg, hlive, hf, mwf_mmap _ ha, mwf_mmap _ hc, mwf_mmap _ hp, hi⟩
theorem rollCounts (s : State) : Sound s s.rollCounts := by
  unfold State.rollCounts
  dsimp only
  have h := foldl (f := fun s f => s.rollField f) rollField (upTo 16) s
  generalize (upTo 16).foldl _ s = u at h
  have h1 := drawUnless u (u.hbmc.servedNow = 0) 26
  generalize (if u.hbmc.servedNow = 0 then (0, u) else u.draw 26) = p at h1
  have h2 := drawUnless p.2 (p.2.hbmc.servedNow = 0) 22
  generalize (if p.2.hbmc.servedNow = 0 then (0, p.2) else p.2.draw 22) = q at h2
  exact ((h.trans h1).trans h2).trans (rollEngines _ _ _ _)
theorem resendAll (s : State) : Sound s s.resendAll := by
  obtain ⟨c, o, e, -⟩ := resendAll_only (s := s)
  rw [e]
  exact same rfl rfl
theorem modCommons (s : State) (g : Commons → Commons) : Sound s (s.modCommons g) := same rfl rfl
theorem alignStep (s : State) (off : Word) : Sound s (s.alignStep off) := by
  have h (u : State) (x : Glob) (g : Commons → Commons) : Sound u { u.modCommons g with glob := x } := same rfl rfl
  unfold State.alignStep
  dsimp only
  refine ite (refl s) ?_
  have hmoved := modCommons s (fun c => { c with offset := off, refSwn := c.refSwn + 1 })
  generalize s.modCommons _ = v at hmoved ⊢
  refine hmoved.trans ?_
  split
  · exact ite (modCommons _ _) (ite (modCommons _ _) (ite (h _ _ _) (ite (modCommons _ _) (modCommons _ _))))
  · exact ite (modCommons _ _) (ite (modCommons _ _) (modCommons _ _))
  · exact ite (modCommons _ _) (refl _)
  · exact ite (modCommons _ _) (refl _)
  · exact refl _
theorem holdStep (s : State) : Sound s s.holdStep := ite (modCommons s _) (refl s)
theorem retireRow (s : State) (r : Nat) : Sound s (s.retireRow r) := ⟨fun h => canonical_retireRow h r, rfl⟩
theorem epochs (s : State) : Sound s s.epochs := by
  have h : Sound s s.sealLimits := same rfl rfl
  have k (u : State) (x : KeyStore) : Sound u { u with keys := x } := same rfl rfl
  unfold State.epochs
  dsimp only
  generalize s.sealLimits = v at h
  have hmeas (u : State) : Sound u (if u.swnN % 65536 = 0 ∧ u.power.state < 3 then
      u.modPower (fun p => { p with measuring := true, measSwn := u.glob.swn }) else u) := ite (same rfl rfl) (refl u)
  refine h.trans (trans ?_ (hmeas _))
  exact ite (k v _) (refl v)
theorem applyPlan (s : State) : Sound s s.applyPlan := by
  unfold State.applyPlan
  split
  · exact refl s
  · exact ite (refl s) (ite (refl s) (same rfl rfl))
theorem openAdmission (s : State) : Sound s s.openAdmission := by
  have h : Sound s (s.modSeed fun b => { b with openOk := s.seedOpen }) := same rfl rfl
  exact h.trans (ite (refl _) (same rfl rfl))
theorem bar2Do (s : State) (r : Bool × Nat × Nat × Bytes) : Sound s (s.bar2Do r) := by
  have h (x : HostIf) : Sound s { s with hostif := x } := same rfl rfl
  unfold State.bar2Do
  dsimp only
  exact ite ((h _).trans (ite (refl _) (hbmWrite _ _ _))) ((h _).trans (calm ((Calm.hbmRead _ _ _).trans (.setResp _ _))))
theorem releaseBar2 (l : List (Bool × Nat × Nat × Bytes)) (s : State) : Sound s (releaseBar2 l s) := by
  induction l generalizing s with
  | nil => exact same rfl rfl
  | cons r l ih => exact ite (same rfl rfl) ((bar2Do s r).trans (ih _))
theorem bar2 (s : State) (r : Bool × Nat × Nat × Bytes) : Sound s (s.bar2 r) := ite (same rfl rfl) (bar2Do s r)
theorem boundary (s : State) (off : Word) : Sound s (s.boundary off) := by
  have h : Sound s { s with
      glob := { s.glob with swn := s.glob.swn + 1, inHeadland := true, offset := 0 }
      hostif := { s.hostif with winUsed := 0 } } := same rfl rfl
  have k (u : State) : Sound u (((((u.rollCounts.resendAll.alignStep off).holdStep).retireRow (u.swnN - 1)).epochs).applyPlan).openAdmission :=
    ((((((rollCounts u).trans (resendAll _)).trans ((alignStep _ off).trans (holdStep _))).trans (retireRow _ _)).trans
      (epochs _)).trans (applyPlan _)).trans (openAdmission _)
  exact h.trans ((ite (refl _) (k _)).trans (releaseBar2 _ _))

/-! ## The collector (R410–R413) -/

theorem recordEvent (s : State) (off taken : Nat) (r : FaultReport) : Sound s (s.recordEvent off taken r) := by
  unfold State.recordEvent
  dsimp only
  exact calm ((Calm.uses s _).trans (.modFaults _ fun _ => rfl))
theorem wrongEvent (s : State) (n : Nat) : Sound s (s.wrongEvent n) := by
  unfold State.wrongEvent
  dsimp only
  refine ite (refl s) ?_
  have h : Calm s (((s.draw 512).2.draw 16).2.draw 8).2 := .same rfl
  exact calm ((h.trans (.drawBytes _ 32)).trans (.modFaults _ fun _ => rfl))
theorem resetCore (s : State) (k : Nat) : Fences s (s.resetCore k) := .abortPieces s _
theorem resetPipe (s : State) (p : Nat) : Fences s (s.resetPipe p) := .ite (.abortPieces s _) (.refl s)
theorem storeError (s : State) (n : Nat) : Sound s (s.storeError n) := by
  unfold State.storeError
  refine ite (fences (.abortHead s _)) (ite ?_ (ite (fences (resetPipe s _)) (refl s)))
  split
  · exact fences (resetCore s _)
  · exact refl s
theorem sample (s : State) (off n : Nat) (ext : List FaultReport) : Sound s (s.sample off n ext) := by
  have h (l : List FaultReport) (m : Nat) (u : State) : Sound u (l.foldl (fun s r => (s.recordEvent off m r).wrongEvent r.source.val) u) :=
    foldl (fun u r => (recordEvent u off m r).trans (wrongEvent _ _)) l u
  have k (l : List FaultReport) (u : State) : Sound u (l.foldl (fun s r => s.storeError r.source.val) u) :=
    foldl (fun u r => storeError u _) l u
  have hd : Sound s (s.modFaults (fun f => { f with reports := f.reports.drop n })) := same rfl rfl
  unfold State.sample
  dsimp only
  exact ite (hd.trans ((h _ _ _).trans (k _ _))) ((hd.trans ((h _ _ _).trans (k _ _))).trans (calm (.modFaults _ fun _ => rfl)))

/-! ## Votes and parity (R44–R49) -/

theorem fenceBits (s : State) (r : RegRow) (i j w : Nat) : Fences s (s.fenceBits r i j w) := by
  unfold State.fenceBits
  dsimp only
  split
  · exact .fenceField s i
  · exact .foldl (fun u b => .ite (.fenceTile u i _) (.refl u)) _ s
  · exact .foldl (fun u b => .fencePc u _) _ s
  · exact .fenceAmu s i
  · exact .fenceCore s i
  · exact .fenceCore s _
  · exact .fenceCore s _
  · exact .fenceCore s _
  · exact .fenceEng s true i
  · exact .foldl (fun u b => .fenceSource u b) _ s
  · exact .fencePort s i
  · exact .refl s
theorem endDebug (s : State) : Sound s s.endDebug := ⟨fun h => canonical_ctrl (canonical_life h) h.coreMem, rfl⟩
theorem modLife (s : State) (g : Life → Life) : Sound s (s.modLife g) := same rfl rfl
theorem modSlot (s : State) (n : Nat) (g : KSlot → KSlot) : Sound s (s.modSlot n g) := same rfl rfl
theorem setTriple (s : State) (a : Nat) (r : RegRow) (i j mask : Nat) (live lost : Bool) (w : Nat) :
    Sound s (s.setTriple a r i j mask live lost w) := by
  unfold State.setTriple
  dsimp only
  refine ite (ite (setLive s _ _) (setCfg s _ _)) ?_
  split
  · exact modSlot s i _
  · exact ite ((modLife s _).trans (endDebug _)) (modLife s _)
  · exact ite (refl s) (fences (fenceBits s r i j w))
theorem vote (s : State) (a mask : Nat) (live : Bool) (c0 c1 c2 : Nat) : Sound s (s.vote a mask live c0 c1 c2) := by
  have g (u : State) (x : Glob) : Sound u { u with glob := x } := same rfl rfl
  have v (u : State) (x : List (Nat × Bool)) : Sound u { u with voteBad := x } := same rfl rfl
  unfold State.vote
  split
  · exact refl s
  · dsimp only
    refine ite (refl s) (ite (((setTriple s _ _ _ _ _ _ _ _).trans (g _ _)).trans (calm (.raise _ _ _ _ _))) ?_)
    exact ((setTriple s _ _ _ _ _ _ _ _).trans (v _ _)).trans (calm ((Calm.raise _ _ _ _ _).trans (.setCause _ _ _)))
theorem disturb (s : State) (x : Upset) : Sound s (s.disturb x) := by
  cases x with
  | word a b =>
    show Sound s (s.flip a b.val)
    unfold State.flip
    split
    · exact refl s
    · exact ite (refl s) ((setCfg s a _).trans (same rfl rfl))
  | cell n => exact ite (refl s) (modSlot s _ _)
  | keyDecision => exact same rfl rfl
  | bundleDecision => exact same rfl rfl

/-! ## Register reads (R21, R31–R39) -/

theorem readWord (s : State) (who : Requester) (l : Loc) : Sound s (s.readWord who l).2 := by
  cases l with
  | reg a =>
    unfold State.readWord
    dsimp only
    split
    · exact refl s
    · rename_i i _ _
      split
      · exact calm (.claimAt s i)
      · exact (checkParity s a).trans (ite (same rfl rfl) (refl _))
  | _ => exact refl s
theorem read32 (s : State) (who : Requester) (o : Nat) : Sound s (s.read32 who o) := by
  have h (u : State) (r : Resp) : Sound u (u.setResp r) := same rfl rfl
  unfold State.read32
  split
  · split
    · exact h s _
    · dsimp only
      refine ite (ite ?_ (h s _)) ((readWord s who _).trans (h _ _))
      exact same rfl rfl
  · exact h s _
theorem read64 (s : State) (who : Requester) (o : Nat) : Sound s (s.read64 who o) :=
  ((readWord s who _).trans (readWord _ who _)).trans (calm (.setResp _ _))
/-- A read in Fallow, and one of right size and alignment, touches nothing that is unchecked. -/
theorem regRead (s : State) (who : Requester) (o size : Nat) (h : accessOk o size = true ∨ s.running = false) :
    Sound s (s.regRead who o size) := by
  unfold State.regRead
  split
  · exact ite (read64 s who o) (read32 s who o)
  · rename_i hbad
    rw [if_neg (by simp [h.resolve_left hbad])]
    exact calm ((Calm.draw s 64).trans (.setResp _ _))

/-! ## The backup domain and the start (R429–R437, R460–R468) -/

theorem modBk (s : State) (g : Backup → Backup) : Sound s (s.modBk g) := same rfl rfl
theorem modNow (s : State) (g : BkRegs → BkRegs) : Sound s (s.modNow g) := modBk s _
theorem applySlow (s : State) : Sound s s.applySlow := by
  have h (l : List (Nat × Word)) : Sound s (l.foldl (fun s e => (s.setCfg e.1 e.2).rewritten e.1) s) :=
    foldl (fun u e => (setCfg u _ _).trans (rewritten _ _)) l s
  unfold State.applySlow
  dsimp only
  have k (u : State) (as : List Nat) (g : BkRegs → BkRegs) : Sound u ((u.uses as).modNow g) := (calm (.uses u as)).trans (modNow _ g)
  exact ite (refl s) (((ite ((h _).trans (k _ _ _)) (h _)).trans (modBk _ _)).trans (calm (.pendSrc _ _)))
theorem alarm (s : State) (n : Nat) (a b : Bool) : Sound s (s.alarm n a b) := by
  obtain ⟨x, l, e⟩ := alarm_only s n a b
  rw [e]
  exact same rfl rfl
theorem latchTamper (s : State) (n : Nat) (a b : Bool) : Sound s (s.latchTamper n a b) := by
  obtain ⟨x, e⟩ := latchTamper_only (s := s) n a b
  rw [e]
  exact same rfl rfl
theorem wellLost (s : State) : Sound s s.wellLost :=
  ⟨fun h => canonical_cfg (canonical_backup h) (mwf_filter _ h.cfg), rfl⟩
theorem writeMark (s : State) (m k : Nat) : Sound s (s.writeMark m k) := by
  obtain ⟨a, b, i, e, -⟩ := writeMark_only s m k
  rw [e]
  exact same rfl rfl
theorem readJournal (s : State) (a b : Bool) : Sound s (s.readJournal a b) := by
  unfold State.readJournal
  dsimp only
  split
  · exact modLife s _
  · split
    · exact (modLife s _).trans (writeMark _ _ _)
    · exact ((modLife s _).trans (modLife _ _)).trans (writeMark _ _ _)
    · exact modLife s _
theorem startEdge (s : State) (e : StartEnv) : Sound s (s.startEdge e) := by
  have h (b : Startup) (g : Glob) : Sound s { s with start := b, glob := g } := same rfl rfl
  have k (u : State) (x : Tamper) (g : Power → Power) : Sound u ((State.modPower { u with tamper := x } g).mergeCounter) := same rfl rfl
  unfold State.startEdge
  dsimp only
  exact ite ((h _ _).trans (calm (.startStop _ 1))) ((h _ _).trans ((k _ _ _).trans (readJournal _ _ _)))
theorem corePoke (s : State) (k a : Nat) (b : Bytes) : Sound s (s.corePoke k a b) := by
  refine ⟨fun h => canonical_corePoke h k a b, ?_⟩
  induction b generalizing s a with
  | nil => rfl
  | cons x b ih => exact ih _ _
theorem dropStack (s : State) (k : Nat) : Sound s (s.dropStack k) := by
  obtain ⟨i, j, e⟩ := dropStack_only (s := s) k
  rw [e]
  exact same rfl rfl

end Sound

end Sys2Proof.Machine
end

section
/-! The statement of Fallow (R422): it is left only by a chip reset. -/

open Sys2Proof Sys2Proof.Machine

namespace Sys2Proof.Machine

variable {s t u : State}

/-- The device is in Fallow, or it has been reset since it had started `n` times. -/
def State.fallowOrReset (n : Nat) (t : State) : Prop := t.faults.fallow = true ∨ t.start.boot = n + 1

theorem Sound.stays (h : Sound s t) (hf : s.faults.fallow = true) (n : Nat) : t.fallowOrReset n := .inl (h.fallow.trans hf)

/-- A chip reset counts as one, and leaves the device waiting for a start. -/
theorem chipReset_boots (s : State) (c : BitVec 7) : (s.chipReset c).start.up = false ∧ (s.chipReset c).start.boot = s.start.boot + 1 := by
  obtain ⟨k, b, n, e⟩ := settleCommits_only s
  unfold State.chipReset
  rw [e]
  exact ⟨rfl, rfl⟩

/-! ## Register writes in Fallow -/

/-- RESET_REQ is the one register that Fallow leaves writable. -/
theorem resetWrite_cases (s : State) (who : Requester) (key kind : Nat) :
    s.resetWrite who key kind = s ∨ s.start.up = true ∧ s.resetWrite who key kind = s.chipReset causeRequest := by
  have h (may : Bool) : (if s.start.up && !s.power.ps4Ready && may && key = 0x5EED && kind = 1 then s.chipReset causeRequest else s) = s ∨
      s.start.up = true ∧ (if s.start.up && !s.power.ps4Ready && may && key = 0x5EED && kind = 1 then s.chipReset causeRequest else s) =
        s.chipReset causeRequest := by
    split
    · rename_i h
      simp only [Bool.and_eq_true] at h
      exact .inr ⟨h.1.1.1.1, rfl⟩
    · exact .inl rfl
  exact h _
theorem writeReg_resetReq (s : State) (who : Requester) (w : Word) :
    s.writeReg who 0xC0 w = s.resetWrite who (w.toNat / 65536) (w.toNat % 4) := rfl
theorem writeLoc_stopped (h : s.running = false) (who : Requester) (l : Loc) (w : Word) :
    s.writeLoc who l w = s ∨ s.start.up = true ∧ s.writeLoc who l w = s.chipReset causeRequest := by
  cases l with
  | reg a =>
    by_cases ha : a = 0xC0
    · subst ha
      have e : s.writeLoc who (.reg 0xC0) w = s.writeReg who 0xC0 w := by
        unfold State.writeLoc
        exact if_pos (.inl rfl)
      rw [e, writeReg_resetReq]
      exact resetWrite_cases s who _ _
    · exact .inl (if_neg (by simp [ha, h]))
  | bell n i => exact .inl (if_neg (by simp [h]))
  | vfTable n k => exact .inl (if_pos (by simp [h]))
  | vfPba _ _ => exact .inl rfl
  | none => exact .inl rfl

/-- A device that is still, or has been reset, since it was `s`. -/
def State.stillOrReset (s u : State) : Prop := u = s ∨ u.start.up = false ∧ u.start.boot = s.start.boot + 1
theorem writeLoc_stillOrReset (h : s.running = false) (hu : s.stillOrReset u) (who : Requester) (l : Loc) (w : Word) :
    s.stillOrReset (u.writeLoc who l w) := by
  rcases hu with rfl | ⟨hup, hboot⟩
  · rcases writeLoc_stopped h who l w with e | ⟨-, e⟩
    · exact .inl e
    · exact .inr (e ▸ chipReset_boots _ _)
  · have hrun : u.running = false := by simp [State.running, State.up, hup]
    rcases writeLoc_stopped hrun who l w with e | ⟨hup', -⟩
    · exact .inr (e.symm ▸ ⟨hup, hboot⟩)
    · exact absurd (hup'.symm.trans hup) (by decide)
theorem writeLocs_stillOrReset (h : s.running = false) (who : Requester) (l : List (Loc × Word)) (hu : s.stillOrReset u) :
    s.stillOrReset (l.foldl (fun s e => s.writeLoc who e.1 e.2) u) := by
  induction l generalizing u with
  | nil => exact hu
  | cons e l ih => exact ih (writeLoc_stillOrReset h hu who _ _)
theorem regWrite_stillOrReset (h : s.running = false) (who : Requester) (o size : Nat) (v : DWord) :
    s.stillOrReset (s.regWrite who o size v) := by
  have hl := writeLocs_stillOrReset h who ((accessWords o size v).map (fun e => (Loc.of who e.1, e.2))) (.inl rfl)
  unfold State.regWrite
  split
  · rw [if_neg (by simp [h])]
    exact .inl rfl
  · dsimp only
    rw [if_neg (by simp [h])]
    exact hl
theorem stillOrReset_stays (hf : s.faults.fallow = true) (h : s.stillOrReset u) : u.fallowOrReset s.start.boot := by
  rcases h with rfl | ⟨-, hboot⟩
  · exact .inl hf
  · exact .inr hboot

/-! ## The commands that act in Fallow -/

section Commands

variable (hf : s.faults.fallow = true)
include hf

theorem registerWrite_stays {who : Requester} {a size : Nat} {v : DWord} (e : exec (.registerWrite who a size v) s = .next t) :
    t.fallowOrReset s.start.boot :=
  of_next (P := State.fallowOrReset s.start.boot)
    (by
      split
      · exact .inl hf
      · exact stillOrReset_stays hf (regWrite_stillOrReset (not_running_of_fallow hf) who a size v)) e
theorem resetReq_stays {who : Requester} {key : BitVec 16} {kind : BitVec 2} (e : exec (.resetReq who key kind) s = .next t) :
    t.fallowOrReset s.start.boot := by
  refine of_next (P := State.fallowOrReset s.start.boot) (u := s.resetWrite who key.toNat kind.toNat) ?_ e
  rcases resetWrite_cases s who key.toNat kind.toNat with h | ⟨-, h⟩
  · rw [h]
    exact .inl hf
  · rw [h]
    exact .inr (chipReset_boots s _).2
theorem perstAssert_stays (e : exec .perstAssert s = .next t) : t.fallowOrReset s.start.boot := by
  refine of_next (P := State.fallowOrReset s.start.boot) (u := State.heldInReset (if s.start.up then s.chipReset causePerst else s)) ?_ e
  split
  · exact .inr (chipReset_boots s causePerst).2
  · exact .inl hf
theorem mainRailLoss_stays {r : Rail} (e : exec (.mainRailLoss r) s = .next t) : t.fallowOrReset s.start.boot := by
  refine of_next (P := State.fallowOrReset s.start.boot) ?_ e
  split
  · exact .inr (chipReset_boots s _).2
  · split
    · exact .inl hf
    · have h := Sound.calm (.raise s 470 0 0 0)
      split
      · exact (h.trans (.alarm _ _ _ _)).stays hf _
      · exact h.stays hf _
theorem backupTamperAlarm_stays {n : Fin 3} {a b : Bool} (e : exec (.backupTamperAlarm n a b) s = .next t) :
    t.fallowOrReset s.start.boot := by
  have h (g : Backup → Backup) : Sound s ((s.latchTamper (13 + n.val) a b).modBk g) := (Sound.latchTamper s _ a b).trans (.modBk _ g)
  exact of_next (P := State.fallowOrReset s.start.boot)
    ((Sound.ite (.ite ((h _).trans (.calm (.raise _ _ _ _ _))) (h _)) (.refl s)).stays hf _) e
theorem auxRailFall_stays (e : exec .auxRailFall s = .next t) : t.fallowOrReset s.start.boot := by
  have h (x : Startup) : Sound s { s with start := x } := .same rfl rfl
  exact of_next (P := State.fallowOrReset s.start.boot) ((Sound.ite ((h _).trans (.modBk _ _)) ((h _).trans (.wellLost _))).stays hf _) e
theorem backupSupplyChange_stays {aux : Option (BitVec 2)} {v : Bool} (e : exec (.backupSupplyChange aux v) s = .next t) :
    t.fallowOrReset s.start.boot := by
  refine of_next (P := State.fallowOrReset s.start.boot) ?_ e
  cases aux with
  | none => exact (Sound.ite (.wellLost s) (.ite (.modBk s _) (.modBk s _))).stays hf _
  | some x => exact (Sound.modBk s _).stays hf _
theorem dbgCore_stays {k : Fin 16} {op : DbgCoreOp} (e : exec (.dbgCore k op) s = .next t) : t.fallowOrReset s.start.boot := by
  refine of_next (P := State.fallowOrReset s.start.boot) ?_ e
  have h := Sound.modLife s (fun l => { l with session := true })
  split
  · exact .inl hf
  · cases op with
    | halt =>
      dsimp only
      split
      · exact h.stays hf _
      · exact (h.trans (.dropStack _ k.val)).stays hf _
    | resume => exact h.stays hf _
    | step => exact h.stays hf _
    | read a n => exact h.stays hf _
    | write a b => exact (h.trans (.corePoke _ k.val a b)).stays hf _
theorem dbgReg_stays {w : Bool} {a : Nat} {v : Word} (e : exec (.dbgReg w a v) s = .next t) : t.fallowOrReset s.start.boot := by
  refine of_next (P := State.fallowOrReset s.start.boot) ?_ e
  have hrun : s.inSession.running = false := not_running_of_fallow hf
  split
  · exact .inl hf
  · dsimp only
    split
    · split
      · exact .inl hf
      · exact stillOrReset_stays (s := s.inSession) hf (regWrite_stillOrReset hrun .jtag a 4 _)
    · split
      · exact ((Sound.modLife s _).trans (.regRead _ .jtag a 4 (.inr hrun))).stays hf _
      · exact .inl hf
theorem pcieLinkUp_stays (e : exec .pcieLinkUp s = .next t) : t.fallowOrReset s.start.boot := by
  have h (x : HostIf) : Sound s { s with hostif := x } := .same rfl rfl
  exact of_whenUp (P := State.fallowOrReset s.start.boot) (.inl hf)
    (((((h _).trans (.calm (.setCause _ _ _))).trans (.postLate _)).trans (.calm (.sendAllHeld _))).stays hf _) e
theorem openingStepEnd_stays (e : exec .openingStepEnd s = .next t) : t.fallowOrReset s.start.boot := by
  have h (x : KeyStore) : Sound s { s with keys := x } := .same rfl rfl
  refine of_whenUp (P := State.fallowOrReset s.start.boot) (.inl hf) ?_ e
  split
  · exact ((h _).trans (.writeMark _ 3 2)).stays hf _
  · exact ((Sound.modLife s _).trans (.writeMark _ 4 2)).stays hf _
  · exact ((((Sound.modBk s _).trans (.writeMark _ 5 2)).trans (.modLife _ _)).trans (.writeMark _ 0 2)).stays hf _
  · exact .inl hf
theorem risingSclkEdge_stays (e : exec .risingSclkEdge s = .next t) : t.fallowOrReset s.start.boot := by
  refine of_next (P := State.fallowOrReset s.start.boot) ?_ e
  have h : Sound s (if s.backup.aux || s.backup.vbat then s.modNow (fun n => { n with rtc := n.rtc + 1 }) else s) :=
    .ite (.modNow s _) (.refl s)
  have k (u : State) : Sound u (if u.start.up then u.modBk (fun b => { b with mirror := b.now }) else u) := .ite (.modBk u _) (.refl u)
  have m (u : State) : Sound u (if u.start.up && !u.glob.admitOpen then { u with start := { u.start with sc := satInc 16 u.start.sc } }
      else u) := .ite (.same rfl rfl) (.refl u)
  exact ((h.trans (k _)).trans (m _)).stays hf _

end Commands

/-- A command of those that do nothing in Fallow leaves it standing. -/
theorem stays_of_whenRun {u : State} (hf : s.faults.fallow = true) (e : whenRun s u = .next t) : t.fallowOrReset s.start.boot :=
  of_next (P := State.fallowOrReset s.start.boot) (.inl hf) ((whenRun_of_fallow hf u).symm.trans e)
theorem stays_of_whenUp {u : State} (hf : s.faults.fallow = true) (h : Sound s u) (e : whenUp s u = .next t) :
    t.fallowOrReset s.start.boot := of_whenUp (P := State.fallowOrReset s.start.boot) (.inl hf) (h.stays hf _) e
theorem stays_of_react {r : Nat} {act : State → FGroup → State} (hf : s.faults.fallow = true) (e : whenUp s (s.react r act) = .next t) :
    t.fallowOrReset s.start.boot :=
  of_next (P := State.fallowOrReset s.start.boot) (.inl hf) ((whenUp_react_waits (.inr hf) act).symm.trans e)

/-- Settles O4: by cases of the command. Most do nothing in Fallow; what the others are made of leaves its mark, or is a chip reset. -/
theorem fallowLeftOnlyByChipReset : Obligations.FallowLeftOnlyByChipReset := by
  unfold Obligations.FallowLeftOnlyByChipReset
  intro c s t hf e
  show t.fallowOrReset s.start.boot
  by_cases hq : quiet c s = true
  · exact .inl ((Calm.of_quiet hq e).fallow.trans hf)
  cases c with
  | swathBoundary off => exact stays_of_whenUp hf (.ite (.boundary s off) (.refl s)) e
  | faultGroupSampled off n ext => exact stays_of_whenUp hf (.sample s _ n ext) e
  | reactionFence => exact stays_of_react hf e
  | reactionBlockReset => exact stays_of_react hf e
  | reactionChipReset => exact stays_of_react hf e
  | registerVote a m l c0 c1 c2 => exact stays_of_whenUp hf (.vote s _ _ _ _ _ _) e
  | paritySweep l =>
    exact stays_of_whenUp hf ((Sound.foldl .disturb l s).trans (.foldl .checkParity _ _)) e
  | counterLowRead who r => exact stays_of_whenUp hf (.regRead s who _ _ (.inr (not_running_of_fallow hf))) e
  | registerWrite who a n v => exact registerWrite_stays hf e
  | slowWriteApply => exact of_next (P := State.fallowOrReset s.start.boot) ((Sound.ite (.applySlow s) (.refl s)).stays hf _) e
  | resetReq who key kind => exact resetReq_stays hf e
  | perstAssert => exact perstAssert_stays hf e
  | startEdge env => exact of_next (P := State.fallowOrReset s.start.boot) ((Sound.ite (.startEdge s env) (.refl s)).stays hf _) e
  | mainRailLoss r => exact mainRailLoss_stays hf e
  | tamperAlarm n a b => exact of_next (P := State.fallowOrReset s.start.boot) ((Sound.ite (.alarm s _ a b) (.refl s)).stays hf _) e
  | backupTamperAlarm n a b => exact backupTamperAlarm_stays hf e
  | auxRailFall => exact auxRailFall_stays hf e
  | backupSupplyChange a v => exact backupSupplyChange_stays hf e
  | dbgCore k op => exact dbgCore_stays hf e
  | dbgReg w a v => exact dbgReg_stays hf e
  | bar2Access w a n d => exact stays_of_whenUp hf (.ite (.bar2 s _) (.refl s)) e
  | pcieLinkUp => exact pcieLinkUp_stays hf e
  | openingStepEnd => exact openingStepEnd_stays hf e
  | tamperMonitorArmed n =>
    have h (x : Tamper) : Sound s { s with tamper := x } := .same rfl rfl
    exact of_next (P := State.fallowOrReset s.start.boot) ((Sound.ite (h _) (.refl s)).stays hf _) e
  | risingSclkEdge => exact risingSclkEdge_stays hf e
  | vbatLowChange mv => exact of_next (P := State.fallowOrReset s.start.boot) ((Sound.modNow s _).stays hf _) e
  | intcEvent | intcReassign | claim | timerExpiry | reactionPin | reactionInt | reactionNmi | faultPinTimer | busTimeout
  | firmwareVerify | hbmTrainingEnd | pldmFirmwareUpdate | mctpMessage | spdmGetMeasurements | heldStatusRequest | thermtrip
  | rtcAlarm | hostD0Return | dmaErrorCompletion | pcieLinkDown | portLinkDrop | portRetrained | d3hotOrL1Entry
  | numvfsRaised => exact absurd rfl hq
  | _ => exact stays_of_whenRun hf e

end Sys2Proof.Machine
end

section
/-! The canonical form of the stores under register writes, instance commands, life-cycle requests and what the collector resets. -/

open Sys2Proof Sys2Proof.Machine

namespace Sys2Proof.Machine

variable {s t u : State}

/-- From `s` to `t` the stores and the unit tables keep their canonical form. -/
def Tidy (s t : State) : Prop := s.Canonical → t.Canonical

namespace Tidy

theorem refl (s : State) : Tidy s s := id
theorem trans (a : Tidy s t) (b : Tidy t u) : Tidy s u := b ∘ a
theorem ite {c : Prop} [Decidable c] (a : Tidy s t) (b : Tidy s u) : Tidy s (if c then t else u) := by
  split
  · exact a
  · exact b
theorem foldl {β : Type} {f : State → β → State} (hf : ∀ s b, Tidy s (f s b)) (l : List β) (s : State) : Tidy s (l.foldl f s) :=
  canonical_foldl hf l
theorem same (h : t.stores = s.stores) : Tidy s t := fun hs => canonical_same hs h
theorem engines (h : EnginesOnly s t) : Tidy s t := fun hs => canonical_engines hs h
theorem calm (h : Calm s t) : Tidy s t := h.canonical
theorem fences (h : Fences s t) : Tidy s t := h.canonical
theorem sound (h : Sound s t) : Tidy s t := h.canonical

/-! ## Registers (R31–R49) -/

theorem settleSkip (s : State) : Tidy s s.settleSkip := by
  obtain ⟨k, e⟩ := settleSkip_only s
  rw [e]
  exact same rfl
theorem storeWord (s : State) (a m : Nat) (w : Word) : Tidy s (s.storeWord a m w) :=
  (sound ((Sound.setCfg s a _).trans (.rewritten _ a))).trans (settleSkip _)
theorem holdWrite (s : State) (v : Bool) : Tidy s (s.holdWrite v) := by
  have h := storeWord s 0x40 1 (BitVec.ofNat 32 (b2n v))
  unfold State.holdWrite
  dsimp only
  exact ite (h.trans (same rfl)) h
theorem sealerWrite (s : State) (a : Nat) (w : Word) : Tidy s (s.sealerWrite a w) := by
  have h (x : Word) (k : KeyStore) : Tidy s { s.setLive a x with keys := k } := (sound (.setLive s a x)).trans (same rfl)
  unfold State.sealerWrite
  dsimp only
  exact (ite (refl s) (h _ _)).trans (storeWord _ _ _ _)
theorem probeStart (s : State) (n : Nat) (tag : BitVec 16) : Tidy s (s.probeStart n tag) :=
  (sound (.setCfg s _ _)).trans (calm (.modAmu _ n _))
theorem holdPin (s : State) (v : Bool) : Tidy s (s.holdPin v) := by
  obtain ⟨p, x, c, e⟩ := holdPin_only s v
  rw [e]
  exact (sound (.setCfg s 0xB00008 _)).trans (same rfl)
theorem unchecked (s : State) (c : Scope) : Tidy s (s.unchecked c) := fun h => canonical_unchecked h c
theorem slowWrite (s : State) (a : Nat) (w : Word) : Tidy s (s.slowWrite a w) := same rfl
theorem mismatch (s : State) (k : Nat) : Tidy s (s.mismatch k) := fun h => canonical_mismatch h k
theorem enableWrite (s : State) (who : Requester) (b : Bool) (v : BitVec 16) (agree : Bool) : Tidy s (s.enableWrite who b v agree) := by
  unfold State.enableWrite
  dsimp only
  exact ite (refl s) (ite (mismatch s 1) (ite (slowWrite s _ _) (sound ((Sound.setCfg s _ _).trans (.rewritten _ _)))))
theorem fuseWrite (s : State) (who : Requester) (key : Nat) (src : BitVec 16) (agree : Bool) : Tidy s (s.fuseWrite who key src agree) :=
  ite (refl s) (ite (mismatch s 1) (ite (refl s) (same rfl)))
theorem unmask (s : State) (fn v : Nat) (w : Word) : Tidy s (s.unmask fn v w) := ite (same rfl) (refl s)

/-! ## The life cycle (R438–R445) -/

theorem chipReset (s : State) (c : BitVec 7) : Tidy s (s.chipReset c) := fun h => canonical_chipReset h c
theorem modLife (s : State) (g : Life → Life) : Tidy s (s.modLife g) := same rfl
theorem writeMark (s : State) (m k : Nat) : Tidy s (s.writeMark m k) := sound (.writeMark s m k)
theorem closeReq (s : State) (who : Requester) (agree : Bool) : Tidy s (s.closeReq who agree) := by
  refine ite (refl s) (ite ((modLife s _).trans (mismatch _ 1)) (ite (modLife s _) ?_))
  exact (((modLife s _).trans (sound (.endDebug _))).trans (writeMark _ 1 1)).trans (writeMark _ 0 1)
theorem openReq (s : State) (who : Requester) (agree : Bool) : Tidy s (s.openReq who agree) := by
  refine ite (refl s) (ite ((modLife s _).trans (mismatch _ 1)) (ite (modLife s _) (ite (modLife s _) ?_)))
  exact ((modLife s _).trans (writeMark _ 2 2)).trans (chipReset _ _)
theorem finalReq (s : State) (who : Requester) (key : Nat) (blow agree : Bool) : Tidy s (s.finalReq who key blow agree) :=
  ite (refl s) (ite (mismatch s 1) (ite (modLife s _) (refl s)))
theorem resetWrite (s : State) (who : Requester) (key kind : Nat) : Tidy s (s.resetWrite who key kind) := by
  rcases resetWrite_cases s who key kind with e | ⟨-, e⟩
  · exact e.symm ▸ refl s
  · exact e.symm ▸ chipReset s _

/-! ## Instances and queues (R361–R382) -/

theorem closeJob (s : State) (id st : Nat) (later : Bool) : Tidy s (s.closeJob id st later) := fun h => canonical_closeJob h id st later
theorem disableQueues (s : State) (n : Nat) : Tidy s (s.disableQueues n) :=
  foldl (fun u _ => sound ((Sound.setCfg u _ _).trans (.setCfg _ _ _))) _ s
theorem modInst (s : State) (n : Nat) (g : Inst → Inst) : Tidy s (s.modInst n g) := calm (.modInst s n g)
theorem adm (s : State) (x : Admit) : Tidy s { s with adm := x } := same rfl
theorem setHandle (s : State) (k : Nat) (x : Handle) : Tidy s (s.setHandle k x) := same rfl
theorem mapAmus (s : State) (g : Nat → Amu → Amu) : Tidy s { s with amus := mmap (fun _ => Amu.init) g s.amus } :=
  fun h => canonical_amus h (mwf_mmap _ h.amus)
theorem resetInst (s : State) (n : Nat) (absent : Bool) : Tidy s (s.resetInst n absent) := by
  unfold State.resetInst
  dsimp only
  refine trans ?_ (mapAmus _ _)
  refine trans ?_ (foldl (fun u k => setHandle u _ _) _ _)
  refine trans ?_ (modInst _ n _)
  refine trans ?_ (disableQueues _ n)
  refine trans ?_ (adm _ _)
  exact (modInst s n _).trans (foldl (fun u j => closeJob u _ _ _) _ _)
theorem resetCmd (s : State) (n : Nat) (absent : Bool) : Tidy s (s.resetCmd n absent) := by
  refine ite (refl s) ?_
  split
  · exact refl s
  · exact modInst s n _
  · exact resetInst s n absent
theorem instCmd (s : State) (n cmd : Nat) : Tidy s (s.instCmd n cmd) := by
  refine ite (refl s) ?_
  split
  · exact ite ((disableQueues s n).trans (modInst _ n _)) (refl s)
  · exact resetCmd s n false
  · exact resetCmd s n true
  · exact ite (modInst s n _) (refl s)
  · exact ite (modInst s n _) (refl s)
  · exact refl s
theorem setQueueCfg (s : State) (cq : Bool) (n q : Nat) (w : Word) : Tidy s (s.setQueueCfg cq n q w) := by
  unfold State.setQueueCfg
  dsimp only
  refine (sound ((Sound.setCfg s _ w).trans (.rewritten _ _))).trans (ite (ite (unchecked _ _) (refl _)) (ite (modInst _ n _) (modInst _ n _)))
theorem mbxCheck (s : State) (n : Nat) (p c : BitVec 5) : Tidy s (s.mbxCheck n p c) := ite (unchecked s _) (refl s)
theorem mbxUp (s : State) (n : Nat) (ix : BitVec 5) : Tidy s (s.mbxUp n ix) :=
  ite (refl s) ((calm ((((Calm.uses s _).trans (.modInst _ n _)).trans (.msix _ _ _)).trans (.pendSrc _ _))).trans (mbxCheck _ _ _ _))
theorem mbxDn (s : State) (n : Nat) (ix : BitVec 5) : Tidy s (s.mbxDn n ix) :=
  ite (refl s) ((calm (((Calm.uses s _).trans (.modInst _ n _)).trans (.msix _ _ _))).trans (mbxCheck _ _ _ _))
theorem mbxWrite (s : State) (who : Requester) (n j : Nat) (w : Word) : Tidy s (s.mbxWrite who n j w) := by
  unfold State.mbxWrite
  dsimp only
  refine ite (refl s) ?_
  split
  · exact ite (mbxUp s n _) (refl s)
  · exact ite (refl s) ((modInst s n _).trans (mbxCheck _ _ _ _))
  · exact ite (refl s) (mbxDn s n _)
  · exact ite ((modInst s n _).trans (mbxCheck _ _ _ _)) (refl s)
theorem mbxData (s : State) (n j : Nat) (w : Word) : Tidy s (s.mbxData n j w) := by
  unfold State.mbxData
  dsimp only
  exact ite (refl s) (ite ((modInst s n _).trans (unchecked _ _)) (modInst s n _))
theorem bellWrite (s : State) (n i : Nat) (w : Word) : Tidy s (s.bellWrite n i w) :=
  ite (calm (.sqDoorbell s n _ _)) (ite (calm (.cqDoorbell s n _ _)) (refl s))

/-! ## Writes of any register -/

theorem pendSrc (s : State) (n : Nat) : Tidy s (s.pendSrc n) := calm (.pendSrc s n)
theorem taskPush (s : State) (who : Requester) (e : TEvent) : Tidy s (s.taskPush who e) := calm (.taskPush s who e)
theorem writeReg (s : State) (who : Requester) (a : Nat) (w : Word) : Tidy s (s.writeReg who a w) := by
  unfold State.writeReg
  split
  · exact refl s
  · rename_i r i j _
    dsimp only
    split
    · exact resetWrite s who _ _
    · exact holdWrite s _
    · exact sealerWrite s a w
    · exact probeStart s i _
    · exact ite (instCmd s i _) (refl s)
    · exact ite (resetCmd s i false) (refl s)
    · exact setQueueCfg s false i j w
    · exact setQueueCfg s true i j w
    · exact mbxWrite s who i j w
    · exact mbxData s i j w
    · exact ite (refl s) (storeWord s _ _ _)
    · exact ite (refl s) (storeWord s _ _ _)
    · split
      · exact pendSrc s _
      · exact pendSrc s _
      · exact pendSrc s _
      · exact pendSrc s _
      · exact refl s
    · exact ite (calm (.completeAt s i)) (refl s)
    · exact same rfl
    · exact ite (taskPush s who _) (refl s)
    · exact ite (taskPush s who _) (refl s)
    · exact ite (taskPush s who _) (refl s)
    · exact holdPin s _
    · exact storeWord s _ _ _
    · exact enableWrite s who false _ true
    · exact enableWrite s who true _ true
    · exact fuseWrite s who _ _ true
    · exact slowWrite s a w
    · exact slowWrite s a w
    · exact slowWrite s a w
    · exact ite (closeReq s who true) (ite (openReq s who true) (refl s))
    · exact finalReq s who _ _ true
    · exact ite ((storeWord s _ _ _).trans (unmask _ 0 i w)) (storeWord s _ _ _)
    · exact ite (refl s) (storeWord s _ _ _)
theorem writeLoc (s : State) (who : Requester) (l : Loc) (w : Word) : Tidy s (s.writeLoc who l w) := by
  cases l with
  | reg a =>
    unfold State.writeLoc
    exact ite (writeReg s who a w) (refl s)
  | bell n i =>
    unfold State.writeLoc
    exact ite (bellWrite s n i w) (refl s)
  | vfTable n k =>
    have h (x : HostIf) : Tidy s { s with hostif := x } := same rfl
    unfold State.writeLoc
    dsimp only
    exact ite (refl s) (ite ((h _).trans (unmask _ n _ w)) (h _))
  | vfPba _ _ => exact refl s
  | none => exact refl s
theorem regWrite (s : State) (who : Requester) (o size : Nat) (v : DWord) : Tidy s (s.regWrite who o size v) := by
  have h := foldl (f := fun s (e : Loc × Word) => s.writeLoc who e.1 e.2) (fun u e => writeLoc u who e.1 e.2)
    ((accessWords o size v).map (fun e => (Loc.of who e.1, e.2))) s
  unfold State.regWrite
  refine ite (ite (unchecked s _) (refl s)) ?_
  dsimp only
  split
  · exact h
  · exact h.trans (unchecked _ _)
theorem regRead (s : State) (who : Requester) (o size : Nat) : Tidy s (s.regRead who o size) := by
  have h (u : State) : Tidy u ((u.draw 64).2.setResp (.dword (BitVec.ofNat 64 (u.draw 64).1))) := same rfl
  unfold State.regRead
  exact ite (ite (sound (.read64 s who o)) (sound (.read32 s who o))) ((ite (unchecked s _) (refl s)).trans (h _))

/-! ## Rows and counts of Commons jobs (R488) -/

theorem hbmWrite (s : State) (a : Nat) (b : Bytes) : Tidy s (s.hbmWrite a b) := fun h => canonical_hbmWrite h a b
theorem setInSlot (s : State) (k : Nat) (x : SlotSt) : Tidy s (s.setInSlot k x) := same rfl
theorem slotRows (s : State) (k : Nat) (members : List Nat) (sender off : Nat) (b : Bytes) : Tidy s (s.slotRows k members sender off b) :=
  ite (setInSlot s k _) ((hbmWrite s _ _).trans (setInSlot _ k _))
theorem slotEnd (s : State) (k : Nat) (members : List Nat) (sender n : Nat) : Tidy s (s.slotEnd k members sender n) :=
  (hbmWrite s _ _).trans (setInSlot _ k _)
theorem takeRows (s : State) (fr : Frame) : Tidy s (s.takeRows fr) := by
  unfold State.takeRows
  split
  · exact refl s
  · exact slotRows s _ _ _ _ _
theorem takeEnd (s : State) (fr : Frame) : Tidy s (s.takeEnd fr) := by
  unfold State.takeEnd
  split
  · exact refl s
  · exact slotEnd s _ _ _ _

theorem receive (s : State) (fr : Frame) {act : State → State} (h : Tidy s (act s)) : Tidy s (s.receive fr act) :=
  ite (refl s) (ite h (ite (refl s) (same rfl)))

end Tidy

end Sys2Proof.Machine
end

section
/-! The canonical form of the stores under resets, Fallow, the re-plan step, the commit step and planes. -/

open Sys2Proof Sys2Proof.Machine

namespace Sys2Proof.Machine

variable {s t u : State}

namespace Tidy

/-! ## Whole tables -/

theorem dropCfg (s : State) (q : Nat × Word → Bool) : Tidy s { s with cfg := s.cfg.filter q } :=
  fun h => canonical_cfg h (mwf_filter _ h.cfg)
theorem dropLive (s : State) (q : Nat × Word → Bool) : Tidy s { s with live := s.live.filter q } :=
  fun h => canonical_live h (mwf_filter _ h.live)
theorem mapFields (s : State) (g : Nat → Field → Field) : Tidy s { s with fields := mmap (fun _ => Field.init) g s.fields } :=
  fun h => canonical_fields h (mwf_mmap _ h.fields)
theorem setInst (s : State) (n : Nat) (x : Inst) : Tidy s (s.setInst n x) := calm (.setInst s n x)
theorem modField (s : State) (f : Nat) (g : Field → Field) : Tidy s (s.modField f g) := calm (.modField s f g)
theorem modAmu (s : State) (a : Nat) (g : Amu → Amu) : Tidy s (s.modAmu a g) := calm (.modAmu s a g)
theorem modCore (s : State) (k : Nat) (g : Core → Core) : Tidy s (s.modCore k g) := calm (.modEng s false k g)
theorem modPipe (s : State) (k : Nat) (g : Core → Core) : Tidy s (s.modPipe k g) := calm (.modEng s true k g)
theorem modJob (s : State) (id : Nat) (g : Job → Job) : Tidy s (s.modJob id g) := same rfl
theorem modPower (s : State) (g : Power → Power) : Tidy s (s.modPower g) := same rfl
theorem modKeys (s : State) (g : KeyStore → KeyStore) : Tidy s (s.modKeys g) := same rfl
theorem modFaults (s : State) (g : Faults → Faults) : Tidy s (s.modFaults g) := same rfl
theorem modCommons (s : State) (g : Commons → Commons) : Tidy s (s.modCommons g) := same rfl
theorem setOffset (s : State) (o : Nat) : Tidy s (s.setOffset o) := same rfl
theorem raise (s : State) (n : Nat) (w : BitVec 16) (d0 d1 : Nat) : Tidy s (s.raise n w d0 d1) := calm (.raise s n w d0 d1)
theorem setCause (s : State) (n : Nat) (v : Bool) : Tidy s (s.setCause n v) := same rfl
theorem countReqs (s : State) (n : Nat) : Tidy s (s.countReqs n) := same rfl
theorem fencedReads (s : State) (q n : Nat) : Tidy s (s.fencedReads q n) := fun h => canonical_fencedReads h q n
theorem sweepJobs (s : State) : Tidy s s.sweepJobs := same rfl
theorem releaseJob (s : State) (j : Job) : Tidy s (s.releaseJob j) := fun h => canonical_releaseJob h j
theorem readyEvent (s : State) (j : Job) : Tidy s (s.readyEvent j) := fun h => canonical_readyEvent h j
theorem stopJob (s : State) (id : Nat) : Tidy s (s.stopJob id) := fun h => canonical_stopJob h id
theorem jobCleanup (s : State) (j : Job) (st : Nat) : Tidy s (s.jobCleanup j st) := fun h => canonical_jobCleanup h j st
theorem unplace (s : State) (i r : Nat) (dem : List (Nat × Nat)) (n : Nat) : Tidy s (s.unplace i r dem n) :=
  fun h => canonical_unplace h i r dem n

/-! ## Block and unit resets (R414) -/

theorem joinChange (s : State) (was : Bool) : Tidy s (s.joinChange was) := ite (refl s) (same rfl)
theorem resetField (s : State) (f : Nat) : Tidy s (s.resetField f) := fences (.abortHead s f)
theorem resetAmu (s : State) (a : Nat) : Tidy s (s.resetAmu a) := by
  have h (u : State) (w : Nat) : Tidy u ((upTo 16).foldl (fun s f =>
      match (s.field f).slices.head? with
      | some sl => if s.sliceLooks a sl && bit w f then s.abortHead f else s
      | none => s) u) := by
    refine foldl (fun u f => ?_) _ u
    split
    · exact ite (fences (.abortHead u f)) (refl u)
    · exact refl u
  have h := (calm (.draw s 64)).trans (h _ (s.draw 64).1)
  unfold State.resetAmu
  dsimp only
  generalize (upTo 16).foldl _ _ = u at h ⊢
  have h (ps : List Piece) := h.trans (fences (.abortPieces u ps))
  refine trans ?_ (modAmu _ _ _)
  split
  · exact ite ((h _).trans (fences (.abortLookup _ a _))) (h _)
  · exact h _
theorem resetPort (s : State) (k : Nat) : Tidy s (s.resetPort k) := calm ((Calm.modCommons s _).trans (.movePlanes _))
theorem resetTarget (s : State) (k : Nat) : Tidy s (s.resetTarget k) := sound (.dropStack s k)
theorem clearSticky (s : State) (q : Nat → Bool) : Tidy s (s.clearSticky q) := modFaults s _
theorem digest (s : State) (x : DigestCnt) : Tidy s { s with digest := x } := same rfl
theorem pools (s : State) (x : SMap PoolCnt) : Tidy s { s with pools := x } := same rfl
theorem resetCores (s : State) (g : Core → Core) (k : Nat) (l : List Nat) : Tidy s
    (l.foldl (fun s c => (s.resetCore (k + c)).modCore (k + c) g) s) :=
  foldl (fun u _ => (fences (Sound.resetCore u _)).trans (modCore _ _ _)) l s
theorem resetUnits (s : State) (b : Nat) : Tidy s (s.resetUnits b) := by
  unfold State.resetUnits
  split
  · exact foldl (fun u _ => (resetField u _).trans (modField _ _ _)) _ s
  · exact foldl (fun u _ => (resetAmu u _).trans (modAmu _ _ _)) _ s
  · exact (resetCores s _ _ _).trans (pools _ _)
  · exact (resetCores s _ _ _).trans (pools _ _)
  · exact (resetCores s _ _ _).trans (pools _ _)
  · exact (resetCores s _ _ _).trans (pools _ _)
  · exact (foldl (fun u _ => (fences (Sound.resetPipe u _)).trans (modPipe _ _ _)) _ s).trans (digest _ _)
  · exact (foldl (fun u _ => resetPort u _) _ s).trans (modCommons _ _)
  · exact refl s
theorem settleCause (s : State) (b : Nat) : Tidy s (s.settleCause b) := fun h => canonical_settleCause h b
theorem resetBlock (s : State) (b : Nat) : Tidy s (s.resetBlock b) := by
  have h (u : State) (x : List Nat) (y : List (Nat × Bool)) : Tidy u { u with parBad := x, voteBad := y } := same rfl
  refine ite (refl s) (trans (trans ?_ (resetUnits _ b)) (joinChange _ _))
  exact (((dropCfg s _).trans (dropLive _ _)).trans (h _ _ _)).trans (settleCause _ b)
theorem resetBy (s : State) (n : Nat) : Tidy s (s.resetBy n) := by
  unfold State.resetBy
  split
  · exact refl s
  · refine ite (refl s) (ite ((resetBlock s _).trans (clearSticky _ _)) (ite ((resetField s _).trans (clearSticky _ _))
      (ite ((resetAmu s _).trans (clearSticky _ _)) (ite ?_ (ite ((fences (Sound.resetPipe s _)).trans (clearSticky _ _))
      (ite ((resetPort s _).trans (clearSticky _ _)) ((resetTarget s _).trans (clearSticky _ _))))))))
    split
    · exact (fences (Sound.resetCore s _)).trans (clearSticky _ _)
    · exact refl s
theorem react (s : State) (r : Nat) {act : State → FGroup → State} (h : ∀ u g, Tidy u (act u g)) : Tidy s (s.react r act) := by
  have ht (fs : Faults) : Tidy s { s with faults := fs } := same rfl
  unfold State.react
  refine ite (refl s) ?_
  split
  · exact refl s
  · exact (ht _).trans (h _ _)
theorem tamperReset (s : State) : Tidy s s.tamperReset := fun h => canonical_tamperReset h
theorem copyCause (s : State) : Tidy s s.copyCause := same rfl

/-! ## Fallow (R419–R421) -/

theorem haltedCtrl (s : State) (l : List Nat) : Tidy s { s with ctrl := { s.ctrl with halted := l } } := fun h => canonical_ctrl h h.coreMem
theorem haltCore (s : State) (k : Nat) : Tidy s (s.haltCore k) := by
  refine ite (refl s) ?_
  obtain ⟨i, j, e⟩ := dropStack_only (s := s) k
  rw [e]
  exact trans (t := { s with intc := i, tasks := j }) (same rfl) (haltedCtrl _ _)
theorem fallowRecords (s : State) : Tidy s s.fallowRecords := by
  refine trans ?_ (adm _ _)
  refine trans (foldl (fun u j => jobCleanup u j _) _ s) (foldl (fun u j => ?_) _ _)
  exact ite (sound (.cqWrite u _ _ _)) (refl u)
theorem dropPieces (s : State) (q : Piece → Bool) : Tidy s (s.dropPieces q) := fun h => canonical_dropPieces h q
theorem unitsStopped (s : State) : Tidy s s.unitsStopped := by
  have k (u : State) (x : KeyStore) : Tidy u { u with keys := x } := same rfl
  exact ((mapFields s _).trans (mapAmus _ _)).trans (k _ _)
theorem enterFallow (s : State) (c : BitVec 10) : Tidy s (s.enterFallow c) := by
  rw [enterFallow_eq]
  refine trans ?_ (modFaults _ _)
  refine trans ?_ (fallowRecords _)
  refine trans ?_ (foldl (fun u k => haltCore u k) _ _)
  refine trans ?_ (unitsStopped _)
  exact trans (t := s.sleeping c) (same rfl) (dropPieces _ _)

theorem bootEmpty (s : State) : Tidy s s.bootEmpty :=
  (trans (t := ((s.modBk _).modSeed _).modKeys _) (same rfl) (raise _ _ _ _ _)).trans (setCause _ _ _)

end Tidy

end Sys2Proof.Machine
end

section
/-! The canonical form of the stores under the re-plan step (R57, R62), the commit step (R39, R54) and planes (R154, R155). -/

open Sys2Proof Sys2Proof.Machine

namespace Sys2Proof.Machine

variable {s t u : State}

namespace Tidy

/-- A fold that carries something beside the state. -/
theorem foldl_fst {α β : Type} {f : State × α → β → State × α} (hf : ∀ a b, Tidy a.1 (f a b).1) (l : List β) (a : State × α) :
    Tidy a.1 (l.foldl f a).1 := by
  induction l generalizing a with
  | nil => exact refl a.1
  | cons b l ih => exact (hf a b).trans (ih _)

theorem modCJobs (s : State) (g : CJob → CJob) : Tidy s (s.modCJobs g) := same rfl
theorem doneRecord (s : State) (j : Job) (st : Nat) : Tidy s (s.doneRecord j st) := fun h => canonical_doneRecord h j st
theorem setRowCnt (s : State) (r x v : Nat) : Tidy s (s.setRowCnt r x v) := same rfl
theorem setStatus (s : State) (id st : Nat) : Tidy s (s.setStatus id st) := modJob s _ _
theorem lose (s : State) (id seq : Nat) (us : List Nat) : Tidy s (s.lose id seq us) := modJob s _ _
theorem displace (s : State) (j : Job) (p : Placement) (us : List Nat) : Tidy s (s.displace j p us) :=
  (unplace s _ _ _ _).trans (lose _ _ _ _)
theorem displaceOn (s : State) (x : Nat) (e : Job × Placement) : Tidy s (s.displaceOn x e) := by
  unfold State.displaceOn
  split
  · exact refl s
  · exact ite (refl s) (displace s _ _ _)
theorem displaceAll (s : State) (c : Nat) : Tidy s (s.displaceAll c) :=
  (foldl (fun u _ => ite (refl u) (displace u _ _ _)) _ s).trans (foldl (fun u x => foldl (fun u e => displaceOn u x e) _ u) _ _)

/-! ## Placement -/

theorem chargeLedger (s : State) (i p r amt : Nat) (lend : Bool) : Tidy s (s.chargeLedger i p r amt lend) :=
  fun h => canonical_chargeLedger h i p r amt lend
theorem book (s : State) (f : Nat) (j : Job) (v : StageRec) (i r : Nat) : Tidy s (s.book f j v i r) := by
  unfold State.book
  dsimp only
  split
  · exact refl s
  · split
    · exact refl s
    · exact modField s _ _
theorem placeRun (s : State) (id : Nat) (p : Placement) : Tidy s
    (let u := s.modJob id (fun j => { j with pls := j.pls ++ [p] })
     { u with adm := { u.adm with nextSeq := u.adm.nextSeq + 1 } }) := same rfl
theorem place (s : State) (id k : Nat) (fields : List Nat) (r : Nat) (runs : List (Nat × Nat)) (replaced records : Bool) :
    Tidy s (s.place id k fields r runs replaced records) := by
  unfold State.place
  split
  · exact refl s
  · dsimp only
    refine ite (refl s) ?_
    refine trans ?_ (foldl (fun u run => placeRun u id _) _ _)
    refine trans ?_ (foldl (fun u e => chargeLedger u _ _ _ _ _) _ _)
    have h (l : List (Nat × Nat)) (n : Nat) := foldl (fun u (e : Nat × Nat) => setRowCnt u r e.1 (u.rowCnt r e.1 + n * e.2)) l s
    exact ite ((h _ _).trans (setRowCnt _ _ _ _)) (h _ _)

theorem replanRows (c id k last n r : Nat) (s : State) (b : Nat) : Tidy s (State.replanRows c id k last n r s b).1 := by
  induction n generalizing r s b with
  | zero => exact refl s
  | succ n ih =>
    unfold State.replanRows
    split
    · exact refl s
    · dsimp only
      split
      · exact refl s
      · refine trans ?_ (ih _ _ _)
        split
        · exact refl s
        · refine ite (refl s) (trans ?_ (place _ _ _ _ _ _ _ _))
          refine (modJob s id _).trans (ite (refl _) (foldl (fun u i => book u _ _ _ _ _) _ _))
theorem replanJob (s : State) (c id b : Nat) : Tidy s (s.replanJob c id b).1 := by
  unfold State.replanJob
  split
  · exact refl s
  · refine foldl_fst (fun a k => ?_) _ (s, b)
    split
    · exact refl a.1
    · split
      · exact refl a.1
      · exact replanRows _ _ _ _ _ _ _ _
theorem replanAll (c : Nat) (l : List Nat) (s : State) (b : Nat) : Tidy s (State.replanAll c l s b).1 := by
  induction l generalizing s b with
  | nil => exact refl s
  | cons id l ih =>
    have hlost (u : State) : Tidy u (match u.job? id with
        | none => u
        | some j => if j.lost.any (fun l => decide (l.count > 0)) then u.closeJob id 0x10 false else u) := by
      split
      · exact refl u
      · exact ite (closeJob u _ _ _) (refl u)
    unfold State.replanAll
    split
    · exact (closeJob s _ _ _).trans (ih _ _)
    · refine trans (trans ?_ (hlost _)) (ih _ _)
      split
      · exact refl s
      · split
        · exact refl s
        · exact replanJob s _ _ _

/-! ## Parts of Commons jobs -/

theorem sendFrame (s : State) (any : Bool) (kind dst : Nat) (c : DWord) (slot off : Nat) (b : Bytes) :
    Tidy s (s.sendFrame any kind dst c slot off b) := calm (.sendFrame s any kind dst c slot off b)
theorem sendAbandon (s : State) (c : CJob) : Tidy s (s.sendAbandon c) := foldl (fun u _ => sendFrame u _ _ _ _ _ _ _) _ s
theorem finalDone (s : State) (c : CJob) (st : Nat) : Tidy s (s.finalDone c st) := by
  unfold State.finalDone
  split
  · exact modCJobs s _
  · exact (jobCleanup s _ st).trans ((ite (adm _ _) (refl _)).trans ((releaseJob _ _).trans ((stopJob _ _).trans ((doneRecord _ _ _).trans
      ((modJob _ _ _).trans ((modCJobs _ _).trans ((readyEvent _ _).trans (sweepJobs _))))))))
theorem loseCJob (s : State) (c : CJob) : Tidy s (s.loseCJob c) := (sendAbandon s c).trans (finalDone _ _ _)
theorem dropPart (s : State) (j : Job) : Tidy s (s.dropPart j) :=
  (releaseJob s j).trans ((stopJob _ _).trans ((modJob _ _ _).trans (sweepJobs _)))
theorem sweepCJobs (s : State) : Tidy s s.sweepCJobs := same rfl
theorem replanParts (s : State) : Tidy s s.replanParts := by
  unfold State.replanParts
  refine trans (trans (trans (foldl (fun u c => loseCJob u c) _ s) (foldl (fun u j => ?_) _ _)) (foldl (fun u c => modJob u _ _) _ _))
    (sweepCJobs _)
  split
  · exact refl u
  · exact ite (dropPart u _) (ite (modJob u _ _) (refl u))

/-! ## The re-plan step -/

theorem endResetting (s : State) : Tidy s s.endResetting := foldl (fun u _ => (dropCfg u _).trans (setInst _ _ _)) _ s
theorem setCaps (s : State) (c t : Nat → Nat) : Tidy s (s.setCaps c t) := adm s _
theorem fieldsOn (s : State) (back : BitVec 16) (l : List Nat) : Tidy s
    (l.foldl (fun s f => if back.getLsbD f then s.modField f (fun x => { x with powered := true }) else s) s) :=
  foldl (fun u f => ite (modField u f _) (refl u)) l s
theorem releaseAll (s : State) (l : List Job) : Tidy s (l.foldl (fun s j =>
    let s := s.releaseJob j
    if j.recorded && j.part.isNone then s.readyEvent j else s) s) :=
  foldl (fun u j => (releaseJob u j).trans (ite (readyEvent _ _) (refl _))) l s
theorem replan (s : State) : Tidy s s.replan := by
  have h0 (p : Power) (c : Commons) : Tidy s { s with power := p, commons := c } := same rfl
  refine trans ?_ (adm _ _)
  refine trans ?_ (setCaps _ _ _)
  refine trans ?_ (endResetting _)
  refine trans ?_ (ite (refl _) (pendSrc _ _))
  refine trans ?_ (replanAll _ _ _ _)
  refine trans ?_ (displaceAll _ _)
  refine trans ?_ (replanParts _)
  refine trans ?_ (sweepJobs _)
  refine trans ?_ (releaseAll _ _)
  refine trans ?_ (fieldsOn _ _ _)
  exact h0 _ _

/-! ## The commit step -/

theorem fieldsUp (s : State) (l : List Nat) : Tidy s (s.fieldsUp l) := modPower s _
theorem fieldsDown (s : State) (off gate : List Nat) : Tidy s (s.fieldsDown off gate) :=
  ((foldl (fun u f => modField u f _) off s).trans (foldl (fun u f => modField u f _) gate _)).trans (modPower _ _)
theorem pwrEffect (s : State) (w : Word) : Tidy s (s.pwrEffect w) := by
  unfold State.pwrEffect
  dsimp only
  refine trans ?_ (pendSrc _ _)
  have h : Tidy s (match pwrTarget w with
    | 0 => s.fieldsUp (upTo 16)
    | 1 => (s.fieldsUp ((upTo 16).filter (fun f => bit (pwrFields w) f))).fieldsDown (pwrNames w) []
    | 2 => s.fieldsDown [] (upTo 16)
    | _ => s.fieldsDown [] (upTo 16)) := by
    split
    · exact fieldsUp s _
    · exact (fieldsUp s _).trans (fieldsDown _ _ _)
    · exact fieldsDown s _ _
    · exact fieldsDown s _ _
  have h := fun g => h.trans (modPower _ g)
  exact ite ((h _).trans (haltedCtrl _ _)) (h _)
theorem powerCut (s : State) (xs : List Nat) : Tidy s (s.powerCut xs) := foldl (fun u _ => closeJob u _ _ _) _ s
theorem pwrLive (s : State) (w : Word) : Tidy s (s.pwrLive w) :=
  ite (refl s) ((modPower s _).trans (ite (pwrEffect _ _) (ite ((powerCut _ _).trans (pwrEffect _ _)) (modPower _ _))))
theorem liveAgain (s : State) (a : Nat) : Tidy s (s.liveAgain a) := fun h => canonical_liveAgain h a
theorem makeLive (s : State) (l : List Nat) : Tidy s (s.makeLive l) := by
  refine trans ?_ (joinChange _ _)
  refine trans ?_ (ite (pwrLive _ _) (refl _))
  exact (foldl (fun u _ => liveAgain u _) _ s).trans (foldl (fun u _ => sound (.setLive u _ _)) _ _)
theorem glob (s : State) (g : Glob) : Tidy s { s with glob := g } := same rfl
theorem commitRegs (s : State) : Tidy s s.commitRegs := by
  unfold State.commitRegs
  refine ite (refl s) ?_
  have h (l : List Nat) := foldl (fun u a => (raise u (3 * blockOf a + 2) 0 a 0).trans (setCause _ (3 * blockOf a + 2) true)) l s
  exact ite (ite ((h _).trans (glob _ _)) (((h _).trans (makeLive _ _)).trans (glob _ _))) (((h _).trans (glob _ _)).trans (makeLive _ _))
theorem keyCommit (s : State) : Tidy s s.keyCommit := ite (ite (modKeys s _) (refl s)) (modKeys s _)
theorem holdJob (s : State) (f : Nat) (j : Job) : Tidy s (s.holdJob f j) := by
  refine trans (foldl (fun u p => ?_) _ s) (modJob _ _ _)
  have h := unplace u j.inst p.row ((j.stage p.stage).demand p.fields) (p.live - p.ended)
  exact ite (h.trans (unplace _ _ _ _ _)) h
theorem freezeNow (s : State) : Tidy s s.freezeNow :=
  foldl (fun u _ => (modInst u _ _).trans (foldl (fun u j => holdJob u _ j) _ _)) _ s
theorem commitStep (s : State) : Tidy s s.commitStep :=
  (commitRegs s).trans ((keyCommit _).trans ((freezeNow _).trans (setCaps _ _ _)))

/-! ## Planes -/

theorem planeFail (s : State) (f p : Nat) : Tidy s (s.planeFail f p) := by
  refine trans ?_ (pendSrc _ _)
  refine trans (trans (foldl (fun u h => ?_) _ s) (modField _ _ _)) (raise _ _ _ _ _)
  split
  · exact refl u
  · exact foldl (fun u q => displace u _ q _) _ u
theorem tamper (s : State) (x : Tamper) : Tidy s { s with tamper := x } := same rfl
theorem cellFails (s : State) (n : Nat) : Tidy s (s.cellFails n) := engines (.cellFails s n)
theorem cellCheck (s : State) (n i k : Nat) : Tidy s (s.cellCheck n i k) := engines (.cellCheck s n i k)
theorem sealChecks (s : State) (i : Nat) (l : List SealTile) : Tidy s (s.sealChecks i l) := foldl (fun u _ => cellCheck u _ _ _) l s
theorem idleField (s : State) (f : Nat) : Tidy s (s.idleField f) := modField s f _
theorem lateLast (s : State) (n : Nat) : Tidy s { s with lateLast := n } := same rfl
theorem switchField (s : State) (ecc : Bool) (f : Nat) : Tidy s (s.switchField ecc f) := by
  unfold State.switchField
  split
  · exact idleField s f
  · dsimp only
    split
    · exact ite ((idleField s f).trans (planeFail _ _ _)) ((sealChecks s _ _).trans (modField _ _ _))
    · exact (((idleField s f).trans (raise _ _ _ _ _)).trans (pendSrc _ _)).trans (lateLast _ _)
theorem switchFields (s : State) (ecc : List (Fin 16)) (l : List Nat) : Tidy s
    (l.foldl (fun s f => s.switchField (ecc.any (fun e => e.val == f)) f) s) := foldl (fun u f => switchField u _ f) l s

end Tidy

end Sys2Proof.Machine
end

section
/-! The canonical form of the stores under the admission step (R66, R67, R84, R486). -/

open Sys2Proof Sys2Proof.Machine

namespace Sys2Proof.Machine

variable {s t u : State}

namespace Tidy

/-! ## Reads of the control plane -/

theorem hbmRead (s : State) (a n : Nat) : Tidy s (s.hbmRead a n).2 := calm (.hbmRead s a n)
theorem hbmReads (s : State) (a n b m : Nat) : Tidy s ((s.hbmRead a n).2.hbmRead b m).2 := (hbmRead s a n).trans (hbmRead _ b m)
theorem ite_snd {α : Type} {c : Prop} [Decidable c] {x y : α × State} (a : Tidy s x.2) (b : Tidy s y.2) : Tidy s (if c then x else y).2 := by
  split
  · exact a
  · exact b
theorem ite_fst {α : Type} {c : Prop} [Decidable c] {x y : State × α} (a : Tidy s x.1) (b : Tidy s y.1) : Tidy s (if c then x else y).1 := by
  split
  · exact a
  · exact b
theorem handlesReady (s : State) : Tidy s s.handlesReady := foldl (fun u _ => setHandle u _ _) _ s
theorem certDerive (s : State) (img : HandleC) (c : Bytes) : Tidy s (s.certDerive img c).2 := hbmRead s _ _
theorem certRead (s : State) (a : Nat) : Tidy s (s.certRead a).2 := hbmReads s a 128 _ _
theorem readPlan (s : State) (a : Nat) : Tidy s (s.readPlan a).2 := hbmReads s a 64 _ _
theorem derive (s : State) (i : Nat) (d : Bytes) : Tidy s (s.derive i d).2 := by
  unfold State.derive
  exact ite_snd ((hbmReads s _ _ _ _).trans (hbmRead _ _ _)) (ite_snd (refl s) (ite_snd (hbmRead s _ _) (ite_snd (hbmRead s _ _)
    (ite_snd (hbmRead s _ _) (ite_snd (hbmRead s _ _) (ite_snd (hbmRead s _ _) (ite_snd (hbmRead s _ _) (ite_snd (hbmReads s _ _ _ _)
    (ite_snd (hbmRead s _ _) (ite_snd (refl s) (ite_snd (hbmReads s _ _ _ _) (refl s))))))))))))

/-! ## Verdicts -/

theorem addJob (s : State) (j : Job) : Tidy s (s.addJob j) := adm s _
theorem countRefused (s : State) (i : Nat) : Tidy s (s.countRefused i) := same rfl
theorem countAccepted (s : State) : Tidy s s.countAccepted := same rfl
theorem admitRecord (s : State) (i sq cq : Nat) (gen : BitVec 16) (tag d a st cost : Nat) :
    Tidy s (s.admitRecord i sq cq gen tag d a st cost) := sound (.post s _ _ _ _)
theorem afterAccept (s : State) (id : Nat) : Tidy s (s.afterAccept id) := by
  unfold State.afterAccept
  split
  · exact refl s
  · refine ite (ite (setHandle s _ _) (refl s)) (ite ?_ (refl s))
    split
    · exact refl s
    · exact modAmu s _ _

theorem placeRows {id k last : Nat} {drained : List Nat} {fuel : Nat} : ∀ {runs : List (Nat × Nat)} {fields : Option (List Nat)}
    {d d' : Dec}, Machine.placeRows id k last drained fuel runs fields d = .placed d' → Tidy d.s d'.s := by
  induction fuel with
  | zero => intro runs fields d d' h; simp [Machine.placeRows] at h
  | succ fuel ih =>
    intro runs fields d d' h
    unfold Machine.placeRows at h
    dsimp only at h
    split at h
    · injection h with h
      exact h ▸ refl d.s
    · split at h
      · split at h <;> simp at h
      · split at h
        · simp at h
        · split at h
          · simp at h
          · cases fields with
            | some fs =>
              dsimp only at h
              exact (place d.s _ _ _ _ _ _ _).trans (ih h)
            | none =>
              dsimp only at h
              split at h
              · have hd := ih h
                exact hd
              · refine trans (trans ?_ (place _ _ _ _ _ _ _ _)) (ih h)
                exact ite_fst (refl _) (foldl (fun u i => book u _ _ _ _ _) _ _)
theorem placeJob {id : Nat} {drained : List Nat} {runs : Nat → List (Nat × Nat)} {lo last : Nat → Nat} {vs : List StageRec} :
    ∀ {k : Nat} {d d' : Dec}, Machine.placeJob id drained runs lo last vs k d = .placed d' → Tidy d.s d'.s := by
  induction vs with
  | nil =>
    intro k d d' h
    simp only [Machine.placeJob, DecEnd.placed.injEq] at h
    exact h ▸ refl d.s
  | cons v vs ih =>
    intro k d d' h
    unfold Machine.placeJob at h
    dsimp only at h
    split at h
    · simp at h
    · rename_i e hrows
      have hd := placeRows hrows
      exact trans hd (ih h)

end Tidy

/-- An answered decision keeps the canonical form. -/
def Verdict.tidy (s : State) : Verdict → Prop
  | .abandon => True
  | .refuse t _ _ _ => Tidy s t
  | .accept t _ _ => Tidy s t

theorem judge_tidy (s : State) (inst sq cq : Nat) (gen : BitVec 16) (desc : Bytes) (dv : Derived) (a d : Nat) (part : Option Part)
    (left : Nat) : (s.judge inst sq cq gen desc dv a d part left).tidy s := by
  have hno (st re ex : Nat) : (if 16 + 8 * ex > left then Verdict.abandon else Verdict.refuse s st re (16 + 8 * ex)).tidy s := by
    split
    · trivial
    · exact Tidy.refl s
  unfold State.judge
  dsimp only
  split
  · exact hno _ _ _
  · split
    · exact hno _ _ _
    · split
      · exact hno _ _ _
      · split
        · exact hno _ _ _
        · rename_i dn hplaced
          split
          · trivial
          · exact ((Tidy.addJob s _).trans (Tidy.placeJob hplaced :)).trans (.afterAccept _ _)

theorem judge_tidy_refused {s t : State} {inst sq cq : Nat} {gen : BitVec 16} {desc : Bytes} {dv : Derived} {a d : Nat} {part : Option Part}
    {left st re cost : Nat} (h : s.judge inst sq cq gen desc dv a d part left = .refuse t st re cost) : Tidy s t := by
  have hw := judge_tidy s inst sq cq gen desc dv a d part left
  rw [h] at hw
  exact hw
theorem judge_tidy_accepted {s t : State} {inst sq cq : Nat} {gen : BitVec 16} {desc : Bytes} {dv : Derived} {a d : Nat} {part : Option Part}
    {left id cost : Nat} (h : s.judge inst sq cq gen desc dv a d part left = .accept t id cost) : Tidy s t := by
  have hw := judge_tidy s inst sq cq gen desc dv a d part left
  rw [h] at hw
  exact hw

/-! ## Decisions (R66, R486) -/

/-- A decision that is taken keeps the canonical form. -/
def TidyDecision (s : State) (o : Option (State × Nat)) : Prop := ∀ t c, o = some (t, c) → Tidy s t

namespace TidyDecision

theorem none (s : State) : TidyDecision s none := fun _ _ h => nomatch h
theorem some {c : Nat} (h : Tidy s t) : TidyDecision s (some (t, c)) := by
  rintro _ _ ⟨⟩
  exact h
theorem ite {c : Prop} [Decidable c] {o p : Option (State × Nat)} (ho : TidyDecision s o) (hp : TidyDecision s p) :
    TidyDecision s (if c then o else p) := by
  split
  · exact ho
  · exact hp

theorem decideOne (s : State) (e : InletEntry) (left : Nat) : TidyDecision s (s.decideOne e left) := by
  have hrefuse (t : State) (ht : Tidy s t) (st re cost : Nat) (d : Nat) : TidyDecision s
      (Option.some ((t.countRefused e.inst).admitRecord e.inst e.sq (fld (s.cfgN (sqCfgA e.inst e.sq)) 20 3) e.gen (dTag e.desc) d s.swnN st re,
        cost)) :=
    some ((ht.trans (.countRefused t _)).trans (.admitRecord _ _ _ _ _ _ _ _ _ _))
  have hsmall (st re d : Nat) := ite (c := left < 16) (none s) (hrefuse s (.refl s) st re 16 d)
  unfold State.decideOne
  dsimp only
  refine ite (hsmall _ _ _) (ite (hsmall _ _ _) (ite ?commons ?own))
  case commons =>
    have hread (a b : Nat) (img : HandleC) : Tidy s ((((s.readPlan a).2.certRead b).2.certDerive img ((s.readPlan a).2.certRead b).1)).2 :=
      ((Tidy.readPlan s a).trans (.certRead _ b)).trans (.certDerive _ _ _)
    split
    · exact none s
    · rename_i t st re cost hv
      exact hrefuse t ((hread _ _ _).trans (judge_tidy_refused hv)) st re cost _
    · rename_i t id cost hv
      have hsend (u : State) (i : Nat) (p : Bytes) (c : DWord) (a d k : Nat) : Tidy u (u.sendReserve i p c a d k) := by
        unfold State.sendReserve
        dsimp only
        split
        · exact .refl u
        · exact (Tidy.certRead u _).trans (.sendFrame _ _ _ _ _ _ _ _)
      have hc (c : Commons) : Tidy t { t with commons := c } := .same rfl
      exact some (((hread _ _ _).trans (judge_tidy_accepted hv)).trans ((hc _).trans (.foldl (fun u i => hsend u _ _ _ _ _ _) _ _)))
  case own =>
    have hread := Tidy.derive s e.inst e.desc
    split
    · exact none s
    · rename_i t st re cost hv
      exact hrefuse t (hread.trans (judge_tidy_refused hv)) st re cost _
    · rename_i t id cost hv
      exact some ((hread.trans (judge_tidy_accepted hv)).trans ((Tidy.countAccepted t).trans (.admitRecord _ _ _ _ _ _ _ _ _ _)))

theorem decideReserve (s : State) (fr : Frame) (left : Nat) : TidyDecision s (s.decideReserve fr left) := by
  unfold State.decideReserve
  dsimp only
  refine ite (ite (none s) (some ((Tidy.certDerive s _ _).trans (.sendFrame _ _ _ _ _ _ _ _)))) ?_
  split
  · exact none s
  · rename_i t st re cost hv
    exact some (((Tidy.certDerive s _ _).trans (judge_tidy_refused hv)).trans (.sendFrame _ _ _ _ _ _ _ _))
  · rename_i t id cost hv
    exact some (((Tidy.certDerive s _ _).trans (judge_tidy_accepted hv)).trans (.sendFrame _ _ _ _ _ _ _ _))

end TidyDecision

namespace Tidy

theorem decideReserves (l : List Frame) (s : State) (used : Nat) : Tidy s (State.decideReserves l s used).1 := by
  induction l generalizing s used with
  | nil => exact same rfl
  | cons fr l ih =>
    unfold State.decideReserves
    split
    · exact same rfl
    · rename_i t c h
      exact (TidyDecision.ite (.none s) (.decideReserve s fr _) t c h).trans (ih t _)
theorem decideAll (n : Nat) (s : State) (used dn : Nat) : Tidy s (State.decideAll n s used dn).1 := by
  induction n generalizing s used dn with
  | zero => exact refl s
  | succ n ih =>
    unfold State.decideAll
    split
    · exact refl s
    · split
      · exact refl s
      · split
        · exact refl s
        · rename_i t c h
          exact ((TidyDecision.decideOne s _ _ t c h).trans (adm t _)).trans (ih _ _ _)

/-! ## Thaws (R84, R381) -/

theorem readmitJobs (n : Nat) (l : List Job) (s : State) (cost : Nat) : TidyDecision s (Machine.readmitJobs n l s cost) := by
  induction l generalizing s cost with
  | nil => exact .some (refl s)
  | cons j l ih =>
    unfold Machine.readmitJobs
    dsimp only
    refine .ite (.none s) ?_
    split
    · exact .none s
    · rename_i d hplaced
      intro t c h
      exact (((modJob s _ _).trans (placeJob hplaced :)).trans (modJob _ _ _)).trans (ih _ _ t c h)
theorem thaw (s : State) (n used : Nat) : Tidy s (s.thaw n used).1 := by
  unfold State.thaw
  dsimp only
  split
  · rename_i u cost h
    exact ite_fst ((modInst s n _).trans (modInst _ n _)) (((modInst s n _).trans (readmitJobs _ _ _ _ u cost h)).trans (modInst _ n _))
  · exact (modInst s n _).trans (modInst _ n _)

/-! ## Commons jobs and the step -/

theorem commonsAdmit (s : State) (c : CJob) : Tidy s (s.commonsAdmit c) := by
  unfold State.commonsAdmit
  split
  · exact modCJobs s _
  · dsimp only
    split
    · refine trans ?_ (foldl (fun u m => sendFrame u _ _ _ _ _ _ _) _ _)
      exact (((countAccepted s).trans (admitRecord _ _ _ _ _ _ _ _ _ _)).trans (modJob _ _ _)).trans (modCJobs _ _)
    · refine trans ?_ (dropPart _ _)
      refine trans ?_ (sendAbandon _ _)
      exact ((admitRecord s _ _ _ _ _ _ _ _ _).trans (countRefused _ _)).trans (modCJobs _ _)
theorem commonsStep (s : State) : Tidy s s.commonsStep :=
  ((foldl (fun u c => commonsAdmit u c) _ s).trans
    (foldl (fun u c => ite (finalDone u c _) (ite (loseCJob u c) (refl u))) _ _)).trans (sweepCJobs _)
theorem ownFenced (s : State) : Tidy s s.ownFenced := by
  obtain ⟨k, h, f, e⟩ := ownFenced_only s
  rw [e]
  exact same rfl
theorem admitted (s : State) (used dn present : Nat) : Tidy s (s.admitted used dn present) :=
  ((commonsStep s).trans (adm _ _)).trans ((ownFenced _).trans (pendSrc _ _))
theorem admission (s : State) : Tidy s s.admission := by
  rw [admission_eq]
  dsimp only
  refine trans ?_ (admitted _ _ _ _)
  refine trans ?_ (decideAll _ _ _ _)
  refine trans ?_ (decideReserves _ _ _)
  exact (handlesReady s).trans (foldl_fst (fun a n => thaw a.1 n a.2) _ (s.handlesReady, 0))

end Tidy

end Sys2Proof.Machine
end

section
/-! The canonical form of the stores under edits, entropy, the work window's begin, the tail and the ends of jobs. -/

open Sys2Proof Sys2Proof.Machine

namespace Sys2Proof.Machine

variable {s t u : State}

namespace Tidy

theorem draw (s : State) (n : Nat) : Tidy s (s.draw n).2 := same rfl
theorem drawBytes (s : State) (n : Nat) : Tidy s (s.drawBytes n).2 := same rfl
theorem modSeed (s : State) (g : Seedbank → Seedbank) : Tidy s (s.modSeed g) := same rfl
theorem setStream (s : State) (k : Nat) (x : Stream) : Tidy s (s.setStream k x) := same rfl
theorem setAmu (s : State) (a : Nat) (x : Amu) : Tidy s (s.setAmu a x) := calm (.setAmu s a x)
theorem anyStatus (s : State) (id : Nat) : Tidy s (s.anyStatus id) := fun h => canonical_anyStatus h id
theorem settle (h : Tidy s t) (s₀ : State) (j : Job) (bad : Bool) : Tidy s (s₀.settle t j bad) := fun hs => canonical_settle (h hs) j bad
theorem anything (s : State) : Tidy s s.anything := canonical_anything
theorem modSlot (s : State) (n : Nat) (g : KSlot → KSlot) : Tidy s (s.modSlot n g) := same rfl

/-! ## Edits (R264, R271) -/

theorem listEdits (s : State) (b : Bytes) : Tidy s (s.listEdits b).2 := by
  unfold State.listEdits
  exact ite_snd (refl s) (drawBytes s (64 * 38))
theorem startPass (s : State) (a : Nat) (l : EditList) : Tidy s (s.startPass a l) := by
  have h (x : Amu) := (listEdits s l.bytes).trans (setAmu _ a x)
  unfold State.startPass
  dsimp only
  exact ite (((h _).trans (raise _ _ _ _ _)).trans (fences (.stopPass _ a))) (h _)
theorem shadowWrite (s : State) (a b : Nat) : Tidy s (s.shadowWrite a b) := hbmWrite s _ _
theorem endPass (s : State) (a : Nat) : Tidy s (s.endPass a) := by
  unfold State.endPass
  dsimp only
  split
  · exact refl s
  · rename_i p _
    have h : Tidy s (match (s.setAmu a { s.amu a with pass := none }).job? p.job with
        | some j => if editsBad j.param || descBad j.desc then (s.setAmu a { s.amu a with pass := none }).anyStatus p.job
            else s.setAmu a { s.amu a with pass := none }
        | none => s.setAmu a { s.amu a with pass := none }) := by
      have h := setAmu s a { s.amu a with pass := none }
      split
      · exact ite (h.trans (anyStatus _ _)) h
      · exact h
    exact ite (h.trans (setStatus _ _ _)) ((h.trans (foldl (fun u b => shadowWrite u a b) _ _)).trans (modJob _ _ _))

/-! ## The Seedbank (R324–R331) -/

theorem reseeded (s : State) (k : Nat) (b : Bytes) : Tidy s (s.reseeded k b) := setStream s k _
theorem takeAllot {n : Nat} {b : Bytes} (h : s.takeAllot n = some (b, t)) : Tidy s t := by
  unfold State.takeAllot at h
  split at h
  · exact nomatch h
  · cases h
    exact modSeed s _
theorem seedUnit (s : State) (j : Job) (r i : Nat) : Tidy s (s.seedUnit j r i) := by
  unfold State.seedUnit
  split
  · exact modSeed s _
  · rename_i b v hv
    exact trans (settle ((takeAllot hv).trans (sound (.memWrite v _ _ _))) _ _ _) (modSeed _ _)
theorem retryReseeds (s : State) (n : Nat) : Tidy s (s.retryReseeds n) := by
  refine foldl (fun u k => ?_) _ s
  split
  · exact refl u
  · exact ite ((modSeed u _).trans (reseeded _ _ _)) (refl u)
theorem ownReseed (s : State) (k : Nat) (x : Stream) : Tidy s (if k > 48 then s else
    match s.takeAllot 48 with
    | some (x, s) => s.reseeded k x
    | none => s.setStream k x) := by
  refine ite (refl s) ?_
  split
  · rename_i hv
    exact (takeAllot hv).trans (reseeded _ _ _)
  · exact setStream s _ _
theorem allotment (s : State) : Tidy s s.allotment := by
  unfold State.allotment
  dsimp only
  refine trans ?_ (foldl (fun u e => ?_) _ _)
  swap
  · exact ite (foldl (fun u i => seedUnit u _ _ i) _ u) (refl u)
  have h := retryReseeds s (s.rowCnt s.swnN 27)
  generalize s.retryReseeds _ = v at h ⊢
  have h' := fun g => h.trans (modSeed v g)
  have h'' {c : Prop} [Decidable c] (g) := ite (c := c) (h' g) h
  exact (h'' _).trans (ownReseed _ _ _)
theorem floorReached (s : State) (g : Seedbank → Seedbank) (b : Nat → Bytes) (l : List Nat) :
    Tidy s (l.foldl (fun s k => s.reseeded k (b k)) (s.modSeed g)) := (modSeed s g).trans (foldl (fun u k => reseeded u k _) l _)

theorem seedTail (s : State) : Tidy s s.seedTail := by
  have h (l : List (Nat × Nat × Nat)) (g g' : Seedbank → Seedbank) :=
    ((modSeed s g).trans (modSeed _ g')).trans (foldl (fun u (w : Nat × Nat × Nat) => setStatus u w.1 0x13) l _)
  unfold State.seedTail
  dsimp only
  refine trans (h _ _ _) (foldl (fun u k => ?_) (upTo 49) _)
  split
  · exact ite (setStream u _ _) (refl u)
  · exact refl u

/-! ## The work window's begin (R56–R59) -/

theorem countRows (s : State) : Tidy s s.countRows := same rfl
theorem slotCheck (s : State) (j : Job) (k : Nat) : Tidy s (s.slotCheck j k) := by
  refine trans ?_ (foldl (fun u q => setInSlot u q _) _ _)
  have h (l : List Nat) := foldl (fun u q => setInSlot u q { u.inSlot q with incomplete := true }) l s
  exact ite (h _) ((h _).trans (setStatus _ _ _))
theorem slotChecks (s : State) : Tidy s s.slotChecks :=
  foldl (fun u j => ite (refl u) (foldl (fun u k => slotCheck u j k) _ u)) _ s
theorem startSlices (s : State) (e : Job × Placement) : Tidy s (s.startSlices e) := by
  obtain ⟨j, p⟩ := e
  unfold State.startSlices
  refine ite (lose s _ _ _) (ite (ite (lose s _ _ _) (foldl (fun u i => modField u _ _) _ s)) (ite ?_ (refl s)))
  split
  · exact ite (modAmu s _ _) (lose s _ _ _)
  · exact ite (modJob s _ _) (modJob s _ _)
theorem unfit (s : State) (l : List Piece) : Tidy s (s.unfit l) := by
  refine foldl (fun u p => ?_) l s
  split
  · exact lose u _ _ _
  · exact refl u
theorem layCores (s : State) (q : Nat) : Tidy s (s.layCores q) := (foldl (fun u _ => modCore u _ _) _ s).trans (unfit _ _)
theorem layPipes (s : State) (k : Bool) : Tidy s (s.layPipes k) := (foldl (fun u _ => modPipe u _ _) _ s).trans (unfit _ _)
theorem begins (s : State) : Tidy s s.begins := engines (.begins s)
theorem mapEngines (s : State) (g : Nat → Core → Core) (f : Nat → Core → Core) : Tidy s { s with
    cores := mmap (fun _ => Core.init) g s.cores
    pipes := mmap (fun _ => Core.init) f s.pipes } :=
  fun h => canonical_pipes (canonical_cores h (mwf_mmap _ h.cores)) (mwf_mmap _ h.pipes)
theorem startEngines (s : State) : Tidy s s.startEngines := (mapEngines s _ _).trans (begins _)
theorem workWindow (s : State) : Tidy s s.workWindow := by
  refine trans ?_ (startEngines _)
  refine trans (trans ?_ (layPipes _ _)) (layPipes _ _)
  refine trans ?_ (foldl (fun u q => layCores u q) _ _)
  refine trans ?_ (foldl (fun u f => fences (.sliceBegins u f)) _ _)
  refine trans (trans ?_ (foldl (fun u e => startSlices u e) _ _)) (modSeed _ _)
  exact ((glob s _).trans (countRows _)).trans (slotChecks _)

/-! ## The ends of jobs -/

theorem modJobs (s : State) (g : Job → Job) : Tidy s (s.modJobs g) := same rfl
theorem migCheck (s : State) (i : Nat) : Tidy s (s.migCheck i) := cellCheck s _ _ _
theorem instSave (s : State) (j : Job) : Tidy s (s.instSave j).2 := by
  unfold State.instSave
  refine ite_snd (anything s) ?_
  split
  · exact migCheck s _
  · refine trans ?_ (modJobs _ _)
    refine trans ?_ (modKeys _ _)
    exact (drawBytes s 12).trans (hbmWrite _ _ _)
theorem loadSections (s : State) (n : Nat) (g : BitVec 16) (x : Sections) : Tidy s (s.loadSections n g x) := by
  have hjobs (u : State) (l : List (Job × Nat)) (k : Nat) : Tidy u (l.foldl (fun s e => { s with adm := { s.adm with
      jobs := s.adm.jobs ++ [{ e.1 with id := k + e.2 }], nextJob := k + e.2 + 1 } }) u) := foldl (fun u _ => adm u _) l u
  have hqueues (u : State) (l : List (Nat × Nat × Nat)) : Tidy u (l.foldl (fun s q =>
      match x.queues.find? (fun e => e.1 == q.1) with
      | some e => s.hbmWrite q.2.1 (e.2.take q.2.2)
      | none => s) u) := by
    refine foldl (fun u q => ?_) l u
    split
    · exact hbmWrite u _ _
    · exact refl u
  have hpage := (dropCfg s (fun e => !(decide (instPage n ≤ e.1) && decide (e.1 < instPage n + 0x800)))).trans
    (foldl (f := fun s (e : Nat × Nat) => if e.1 < 0x800 then s.setCfg (instPage n + e.1) (BitVec.ofNat 32 e.2) else s)
      (fun u e => ite (sound (.setCfg u _ _)) (refl u)) x.page _)
  unfold State.loadSections
  dsimp only
  generalize List.foldl _ _ x.page = v at hpage ⊢
  refine ite ?_ (trans ?_ (modKeys _ _))
  all_goals
    refine trans ?_ (foldl (fun u e => modAmu u _ _) _ _)
    refine trans ?_ (hjobs _ _ _)
    refine trans ?_ (foldl (fun u e => setHandle u _ _) _ _)
    refine trans ?_ (hqueues _ _)
    exact hpage.trans (modInst _ _ _)
theorem instRestore (s : State) (j : Job) : Tidy s (s.instRestore j).2 := by
  unfold State.instRestore
  refine ite_snd (anything s) ?_
  split
  · exact migCheck s _
  · dsimp only
    have h := hbmRead s (dOp j.desc 0) 128
    generalize s.hbmRead (dOp j.desc 0) 128 = r at h ⊢
    have h := h.trans (hbmRead r.2 (dOp j.desc 0 + 128) (min (rd r.1 8 8) 50331648 - 128))
    generalize r.2.hbmRead _ _ = r' at h ⊢
    split
    · exact h
    · split
      · exact h.trans (anything _)
      · split
        · exact h
        · dsimp only
          exact h.trans (loadSections _ _ _ _)
theorem endJob (s : State) (j : Job) : Tidy s (s.endJob j) := by
  unfold State.endJob
  refine ite (refl s) ?_
  split
  · exact closeJob s _ _ _
  · exact ite (refl s) (ite ((instSave s j).trans (closeJob _ _ _ _)) (ite ((instRestore s j).trans (closeJob _ _ _ _)) (closeJob s _ _ _)))

/-! ## The tail (R59, R82) -/

theorem dropSlice (s : State) (f : Nat) : Tidy s (s.dropSlice f) := (modField s f _).trans (fences (.sliceBegins _ f))
theorem cutSlice (s : State) (f : Nat) : Tidy s (s.cutSlice f) := by
  unfold State.cutSlice
  split
  · exact refl s
  · rename_i sl _ _
    refine trans (trans ?_ (modField _ _ _)) (dropSlice _ _)
    split
    · exact refl s
    · exact ((fences (.breakUnit s _ sl f .cut)).trans (setStatus _ _ _)).trans (fences (.blurJob _ _ _))
theorem cutLookup (s : State) (a : Nat) : Tidy s (s.cutLookup a) := by
  unfold State.cutLookup
  split
  · exact refl s
  · exact (setStatus s _ _).trans (modAmu _ _ _)
theorem stopAll (s : State) : Tidy s s.stopAll := by
  refine trans ?_ (mapEngines _ _ _)
  refine trans ?_ (foldl (fun u p => lose u _ _ _) _ _)
  exact (foldl (fun u f => foldl (fun u _ => cutSlice u f) _ u) _ s).trans (foldl (fun u a => foldl (fun u _ => cutLookup u a) _ u) _ _)
theorem deadlines (s : State) : Tidy s s.deadlines := foldl (fun u _ => (setStatus u _ _).trans (closeJob _ _ _ _)) _ s
theorem tail (s : State) : Tidy s s.tail := by
  refine trans ?_ (setOffset _ _)
  refine trans ?_ (foldl (fun u f => modField u _ _) _ _)
  refine trans ?_ (deadlines _)
  refine trans ((stopAll s).trans (seedTail _)) (foldl (fun u j => ?_) _ _)
  split
  · exact endJob u _
  · exact refl u

/-! ## The key store (R318, R344) -/

theorem allMarks (s : State) : Tidy s s.allMarks := canonical_allMarks
theorem markDurable (s : State) (n : Nat) : Tidy s (s.markDurable n) := fun h => canonical_markDurable h n
theorem durableN (s : State) (n : Nat) : Tidy s (s.durableN n) := fun h => canonical_durableN h n
theorem durableOne (s : State) : Tidy s s.durableOne := canonical_durableOne

end Tidy

end Sys2Proof.Machine
end

section
/-! The canonical form of the stores under the ends of units (R154, R170, R279–R281, R348). -/

open Sys2Proof Sys2Proof.Machine

namespace Sys2Proof.Machine

variable {s t u : State}

namespace Tidy

theorem memRead (s : State) (host : Bool) (a n : Nat) : Tidy s (s.memRead host a n).2 := fun h => canonical_memRead h host a n
theorem memWrite (s : State) (host : Bool) (a : Nat) (b : Bytes) : Tidy s (s.memWrite host a b) := sound (.memWrite s host a b)
theorem touch (s : State) (rs : List (Nat × Nat)) : Tidy s (s.touch rs) := fences (.touch s rs)
theorem blur (s : State) (rs : List (Nat × Nat)) : Tidy s (s.blur rs) := fences (.blur s rs)
theorem countKeys (s : State) (a n : Nat) : Tidy s (s.countKeys a n) := fences (.countKeys s a n)
theorem nextVersion {n : Nat} {v : DWord} (h : s.nextVersion n = some (v, t)) : Tidy s t := fences (.nextVersion h)
theorem writeAll (s : State) (ws : List (Nat × Bytes)) : Tidy s (s.writeAll ws) :=
  foldl (f := fun s (w : Nat × Bytes) => s.hbmWrite w.1 w.2) (fun u w => hbmWrite u w.1 w.2) ws s
theorem wrote (s : State) (id : Nat) (d r : List (Nat × Nat)) : Tidy s (s.wrote id d r) := modJob s _ _

/-- An outcome that may wait keeps the canonical form when it does not. -/
def Opt (s : State) (o : Option State) : Prop := ∀ t, o = some t → Tidy s t

namespace Opt

theorem none (s : State) : Opt s none := fun _ h => nomatch h
theorem some (h : Tidy s t) : Opt s (some t) := by
  rintro _ ⟨⟩
  exact h
theorem ite {c : Prop} [Decidable c] {o p : Option State} (ho : Opt s o) (hp : Opt s p) : Opt s (if c then o else p) := by
  split
  · exact ho
  · exact hp

end Opt

/-! ## Queries (R154) -/

theorem egressBlocks (c : UnitCtx) (e : Nat) (l : List ((Nat × BEnt) × Nat)) (x : Option SealTile) (s t : State)
    (w : List (Nat × Bytes)) (h : c.egressBlocks x e l s = some (w, t)) : Tidy s t := by
  induction l generalizing s w with
  | nil =>
    cases h
    exact refl _
  | cons b l ih =>
    obtain ⟨⟨k, b⟩, i⟩ := b
    cases x with
    | none =>
      simp only [UnitCtx.egressBlocks, Option.map_eq_some_iff, Prod.mk.injEq] at h
      obtain ⟨⟨w', t'⟩, h, -, rfl⟩ := h
      exact ih s w' h
    | some x =>
      simp only [UnitCtx.egressBlocks] at h
      split at h
      · exact nomatch h
      · rename_i v u hv
        simp only [Option.map_eq_some_iff, Prod.mk.injEq] at h
        obtain ⟨⟨w', t'⟩, h, -, rfl⟩ := h
        exact (nextVersion hv).trans (ih u w' h)
theorem egressAll (c : UnitCtx) (l : List (Nat × Option SealTile)) (s t : State) (w : List (Nat × Bytes))
    (h : c.egressAll l s = some (w, t)) : Tidy s t := by
  induction l generalizing s w with
  | nil =>
    cases h
    exact refl _
  | cons e l ih =>
    obtain ⟨e, x⟩ := e
    simp only [UnitCtx.egressAll] at h
    split at h
    · exact nomatch h
    · rename_i v u hv
      simp only [Option.map_eq_some_iff, Prod.mk.injEq] at h
      obtain ⟨⟨w', t'⟩, h, -, rfl⟩ := h
      exact (egressBlocks c e _ x s u v hv).trans (ih u w' h)
theorem sendRows (s : State) (id : Nat) (d : Nat × Nat) (rows : Bytes) : Tidy s (s.sendRows id d rows) := by
  unfold State.sendRows
  split
  · exact refl s
  · dsimp only
    refine trans (foldl_fst (fun a b => ?_) _ (s, _)) (modJob _ _ _)
    exact ite (slotRows a.1 _ _ _ _ _) (sendFrame a.1 _ _ _ _ _ _ _)
theorem queryUnit (s : State) (j : Job) (sl : Slice) {t : State} {b : Bool} (h : s.queryUnit j sl = some (t, b)) : Tidy s t := by
  have hbroken (c : UnitCtx) (how : Broken) (st : Nat) : Tidy s (((c.broken s how).setStatus j.id st).blurJob j.id st) :=
    ((fences (.broken c s how)).trans (setStatus _ _ _)).trans (fences (.blurJob _ _ _))
  unfold State.queryUnit at h
  dsimp only at h
  split at h
  · split at h
    · cases h
      exact (hbroken _ _ _).trans (raise _ _ _ _ _)
    · cases h
      exact hbroken _ _ _
  · split at h
    · exact nomatch h
    · rename_i ws v hv
      cases h
      have h0 : Tidy s { s with free := s.free + 1024 } := same rfl
      have hv := h0.trans (egressAll _ _ _ v ws hv)
      have hc := fun r k e g => hv.trans (fences (.counted (s.sliceCtx j sl) v r k e g))
      refine trans (trans (trans ?_ (wrote _ _ _ _)) (foldl (fun u d => sendRows u _ _ _) _ _)) (modJob _ _ _)
      split
      · exact (hc _ _ _ _).trans (blur _ _)
      · exact (hc _ _ _ _).trans (blur _ _)
      · exact (hc _ _ _ _).trans (blur _ _)
      · exact (hc _ _ _ _).trans (writeAll _ _)

/-! ## Ingest units (R348) -/

theorem sealColumns (param key : Bytes) (gcm : Bool) (slot g : Nat) (rows : List (IRec × Bytes)) (l : List Nat) (s : State) :
    Opt s (State.sealColumns param key gcm slot g rows l s) := by
  induction l generalizing s with
  | nil => exact .some (refl s)
  | cons c l ih =>
    unfold State.sealColumns
    refine .ite ?_ ?_
    · intro t h
      exact ((drawBytes s 16).trans (hbmWrite _ _ _)).trans (ih _ t h)
    · split
      · exact .none s
      · rename_i v hv
        intro t h
        exact (((nextVersion hv).trans (hbmWrite _ _ _)).trans (hbmWrite _ _ _)).trans (ih _ t h)
theorem ingestUnit (s : State) (j : Job) (p n f : Nat) {t : State} {b : Bool} (h : s.ingestUnit j p n f = some (t, b)) : Tidy s t := by
  unfold State.ingestUnit at h
  dsimp only at h
  split at h
  · cases h
    exact refl s
  · split at h
    · cases h
      exact setStatus s _ _
    · split at h
      · exact nomatch h
      · rename_i v hv
        cases h
        exact (((touch s _).trans (draw _ 22)).trans (sealColumns _ _ _ _ _ _ _ _ v hv)).trans ((hbmWrite _ _ _).trans (modField _ _ _))

/-! ## The ends of field and lookup units -/

theorem fieldUnit (s : State) (j : Job) (sl : Slice) (f : Nat) {t : State} {b : Bool} (h : s.fieldUnit j sl f = some (t, b)) :
    Tidy s t := by
  unfold State.fieldUnit at h
  simp only [Option.map_eq_some_iff, Prod.mk.injEq] at h
  obtain ⟨⟨v, b'⟩, h, rfl, -⟩ := h
  refine settle ?_ _ _ _
  split at h
  · exact ingestUnit s _ _ _ _ h
  · exact queryUnit s _ _ h
theorem unitDone (s : State) (id seq pos : Nat) : Tidy s (s.unitDone id seq pos) := modJob s _ _
theorem sendEnds (s : State) (j : Job) (k : Nat) : Tidy s (s.sendEnds j k) := by
  refine ite (refl s) (trans (foldl (fun u d => ?_) _ s) (modJob _ _ _))
  exact ite (slotEnd u _ _ _ _) (sendFrame u _ _ _ _ _ _ _)
theorem dropOverflow (s : State) (j : Job) (k : Nat) : Tidy s (s.dropOverflow j k) :=
  ite ((foldl (fun u _ => ite (refl u) (unplace u _ _ _ _)) _ s).trans (modJob _ _ _)) (refl s)
theorem stageEnd (s : State) (id k : Nat) : Tidy s (s.stageEnd id k) := by
  unfold State.stageEnd
  split
  · exact refl s
  · exact ite (refl s) ((sendEnds s _ _).trans (dropOverflow _ _ _))
theorem nextUnit (s : State) (f : Nat) : Tidy s (s.nextUnit f) := by
  unfold State.nextUnit
  split
  · exact refl s
  · exact ite (dropSlice s f) (modField s f _)
theorem fieldUnitEnd (s : State) (f : Nat) : Tidy s (s.fieldUnitEnd f) := by
  unfold State.fieldUnitEnd
  split
  · exact refl s
  · split
    · exact dropSlice s f
    · split
      · exact refl s
      · rename_i h
        exact (((fieldUnit s _ _ _ h).trans (unitDone _ _ _ _)).trans (stageEnd _ _ _)).trans (nextUnit _ _)
      · rename_i h
        exact (fieldUnit s _ _ _ h).trans (dropSlice _ _)
theorem lookupUnit (s : State) (j : Job) (i : Nat) : Tidy s (s.lookupUnit j i) :=
  settle (((hbmRead s _ _).trans (hbmWrite _ _ _)).trans (countKeys _ _ _)) _ _ _
theorem amuUnitEnd (s : State) (a : Nat) : Tidy s (s.amuUnitEnd a) := by
  unfold State.amuUnitEnd
  split
  · exact refl s
  · split
    · exact modAmu s _ _
    · exact ((lookupUnit s _ _).trans (unitDone _ _ _ _)).trans (modAmu _ _ _)

end Tidy

end Sys2Proof.Machine
end

section
/-! The canonical form of the stores under the units of the cores and pipelines (R279–R310, R333, R348). -/

open Sys2Proof Sys2Proof.Machine

namespace Sys2Proof.Machine

variable {s t u : State}

namespace Tidy

theorem modEng (s : State) (pipe : Bool) (k : Nat) (g : Core → Core) : Tidy s (s.modEng pipe k g) := calm (.modEng s pipe k g)
theorem bumpPool (s : State) (p : Nat) (g : PoolCnt → PoolCnt) : Tidy s (s.bumpPool p g) := same rfl
theorem modDigest (s : State) (g : DigestCnt → DigestCnt) : Tidy s (s.modDigest g) := same rfl
theorem setWork (s : State) (id i : Nat) (x : OpHeld) : Tidy s (s.setWork id i x) := modJob s _ _
theorem setSign (s : State) (id i : Nat) (x : SigSt) : Tidy s (s.setSign id i x) := modJob s _ _
theorem setLevel (s : State) (id i v : Nat) : Tidy s (s.setLevel id i v) := modJob s _ _
theorem keep (s : State) (id a : Nat) (b : Bytes) : Tidy s (s.keep id a b) := modJob s _ _
theorem streamMoved (s : State) (k : Nat) : Tidy s (s.streamMoved k) := (drawBytes s 48).trans (setStream _ _ _)
theorem streamBytes (s : State) (k n : Nat) : Tidy s (s.streamBytes k n).2 := setStream s k _
theorem opCounted (s : State) (p c i st : Nat) : Tidy s (s.opCounted p c i st) := by
  have h (g : PoolCnt → PoolCnt) := (ite (c := st = 0x13) (modSeed s fun b => { b with noEntropy := satInc 32 b.noEntropy }) (refl s)).trans
    (bumpPool _ p g)
  exact ite ((h _).trans (raise _ _ _ _ _)) (h _)

/-! ## Operations of a batch -/

theorem keygenChange (s : State) (n : Nat) (a b : Bytes) : Tidy s (s.keygenChange n a b) := modKeys s _
theorem runOp (s : State) (j : Job) (op : CryptoOp) (set : Nat) (p : PSet) (pub : Nat) (h : OpHeld) : Tidy s (s.runOp j op set p pub h).2 :=
  ite_snd (refl s) (ite_snd (refl s) (ite_snd (refl s) (ite_snd (refl s) (ite_snd (refl s) (ite_snd (refl s)
    (ite_snd (keygenChange s _ _ _) (refl s)))))))
theorem opResult (s : State) (j : Job) (i n : Nat) (e : Bytes) (r : OpRes) : Tidy s (s.opResult j i n e r) :=
  ((ite (refl s) (memWrite s _ _ _)).trans (hbmWrite _ _ _)).trans (modJob _ _ _)
theorem finishOp (s : State) (j : Job) (op : CryptoOp) (p : PSet) (pub c i : Nat) (h : OpHeld) : Tidy s (s.finishOp j op p pub c i h) :=
  ((runOp s j op _ p pub h).trans (opResult _ _ _ _ _ _)).trans (opCounted _ _ _ _ _)
theorem carryOut (s : State) (j : Job) (a cb i k : Nat) (x : OpHeld) : Tidy s (s.carryOut j a cb i k x) :=
  ((drawBytes s 12).trans (hbmWrite _ _ _)).trans (modJob _ _ _)
theorem batchUnit (s : State) (j : Job) (op : CryptoOp) (p : PSet) (c k n : Nat) (h : OpHeld) : Tidy s (s.batchUnit j op p c k n h) := by
  unfold State.batchUnit
  refine ite ?_ (ite (carryOut s _ _ _ _ _ _) (finishOp s _ _ _ _ _ _ _))
  split
  · exact refl s
  · exact ite (setLevel s _ _ _) (((setLevel s _ _ _).trans (finishOp _ _ _ _ _ _ _ _)).trans (setWork _ _ _ _))

/-! ## Signatures by attempts (R279–R281) -/

theorem endStage (s : State) (id k : Nat) : Tidy s (s.endStage id k) := by
  unfold State.endStage
  split
  · exact refl s
  · refine trans ?_ (begins _)
    refine trans ?_ (modJob _ _ _)
    refine trans ?_ (foldl (fun u p => ite (unplace u _ _ _ _) (refl u)) _ _)
    exact fun h => canonical_cores h (mwf_mmap _ h.cores)
theorem rehedge (s : State) (g : Signer) (id c i : Nat) (h : OpHeld) : Tidy s (s.rehedge g id c i h).2 :=
  ite_snd (refl s) ((streamBytes s _ 32).trans (setWork _ _ _ _))

/-- What a signer does of its own keeps the canonical form. -/
structure Signs (g : Signer) : Prop where
  fixed : ∀ s c i, Tidy s (g.fixed s c i).2.2
  note : ∀ s i st n sig, Tidy s (g.note s i st n sig)

section
variable {g : Signer} (hg : Signs g)
include hg

theorem decideSign (s : State) (id c i st n : Nat) (sig : Bytes) : Tidy s (s.decideSign g id c i st n sig) :=
  (((hg.note s i st n sig).trans (setSign _ _ _ _)).trans (setWork _ _ _ _)).trans (opCounted _ _ _ _ _)
theorem fixedPart (s : State) (id c i : Nat) : Tidy s (s.fixedPart g id c i) := by
  unfold State.fixedPart
  split
  · exact refl s
  · exact ite (refl s) (ite ((hg.fixed s c i).trans (setWork _ _ _ _)) ((hg.fixed s c i).trans (decideSign hg _ _ _ _ _ _ _)))
theorem deal (id c n : Nat) (s : State) : Tidy s (State.deal g id c n s) := by
  induction n generalizing s with
  | zero => exact refl s
  | succ n ih =>
    unfold State.deal
    split
    · exact refl s
    · rename_i i _
      dsimp only
      have h := fixedPart hg s id c i
      generalize s.fixedPart g id c i = v at h ⊢
      split
      · exact h
      · refine ite (h.trans (ih v)) ?_
        have h := fun x g' p g'' => ((h.trans (rehedge v g id c i x)).trans (modJob _ id g')).trans (bumpPool _ p g'')
        refine ite ((h _ _ _ _).trans (decideSign hg _ _ _ _ _ _ _)) ?_
        split
        · exact (h _ _ _ _).trans (decideSign hg _ _ _ _ _ _ _)
        · exact (h _ _ _ _).trans (setSign _ _ _ _)
        · exact (h _ _ _ _).trans (decideSign hg _ _ _ _ _ _ _)
theorem slotEnds (s : State) (id k c n : Nat) : Tidy s (s.slotEnds g id k c n) := by
  have h : Tidy s (if n < g.k.fixed g.n then
      ((upTo g.n).filter (fun i => decide (i * g.k.f / g.k.q ≤ n))).foldl (fun s i => s.fixedPart g id c i) s
    else State.deal g id c (g.n + 1) s) :=
    ite (foldl (fun u i => fixedPart hg u id c i) _ s) (deal hg id c _ s)
  unfold State.slotEnds
  dsimp only
  generalize (if n < g.k.fixed g.n then _ else _) = v at h ⊢
  split
  · exact h
  · refine ite (h.trans (endStage _ _ _)) (ite h ?_)
    exact (((h.trans (foldl (fun u i => decideSign hg u _ _ _ _ _ _) _ _)).trans (modJob _ _ _)).trans (bumpPool _ _ _)).trans (endStage _ _ _)

end

theorem recordBegin (s : State) (c : Nat) (a b d : Bytes) : Tidy s (s.recordBegin c a b d).2.2 := by
  unfold State.recordBegin
  split
  · exact refl s
  · exact ((streamBytes s _ 32).trans (drawBytes _ _)).trans (streamMoved _ _)
theorem ecSign (s : State) (c : Nat) (a b : Bytes) : Tidy s (s.ecSign c a b).2.2 := by
  unfold State.ecSign
  split
  · exact refl s
  · have h := (drawBytes s 56).trans (streamMoved _ (38 + c))
    dsimp only
    split
    · exact h
    · exact h
theorem zeroReceipt (s : State) (j : Job) (i : Nat) : Tidy s (s.zeroReceipt j i) := hbmWrite s _ _
theorem dropClaim (s : State) (j : Job) (i : Nat) (c : Claim) : Tidy s (s.dropClaim j i c) := modInst s _ _
theorem writeReceipt (s : State) (j : Job) (i : Nat) (c : Claim) (a b d : Bytes) : Tidy s (s.writeReceipt j i c a b d) := by
  unfold State.writeReceipt
  exact (hbmWrite s _ _).trans (dropClaim _ _ _ _)

/-- A batch's own signer. -/
theorem signs_pq (j : Job) (k : SignK) (p : PSet) : Signs (pqSigner j k p) where
  fixed s c i := engines (.opBegin s j .sign _ p p.pub c i)
  note s _ _ _ _ := opResult s _ _ _ _ _
/-- The signer of receipts. -/
theorem signs_receipt (j : Job) (k : SignK) (key : KSlot) : Signs (receiptSigner j k key) where
  fixed s c i := by
    unfold receiptSigner
    dsimp only
    split
    · exact refl s
    · exact recordBegin s _ _ _ _
  note s i st n sig := by
    have h := ite (c := st = 0x13 ∨ st = 0x20) (modJob s j.id (fun x => x.noteEntry i st)) (refl s)
    unfold receiptSigner
    dsimp only
    generalize (if st = 0x13 ∨ st = 0x20 then _ else s) = v at h ⊢
    split
    · exact h.trans (zeroReceipt _ _ _)
    · exact ite (h.trans (keep _ _ _ _)) (h.trans (writeReceipt _ _ _ _ _ _ _))
/-- The signer of attestations. -/
theorem signs_attest (j : Job) (k : SignK) : Signs (attestSigner j k) where
  fixed s c i := by
    unfold attestSigner
    dsimp only
    split
    · exact refl s
    · exact recordBegin s _ _ _ _
  note s i st n sig := by
    have h := ite (c := st = 0x13 ∨ st = 0x20) (modJob s j.id (fun x => x.noteEntry i st)) (refl s)
    exact ite (h.trans (keep _ _ _ _)) (ite (h.trans (hbmWrite _ _ _)) (h.trans (hbmWrite _ _ _)))

/-! ## Receipts and attestations -/

theorem rcRefused (s : State) (j : Job) (k : Nat) : Tidy s (s.rcRefused j k) :=
  (((((cellCheck s _ _ _).trans (cellCheck _ _ _ _)).trans (writeAll _ _)).trans (setStatus _ _ _))).trans (endStage _ _ _)
theorem receiptSlot (s : State) (j : Job) (k c n : Nat) : Tidy s (s.receiptSlot j k c n) := by
  unfold State.receiptSlot
  split
  · exact slotEnds (signs_receipt _ _ _) s _ _ _ _
  · exact rcRefused s j k
theorem receiptEc (s : State) (j : Job) (k c i : Nat) : Tidy s (s.receiptEc j k c i) := by
  unfold State.receiptEc
  split
  · exact rcRefused s j k
  · split
    · exact zeroReceipt s j i
    · have h := fun a b st => (ecSign s c a b).trans (opCounted _ 3 c j.inst st)
      exact ite ((h _ _ _).trans (writeReceipt _ _ _ _ _ _ _)) (((h _ _ _).trans (zeroReceipt _ _ _)).trans (modJob _ _ _))
theorem attestSlot (s : State) (j : Job) (k c n : Nat) : Tidy s (s.attestSlot j k c n) := by
  unfold State.attestSlot
  split
  · exact slotEnds (signs_attest _ _) s _ _ _ _
  · exact refl s
theorem attestEc (s : State) (j : Job) (c i : Nat) : Tidy s (s.attestEc j c i) := by
  have h := fun a b st => (ecSign s c a b).trans (opCounted _ 3 c j.inst st)
  unfold State.attestEc
  exact ite (refl s) (ite ((h _ _ _).trans (hbmWrite _ _ _)) (((h _ _ _).trans (hbmWrite _ _ _)).trans (modJob _ _ _)))

end Tidy

end Sys2Proof.Machine
end

section
/-! The canonical form of the stores under records, digests and bundles (R304, R333, R348), and under the end of any piece. -/

open Sys2Proof Sys2Proof.Machine

namespace Sys2Proof.Machine

variable {s t u : State}

namespace Tidy

/-! ## Records of ingest and sessions -/

theorem judgeRecord (s : State) (p : Bytes) (b : Bool) (i : Nat) : Tidy s (s.judgeRecord p b i).2 := by
  have h1 := memRead s (iHost p) (iOffsets p + 8 * i) 8
  unfold State.judgeRecord
  dsimp only
  generalize s.memRead (iHost p) (iOffsets p + 8 * i) 8 = r at h1 ⊢
  have h2 := fun a n => h1.trans (memRead r.2 (iHost p) a n)
  have h3 := fun a n a' n' => (h2 a n).trans (memRead _ (iHost p) a' n')
  refine ite_snd (h2 _ _) (ite_snd (h3 _ _ _ _) (ite_snd (h3 _ _ _ _) ?_))
  refine trans ?_ (countKeys _ _ _)
  refine trans ?_ (hbmRead _ _ _)
  exact h3 _ _ _ _
theorem ingestVerify (s : State) (j : Job) (i : Nat) : Tidy s (s.ingestVerify j i) :=
  (judgeRecord s j.param false i).trans ((hbmWrite _ _ _).trans (modJob _ _ _))
theorem sessionUnit (s : State) (j : Job) (i : Nat) : Opt s (s.sessionUnit j i) := by
  have hcheck := (cellCheck s (iKeySlot j.param) j.inst polKem).trans (cellCheck _ (iWrapSlot j.param) j.inst (polWrap + polSeal))
  have hjudge := fun g => (judgeRecord s j.param true i).trans (modJob _ j.id g)
  unfold State.sessionUnit
  dsimp only
  split
  · refine .ite (.some (hcheck.trans (setStatus _ _ _))) (.ite (.some ((hjudge _).trans (hbmWrite _ _ _))) ?_)
    split
    · exact .none s
    · rename_i v hv
      exact .some ((((hjudge _).trans (nextVersion hv)).trans (hbmWrite _ _ _)).trans (hbmWrite _ _ _))
  · exact .some (hcheck.trans (setStatus _ _ _))

/-! ## Digests -/

theorem foldl_snd {α β : Type} {f : α × State → β → α × State} (hf : ∀ a b, Tidy a.2 (f a b).2) (l : List β) (a : α × State) :
    Tidy a.2 (l.foldl f a).2 := by
  induction l generalizing a with
  | nil => exact refl a.2
  | cons b l ih => exact (hf a b).trans (ih _)
theorem partBytes (s : State) (host : Bool) (l : List Frag) (lo hi : Nat) : Tidy s (s.partBytes host l lo hi).2 := by
  refine foldl_snd (fun a f => ?_) l ([], s)
  exact (memRead a.2 host _ _).trans (memRead _ host _ _)
theorem absorbPart (s : State) (j : Job) (a : DigAlg) (k : Nat) (h : OpHeld) : Tidy s (s.absorbPart j a k h).2 := by
  have hp := fun l lo hi g => (partBytes s (gHost j.param) l lo hi).trans (modDigest _ g)
  unfold State.absorbPart
  exact ite_snd (refl s) (ite_snd (refl s) (ite_snd (hp _ _ _ _) (hp _ _ _ _)))
theorem messageOut (s : State) (j : Job) (a : DigAlg) (h : OpHeld) : Tidy s (s.messageOut j a h) :=
  ite ((drawBytes s 12).trans (memWrite _ _ _ _)) (memWrite s _ _ _)
theorem digestUnit (s : State) (j : Job) (k i : Nat) (h : OpHeld) : Tidy s (s.digestUnit j k i h) := by
  unfold State.digestUnit
  split
  · exact refl s
  · rename_i a _
    refine ite (refl s) ?_
    have ha := fun x g => (absorbPart s j a k x).trans (modDigest _ g)
    refine ite ((ha _ _).trans (carryOut _ _ _ _ _ _ _)) ?_
    refine trans ?_ (modJob _ _ _)
    refine trans ?_ (modDigest _ _)
    refine trans ?_ (hbmWrite _ _ _)
    exact ite ((ha _ _).trans (messageOut _ _ _ _)) (ha _ _)
theorem swardUnit (s : State) (j : Job) (k : Nat) : Tidy s (s.swardUnit j k) := ite (touch s _) ((touch s _).trans (modJob _ _ _))
theorem receiptDigest (s : State) (j : Job) (n : Nat) : Tidy s (s.receiptDigest j n) := by
  unfold State.receiptDigest
  split
  · exact refl s
  · exact ite ((hbmReads s _ _ _ _).trans (keep _ _ _ _)) ((hbmRead s _ _).trans (keep _ _ _ _))
theorem attestDigest (s : State) (j : Job) (i : Nat) : Tidy s (s.attestDigest j i) := (hbmRead s _ _).trans (keep _ _ _ _)
theorem updateUnit (s : State) (j : Job) (k n : Nat) : Tidy s (s.updateUnit j k n) := ite (touch s _) (touch s _)

/-! ## Engine units -/

theorem pipeUnit (s : State) (j : Job) (k n : Nat) (h : OpHeld) : Tidy s (s.pipeUnit j k n h) :=
  (modDigest s _).trans (ite (digestUnit _ _ _ _ _) (ite (swardUnit _ _ _) (ite (receiptDigest _ _ _) (ite (attestDigest _ _ _)
    (ite (updateUnit _ _ _ _) (refl _))))))
theorem coreUnit (s : State) (j : Job) (p c k n : Nat) (h : OpHeld) : Opt s (s.coreUnit j p c k n h) := by
  unfold State.coreUnit
  refine .ite (.some (ite (receiptSlot s _ _ _ _) (receiptEc s _ _ _ _))) (.ite (.some (ite (attestSlot s _ _ _ _) (attestEc s _ _ _)))
    (.ite (.some (((touch s _).trans (opCounted _ _ _ _ _)).trans (opCounted _ _ _ _ _)))
    (.ite (.some ((ingestVerify s _ _).trans (opCounted _ _ _ _ _))) (.ite ?_ ?_))))
  · intro t ht
    obtain ⟨v, hv, rfl⟩ := Option.map_eq_some_iff.1 ht
    exact (sessionUnit s j n v hv).trans (opCounted _ _ _ _ _)
  · dsimp only
    split
    · split
      · exact .some (slotEnds (signs_pq _ _ _) s _ _ _ _)
      · exact .some (batchUnit s _ _ _ _ _ _ _)
    · exact .some (refl s)
theorem engUnit (s : State) (j : Job) (pipe : Bool) (k : Nat) (e : Piece) (h : OpHeld) : Opt s (s.engUnit j pipe k e h) := by
  intro t ht
  obtain ⟨v, hv, rfl⟩ := Option.map_eq_some_iff.1 ht
  refine settle ?_ _ _ _
  split at hv
  · cases hv
    exact pipeUnit s _ _ _ _
  · exact coreUnit s _ _ _ _ _ _ v hv
theorem bundleApply (s : State) (a r : Nat) : Tidy s (s.bundleApply a r).2 := by
  have hdraw : Tidy s (if bundleBad (s.bundleAt a) = true then s.draw 1 else (1, s)).2 := ite_snd (draw s 1) (refl s)
  unfold State.bundleApply
  dsimp only
  generalize (if bundleBad (s.bundleAt a) = true then s.draw 1 else (1, s)) = d at hdraw ⊢
  have hsplit := fun (c : Prop) [Decidable c] x k => ite (c := c) ((hdraw.trans (tamper d.2 x)).trans (mismatch _ k)) hdraw
  have hsplit := hsplit ((d.2.tamper.bundleSplit && (bundleForm (s.bundleAt a)).isSome) = true)
    { d.2.tamper with bundleSplit := false } 3
  generalize (if (d.2.tamper.bundleSplit && _) = true then _ else d.2) = v at hsplit ⊢
  split
  · exact ite_snd (hsplit.trans (hbmWrite _ _ _)) ((hsplit.trans (modKeys _ _)).trans (hbmWrite _ _ _))
  · exact (hsplit.trans (modKeys _ _)).trans (hbmWrite _ _ _)
theorem bundleEnd (s : State) (id : Nat) : Tidy s (s.bundleEnd id) := by
  unfold State.bundleEnd
  split
  · exact refl s
  · exact ite (settle (ite (bundleApply s _ _) ((bundleApply s _ _).trans (setStatus _ _ _))) _ _ _) (refl s)
theorem unitOver (s : State) (e : Piece) : Tidy s (s.unitOver e) := ite ((unitDone s _ _ _).trans (bundleEnd _ _)) (unitDone s _ _ _)
theorem pieceEnd (s : State) (pipe : Bool) (k : Nat) : Tidy s (s.pieceEnd pipe k) := by
  unfold State.pieceEnd
  dsimp only
  split
  · exact refl s
  · have h := fun g => modEng s pipe k g
    have hb := fun g => (h g).trans (begins _)
    split
    · exact hb _
    · refine ite (hb _) (ite (refl s) (ite ?_ (ite (hb _) ?_)))
      · split
        · exact hb _
        · exact (((h _).trans (modEng _ _ _ _)).trans (modEng _ _ _ _)).trans (begins _)
      · split
        · exact refl s
        · rename_i v hv
          exact (((h _).trans (engUnit _ _ _ _ _ _ v hv)).trans (unitOver _ _)).trans (begins _)

end Tidy

end Sys2Proof.Machine
end

section
/-! The statement that every step keeps the canonical form: command by command. -/

open Sys2Proof Sys2Proof.Machine

namespace Sys2Proof.Machine

variable {s t u : State}

namespace Tidy

theorem run (e : whenRun s u = .next t) (h : Tidy s u) : Tidy s t := of_whenRun (P := Tidy s) (refl s) h e
theorem upTo (e : whenUp s u = .next t) (h : Tidy s u) : Tidy s t := of_whenUp (P := Tidy s) (refl s) h e
theorem next (e : (.next u : Host.Outcome State Fault Refusal) = .next t) (h : Tidy s u) : Tidy s t := of_next h e
theorem start (s : State) (x : Startup) : Tidy s { s with start := x } := same rfl
theorem hostif (s : State) (x : HostIf) : Tidy s { s with hostif := x } := same rfl
theorem mirror (s : State) (x : Mirror) : Tidy s { s with mirror := x } := same rfl
theorem modBk (s : State) (g : Backup → Backup) : Tidy s (s.modBk g) := same rfl
theorem alarm (s : State) (n : Nat) (a b : Bool) : Tidy s (s.alarm n a b) := sound (.alarm s n a b)

/-! ## Schedule, power and planes -/

theorem drainComplete (e : exec .drainComplete s = .next t) : Tidy s t := by
  refine run e ?_
  split
  · exact ite ((pwrEffect s _).trans (setCaps _ _ _)) (refl s)
  · exact refl s
theorem psEntryAtSwathEnd (e : exec .psEntryAtSwathEnd s = .next t) : Tidy s t := by
  have hk (u : State) (x : KeyStore) : Tidy u { u with keys := x } := same rfl
  have hhalt := fun g => (foldl (fun u k => haltCore u k) (Machine.upTo 12) s).trans (modPower _ g)
  refine run e ?_
  split
  · exact refl s
  · generalize List.foldl _ s (Machine.upTo 12) = v at hhalt ⊢
    refine ite ((hhalt _).trans (tamper _ _)) ?_
    refine trans ?_ (tamper _ _)
    exact ((((hhalt _).trans (allMarks _)).trans (durableN _ _)).trans (hk _ _)).trans (modPower _ _)
theorem editPass {a : Fin 4} (e : exec (.editPass a) s = .next t) : Tidy s t := by
  refine run e (ite (refl s) ?_)
  split
  · exact refl s
  · exact (startPass s _ _).trans (setOffset _ _)
theorem planeLoadEnd {f : Fin 16} {b : Bool} (e : exec (.planeLoadEnd f b) s = .next t) : Tidy s t := by
  refine run e ?_
  have h (n : Nat) := (modField s f.val (fun x => { x with loading := none })).trans (countReqs _ n)
  split
  · exact refl s
  · exact ite ((modField s _ _).trans (modField _ _ _))
      (ite (((h _).trans (fencedReads _ _ _)).trans (planeFail _ _ _)) ((h _).trans (modField _ _ _)))
theorem unitEnd {r : UnitRef} (e : exec (.unitEnd r) s = .next t) : Tidy s t := by
  refine run e ?_
  cases r with
  | field f => exact ite (fieldUnitEnd s _) (refl s)
  | amu a => exact ite (amuUnitEnd s _) (refl s)
theorem sliceCut {r : UnitRef} (e : exec (.sliceCut r) s = .next t) : Tidy s t := by
  refine run e ?_
  cases r with
  | field f => exact cutSlice s _
  | amu a => exact cutLookup s _
theorem jobEnd {id : Nat} (e : exec (.jobEnd id) s = .next t) : Tidy s t := by
  refine run e ?_
  split
  · exact refl s
  · exact endJob s _

/-! ## Keys and entropy -/

theorem nvCommitDurable (e : exec .nvCommitDurable s = .next t) : Tidy s t := by
  refine run e ?_
  split
  · exact refl s
  · exact ((allMarks s).trans (durableOne _)).trans (modKeys _ _)
theorem keystoreReloadEnd {b : Bool} (e : exec (.keystoreReloadEnd b) s = .next t) : Tidy s t :=
  run e (ite (refl s) (ite (bootEmpty s) ((modKeys s _).trans (setCause _ _ _))))
theorem seedFloorReached (e : exec .seedFloorReached s = .next t) : Tidy s t :=
  run e (ite ((floorReached s _ _ _).trans (tamper _ _)) (refl s))

/-! ## Faults -/

theorem reactionChipReset (e : exec .reactionChipReset s = .next t) : Tidy s t :=
  upTo e (react s 3 fun u _ => ite (tamperReset u) ((copyCause u).trans (chipReset _ _)))
theorem fallowEntry {c : FallowCause} (e : exec (.fallowEntry c) s = .next t) : Tidy s t := by
  refine run e ?_
  cases c with
  | logic => exact enterFallow s _
  | guard n => exact ite (enterFallow s _) (refl s)

/-! ## Supplies, resets and the life cycle -/

theorem mainRailLoss {r : Rail} (e : exec (.mainRailLoss r) s = .next t) : Tidy s t := by
  have hempty (x : Startup) (f : Faults) : Tidy s { s with start := x, hbm := [], faults := f } := fun h =>
    canonical_same (s := { s with hbm := [] }) (canonical_hbm h rfl) rfl
  refine next e (ite (chipReset s _) (ite (hempty _ _) ?_))
  have h := raise s 470 0 0 0
  split
  · exact h.trans (alarm _ _ _ _)
  · exact h
theorem backupTamperAlarm {n : Fin 3} {a b : Bool} (e : exec (.backupTamperAlarm n a b) s = .next t) : Tidy s t := by
  have h (g : Backup → Backup) := (sound (.latchTamper s (13 + n.val) a b)).trans (modBk _ g)
  exact next e (ite (ite ((h _).trans (raise _ _ _ _ _)) (h _)) (refl s))
theorem backupSupplyChange {aux : Option (BitVec 2)} {v : Bool} (e : exec (.backupSupplyChange aux v) s = .next t) : Tidy s t := by
  refine next e ?_
  cases aux with
  | none => exact ite (sound (.wellLost s)) (ite (modBk s _) (modBk s _))
  | some x => exact modBk s _
theorem perstAssert (e : exec .perstAssert s = .next t) : Tidy s t := next e ((ite (chipReset s _) (refl s)).trans (start _ _))
theorem openingStepEnd (e : exec .openingStepEnd s = .next t) : Tidy s t := by
  have h (x : KeyStore) : Tidy s { s with keys := x } := same rfl
  refine upTo e ?_
  split
  · exact (h _).trans (writeMark _ _ _)
  · exact (modLife s _).trans (writeMark _ _ _)
  · exact (((modBk s _).trans (writeMark _ _ _)).trans (modLife _ _)).trans (writeMark _ _ _)
  · exact refl s
theorem risingSclkEdge (e : exec .risingSclkEdge s = .next t) : Tidy s t := by
  have hrtc : Tidy s (if s.backup.aux || s.backup.vbat then s.modNow (fun n => { n with rtc := n.rtc + 1 }) else s) :=
    ite (sound (.modNow s _)) (refl s)
  have hmirror (u : State) : Tidy u (if u.start.up then u.modBk (fun b => { b with mirror := b.now }) else u) := ite (modBk u _) (refl u)
  have hcount (u : State) : Tidy u (if u.start.up && !u.glob.admitOpen then { u with start := { u.start with sc := satInc 16 u.start.sc } }
      else u) := ite (start u _) (refl u)
  exact next e ((hrtc.trans (hmirror _)).trans (hcount _))

/-! ## Debug access and the host -/

theorem dbgCore {k : Fin 16} {op : DbgCoreOp} (e : exec (.dbgCore k op) s = .next t) : Tidy s t := by
  have h := modLife s (fun l => { l with session := true })
  refine next e (ite (refl s) ?_)
  cases op with
  | halt =>
    refine ite h (h.trans ?_)
    obtain ⟨i, j, e'⟩ := dropStack_only (s := s.modLife (fun l => { l with session := true })) k.val
    rw [e']
    generalize s.modLife _ = v
    exact trans (t := { v with intc := i, tasks := j }) (same rfl) fun hs => canonical_ctrl hs hs.coreMem
  | resume => exact h.trans fun hs => canonical_ctrl hs hs.coreMem
  | step => exact h
  | read a n => exact h.trans (same rfl)
  | write a b => exact h.trans (sound (.corePoke _ _ _ _))
theorem dbgReg {w : Bool} {a : Nat} {v : Word} (e : exec (.dbgReg w a v) s = .next t) : Tidy s t := by
  have h := modLife s (fun l => { l with session := true })
  exact next e (ite (refl s) (ite (ite h (h.trans (regWrite _ _ _ _ _))) (ite (h.trans (regRead _ _ _ _)) h)))
theorem numvfsLowered {k : Fin 257} (e : exec (.numvfsLowered k) s = .next t) : Tidy s t :=
  run e ((hostif s _).trans (foldl (fun u n => resetCmd u n true) _ _))
theorem pcieLinkUp (e : exec .pcieLinkUp s = .next t) : Tidy s t :=
  upTo e ((((hostif s _).trans (setCause _ _ _)).trans (sound (.postLate _))).trans (calm (.sendAllHeld _)))

end Tidy

/-- A command keeps the canonical form: a quiet one touches nothing of it, the others by what they are made of. -/
theorem Tidy.of_exec {c : Instr} (e : exec c s = .next t) : Tidy s t := by
  by_cases hq : quiet c s = true
  · exact calm (Calm.of_quiet hq e)
  cases c with
  | swathBoundary _ => exact upTo e (ite (sound (.boundary s _)) (refl s))
  | replanStep => exact run e ((replan s).trans (setOffset _ _))
  | commitStep => exact run e ((commitStep s).trans (setOffset _ _))
  | drainComplete => exact drainComplete e
  | planeSwitch _ => exact run e ((switchFields s _ _).trans (setOffset _ _))
  | latePlaneSwitch _ => exact run e (((switchFields s _ _).trans (mirror _ _)).trans (setOffset _ _))
  | admissionStep => exact run e ((ite (admission s) (refl s)).trans (setOffset _ _))
  | editPass _ => exact editPass e
  | editPassEnd _ => exact run e (endPass s _)
  | planeLoadEnd _ _ => exact planeLoadEnd e
  | seedbankAllotment => exact run e ((allotment s).trans (setOffset _ _))
  | seedFloorReached => exact seedFloorReached e
  | workWindowBegins => exact run e (ite (workWindow s) (refl s))
  | tailBegins => exact run e (ite (tail s) (refl s))
  | psEntryAtSwathEnd => exact psEntryAtSwathEnd e
  | unitEnd _ => exact unitEnd e
  | sliceCut _ => exact sliceCut e
  | operationEnd _ _ => exact run e (ite (pieceEnd s _ _) (refl s))
  | digestUnitEnd _ => exact run e (pieceEnd s _ _)
  | jobEnd _ => exact jobEnd e
  | highWaterDurable _ => exact run e (markDurable s _)
  | nvCommitDurable => exact nvCommitDurable e
  | slotReload _ => exact run e (ite (modSlot s _ _) (refl s))
  | remaskComplete _ => exact run e (ite ((foldl cellFails _ s).trans (modKeys _ _)) (refl s))
  | probeTagWrite _ _ => exact run e (probeStart s _ _)
  | faultGroupSampled _ _ _ => exact upTo e (sound (.sample s _ _ _))
  | reactionFence => exact upTo e (react s 5 fun u _ => foldl (fun v _ => fences (.fenceBy v _ _)) _ u)
  | reactionBlockReset => exact upTo e (react s 2 fun u _ => foldl (fun v _ => resetBy v _) _ u)
  | reactionChipReset => exact reactionChipReset e
  | faultPinHoldWrite _ _ => exact run e (ite (holdPin s _) (refl s))
  | fallowEntry _ => exact fallowEntry e
  | registerVote _ _ _ _ _ _ => exact upTo e (sound (.vote s _ _ _ _ _ _))
  | paritySweep l => exact upTo e (sound ((Sound.foldl .disturb l s).trans (.foldl .checkParity _ _)))
  | counterLowRead _ _ => exact upTo e (regRead s _ _ _)
  | registerWrite _ _ _ _ => exact next e (ite (refl s) (regWrite s _ _ _ _))
  | cfgHoldWrite _ _ => exact run e (ite (holdWrite s _) (refl s))
  | slowWriteApply => exact next e (ite (sound (.applySlow s)) (refl s))
  | resetReq _ _ _ => exact next e (resetWrite s _ _ _)
  | perstAssert => exact perstAssert e
  | startEdge _ => exact next e (ite (sound (.startEdge s _)) (refl s))
  | keystoreReloadEnd _ => exact keystoreReloadEnd e
  | mainRailLoss _ => exact mainRailLoss e
  | tamperAlarm _ _ _ => exact next e (ite (alarm s _ _ _) (refl s))
  | backupTamperAlarm _ _ _ => exact backupTamperAlarm e
  | auxRailFall => exact next e (ite ((start s _).trans (modBk _ _)) ((start s _).trans (sound (.wellLost _))))
  | backupSupplyChange _ _ => exact backupSupplyChange e
  | fuseReq _ _ _ _ => exact run e (fuseWrite s _ _ _ _)
  | tamperEnableWrite _ _ _ _ => exact run e (enableWrite s _ _ _ _)
  | rtcLoad _ => exact run e (ite (slowWrite s _ _) (refl s))
  | lcClose _ _ => exact run e (closeReq s _ _)
  | lcOpen _ _ => exact run e (openReq s _ _)
  | finalReq _ _ _ _ => exact run e (finalReq s _ _ _ _)
  | dbgCore _ _ => exact dbgCore e
  | dbgReg _ _ _ => exact dbgReg e
  | instEnable _ _ => exact run e (ite (instCmd s _ _) (refl s))
  | instReset _ _ => exact run e (ite (instCmd s _ _) (refl s))
  | instRemove _ _ => exact run e (ite (instCmd s _ _) (refl s))
  | instVfReset _ => exact run e (resetCmd s _ _)
  | numvfsLowered _ => exact numvfsLowered e
  | queueEnable _ _ _ _ _ => exact run e (ite (setQueueCfg s _ _ _ _) (refl s))
  | mbxUpProd _ _ => exact run e (mbxUp s _ _)
  | mbxDnProd _ _ => exact run e (mbxDn s _ _)
  | bar2Access _ _ _ _ => exact upTo e (ite (sound (.bar2 s _)) (refl s))
  | pcieLinkUp => exact pcieLinkUp e
  | exchange fr => exact run e (receive s fr (takeRows s fr))
  | end_ fr => exact run e (receive s fr (takeEnd s fr))
  | openingStepEnd => exact openingStepEnd e
  | tamperMonitorArmed _ => exact next e (ite (tamper s _) (refl s))
  | risingSclkEdge => exact risingSclkEdge e
  | vbatLowChange _ => exact next e (sound (.modNow s _))
  | _ => exact absurd rfl hq

/-- Settles O3: the front command keeps the canonical form, and so does taking it from the queue. -/
theorem stepKeepsCanonical : Obligations.StepKeepsCanonical := by
  unfold Obligations.StepKeepsCanonical
  intro s t hs e
  unfold step at e
  split at e
  · exact of_next (P := State.Canonical) hs e
  · exact Tidy.of_exec e (canonical_pending hs)

end Sys2Proof.Machine
end
